-- ==== Sys2Proof/Word.lean ====
section
/-! DEFINITION. The word types of the Olithar (R11, R22) and the association list that sparse state is held in. -/

namespace Sys2Proof

/-- One byte of memory or scratchpad (R22). -/
abbrev Byte := BitVec 8
/-- A v-register (R11). -/
abbrev W32 := BitVec 32
/-- An s-register, a PC, a virtual address, an instruction word (R11, R15, R22). -/
abbrev W64 := BitVec 64
/-- The 8-bit register field of an instruction word (R24). -/
abbrev Reg := BitVec 8

/-- Sparse data by natural-number key: keys strictly rising, each at most once. -/
abbrev AMap (β : Type) := List (Nat × β)

/-- Bytes held sparsely by address: keys strictly rising, no entry 0, since an unlisted byte reads 0. -/
abbrev Mem := List Host.Cell

end Sys2Proof
end

