-- ==== Sys2Proof/Syntax.lean ====
section
/-! DEFINITION. The instruction set as syntax: one constructor of `Instr` for each row of the opcode table, words and events. -/

namespace Sys2Proof

/-- The type codes of R72. -/
inductive Ty where
  | i8 | i16 | i32 | i64 | n8 | n16 | n32 | n64 | b8 | b16 | b32 | b64 | b128
  | f64 | f32 | f16 | bf16 | e4m3 | e5m2 | e2m3 | e3m2 | e2m1 | e8m0 | f16x2 | bf16x2
deriving DecidableEq, Repr

/-- The rounding field of R70. -/
inductive Rnd where
  | ctl | rn | rz | rd | ru
deriving DecidableEq, Repr

/-- ORDER (R80). -/
inductive Order where
  | rlx | acq | rel | ar
deriving DecidableEq, Repr

/-- SCOPE (R80). -/
inductive Scope where
  | thread | group | team | core | die | pkg | sys
deriving DecidableEq, Repr

/-- SZ, the access size and extension of a load or store (R78). -/
inductive Sz where
  | n8 | i8 | n16 | i16 | n32 | i32 | b64 | b128
deriving DecidableEq, Repr

/-- EVP (R81). -/
inductive Evp where
  | dflt | first | last | keep
deriving DecidableEq, Repr

/-- ETYPE of LD.MX and ST.MX (R78). -/
inductive EType where
  | e4m3 | e5m2 | e2m3 | e3m2 | e2m1
deriving DecidableEq, Repr

/-- ATYPE of the atomics (R79). -/
inductive AType where
  | i32 | n32 | i64 | n64 | f32 | f64 | b32 | b64
deriving DecidableEq, Repr

/-- AOP of the atomics (R79). -/
inductive AOp where
  | add | min | max | and | or | xor | exch | cas
deriving DecidableEq, Repr

/-- The half-opcodes of the pair form (R85). -/
inductive Hop where
  | iadd | isub | imul | imin | imax | nmin | nmax | and | or | xor | shl | shr | sar | rot
  | fadd | fsub | fmul | fmin | fmax | fminn | fmaxn
deriving DecidableEq, Repr

/-- The guard of a full-form word (R27): the predicate `p`, inverted when `neg`. -/
structure Guard where
  neg : Bool
  p : BitVec 3
deriving DecidableEq, Repr

/-- The register layout (R25, R70). -/
structure RegF where
  g : Guard
  x : Bool
  d : Reg
  a : Reg
  b : Reg
  c : Reg
  bs : Bool
  ty : Ty
  rnd : Rnd
  sat : Bool
  op : BitVec 4
  aux : BitVec 5
deriving DecidableEq, Repr

/-- The immediate layout (R25, R75); SUB is the constructor. -/
structure ImmF where
  g : Guard
  x : Bool
  d : Reg
  a : Reg
  imm : BitVec 24
  ty : Ty
  sat : Bool
deriving DecidableEq, Repr

/-- The wide layout (R25, R76). -/
structure WideF where
  g : Guard
  x : Bool
  d : Reg
  imm : W32
  sx : Bool
deriving DecidableEq, Repr

/-- The branch layout (R25, R77); `off` counts words. -/
structure BrF where
  g : Guard
  d : Reg
  off : W32
  u : Bool
deriving DecidableEq, Repr

/-- The fields BRX and RET use (R127, R129). -/
structure TgtF where
  g : Guard
  b : Reg
  bs : Bool
  u : Bool
deriving DecidableEq, Repr

/-- The fields BPT and TRAP use (R134). -/
structure CodeF where
  g : Guard
  code : BitVec 8
deriving DecidableEq, Repr

/-- The memory layout without its modifiers (R25, R78). -/
structure MemF where
  g : Guard
  x : Bool
  d : Reg
  a : Reg
  b : Reg
  off : BitVec 16
deriving DecidableEq, Repr

/-- The modifiers of LD, ST, LDS and STS (R78). -/
structure LsMod where
  sz : Sz
  order : Order
  scope : Scope
  evp : Evp
  lu : Bool
deriving DecidableEq, Repr

/-- The modifiers of LDR (R78). -/
structure LdrMod where
  sz : Sz
  order : Order
  scope : Scope
  pd : BitVec 3
deriving DecidableEq, Repr

/-- The modifiers of LD.MX and ST.MX (R78). -/
structure MxMod where
  et : EType
  order : Order
  scope : Scope
deriving DecidableEq, Repr

/-- The modifiers of ATOM, ATOMV and RED (R79). -/
structure AtMod where
  aty : AType
  order : Order
  scope : Scope
  aop : AOp
deriving DecidableEq, Repr

/-- The engine layout (R83). -/
structure EngF where
  g : Guard
  x : Bool
  d : Reg
  a : Reg
  b : Reg
  c : Reg
  opf : BitVec 16
deriving DecidableEq, Repr

/-- The system layout (R84). -/
structure SysF where
  g : Guard
  x : Bool
  d : Reg
  a : Reg
  crx : BitVec 12
deriving DecidableEq, Repr

/-- The second source of a half-op (R28). -/
inductive HalfSrc where
  | reg (a : Reg)
  | imm (v : BitVec 16)
deriving DecidableEq, Repr

/-- One half-op of a pair (R28). -/
structure Half where
  hop : Hop
  d : Reg
  src : HalfSrc
deriving DecidableEq, Repr

/-- One group: a team's number and the index of the group in it. -/
structure GRef where
  team : Nat
  ix : Nat
deriving DecidableEq, Repr

/-- A command of a command queue (R439). -/
structure Cmd where
  op : Nat
  tag : W32
  arg0 : W64
  arg1 : W64
  /-- a reserved field of the command is nonzero -/
  rsv : Bool
deriving DecidableEq, Repr

/-- The cache that an EVICTION concerns, with what leaves it (R226, R230, R238, R254). -/
inductive CacheLine where
  | l1 (core sector : Nat)
  | icache (core line : Nat)
  | l2 (line : Nat)
  | msc (line : Nat)
  | tlb (loc index : Nat)
deriving DecidableEq, Repr

/-- What reaches a router of a reduction tree (R443): a contribution of a core, the message on the link from a router, or over
Jiath a peer's input (its kind and values, none for a TIMEOUT mark) or the root's broadcast. What comes over Jiath names its tree
and round, of which this device may not have heard yet. -/
inductive NetSrc where
  | core (core : Nat)
  | link (router : Nat)
  | peer (dev tree num kind : Nat) (vals : Option (List Nat))
  | answer (tree num code : Nat) (vals : List Nat)
deriving DecidableEq, Repr

/-- Where an uncorrectable error stands (R250, R251): a memory sector, a scratchpad line of a team, a register or accumulator of
a team, a sector of an L1, or a line of an instruction cache. -/
inductive ErrAt where
  | sector (sec : Nat)
  | scratch (team line : Nat)
  | reg (team reg : Nat)
  | l1 (core sec : Nat)
  | icache (core line : Nat)
deriving DecidableEq, Repr

/-- The rings of a command queue (R438): the address and entries of its commands, and of its completions. -/
structure Ring where
  base : W64
  size : Nat
  cbase : W64
  csize : Nat
deriving DecidableEq, Repr

/-- What a peer sends to this device's stakes and cores (R430, R431): an AWAIT or POLL of a thread there, under a number that the
answer returns; a DROP; an invocation, with its handler word, payload, new stake, ASID and priority, for a target word (by
INVOKE.CORE or INVOKE.DIE) or a stake; and an invocation of this device that a stake there lets through to its result core here. -/
inductive PeerMsg where
  | ask (poll : Bool) (tag : Nat) (stake : W64)
  | drop (stake : W64)
  | invoke (byDie : Bool) (target word : W64) (payload : List Byte) (stake : W64) (asid : BitVec 12) (prio : Nat)
  | chain (via word : W64) (payload : List Byte) (stake : W64) (asid : BitVec 12) (prio : Nat)
  | forward (inv : Nat)
deriving DecidableEq, Repr

/-- What a peer asks of this device's memory (R436, R437). -/
inductive PeerReq where
  | read (len : Nat)
  | write (data : List Byte)
  | atomic (aty : AType) (aop : AOp) (elems : List (Nat × Nat)) (ret : Bool)
deriving DecidableEq, Repr

/-- An inbound PCI Express request to memory, or to BAR0 at an offset (R453, R457). -/
inductive PcieReq where
  | read (addr : W64) (len : Nat)
  | write (addr : W64) (data : List Byte)
  | barRead (off len : Nat)
  | barWrite (off : Nat) (data : List Byte)
deriving DecidableEq, Repr

/-- One row of the opcode table each. The words come first, then the events. -/
inductive Instr where
  | pair (u l : Half)
  | bra (f : BrF)
  | brx (f : TgtF)
  | call (f : BrF)
  | ret (f : TgtF)
  | exit (g : Guard)
  | yield (g : Guard)
  | nop (g : Guard)
  | bpt (f : CodeF)
  | trap (f : CodeF)
  | iadd (f : RegF)
  | isub (f : RegF)
  | iaddc (f : RegF)
  | isubb (f : RegF)
  | imul (f : RegF)
  | imulh (f : RegF)
  | imad (f : RegF)
  | imadw (f : RegF)
  | idiv (f : RegF)
  | irem (f : RegF)
  | ineg (f : RegF)
  | iabs (f : RegF)
  | imin (f : RegF)
  | imax (f : RegF)
  | isad (f : RegF)
  | idot4 (f : RegF)
  | icmp (f : RegF)
  | and (f : RegF)
  | or (f : RegF)
  | xor (f : RegF)
  | not (f : RegF)
  | lop3 (f : RegF)
  | shl (f : RegF)
  | shr (f : RegF)
  | sar (f : RegF)
  | rot (f : RegF)
  | fshfL (f : RegF)
  | fshfR (f : RegF)
  | bfe (f : RegF)
  | bfi (f : RegF)
  | popc (f : RegF)
  | clz (f : RegF)
  | ctz (f : RegF)
  | brev (f : RegF)
  | prmt (f : RegF)
  | iaddImm (f : ImmF)
  | isubImm (f : ImmF)
  | imulImm (f : ImmF)
  | iminImm (f : ImmF)
  | imaxImm (f : ImmF)
  | andImm (f : ImmF)
  | orImm (f : ImmF)
  | xorImm (f : ImmF)
  | shlImm (f : ImmF)
  | shrImm (f : ImmF)
  | sarImm (f : ImmF)
  | rotImm (f : ImmF)
  | fadd (f : RegF)
  | fsub (f : RegF)
  | fmul (f : RegF)
  | ffma (f : RegF)
  | fmin (f : RegF)
  | fmax (f : RegF)
  | fminn (f : RegF)
  | fmaxn (f : RegF)
  | fcmp (f : RegF)
  | fclass (f : RegF)
  | frnd (f : RegF)
  | fscale (f : RegF)
  | fdiv (f : RegF)
  | fsqrt (f : RegF)
  | frcp (f : RegF)
  | frsq (f : RegF)
  | fexp2 (f : RegF)
  | flog2 (f : RegF)
  | fsin (f : RegF)
  | fcos (f : RegF)
  | ftanh (f : RegF)
  | faddImm (f : ImmF)
  | fsubImm (f : ImmF)
  | fmulImm (f : ImmF)
  | fminImm (f : ImmF)
  | fmaxImm (f : ImmF)
  | fminnImm (f : ImmF)
  | fmaxnImm (f : ImmF)
  | cvt (f : RegF)
  | qpack (f : RegF)
  | qunpk (f : RegF)
  | mxq (f : RegF)
  | mov (f : RegF)
  | movi (f : WideF)
  | movh (f : WideF)
  | sel (f : RegF)
  | pset (f : RegF)
  | pmovV (f : RegF)
  | pmovP (f : RegF)
  | mfs (f : RegF)
  | mts (f : RegF)
  | ld (m : MemF) (k : LsMod)
  | st (m : MemF) (k : LsMod)
  | lds (m : MemF) (k : LsMod)
  | sts (m : MemF) (k : LsMod)
  | ldr (m : MemF) (k : LdrMod)
  | preq (m : MemF)
  | ldMx (m : MemF) (k : MxMod)
  | stMx (m : MemF) (k : MxMod)
  | atom (m : MemF) (k : AtMod)
  | atomv (m : MemF) (k : AtMod)
  | red (m : MemF) (k : AtMod)
  | fence (m : MemF) (o : Order) (sc : Scope)
  | cctlLine (m : MemF)
  | cctlAll (m : MemF)
  | cctlIfetch (m : MemF)
  | tlbiPage (m : MemF)
  | tlbiAsid (m : MemF)
  | tlbiAll (m : MemF)
  | txbegin (f : RegF)
  | txbeginTs (f : RegF)
  | txbeginO (f : RegF)
  | txcommit (f : RegF)
  | txabort (f : RegF)
  | txstat (f : RegF)
  | sdopen (f : RegF)
  | shfl (f : RegF)
  | voteEvery (f : RegF)
  | voteSome (f : RegF)
  | voteSame (f : RegF)
  | voteMask (f : RegF)
  | matchPeers (f : RegF)
  | matchUniform (f : RegF)
  | elect (f : RegF)
  | voteCount (f : RegF)
  | gred (f : RegF)
  | barInit (f : RegF)
  | barArr (f : RegF)
  | barArrRmt (f : RegF)
  | barWait (f : RegF)
  | barSync (f : RegF)
  | spawn (f : RegF)
  | sync (f : RegF)
  | endt (f : RegF)
  | invokeCore (f : RegF)
  | invokeAny (f : RegF)
  | invokeStake (f : RegF)
  | invokeDie (f : RegF)
  | await (f : RegF)
  | poll (f : RegF)
  | fulfil (f : RegF)
  | brk (f : RegF)
  | drop (f : RegF)
  | copy (f : EngF)
  | copyMc (f : EngF)
  | fill (f : EngF)
  | mshape (f : EngF)
  | mma (f : EngF)
  | accld (f : EngF)
  | accst (f : EngF)
  | accz (f : EngF)
  | waitc (f : EngF)
  | monw (f : EngF)
  | nred (f : EngF)
  | nbar (f : EngF)
  | eret (f : SysF)
  | mfc (f : SysF)
  | mtc (f : SysF)
  | mtcPtbase (f : SysF)
  | mtcAsid (f : SysF)
  | halt (f : SysF)
  /- The events (R152 to R465). A team is named by its number, a group by `GRef`, a queue, a grid, an
  operation, a join frame, a stake message and a round by their numbers in the state. -/
  | teamAdmission
  | taskAdmission (die : Nat)
  | placement (core : Nat)
  | preemption
  | preemptionSave (team : Nat)
  | teamResume (team : Nat)
  | fold (frame : Nat)
  | mergeGroupRetire (g : GRef)
  | syncApplication (frame : Nat)
  | gridCompletion (grid : Nat)
  | launchCompletion (grid : Nat)
  | stakeMessage (index : Nat)
  | lineDelivered (op team line : Nat)
  | engineOpComplete (op : Nat)
  | mcDrain (op team : Nat)
  | matrixOpStart (core : Nat)
  | monitorReread (mon : Nat)
  | monitorPoll (mon : Nat)
  | monitorTimeout (mon : Nat)
  | commitRound (g : GRef)
  | cairn (g : GRef)
  | orderedCommit (g : GRef)
  | irrevocableBegin (g : GRef) (lane : Nat)
  | watchdog (g : GRef) (lane : Nat)
  | accessPerform (acc : Nat)
  | eviction (l : CacheLine)
  | spontaneousWriteback (sector : Nat) (toDram : Bool)
  | refresh (bank : Nat)
  | contextFatalReport (e : ErrAt)
  | trapEntry (g : GRef)
  | asyncFaultDelivery (g : GRef)
  | handlerWatchdog (g : GRef)
  | remoteArrival (index : Nat)
  | remoteAck (acc : Nat)
  | peerAccess (dev off : Nat) (r : PeerReq)
  | flitReceive (port dev len : Nat) (ok : Bool) (payload : List Byte)
  | portDown (port : Nat)
  | peerLost (dev : Nat)
  | routerInput (round : Nat) (src : NetSrc)
  | roundTimeout (round node : Nat)
  | roundComplete (round core : Nat)
  | doorbell (queue index : Nat)
  | launch (queue : Nat)
  | contextCreate (queue : Nat)
  | contextAttach (queue : Nat)
  | contextDestroy (queue : Nat)
  | checkpoint (queue : Nat)
  | restore (queue : Nat)
  | dieReset (queue : Nat)
  | exportWindow (queue : Nat)
  | dieReadmission (die : Nat) (ok : Bool)
  | routerFailure (die router : Nat)
  | fabricError (die : Nat)
  | proxyAnswer (index : Nat)
  | coreReset (die : Nat)
  | moduleReset
  | trainingComplete (iod1 : Bool)
  | dieAdmission (die : Nat) (ok : Bool)
  | jiathTraining (dev : Nat) (ports : List Nat) (peers : List Nat)
  | jiathTrainingTimeout
  | loadFirmware (addr : W64) (len : Nat)
  | setPriv (ctx : Nat)
  | clearPriv (ctx : Nat)
  | readSensors
  | setPowerLimit (watts : Nat)
  | setAccess (target master : Nat) (rights : BitVec 8)
  | getVersion
  | getCapabilities
  | negotiateAlgorithms
  | getDigests
  | getCertificate
  | challenge (nonce : List Byte)
  | pop (log n : Nat)
  | ovfClear (log : Nat)
  | throttle (up : Bool)
  | pciExpressRequest (fn : Nat) (r : PcieReq)
  | getMeasurements
  | thermalTrip
  | thermalRelease
deriving DecidableEq, Repr

end Sys2Proof
end

