-- ==== Sys2Proof/WellFormed.lean ====
section
/-! DEFINITION. Which instructions the spec allows: the operand kinds of every register form, and the checks of R31 row 3 that are not about reserved bits (those are the decoder's). -/

namespace Sys2Proof

/-- The code of a type (R72). -/
def Ty.code : Ty → BitVec 5
  | .i8 => 0 | .i16 => 1 | .i32 => 2 | .i64 => 3 | .n8 => 4 | .n16 => 5 | .n32 => 6 | .n64 => 7
  | .b8 => 8 | .b16 => 9 | .b32 => 10 | .b64 => 11 | .b128 => 12
  | .f64 => 16 | .f32 => 17 | .f16 => 18 | .bf16 => 19 | .e4m3 => 20 | .e5m2 => 21 | .e2m3 => 22
  | .e3m2 => 23 | .e2m1 => 24 | .e8m0 => 25 | .f16x2 => 26 | .bf16x2 => 27

/-- The type of a code; codes 13 to 15 and 28 to 31 are undefined (R72). -/
def Ty.ofCode (c : Nat) : Option Ty :=
  match c with
  | 0 => some .i8 | 1 => some .i16 | 2 => some .i32 | 3 => some .i64
  | 4 => some .n8 | 5 => some .n16 | 6 => some .n32 | 7 => some .n64
  | 8 => some .b8 | 9 => some .b16 | 10 => some .b32 | 11 => some .b64 | 12 => some .b128
  | 16 => some .f64 | 17 => some .f32 | 18 => some .f16 | 19 => some .bf16 | 20 => some .e4m3
  | 21 => some .e5m2 | 22 => some .e2m3 | 23 => some .e3m2 | 24 => some .e2m1 | 25 => some .e8m0
  | 26 => some .f16x2 | 27 => some .bf16x2
  | _ => none

/-- The width of a type in bits (R44, R47, R48). -/
def Ty.width : Ty → Nat
  | .i8 => 8 | .i16 => 16 | .i32 => 32 | .i64 => 64 | .n8 => 8 | .n16 => 16 | .n32 => 32 | .n64 => 64
  | .b8 => 8 | .b16 => 16 | .b32 => 32 | .b64 => 64 | .b128 => 128
  | .f64 => 64 | .f32 => 32 | .f16 => 16 | .bf16 => 16 | .e4m3 => 8 | .e5m2 => 8 | .e2m3 => 6
  | .e3m2 => 6 | .e2m1 => 4 | .e8m0 => 8 | .f16x2 => 32 | .bf16x2 => 32

/-- A signed integer type (R44). -/
def Ty.signed : Ty → Bool
  | .i8 | .i16 | .i32 | .i64 => true
  | _ => false

/-- A packed type (R46). -/
def Ty.packed : Ty → Bool
  | .f16x2 | .bf16x2 => true
  | _ => false

/-- How many v-registers a value of a width occupies (R12). -/
def regsOf (w : Nat) : Nat := if w ≤ 32 then 1 else if w ≤ 64 then 2 else 4

/-- What a register field of the register layout holds (R12, R26, R88). -/
inductive Fk where
  /-- unused: 0 -/
  | none
  /-- an operand of TYPE's width -/
  | ty
  /-- an operand of the source type in AUX (R122) -/
  | src
  /-- a single register -/
  | one
  /-- an even pair -/
  | pair
  /-- a predicate in bits 2 to 0 -/
  | pred
  /-- an s-register named by B with BS = 1 required (R319) -/
  | unif
  /-- an 8-bit index or code -/
  | code
  /-- a run of AUX registers that starts at a multiple of 4 (R206) -/
  | run
  /-- the packed result of MXQ (R125) -/
  | mxd
  /-- the 32 sources of MXQ (R125) -/
  | mxa
deriving DecidableEq, Repr

/-- The values a control field may take. -/
inductive Use where
  | zero | one | any
deriving DecidableEq, Repr

/-- The meaning of AUX (R70). -/
inductive AuxUse where
  | zero | pred | lut | src | run | bar | span
deriving DecidableEq, Repr

/-- The form of a register-layout instruction. -/
structure RegSpec where
  major : BitVec 7
  /-- the values OP may take -/
  ops : List Nat
  types : List Ty
  x0 : Bool
  x1 : Bool
  d : Fk
  a : Fk
  b : Fk
  c : Fk
  rnd : Bool
  sat : Use
  aux : AuxUse
deriving DecidableEq, Repr

def tysI : List Ty := [.i32, .n32, .i64, .n64]
def tysB : List Ty := [.b32, .b64]
def tysF : List Ty := [.f64, .f32, .f16, .bf16, .f16x2, .bf16x2]
def tysF4 : List Ty := [.f64, .f32, .f16, .bf16]
def tysF3 : List Ty := [.f32, .f16, .bf16]
def tysQ : List Ty := [.f16, .bf16, .e4m3, .e5m2, .e3m2, .e2m3, .e2m1]
def tysCvt : List Ty :=
  [.i8, .i16, .i32, .i64, .n8, .n16, .n32, .n64,
   .f64, .f32, .f16, .bf16, .e4m3, .e5m2, .e2m3, .e3m2, .e2m1, .e8m0]
def tys0 : List Ty := [.i8]
def ops0 : List Nat := [0]

/-- A form with X = 0 or 1, sources a and b of TYPE's width. -/
def sp2 (major : BitVec 7) (types : List Ty) (sat : Use) : RegSpec :=
  ⟨major, ops0, types, true, true, .ty, .ty, .ty, .none, false, sat, .zero⟩
/-- A form with one source a. -/
def sp1 (major : BitVec 7) (types : List Ty) (sat : Use) : RegSpec :=
  ⟨major, ops0, types, true, true, .ty, .ty, .none, .none, false, sat, .zero⟩
/-- A rounded float form with sources a and b. -/
def spF2 (major : BitVec 7) (types : List Ty) (rnd : Bool) : RegSpec :=
  ⟨major, ops0, types, true, true, .ty, .ty, .ty, .none, rnd, .zero, .zero⟩
/-- A float form with one source a. -/
def spF1 (major : BitVec 7) (types : List Ty) (rnd : Bool) : RegSpec :=
  ⟨major, ops0, types, true, true, .ty, .ty, .none, .none, rnd, .zero, .zero⟩
/-- A form of major 0x2D. -/
def spBit (op : Nat) (d : Fk) : RegSpec :=
  ⟨0x2D, [op], tysB, true, true, d, .ty, .none, .none, false, .zero, .zero⟩
/-- A form of majors 0x71, 0x74 to 0x77 and 0x6C to 0x6E: X = 0, TYPE, RND and SAT zero. -/
def spP (major : BitVec 7) (op : Nat) (d a b c : Fk) (aux : AuxUse) : RegSpec :=
  ⟨major, [op], tys0, true, false, d, a, b, c, false, .zero, aux⟩
/-- A form of major 0x73: X = 1 (R200). -/
def spBar (op : Nat) (sat : Use) (d a b : Fk) : RegSpec :=
  ⟨0x73, [op], tys0, false, true, d, a, b, .none, false, sat, .bar⟩

/-- The form and the fields of a register-layout instruction whose operands the general rules check. -/
def regInfo : Instr → Option (RegSpec × RegF)
  | .iadd f => some (sp2 0x10 tysI .any, f)
  | .isub f => some (sp2 0x11 tysI .any, f)
  | .iaddc f => some ({ sp2 0x12 [.n32, .n64] .zero with aux := .pred }, f)
  | .isubb f => some ({ sp2 0x13 [.n32, .n64] .zero with aux := .pred }, f)
  | .imul f => some (sp2 0x14 tysI .zero, f)
  | .imulh f => some (sp2 0x15 tysI .zero, f)
  | .imad f => some ({ sp2 0x16 tysI .zero with c := .ty }, f)
  | .imadw f => some ({ sp2 0x17 [.i32, .n32] .zero with d := .pair, c := .pair }, f)
  | .idiv f => some (sp2 0x18 tysI .zero, f)
  | .irem f => some (sp2 0x19 tysI .zero, f)
  | .ineg f => some (sp1 0x1A [.i32, .i64] .any, f)
  | .iabs f => some (sp1 0x1B [.i32, .i64] .any, f)
  | .imin f => some (sp2 0x1C tysI .zero, f)
  | .imax f => some (sp2 0x1D tysI .zero, f)
  | .isad f => some ({ sp2 0x1E [.i32, .n32] .zero with c := .ty }, f)
  | .idot4 f => some ({ sp2 0x1F [.i8, .n8] .any with x1 := false, d := .one, a := .one, b := .one, c := .one }, f)
  | .icmp f => some ({ sp2 0x20 tysI .zero with ops := [0, 1, 2, 3, 4, 5], d := .pred }, f)
  | .and f => some (sp2 0x21 tysB .zero, f)
  | .or f => some (sp2 0x22 tysB .zero, f)
  | .xor f => some (sp2 0x23 tysB .zero, f)
  | .not f => some (sp1 0x24 tysB .zero, f)
  | .lop3 f => some ({ sp2 0x25 tysB .zero with ops := List.range 16, c := .ty, aux := .lut }, f)
  | .shl f => some ({ sp2 0x26 tysB .zero with b := .one }, f)
  | .shr f => some ({ sp2 0x27 tysB .zero with b := .one }, f)
  | .sar f => some ({ sp2 0x28 [.i32, .i64] .zero with b := .one }, f)
  | .rot f => some ({ sp2 0x29 tysB .zero with b := .one }, f)
  | .fshfL f => some ({ sp2 0x2A tysB .zero with c := .one }, f)
  | .fshfR f => some ({ sp2 0x2A tysB .zero with ops := [1], c := .one }, f)
  | .bfe f => some ({ sp2 0x2B tysI .zero with b := .one }, f)
  | .bfi f => some ({ sp2 0x2C tysB .zero with b := .one, c := .ty }, f)
  | .popc f => some (spBit 0 .one, f)
  | .clz f => some (spBit 1 .one, f)
  | .ctz f => some (spBit 2 .one, f)
  | .brev f => some (spBit 3 .ty, f)
  | .prmt f => some ({ sp2 0x2F [.b32] .zero with c := .one }, f)
  | .fadd f => some (spF2 0x30 tysF true, f)
  | .fsub f => some (spF2 0x31 tysF true, f)
  | .fmul f => some (spF2 0x32 tysF true, f)
  | .ffma f => some ({ spF2 0x33 tysF true with c := .ty }, f)
  | .fmin f => some (spF2 0x34 tysF false, f)
  | .fmax f => some (spF2 0x35 tysF false, f)
  | .fminn f => some (spF2 0x36 tysF false, f)
  | .fmaxn f => some (spF2 0x37 tysF false, f)
  | .fcmp f => some ({ spF2 0x38 tysF4 false with ops := List.range 13, d := .pred }, f)
  | .fclass f => some ({ spF1 0x39 tysF4 false with d := .one }, f)
  | .frnd f => some (spF1 0x3A tysF true, f)
  | .fscale f => some ({ spF2 0x3B tysF true with b := .one }, f)
  | .fdiv f => some (spF2 0x3C tysF4 true, f)
  | .fsqrt f => some (spF1 0x3D tysF4 true, f)
  | .frcp f => some (spF1 0x3E tysF3 false, f)
  | .frsq f => some (spF1 0x3F tysF3 false, f)
  | .fexp2 f => some (spF1 0x40 (tysF3 ++ [.f16x2, .bf16x2]) false, f)
  | .flog2 f => some (spF1 0x41 tysF3 false, f)
  | .fsin f => some (spF1 0x42 tysF3 false, f)
  | .fcos f => some (spF1 0x43 tysF3 false, f)
  | .ftanh f => some (spF1 0x44 (tysF3 ++ [.f16x2, .bf16x2]) false, f)
  | .cvt f => some (⟨0x50, ops0, tysCvt, true, true, .ty, .src, .none, .none, true, .any, .src⟩, f)
  | .qpack f => some (⟨0x51, List.range 4, tysQ, true, false, .one, .one, .one, .none, true, .any, .zero⟩, f)
  | .qunpk f => some (⟨0x52, List.range 4, tysQ, true, false, .pair, .one, .none, .none, false, .zero, .zero⟩, f)
  | .mxq f => some (⟨0x53, ops0, [.e4m3, .e5m2, .e2m3, .e3m2, .e2m1], true, false, .mxd, .mxa, .none, .one, true, .zero, .zero⟩, f)
  | .mov f => some (⟨0x58, ops0, [.b32, .b64, .b128], true, true, .ty, .none, .ty, .none, false, .zero, .zero⟩, f)
  | .sel f => some ({ sp2 0x5B tysB .zero with c := .pred }, f)
  | .pset f => some (⟨0x5C, List.range 16, tys0, true, false, .pred, .pred, .pred, .pred, false, .zero, .lut⟩, f)
  | .pmovV f => some (⟨0x5D, [0], tys0, true, false, .one, .none, .none, .none, false, .zero, .zero⟩, f)
  | .pmovP f => some (⟨0x5D, [1], tys0, true, false, .none, .one, .none, .none, false, .zero, .zero⟩, f)
  | .mfs f => some (⟨0x5E, ops0, tysB, true, true, .ty, .none, .code, .none, false, .zero, .zero⟩, f)
  | .mts f => some (⟨0x5F, ops0, tysB, true, true, .none, .ty, .code, .none, false, .zero, .zero⟩, f)
  | .txbegin f => some (spP 0x6C 0 .one .none .none .none .zero, f)
  | .txbeginTs f => some (spP 0x6C 1 .one .none .none .none .zero, f)
  | .txbeginO f => some (spP 0x6C 2 .one .none .unif .pred .zero, f)
  | .txcommit f => some (spP 0x6D 0 .one .none .none .none .zero, f)
  | .txabort f => some (spP 0x6E 0 .none .none .none .code .zero, f)
  | .txstat f => some (spP 0x6E 1 .one .none .none .none .zero, f)
  | .sdopen f => some ({ spP 0x6F 0 .one .one .one .none .zero with x0 := false, x1 := true }, f)
  | .shfl f => some (⟨0x70, List.range 5, tysB, true, false, .ty, .ty, .one, .pred, false, .zero, .span⟩, f)
  | .voteEvery f => some (spP 0x71 0 .pred .pred .none .none .zero, f)
  | .voteSome f => some (spP 0x71 1 .pred .pred .none .none .zero, f)
  | .voteSame f => some (spP 0x71 2 .pred .pred .none .none .zero, f)
  | .voteMask f => some (spP 0x71 3 .one .pred .none .none .zero, f)
  | .matchPeers f => some ({ spP 0x71 4 .one .ty .none .none .zero with types := tysB }, f)
  | .matchUniform f => some ({ spP 0x71 5 .one .ty .none .pred .zero with types := tysB }, f)
  | .elect f => some (spP 0x71 6 .pred .none .none .none .zero, f)
  | .voteCount f => some (spP 0x71 7 .one .pred .none .none .zero, f)
  | .gred f => some (⟨0x72, List.range 6, [.i32, .n32, .i64, .n64, .f32, .f64, .b32, .b64], true, false, .ty, .ty, .none, .none, true, .zero, .zero⟩, f)
  | .barInit f => some (spBar 0 .zero .none .one .none, f)
  | .barArr f => some (spBar 1 .zero .one .none .none, f)
  | .barArrRmt f => some (spBar 1 .one .none .none .one, f)
  | .barWait f => some (spBar 2 .zero .none .one .none, f)
  | .barSync f => some (spBar 3 .zero .none .none .none, f)
  | .spawn f => some (spP 0x74 0 .one .none .pair .none .zero, f)
  | .sync f => some (spP 0x75 0 .none .none .pair .none .zero, f)
  | .endt f => some (spP 0x75 1 .none .none .none .none .zero, f)
  | .invokeCore f => some (spP 0x76 0 .pair .pair .one .run .run, f)
  | .invokeAny f => some (spP 0x76 1 .pair .pair .none .run .run, f)
  | .invokeStake f => some (spP 0x76 2 .pair .pair .pair .run .run, f)
  | .invokeDie f => some (spP 0x76 3 .pair .pair .one .run .run, f)
  | .await f => some (spP 0x77 0 .pair .none .pair .run .run, f)
  | .poll f => some (spP 0x77 1 .pair .none .pair .run .run, f)
  | .fulfil f => some (spP 0x77 2 .none .run .none .none .run, f)
  | .brk f => some (spP 0x77 3 .none .none .none .none .zero, f)
  | .drop f => some (spP 0x77 4 .none .none .pair .none .zero, f)
  | _ => none

/-- The number of registers an MX element run takes (R125, R333). -/
def mxRegs : Ty → Nat
  | .e4m3 | .e5m2 => 8
  | .e2m3 | .e3m2 => 6
  | _ => 4
def ETypeRegs : EType → Nat
  | .e4m3 | .e5m2 => 8
  | .e2m3 | .e3m2 => 6
  | .e2m1 => 4
/-- The alignment of an MX element run (R125, R333). -/
def mxAlign (m : Nat) : Nat := if m = 4 then 4 else 8

/-- A run of v-registers that starts at a multiple of what its width asks (R12). -/
def alignedTo (r : Reg) (k : Nat) : Bool := r.toNat % k == 0

/-- The v-registers that a field of a register-layout word names: start and number (R14). -/
def fieldRegs (k : Fk) (f : RegF) (r : Reg) : List (Nat × Nat) :=
  match k with
  | .ty => [(r.toNat, regsOf f.ty.width)]
  | .src => [(r.toNat, regsOf (((Ty.ofCode f.aux.toNat).map Ty.width).getD 32))]
  | .one => [(r.toNat, 1)]
  | .pair => [(r.toNat, 2)]
  | .run => if f.aux.toNat = 0 then [] else [(r.toNat, f.aux.toNat)]
  | .mxd => [(r.toNat, mxRegs f.ty)]
  | .mxa => [(r.toNat, 32)]
  | _ => []

/-- A field within its range: alignment of runs, s-registers below 64, predicates in bits 2 to 0 (R12, R26). -/
def fieldOk (k : Fk) (f : RegF) (bs : Bool) (r : Reg) : Bool :=
  match k with
  | .none => r == 0
  | .pred => r.toNat < 8
  | .code => true
  | .unif => bs && r.toNat < 64
  | .ty => if f.x || bs then r.toNat < 64 else alignedTo r (regsOf f.ty.width)
  | .src => if f.x then r.toNat < 64
      else alignedTo r (regsOf (((Ty.ofCode f.aux.toNat).map Ty.width).getD 32))
  | .one => if f.x || bs then r.toNat < 64 else true
  | .pair => if f.x || bs then r.toNat < 64 else alignedTo r 2
  | .run => if f.aux.toNat = 0 then r == 0 else alignedTo r 4
  | .mxd => alignedTo r (mxAlign (mxRegs f.ty))
  | .mxa => alignedTo r 32

/-- B may name an s-register through BS (R26). -/
def bsAllowed (k : Fk) (f : RegF) : Bool :=
  match k with
  | .ty => !f.x && f.ty != .b128
  | .one => !f.x
  | .pair => !f.x
  | .unif => true
  | _ => false

def useOk (u : Use) (b : Bool) : Bool :=
  match u with
  | .zero => !b
  | .one => b
  | .any => true

def auxOk (u : AuxUse) (f : RegF) : Bool :=
  match u with
  | .zero => f.aux == 0
  | .pred => f.aux.toNat < 8
  | .lut => f.aux.toNat % 2 == 0
  | .src => match Ty.ofCode f.aux.toNat with
    | some t => tysCvt.contains t
    | none => false
  | .run => f.aux.toNat ≤ 16
  | .bar => f.aux.toNat < 16
  | .span => f.aux.toNat ≤ 5

/-- The general checks of a register-layout form (R26, R68 to R72, R90). -/
def regOk (s : RegSpec) (f : RegF) : Bool :=
  (if f.x then s.x1 && !f.ty.packed && f.ty != .b128 else s.x0) &&
  s.ops.contains f.op.toNat && s.types.contains f.ty &&
  (s.rnd || f.rnd == .ctl) && useOk s.sat f.sat && auxOk s.aux f &&
  (!f.bs || bsAllowed s.b f) &&
  fieldOk s.d f false f.d && fieldOk s.a f false f.a && fieldOk s.b f f.bs f.b && fieldOk s.c f false f.c

/-- The elements of a QPACK register (R123). -/
def qElems : Ty → Nat
  | .f16 | .bf16 => 2
  | .e2m1 => 8
  | _ => 4

/-- The special-register indices of R17. -/
def srListed (i : Nat) : Bool := i ≤ 0x0E
/-- The special registers that MTS may write (R17). -/
def srWritable (i : Nat) : Bool := i == 0x0A || i == 0x0B

/-- What single instructions ask beyond the general checks. -/
def regExtra : Instr → Bool
  | .cvt f => !f.sat || (f.ty != .f32 && f.ty != .f64)
  | .qpack f => 2 * f.op.toNat < qElems f.ty
  | .qunpk f => 2 * f.op.toNat < qElems f.ty
  | .mfs f => srListed f.b.toNat
  | .mts f => srWritable f.b.toNat
  | .gred f =>
    let isB := f.ty == .b32 || f.ty == .b64
    let isF := f.ty == .f32 || f.ty == .f64
    (if f.op.toNat < 3 then !isB else isB) && (f.rnd == .ctl || (f.op == 0 && isF))
  | _ => true

/-- An immediate form's types and its D and A fields (R75, R97, R119). -/
def immOk (types : List Ty) (sat : Bool) (f : ImmF) : Bool :=
  types.contains f.ty && (sat || !f.sat) &&
  (if f.x then f.d.toNat < 64 && f.a.toNat < 64
   else alignedTo f.d (regsOf f.ty.width) && alignedTo f.a (regsOf f.ty.width))

/-- A shift count in immediate bits 5 to 0 (R75). -/
def countOk (f : ImmF) : Bool := f.imm.toNat < 64

/-- The access size in bytes (R78). -/
def Sz.bytes : Sz → Nat
  | .n8 | .i8 => 1
  | .n16 | .i16 => 2
  | .n32 | .i32 => 4
  | .b64 => 8
  | .b128 => 16

/-- A field naming an s-register (R26). -/
def sOk (r : Reg) : Bool := r.toNat < 64

/-- A base and an index of the memory layout (R135). -/
def addrOk (m : MemF) : Bool :=
  sOk m.a && (m.b == 0xFF || !m.x || sOk m.b)

/-- The data register of a plain access (R136). -/
def dataOk (m : MemF) (sz : Sz) : Bool :=
  if m.x then sOk m.d && sz != .b128 else alignedTo m.d (regsOf (8 * sz.bytes))

/-- The die mask's register at .pkg (R80). -/
def pkgOk (m : MemF) (sc : Scope) : Bool := sc != .pkg || m.a.toNat < 63

/-- Store sizes (R136). -/
def stSz (sz : Sz) : Bool := sz != .i8 && sz != .i16 && sz != .i32

def ldOrder (o : Order) : Bool := o == .rlx || o == .acq
def stOrder (o : Order) : Bool := o == .rlx || o == .rel
def spScope (sc : Scope) : Bool := sc == .thread || sc == .group || sc == .team || sc == .core

/-- The width in bits of an ATYPE (R79). -/
def AType.width : AType → Nat
  | .i32 | .n32 | .f32 | .b32 => 32
  | _ => 64
def AType.float : AType → Bool
  | .f32 | .f64 => true
  | _ => false
def AType.bits : AType → Bool
  | .b32 | .b64 => true
  | _ => false

/-- The combinations of R79. -/
def atypeOk (k : AtMod) : Bool :=
  match k.aop with
  | .and | .or | .xor => !k.aty.float
  | .add | .min | .max => !k.aty.bits
  | .exch | .cas => true

/-- The operand registers of ATOM and RED (R335). -/
def atomData (m : MemF) (k : AtMod) : Bool :=
  if k.aop = .cas then
    if m.x then sOk m.d && alignedTo m.d 2
    else alignedTo m.d (if k.aty.width = 32 then 2 else 4)
  else if m.x then sOk m.d else alignedTo m.d (if k.aty.width = 32 then 1 else 2)

/-- An s-register that may be absent (R69). -/
def sOpt (r : Reg) : Bool := r == 0xFF || sOk r
/-- An s-register whose successor is read too, or absent (R376). -/
def sPairOpt (r : Reg) : Bool := r == 0xFF || r.toNat < 63

/-- The bits `lo + len - 1` to `lo` of an OPF field. -/
def opfBits (o : BitVec 16) (lo len : Nat) : Nat := o.toNat / 2 ^ lo % 2 ^ len

def accTypes : List Nat := [17, 19, 18, 20, 21, 2]

/-- The OPF of ACCLD and ACCST (R386). -/
def accOpfOk (o : BitVec 16) (store : Bool) : Bool :=
  opfBits o 15 1 == 0 && accTypes.contains (opfBits o 6 5) &&
  (opfBits o 13 1 == 0 || (store && opfBits o 6 5 != 17 && opfBits o 6 5 != 2))

/-- The OPF of NRED (R445). -/
def nredOpfOk (o : BitVec 16) : Bool :=
  opfBits o 11 1 == 0 && opfBits o 5 3 == 0 &&
  (let op := opfBits o 8 3
   let ty := opfBits o 0 5
   if op ≤ 2 then ty == 2 || ty == 6 || ty == 17 else if op ≤ 5 then ty == 10 else false)

/-- The control registers R21 and R459 list. -/
def crListed (i : Nat) : Bool :=
  i ≤ 6 || i == 0x10 || i == 0x11 || (0x20 ≤ i && i ≤ 0x3F) || (0x100 ≤ i && i ≤ 0x12F)
/-- The control registers MTC may write, ASID and PTBASE apart (R399, R403, R459). -/
def crWritable (i : Nat) : Bool := i == 1 || (0x100 ≤ i && i ≤ 0x12F)

/-- MFC and MTC (R408). -/
def sysOk (f : SysF) (r : Reg) : Bool := if f.x then sOk r else alignedTo r 2

/-- The four fields of an unguarded word (R27). -/
def unguarded (g : Guard) : Bool := g.neg == false && g.p == 7

/-- A half-op's immediate: class K keeps bits 15 to 5 zero (R29). -/
def Hop.isShift : Hop → Bool
  | .shl | .shr | .sar | .rot => true
  | _ => false
def Hop.isFloat : Hop → Bool
  | .fadd | .fsub | .fmul | .fmin | .fmax | .fminn | .fmaxn => true
  | _ => false
def halfOk (h : Half) : Bool :=
  match h.src with
  | .reg _ => true
  | .imm v => !h.hop.isShift || v.toNat < 32

/-- The registers a half reads (R30). -/
def halfReads (h : Half) : List Nat :=
  h.d.toNat :: match h.src with
    | .reg a => [a.toNat]
    | .imm _ => []

/-- The pairing rules of R30. -/
def pairing (u l : Half) : Bool :=
  let reads := halfReads u ++ halfReads l
  ([0, 1, 2, 3].all fun b => (reads.filter fun r => r % 4 == b).length ≤ 2) &&
  u.d != l.d && !(u.hop.isFloat && l.hop.isFloat)

/-- Row 3 of R31, reserved bits apart: every field in range. The pairing rules are row 4. -/
def Instr.fieldsOk : Instr → Bool
  | .pair u l => halfOk u && halfOk l
  | .bra f => f.d == 0
  | .call f => alignedTo f.d 2
  | .brx f => if f.bs then sOk f.b else alignedTo f.b 2
  | .ret f => if f.bs then sOk f.b else alignedTo f.b 2
  | .iaddImm f => immOk tysI true f
  | .isubImm f => immOk tysI true f
  | .imulImm f => immOk tysI false f
  | .iminImm f => immOk tysI false f
  | .imaxImm f => immOk tysI false f
  | .andImm f => immOk tysB false f
  | .orImm f => immOk tysB false f
  | .xorImm f => immOk tysB false f
  | .shlImm f => immOk tysB false f && countOk f
  | .shrImm f => immOk tysB false f && countOk f
  | .sarImm f => immOk [.i32, .i64] false f && countOk f
  | .rotImm f => immOk tysB false f && countOk f
  | .faddImm f => immOk [.f32, .f64] false f
  | .fsubImm f => immOk [.f32, .f64] false f
  | .fmulImm f => immOk [.f32, .f64] false f
  | .fminImm f => immOk [.f32, .f64] false f
  | .fmaxImm f => immOk [.f32, .f64] false f
  | .fminnImm f => immOk [.f32, .f64] false f
  | .fmaxnImm f => immOk [.f32, .f64] false f
  | .movi f => (if f.x then sOk f.d else true) && (!f.sx || f.x)
  | .movh f => (if f.x then sOk f.d else alignedTo f.d 2) && !f.sx
  | .ld m k => addrOk m && dataOk m k.sz && ldOrder k.order && pkgOk m k.scope
  | .st m k => addrOk m && dataOk m k.sz && stSz k.sz && stOrder k.order && pkgOk m k.scope
  | .lds m k => addrOk m && dataOk m k.sz && ldOrder k.order && spScope k.scope && k.evp == .dflt && !k.lu
  | .sts m k => addrOk m && dataOk m k.sz && stSz k.sz && stOrder k.order && spScope k.scope &&
      k.evp == .dflt && !k.lu
  | .ldr m k => !m.x && addrOk m && dataOk m k.sz && ldOrder k.order && pkgOk m k.scope
  | .preq m => addrOk m && m.d == 0
  | .ldMx m k => !m.x && addrOk m && m.a.toNat < 63 && ldOrder k.order && k.scope != .pkg &&
      alignedTo m.d (mxAlign (ETypeRegs k.et))
  | .stMx m k => !m.x && addrOk m && m.a.toNat < 63 && stOrder k.order && k.scope != .pkg &&
      alignedTo m.d (mxAlign (ETypeRegs k.et))
  | .atom m k => addrOk m && atypeOk k && atomData m k && pkgOk m k.scope
  | .atomv m k => !m.x && addrOk m && atypeOk k && k.aop != .cas && alignedTo m.d 8 && pkgOk m k.scope
  | .red m k => addrOk m && atypeOk k && k.aop != .cas && k.aop != .exch && atomData m k && pkgOk m k.scope
  | .fence m o sc => m.d == 0 && m.b == 0 && m.off == 0 && o != .rlx &&
      (if sc = .pkg then sOk m.a else m.a == 0)
  | .cctlLine m => addrOk m && m.d == 0
  | .cctlAll m => m.d == 0 && m.a == 0 && m.b == 0 && m.off == 0
  | .cctlIfetch m => addrOk m && m.d == 0
  | .tlbiPage m => addrOk m && m.d == 0
  | .tlbiAsid m => m.d == 0 && m.a == 0 && m.b == 0 && m.off == 0
  | .tlbiAll m => m.d == 0 && m.a == 0 && m.b == 0 && m.off == 0
  | .copy f => f.x && sOpt f.d && sOk f.a && sOk f.b && sPairOpt f.c && opfBits f.opf 9 7 == 0
  | .copyMc f => f.x && sOk f.a && sOk f.b && sPairOpt f.c && opfBits f.opf 11 5 == 0 &&
      f.d.toNat + opfBits f.opf 9 2 < 64
  | .fill f => f.x && sOk f.d && sOk f.a && sOk f.b && sPairOpt f.c && opfBits f.opf 10 6 == 0 &&
      opfBits f.opf 0 8 == 0
  | .mshape f => f.x && sOk f.d && sOk f.a && f.b == 0 && f.c == 0 && opfBits f.opf 3 13 == 0
  | .mma f => f.x && f.d == 0 && sOk f.a && sOk f.b && sPairOpt f.c && opfBits f.opf 9 7 == 0
  | .accld f => f.x && f.d == 0 && sOk f.a && sOk f.b && f.c == 0 && accOpfOk f.opf false
  | .accst f => f.x && f.d == 0 && sOk f.a && sOk f.b && f.c == 0 && accOpfOk f.opf true
  | .accz f => f.x && f.d == 0 && f.a == 0 && f.b == 0 && f.c == 0 && opfBits f.opf 6 10 == 0
  | .waitc f => f.x && f.d == 0 && f.a == 0 && f.b == 0 && f.c == 0 && opfBits f.opf 8 8 == 0
  | .monw f => f.x && sOk f.d && sOk f.a && sOk f.b && sOpt f.c && opfBits f.opf 4 12 == 0
  | .nred f => !f.x && f.b == 0 && sOk f.c && nredOpfOk f.opf
  | .nbar f => f.x && sOk f.d && f.a == 0 && f.b == 0 && f.c == 0 && opfBits f.opf 0 12 == 0
  | .eret f => !f.x && unguarded f.g && f.d == 0 && f.a == 0 && f.crx == 0
  | .halt f => !f.x && unguarded f.g && f.d == 0 && f.a == 0 && f.crx == 0
  | .mfc f => crListed f.crx.toNat && f.a == 0 && sysOk f f.d
  | .mtc f => crWritable f.crx.toNat && f.d == 0 && sysOk f f.a
  | .mtcPtbase f => f.crx == 0x011 && f.d == 0 && sysOk f f.a
  | .mtcAsid f => f.crx == 0x010 && f.d == 0 && sysOk f f.a
  | i => match regInfo i with
    | some (s, f) => regOk s f && regExtra i
    | none => true

/-- Well-formed: the fields are in range and a pair keeps the pairing rules (R30, R31). -/
def Instr.wf : Instr → Bool
  | .pair u l => halfOk u && halfOk l && pairing u l
  | i => i.fieldsOk

/-- A well-formed instruction. -/
abbrev WellFormed (i : Instr) : Prop := i.wf = true

/-- The v-registers of a memory word's data (R14, R136). -/
def dataRegs (m : MemF) (n : Nat) : List (Nat × Nat) :=
  (if m.x then [] else [(m.d.toNat, n)]) ++ (if m.x || m.b == 0xFF then [] else [(m.b.toNat, 1)])

/-- The index register of a memory word (R135). -/
def indexRegs (m : MemF) : List (Nat × Nat) :=
  if m.x || m.b == 0xFF then [] else [(m.b.toNat, 1)]

/-- Every run of v-registers a word names, for the budget (R14). -/
def Instr.vregs : Instr → List (Nat × Nat)
  | .pair u l => (halfReads u ++ halfReads l).map fun r => (r, 1)
  | .call f => [(f.d.toNat, 2)]
  | .brx f => if f.bs then [] else [(f.b.toNat, 2)]
  | .ret f => if f.bs then [] else [(f.b.toNat, 2)]
  | .movi f => if f.x then [] else [(f.d.toNat, 1)]
  | .movh f => if f.x then [] else [(f.d.toNat, 2)]
  | .iaddImm f | .isubImm f | .imulImm f | .iminImm f | .imaxImm f | .andImm f | .orImm f | .xorImm f
  | .shlImm f | .shrImm f | .sarImm f | .rotImm f | .faddImm f | .fsubImm f | .fmulImm f | .fminImm f
  | .fmaxImm f | .fminnImm f | .fmaxnImm f =>
    if f.x then [] else [(f.d.toNat, regsOf f.ty.width), (f.a.toNat, regsOf f.ty.width)]
  | .ld m k | .st m k | .lds m k | .sts m k => dataRegs m (regsOf (8 * k.sz.bytes))
  | .ldr m k => dataRegs m (regsOf (8 * k.sz.bytes))
  | .ldMx m k | .stMx m k => dataRegs m (ETypeRegs k.et + 1)
  | .atom m k | .red m k => dataRegs m (k.aty.width / 32 * (if k.aop = .cas then 2 else 1))
  | .atomv m _ => dataRegs m 8
  | .preq m | .cctlLine m | .cctlIfetch m | .tlbiPage m => indexRegs m
  | .nred f => [(f.d.toNat, 1), (f.a.toNat, 1)]
  | .mfc f => if f.x then [] else [(f.d.toNat, 2)]
  | .mtc f | .mtcPtbase f | .mtcAsid f => if f.x then [] else [(f.a.toNat, 2)]
  | i => match regInfo i with
    | some (s, f) =>
      if f.x then [] else
        fieldRegs s.d f f.d ++ fieldRegs s.a f f.a ++ (if f.bs then [] else fieldRegs s.b f f.b) ++
        fieldRegs s.c f f.c
    | none => []

/-- A word that names a v-register at or above the budget (R14). -/
def overBudget (i : Instr) (budget : Nat) : Bool := i.vregs.any fun r => budget < r.1 + r.2

end Sys2Proof
end

