-- ==== Sys2Proof/Decode.lean ====
section
/-! DEFINITION. The decoder (R24 to R31, R67 to R86), total on every 64-bit word, and the encoder written from the same layouts. A word that encodes no well-formed instruction is rejected with its trap cause. -/

namespace Sys2Proof

/-- Why a word is not a legal instruction (R31, rows 2 to 4). -/
inductive DecodeError where
  | illegalOpcode | illegalEncoding | illegalPair
deriving DecidableEq, Repr

/-- Bits `lo + len - 1` to `lo` of a word. -/
def bitsOf (w : W64) (lo len : Nat) : BitVec len := w.extractLsb' lo len

/-- One bit of a word as a truth value. -/
def bitOf (w : W64) (i : Nat) : Bool := w.extractLsb' i 1 == 1#1

def Rnd.code : Rnd → BitVec 3
  | .ctl => 0 | .rn => 1 | .rz => 2 | .rd => 3 | .ru => 4
def Rnd.ofCode : Nat → Option Rnd
  | 0 => some .ctl | 1 => some .rn | 2 => some .rz | 3 => some .rd | 4 => some .ru | _ => none
def Order.code : Order → BitVec 2
  | .rlx => 0 | .acq => 1 | .rel => 2 | .ar => 3
def Order.ofCode : Nat → Order
  | 0 => .rlx | 1 => .acq | 2 => .rel | _ => .ar
def Scope.code : Scope → BitVec 3
  | .thread => 0 | .group => 1 | .team => 2 | .core => 3 | .die => 4 | .pkg => 5 | .sys => 6
def Scope.ofCode : Nat → Option Scope
  | 0 => some .thread | 1 => some .group | 2 => some .team | 3 => some .core | 4 => some .die
  | 5 => some .pkg | 6 => some .sys | _ => none
def Sz.code : Sz → BitVec 3
  | .n8 => 0 | .i8 => 1 | .n16 => 2 | .i16 => 3 | .n32 => 4 | .i32 => 5 | .b64 => 6 | .b128 => 7
def Sz.ofCode : Nat → Sz
  | 0 => .n8 | 1 => .i8 | 2 => .n16 | 3 => .i16 | 4 => .n32 | 5 => .i32 | 6 => .b64 | _ => .b128
def Evp.code : Evp → BitVec 2
  | .dflt => 0 | .first => 1 | .last => 2 | .keep => 3
def Evp.ofCode : Nat → Evp
  | 0 => .dflt | 1 => .first | 2 => .last | _ => .keep
def EType.code : EType → BitVec 3
  | .e4m3 => 0 | .e5m2 => 1 | .e2m3 => 2 | .e3m2 => 3 | .e2m1 => 4
def EType.ofCode : Nat → Option EType
  | 0 => some .e4m3 | 1 => some .e5m2 | 2 => some .e2m3 | 3 => some .e3m2 | 4 => some .e2m1 | _ => none
def AType.code : AType → BitVec 3
  | .i32 => 0 | .n32 => 1 | .i64 => 2 | .n64 => 3 | .f32 => 4 | .f64 => 5 | .b32 => 6 | .b64 => 7
def AType.ofCode : Nat → AType
  | 0 => .i32 | 1 => .n32 | 2 => .i64 | 3 => .n64 | 4 => .f32 | 5 => .f64 | 6 => .b32 | _ => .b64
def AOp.code : AOp → BitVec 3
  | .add => 0 | .min => 1 | .max => 2 | .and => 3 | .or => 4 | .xor => 5 | .exch => 6 | .cas => 7
def AOp.ofCode : Nat → AOp
  | 0 => .add | 1 => .min | 2 => .max | 3 => .and | 4 => .or | 5 => .xor | 6 => .exch | _ => .cas

/-- The half-opcodes (R85). -/
def Hop.code : Hop → BitVec 6
  | .iadd => 0x01 | .isub => 0x02 | .imul => 0x03 | .imin => 0x04 | .imax => 0x05 | .nmin => 0x06
  | .nmax => 0x07 | .and => 0x08 | .or => 0x09 | .xor => 0x0A | .shl => 0x0C | .shr => 0x0D
  | .sar => 0x0E | .rot => 0x0F | .fadd => 0x20 | .fsub => 0x21 | .fmul => 0x22 | .fmin => 0x23
  | .fmax => 0x24 | .fminn => 0x25 | .fmaxn => 0x26
def Hop.ofCode : Nat → Option Hop
  | 0x01 => some .iadd | 0x02 => some .isub | 0x03 => some .imul | 0x04 => some .imin
  | 0x05 => some .imax | 0x06 => some .nmin | 0x07 => some .nmax | 0x08 => some .and
  | 0x09 => some .or | 0x0A => some .xor | 0x0C => some .shl | 0x0D => some .shr | 0x0E => some .sar
  | 0x0F => some .rot | 0x20 => some .fadd | 0x21 => some .fsub | 0x22 => some .fmul
  | 0x23 => some .fmin | 0x24 => some .fmax | 0x25 => some .fminn | 0x26 => some .fmaxn | _ => none

/-- A truth value as one bit. -/
def b1 (b : Bool) : BitVec 1 := if b then 1#1 else 0#1

/-- The guard's four bits (R24). -/
def Guard.enc (g : Guard) : BitVec 4 := b1 g.neg ++ g.p
/-- The guard of a full-form word (R24, R27). -/
def guardOf (w : W64) : Guard := ⟨bitOf w 54, bitsOf w 51 3⟩

/-- P = 0, MAJOR, X and the guard, then the 51 bits below them (R24). -/
def full (major : BitVec 7) (x : Bool) (g : Guard) (rest : BitVec 51) : W64 :=
  0#1 ++ major ++ b1 x ++ g.enc ++ rest

/-- The register layout (R25, R70). -/
def encReg (major : BitVec 7) (f : RegF) : W64 :=
  full major f.x f.g (f.d ++ f.a ++ f.b ++ f.c ++ b1 f.bs ++ f.ty.code ++ f.rnd.code ++ b1 f.sat ++ f.op ++ f.aux)
/-- The fields of a register-layout word; none where TYPE or RND is undefined (R70, R72). -/
def regOfWord (w : W64) : Option RegF :=
  match Ty.ofCode (bitsOf w 13 5).toNat, Rnd.ofCode (bitsOf w 10 3).toNat with
  | some ty, some rnd =>
    some ⟨guardOf w, bitOf w 55, bitsOf w 43 8, bitsOf w 35 8, bitsOf w 27 8, bitsOf w 19 8,
      bitOf w 18, ty, rnd, bitOf w 9, bitsOf w 5 4, bitsOf w 0 5⟩
  | _, _ => none

/-- The immediate layout (R25, R75). -/
def encImm (major : BitVec 7) (sub : BitVec 4) (f : ImmF) : W64 :=
  full major f.x f.g (f.d ++ f.a ++ f.imm ++ f.ty.code ++ sub ++ b1 f.sat ++ 0#1)
def immOfWord (w : W64) : Option ImmF :=
  match Ty.ofCode (bitsOf w 6 5).toNat with
  | some ty => some ⟨guardOf w, bitOf w 55, bitsOf w 43 8, bitsOf w 35 8, bitsOf w 11 24, ty, bitOf w 1⟩
  | none => none

/-- The wide layout (R25, R76). -/
def encWide (major : BitVec 7) (f : WideF) : W64 :=
  full major f.x f.g (f.d ++ f.imm ++ 0#10 ++ b1 f.sx)
def wideOfWord (w : W64) : WideF := ⟨guardOf w, bitOf w 55, bitsOf w 43 8, bitsOf w 11 32, bitOf w 0⟩

/-- The branch layout (R25, R77). -/
def encBr (major : BitVec 7) (f : BrF) : W64 :=
  full major false f.g (f.d ++ f.off ++ b1 f.u ++ 0#10)
def brOfWord (w : W64) : BrF := ⟨guardOf w, bitsOf w 43 8, bitsOf w 11 32, bitOf w 10⟩

/-- BRX and RET (R70, R127). -/
def encTgt (major : BitVec 7) (f : TgtF) : W64 :=
  full major false f.g (0#16 ++ f.b ++ 0#8 ++ b1 f.bs ++ 0#7 ++ b1 f.u ++ 0#10)
def tgtOfWord (w : W64) : TgtF := ⟨guardOf w, bitsOf w 27 8, bitOf w 18, bitOf w 10⟩

/-- EXIT, YIELD and NOP (R70). -/
def encPlain (major : BitVec 7) (g : Guard) : W64 := full major false g 0#51

/-- BPT and TRAP (R134). -/
def encCode (major : BitVec 7) (f : CodeF) : W64 := full major false f.g (0#24 ++ f.code ++ 0#19)
def codeOfWord (w : W64) : CodeF := ⟨guardOf w, bitsOf w 19 8⟩

/-- The memory layout with its 11 modifier bits (R25, R78). -/
def encMem (major : BitVec 7) (m : MemF) (mods : BitVec 11) : W64 :=
  full major m.x m.g (m.d ++ m.a ++ m.b ++ m.off ++ mods)
def memOfWord (w : W64) : MemF :=
  ⟨guardOf w, bitOf w 55, bitsOf w 43 8, bitsOf w 35 8, bitsOf w 27 8, bitsOf w 11 16⟩

def LsMod.enc (k : LsMod) : BitVec 11 := k.sz.code ++ k.order.code ++ k.scope.code ++ k.evp.code ++ b1 k.lu
def lsOfWord (w : W64) : Option LsMod :=
  (Scope.ofCode (bitsOf w 3 3).toNat).map fun sc =>
    ⟨Sz.ofCode (bitsOf w 8 3).toNat, Order.ofCode (bitsOf w 6 2).toNat, sc,
      Evp.ofCode (bitsOf w 1 2).toNat, bitOf w 0⟩
def LdrMod.enc (k : LdrMod) : BitVec 11 := k.sz.code ++ k.order.code ++ k.scope.code ++ k.pd
def ldrOfWord (w : W64) : Option LdrMod :=
  (Scope.ofCode (bitsOf w 3 3).toNat).map fun sc =>
    ⟨Sz.ofCode (bitsOf w 8 3).toNat, Order.ofCode (bitsOf w 6 2).toNat, sc, bitsOf w 0 3⟩
def MxMod.enc (k : MxMod) : BitVec 11 := k.et.code ++ k.order.code ++ k.scope.code ++ 0#3
def mxOfWord (w : W64) : Option MxMod :=
  match EType.ofCode (bitsOf w 8 3).toNat, Scope.ofCode (bitsOf w 3 3).toNat with
  | some et, some sc => some ⟨et, Order.ofCode (bitsOf w 6 2).toNat, sc⟩
  | _, _ => none
def AtMod.enc (k : AtMod) : BitVec 11 := k.aty.code ++ k.order.code ++ k.scope.code ++ k.aop.code
def atOfWord (w : W64) : Option AtMod :=
  (Scope.ofCode (bitsOf w 3 3).toNat).map fun sc =>
    ⟨AType.ofCode (bitsOf w 8 3).toNat, Order.ofCode (bitsOf w 6 2).toNat, sc, AOp.ofCode (bitsOf w 0 3).toNat⟩

/-- The modifier bits of FENCE and of an operation of CCTL or TLBI (R82). -/
def fenceMods (o : Order) (sc : Scope) : BitVec 11 := 0#3 ++ o.code ++ sc.code ++ 0#3
def opMods (sub : BitVec 2) (op : BitVec 3) : BitVec 11 := sub ++ 0#6 ++ op

/-- The engine layout (R83). -/
def encEng (major : BitVec 7) (sub : BitVec 3) (f : EngF) : W64 :=
  full major f.x f.g (f.d ++ f.a ++ f.b ++ f.c ++ sub ++ f.opf)
def engOfWord (w : W64) : EngF :=
  ⟨guardOf w, bitOf w 55, bitsOf w 43 8, bitsOf w 35 8, bitsOf w 27 8, bitsOf w 19 8, bitsOf w 0 16⟩

/-- The system layout (R84). -/
def encSys (sub : BitVec 3) (f : SysF) : W64 :=
  full 0x7E f.x f.g (f.d ++ f.a ++ 0#8 ++ sub ++ f.crx ++ 0#12)
def sysOfWord (w : W64) : SysF := ⟨guardOf w, bitOf w 55, bitsOf w 43 8, bitsOf w 35 8, bitsOf w 12 12⟩

/-- One half-op (R28). -/
def Half.enc (h : Half) : BitVec 31 :=
  match h.src with
  | .reg a => h.hop.code ++ 0#1 ++ h.d ++ a ++ 0#8
  | .imm v => h.hop.code ++ 1#1 ++ h.d ++ v
def halfOfBits (b : BitVec 31) : Option Half :=
  (Hop.ofCode (b.extractLsb' 25 6).toNat).map fun hop =>
    ⟨hop, b.extractLsb' 16 8,
      if b.extractLsb' 24 1 == 1#1 then .imm (b.extractLsb' 0 16) else .reg (b.extractLsb' 8 8)⟩

/-- A register-layout instruction of the major with one mnemonic, or by OP where it holds several (R67, R71). -/
def regInstr (major : Nat) (f : RegF) : Option Instr :=
  match major with
  | 0x10 => some (.iadd f)
  | 0x11 => some (.isub f)
  | 0x12 => some (.iaddc f)
  | 0x13 => some (.isubb f)
  | 0x14 => some (.imul f)
  | 0x15 => some (.imulh f)
  | 0x16 => some (.imad f)
  | 0x17 => some (.imadw f)
  | 0x18 => some (.idiv f)
  | 0x19 => some (.irem f)
  | 0x1A => some (.ineg f)
  | 0x1B => some (.iabs f)
  | 0x1C => some (.imin f)
  | 0x1D => some (.imax f)
  | 0x1E => some (.isad f)
  | 0x1F => some (.idot4 f)
  | 0x20 => some (.icmp f)
  | 0x21 => some (.and f)
  | 0x22 => some (.or f)
  | 0x23 => some (.xor f)
  | 0x24 => some (.not f)
  | 0x25 => some (.lop3 f)
  | 0x26 => some (.shl f)
  | 0x27 => some (.shr f)
  | 0x28 => some (.sar f)
  | 0x29 => some (.rot f)
  | 0x2B => some (.bfe f)
  | 0x2C => some (.bfi f)
  | 0x2F => some (.prmt f)
  | 0x30 => some (.fadd f)
  | 0x31 => some (.fsub f)
  | 0x32 => some (.fmul f)
  | 0x33 => some (.ffma f)
  | 0x34 => some (.fmin f)
  | 0x35 => some (.fmax f)
  | 0x36 => some (.fminn f)
  | 0x37 => some (.fmaxn f)
  | 0x38 => some (.fcmp f)
  | 0x39 => some (.fclass f)
  | 0x3A => some (.frnd f)
  | 0x3B => some (.fscale f)
  | 0x3C => some (.fdiv f)
  | 0x3D => some (.fsqrt f)
  | 0x3E => some (.frcp f)
  | 0x3F => some (.frsq f)
  | 0x40 => some (.fexp2 f)
  | 0x41 => some (.flog2 f)
  | 0x42 => some (.fsin f)
  | 0x43 => some (.fcos f)
  | 0x44 => some (.ftanh f)
  | 0x50 => some (.cvt f)
  | 0x51 => some (.qpack f)
  | 0x52 => some (.qunpk f)
  | 0x53 => some (.mxq f)
  | 0x58 => some (.mov f)
  | 0x5B => some (.sel f)
  | 0x5C => some (.pset f)
  | 0x5E => some (.mfs f)
  | 0x5F => some (.mts f)
  | 0x6D => some (.txcommit f)
  | 0x6F => some (.sdopen f)
  | 0x70 => some (.shfl f)
  | 0x72 => some (.gred f)
  | 0x74 => some (.spawn f)
  | 0x2A => match f.op.toNat with
    | 0 => some (.fshfL f)
    | 1 => some (.fshfR f)
    | _ => none
  | 0x2D => match f.op.toNat with
    | 0 => some (.popc f)
    | 1 => some (.clz f)
    | 2 => some (.ctz f)
    | 3 => some (.brev f)
    | _ => none
  | 0x5D => match f.op.toNat with
    | 0 => some (.pmovV f)
    | 1 => some (.pmovP f)
    | _ => none
  | 0x6C => match f.op.toNat with
    | 0 => some (.txbegin f)
    | 1 => some (.txbeginTs f)
    | 2 => some (.txbeginO f)
    | _ => none
  | 0x6E => match f.op.toNat with
    | 0 => some (.txabort f)
    | 1 => some (.txstat f)
    | _ => none
  | 0x71 => match f.op.toNat with
    | 0 => some (.voteEvery f)
    | 1 => some (.voteSome f)
    | 2 => some (.voteSame f)
    | 3 => some (.voteMask f)
    | 4 => some (.matchPeers f)
    | 5 => some (.matchUniform f)
    | 6 => some (.elect f)
    | 7 => some (.voteCount f)
    | _ => none
  | 0x75 => match f.op.toNat with
    | 0 => some (.sync f)
    | 1 => some (.endt f)
    | _ => none
  | 0x76 => match f.op.toNat with
    | 0 => some (.invokeCore f)
    | 1 => some (.invokeAny f)
    | 2 => some (.invokeStake f)
    | 3 => some (.invokeDie f)
    | _ => none
  | 0x77 => match f.op.toNat with
    | 0 => some (.await f)
    | 1 => some (.poll f)
    | 2 => some (.fulfil f)
    | 3 => some (.brk f)
    | 4 => some (.drop f)
    | _ => none
  | 0x73 => match f.op.toNat with
    | 0 => some (.barInit f)
    | 1 => some (if f.sat then .barArrRmt f else .barArr f)
    | 2 => some (.barWait f)
    | 3 => some (.barSync f)
    | _ => none
  | _ => none

/-- An immediate-layout instruction by SUB (R71). -/
def immInstr (major sub : Nat) (f : ImmF) : Option Instr :=
  match major with
  | 0x2E => match sub with
    | 0 => some (.iaddImm f)
    | 1 => some (.isubImm f)
    | 2 => some (.imulImm f)
    | 3 => some (.iminImm f)
    | 4 => some (.imaxImm f)
    | 5 => some (.andImm f)
    | 6 => some (.orImm f)
    | 7 => some (.xorImm f)
    | 8 => some (.shlImm f)
    | 9 => some (.shrImm f)
    | 10 => some (.sarImm f)
    | 11 => some (.rotImm f)
    | _ => none
  | 0x45 => match sub with
    | 0 => some (.faddImm f)
    | 1 => some (.fsubImm f)
    | 2 => some (.fmulImm f)
    | 3 => some (.fminImm f)
    | 4 => some (.fmaxImm f)
    | 5 => some (.fminnImm f)
    | 6 => some (.fmaxnImm f)
    | _ => none
  | _ => none

/-- The major of an immediate-layout instruction, its SUB and its fields (R71). -/
def immInfo : Instr → Option (BitVec 7 × BitVec 4 × ImmF)
  | .iaddImm f => some (0x2E, 0, f)
  | .isubImm f => some (0x2E, 1, f)
  | .imulImm f => some (0x2E, 2, f)
  | .iminImm f => some (0x2E, 3, f)
  | .imaxImm f => some (0x2E, 4, f)
  | .andImm f => some (0x2E, 5, f)
  | .orImm f => some (0x2E, 6, f)
  | .xorImm f => some (0x2E, 7, f)
  | .shlImm f => some (0x2E, 8, f)
  | .shrImm f => some (0x2E, 9, f)
  | .sarImm f => some (0x2E, 10, f)
  | .rotImm f => some (0x2E, 11, f)
  | .faddImm f => some (0x45, 0, f)
  | .fsubImm f => some (0x45, 1, f)
  | .fmulImm f => some (0x45, 2, f)
  | .fminImm f => some (0x45, 3, f)
  | .fmaxImm f => some (0x45, 4, f)
  | .fminnImm f => some (0x45, 5, f)
  | .fmaxnImm f => some (0x45, 6, f)
  | _ => none
/-- An engine-layout instruction by SUB (R71). -/
def engInstr (major sub : Nat) (f : EngF) : Option Instr :=
  match major, sub with
  | 0x78, 0 => some (.copy f)
  | 0x78, 1 => some (.copyMc f)
  | 0x78, 2 => some (.fill f)
  | 0x79, 0 => some (.mshape f)
  | 0x7A, 0 => some (.mma f)
  | 0x7B, 0 => some (.accld f)
  | 0x7B, 1 => some (.accst f)
  | 0x7B, 2 => some (.accz f)
  | 0x7C, 0 => some (.waitc f)
  | 0x7C, 1 => some (.monw f)
  | 0x7D, 0 => some (.nred f)
  | 0x7D, 1 => some (.nbar f)
  | _, _ => none

/-- A system-layout instruction by SUB; MTC to ASID and to PTBASE are rows of their own (R71, R270). -/
def sysInstr (sub : Nat) (f : SysF) : Option Instr :=
  match sub with
  | 0 => some (.eret f)
  | 1 => some (.mfc f)
  | 2 => some (if f.crx = 0x010 then .mtcAsid f else if f.crx = 0x011 then .mtcPtbase f else .mtc f)
  | 3 => some (.halt f)
  | _ => none

/-- A memory-layout instruction (R67, R71, R82). -/
def memInstr (major : Nat) (w : W64) : Option Instr :=
  let m := memOfWord w
  match major with
  | 0x60 => (lsOfWord w).map (.ld m)
  | 0x61 => (lsOfWord w).map (.st m)
  | 0x62 => (lsOfWord w).map (.lds m)
  | 0x63 => (lsOfWord w).map (.sts m)
  | 0x64 => (ldrOfWord w).map (.ldr m)
  | 0x65 => some (.preq m)
  | 0x66 => (mxOfWord w).map (.ldMx m)
  | 0x67 => (mxOfWord w).map (.stMx m)
  | 0x68 => (atOfWord w).map (.atom m)
  | 0x69 => (atOfWord w).map (.atomv m)
  | 0x6A => (atOfWord w).map (.red m)
  | 0x6B => match (bitsOf w 9 2).toNat, (bitsOf w 0 3).toNat with
    | 0, _ => (Scope.ofCode (bitsOf w 3 3).toNat).map (.fence m (Order.ofCode (bitsOf w 6 2).toNat))
    | 1, 0 => some (.cctlLine m)
    | 1, 1 => some (.cctlAll m)
    | 1, 2 => some (.cctlIfetch m)
    | 2, 0 => some (.tlbiPage m)
    | 2, 1 => some (.tlbiAsid m)
    | 2, 2 => some (.tlbiAll m)
    | _, _ => none
  | _ => none

/-- The majors that R67 assigns. -/
def majorAssigned (m : Nat) : Bool :=
  (0x01 ≤ m && m ≤ 0x09) || (0x10 ≤ m && m ≤ 0x45) || (0x50 ≤ m && m ≤ 0x53) || (0x58 ≤ m && m ≤ 0x7E)

/-- The instruction whose fields an assigned major's word holds, before its fields are checked. -/
def rawFull (w : W64) : Option Instr :=
  let major := (bitsOf w 56 7).toNat
  match major with
  | 0x01 => some (.bra (brOfWord w))
  | 0x02 => some (.brx (tgtOfWord w))
  | 0x03 => some (.call (brOfWord w))
  | 0x04 => some (.ret (tgtOfWord w))
  | 0x05 => some (.exit (guardOf w))
  | 0x06 => some (.yield (guardOf w))
  | 0x07 => some (.nop (guardOf w))
  | 0x08 => some (.bpt (codeOfWord w))
  | 0x09 => some (.trap (codeOfWord w))
  | 0x59 => some (.movi (wideOfWord w))
  | 0x5A => some (.movh (wideOfWord w))
  | 0x7E => sysInstr (bitsOf w 24 3).toNat (sysOfWord w)
  | m =>
    if m = 0x2E ∨ m = 0x45 then (immOfWord w).bind (immInstr m (bitsOf w 2 4).toNat)
    else if 0x60 ≤ m ∧ m ≤ 0x6B then memInstr m w
    else if 0x78 ≤ m ∧ m ≤ 0x7D then engInstr m (bitsOf w 16 3).toNat (engOfWord w)
    else (regOfWord w).bind (regInstr m)

/-- The word of an instruction, from the layouts of the encoding map; an event has none (0). -/
def encode : Instr → W64
  | .pair u l => 1#1 ++ 0#1 ++ u.enc ++ l.enc
  | .bra f => encBr 0x01 f
  | .brx f => encTgt 0x02 f
  | .call f => encBr 0x03 f
  | .ret f => encTgt 0x04 f
  | .exit g => encPlain 0x05 g
  | .yield g => encPlain 0x06 g
  | .nop g => encPlain 0x07 g
  | .bpt f => encCode 0x08 f
  | .trap f => encCode 0x09 f
  | .movi f => encWide 0x59 f
  | .movh f => encWide 0x5A f
  | .ld m k => encMem 0x60 m k.enc
  | .st m k => encMem 0x61 m k.enc
  | .lds m k => encMem 0x62 m k.enc
  | .sts m k => encMem 0x63 m k.enc
  | .ldr m k => encMem 0x64 m k.enc
  | .preq m => encMem 0x65 m 0
  | .ldMx m k => encMem 0x66 m k.enc
  | .stMx m k => encMem 0x67 m k.enc
  | .atom m k => encMem 0x68 m k.enc
  | .atomv m k => encMem 0x69 m k.enc
  | .red m k => encMem 0x6A m k.enc
  | .fence m o sc => encMem 0x6B m (fenceMods o sc)
  | .cctlLine m => encMem 0x6B m (opMods 1 0)
  | .cctlAll m => encMem 0x6B m (opMods 1 1)
  | .cctlIfetch m => encMem 0x6B m (opMods 1 2)
  | .tlbiPage m => encMem 0x6B m (opMods 2 0)
  | .tlbiAsid m => encMem 0x6B m (opMods 2 1)
  | .tlbiAll m => encMem 0x6B m (opMods 2 2)
  | .copy f => encEng 0x78 0 f
  | .copyMc f => encEng 0x78 1 f
  | .fill f => encEng 0x78 2 f
  | .mshape f => encEng 0x79 0 f
  | .mma f => encEng 0x7A 0 f
  | .accld f => encEng 0x7B 0 f
  | .accst f => encEng 0x7B 1 f
  | .accz f => encEng 0x7B 2 f
  | .waitc f => encEng 0x7C 0 f
  | .monw f => encEng 0x7C 1 f
  | .nred f => encEng 0x7D 0 f
  | .nbar f => encEng 0x7D 1 f
  | .eret f => encSys 0 f
  | .mfc f => encSys 1 f
  | .mtc f => encSys 2 f
  | .mtcPtbase f => encSys 2 f
  | .mtcAsid f => encSys 2 f
  | .halt f => encSys 3 f
  | i => match regInfo i, immInfo i with
    | some (s, f), _ => encReg s.major f
    | none, some (major, sub, f) => encImm major sub f
    | none, none => 0

/-- The rows of the opcode table that are words. -/
def Instr.isWord (i : Instr) : Bool := encode i != 0

/-- The decoder of one word (R31, rows 2 to 4): a word whose instruction does not encode back to it has a
reserved bit set. -/
def decode (w : W64) : Except DecodeError Instr :=
  if bitOf w 63 then
    match halfOfBits (bitsOf w 31 31), halfOfBits (bitsOf w 0 31) with
    | some u, some l =>
      if (Instr.pair u l).fieldsOk && encode (.pair u l) == w then
        if pairing u l then .ok (.pair u l) else .error .illegalPair
      else .error .illegalEncoding
    | _, _ => .error .illegalOpcode
  else if majorAssigned (bitsOf w 56 7).toNat then
    match rawFull w with
    | some i => if i.wf && encode i == w then .ok i else .error .illegalEncoding
    | none => .error .illegalEncoding
  else .error .illegalOpcode

/-- The decoder on the bytes of memory: one word is the first 8 bytes, little-endian; fewer decode to nothing. -/
def decodeBytes (bs : List Byte) : Option (Except DecodeError Instr) :=
  match bs with
  | b0 :: b1 :: b2 :: b3 :: b4 :: b5 :: b6 :: b7 :: _ =>
    some (decode (b7 ++ b6 ++ b5 ++ b4 ++ b3 ++ b2 ++ b1 ++ b0))
  | _ => none

/-- The eight bytes of a word, lowest address first (R6). -/
def wordBytes (w : W64) : List Byte :=
  (List.range 8).map fun i => w.extractLsb' (8 * i) 8

/-- The instruction read from a word whose bits are `w`, numbered as the opcode table numbers them; the
instructions have one length, 64 bits. -/
def decodeTableWord (nbits w : Nat) : Option Instr :=
  match decodeBytes (wordBytes (BitVec.ofNat 64 (w % 2 ^ nbits))) with
  | some (.ok i) => some i
  | _ => none

end Sys2Proof
end

