-- ==== Sys2Proof/Config.lean ====
section
/-! DEFINITION. What an implementation fixes and the values the spec leaves open. The free values have no body: nothing can be proved about which value they take. -/

namespace Sys2Proof.Config

/-- The bits an approximated function delivers for an f32 input, before its bound is enforced (R120):
`fn` numbers the functions FRCP 0, FRSQ 1, FEXP2 2, FLOG2 3, FSIN 4, FCOS 5, FTANH 6. -/
opaque approxBits : (fn input : Nat) → W32

/-- Whether MXQ's scale stands where C names a register of the run (R125 does not say). -/
opaque mxqScaleLast : Bool

/-- The bytes of the `n`-th save image, whose layout is internal to the device (R413). -/
opaque imageByte : (n i : Nat) → Byte
/-- The bytes of the `n`-th device state block, whose layout is internal to the device too (R416). -/
opaque blockByte : (n i : Nat) → Byte

/-- The set of a cache that holds a line or an entry (R219, R255). -/
opaque l2Set : (line : Nat) → Nat
opaque mscSet : (line : Nat) → Nat
opaque l1Set : (line : Nat) → Nat
opaque icacheSet : (line : Nat) → Nat
opaque tlbSet : (entry : Nat) → Nat

/-- What the hardware chooses where the spec says only that it chooses: the `n`-th such choice. -/
opaque choice : (n : Nat) → Nat

/-- What a peer device answers to the `n`-th access of this kind (R436): its tables are not this device's. -/
opaque peerAnswer : (n : Nat) → Nat

/-- Whether the bytes of a chunk that an engine operation had not written when it ended early hold its new value (R225,
R368): `n` is the operation's free value. -/
opaque partialDone : (n chunk : Nat) → Bool

/-- Which way the fixed detour of a die's tables takes among the shortest, where the plain route would enter a failed router (R426). -/
opaque detour : (die here dest : Nat) → (failed : List Nat) → Nat
/-- The same among the dies of the package, where the plain route has to avoid a failed router of a port, or a die out of service
(R426, R470). -/
opaque dieDetour : (here dest : Nat) → (ways : List Nat) → Nat

/-- The port of the fixed ordered route between this device and a peer (R433). -/
opaque jiathPort : (device peer : Nat) → Nat
/-- Which of the ports that are up takes the traffic to a peer whose port has been taken down (R433). -/
opaque jiathMoved : (peer : Nat) → (up : List Nat) → Nat

/-- The channel of a compute die's log under which a reset or thermal trip is recorded (R462 names none). -/
opaque resetChannel : (die : Nat) → Nat

/-- Where a firmware image keeps its body, its ML-DSA-87 signature, the public key and its security version (R454 gives no layout). -/
opaque imageBody : (image : List Byte) → List Byte
opaque imageSignature : (image : List Byte) → List Byte
opaque imageKey : (image : List Byte) → List Byte
opaque securityVersion : (image : List Byte) → Nat
/-- The SHA3-512 digest of the public key that is fused into IOD0 (R454). -/
opaque fusedKey : List Byte
/-- ML-DSA-87 (R3, R454, R455), which the spec names and does not define: a signature over a digest verified under a public key, and
the signature of a digest by the device's identity key. -/
opaque mlDsaVerify : (key digest signature : List Byte) → Bool
opaque identitySign : (digest : List Byte) → List Byte

/-- The mailbox STATUS of a LOAD_FIRMWARE whose image is refused (R453 gives 0 to 2, R454 none). -/
opaque refusedStatus : Nat

/-- The bytes that the measurements of index 1 and 3 are taken of (R455): the boot ROM, and the harvest fuses. -/
opaque bootRom : List Byte
opaque harvestFuses : List Byte

/-- The rest of an SPDM answer (R455), by request, and the device's certificate chain. -/
opaque spdmPart : (request : Nat) → List Byte
opaque certificates : List Byte

/-- What a byte of BAR0 to which the spec gives no contents reads as, at the `n`-th such read (R453, R462). -/
opaque barByte : (n off : Nat) → Byte

end Sys2Proof.Config
end

