-- ==== Sys2Proof/Machine/Bits.lean ====
section
/-! DEFINITION. Bit fields, sign extension, byte order and bit counting on natural numbers (R6, R13, R46). -/

namespace Sys2Proof.Machine

/-- Bits `lo + len - 1` to `lo` of `n`. -/
def field (n lo len : Nat) : Nat := n / 2 ^ lo % 2 ^ len

/-- Bit `i` of `n`. -/
def bit (n i : Nat) : Bool := n / 2 ^ i % 2 == 1

/-- The two's-complement value of the low `w` bits of `n` (R44). -/
def toSigned (w n : Nat) : Int :=
  let m := n % 2 ^ w
  if 2 * m < 2 ^ w then Int.ofNat m else Int.ofNat m - Int.ofNat (2 ^ w)

/-- The value of the low `w` bits of `n`, signed or unsigned (R92). -/
def valueOf (sgn : Bool) (w n : Nat) : Int :=
  if sgn then toSigned w n else Int.ofNat (n % 2 ^ w)

/-- An integer modulo `2 ^ w` (R45). -/
def wrap (w : Nat) (x : Int) : Nat := (x % Int.ofNat (2 ^ w)).toNat

/-- The low `w` bits of `n` sign-extended to `v` bits (R13). -/
def sextNat (w v n : Nat) : Nat := wrap v (toSigned w n)

/-- The least value of a `w`-bit integer type (R44). -/
def minOf (sgn : Bool) (w : Nat) : Int := if sgn then - Int.ofNat (2 ^ (w - 1)) else 0

/-- The greatest value of a `w`-bit integer type (R44). -/
def maxOf (sgn : Bool) (w : Nat) : Int :=
  if sgn then Int.ofNat (2 ^ (w - 1)) - 1 else Int.ofNat (2 ^ w) - 1

/-- `x` brought into `lo` to `hi` (R45). -/
def clampInt (lo hi x : Int) : Int := if x < lo then lo else if hi < x then hi else x

/-- `w` ones. -/
def ones (w : Nat) : Nat := 2 ^ w - 1

/-- The number of 1 bits among the low `w` bits. -/
def popcount : Nat → Nat → Nat
  | 0, _ => 0
  | w + 1, n => n % 2 + popcount w (n / 2)

/-- The number of 0 bits above the highest 1 bit of `w` bits; `w` for zero (R104). -/
def clz (w n : Nat) : Nat := if n = 0 then w else w - 1 - Nat.log2 n

/-- The number of 0 bits below the lowest 1 bit of `w` bits; `w` for zero (R104). -/
def ctz : Nat → Nat → Nat
  | 0, _ => 0
  | w + 1, n => if n % 2 = 1 then 0 else 1 + ctz w (n / 2)

/-- The low `w` bits in reverse order (R104). -/
def brev : Nat → Nat → Nat
  | 0, _ => 0
  | w + 1, n => n % 2 * 2 ^ w + brev w (n / 2)

/-- The number whose bit `i` is `f i`, for `i < w`. -/
def ofBits : Nat → (Nat → Bool) → Nat
  | 0, _ => 0
  | w + 1, f => ofBits w f + (if f w then 2 ^ w else 0)

/-- The low `k` bytes of `n`, least significant first (R6). -/
def toBytes : Nat → Nat → List Byte
  | 0, _ => []
  | k + 1, n => BitVec.ofNat 8 n :: toBytes k (n / 256)

/-- The number that a list of bytes spells, least significant first (R6). -/
def ofBytes : List Byte → Nat
  | [] => 0
  | b :: bs => b.toNat + 256 * ofBytes bs

/-- Bit `i` of a list of bytes: bit `i mod 8` of byte `i / 8` (R46). -/
def bitsAt (n i w : Nat) : Nat := n / 2 ^ (w * i) % 2 ^ w

/-- A list of `w`-bit elements packed from bit 0 upward (R46). -/
def packElems (w : Nat) : List Nat → Nat
  | [] => 0
  | x :: xs => x % 2 ^ w + 2 ^ w * packElems w xs

/-- `n` brought up to a multiple of `k`. -/
def roundUp (n k : Nat) : Nat := (n + k - 1) / k * k

/-- The greatest `r` with `r * r ≤ n`, found bit by bit from bit `k - 1`. -/
def isqrtAux (n : Nat) : Nat → Nat → Nat
  | 0, r => r
  | k + 1, r =>
    let t := r + 2 ^ k
    isqrtAux n k (if t * t ≤ n then t else r)

/-- The integer square root. -/
def isqrt (n : Nat) : Nat := isqrtAux n (Nat.log2 n / 2 + 1) 0

end Sys2Proof.Machine
end

