-- ==== Sys2Proof/Machine/Flags.lean ====
section
/-! DEFINITION. The six floating-point flags of FPFLAGS (R20) and the rounding and flushing controls of FPCTL (R19). -/

namespace Sys2Proof.Machine

/-- A set of FPFLAGS bits: NV 0, DZ 1, OF 2, UF 3, NX 4, SAT 5 (R20). -/
abbrev Fl := BitVec 6

def flNone : Fl := 0#6
def flNV : Fl := 1#6
def flDZ : Fl := 2#6
def flOF : Fl := 4#6
def flUF : Fl := 8#6
def flNX : Fl := 16#6
def flSAT : Fl := 32#6

/-- `f` where `b` holds. -/
def flWhen (b : Bool) (f : Fl) : Fl := if b then f else flNone

/-- The four rounding modes (R50). -/
inductive Mode where
  | rn | rz | rd | ru
deriving DecidableEq, Repr

/-- The mode that the two bits of FPCTL.RM select (R19). -/
def modeOfRM (rm : Nat) : Mode :=
  match rm % 4 with
  | 0 => .rn
  | 1 => .rz
  | 2 => .rd
  | _ => .ru

/-- The floating-point control of a thread: the four defined bits of FPCTL (R19). -/
abbrev FpCtl := BitVec 4

/-- FPCTL.RM as a mode. -/
def FpCtl.mode (c : FpCtl) : Mode := modeOfRM (c.toNat % 4)
/-- FPCTL.FZS: f32 subnormals are flushed (R55). -/
def FpCtl.fzs (c : FpCtl) : Bool := bit c.toNat 2
/-- FPCTL.FZH: f16 and bf16 subnormals are flushed (R55). -/
def FpCtl.fzh (c : FpCtl) : Bool := bit c.toNat 3

/-- The mode of a word: its own modifier, else FPCTL.RM (R19, R70). -/
def modeOf (r : Rnd) (c : FpCtl) : Mode :=
  match r with
  | .ctl => FpCtl.mode c
  | .rn => .rn
  | .rz => .rz
  | .rd => .rd
  | .ru => .ru

end Sys2Proof.Machine
end

