-- ==== Sys2Proof/Machine/Fp.lean ====
section
/-! DEFINITION. The floating-point formats, exact values, the single rounding, conversions and arithmetic of the chapter on numbers (R47 to R62). -/

namespace Sys2Proof.Machine

/-- How a format spends its top exponent (R47): an IEEE format, e4m3 (one NaN, no infinity), or none. -/
inductive Specials where
  | ieee | e4m3 | none
deriving DecidableEq, Repr

/-- A floating-point format other than e8m0 (R47). -/
structure Fmt where
  e : Nat
  m : Nat
  bias : Nat
  sp : Specials
  /-- its NaNs with a clear top mantissa bit signal (R49) -/
  sig : Bool
deriving DecidableEq, Repr

def fmtF64 : Fmt := ⟨11, 52, 1023, .ieee, true⟩
def fmtF32 : Fmt := ⟨8, 23, 127, .ieee, true⟩
def fmtF16 : Fmt := ⟨5, 10, 15, .ieee, true⟩
def fmtBf16 : Fmt := ⟨8, 7, 127, .ieee, true⟩
def fmtE5m2 : Fmt := ⟨5, 2, 15, .ieee, false⟩
def fmtE4m3 : Fmt := ⟨4, 3, 7, .e4m3, false⟩
def fmtE3m2 : Fmt := ⟨3, 2, 3, .none, false⟩
def fmtE2m3 : Fmt := ⟨2, 3, 1, .none, false⟩
def fmtE2m1 : Fmt := ⟨2, 1, 1, .none, false⟩

/-- The width of a format in bits. -/
def Fmt.w (f : Fmt) : Nat := 1 + f.e + f.m

/-- An exact value: a NaN, an infinity, or `(-1)^neg * m * 2^e`. -/
inductive FVal where
  | nan (signaling : Bool)
  | inf (neg : Bool)
  | fin (neg : Bool) (m : Nat) (e : Int)
deriving DecidableEq, Repr

def FVal.isNan : FVal → Bool
  | .nan _ => true
  | _ => false
def FVal.isSnan : FVal → Bool
  | .nan true => true
  | _ => false
def FVal.isZero : FVal → Bool
  | .fin _ 0 _ => true
  | _ => false
def FVal.isInf : FVal → Bool
  | .inf _ => true
  | _ => false
def FVal.neg : FVal → Bool
  | .nan _ => false
  | .inf n => n
  | .fin n _ _ => n

/-- The value a bit pattern encodes (R47, R49). -/
def fdecode (f : Fmt) (n : Nat) : FVal :=
  let mant := n % 2 ^ f.m
  let ex := n / 2 ^ f.m % 2 ^ f.e
  let s := bit n (f.e + f.m)
  let top := 2 ^ f.e - 1
  if f.sp = .ieee ∧ ex = top then
    if mant = 0 then .inf s else .nan (f.sig && mant < 2 ^ (f.m - 1))
  else if f.sp = .e4m3 ∧ ex = top ∧ mant = 2 ^ f.m - 1 then .nan false
  else if ex = 0 then .fin s mant (1 - Int.ofNat f.bias - Int.ofNat f.m)
  else .fin s (mant + 2 ^ f.m) (Int.ofNat ex - Int.ofNat f.bias - Int.ofNat f.m)

/-- A bit pattern that is a nonzero subnormal. -/
def isSubnormal (f : Fmt) (n : Nat) : Bool :=
  n / 2 ^ f.m % 2 ^ f.e == 0 && n % 2 ^ f.m != 0

/-- An input, read as a zero of its sign where it is subnormal and flushed (R55). -/
def fread (f : Fmt) (flush : Bool) (n : Nat) : FVal :=
  if flush && isSubnormal f n then .fin (bit n (f.e + f.m)) 0 0 else fdecode f n

/-- The canonical NaN (R49). -/
def canonNan (f : Fmt) : Nat :=
  match f.sp with
  | .ieee => (2 ^ f.e - 1) * 2 ^ f.m + 2 ^ (f.m - 1)
  | .e4m3 => 2 ^ (f.e + f.m) - 1
  | .none => 0

def signBit (f : Fmt) (neg : Bool) : Nat := if neg then 2 ^ (f.e + f.m) else 0

/-- The largest finite magnitude's encoding (R47). -/
def maxFinBits (f : Fmt) : Nat :=
  match f.sp with
  | .ieee => (2 ^ f.e - 1) * 2 ^ f.m - 1
  | .e4m3 => 2 ^ (f.e + f.m) - 2
  | .none => 2 ^ (f.e + f.m) - 1

def infBits (f : Fmt) : Nat := (2 ^ f.e - 1) * 2 ^ f.m

/-- A result: its bits and the flags it raises. -/
structure FRes where
  bits : Nat
  fl : Fl
deriving DecidableEq, Repr

/-- Whether a discarded part rounds the magnitude up: `cmpHalf` compares it with half a unit. -/
def roundsUp (mode : Mode) (neg odd : Bool) (inexact : Bool) (cmpHalf : Ordering) : Bool :=
  inexact &&
  match mode with
  | .rn => match cmpHalf with
    | .gt => true
    | .eq => odd
    | .lt => false
  | .rz => false
  | .rd => neg
  | .ru => !neg

/-- `m * 2^e` rounded to a multiple of `2^q`: the multiple, and whether the rounding was inexact (R50). -/
def roundTo (mode : Mode) (neg : Bool) (m : Nat) (e q : Int) : Nat × Bool :=
  if q ≤ e then (m * 2 ^ (e - q).toNat, false)
  else
    let s := (q - e).toNat
    if Nat.log2 m + 2 < s then
      ((if roundsUp mode neg false (m != 0) .lt then 1 else 0), m != 0)
    else
      let hi := m / 2 ^ s
      let lo := m % 2 ^ s
      let ix := lo != 0
      ((if roundsUp mode neg (hi % 2 == 1) ix (compare (2 * lo) (2 ^ s)) then hi + 1 else hi), ix)

/-- IEEE overflow: infinity, or the largest finite value where the mode rounds toward zero for the sign (R58). -/
def ieeeOverflow (f : Fmt) (mode : Mode) (neg : Bool) : Nat :=
  let toInf := match mode with
    | .rn => true
    | .rz => false
    | .rd => neg
    | .ru => !neg
  if toInf then (match f.sp with
    | .e4m3 => canonNan f
    | _ => infBits f + signBit f neg)
  else maxFinBits f + signBit f neg

/-- A format that always saturates (R58). -/
def alwaysSat (f : Fmt) : Bool := f.sp == .none

/-- The exact finite value `(-1)^neg * m * 2^e` delivered in a format: one rounding, then overflow, then
tininess (R50, R55, R57, R58). `sat` is the saturation control, `flush` whether a tiny result becomes zero. -/
def deliver (f : Fmt) (mode : Mode) (sat flush : Bool) (neg : Bool) (m : Nat) (e : Int) : FRes :=
  if m = 0 then ⟨signBit f neg, flNone⟩
  else
    let top := e + Int.ofNat (Nat.log2 m)
    let emin : Int := 1 - Int.ofNat f.bias
    let qn := top - Int.ofNat f.m
    let un := roundTo mode neg m e qn
    let tiny := decide (top < emin) && !(decide (top = emin - 1) && un.1 == 2 ^ (f.m + 1))
    if flush && tiny then ⟨signBit f neg, flUF ||| flNX⟩
    else
      let q := if qn < emin - Int.ofNat f.m then emin - Int.ofNat f.m else qn
      let rd := roundTo mode neg m e q
      let r := if rd.1 = 2 ^ (f.m + 1) then 2 ^ f.m else rd.1
      let q' := if rd.1 = 2 ^ (f.m + 1) then q + 1 else q
      let mag := if r < 2 ^ f.m then Int.ofNat r
        else (q' + Int.ofNat f.m + Int.ofNat f.bias) * Int.ofNat (2 ^ f.m) + Int.ofNat (r - 2 ^ f.m)
      if Int.ofNat (maxFinBits f) < mag then
        if sat || alwaysSat f then ⟨maxFinBits f + signBit f neg, flOF ||| flNX ||| flSAT⟩
        else ⟨ieeeOverflow f mode neg, flOF ||| flNX⟩
      else ⟨mag.toNat + signBit f neg,
        flWhen rd.2 flNX ||| flWhen (tiny && rd.2) flUF⟩

/-- A value delivered by a conversion (R57, R58). -/
def convertTo (f : Fmt) (mode : Mode) (sat flush : Bool) (v : FVal) : FRes :=
  match v with
  | .nan sg =>
    if alwaysSat f then ⟨0, flNV⟩ else ⟨canonNan f, flWhen sg flNV⟩
  | .inf n =>
    if sat || alwaysSat f then ⟨maxFinBits f + signBit f n, flSAT⟩
    else match f.sp with
      | .e4m3 => ⟨canonNan f, flNV⟩
      | _ => ⟨infBits f + signBit f n, flNone⟩
  | .fin n m e => deliver f mode sat flush n m e

/-- Whether the fraction of `m`, whose top bit is `2^k`, exceeds one. -/
def aboveOne (m k : Nat) : Bool := m != 2 ^ k
/-- Whether `m / 2^k` is at least one and a half. -/
def atLeastThreeHalves (m k : Nat) : Bool := 3 * 2 ^ k ≤ 2 * m

/-- A conversion into e8m0 (R60). -/
def toE8m0 (mode : Mode) (v : FVal) : FRes :=
  match v with
  | .nan sg => ⟨0xFF, flWhen sg flNV⟩
  | .inf true => ⟨0xFF, flNV⟩
  | .inf false => ⟨0xFE, flSAT⟩
  | .fin n m e =>
    if m = 0 then ⟨0x00, flUF ||| flNX⟩
    else if n then ⟨0xFF, flNV⟩
    else
      let k0 := Nat.log2 m
      let ex := e + Int.ofNat k0
      let up := match mode with
        | .rz => false
        | .rd => false
        | .ru => aboveOne m k0
        | .rn => atLeastThreeHalves m k0
      let k := if up then ex + 1 else ex
      if 127 < k then ⟨0xFE, flOF ||| flSAT ||| flNX⟩
      else if k < -127 then ⟨0x00, flUF ||| flNX⟩
      else ⟨(k + 127).toNat, flWhen (aboveOne m k0) flNX⟩

/-- The value of an e8m0 encoding (R48). -/
def ofE8m0 (n : Nat) : FVal :=
  if n % 256 = 255 then .nan false else .fin false 1 (Int.ofNat (n % 256) - 127)

/-- A float converted to an integer type (R59). -/
def toInteger (mode : Mode) (sgn : Bool) (w : Nat) (v : FVal) : FRes :=
  match v with
  | .nan _ => ⟨0, flNV⟩
  | .inf n => ⟨wrap w (if n then minOf sgn w else maxOf sgn w), flNV⟩
  | .fin n m e =>
    if Int.ofNat 1100 < e ∧ m ≠ 0 then ⟨wrap w (if n then minOf sgn w else maxOf sgn w), flNV⟩
    else
      let r := roundTo mode n m e 0
      let x : Int := if n then - Int.ofNat r.1 else Int.ofNat r.1
      if x < minOf sgn w then ⟨wrap w (minOf sgn w), flNV⟩
      else if maxOf sgn w < x then ⟨wrap w (maxOf sgn w), flNV⟩
      else ⟨wrap w x, flWhen r.2 flNX⟩

/-- An integer as an exact value; zero is +0. -/
def ofInteger (x : Int) : FVal := .fin (decide (x < 0)) x.natAbs 0

/-- An integer converted to an integer (R45, R59). -/
def intToInt (sat sgn : Bool) (w : Nat) (x : Int) : FRes :=
  if sat then
    let y := clampInt (minOf sgn w) (maxOf sgn w) x
    ⟨wrap w y, flWhen (y != x) flSAT⟩
  else ⟨wrap w x, flNone⟩

/-- The flushing control of a format (R55). -/
def flushOf (c : FpCtl) (f : Fmt) : Bool :=
  if f = fmtF32 then FpCtl.fzs c
  else if f = fmtF16 ∨ f = fmtBf16 then FpCtl.fzh c
  else false

/-- The canonical NaN with NV where an input signals (R53). -/
def nanResult (f : Fmt) (signaling : Bool) : FRes := ⟨canonNan f, flWhen signaling flNV⟩
/-- An invalid operation (R53). -/
def invalid (f : Fmt) : FRes := ⟨canonNan f, flNV⟩

/-- The exact sum of two finite values as a signed dyadic `x * 2^e`. -/
def exactAdd (n1 : Bool) (m1 : Nat) (e1 : Int) (n2 : Bool) (m2 : Nat) (e2 : Int) : Int × Int :=
  let e := if e1 ≤ e2 then e1 else e2
  let a := Int.ofNat (m1 * 2 ^ (e1 - e).toNat)
  let b := Int.ofNat (m2 * 2 ^ (e2 - e).toNat)
  ((if n1 then -a else a) + (if n2 then -b else b), e)

/-- A sum of finite values delivered with the zero sign of R52. -/
def deliverSum (f : Fmt) (mode : Mode) (flush : Bool) (n1 n2 : Bool) (x : Int × Int) : FRes :=
  if x.1 = 0 then
    ⟨signBit f (if n1 = n2 then n1 else decide (mode = .rd)), flNone⟩
  else deliver f mode false flush (decide (x.1 < 0)) x.1.natAbs x.2

/-- a + b (R52, R53, R115). -/
def fadd (f : Fmt) (mode : Mode) (flush : Bool) (a b : FVal) : FRes :=
  match a, b with
  | .nan s, y => nanResult f (s || y.isSnan)
  | x, .nan s => nanResult f (s || x.isSnan)
  | .inf n, .inf k => if n = k then ⟨infBits f + signBit f n, flNone⟩ else invalid f
  | .inf n, .fin _ _ _ => ⟨infBits f + signBit f n, flNone⟩
  | .fin _ _ _, .inf n => ⟨infBits f + signBit f n, flNone⟩
  | .fin n1 m1 e1, .fin n2 m2 e2 =>
    deliverSum f mode flush n1 n2
      (if m1 = 0 then ((if n2 then - Int.ofNat m2 else Int.ofNat m2), e2)
       else if m2 = 0 then ((if n1 then - Int.ofNat m1 else Int.ofNat m1), e1)
       else exactAdd n1 m1 e1 n2 m2 e2)

/-- The negation used by FSUB. -/
def FVal.flip : FVal → FVal
  | .nan s => .nan s
  | .inf n => .inf (!n)
  | .fin n m e => .fin (!n) m e

/-- a × b (R53, R115). -/
def fmul (f : Fmt) (mode : Mode) (flush : Bool) (a b : FVal) : FRes :=
  match a, b with
  | .nan s, y => nanResult f (s || y.isSnan)
  | x, .nan s => nanResult f (s || x.isSnan)
  | .inf n, y => if y.isZero then invalid f else ⟨infBits f + signBit f (n != y.neg), flNone⟩
  | x, .inf n => if x.isZero then invalid f else ⟨infBits f + signBit f (n != x.neg), flNone⟩
  | .fin n1 m1 e1, .fin n2 m2 e2 => deliver f mode false flush (n1 != n2) (m1 * m2) (e1 + e2)

/-- a × b + c with one rounding; 0 × ∞ is invalid whatever c holds (R53, R115). -/
def ffma (f : Fmt) (mode : Mode) (flush : Bool) (a b c : FVal) : FRes :=
  if (a.isInf && b.isZero) || (a.isZero && b.isInf) then invalid f
  else if a.isNan || b.isNan || c.isNan then nanResult f (a.isSnan || b.isSnan || c.isSnan)
  else match a, b with
    | .fin n1 m1 e1, .fin n2 m2 e2 =>
      match c with
      | .inf n => ⟨infBits f + signBit f n, flNone⟩
      | .fin n3 m3 e3 =>
        let pn := n1 != n2
        let pm := m1 * m2
        let pe := e1 + e2
        deliverSum f mode flush pn n3
          (if pm = 0 then ((if n3 then - Int.ofNat m3 else Int.ofNat m3), e3)
           else if m3 = 0 then ((if pn then - Int.ofNat pm else Int.ofNat pm), pe)
           else exactAdd pn pm pe n3 m3 e3)
      | .nan s => nanResult f s
    | x, y =>
      let pn := x.neg != y.neg
      match c with
      | .inf n => if n = pn then ⟨infBits f + signBit f n, flNone⟩ else invalid f
      | _ => ⟨infBits f + signBit f pn, flNone⟩

/-- a ÷ b (R53, R115): enough quotient bits with a sticky last bit, then one rounding. -/
def fdiv (f : Fmt) (mode : Mode) (flush : Bool) (a b : FVal) : FRes :=
  match a, b with
  | .nan s, y => nanResult f (s || y.isSnan)
  | x, .nan s => nanResult f (s || x.isSnan)
  | .inf _, .inf _ => invalid f
  | .inf n, .fin k _ _ => ⟨infBits f + signBit f (n != k), flNone⟩
  | .fin n _ _, .inf k => ⟨signBit f (n != k), flNone⟩
  | .fin n1 m1 e1, .fin n2 m2 e2 =>
    if m2 = 0 then
      if m1 = 0 then invalid f else ⟨infBits f + signBit f (n1 != n2), flDZ⟩
    else if m1 = 0 then ⟨signBit f (n1 != n2), flNone⟩
    else
      let k := 2 * f.m + 8
      let num := m1 * 2 ^ k
      let q := num / m2
      let q2 := 2 * q + (if num % m2 = 0 then 0 else 1)
      deliver f mode false flush (n1 != n2) q2 (e1 - e2 - Int.ofNat k - 1)

/-- √a (R53, R115). -/
def fsqrt (f : Fmt) (mode : Mode) (flush : Bool) (a : FVal) : FRes :=
  match a with
  | .nan s => nanResult f s
  | .inf n => if n then invalid f else ⟨infBits f, flNone⟩
  | .fin n m e =>
    if m = 0 then ⟨signBit f n, flNone⟩
    else if n then invalid f
    else
      let k := 2 * f.m + 8
      let odd := decide (e % 2 ≠ 0)
      let mm := (if odd then 2 * m else m) * 2 ^ (2 * k)
      let ee := (if odd then e - 1 else e)
      let r := isqrt mm
      let r2 := 2 * r + (if r * r = mm then 0 else 1)
      deliver f mode false flush false r2 (ee / 2 - Int.ofNat k - 1)

/-- a rounded to an integral value (R115). -/
def frnd (f : Fmt) (mode : Mode) (flush : Bool) (a : FVal) : FRes :=
  match a with
  | .nan s => nanResult f s
  | .inf n => ⟨infBits f + signBit f n, flNone⟩
  | .fin n m e =>
    if 0 ≤ e then deliver f mode false flush n m e
    else
      let r := roundTo mode n m e 0
      let d := deliver f mode false flush n r.1 0
      ⟨d.bits, d.fl ||| flWhen r.2 flNX⟩

/-- a × 2ⁿ (R115). -/
def fscale (f : Fmt) (mode : Mode) (flush : Bool) (a : FVal) (n : Int) : FRes :=
  match a with
  | .nan s => nanResult f s
  | .inf k => ⟨infBits f + signBit f k, flNone⟩
  | .fin k m e => deliver f mode false flush k m (e + n)

/-- a < b on numbers, with −0 below +0 where `signedZero` (R52, R54). -/
def fless (signedZero : Bool) (a b : FVal) : Bool :=
  match a, b with
  | .nan _, _ => false
  | _, .nan _ => false
  | .inf n, .inf k => n && !k
  | .inf n, .fin _ _ _ => n
  | .fin _ _ _, .inf n => !n
  | .fin n1 m1 e1, .fin n2 m2 e2 =>
    if m1 = 0 ∧ m2 = 0 then signedZero && n1 && !n2
    else if m1 = 0 then !n2
    else if m2 = 0 then n1
    else if n1 ≠ n2 then n1
    else decide ((exactAdd n1 m1 e1 (!n2) m2 e2).1 < 0)

/-- a = b on numbers; the zeros are equal (R52). -/
def feq (a b : FVal) : Bool :=
  match a, b with
  | .nan _, _ => false
  | _, .nan _ => false
  | x, y => !(fless false x y) && !(fless false y x)

/-- Re-encodes an input as the result of a minimum or maximum: its own value, zeros with their sign. -/
def reencode (f : Fmt) (v : FVal) : Nat :=
  match v with
  | .nan _ => canonNan f
  | .inf n => infBits f + signBit f n
  | .fin n m e => (deliver f .rn false false n m e).bits

/-- FMIN, FMAX, FMINN and FMAXN (R54). -/
def fminmax (f : Fmt) (isMax preferNumber : Bool) (a b : FVal) : FRes :=
  let fl := flWhen (a.isSnan || b.isSnan) flNV
  if a.isNan && b.isNan then ⟨canonNan f, fl⟩
  else if a.isNan then ⟨(if preferNumber then reencode f b else canonNan f), fl⟩
  else if b.isNan then ⟨(if preferNumber then reencode f a else canonNan f), fl⟩
  else
    let aLess := fless true a b
    ⟨reencode f (if aLess != isMax then a else b), fl⟩

/-- The scale and elements of MX quantisation of exact values (R62): scale, elements, flags. -/
def mxEpsilon (f : Fmt) : Int :=
  if f = fmtE5m2 then 15 else if f = fmtE4m3 then 8 else if f = fmtE3m2 then 4 else 2

/-- The floor of the base-2 logarithm of the largest magnitude among finite nonzero values. -/
def maxLog2 : List FVal → Option Int
  | [] => .none
  | .fin _ m e :: vs =>
    if m = 0 then maxLog2 vs
    else
      let k := e + Int.ofNat (Nat.log2 m)
      match maxLog2 vs with
      | .none => some k
      | .some j => some (if j < k then k else j)
  | _ :: vs => maxLog2 vs

/-- MX quantisation (R62): the scale byte, the elements, and the flags. -/
def mxQuantise (f : Fmt) (mode : Mode) (src : List FVal) : Nat × List Nat × Fl :=
  if src.any (fun v => v.isNan || v.isInf) then
    (0xFF, src.map (fun _ => 0), flWhen (src.any FVal.isSnan) flNV)
  else
    let k : Int := match maxLog2 src with
      | .none => -127
      | .some l => clampInt (-127) 127 (l - mxEpsilon f)
    let rs := src.map (fun v => match v with
      | .fin n m e => deliver f mode true false n m (e - k)
      | _ => ⟨0, flNone⟩)
    ((k + 127).toNat, rs.map FRes.bits, rs.foldl (fun fl r => fl ||| r.fl) flNone)

/-- The element format of MX types (R61). -/
def fmtOfE : EType → Fmt
  | .e4m3 => fmtE4m3
  | .e5m2 => fmtE5m2
  | .e2m3 => fmtE2m3
  | .e3m2 => fmtE3m2
  | .e2m1 => fmtE2m1

/-- The floating-point format of a type code, e8m0 excepted. -/
def fmtOf : Ty → Option Fmt
  | .f64 => some fmtF64
  | .f32 => some fmtF32
  | .f16 => some fmtF16
  | .bf16 => some fmtBf16
  | .e4m3 => some fmtE4m3
  | .e5m2 => some fmtE5m2
  | .e2m3 => some fmtE2m3
  | .e3m2 => some fmtE3m2
  | .e2m1 => some fmtE2m1
  | .f16x2 => some fmtF16
  | .bf16x2 => some fmtBf16
  | _ => .none

/-- A value of MX element `x` under scale byte `E` (R61). -/
def mxValue (f : Fmt) (scale x : Nat) : FVal :=
  if scale % 256 = 255 then .nan false
  else match fdecode f x with
    | .nan s => .nan s
    | .inf n => .inf n
    | .fin n m e => .fin n m (e + Int.ofNat (scale % 256) - 127)

end Sys2Proof.Machine
end

