-- ==== Sys2Proof/Machine/Approx.lean ====
section
/-! DEFINITION. The approximated functions (R120, R121): the result is the free value of the configuration wherever that lies within the accuracy bound, and a value within the bound otherwise. The true value is enclosed in fixed point with `prec` fraction bits. -/

namespace Sys2Proof.Machine

/-- The seven approximated functions, numbered as `Config.approxBits` numbers them. -/
inductive AFn where
  | rcp | rsq | exp2 | log2 | sin | cos | tanh
deriving DecidableEq, Repr

def AFn.num : AFn → Nat
  | .rcp => 0
  | .rsq => 1
  | .exp2 => 2
  | .log2 => 3
  | .sin => 4
  | .cos => 5
  | .tanh => 6

/-- Fraction bits of the fixed-point enclosure. -/
def prec : Nat := 320
/-- One in fixed point. -/
def fxOne : Int := Int.ofNat (2 ^ 320)

/-- The product of two fixed-point numbers. -/
def fxMul (a b : Int) : Int := a * b / fxOne

/-- The fixed-point value of `m * 2^e`, cut below the last bit. -/
def fxOf (neg : Bool) (m : Nat) (e : Int) : Int :=
  let k := e + Int.ofNat prec
  let v : Nat := if 0 ≤ k then m * 2 ^ k.toNat else if k < -400 then 0 else m / 2 ^ (-k).toNat
  if neg then - Int.ofNat v else Int.ofNat v

/-- The sum of the exponential series from term `k`, `fuel` terms: `t` is the last term. -/
def expSeries (x : Int) : Nat → Nat → Int → Int
  | 0, _, t => t
  | fuel + 1, k, t => t + expSeries x fuel (k + 1) (fxMul t x / Int.ofNat (k + 1))

/-- eˣ for |x| ≤ 1. -/
def fxExp (x : Int) : Int := expSeries x 80 0 fxOne

/-- eˣ − 1 for |x| ≤ 1. -/
def fxExpm1 (x : Int) : Int := expSeries x 80 1 x

/-- The series z + z³/3 + z⁵/5 + … from the term in `zp = z^k`. -/
def atanhSeries (z2 : Int) : Nat → Nat → Int → Int
  | 0, _, _ => 0
  | fuel + 1, k, zp => zp / Int.ofNat k + atanhSeries z2 fuel (k + 2) (fxMul zp z2)

/-- The natural logarithm of a fixed-point number in [1/2, 2]. -/
def fxLn (x : Int) : Int :=
  let z := (x - fxOne) * fxOne / (x + fxOne)
  2 * atanhSeries (fxMul z z) 110 1 z

/-- ln 2 in fixed point. -/
def fxLn2 : Int := fxLn (2 * fxOne)

/-- The alternating series of the sine and cosine from term `t` of degree `k`. -/
def trigSeries (x2 : Int) : Nat → Nat → Int → Int
  | 0, _, t => t
  | fuel + 1, k, t => t + trigSeries x2 fuel (k + 2) (- fxMul t x2 / Int.ofNat ((k + 1) * (k + 2)))

/-- The series of the arc tangent of 1/n. -/
def atanInv (n : Nat) : Nat → Nat → Int → Int
  | 0, _, _ => 0
  | fuel + 1, k, p => p / Int.ofNat k - atanInv n fuel (k + 2) (p / Int.ofNat (n * n))

/-- π in fixed point with `prec` fraction bits (Machin's formula). -/
def fxPi : Int :=
  16 * atanInv 5 150 1 (fxOne / 5) - 4 * atanInv 239 60 1 (fxOne / 239)

/-- The sine and cosine of a fixed-point number reduced by multiples of π/2. -/
def fxSinCos (x : Int) : Int × Int :=
  let h := fxPi / 2
  let q := (2 * x + h) / (2 * h)
  let r := x - q * h
  let r2 := fxMul r r
  let s := trigSeries r2 60 1 r
  let c := trigSeries r2 60 0 fxOne
  match (q % 4).toNat with
  | 0 => (s, c)
  | 1 => (c, -s)
  | 2 => (-s, -c)
  | _ => (-c, s)

/-- The hyperbolic tangent of a positive number. -/
def fxTanh (a : Int) : Int :=
  if 20 * fxOne < a then fxOne
  else if 2 * a < fxOne then
    let u := fxExpm1 (-2 * a)
    (-u) * fxOne / (u + 2 * fxOne)
  else
    let y := fxMul (2 * a) (fxOne * fxOne / fxLn2)
    let k := y / fxOne
    let f := fxOne * fxOne / fxExp (fxMul (y - k * fxOne) fxLn2) / Int.ofNat (2 ^ k.toNat)
    (fxOne - f) * fxOne / (fxOne + f)

/-- The true value of a function at a finite nonzero f32 input outside the exact cases, in fixed point. -/
def fxTrue (fn : AFn) (neg : Bool) (m : Nat) (e : Int) : Int :=
  let x := fxOf neg m e
  match fn with
  | .rcp => if x = 0 then 0 else fxOne * fxOne / x
  | .rsq =>
    let odd := decide (e % 2 ≠ 0)
    let mm := if odd then 2 * m else m
    let ee := if odd then e - 1 else e
    let r := isqrt (2 ^ 800 / mm)
    fxOf false r (- ee / 2 - 400)
  | .exp2 =>
    if fxOne * 300 < x then fxOne * Int.ofNat (2 ^ 300)
    else if x < - fxOne * 300 then 0
    else
      let k := x / fxOne
      let f := fxExp (fxMul (x - k * fxOne) fxLn2)
      if 0 ≤ k then f * Int.ofNat (2 ^ k.toNat) else f / Int.ofNat (2 ^ (-k).toNat)
  | .log2 =>
    let k := Int.ofNat (Nat.log2 m)
    let big := 3 * 2 ^ Nat.log2 m < 2 * m
    let k' := if big then k + 1 else k
    (e + k') * fxOne + fxLn (fxOf false m (- k')) * fxOne / fxLn2
  | .sin => (fxSinCos x).1
  | .cos => (fxSinCos x).2
  | .tanh =>
    let a := fxOf false m e
    let t := fxTanh a
    if neg then -t else t

/-- The unit in the last place of a delivered f32, in fixed point (R120). -/
def fxUlp (r : Nat) : Int :=
  let ex := r / 2 ^ 23 % 256
  fxOf false 1 (Int.ofNat (if ex = 0 then 1 else ex) - 150)

/-- The tolerance in fixed point that covers the enclosure's own error. -/
def fxSlack : Int := Int.ofNat (2 ^ 100)

/-- Whether f32 bits `r` lie within the bound of R120 of the true value. -/
def withinBound (fn : AFn) (neg : Bool) (m : Nat) (e : Int) (r : Nat) : Bool :=
  match fdecode fmtF32 r with
  | .fin n rm re =>
    let t := fxTrue fn neg m e
    let v := fxOf n rm re
    let d := Int.ofNat (t - v).natAbs
    let u := fxUlp r
    let a22 := Int.ofNat (2 ^ 298)
    match fn with
    | .rcp => d ≤ u + fxSlack
    | .rsq => d ≤ u + fxSlack
    | .exp2 => d ≤ 2 * u + fxSlack
    | .log2 =>
      let x := fxOf neg m e
      if fxOne ≤ 2 * x ∧ x ≤ 2 * fxOne then d ≤ a22 + fxSlack else d ≤ 2 * u + fxSlack
    | .sin => d ≤ a22 + fxSlack
    | .cos => d ≤ a22 + fxSlack
    | .tanh => decide (d ≤ 2 * u + fxSlack) && decide (d ≤ a22 / 2 + fxSlack) &&
        decide (Int.ofNat v.natAbs ≤ fxOne)
  | _ => false

/-- The value nearest the true one. -/
def nearestBits (fn : AFn) (neg : Bool) (m : Nat) (e : Int) : Nat :=
  let t := fxTrue fn neg m e
  (deliver fmtF32 .rn false false (decide (t < 0)) t.natAbs (- Int.ofNat prec)).bits

/-- FEXP2 of an integer whose power of two is representable in f32: its exponent. -/
def exp2Exact (neg : Bool) (m : Nat) (e : Int) : Option Int :=
  let r := roundTo .rz neg m e 0
  if r.2 then none
  else
    let k : Int := if neg then - Int.ofNat r.1 else Int.ofNat r.1
    if -149 ≤ k ∧ k ≤ 127 then some k else none

/-- A function of an f32 value, without flushing of its result (R120, R121). The Bool says that the
result is exact, so that it raises no NX. DESIGN CHOICE (log 148): R120 leaves open whether a true value of 2^128, or so little above it
that a finite f32 lies within the bound, is delivered as that or as infinity; where the free value of the result is such a finite one,
it is delivered, else infinity, with OF. -/
def approx32 (fn : AFn) (v : FVal) (input : Nat) : FRes × Bool :=
  match v with
  | .nan s => (nanResult fmtF32 s, true)
  | .inf n =>
    match fn with
    | .rcp => (⟨signBit fmtF32 n, flNone⟩, true)
    | .rsq => (if n then invalid fmtF32 else ⟨0, flNone⟩, true)
    | .exp2 => (⟨if n then 0 else infBits fmtF32, flNone⟩, true)
    | .log2 => (if n then invalid fmtF32 else ⟨infBits fmtF32, flNone⟩, true)
    | .sin => (invalid fmtF32, true)
    | .cos => (invalid fmtF32, true)
    | .tanh => (⟨0x3F800000 + signBit fmtF32 n, flNone⟩, true)
  | .fin n m e =>
    if m = 0 then
      match fn with
      | .rcp => (⟨infBits fmtF32 + signBit fmtF32 n, flDZ⟩, true)
      | .rsq => (⟨infBits fmtF32 + signBit fmtF32 n, flDZ⟩, true)
      | .exp2 => (⟨0x3F800000, flNone⟩, true)
      | .log2 => (⟨infBits fmtF32 + signBit fmtF32 true, flDZ⟩, true)
      | .sin => (⟨signBit fmtF32 n, flNone⟩, true)
      | .cos => (⟨0x3F800000, flNone⟩, true)
      | .tanh => (⟨signBit fmtF32 n, flNone⟩, true)
    else if n ∧ (fn = .rsq ∨ fn = .log2) then (invalid fmtF32, true)
    else if fn = .log2 ∧ e + Int.ofNat (Nat.log2 m) = 0 ∧ m = 2 ^ Nat.log2 m then (⟨0, flNone⟩, true)
    else
      match (if fn = .exp2 then exp2Exact n m e else none) with
      | some k => (⟨(deliver fmtF32 .rn false false false 1 k).bits, flNone⟩, true)
      | none =>
        let t := fxTrue fn n m e
        let r := (Config.approxBits fn.num input).toNat
        if withinBound fn n m e r then (⟨r, flNX⟩, false)
        else if fxOne * Int.ofNat (2 ^ 128) ≤ Int.ofNat t.natAbs then
          (⟨infBits fmtF32 + signBit fmtF32 (decide (t < 0)), flOF ||| flNX⟩, false)
        else (⟨nearestBits fn n m e, flNX⟩, false)

/-- FRCP to FTANH on one element of a format (R120, R121). DESIGN CHOICE (log 109): R121 speaks of finite nonzero results; a delivered
zero that is no exact case raises UF and NX here, whatever the true value. -/
def approxElem (fn : AFn) (f : Fmt) (flush : Bool) (bits : Nat) : FRes :=
  let v := fread f flush bits
  let in32 := (convertTo fmtF32 .rn false false v).bits
  let r := approx32 fn v in32
  match fdecode fmtF32 r.1.bits with
  | .nan _ => ⟨canonNan f, r.1.fl⟩
  | .inf n => ⟨infBits f + signBit f n, r.1.fl⟩
  | .fin n m e =>
    let d := deliver f .rn false flush n m e
    let tiny := isSubnormal f d.bits || d.bits % 2 ^ (f.e + f.m) == 0
    ⟨d.bits, r.1.fl ||| d.fl ||| flWhen (!r.2 && tiny && m != 0) flUF |||
      flWhen (!r.2 && d.bits % 2 ^ (f.e + f.m) == 0) (flUF ||| flNX)⟩

end Sys2Proof.Machine
end

