-- ==== Sys2Proof/Machine/Maps.lean ====
section
/-! DEFINITION. Sparse maps by number, and sparse byte memory in its canonical form: addresses strictly rising, no entry 0. -/

namespace Sys2Proof.Machine

/-- The entry of a key. -/
def amGet {β : Type} : AMap β → Nat → Option β
  | [], _ => none
  | (k, v) :: t, q => if q = k then some v else amGet t q

/-- The entry of a key, or a default. -/
def amGetD {β : Type} (m : AMap β) (k : Nat) (d : β) : β := (amGet m k).getD d

/-- The map with one entry set. -/
def amPut {β : Type} : AMap β → Nat → β → AMap β
  | [], q, x => [(q, x)]
  | (k, v) :: t, q, x =>
    if q = k then (q, x) :: t else if q < k then (q, x) :: (k, v) :: t else (k, v) :: amPut t q x

/-- The map without an entry. -/
def amDel {β : Type} (m : AMap β) (k : Nat) : AMap β := m.filter fun e => e.1 != k

/-- The map with one entry set or removed. -/
def amSet {β : Type} (m : AMap β) (k : Nat) (x : Option β) : AMap β :=
  match x with
  | some v => amPut m k v
  | none => amDel m k

/-- The map with an existing entry changed. -/
def amMod {β : Type} (m : AMap β) (k : Nat) (f : β → β) : AMap β :=
  m.map fun e => if e.1 = k then (e.1, f e.2) else e

/-- The keys. -/
def amKeys {β : Type} (m : AMap β) : List Nat := m.map Prod.fst

/-- Whether a key has an entry. -/
def amHas {β : Type} (m : AMap β) (k : Nat) : Bool := (amGet m k).isSome

/-- The least natural number below `n` that satisfies a test, searched from `k`. -/
def leastFrom (p : Nat → Bool) : Nat → Nat → Option Nat
  | 0, _ => none
  | n + 1, k => if p k then some k else leastFrom p n (k + 1)

/-- The least number below `n` that is not among `xs`. -/
def leastFree (xs : List Nat) (n : Nat) : Option Nat := leastFrom (fun k => !xs.contains k) n 0

/-- Element `i` of a list replaced. -/
def setNth {β : Type} : List β → Nat → β → List β
  | [], _, _ => []
  | _ :: t, 0, x => x :: t
  | h :: t, i + 1, x => h :: setNth t i x

/-- Element `i` of a list changed. -/
def modNth {β : Type} : List β → Nat → (β → β) → List β
  | [], _, _ => []
  | h :: t, 0, f => f h :: t
  | h :: t, i + 1, f => h :: modNth t i f

/-- An element inserted by a test of order. -/
def insertBy {α : Type} (before : α → α → Bool) (x : α) : List α → List α
  | [] => [x]
  | y :: ys => if before x y then x :: y :: ys else y :: insertBy before x ys
def sortBy {α : Type} (before : α → α → Bool) (xs : List α) : List α := xs.foldr (insertBy before) []

/-- Keys strictly rising from a lower bound. -/
def risingFrom {β : Type} : Nat → AMap β → Bool
  | _, [] => true
  | lo, (k, _) :: t => lo ≤ k && risingFrom (k + 1) t

/-- The canonical form of byte memory. -/
def Memory.wf (m : Mem) : Bool := risingFrom 0 m && m.all fun c => c.2 != 0#8

/-- The byte at an address; an unlisted byte reads 0. -/
def memGet (m : Mem) (a : Nat) : Byte := amGetD m a 0#8

/-- The entries a run of bytes lists from an address on: none for a zero byte. -/
def cells : Nat → List Byte → Mem
  | _, [] => []
  | a, b :: bs => if b = 0#8 then cells (a + 1) bs else (a, b) :: cells (a + 1) bs

/-- A run of bytes written from an address on. -/
def memWrite (m : Mem) (a : Nat) (bs : List Byte) : Mem :=
  m.filter (fun c => c.1 < a) ++ (cells a bs ++ m.filter (fun c => a + bs.length ≤ c.1))

/-- `n` bytes from an address on. -/
def memRead (m : Mem) (a n : Nat) : List Byte :=
  let w := m.filter fun c => a ≤ c.1 && c.1 < a + n
  (List.range n).map fun i => memGet w (a + i)

/-- A little-endian number of `n` bytes at an address (R6). -/
def memNat (m : Mem) (a n : Nat) : Nat := ofBytes (memRead m a n)

/-- Bytes written under a mask, where the mask's bit is set. -/
def maskBytes (old new : List Byte) (mask : Nat → Bool) : List Byte :=
  (List.range old.length).map fun i => if mask i then new.getD i 0#8 else old.getD i 0#8

end Sys2Proof.Machine
end

