-- ==== Sys2Proof/Machine/State.lean ====
section
/-! DEFINITION. The state of one GD-OL9 module as plain data, the reasons a step can stop, and the state after module reset. -/

namespace Sys2Proof.Machine

/-- Why the machine stops with a fault. -/
inductive Fault where
  /-- Raised by the meaning of an instruction word executed while no group is issuing (`State.cur = none`);
  `step` never does this. Safe: the spec gives a word an effect only at an issue (R154). -/
  | noIssue
  /-- Raised by the meaning of an event that the agenda names as a word, or the reverse. Safe: an agenda that
  mixes them describes no behaviour of the hardware. -/
  | badTurn
deriving DecidableEq, Repr

/-- Why the machine refuses. -/
inductive Refusal where
  /-- Raised by `exec` for an instruction that has no meaning in this model. Safe. -/
  | notModelled (mnemonic : String)
deriving DecidableEq, Repr

/-- Time: core clocks counted since module reset, DATUM, and how many of the core clocks of the datum tick under way have
passed (R2, R18). -/
structure Time where
  clk : Nat
  datum : Nat
  part : Nat
deriving DecidableEq, Repr

/-- The state of a stake at its resolution entry (R188). -/
inductive StakeSt where
  | pending
  | fulfilled (data : List Byte)
  | broken (cause trapc carried : Nat)
deriving DecidableEq, Repr

/-- The time that passes after a turn: the rest of the datum tick, one core clock of it, or none. -/
inductive After where
  | tick | clock | now
deriving DecidableEq, Repr

/-- One turn of the schedule: which part of the machine moves next. -/
inductive Turn where
  /-- an event of the opcode table takes place -/
  | event (i : Instr) (after : After)
  /-- a pipe of a core (4 is the merge slot's) makes its choice among the groups placed on it (R158); those in `busy` are not
  ready: their word has not been fetched, or its sources or unit are not available. `defer` leaves the word's memory accesses
  outstanding until ACCESS_PERFORM -/
  | issue (core pipe : Nat) (busy : List GRef) (defer : Bool) (after : After)
  /-- datum ticks pass, with the core clocks that fall into them (R2) -/
  | pass (ticks : Nat)
  /-- a merge unit merges the next `n` elements of a frame's merge, or of the one into spill slot `park` (R180) -/
  | mergeSome (frame : Nat) (park : Option Nat) (n : Nat)
  /-- the copy unit delivers some of what a copy or fill has still to write to memory: the aligned 16 bytes with these numbers, in
  any order (R277, R298) -/
  | copySome (op : Nat) (chunks : List Nat)
  /-- the environment: an uncorrectable error arises (R250) -/
  | upset (e : ErrAt)
  /-- the environment: a correctable error is corrected on a channel of an error log (R250, R462) -/
  | corrected (log chan : Nat)
  /-- a peer answers an AWAIT or POLL of one of its stakes, or an invocation sent to it settles (R430, R431) -/
  | peerAnswer (msg : Nat) (status : W64) (data : List Byte)
  | peerSettle (inv : Nat) (st : StakeSt)
  /-- a message of a peer for a stake or a core of this device arrives (R430, R431) -/
  | peerSend (dev : Nat) (m : PeerMsg)
  /-- the environment: the host names the rings of a command queue (R438) -/
  | queueSetup (queue : Nat) (r : Ring)
  /-- a die's UCIe ports send flits, which only a counter tells (R460) -/
  | flits (die n : Nat)
  /-- the environment: the sensors change (R453) -/
  | sense (values : List Nat)
  /-- the environment: the host or a peer writes its own memory -/
  | outside (key : Nat) (data : List Byte)
deriving DecidableEq, Repr

/-- The issue in progress (R154): the group, its active lanes, the PC of the word. -/
structure Issue where
  g : GRef
  lanes : W32
  pc : W64
  defer : Bool
deriving DecidableEq, Repr

/-- The mode of a transaction (R300, R318, R321). -/
inductive TxMode where
  | value | stamp | ordered | irrevocable
deriving DecidableEq, Repr

/-- A read-log entry (R301): the 8-byte word, its page's entry and the ASID it was translated under, the bytes and the stamp read
and when. -/
structure RdEnt where
  key : Nat
  e : Nat
  asid : BitVec 12
  data : W64
  stamp : Nat
  datum : Nat
deriving DecidableEq, Repr

/-- A write-log entry (R301): the 8-byte word, its page's entry and the ASID it was translated under, the bytes and their mask, and
the priority class and LU of the last store to it (R81, R240). -/
structure WrEnt where
  key : Nat
  e : Nat
  asid : BitVec 12
  data : W64
  mask : BitVec 8
  cls : Nat
  lu : Bool
deriving DecidableEq, Repr

/-- A transaction in progress (R300). -/
structure Tx where
  mode : TxMode
  rd : List RdEnt
  wr : List WrEnt
  abortPc : W64
  d : Reg
  fpctl : BitVec 4
  fpflags : BitVec 6
  issues : Nat
deriving DecidableEq, Repr

/-- What outlives a lane's transactions (R314, R316, R321): hold count, consecutive aborts, status of the
last, ITER, and the uncommitted index (its domain handle), with whether its log overflowed (R318). -/
structure TxLog where
  hold : Nat
  aborts : Nat
  last : BitVec 16
  iter : W64
  owed : Option W64
  overflowed : Bool
deriving DecidableEq, Repr

/-- Why a thread is parked (R154, R216). -/
inductive Park where
  /-- the word issues again once the line bytes `lo` to `hi - 1` of the scratchpad are present (R224) -/
  | presence (lo hi : Nat)
  /-- the word issues again once the class's counter is at most `n` (R349, R351) -/
  | counter (cls n : Nat)
  /-- the word issues again once the die's ready pool has room for `n` tasks (R171) -/
  | pool (n : Nat)
  /-- the word issues again once the holding buffer of the cluster has a free slot (R365) -/
  | holding
  /-- TXBEGIN or TXBEGIN.TS, until the lane's hold count is 0 or its group's cairn has returned: the mode and status register
  of the transaction that it then begins (R314, R345) -/
  | hold (mode : TxMode) (d : Reg)
  /-- the word issues again once no other cairn holds the line (R294) -/
  | locked (line : Nat)
  /-- the word issues again once the completion queue has room (R437) -/
  | cplQueue
  /-- the word issues again once the access is performed (R437) -/
  | access (acc : Nat)
  /-- the word issues again once no access or transaction of the ASID, or of any, is in progress (R269) -/
  | quiet (asid : Option (BitVec 12))
  /-- the word issues again once a group of the core has a scratchpad line count below 255 (R223) -/
  | lineCount (lo hi : Nat)
  /-- BAR.SYNC or BAR.WAIT: released when the barrier's PHASE changes (R201) -/
  | barrier (b : Nat)
  /-- SYNC of a frame: NCHILD as read at the issue, and the lanes that issued (R180, R208) -/
  | sync (frame nchild : Nat) (issued : W32)
  /-- SYNC that trapped, until the word's other frames have ended (R208) -/
  | syncFail (cause sub : Nat) (addr : W64) (issued : W32)
  /-- AWAIT or POLL: the message that will be answered, with the registers to write (R212) -/
  | answer (msg : Nat) (d c : Reg) (m : Nat)
  /-- DROP or a stake-addressed INVOKE that found the stake's queue full, until its message is taken; the registers it then
  writes (R189, R211) -/
  | sent (msg : Nat) (v : List (Nat × W32))
  /-- BAR.ARR.RMT, until the target core accepts the arrival (R203) -/
  | accept (msg : Nat)
  /-- TXCOMMIT, with its status register (R308) -/
  | commit (d : Reg)
  /-- TXBEGIN.O that waits to run irrevocably (R318) -/
  | irrevocable (d : Reg) (pc : BitVec 3)
  /-- MONW (R358) -/
  | monitor (mon : Nat)
  /-- ERET, until every lane stands at one (R409) -/
  | eret
  /-- completed while the group ran its handler: the writes that take effect at its ERET (R216, R409) -/
  | wake (v : List (Nat × W32)) (p : Option (Nat × Bool)) (s : Option (Nat × W64))
deriving DecidableEq, Repr

/-- One thread (R11, R154): PC, v-registers (sparse, absent is 0), p0 to p6, FPCTL, FPFLAGS, wait count. -/
structure Thread where
  pc : W64
  v : AMap W32
  p : BitVec 7
  fpctl : BitVec 4
  fpflags : BitVec 6
  exited : Bool
  park : Option Park
  wait : Nat
  tx : Option Tx
  txlog : TxLog
deriving DecidableEq, Repr

/-- A merge of a frame: the one that carries its fold or application on, or one that parks a child in a spill slot (R178). -/
structure MergeRef where
  frame : Nat
  park : Option Nat
deriving DecidableEq, Repr

/-- An asynchronous fault held by a group (R401): cause, sub-causes, address, class and sequence number, PC. -/
structure AFault where
  cause : Nat
  sub : Nat
  sub2 : Nat
  addr : W64
  cls : Nat
  seq : Nat
  pc : W64
  /-- a merge fault's merge and MSTATE0 to MSTATE3 (R403) -/
  merge : Option (MergeRef × W64 × W64 × W64 × W64)
deriving DecidableEq, Repr

/-- A precise trap that waits for the group's accesses to drain (R395). -/
structure TrapRec where
  cause : Nat
  sub : Nat
  addr : W64
  pc : W64
  issued : W32
  fin : W32
deriving DecidableEq, Repr

/-- The control registers that a group holds (R21, R270, R399, R403). -/
structure Ctl where
  priv : Bool
  trapbase : W64
  cause : W64
  pc : W64
  addr : W64
  fin : W64
  seq : W64
  asid : BitVec 12
  ptbase : W64
  ms0 : W64
  ms1 : W64
  ms2 : W64
  ms3 : W64
deriving DecidableEq, Repr

/-- What a trap frame saves of a lane beside its PC, state and wait count (R397): p0 to p6, FPCTL, FPFLAGS, and v0 to v3 as one
number. -/
structure LaneRegs where
  p : BitVec 7
  fpctl : BitVec 4
  fpflags : BitVec 6
  v : Nat
deriving DecidableEq, Repr

/-- The handler a group is running (R395 to R409): the frame's physical address, what stood before entry, and
the merge to resume at ERET (R404). -/
structure HandlerCtx where
  frame : W64
  exited : W32
  parks : List (Option Park)
  /-- each lane's PC and wait count at entry, which a parked lane keeps (R406) -/
  pcs : List (W64 × Nat)
  /-- each lane's registers of the frame at entry, which an exited lane keeps (R397) -/
  left : List LaneRegs
  /-- the transactions that stood suspended at entry (R318) -/
  txs : List (Option Tx)
  since : Nat
  merge : Option MergeRef
  /-- the bytes of its frame while its team is saved (R413) -/
  kept : List Byte
deriving DecidableEq, Repr

/-- One outstanding counter and the next sequence number of its class (R348, R349). -/
structure Counter where
  n : Nat
  seq : Nat
deriving DecidableEq, Repr

/-- A granted shape (R369). -/
structure Shape where
  slot : Nat
  m : Nat
  n : Nat
  k : Nat
deriving DecidableEq, Repr

/-- One group of 32 threads (R142). -/
structure Group where
  role : Nat
  budget : Nat
  /-- 16 × pipe + slot on the pipe; 64 for the merge group (R151, R396) -/
  slot : Nat
  lanes : List Thread
  s : AMap W64
  ctl : Ctl
  cpy : Counter
  mtx : Counter
  net : Counter
  rem : Counter
  shape : Option Shape
  handler : Option HandlerCtx
  held : List AFault
  pendTrap : Option TrapRec
  retired : Bool
  /-- the ordered participants still to commit in the round that is open (R317) -/
  ordered : W32
  /-- the lane whose ORDER abort stopped the last round, until it stands at TXCOMMIT again (R317) -/
  stop : Option Nat
  /-- the last clock that an issue of it occupied (R159), and whether that word was a YIELD (R158, R160) -/
  lastClk : Option Nat
  yielded : Bool
deriving DecidableEq, Repr

/-- One barrier (R199). -/
structure Barrier where
  expect : Nat
  count : Nat
  phase : BitVec 16
deriving DecidableEq, Repr

/-- A declared tile and where its view stands in the scratchpad (R169, R173). -/
structure Tile where
  base : W64
  size : Nat
  oper : Nat
  ety : Nat
  merge : W64
  ident : W64
  off : Nat
deriving DecidableEq, Repr

/-- What kind of team it is (R142, R172, R179, R186). -/
inductive TeamKind where
  | grid | task | handler | merge
deriving DecidableEq, Repr

/-- The invocation a handler team serves (R184 to R187). -/
structure HandlerInfo where
  stake : W64
  /-- global core and slot of the resolution entry -/
  issuer : Nat
  slot : Nat
  resultSlot : Nat
  inbox : Nat
  /-- the inbox entry has been freed: the handler has retired (R185) -/
  boxFree : Bool
  settled : Bool
deriving DecidableEq, Repr

/-- A request of a merge group: the frame it works for (R179). -/
structure MergeWork where
  frame : Nat
  /-- the team whose scratchpad it shares, or none for a grid's final application -/
  owner : Option Nat
deriving DecidableEq, Repr

/-- How far a team has come. -/
inductive TeamPhase where
  /-- its groups run -/
  | running
  /-- its groups have retired; implicit SYNCs of its frames are open (R177) -/
  | syncing
  /-- it waits for its fold, or its slot is held by a run of folds (R178) -/
  | folding
  /-- it has finished and its views are folded; its slot is freed once its groups have retired again (R165, R166) -/
  | leaving
  /-- it was ended; its slot is freed when its engine operations have ended (R411) -/
  | ended
deriving DecidableEq, Repr

/-- What a core holds for a saved team: an arrival of threads at a barrier, or the image of a COPY.MC (R203, R414). -/
inductive HeldIn where
  | arrival (barrier threads : Nat)
  | image (op : Nat)
deriving DecidableEq, Repr

/-- One team (R142), resident on a core or saved (R412). -/
structure Team where
  kind : TeamKind
  grid : Nat
  ctx : Nat
  asid : BitVec 12
  prio : Nat
  /-- die × 32 + logical core -/
  core : Nat
  slot : Nat
  age : Nat
  resident : Bool
  since : Nat
  phase : TeamPhase
  teamid : W32
  teams : W32
  argp : W64
  units : Nat
  scratchUnits : Nat
  accs : Nat
  scratch : Mem
  /-- absent lines: the copies outstanding on each, in issue order (R223) -/
  absent : AMap (List Nat)
  acc : AMap W32
  bars : List Barrier
  tiles : List Tile
  /-- the join frame it is a child of and its child index -/
  parent : Option (Nat × Nat)
  inv : Option HandlerInfo
  work : Option MergeWork
  groups : List Group
  /-- what has arrived for it while it is saved, in arrival order (R203, R414) -/
  heldIn : List HeldIn
  /-- its place among the waiting work of its grid, while it is saved (R163, R164) -/
  queued : Nat
  /-- chosen for pre-emption: its groups issue nothing while its work drains (R412) -/
  saving : Bool
deriving DecidableEq, Repr

/-- What a message is for: a resolution entry (R189), the placement of an invocation (R183), or a barrier of another
team (R203). -/
inductive MsgKind where
  | await (g : GRef) (lane : Nat)
  | poll (g : GRef) (lane : Nat)
  /-- an AWAIT or POLL of a thread of a peer -/
  | remote (dev tag : Nat) (poll : Bool)
  | drop
  | invoke (inv : Nat)
  | place (inv : Nat)
  | arrival (g : GRef) (team barrier threads : Nat)
deriving DecidableEq, Repr

/-- A message in flight, or queued at its entry (R189, R431): its sending thread, the issue of the word that sent it, the
stake it names, its kind, and the lane that is parked until it is taken (R189, R211). -/
structure StakeMsg where
  sender : Nat
  word : Nat
  stake : W64
  kind : MsgKind
  waiter : Option (GRef × Nat)
  /-- it has reached the entry and waits there or at the result core -/
  landed : Bool
deriving DecidableEq, Repr

/-- What a stake-table slot holds (R184). -/
inductive SlotUse where
  /-- a resolution entry: where the handler was placed, its state, its queue of message numbers, and whether it was dropped -/
  | resolution (placed : Option (Nat × Nat)) (st : StakeSt) (queue : List Nat) (dropped : Bool)
  /-- a result slot: the stake it serves and the invocations that wait at the result core (R190) -/
  | result (issuer slot : Nat) (waiting : List Nat)
deriving DecidableEq, Repr

/-- A slot of a stake table: its generation (R187) and use. -/
structure StakeSlot where
  gen : Nat
  use : Option SlotUse
deriving DecidableEq, Repr

/-- An invocation that has been sent (R183). -/
structure Invocation where
  word : W64
  payload : List Byte
  /-- the predecessor's result for a stake-addressed invocation -/
  pred : Option (List Byte)
  stake : W64
  issuer : Nat
  slot : Nat
  grid : Nat
  ctx : Nat
  asid : BitVec 12
  prio : Nat
  /-- the core it waits on; a whole die for .ANY and .DIE (die, none); another device otherwise -/
  core : Option Nat
  die : Nat
  device : Option Nat
  /-- the stake it is addressed to, or 0 -/
  via : W64
  /-- its place in the order of arrival at its target (R184), and DATUM then -/
  arrived : Option Nat
  since : Nat
deriving DecidableEq, Repr

/-- What a core's cache holds of a sector or line, and whether it is in uncorrectable error (R250). -/
structure Held where
  data : List Byte
  bad : Bool
deriving DecidableEq, Repr

/-- One core (R149). Caches are sparse by sector or line; the stake table by slot. -/
structure Core where
  running : Bool
  clkBase : Nat
  l1 : AMap Held
  icache : AMap Held
  stakes : AMap StakeSlot
  /-- CEV0 to CEV7 and CSEL0 to CSEL7 (R459); the clock of the last event counted, and what each counter has counted in it (R461) -/
  cev : AMap Nat
  csel : AMap Nat
  cnow : Nat × AMap Nat
  /-- the next round of each collective tree, by grid × 16 + tree (R445) -/
  nextRound : AMap Nat
  /-- the clock of the last issue of each pipe, also where its team is gone (R158, R159) -/
  pipeClk : AMap Nat
  /-- remote atomics whose replies the completion queue holds or awaits (R437) -/
  cplq : Nat
  /-- the team whose merge group holds the core's merge slot (R179) -/
  mergeTeam : Option Nat
deriving DecidableEq, Repr

/-- A speculation domain (R315). -/
structure Domain where
  gen : Nat
  isOpen : Bool
  limit : Nat
  next : Nat
  cursor : Nat
  owner : GRef
  /-- the grid with which it closes, for a grid's team -/
  grid : Option Nat
deriving DecidableEq, Repr

/-- An L2 slice beside its sectors (R232, R233, R315): horizon, uncached stamp, domain registers. -/
structure Slice where
  h : Nat
  u : Nat
  domains : AMap Domain
deriving DecidableEq, Repr

/-- An error record (R462). -/
structure ErrRec where
  datum : Nat
  addr : Nat
  chan : Nat
  kind : Nat
  asid : Nat
  count : Nat
  cause : Nat
deriving DecidableEq, Repr

/-- An error log (R462): the ring's oldest index, its records, overflow, and the CE and LE counters. -/
structure ErrLog where
  head : Nat
  recs : List ErrRec
  /-- the core clock of the newest record, and how many of the newest entered in that clock (R463) -/
  clk : Nat
  newest : Nat
  ovf : Bool
  discarded : Nat
  ce : AMap Nat
  le : AMap Nat
deriving DecidableEq, Repr

/-- A task in a ready pool (R171). -/
structure TaskRec where
  grid : Nat
  ctx : Nat
  asid : BitVec 12
  prio : Nat
  entry : W64
  argp : W64
  budget : Nat
  ngroups : Nat
  scratch : Nat
  accs : Nat
  bars : Nat
  tiles : List Tile
  frame : Nat
  child : Nat
  /-- DATUM when it entered the pool, and its place among the waiting work of its grid -/
  since : Nat
  order : Nat
deriving DecidableEq, Repr

/-- The service a die is in (R450, R452, R471): not admitted, in service, under a warm reset, or lost because a reset failed. -/
inductive DieSt where
  | off | up | resetting | lost
deriving DecidableEq, Repr

/-- One compute die. Sparse by slice and built core. -/
structure Die where
  st : DieSt
  /-- enabled built cores in ascending order; the position is the logical core (R424) -/
  built : List Nat
  lastCore : Nat
  pool : List TaskRec
  /-- DATUM when a head task of each grid last left its queue on the die (R163, R164) -/
  headAt : AMap Nat
  slices : AMap Slice
  /-- DEV0 to DEV15, DSEL0 to DSEL15 (R459), and what has been counted in a clock as for a core (R461) -/
  dev : AMap Nat
  dsel : AMap Nat
  dnow : Nat × AMap Nat
  /-- routers marked failed by fuse or by a reset, and those to be marked at the end of the reset under way (R426) -/
  failed : List Nat
  failing : List Nat
  /-- commands of DIE_RESET waiting for the reset to end (R475): queue and tag -/
  waiters : List (Nat × W32)
deriving DecidableEq, Repr

/-- An L2 sector (R231): its stamp, and the bytes below it while it is dirty. -/
structure L2Sec where
  stamp : Nat
  below : Option (List Byte)
deriving DecidableEq, Repr

/-- A 128-byte line of an L2 slice (R219, R237): its priority class, its recency, and the sectors held. -/
structure L2Line where
  cls : Nat
  used : Nat
  secs : AMap L2Sec
deriving DecidableEq, Repr

/-- A sector of the memory-side cache: DRAM's bytes while it is dirty. -/
structure MscSec where
  dram : Option (List Byte)
deriving DecidableEq, Repr

/-- A 2 KiB line of a memory-side cache (R236, R237): its priority class, its recency, the sectors touched since it came, and the
sectors held. -/
structure MscLine where
  cls : Nat
  used : Nat
  touched : List Nat
  secs : AMap MscSec
deriving DecidableEq, Repr

/-- A context (R440). -/
structure Ctx where
  alive : Bool
  asid : BitVec 12
  ptbase : W64
  trapbase : W64
  traparea : W64
  savepool : W64
  savesize : Nat
  /-- save images held: team, offset in the pool and bytes (R412) -/
  saves : List (Nat × Nat × Nat)
  resq : W64
  msix : Nat
  priv : Bool
  /-- residency posts rung at the doorbell and events reported (R267, R434) -/
  posts : Nat
  events : List Nat
  /-- the handle table (R297): last writer and readers of each handle -/
  handles : AMap (Option Nat × List Nat)
deriving DecidableEq, Repr

/-- A role entry of a launch (R147). -/
structure Role where
  entry : W64
  budget : Nat
  ngroups : Nat
deriving DecidableEq, Repr

/-- One axis of a copy's axis table (R361). -/
structure Axis where
  n : Nat
  ss : Int
  ds : Int
  off : Int
  per : Nat
  ext : Nat
  gather : Bool
deriving DecidableEq, Repr

/-- A copy template, with its axis table already rewritten by its layout list (R360, R361). -/
structure Template where
  sspace : Bool
  dspace : Bool
  sty : Nat
  dty : Nat
  smx : Bool
  dmx : Bool
  rnd : Nat
  sat : Bool
  mul : Nat
  pad : Nat
  idram : Bool
  ndim : Nat
  nops : Nat
  cast : Nat
  axes : List Axis
  /-- the axes in walk order, innermost first -/
  order : List Nat
  gathers : Bool
deriving DecidableEq, Repr

/-- A collective tree of a launch (R442, R443): the contributors and the routers with their routes fixed. -/
structure Tree where
  cores : List Nat
  root : Nat
  rootDev : Nat
  /-- its root stands on this device, by DEVICE as it was when the launch was accepted (R442) -/
  home : Bool
  /-- the other devices that it names -/
  devs : List Nat
  limit : Nat
  tag : W32
  /-- router, its parent (itself at the root) and the port of the parent by which it enters -/
  links : List (Nat × Nat × Nat)
  /-- the peers whose values enter, each with its Jiath port -/
  entries : List (Nat × Nat)
  broken : Bool
  /-- broken because a die or device was lost (R446) -/
  lost : Bool
deriving DecidableEq, Repr

/-- A launch that has been accepted (R146, R152). -/
structure Grid where
  ctx : Nat
  queue : Nat
  tag : W32
  prio : Nat
  dies : List Nat
  roles : List Role
  teamCount : Nat
  scratch : Nat
  accs : Nat
  bars : Nat
  slice : Nat
  argp : W64
  templates : List Template
  fmts : List W64
  trees : List Tree
  hasTrees : Bool
  tiles : List Tile
  ljoin : Option Nat
  handles : List (Nat × Nat)
  deps : List Nat
  nextTeam : Nat
  lastDie : Nat
  headSince : Nat
  /-- pre-empted teams that wait to resume (R163) -/
  tail : List Nat
  status : Nat
  detail : Nat
  applied : Bool
  done : Bool
  /-- the core where its last team's slot was freed (R182) -/
  endCore : Nat
deriving DecidableEq, Repr

/-- A command queue (R438): its context, its rings, the producer index that its doorbell holds, the index up to which commands have been
read, the commands read and not yet carried out, and the completions. -/
structure Queue where
  ctx : Option Nat
  ring : Option Ring
  rung : Nat
  read : Nat
  cmds : List Cmd
  /-- completions: tag, status, detail, value, oldest first; each raised the queue's MSI-X vector -/
  done : List (W32 × Nat × Nat × W64)
deriving DecidableEq, Repr

/-- Where the elements of a merge come from (R178, R180). -/
inductive MergeSrc where
  | child (team : Nat)
  | slot (k : Nat)
  | park (team k : Nat)
  | apply
deriving DecidableEq, Repr

/-- A merge in progress (R178, R404): its source, tile and next element, and whether it waits. -/
structure MergeJob where
  src : MergeSrc
  tile : Nat
  elem : Nat
  /-- stopped by a fault until ERET (R402) -/
  faulted : Bool
  /-- its place in the order of requests for the core's merge group, and the group that carries it out (R179) -/
  asked : Option Nat
  group : Option Nat
deriving DecidableEq, Repr

/-- Who applies a frame besides the SYNC words parked on it (R177, R182). -/
inductive SyncBy where
  | implicit (team : Nat)
  | grid (grid : Nat)
deriving DecidableEq, Repr

/-- A bound join frame: the authoritative header the merge units hold (R175, R176, R419). -/
structure Frame where
  va : W64
  ctx : Nat
  asid : BitVec 12
  nchild : Nat
  cursor : Nat
  broken : Bool
  cause : Nat
  /-- the header stands in memory as the merge unit wrote it last: false while that write waits or could not be made (R181) -/
  told : Bool
  /-- the owning group; none for the frame of a launch (R182) -/
  owner : Option GRef
  ownerWord : W32
  views : W64
  tiles : List Tile
  spill : W64
  spilln : Nat
  /-- the index that each spill slot in use holds -/
  slots : AMap Nat
  /-- finished children that wait: child index and team -/
  waiting : AMap Nat
  job : Option MergeJob
  /-- the merges under way into spill slots, by slot (R178) -/
  parks : AMap MergeJob
  /-- the child whose merge advanced CURSOR and whose slot is held (R178) -/
  runner : Option Nat
  sync : Option SyncBy
deriving DecidableEq, Repr

/-- An engine operation (R348 to R375). -/
inductive OpKind where
  /-- template, source base, destination base, index base, source and destination scale bases -/
  | copy (t : Template) (src dst : W64) (idx : Option W64) (ssc dsc : W64) (rcv : List Nat)
  | fill (pat : W64) (len : Nat) (dst : W64) (sp : Bool)
  | mma (slot : Nat) (sh : Shape) (acc row col : Nat) (a b : W64) (sa sb : W64)
  | accld (sh : Shape) (acc row col : Nat) (base : W64) (stride : W64) (ty rnd : Nat) (sp : Bool)
  | accst (sh : Shape) (acc row col : Nat) (base : W64) (stride : W64) (ty rnd : Nat) (sat sp : Bool)
  | accz (sh : Shape) (acc row col : Nat)
  /-- NRED or NBAR: its round, whether NBAR, and the registers it will write -/
  | net (round : Nat) (bar : Bool) (d sc : Reg)
  /-- a store or atomic to the host or a peer (R437) -/
  | remote
deriving DecidableEq, Repr

/-- How far an engine operation has come. -/
inductive OpSt where
  | issued | started | complete
deriving DecidableEq, Repr

/-- An outstanding engine operation; its number gives the order of issue (R223, R385). -/
structure Op where
  kind : OpKind
  g : GRef
  cls : Nat
  seq : Nat
  pc : W64
  asid : BitVec 12
  priv : Bool
  /-- stamp address, value, and whether it is in the scratchpad (R357) -/
  stamp : Option (W64 × W64 × Bool)
  st : OpSt
  /-- scratchpad lines already delivered, with the receiver (R223) -/
  delivered : List (Nat × Nat)
  /-- the aligned 16 bytes of memory already written, by address over 16 (R277) -/
  given : List Nat
  cancelled : Bool
  /-- a receiver of a COPY.MC has ended with COPY_FAULT, so that no stamp follows (R357) -/
  faulted : Bool
  /-- the image that stands in the holding buffer (R365) -/
  image : Option (List (Nat × Byte))
  /-- what a copy out of or into MX blocks writes, once its source has been read (R278) -/
  held : Option (List (Nat × List Byte))
  /-- the clock and pipe of its issue (R224, R385) -/
  clk : Nat
  pipe : Nat
deriving DecidableEq, Repr

/-- An outstanding memory access (R327, R437): what is left to do at its home. -/
inductive AccKind where
  | load (d : Reg) (x : Bool) (sz : Sz) (pd : Option (BitVec 3))
  | store (data : List Byte)
  /-- the parts of an MX unit of which one goes to the host or a peer: addresses and bytes (R278, R334) -/
  | unit (parts : List (W64 × List Byte))
  /-- ATYPE, AOP, operand and new value of each element, and whether the old value is returned to `d` -/
  | atom (aty : AType) (aop : AOp) (elems : List (Nat × Nat)) (ret : Bool) (d : Reg) (x : Bool)
deriving DecidableEq, Repr

/-- An access of one lane, or of the scalar unit (lane 32), as it goes to its home. -/
structure Access where
  g : GRef
  lane : Nat
  pc : W64
  va : W64
  /-- where it is performed, and the page's entry; not yet known while `remote` -/
  key : Nat
  e : Nat
  kind : AccKind
  /-- to the host or a peer, counted in rem under `seq` (R437) -/
  remote : Bool
  seq : Nat
  /-- the other sectors that it covers -/
  also : List Nat
  /-- priority class, and the last-use bit (R237, R239, R240) -/
  cls : Nat
  lu : Bool
  /-- the L1 may serve and hold it (R226) -/
  l1 : Bool
  /-- an acquire: the group issues nothing until it is performed; at .die or wider the L1 is then invalidated -/
  acq : Bool
  wide : Bool
  asid : BitVec 12
  priv : Bool
deriving DecidableEq, Repr

/-- A cairn that has left its core (R310): the lanes that remain, in conflict order, the lines it has locked and those
that its pass has still to visit, in order. -/
structure Cairn where
  g : GRef
  lanes : List Nat
  ordered : Bool
  lines : List Nat
  todo : List Nat
  /-- the first pass has finished -/
  passed : Bool
deriving DecidableEq, Repr

/-- One contribution to a collective round (R446). -/
structure Contribution where
  core : Nat
  g : GRef
  seq : Nat
  /-- NBAR -/
  bar : Bool
  op : Nat
  ty : Nat
  vals : List Nat
  lanes : W32
  d : Reg
  sc : Reg
deriving DecidableEq, Repr

/-- A message of a reduction tree: the folded values with their kind (operation and type, or an arrival), a TIMEOUT mark,
or that contributions disagreed. -/
inductive RedMsg where
  | vals (kind : Nat) (xs : List Nat)
  | timeout
  | mismatch
deriving DecidableEq, Repr

/-- A collective round (R443, R444). -/
structure CollRound where
  grid : Nat
  tree : Nat
  num : Nat
  contribs : List Contribution
  /-- inputs at each router, by router × 16384 + port × 512 + peer + 1 -/
  inputs : AMap RedMsg
  /-- messages on the links, by the sending router -/
  links : AMap RedMsg
  sent : List Nat
  /-- when each router's timer started -/
  timers : AMap Nat
  /-- the status code and the result broadcast by the root -/
  result : Option (Nat × List Nat)
deriving DecidableEq, Repr

/-- An armed monitor, or a MONW that polls (R358). -/
structure Mon where
  g : GRef
  lanes : W32
  pc : W64
  va : W64
  sp : Bool
  target : W64
  deadline : Option Nat
  d : Reg
  pd : BitVec 3
  polling : Bool
  since : Nat
  last : W64
  /-- a write to its sector has been performed since its last read -/
  dirty : Bool
  /-- its team is back on a core, and the word has not been read since (R390) -/
  resumed : Bool
  asid : BitVec 12
  priv : Bool
deriving DecidableEq, Repr

/-- A context-fatal report (R251): the error, the core it names, and the context of the team at which it arose. -/
structure Report where
  err : ErrAt
  core : Nat
  ctx : Option Nat
deriving DecidableEq, Repr

/-- The uncorrectable errors present (R250): of memory sectors and of scratchpad lines by team; and the reports of
R251 that have not yet reached the command processor. -/
structure Errs where
  sectors : List Nat
  scratch : List (Nat × Nat)
  reports : List Report
deriving DecidableEq, Repr

/-- A Jiath port (R433): trained, taken down later, and the messages delivered. -/
structure Port where
  trained : Bool
  down : Bool
  rx : List (List Byte)
deriving DecidableEq, Repr

/-- A peer device (R434, R436): whether it is in the domain, when a flit last arrived, its export-table
entry as context, base and window size. -/
structure Peer where
  present : Bool
  lost : Bool
  lastFlit : Nat
  entry : Option (Nat × W64 × Nat)
deriving DecidableEq, Repr

/-- The answer to a peer's access (R436): performed with the data it returns, a page that is not resident, or a fault. -/
inductive PeerAns where
  | done (data : List Byte)
  | absent
  | fault (cause sub : Nat)
deriving DecidableEq, Repr

/-- What this device tells a peer (R430 to R432): the answer to a thread's AWAIT or POLL, or that a stake of the peer has settled. -/
inductive PeerNote where
  | answer (tag : Nat) (status : W64) (data : List Byte)
  | settled (stake : W64) (st : StakeSt)
deriving DecidableEq, Repr

/-- The device state block of a checkpoint (R416): the stake tables by core, what each die holds (ready pool and slices
with their domain registers), the teams with their views and held messages, the join frames, launches with their templates,
contexts, messages, operations whose images are held, monitors, rounds, request filters and root records. -/
structure DeviceBlock where
  stakes : AMap (AMap StakeSlot)
  pools : AMap (List TaskRec × AMap Slice)
  teams : AMap Team
  frames : AMap Frame
  grids : AMap Grid
  ctxs : AMap Ctx
  msgs : AMap StakeMsg
  invs : AMap Invocation
  ops : AMap Op
  mons : AMap Mon
  rounds : AMap CollRound
  filters : AMap (List Nat)
  roots : AMap W64
deriving DecidableEq, Repr

/-- The algorithms that the device offers in SPDM (R455). -/
inductive SpdmAlg where
  | sha3_512 | mlDsa87
deriving DecidableEq, Repr

/-- A part of an SPDM answer (R455): the version, an algorithm offered, or bytes. -/
inductive SpdmPart where
  | version (major minor : Nat)
  | offers (a : SpdmAlg)
  | data (bs : List Byte)
deriving DecidableEq, Repr

/-- The start, protection and monitoring state (R452 to R465). -/
structure Sys where
  stage : Nat
  fail : Bool
  failcode : Nat
  device : Nat
  jports : AMap Port
  peers : AMap Peer
  rollback : Nat
  firmware : Option (Nat × List Byte)
  /-- access-table entries that differ from their stage A value: target × 65536 + master (R456) -/
  access : AMap Nat
  mailbox : Nat × Nat × List Byte
  /-- the host-visible answer of the last SPDM request (R455): its parts -/
  spdm : List SpdmPart
  sensors : List Nat
  powerLimit : Nat
  /-- the core clock in MHz (R464) -/
  mhz : Nat
  tripped : Bool
  /-- completions of PCI Express requests: status and data -/
  pcie : List (Bool × List Byte)
  /-- peers' accesses answered, by device -/
  peerOut : List (Nat × PeerAns)
  /-- what peers have been told of stakes, by device -/
  stakeOut : List (Nat × PeerNote)
  ioU : AMap Nat
  /-- request filters of the homes (R266): home to pages, newest first -/
  filters : AMap (List Nat)
  logs : AMap ErrLog
  /-- the contents of the device state blocks written, by the number that a block's bytes hold (R416) -/
  checkpoints : AMap DeviceBlock
  admitting : Bool
  /-- the compute die that stage C admits next, and the dies that it has admitted, by bit (R452, R455) -/
  nextDie : Nat
  admitted : Nat
deriving DecidableEq, Repr

/-- One GD-OL9 module. -/
structure State where
  time : Time
  agenda : List Turn
  cur : Option Issue
  /-- the model's own counter of free values taken; no spec -/
  free : Nat
  /-- the next unused number for a team, launch, operation, message, access and so on -/
  fresh : Nat
  teams : AMap Team
  cores : AMap Core
  dies : AMap Die
  mem : Mem
  l2 : AMap L2Line
  msc : AMap MscLine
  /-- the footprint predictors of the stacks, by line (R236) -/
  foot : AMap (List Nat)
  locks : AMap Nat
  errs : Errs
  roots : AMap W64
  tlb : AMap W64
  ctxs : AMap Ctx
  grids : AMap Grid
  queues : AMap Queue
  frames : AMap Frame
  ops : AMap Op
  pend : AMap Access
  msgs : AMap StakeMsg
  invs : AMap Invocation
  cairns : AMap Cairn
  rounds : AMap CollRound
  mons : AMap Mon
  sys : Sys
deriving DecidableEq, Repr

/-- A core right after its reset. -/
def Core.init : Core :=
  { running := true, clkBase := 0, l1 := [], icache := [], stakes := [], cev := [], csel := [], cnow := (0, []),
    nextRound := [], pipeClk := [], cplq := 0, mergeTeam := none }

/-- A slice right after module reset: horizon 0 (R232). -/
def Slice.init : Slice := { h := 0, u := 0, domains := [] }

/-- A compute die right after module reset: not admitted (R452). Which two of its 32 built cores are
harvested is a fuse: built cores 30 and 31, as R466 takes them. -/
def Die.init : Die :=
  { st := .off, built := List.range 30, lastCore := 31, pool := [], headAt := [], slices := [], dev := [], dsel := [], dnow := (0, []),
    failed := [], failing := [], waiters := [] }

/-- An empty error log (R462). -/
def ErrLog.init : ErrLog := { head := 0, recs := [], clk := 0, newest := 0, ovf := false, discarded := 0, ce := [], le := [] }

/-- The system part right after module reset (R452, R453, R464). -/
def Sys.init : Sys :=
  { stage := 0, fail := false, failcode := 0, device := 0, jports := [], peers := [], rollback := 0,
    firmware := none, access := [], mailbox := (0, 0, []), spdm := [], sensors := [],
    powerLimit := 3600, mhz := 1900, tripped := false, pcie := [], peerOut := [], stakeOut := [], ioU := [], filters := [],
    logs := [], checkpoints := [], admitting := true, nextDie := 0, admitted := 0 }

/-- The machine right after module reset (R452): stage A, no die admitted, nothing running, memory with
nothing listed. -/
def State.reset : State :=
  { time := { clk := 0, datum := 0, part := 0 }, agenda := [], cur := none, free := 0, fresh := 0, teams := [],
    cores := [], dies := [], mem := [], l2 := [], msc := [], foot := [], locks := [],
    errs := { sectors := [], scratch := [], reports := [] }, roots := [], tlb := [], ctxs := [], grids := [], queues := [],
    frames := [], ops := [], pend := [], msgs := [], invs := [], cairns := [], rounds := [], mons := [],
    sys := Sys.init }

end Sys2Proof.Machine
end

