-- ==== Sys2Proof/Machine/Regs.lean ====
section
/-! DEFINITION. The named operations over registers, groups, teams, predicates and flags; what stands in a state and how it is replaced. -/

namespace Sys2Proof.Machine

/-! The named updates of the state, one per field; `Laws/State.lean` says what each leaves. -/

def State.setTime (s : State) (x : Time) : State := { s with time := x }
def State.setAgenda (s : State) (x : List Turn) : State := { s with agenda := x }
def State.setCur (s : State) (x : Option Issue) : State := { s with cur := x }
def State.setFree (s : State) (x : Nat) : State := { s with free := x }
def State.setFresh (s : State) (x : Nat) : State := { s with fresh := x }
def State.setTeams (s : State) (x : AMap Team) : State := { s with teams := x }
def State.setCores (s : State) (x : AMap Core) : State := { s with cores := x }
def State.setDies (s : State) (x : AMap Die) : State := { s with dies := x }
def State.setMem (s : State) (x : Mem) : State := { s with mem := x }
def State.setL2 (s : State) (x : AMap L2Line) : State := { s with l2 := x }
def State.setMsc (s : State) (x : AMap MscLine) : State := { s with msc := x }
def State.setFoot (s : State) (x : AMap (List Nat)) : State := { s with foot := x }
def State.setLocks (s : State) (x : AMap Nat) : State := { s with locks := x }
def State.setErrs (s : State) (x : Errs) : State := { s with errs := x }
def State.setRoots (s : State) (x : AMap W64) : State := { s with roots := x }
def State.setTlb (s : State) (x : AMap W64) : State := { s with tlb := x }
def State.setCtxs (s : State) (x : AMap Ctx) : State := { s with ctxs := x }
def State.setGrids (s : State) (x : AMap Grid) : State := { s with grids := x }
def State.setQueues (s : State) (x : AMap Queue) : State := { s with queues := x }
def State.setFrames (s : State) (x : AMap Frame) : State := { s with frames := x }
def State.setOps (s : State) (x : AMap Op) : State := { s with ops := x }
def State.setPend (s : State) (x : AMap Access) : State := { s with pend := x }
def State.setMsgs (s : State) (x : AMap StakeMsg) : State := { s with msgs := x }
def State.setInvs (s : State) (x : AMap Invocation) : State := { s with invs := x }
def State.setCairns (s : State) (x : AMap Cairn) : State := { s with cairns := x }
def State.setRounds (s : State) (x : AMap CollRound) : State := { s with rounds := x }
def State.setMons (s : State) (x : AMap Mon) : State := { s with mons := x }
def State.setSys (s : State) (x : Sys) : State := { s with sys := x }

/-- A team by its number. -/
def State.team? (s : State) (t : Nat) : Option Team := amGet s.teams t
/-- A team replaced. -/
def State.putTeam (s : State) (t : Nat) (x : Team) : State := s.setTeams (amPut s.teams t x)
/-- A team changed where it exists. -/
def State.modTeam (s : State) (t : Nat) (f : Team → Team) : State := s.setTeams (amMod s.teams t f)
/-- A group. -/
def State.group? (s : State) (g : GRef) : Option Group := (s.team? g.team).bind fun t => t.groups[g.ix]?
/-- A group changed where it exists. -/
def State.modGroup (s : State) (g : GRef) (f : Group → Group) : State :=
  s.modTeam g.team fun t => { t with groups := modNth t.groups g.ix f }
/-- One thread of a group. -/
def Group.lane? (g : Group) (l : Nat) : Option Thread := g.lanes[l]?
/-- A thread changed where it exists. -/
def Group.modLane (g : Group) (l : Nat) (f : Thread → Thread) : Group := { g with lanes := modNth g.lanes l f }
def State.lane? (s : State) (g : GRef) (l : Nat) : Option Thread := (s.group? g).bind fun x => x.lane? l
def State.modLane (s : State) (g : GRef) (l : Nat) (f : Thread → Thread) : State :=
  s.modGroup g fun x => x.modLane l f
/-- The threads of a list of lanes changed, each with its lane's number. -/
def Group.modLanes (g : Group) (ls : List Nat) (f : Nat → Thread → Thread) : Group :=
  { g with lanes := g.lanes.mapIdx fun i t => if ls.contains i then f i t else t }
def State.modLanes (s : State) (g : GRef) (ls : List Nat) (f : Nat → Thread → Thread) : State :=
  s.modGroup g fun x => x.modLanes ls f

/-- A core by its global number, die × 32 + logical core. -/
def State.core (s : State) (c : Nat) : Core := amGetD s.cores c Core.init
def State.modCore (s : State) (c : Nat) (f : Core → Core) : State := s.setCores (amPut s.cores c (f (s.core c)))
/-- A compute die. -/
def State.die (s : State) (d : Nat) : Die := amGetD s.dies d Die.init
def State.modDie (s : State) (d : Nat) (f : Die → Die) : State := s.setDies (amPut s.dies d (f (s.die d)))
/-- A slice of a die. -/
def Die.slice (d : Die) (k : Nat) : Slice := amGetD d.slices k Slice.init
def State.modSlice (s : State) (d k : Nat) (f : Slice → Slice) : State :=
  s.modDie d fun x => { x with slices := amPut x.slices k (f (x.slice k)) }

/-- An unused number, and the state in which it is used. -/
def State.newId (s : State) : Nat × State := (s.fresh, s.setFresh (s.fresh + 1))

/-- The next free value's index, and the state in which it is taken. -/
def State.takeFree (s : State) : Nat × State := (s.free, s.setFree (s.free + 1))

/-- A v-register of a thread; an absent one is 0 (R11). -/
def Thread.getV (t : Thread) (r : Nat) : W32 := amGetD t.v r 0#32
/-- A v-register replaced; zeros are not listed. -/
def Thread.setV (t : Thread) (r : Nat) (x : W32) : Thread :=
  { t with v := if x = 0#32 then amDel t.v r else amPut t.v r x }
/-- `n` consecutive v-registers as one number, lowest register first (R12). -/
def Thread.getRun (t : Thread) (r : Nat) : Nat → Nat
  | 0 => 0
  | n + 1 => (t.getV r).toNat + 2 ^ 32 * t.getRun (r + 1) n
/-- A number written to `n` consecutive v-registers (R12). -/
def Thread.setRun (t : Thread) (r : Nat) : Nat → Nat → Thread
  | 0, _ => t
  | n + 1, x => (t.setV r (BitVec.ofNat 32 x)).setRun (r + 1) n (x / 2 ^ 32)
/-- A predicate; p7 reads 1 (R11). -/
def Thread.getP (t : Thread) (p : Nat) : Bool := p % 8 == 7 || bit t.p.toNat (p % 8)
/-- A predicate written; p7 discards (R11). -/
def Thread.setP (t : Thread) (p : Nat) (b : Bool) : Thread :=
  if p % 8 = 7 then t
  else { t with p := if b then t.p ||| BitVec.ofNat 7 (2 ^ (p % 8))
                     else t.p &&& ~~~(BitVec.ofNat 7 (2 ^ (p % 8))) }
/-- All eight predicates as a byte, p7 in bit 7 (R110). -/
def Thread.preds (t : Thread) : Nat := t.p.toNat + 128
/-- Flags ORed into FPFLAGS (R113). -/
def Thread.orFlags (t : Thread) (f : Fl) : Thread := { t with fpflags := t.fpflags ||| f }

/-- An s-register of a group. -/
def Group.getS (g : Group) (r : Nat) : W64 := amGetD g.s r 0#64
/-- An s-register replaced; zeros are not listed. -/
def Group.setS (g : Group) (r : Nat) (x : W64) : Group :=
  { g with s := if x = 0#64 then amDel g.s r else amPut g.s r x }

/-- The value of a transaction's log at team start (R314). -/
def TxLog.init : TxLog := { hold := 0, aborts := 0, last := 0, iter := 0, owed := none, overflowed := false }
/-- A thread as it starts at a PC (R145). -/
def Thread.start (pc : W64) : Thread :=
  { pc := pc, v := [], p := 0, fpctl := 0, fpflags := 0, exited := false, park := none, wait := 0, tx := none,
    txlog := TxLog.init }
/-- The control registers of a group at admission (R270, R399). -/
def Ctl.start (trapbase ptbase : W64) (asid : BitVec 12) : Ctl :=
  { priv := false, trapbase := trapbase &&& ~~~7#64, cause := 0, pc := 0, addr := 0, fin := 0, seq := 0,
    asid := asid, ptbase := ptbase, ms0 := 0, ms1 := 0, ms2 := 0, ms3 := 0 }
/-- A group at its team's start (R145, R348, R369). -/
def Group.start (role budget slot : Nat) (pc : W64) (ctl : Ctl) : Group :=
  { role := role, budget := budget, slot := slot, lanes := List.replicate 32 (Thread.start pc), s := [],
    ctl := ctl, cpy := ⟨0, 0⟩, mtx := ⟨0, 0⟩, net := ⟨0, 0⟩, rem := ⟨0, 0⟩, shape := none, handler := none,
    held := [], pendTrap := none, retired := false, ordered := 0, stop := none, lastClk := none, yielded := false }

/-- The counter of a class: 0 cpy, 1 mtx, 2 net, 3 rem (R348, R389). -/
def Group.counter (g : Group) (cls : Nat) : Counter :=
  match cls with
  | 0 => g.cpy
  | 1 => g.mtx
  | 2 => g.net
  | _ => g.rem
def Group.setCounter (g : Group) (cls : Nat) (c : Counter) : Group :=
  match cls with
  | 0 => { g with cpy := c }
  | 1 => { g with mtx := c }
  | 2 => { g with net := c }
  | _ => { g with rem := c }

/-- The lanes whose bit is set in a mask, ascending. -/
def lanesOf (m : W32) : List Nat := (List.range 32).filter fun l => bit m.toNat l
/-- The mask of a list of lanes. -/
def maskOf (ls : List Nat) : W32 := BitVec.ofNat 32 (ofBits 32 fun l => ls.contains l)

/-- A thread in a transaction, irrevocable or logged (R308). -/
def Thread.inTx (t : Thread) : Bool := t.tx.isSome
/-- A thread that runs irrevocably (R318). -/
def Thread.irrev (t : Thread) : Bool :=
  match t.tx with
  | some x => x.mode == .irrevocable
  | none => false
/-- A thread in a logged transaction (R308). -/
def Thread.logged (t : Thread) : Bool := t.inTx && !t.irrev

def State.inLogged (s : State) (g : GRef) (l : Nat) : Bool := ((s.lane? g l).map Thread.logged).getD false
def State.isIrrev (s : State) (g : GRef) (l : Nat) : Bool := ((s.lane? g l).map Thread.irrev).getD false

/-- The context of a team. -/
def State.ctxOf (s : State) (t : Team) : Option Ctx := amGet s.ctxs t.ctx

/-- Where the event selectors of a core or die count an event (R459 to R461): each enabled selector of the source
counts `n` modulo 2^48, and its OVF is set when it wraps. -/
def countSel (sel ev : AMap Nat) (code n : Nat) : AMap Nat × AMap Nat :=
  sel.foldl (fun a e =>
    if bit e.2 15 && e.2 % 256 == code then
      let c := amGetD a.2 e.1 0 + n
      (if c < 2 ^ 48 then a.1 else amPut a.1 e.1 (e.2 ||| 0x4000), amPut a.2 e.1 (c % 2 ^ 48))
    else a) (sel, ev)

/-- What each counter has counted in the present clock, after `n` events more (R461). -/
def countNow (clk : Nat) (sel : AMap Nat) (now : Nat × AMap Nat) (code n : Nat) : Nat × AMap Nat :=
  (clk, sel.foldl (fun m e => if bit e.2 15 && e.2 % 256 == code then amPut m e.1 (amGetD m e.1 0 + n) else m)
    (if now.1 = clk then now.2 else []))

/-- A counter written (R461): the events of its clock are counted after the write. The selectors and the counters. -/
def countWritten (clk : Nat) (sel ev : AMap Nat) (now : Nat × AMap Nat) (k v : Nat) : AMap Nat × AMap Nat :=
  let c := v + if now.1 = clk then amGetD now.2 k 0 else 0
  (if c < 2 ^ 48 then sel else amMod sel k fun x => x ||| 0x4000, amPut ev k (c % 2 ^ 48))

/-- `n` events of a core source (R460). -/
def State.countCore (s : State) (c code n : Nat) : State :=
  if (s.core c).csel.isEmpty then s
  else s.modCore c fun x => let r := countSel x.csel x.cev code n
    { x with csel := r.1, cev := r.2, cnow := countNow s.time.clk x.csel x.cnow code n }
/-- `n` events of a die source (R460). -/
def State.countDie (s : State) (d code n : Nat) : State :=
  if (s.die d).dsel.isEmpty then s
  else s.modDie d fun x => let r := countSel x.dsel x.dev code n
    { x with dsel := r.1, dev := r.2, dnow := countNow s.time.clk x.dsel x.dnow code n }

/-- The trap causes of R33. -/
def cILLEGAL_OPCODE : Nat := 0x01
def cILLEGAL_ENCODING : Nat := 0x02
def cILLEGAL_PAIR : Nat := 0x03
def cUNIFORMITY : Nat := 0x04
def cPRIVILEGED_OP : Nat := 0x05
def cREG_BUDGET : Nat := 0x06
def cBREAKPOINT : Nat := 0x07
def cSOFTWARE_TRAP : Nat := 0x08
def cMISALIGNED_PC : Nat := 0x09
def cFORBIDDEN_HERE : Nat := 0x0A
def cNO_TRANSLATION : Nat := 0x10
def cREAD_DENIED : Nat := 0x11
def cWRITE_DENIED : Nat := 0x12
def cEXEC_DENIED : Nat := 0x13
def cATOMIC_DENIED : Nat := 0x14
def cPRIV_DENIED : Nat := 0x15
def cMISALIGNED : Nat := 0x16
def cBAD_HOME : Nat := 0x17
def cDATA_ERROR : Nat := 0x18
def cHOME_UNAVAILABLE : Nat := 0x19
def cSCRATCH_RANGE : Nat := 0x1A
def cNONRESIDENT_STORE : Nat := 0x1B
def cNONRESIDENT_EXEC : Nat := 0x1C
def cBARRIER_BROKEN : Nat := 0x20
def cVIEW_TABLE_FULL : Nat := 0x21
def cSTAKE_TABLE_FULL : Nat := 0x22
def cJOIN_BROKEN : Nat := 0x23
def cINBOX_OVERRUN : Nat := 0x24
def cCOPY_FAULT : Nat := 0x30
def cTEMPLATE_INVALID : Nat := 0x31
def cSHAPE_MISMATCH : Nat := 0x32
def cACC_RANGE : Nat := 0x33
def cMERGE_FAULT : Nat := 0x40
def cWATCHDOG : Nat := 0x5F

/-- A cause with its sub-cause. -/
structure Cause where
  cause : Nat
  sub : Nat
deriving DecidableEq, Repr

end Sys2Proof.Machine
end

