-- ==== Sys2Proof/Machine/Translate.lean ====
section
/-! DEFINITION. Addresses of memory: keys, interleave, page-table entries, the walk of a page table, the rights of pages and of masters, and the error logs (R228, R229, R252 to R264, R456, R457, R462). -/

namespace Sys2Proof.Machine

/-- The key of a byte: its home and its address there (die-local physical, second-tier, host, or peer window). -/
def memKey (home addr : Nat) : Nat := home * 2 ^ 60 + addr
def keyHome (key : Nat) : Nat := key / 2 ^ 60
def keyAddr (key : Nat) : Nat := key % 2 ^ 60
/-- The number of the 64-byte sector, and of the 128-byte line, that holds a byte. -/
def sectorOf (key : Nat) : Nat := key / 64
def lineOf (key : Nat) : Nat := key / 128

/-- The die-local physical address of a frame address under an interleave scheme (R261). -/
def interleave (sch f : Nat) : Nat :=
  let pack (col chan pch bank row : Nat) : Nat :=
    col + chan * 2 ^ 11 + pch * 2 ^ 17 + bank * 2 ^ 18 + row * 2 ^ 22
  match sch with
  | 4 => pack (field f 0 11) (field f 36 1 * 32 + field f 11 5) (field f 16 1) (field f 17 4) (field f 21 15)
  | 5 => pack (field f 0 11) (field f 36 1 * 32 + field f 12 5) (field f 11 1) (field f 17 4) (field f 21 15)
  | 6 => pack (field f 0 11) (field f 31 6) (field f 11 1) (field f 12 4) (field f 16 15)
  | 7 => pack (field f 0 11) (field f 31 6) (field f 30 1) (field f 26 4) (field f 11 15)
  | k =>
    let g := 8 + k % 4
    pack (field f 0 g + field f (g + 6) (11 - g) * 2 ^ g) (field f g 6) (field f 17 1) (field f 18 4) (field f 22 15)

/-- The frame address that a scheme maps to a die-local physical address (R261). -/
def deinterleave (sch p : Nat) : Nat :=
  let col := field p 0 11
  let chan := field p 11 6
  let pch := field p 17 1
  let bank := field p 18 4
  let row := field p 22 15
  match sch with
  | 4 => col + chan % 32 * 2 ^ 11 + pch * 2 ^ 16 + bank * 2 ^ 17 + row * 2 ^ 21 + chan / 32 * 2 ^ 36
  | 5 => col + pch * 2 ^ 11 + chan % 32 * 2 ^ 12 + bank * 2 ^ 17 + row * 2 ^ 21 + chan / 32 * 2 ^ 36
  | 6 => col + pch * 2 ^ 11 + bank * 2 ^ 12 + row * 2 ^ 16 + chan * 2 ^ 31
  | 7 => col + row * 2 ^ 11 + bank * 2 ^ 26 + pch * 2 ^ 30 + chan * 2 ^ 31
  | k =>
    let g := 8 + k % 4
    col % 2 ^ g + chan * 2 ^ g + col / 2 ^ g * 2 ^ (g + 6) + pch * 2 ^ 17 + bank * 2 ^ 18 + row * 2 ^ 22

/-- The slice of a die-local physical address (R229). -/
def sliceOf (p : Nat) : Nat :=
  field p 7 4 ^^^ field p 11 4 ^^^ field p 15 4 ^^^ field p 19 4 ^^^ field p 23 4 ^^^ field p 27 4 ^^^
    field p 31 4 ^^^ field p 35 2

/-- The global id of the home that keeps a key: 16 × die + slice, 128 and 129 for the I/O dies (R229, R310). -/
def homeId (key : Nat) : Nat :=
  if keyHome key ≤ 7 then 16 * keyHome key + sliceOf (keyAddr key)
  else if keyAddr key < 2 ^ 41 then 128 else 129

/-- The page-table index of a level (R256), and the part of the address above it. -/
def levelShift (level : Nat) : Nat :=
  match level with
  | 0 => 16
  | 1 => 25
  | 2 => 34
  | 3 => 43
  | _ => 52
def levelIndex (level va : Nat) : Nat := va / 2 ^ levelShift level % (if level = 4 then 4096 else 512)

/-- The key of a cached entry: where it is cached, ASID, level and address prefix (R254, R255). -/
def tlbKey (loc asid level va : Nat) : Nat :=
  ((loc * 4096 + asid) * 8 + level) * 2 ^ 48 + va / 2 ^ levelShift level
/-- Where a home's entries for an address are cached (R255): the memory-side TLB and walk cache of the slice that serves it, by
global slice id, or those of IOD0 for homes 8 and 9; the cores' own TLBs follow at 256. -/
def homeLoc (home va : Nat) : Nat :=
  if home ≤ 7 then 16 * home + (field va 25 4 ^^^ field va 29 4 ^^^ field va 33 4 ^^^ field va 37 4) else 128
def coreLoc (core : Nat) : Nat := 256 + core

/-- The parts of a cached entry's key (R254). -/
def tlbLoc (k : Nat) : Nat := k / 2 ^ 63
def tlbAsid (k : Nat) : Nat := k / 2 ^ 51 % 4096
def tlbLevel (k : Nat) : Nat := k / 2 ^ 48 % 8
def tlbPrefix (k : Nat) : Nat := k % 2 ^ 48

def pteV (e : Nat) : Bool := bit e 0
def pteT (e : Nat) : Bool := bit e 1
def pteRes (e : Nat) : Bool := bit e 2
def pteR (e : Nat) : Bool := bit e 3
def pteW (e : Nat) : Bool := bit e 4
def pteX (e : Nat) : Bool := bit e 5
def pteA (e : Nat) : Bool := bit e 6
def pteP (e : Nat) : Bool := bit e 7
def pteMs (e : Nat) : Bool := bit e 8
def pteEvp (e : Nat) : Nat := field e 9 2
def pteSch (e : Nat) : Nat := field e 11 3
def pteFrame (e : Nat) : Nat := field e 16 36

/-- A malformed entry (R259). -/
def malformed (level home e : Nat) : Bool :=
  if pteT e then
    level == 0 || field e 51 13 != 0 || field e 37 11 != 0 || field e 2 10 != 0
  else
    2 ≤ level || field e 52 12 != 0 || field e 14 2 != 0 ||
    (level == 1 && field e 16 9 != 0) ||
    (pteRes e && ((home ≤ 7 && field e 37 15 != 0) || (home == 8 && field e 42 10 != 0))) ||
    (!pteRes e && field e 42 10 != 0) ||
    (8 ≤ home && (pteSch e != 0 || pteMs e || pteEvp e != 0 || !pteRes e))

/-- A compute die in service (R450, R452). -/
def State.dieUp (s : State) (d : Nat) : Bool := (s.die d).st == .up

/-- A leaf found by a walk. -/
structure Leaf where
  e : Nat
  level : Nat
deriving DecidableEq, Repr

/-- The line of a key is locked by a cairn (R310). -/
def isLocked (s : State) (key : Nat) : Bool := amHas s.locks (lineOf key)

/-- What a walk comes to: its leaf or its fault, the entries it may cache, and the entries it read at their homes. Cause 0 says
that an entry's line is locked, or its caches have no room, so that the walk waits (R243, R294). -/
structure Walked where
  out : Except Cause Leaf
  seen : List (Nat × W64)
  read : List Nat

/-- The walk of R259 from a level down. `node` is a die and a frame address; `stop` says at which entries it has to wait. -/
def walkFrom (s : State) (stop : Nat → Bool) (asid home va : Nat) : Nat → Nat → Nat → List (Nat × W64) → List Nat → Walked
  | level, die, node, seen, read =>
    if !s.dieUp die then ⟨.error ⟨cHOME_UNAVAILABLE, 0⟩, seen, read⟩
    else
      let k := tlbKey (homeLoc home va) asid level va
      let at_ := memKey die (interleave 0 (node + 8 * levelIndex level va))
      let held := amGet s.tlb k
      if held.isNone && stop at_ then ⟨.error ⟨0, 0⟩, seen, read⟩
      else
        let e := match held with
          | some w => w.toNat
          | none => memNat s.mem at_ 8
        let read1 := if held.isSome then read else at_ :: read
        if !pteV e then ⟨.error ⟨cNO_TRANSLATION, level⟩, seen, read1⟩
        else if malformed level home e then ⟨.error ⟨cNO_TRANSLATION, 0x10⟩, seen, read1⟩
        else if pteT e then
          match level with
          | 0 => ⟨.error ⟨cNO_TRANSLATION, 0x10⟩, seen, read1⟩
          | l + 1 => walkFrom s stop asid home va l (field e 48 3) (field e 12 25 * 4096) ((k, BitVec.ofNat 64 e) :: seen) read1
        else ⟨.ok ⟨e, level⟩, if pteRes e then (k, BitVec.ofNat 64 e) :: seen else seen, read1⟩

/-- The walk from the root record of the ASID (R259, R271). -/
def walk (s : State) (stop : Nat → Bool) (asid home va : Nat) : Walked :=
  let root := (amGetD s.roots asid 0#64).toNat
  if !bit root 0 then ⟨.error ⟨cNO_TRANSLATION, 5⟩, [], []⟩
  else walkFrom s stop asid home va 4 (field root 48 3) (field root 15 22 * 2 ^ 15) [] []

/-- A cached leaf at a location, level 0 before level 1. -/
def cachedLeaf (s : State) (loc asid va : Nat) : Option Leaf :=
  match amGet s.tlb (tlbKey loc asid 0 va) with
  | some e => some ⟨e.toNat, 0⟩
  | none => match amGet s.tlb (tlbKey loc asid 1 va) with
    | some e => if pteT e.toNat then none else some ⟨e.toNat, 1⟩
    | none => none

/-- The page offset of an address under a leaf's level, and its frame address. -/
def frameAddr (l : Leaf) (va : Nat) : Nat :=
  pteFrame l.e * 65536 + va % (if l.level = 0 then 2 ^ 16 else 2 ^ 25)

/-- A core whose TLB may hold a page of a home: its own die's (R254). -/
def ownHome (core home : Nat) : Bool := home ≤ 7 && core / 32 == home

/-- The leaf that translates an address for a core, found in its TLB, in its home's, or by a walk (R254, R255, R260). -/
def lookLeaf (s : State) (stop : Nat → Bool) (core asid home va : Nat) : Walked :=
  match (if ownHome core home then cachedLeaf s (coreLoc core) asid va else none) with
  | some l => ⟨.ok l, [], []⟩
  | none => match cachedLeaf s (homeLoc home va) asid va with
    | some l => ⟨.ok l, [], []⟩
    | none => walk s stop asid home va

/-- The key under a leaf (R261). -/
def leafKey (l : Leaf) (home va : Nat) : Nat :=
  memKey home (if home ≤ 7 then interleave (pteSch l.e) (frameAddr l va) else frameAddr l va)

/-- The key that an address of the context stands for, without the checks of an access: none where it has no resident page. -/
def plainKey (s : State) (core asid va : Nat) : Option Nat :=
  let home := va / 2 ^ 60
  if home = 10 then some (memKey 10 (va % 2 ^ 60))
  else if 11 ≤ home then none
  else match (lookLeaf s (fun _ => false) core asid home va).out with
    | .ok l => if pteRes l.e then some (leafKey l home va) else none
    | .error _ => none

/-- The kinds of access that R264 distinguishes. -/
inductive AccessNeed where
  | read | write | atomic | red | fetch
deriving DecidableEq, Repr

/-- The first missing right of a page (R264). -/
def missingRight (n : AccessNeed) (home e : Nat) : Option Nat :=
  let r := if pteR e then none else some cREAD_DENIED
  let w := if pteW e then none else some cWRITE_DENIED
  let a := if pteA e then none else some cATOMIC_DENIED
  match n with
  | .read => r
  | .write => w
  | .atomic => r <|> w <|> a
  | .red => w <|> a
  | .fetch => if 8 ≤ home then some cEXEC_DENIED else if pteX e then none else some cEXEC_DENIED

/-- The rights of a master at a target (R456): the entries of stage A, unless changed. -/
def accessRights (s : State) (target master : Nat) : Nat :=
  if master = 0x1110 ∨ master = 0x1111 then 7
  else amGetD s.sys.access (target * 65536 + master) (if target = 130 ∧ master = 0x1100 then 3 else 0)

/-- The first right that a master misses at a target (R457). -/
def missingAccess (s : State) (n : AccessNeed) (target master : Nat) : Option Nat :=
  let x := accessRights s target master
  let r := if bit x 0 then none else some cREAD_DENIED
  let w := if bit x 1 then none else some cWRITE_DENIED
  let a := if bit x 2 then none else some cATOMIC_DENIED
  match n with
  | .read => r
  | .write => w
  | .atomic => r <|> w <|> a
  | .red => r <|> w <|> a
  | .fetch => none

/-- The target that checks a request (R456); host memory has none. -/
def targetOf (key : Nat) : Option Nat := if keyHome key ≤ 8 then some (homeId key) else none

/-- An error log changed. Logs 0 to 7 are the compute dies', 8 and 9 the I/O dies' (R453). -/
def modLog (s : State) (log : Nat) (f : ErrLog → ErrLog) : State :=
  s.setSys { s.sys with logs := amPut s.sys.logs log (f (amGetD s.sys.logs log ErrLog.init)) }

/-- A record among those of a log: after the older ones, and in ascending channel order among those of its clock (R463). -/
def enterRecord (recs : List ErrRec) (same : Nat) (r : ErrRec) : List ErrRec :=
  let older := recs.take (recs.length - same)
  let now := recs.drop (recs.length - same)
  older ++ (now.filter fun x => x.chan ≤ r.chan) ++ [r] ++ now.filter fun x => !(x.chan ≤ r.chan)

/-- An event logged: LE rises, and the record enters in its place; where the ring is full the last one is discarded (R462, R463). -/
def logEvent (s : State) (log chan kind asid cause addr : Nat) : State :=
  modLog s log fun g =>
    let n := if amGetD g.le chan 0 < 0xFFFFFFFF then amGetD g.le chan 0 + 1 else 0xFFFFFFFF
    let same := if g.clk = s.time.clk then min g.newest g.recs.length else 0
    let recs := enterRecord g.recs same ⟨s.time.datum, addr, chan, kind, asid, n, cause⟩
    let g1 := { g with le := amPut g.le chan n, clk := s.time.clk, recs := recs.take 64 }
    if recs.length ≤ 64 then { g1 with newest := same + 1 }
    else { g1 with
      newest := same, ovf := true, discarded := if g.discarded < 0x7FFFFFFF then g.discarded + 1 else 0x7FFFFFFF }

/-- The log and channel of a key's memory: an HBM4E channel, or an LPDDR6 channel in stripes of 256 bytes (R462). -/
def chanOf (key : Nat) : Nat × Nat :=
  if keyHome key ≤ 7 then (keyHome key, field (keyAddr key) 11 6)
  else (if keyAddr key < 2 ^ 41 then 8 else 9, keyAddr key / 256 % 32)

/-- A denial of R457 logged at the target's die, and counted by a compute die. -/
def logDenial (s : State) (target asid cause key : Nat) : State :=
  if target < 128 then (logEvent s (target / 16) (64 + target % 16) 4 asid cause (keyAddr key / 64 * 64)).countDie (target / 16) 0x0C 1
  else logEvent s (target - 120) (chanOf key).2 4 asid cause 0

/-- The command processors access memory as a core of no die, under their own master number (R456). -/
def cmdCore : Nat := 4097

end Sys2Proof.Machine
end

