-- ==== Sys2Proof/Machine/Walks.lean ====
section
/-! DEFINITION. The walk of a copy over its axes, and the addresses it writes (R223, R361 to R363). -/

namespace Sys2Proof.Machine

/-- The sector-bounded pieces of a byte range: address and length of each. -/
def pieces (va n : Nat) : List (Nat × Nat) :=
  if n = 0 then [] else
    (List.range ((va + n - 1) / 64 + 1 - va / 64)).map fun i =>
      let lo := if i = 0 then va else (va / 64 + i) * 64
      let hi := if (va / 64 + i + 1) * 64 < va + n then (va / 64 + i + 1) * 64 else va + n
      (lo, hi - lo)

/-- The element width of a tile. -/
def etyWidth (ety : Nat) : Nat := ((Ty.ofCode ety).map Ty.width).getD 8

/-- A packed side (R362). -/
def packedSide (ty : Nat) (mx : Bool) : Bool := mx || etyWidth ty < 8
/-- The bytes of an element, or of a block on a packed side (R333, R362). -/
def sideUnit (ty : Nat) (mx : Bool) : Nat := if packedSide ty mx then 4 * etyWidth ty else etyWidth ty / 8

/-- The number of elements of a copy. -/
def axesCount (axes : List Axis) : Nat := (axes.map Axis.n).foldl (· * ·) 1

/-- The digits of an element's number under the sizes of the walk, innermost first. -/
def digitsOf : List Nat → Nat → List Nat
  | [], _ => []
  | n :: ns, e => e % n :: digitsOf ns (e / n)

/-- The index vector of element `e` of the walk, by axis (R361, R363). -/
def walkVector (t : Template) (e : Nat) : List Nat :=
  let ds := digitsOf (t.order.map fun a => ((t.axes[a]?).map Axis.n).getD 1) e
  (List.range t.axes.length).map fun a => ds.getD (t.order.findIdx fun x => x == a) 0

/-- An offset from the strides of the axes; axis 0 of a packed side counts blocks (R362, R363). -/
def sideOffset (packed : Bool) (unit : Nat) (ks strides : List Int) : Int :=
  let terms := List.zipWith (· * ·) ks strides
  if packed then terms.tail.sum + ks.headD 0 / 32 * Int.ofNat unit else terms.sum

/-- An address from a base and an offset, modulo 2^64. -/
def addrAt (base : W64) (off : Int) : Nat := (base + BitVec.ofInt 64 off).toNat

/-- The number of pieces a copy is made of: elements, or blocks of a packed destination. -/
def copyUnits (t : Template) : Nat :=
  if packedSide t.dty t.dmx then axesCount t.axes / 32 else axesCount t.axes

/-- Where element or block `u` of a copy is written: its address and length, and those of its scale (R362, R363). -/
def unitDest (t : Template) (dst dsc : W64) (u : Nat) : List (Nat × Nat) :=
  let unit := sideUnit t.dty t.dmx
  let packed := packedSide t.dty t.dmx
  let off := sideOffset packed unit ((walkVector t (if packed then 32 * u else u)).map Int.ofNat) (t.axes.map Axis.ds)
  (addrAt dst off, unit) :: if t.dmx then [(addrAt dsc (off / Int.ofNat unit), 1)] else []

/-- Every range that a copy writes (R223). -/
def copyDest (t : Template) (dst dsc : W64) : List (Nat × Nat) := (List.range (copyUnits t)).flatMap (unitDest t dst dsc)

/-- Where the source of a copy that gathers nothing is read: its valid elements or blocks, and their scales (R361 to R363). -/
def copySource (t : Template) (src ssc : W64) : List (Nat × Nat) :=
  let unit := sideUnit t.sty t.smx
  let packed := packedSide t.sty t.smx
  (List.range (axesCount t.axes)).flatMap fun e =>
    let ks := ((walkVector t e).zip t.axes).map fun x => Int.ofNat (if x.2.per = 0 then x.1 else x.1 % x.2.per) + x.2.off
    if (ks.zip t.axes).all fun x => 0 ≤ x.1 && x.1 < Int.ofNat x.2.ext then
      let off := sideOffset packed unit ks (t.axes.map Axis.ss)
      (addrAt src off, unit) :: if t.smx then [(addrAt ssc (off / Int.ofNat unit), 1)] else []
    else []

end Sys2Proof.Machine
end

