-- ==== Sys2Proof/Machine/Caches.lean ====
section
/-! DEFINITION. The levels of memory: lines, sets, victims and the footprint predictor, stamps and horizons, reads, writes and last uses at a home, uncorrectable errors, and the caches of a core (R219, R226 to R251). -/

namespace Sys2Proof.Machine

/-! Uncorrectable errors. -/

/-- A sector whose data is in uncorrectable error (R250). -/
def inError (s : State) (key : Nat) : Bool := s.errs.sectors.contains (sectorOf key)

/-- An error consumed by a thread is logged (R250, R462). -/
def logConsumed (s : State) (key asid : Nat) : State :=
  logEvent s (chanOf key).1 (chanOf key).2 1 asid cDATA_ERROR (keyAddr key / 64 * 64)

/-- The channel of a core in its die's error log: that of the built core (R462). -/
def coreChannel (s : State) (core : Nat) : Nat := 80 + (s.die (core / 32)).built.getD (core % 32) 0

/-- An error of a core's scratchpad, L1 or instruction cache, consumed by a thread, is logged at the built core. -/
def logCoreError (s : State) (core asid : Nat) : State := logEvent s (core / 32) (coreChannel s core) 1 asid cDATA_ERROR 0

/-- The core and the team's context that a report names (R251); a memory sector names neither. -/
def reportOf (s : State) (e : ErrAt) : Report :=
  let team (t : Nat) : Report := ⟨e, ((s.team? t).map Team.core).getD 0, (s.team? t).map Team.ctx⟩
  match e with
  | .sector _ => ⟨e, 0, none⟩
  | .scratch t _ => team t
  | .reg t _ => team t
  | .l1 c _ => ⟨e, c, none⟩
  | .icache c _ => ⟨e, c, none⟩

/-- An error that no instruction consumes is reported (R251); the report waits for CONTEXT_FATAL_REPORT. -/
def report (s : State) (e : ErrAt) : State :=
  if s.errs.reports.any fun r => r.err == e then s
  else s.setErrs { s.errs with reports := s.errs.reports ++ [reportOf s e] }

/-! Stamps. -/

/-- DATUM as the stamps see it (R231). -/
def State.datum48 (s : State) : Nat := s.time.datum % 2 ^ 48

/-- The later of two stamps within a window of 2^47 (R231, R234). -/
def stampMax (a b : Nat) : Nat := if (a + 2 ^ 48 - b) % 2 ^ 48 < 2 ^ 47 then a else b

/-- The stamp after a write (R231). -/
def stampNext (datum st : Nat) : Nat := stampMax datum ((st + 1) % 2 ^ 48)

/-- A key that no L2 holds: the second tier, host, peers and memory-side pages (R233). -/
def uncached (key e : Nat) : Bool := 8 ≤ keyHome key || pteMs e

/-- The home slice's horizon for a key of a compute die. -/
def horizonOf (s : State) (key : Nat) : Nat := ((s.die (keyHome key)).slice (sliceOf (keyAddr key))).h

/-- The horizon of a key's home slice rises to a stamp (R232). -/
def raiseHorizon (s : State) (key st : Nat) : State :=
  s.modSlice (keyHome key) (sliceOf (keyAddr key)) fun y => { y with h := stampMax y.h st }

/-- A sector that an L2 holds, and one that a memory-side cache holds. -/
def State.l2Sec (s : State) (sec : Nat) : Option L2Sec := (amGet s.l2 (sec / 2)).bind fun l => amGet l.secs sec
def State.mscSec (s : State) (sec : Nat) : Option MscSec := (amGet s.msc (sec / 32)).bind fun l => amGet l.secs sec

/-- The stamp that a read of a key reports (R231 to R233). -/
def stampOf (s : State) (key e : Nat) : Nat :=
  if keyHome key = 8 then amGetD s.sys.ioU (homeId key) 0
  else if pteMs e then ((s.die (keyHome key)).slice (sliceOf (keyAddr key))).u
  else match s.l2Sec (sectorOf key) with
    | some x => x.stamp
    | none => horizonOf s key

/-- The priority class of an access: its own EVP, else the page's default (R237). 0 normal, 1 first, 2 last, 3 keep. -/
def classOf (evp : Evp) (e : Nat) : Nat :=
  match evp with
  | .dflt => pteEvp e
  | .first => 1
  | .last => 2
  | .keep => 3

/-! Sets and victims. -/

/-- The sectors of a line of `n`. -/
def lineSectors (line n : Nat) : List Nat := (List.range n).map fun i => line * n + i

/-- The core and ASID in whose name an operation translates. -/
def Op.busyKey (s : State) (o : Op) (va : Nat) : Option Nat :=
  plainKey s (((s.team? o.g.team).map Team.core).getD 0) o.asid.toNat va

/-- The destination sectors of an outstanding copy or fill in memory (R243). -/
def Op.busySectors (s : State) (o : Op) : List Nat :=
  let secs (x : Nat × Nat) : List Nat := (pieces x.1 x.2).filterMap fun p => (o.busyKey s p.1).map sectorOf
  match o.kind with
  | .copy t _ dst _ _ dsc [] => if t.dspace then [] else (copyDest t dst dsc).flatMap secs
  | .fill _ len dst sp => if sp then [] else secs (dst.toNat, len)
  | _ => []

/-- A sector that no cache may evict: the destination of a copy in flight, or one that an outstanding access is to fetch (R243). -/
def busySector (s : State) (sec : Nat) : Bool :=
  (s.ops.any fun o => o.2.cls == 0 && o.2.st != .complete && (o.2.busySectors s).contains sec) ||
  (s.pend.any fun a => !a.2.remote && sectorOf a.2.key == sec && (s.l2Sec sec).isNone && (s.mscSec sec).isNone)

def busyLine (s : State) (line n : Nat) : Bool := (lineSectors line n).any (busySector s)

/-- The lines of a full set among those that a cache holds; none where the set has room. Which set holds a line is a free value
of Config. -/
def fullSet (ls : List Nat) (ways : Nat) (same : Nat → Bool) : List Nat :=
  if ls.length < ways then [] else
    let m := ls.filter same
    if m.length < ways then [] else m

/-- The order in which the classes give up lines (R238). -/
def evictOrder (cls : Nat) : Nat :=
  match cls with
  | 1 => 0
  | 0 => 1
  | 2 => 2
  | _ => 3

/-- The victim among lines with their class and recency: the least recently used of the lowest class present (R238). -/
def victim (xs : List (Nat × Nat × Nat)) : Option Nat :=
  (xs.foldl (fun best x => match best with
    | none => some x
    | some b => if evictOrder x.2.1 < evictOrder b.2.1 || (evictOrder x.2.1 == evictOrder b.2.1 && x.2.2 < b.2.2) then some x
        else best) none).map Prod.fst

/-- Whether a cache can take a line: at once, in the place of a victim, or not while every line of its set is busy (R238, R243). -/
inductive Room where
  | free
  | evict (line : Nat)
  | full
deriving DecidableEq, Repr

def Room.of (set : List (Nat × Nat × Nat)) (idle : Nat → Bool) : Room :=
  if set = [] then .free
  else match victim (set.filter fun x => idle x.1) with
    | some v => .evict v
    | none => .full

/-- The die and slice of an L2 line, and the die and stack of a memory-side cache line. -/
def l2Place (line : Nat) : Nat := homeId (line * 128)
def stackOf (line : Nat) : Nat := keyHome (line * 2048) * 2 + field (keyAddr (line * 2048)) 16 1

/-- The lines of the full set of a slice that a line belongs to: 16 ways of 2,048 sets (R219). -/
def l2Set (s : State) (line : Nat) : List (Nat × Nat × Nat) :=
  let m := fullSet ((amKeys s.l2).filter fun k => l2Place k == l2Place line) 16
    fun k => Config.l2Set k % 2048 == Config.l2Set line % 2048
  (s.l2.filter fun x => m.contains x.1).map fun x => (x.1, x.2.cls, x.2.used)
def mscSet (s : State) (line : Nat) : List (Nat × Nat × Nat) :=
  let m := fullSet ((amKeys s.msc).filter fun k => stackOf k == stackOf line) 16
    fun k => Config.mscSet k % 2048 == Config.mscSet line % 2048
  (s.msc.filter fun x => m.contains x.1).map fun x => (x.1, x.2.cls, x.2.used)

def l2Room (s : State) (line : Nat) : Room :=
  if amHas s.l2 line then .free else .of (l2Set s line) fun k => !busyLine s k 2
def mscRoom (s : State) (line : Nat) : Room :=
  if amHas s.msc line then .free else .of (mscSet s line) fun k => !busyLine s k 32

/-- The dirty sectors of an L2 line have room in the memory-side cache, so that it can be written back (R236, R243). -/
def backReady (s : State) (line : Nat) : Bool :=
  (amGet s.l2 line).all fun l => (l.secs.all fun x => x.2.below.isNone) || mscRoom s (line / 16) != .full

/-- The L2 can take a line: at once, or in the place of a victim that can be written back (R238, R243). -/
def l2Ready (s : State) (line : Nat) : Bool :=
  match l2Room s line with
  | .free => true
  | .evict v => backReady s v
  | .full => false

/-- Every cache that an access to a key must allocate in has room, and so has what leaves the L2 for it (R243). -/
def hasRoom (s : State) (key e : Nat) : Bool :=
  if 8 ≤ keyHome key then true
  else if pteMs e then mscRoom s (key / 2048) != .full
  else (s.l2Sec (sectorOf key)).isSome || (l2Ready s (lineOf key) && mscRoom s (key / 2048) != .full)

/-- An access that must wait at its home: for a cairn's lock, or for room (R243, R294). -/
def heldUp (s : State) (key e : Nat) : Bool := isLocked s key || !hasRoom s key e

/-- The recency of a line just used. -/
def L2Line.next (m : AMap L2Line) : Nat := m.foldl (fun n x => if n ≤ x.2.used then x.2.used + 1 else n) 0
def MscLine.next (m : AMap MscLine) : Nat := m.foldl (fun n x => if n ≤ x.2.used then x.2.used + 1 else n) 0

/-! The memory-side cache. -/

/-- The footprint predictor of a stack takes an entry (R236): 4,096 of them; which one a new entry replaces is a free value. -/
def recordFootprint (s : State) (line : Nat) (touched : List Nat) : State :=
  let mine := (amKeys s.foot).filter fun k => stackOf k == stackOf line
  if touched = [] then s
  else if amHas s.foot line || mine.length < 4096 then s.setFoot (amPut s.foot line touched)
  else
    let f := s.takeFree
    f.2.setFoot (amPut (amDel s.foot (mine.getD (Config.choice f.1 % mine.length) 0)) line touched)

/-- Sectors in error that leave a cache are reported (R250). -/
def reportLeaving (s : State) (secs : List Nat) : State :=
  (secs.filter fun k => s.errs.sectors.contains k).foldl (fun st k => report st (.sector k)) s

/-- The memory-side cache gives up a line: dirty sectors go to DRAM, clean ones are dropped (R236, R238). -/
def dropMsc (s : State) (line : Nat) : State :=
  match amGet s.msc line with
  | some x =>
    let s1 := reportLeaving (recordFootprint s line x.touched) (amKeys x.secs)
    s1.setMsc (amDel s1.msc line)
  | none => s

/-- The memory-side cache holds a line, with the sectors that the predictor marks for it (R236); a predicted sector in error is
not installed (R250). An access that finds every line of the set busy waits before it comes here (`hasRoom`); what cannot wait, the
write-backs of a reset, goes by the cache. -/
def allocMsc (s : State) (line : Nat) : State :=
  let room := mscRoom s line
  if amHas s.msc line || room == .full then s
  else
    let s1 := match room with
      | .evict v => dropMsc s v
      | _ => s
    let got := ((amGetD s1.foot line []).filter fun k => !s1.errs.sectors.contains k).foldl (fun m k => amPut m k ⟨none⟩) []
    s1.setMsc (amPut s1.msc line { cls := 0, used := 0, touched := [], secs := got })

/-- The memory-side cache holds the sector of a compute die's key, and its line takes the access's class (R236, R237); hits and
misses are counted (R460). -/
def touchMsc (s : State) (key cls : Nat) : State :=
  if 8 ≤ keyHome key then s
  else
    let sec := sectorOf key
    let s1 := allocMsc (s.countDie (keyHome key) (if (s.mscSec sec).isSome then 0x04 else 0x05) 1) (key / 2048)
    s1.setMsc (amMod s1.msc (key / 2048) fun x => { x with
      cls := cls, used := MscLine.next s1.msc, touched := if x.touched.contains sec then x.touched else sec :: x.touched
      secs := amPut x.secs sec (amGetD x.secs sec ⟨none⟩) })

/-- A sector of the memory-side cache becomes dirty over DRAM's bytes. -/
def dirtyMsc (s : State) (sec : Nat) (dram : List Byte) : State :=
  s.setMsc (amMod s.msc (sec / 32) fun x => { x with secs := amMod x.secs sec fun y => ⟨some (y.dram.getD dram)⟩ })

/-! The L2. -/

/-- The L2 writes a dirty sector to the memory-side cache and keeps it clean (R230). DESIGN CHOICE (log 136): R237 names a class for
accesses only; a write-back gives the memory-side line the class of the L2 line. -/
def writebackL2 (s : State) (sec : Nat) : State :=
  match amGet s.l2 (sec / 2) with
  | some l => match (amGet l.secs sec).bind L2Sec.below with
    | some b =>
      let s1 := dirtyMsc (touchMsc (reportLeaving s [sec]) (sec * 64) l.cls) sec b
      s1.setL2 (amMod s1.l2 (sec / 2) fun x => { x with secs := amMod x.secs sec fun y => { y with below := none } })
    | none => s
  | none => s

/-- The memory-side cache writes a sector to DRAM and keeps it clean (R230). -/
def writebackMsc (s : State) (sec : Nat) : State :=
  match (s.mscSec sec).bind MscSec.dram with
  | some _ =>
    let s1 := reportLeaving s [sec]
    s1.setMsc (amMod s1.msc (sec / 32) fun x => { x with secs := amMod x.secs sec fun _ => ⟨none⟩ })
  | none => s

/-- The slice invalidates a sector without writing it back: its horizon rises (R232). -/
def invalidL2 (s : State) (sec : Nat) : State :=
  match amGet s.l2 (sec / 2) with
  | some l => match amGet l.secs sec with
    | some x =>
      let secs := amDel l.secs sec
      (raiseHorizon s (sec * 64) x.stamp).setL2 (if secs = [] then amDel s.l2 (sec / 2) else amPut s.l2 (sec / 2) { l with secs := secs })
    | none => s
  | none => s

/-- The memory-side cache invalidates a sector without writing it back. -/
def invalidMsc (s : State) (sec : Nat) : State :=
  s.setMsc (amMod s.msc (sec / 32) fun x => { x with secs := amDel x.secs sec })

/-- The slice evicts a line: dirty sectors are written back and its horizon rises (R230, R232). -/
def dropL2 (s : State) (line : Nat) : State :=
  match amGet s.l2 line with
  | some l => (amKeys l.secs).foldl (fun st k => invalidL2 (writebackL2 (reportLeaving st [k]) k) k) s
  | none => s

/-- The slice makes room for a line (R238). -/
def makeRoom (s : State) (line : Nat) : State :=
  match l2Room s line with
  | .evict v => dropL2 s v
  | _ => s

/-- The L2 takes a sector into its line, under the access's class. -/
def putL2 (s : State) (sec cls : Nat) (x : L2Sec) : State :=
  let old := amGetD s.l2 (sec / 2) { cls := cls, used := 0, secs := [] }
  s.setL2 (amPut s.l2 (sec / 2) { cls := cls, used := L2Line.next s.l2, secs := amPut old.secs sec x })

/-- The 64 bytes of a sector. -/
def sectorBytes (s : State) (sec : Nat) : List Byte := memRead s.mem (sec * 64) 64

/-- A read touches the sector's caches: the L2 fetches it with the horizon as its stamp (R232, R237). -/
def touchRead (s : State) (key e cls : Nat) : State :=
  let sec := sectorOf key
  if 8 ≤ keyHome key then s
  else if pteMs e then touchMsc s key cls
  else match s.l2Sec sec with
    | some x => putL2 (s.countDie (keyHome key) 0x02 1) sec cls x
    | none =>
      if l2Room s (lineOf key) == .full then touchMsc (s.countDie (keyHome key) 0x03 1) key cls
      else
        let s1 := touchMsc (makeRoom (s.countDie (keyHome key) 0x03 1) (lineOf key)) key cls
        putL2 s1 sec cls { stamp := horizonOf s1 key, below := none }

/-- The monitors that hold an entry and satisfy a test are to be read again (R358). -/
def noteWhere (s : State) (hit : Mon → Bool) : State :=
  s.setMons (s.mons.map fun m => (m.1, if !m.2.polling && hit m.2 then { m.2 with dirty := true } else m.2))

/-- The monitors of a sector are to be read again after a write (R358). -/
def noteWrite (s : State) (sec : Nat) : State :=
  noteWhere s fun m => !m.sp &&
    (plainKey s (((s.team? m.g.team).map Team.core).getD 0) m.asid.toNat m.va.toNat).map sectorOf == some sec

/-- What a write does to the caches and stamps of its sector (R230 to R233): a partial store to an absent sector fetches it
first, one that covers the whole sector does not. -/
def touchWrite (s : State) (key e cls n : Nat) : State :=
  let sec := sectorOf key
  if keyHome key = 8 then
    s.setSys { s.sys with ioU := amPut s.sys.ioU (homeId key) (stampNext s.datum48 (stampOf s key e)) }
  else if 9 ≤ keyHome key then s
  else if pteMs e then
    let s1 := touchMsc (s.modSlice (keyHome key) (sliceOf (keyAddr key)) fun x => { x with u := stampNext s.datum48 x.u }) key cls
    dirtyMsc s1 sec (sectorBytes s1 sec)
  else
    let old := s.l2Sec sec
    let s0 := s.countDie (keyHome key) (if old.isSome then 0x02 else 0x03) 1
    if old.isNone && l2Room s (lineOf key) == .full then
      let s1 := touchMsc s0 key cls
      dirtyMsc (raiseHorizon s1 key (stampNext s.datum48 (horizonOf s1 key))) sec (sectorBytes s1 sec)
    else
      let s1 := if old.isSome then s0 else
        let r := makeRoom s0 (lineOf key)
        if n < 64 then touchMsc r key cls else r
      putL2 s1 sec cls { stamp := stampNext s.datum48 (stampOf s1 key e), below := some ((old.bind L2Sec.below).getD (sectorBytes s sec)) }

/-- Bytes written at a home by a write that covers `n` bytes of their sector: the caches and stamps of the sector first, then the
bytes (R230 to R233). DESIGN CHOICE (log 115): where a page's memory-side attribute was changed without the write-back that R248 asks
for, its sectors keep their current bytes. -/
def writeCover (s : State) (key e cls n : Nat) (bs : List Byte) : State :=
  let s1 := touchWrite s key e cls n
  noteWrite (s1.setMem (memWrite s1.mem key bs)) (sectorOf key)

/-- Bytes written at a home. -/
def writeAt (s : State) (key e cls : Nat) (bs : List Byte) : State := writeCover s key e cls bs.length bs

/-- A write by a unit or engine that no thread waits for (R250): one that covers the whole sector takes an error away; another is
not performed on a sector in error, which is reported. -/
def storeAt (s : State) (key e cls : Nat) (bs : List Byte) : State :=
  if !inError s key then writeAt s key e cls bs
  else if bs.length = 64 then
    writeAt (s.setErrs { s.errs with sectors := s.errs.sectors.filter fun x => x ≠ sectorOf key }) key e cls bs
  else report s (.sector (sectorOf key))

/-- A last use drops the sector from the L2 and the memory-side cache without writing it back (R239). -/
def lastUse (s : State) (key : Nat) : State :=
  let sec := sectorOf key
  if 8 ≤ keyHome key then s
  else
    let value := match (s.mscSec sec).bind MscSec.dram with
      | some b => some b
      | none => (s.l2Sec sec).bind L2Sec.below
    let s1 := invalidMsc (invalidL2 s sec) sec
    match value with
    | some b => s1.setMem (memWrite s1.mem (sec * 64) b)
    | none => s1

/-- A store with LU = 1 marks its line with class first in both caches (R240). -/
def markFirst (s : State) (key : Nat) : State :=
  (s.setL2 (amMod s.l2 (lineOf key) fun x => { x with cls := 1 })).setMsc (amMod s.msc (key / 2048) fun x => { x with cls := 1 })

/-! Memory without translation. -/

/-- The key of an address that the command processors use without translation: homes 0 to 7 by frame address under scheme 0, the
second tier and the host directly. -/
def plainAddr (addr : Nat) : Nat :=
  if addr / 2 ^ 60 ≤ 7 then memKey (addr / 2 ^ 60) (interleave 0 (addr % 2 ^ 37)) else addr

/-- A range there waits: for a cairn's lock, or for room (R243, R294). -/
def plainWaits (s : State) (addr n : Nat) : Bool :=
  addr / 2 ^ 60 ≤ 9 && (pieces addr n).any fun p => heldUp s (plainAddr p.1) 0

/-- Bytes written there; an address that names no memory in service takes none. DESIGN CHOICE (log 136): R237 names no class for the
accesses of a command processor; theirs is normal. -/
def writePlain (s : State) (addr : Nat) (bs : List Byte) : State :=
  if 10 ≤ addr / 2 ^ 60 ∨ (addr / 2 ^ 60 ≤ 7 ∧ !s.dieUp (addr / 2 ^ 60)) then s
  else ((pieces addr bs.length).foldl (fun x p => (storeAt x.1 (plainAddr p.1) 0 0 (x.2.take p.2), x.2.drop p.2)) (s, bs)).1

/-! The caches of a core. -/

/-- The lines of the full set of a core's cache that a line belongs to (R219): 8 ways of 256 sets in the L1, 4 of 128 in the
instruction cache. -/
def l1Full (s : State) (core line : Nat) : List Nat :=
  let ls := ((amKeys (s.core core).l1).map (· / 2)).eraseDups
  if ls.contains line then [] else fullSet ls 8 fun k => Config.l1Set k % 256 == Config.l1Set line % 256
def icacheFull (s : State) (core line : Nat) : List Nat :=
  let ls := amKeys (s.core core).icache
  if ls.contains line then [] else fullSet ls 4 fun k => Config.icacheSet k % 128 == Config.icacheSet line % 128

/-- The L1 takes a sector; which line of a full set it gives up is a free value (the rules name none for it). -/
def l1Put (s : State) (core sec : Nat) (bs : List Byte) : State :=
  match l1Full s core (sec / 2) with
  | [] => s.modCore core fun c => { c with l1 := amPut c.l1 sec ⟨bs, false⟩ }
  | m =>
    let f := s.takeFree
    let v := m.getD (Config.choice f.1 % m.length) 0
    f.2.modCore core fun c => { c with l1 := amPut (c.l1.filter fun x => x.1 / 2 != v) sec ⟨bs, false⟩ }

/-- The instruction cache takes a line. -/
def icachePut (s : State) (core line : Nat) (bs : List Byte) : State :=
  match icacheFull s core line with
  | [] => s.modCore core fun c => { c with icache := amPut c.icache line ⟨bs, false⟩ }
  | m =>
    let f := s.takeFree
    let v := m.getD (Config.choice f.1 % m.length) 0
    f.2.modCore core fun c => { c with icache := amPut (amDel c.icache v) line ⟨bs, false⟩ }

/-- An L1 sector invalidated (R226, R353). -/
def l1Drop (s : State) (core sec : Nat) : State :=
  if amHas (s.core core).l1 sec then s.modCore core fun c => { c with l1 := amDel c.l1 sec } else s
/-- A core's whole L1 invalidated (R228). -/
def l1Clear (s : State) (core : Nat) : State :=
  if (s.core core).l1.isEmpty then s else s.modCore core fun c => { c with l1 := [] }
/-- A store updates a sector its own L1 holds (R227). -/
def l1Update (s : State) (core key : Nat) (bs : List Byte) : State :=
  match amGet (s.core core).l1 (sectorOf key) with
  | some old =>
    let o := key % 64
    let new := old.data.take o ++ bs ++ old.data.drop (o + bs.length)
    s.modCore core fun c => { c with l1 := amPut c.l1 (sectorOf key) { old with data := new } }
  | none => s

end Sys2Proof.Machine
end

