-- ==== Sys2Proof/Machine/Memory.lean ====
section
/-! DEFINITION. Address translation as an access makes it, its checks, and what a scratchpad address reaches (R220 to R224, R252 to R272, R436, R456). -/

namespace Sys2Proof.Machine

/-- An entry enters a TLB or walk cache (R254, R255): 192 entries in a core's TLB, 4,096 of 8 ways in a slice's, and 256 entries
in its walk cache. Which entry a new one replaces, and which set holds an entry, are free values. -/
def tlbPut (s : State) (loc k : Nat) (e : W64) : State :=
  let mine := ((s.tlb.filter fun x => tlbLoc x.1 == loc && pteT x.2.toNat == pteT e.toNat).map Prod.fst).filter fun x => x != k
  let full := if 256 ≤ loc then (if mine.length < 192 then [] else mine)
    else if pteT e.toNat then (if mine.length < 256 then [] else mine)
    else fullSet mine 8 fun x => Config.tlbSet x % 512 == Config.tlbSet k % 512
  match full with
  | [] => s.setTlb (amPut s.tlb k e)
  | m =>
    let f := s.takeFree
    f.2.setTlb (amPut (amDel s.tlb (m.getD (Config.choice f.1 % m.length) 0)) k e)

/-- The leaf that translates an address for a core, and the state with what the walk read at the home slices and cached (R254,
R255, R260). DESIGN CHOICE (log 136): R237 names no class for the reads of a walk; theirs is normal. -/
def findLeaf (s : State) (core asid home va : Nat) : Except Cause Leaf × State :=
  let r := lookLeaf s (fun k => heldUp s k 0) core asid home va
  let s1 := r.read.foldl (fun st k => touchRead st k 0 0) s
  let s2 := r.seen.foldl (fun st x => tlbPut st (homeLoc home va) x.1 x.2) s1
  match r.out with
  | .error c => (.error c, s2)
  | .ok l =>
    (.ok l, if ownHome core home && pteRes l.e then tlbPut s2 (coreLoc core) (tlbKey (coreLoc core) asid l.level va) (BitVec.ofNat 64 l.e)
      else s2)

/-- What the translation of an access gives. -/
inductive XOut where
  | fault (c : Cause)
  /-- valid but not resident (R265) -/
  | absent
  /-- performed at a key, under the page's entry -/
  | ok (key : Nat) (e : Nat)
deriving DecidableEq, Repr

/-- The access waits: for a locked line or for room on its walk, or for the start to reach stage 4 (R243, R294, R452). -/
def XOut.waits (x : XOut) : Bool :=
  match x with
  | .fault c => c.cause == 0
  | _ => false

/-- The checks of R263 and R457 in order, for a virtual address of homes 0 to 9. -/
def xlateLocal (s : State) (core : Nat) (asid : Nat) (priv : Bool) (n : AccessNeed) (va : Nat) : XOut × State :=
  let home := va / 2 ^ 60
  if home ≤ 7 && !s.dieUp home then (.fault ⟨cHOME_UNAVAILABLE, 0⟩, s)
  else
    let r := findLeaf s core asid home va
    match r.1 with
    | .error c => (.fault c, r.2)
    | .ok l =>
      if pteP l.e && !priv then (.fault ⟨cPRIV_DENIED, 0⟩, r.2)
      else match missingRight n home l.e with
        | some c => (.fault ⟨c, 0⟩, r.2)
        | none =>
          let f := frameAddr l va
          let key := leafKey l home va
          let tgt := if pteRes l.e then targetOf key
            else some (if pteFrame l.e < 2 ^ 25 then 128 else 129)
          match tgt.bind fun t => missingAccess s n t (if core = cmdCore then 0x1110 else asid) with
          | some c => (.fault ⟨c, 0x40⟩, logDenial r.2 (tgt.getD 0) asid c (if pteRes l.e then key else memKey 8 f))
          | none => if pteRes l.e then (.ok key l.e, r.2) else (.absent, r.2)

/-- The peer that an address of home 10 names (R436). -/
def peerOf (va : Nat) : Nat := field va 52 8

/-- The denials that a peer may answer to a kind of access: of its page, or of its access tables, whose atomics need R, W and A
(R264, R457). -/
def peerDenials (n : AccessNeed) : List Cause :=
  match n with
  | .read => [⟨cREAD_DENIED, 0⟩, ⟨cREAD_DENIED, 0x40⟩]
  | .write => [⟨cWRITE_DENIED, 0⟩, ⟨cWRITE_DENIED, 0x40⟩]
  | .atomic => [⟨cREAD_DENIED, 0⟩, ⟨cWRITE_DENIED, 0⟩, ⟨cATOMIC_DENIED, 0⟩, ⟨cREAD_DENIED, 0x40⟩, ⟨cWRITE_DENIED, 0x40⟩,
      ⟨cATOMIC_DENIED, 0x40⟩]
  | .red => [⟨cWRITE_DENIED, 0⟩, ⟨cATOMIC_DENIED, 0⟩, ⟨cREAD_DENIED, 0x40⟩, ⟨cWRITE_DENIED, 0x40⟩, ⟨cATOMIC_DENIED, 0x40⟩]
  | .fetch => [⟨cEXEC_DENIED, 0⟩]

/-- A peer's answer to an access that reaches its ingress (R436), a free value: whether it is performed, finds its
page not resident, or faults, and how. -/
def peerAnswer (n : AccessNeed) (free key : Nat) : XOut :=
  let x := Config.peerAnswer free
  match x % 8 with
  | 0 => .absent
  | 1 => .fault ⟨cNO_TRANSLATION, x / 8 % 256⟩
  | 2 => .fault ⟨cPRIV_DENIED, 0⟩
  | 3 => .fault ((peerDenials n).getD (x / 8 % (peerDenials n).length) ⟨cBAD_HOME, 0⟩)
  | 4 => .fault ⟨cBAD_HOME, 0⟩
  | 5 => .fault ⟨cHOME_UNAVAILABLE, 0⟩
  | 6 => .fault ⟨cDATA_ERROR, 0⟩
  | _ => .ok key 0

/-- An answer of HOME_UNAVAILABLE counted on the requester's die (R460). -/
def countGone (core : Nat) (r : XOut × State) : XOut × State :=
  match r.1 with
  | .fault c => if c.cause = cHOME_UNAVAILABLE then (r.1, r.2.countDie (core / 32) 0x0B 1) else r
  | _ => r

/-- The translation of any address (R252, R253, R263, R436). Before the start has reached stage 4 an access to home 10
waits (R452): cause 0, at which its word issues again. A peer's window is translated by the peer;
what it holds is kept under home 10. DESIGN CHOICE (log 137): R264 denies a fetch from home 10 whatever else holds, and R436 gives its
own checks; the denial comes first here. -/
def xlate (s : State) (core asid : Nat) (priv : Bool) (n : AccessNeed) (va : Nat) : XOut × State :=
  let home := va / 2 ^ 60
  countGone core (
  if 11 ≤ home then (.fault ⟨cBAD_HOME, 0⟩, s)
  else if home = 10 then
    if n = .fetch then (.fault ⟨cEXEC_DENIED, 0⟩, s)
    else if s.sys.stage < 4 then (.fault ⟨0, 0⟩, s)
    else if peerOf va = s.sys.device then (.fault ⟨cBAD_HOME, 0⟩, s)
    else match amGet s.sys.peers (peerOf va) with
      | some p => if p.present && !p.lost then
            (peerAnswer n s.takeFree.1 (memKey 10 (va % 2 ^ 60)), s.takeFree.2)
          else (.fault ⟨cHOME_UNAVAILABLE, 0⟩, s)
      | none => (.fault ⟨cHOME_UNAVAILABLE, 0⟩, s)
  else xlateLocal s core asid priv n va)

/-- Whether a leaf of the tables below a node maps the frame of a key (R251, R258). `ix` is the part of the address
above the level. -/
def mapsBelow (s : State) (key : Nat) : Nat → Nat → Nat → Nat → Bool
  | level, die, node, ix =>
    (List.range (if level = 4 then 4096 else 512)).any fun k =>
      let e := memNat s.mem (memKey die (interleave 0 (node + 8 * k))) 8
      let home := (if level = 4 then k else ix) / 256
      if !pteV e || malformed level home e then false
      else if pteT e then
        match level with
        | 0 => false
        | l + 1 => mapsBelow s key l (field e 48 3) (field e 12 25 * 4096) (if level = 4 then k else ix)
      else
        let page := if level = 0 then 2 ^ 16 else 2 ^ 25
        let f := if home ≤ 7 then deinterleave (pteSch e) (keyAddr key) else keyAddr key
        (if pteRes e then keyHome key == home else keyHome key == 8) &&
          pteFrame e * 65536 / page == (if pteRes e then f else keyAddr key) / page

/-- A context whose tables map the frame of a key. -/
def ctxMaps (s : State) (key : Nat) (c : Ctx) : Bool :=
  let root := (amGetD s.roots c.asid.toNat 0#64).toNat
  c.alive && bit root 0 && mapsBelow s key 4 (field root 48 3) (field root 15 22 * 2 ^ 15) 0

/-- The tile of a team that holds an address, and the byte's place in the scratchpad (R174). -/
def viewOf (t : Team) (va : Nat) : Option Nat :=
  (t.tiles.find? fun x => x.base.toNat ≤ va && va < x.base.toNat + x.size).map fun x =>
    x.off + (va - x.base.toNat)

/-- Inbox addresses (R185). -/
def inboxBase : Nat := 0x400000
def inboxEnd : Nat := 0x408000

/-- Where a scratchpad address of a team lies, or the trap it takes (R220, R330). The bytes of a handler's inbox
entry are kept with the handler's team. -/
def scratchAt (t : Team) (addr n : Nat) : Except Cause Nat :=
  if addr + n ≤ t.units * 65536 then .ok addr
  else if inboxBase ≤ addr ∧ addr < inboxEnd then
    match t.inv with
    | some h =>
      if !h.boxFree ∧ inboxBase + 128 * h.inbox ≤ addr ∧ addr + n ≤ inboxBase + 128 * h.inbox + 128 then .ok addr
      else .error ⟨cINBOX_OVERRUN, 0⟩
    | none => .error ⟨cSCRATCH_RANGE, 0⟩
  else .error ⟨cSCRATCH_RANGE, 0⟩

/-- The team whose scratchpad a team uses: its own, or the requester's for a merge group (R179). -/
def scratchOwner (s : State) (team : Nat) : Nat :=
  match s.team? team with
  | some t => match t.work.bind MergeWork.owner with
    | some o => o
    | none => team
  | none => team

/-- The monitors of a word of a team's scratchpad, among its own views and those that share it, are to be read again (R358). -/
def noteScratch (s : State) (team : Nat) : State :=
  noteWhere s fun m => scratchOwner s m.g.team == team && (m.sp || ((s.team? team).bind fun t => viewOf t m.va.toNat).isSome)

/-- Scratchpad lines touched by an access are all present (R223, R224). -/
def linesPresent (t : Team) (addr n : Nat) : Bool :=
  (List.range ((addr + n - 1) / 128 + 1 - addr / 128)).all fun i => !amHas t.absent (addr / 128 + i)

/-- A scope of die or wider. -/
def wide (sc : Scope) : Bool := sc == .die || sc == .pkg || sc == .sys

end Sys2Proof.Machine
end

