-- ==== Sys2Proof/Machine/Ops.lean ====
section
/-! DEFINITION. The shared operations of the words: waking parked threads, aborting transactions, breaking frames and stakes, ending teams, taking a trap, and running one word for a group. -/

namespace Sys2Proof.Machine

/-- The pieces of a range translated in order: the key, page entry and length of each, and the state with what the translations left.
The first fault stops it; a page that is not resident faults as a store or an engine read does (R265). Cause 0 says that a piece has
to wait, for a locked line, for room in the caches or for the start to reach stage 4 (R243, R294, R452). -/
def xlateAll (core asid : Nat) (priv : Bool) (need : AccessNeed) :
    List (Nat × Nat) → State → Except (Cause × State) (List (Nat × Nat × Nat) × State)
  | [], s => .ok ([], s)
  | (va, n) :: rest, s =>
    match xlate s core asid priv need va with
    | (.fault c, s1) => .error (c, s1)
    | (.absent, s1) => .error (if need == .read then ⟨cNO_TRANSLATION, 0x20⟩ else ⟨cNONRESIDENT_STORE, 0⟩, s1)
    | (.ok key e, s1) =>
      if heldUp s1 key e then .error (⟨0, 0⟩, s1)
      else (xlateAll core asid priv need rest s1).map fun r => ((key, e, n) :: r.1, r.2)

/-- Pieces written at their homes. A sector in error takes only a write that covers it (R250). A sector that the core's own L1 holds
is updated with it, so that the core's later loads see its own writes (R227, R274, R395). -/
def writeKeys (core : Nat) : List (Nat × Nat × Nat) → List Byte → State → State
  | [], _, s => s
  | (key, e, n) :: rest, bs, s =>
    let s1 := storeAt s key e (pteEvp e) (bs.take n)
    writeKeys core rest (bs.drop n) (if inError s key && n < 64 then s1 else l1Update s1 core key (bs.take n))

/-- A range of virtual addresses written at its homes, or the fault that stops it before any byte is written, with the state in which
a denial is logged and counted (R457, R460). -/
def writeVa (s : State) (core asid : Nat) (priv : Bool) (va : Nat) (bs : List Byte) : Except (Cause × State) State :=
  (xlateAll core asid priv .write (pieces va bs.length) s).map fun r => writeKeys core r.1 bs r.2

/-- A range of virtual addresses read at its homes. Data in error stops it; where a thread consumes it, or a command processor, it is
logged (R250, R462). -/
def readBytes (consume : Bool) (s : State) (core asid : Nat) (priv : Bool) (va n : Nat) : Except (Cause × State) (List Byte × State) :=
  match xlateAll core asid priv .read (pieces va n) s with
  | .error f => .error f
  | .ok (ks, s1) => match ks.find? fun k => inError s1 k.1 with
    | some k => .error (⟨cDATA_ERROR, 0⟩, if consume then logConsumed s1 k.1 asid else s1)
    | none => .ok (ks.flatMap fun k => memRead s1.mem k.1 k.2.2, ks.foldl (fun st k => touchRead st k.1 k.2.1 (pteEvp k.2.1)) s1)

/-- A range read by a thread or a command processor. -/
def readVa (s : State) (core asid : Nat) (priv : Bool) (va n : Nat) : Except (Cause × State) (List Byte × State) :=
  readBytes true s core asid priv va n

/-- A range read by a merge unit, or by a core for itself, whose errors are reported otherwise (R251). -/
def readRaw (s : State) (core asid : Nat) (priv : Bool) (va n : Nat) : Except (Cause × State) (List Byte × State) :=
  readBytes false s core asid priv va n

/-- The first of some pieces that faults. -/
def faultPiece (s : State) (core asid : Nat) (priv : Bool) (need : AccessNeed) (ps : List (Nat × Nat)) (va : Nat) : W64 :=
  BitVec.ofNat 64 (((ps.find? fun p => match (xlate s core asid priv need p.1).1 with
    | .ok key e => heldUp s key e || (need == .read && inError s key)
    | _ => true).map Prod.fst).getD va)

/-- The address that a read or write of a range faults at: its first piece that faults. -/
def faultAddr (s : State) (core asid : Nat) (priv : Bool) (need : AccessNeed) (va n : Nat) : W64 :=
  faultPiece s core asid priv need (pieces va n) va

/-- Outstanding memory accesses of a group (R327). -/
def pendOf (s : State) (g : GRef) : List (Nat × Access) := s.pend.filter fun a => a.2.g = g
/-- A cairn of a group's round is on its way; an ordered one goes alone (R311, R317). -/
def roundOut (s : State) (g : GRef) : Bool := s.cairns.any fun c => c.2.g == g && !c.2.ordered
/-- A group with no outstanding access and no cairn (R395). -/
def drained (s : State) (g : GRef) : Bool :=
  (s.pend.all fun a => a.2.g ≠ g) && (s.cairns.all fun c => c.2.g ≠ g)

/-- A transaction holds entries that were translated under an ASID, or under any. -/
def Tx.uses (x : Tx) (asid : Option (BitVec 12)) : Bool :=
  let of_ (y : BitVec 12) : Bool := asid.all fun a => a == y
  (x.rd.any fun e => of_ e.asid) || x.wr.any fun e => of_ e.asid

/-- A lane parked at a TLBI of the scalar unit, which aborts the lane's transaction when it executes (R304, R343). -/
def atQuiet (t : Thread) : Bool :=
  match t.park with
  | some (.quiet _) => true
  | _ => false

/-- Nothing of an ASID, or of any, is in progress that may use a cached translation (R269): no outstanding access, no cairn, and no
logged transaction that holds entries, which its commit is to read again or to perform; an ordered one does not count, since its
turn may wait for the thread that asks (R317), and neither does one that a TLBI is to abort. -/
def moduleQuiet (s : State) (asid : Option (BitVec 12)) : Bool :=
  (s.pend.all fun a => !(asid.all fun x => x == a.2.asid)) &&
  (s.cairns.all fun c => c.2.lanes.all fun l => !(((s.lane? c.2.g l).bind Thread.tx).any fun x => x.uses asid)) &&
  s.teams.all fun t => t.2.groups.all fun g => g.lanes.all fun l =>
    match l.tx with
    | some x => x.mode == .irrevocable || x.mode == .ordered || atQuiet l || !x.uses asid
    | none => true

/-- Writes that complete a parked word in one lane: v-registers, a predicate and an s-register. -/
structure Wake where
  v : List (Nat × W32)
  p : Option (Nat × Bool)
  s : Option (Nat × W64)
deriving DecidableEq, Repr

def Thread.applyWake (t : Thread) (w : Wake) : Thread :=
  let t1 := w.v.foldl (fun x e => x.setV e.1 e.2) t
  match w.p with
  | some (p, b) => t1.setP p b
  | none => t1

/-- What a lane is parked on: the record its group's handler keeps (`true`) and its own. -/
def parksOf (gr : Group) (l : Nat) : List (Bool × Park) :=
  (match (gr.handler.map fun h => h.parks.getD l none).getD none with
    | some p => [(true, p)]
    | none => []) ++
  match (gr.lane? l).bind Thread.park with
  | some p => [(false, p)]
  | none => []

/-- A parked thread completes its word: at once, or where its group runs a handler, at the handler's ERET (R216). -/
def wakeLane (s : State) (g : GRef) (l : Nat) (kept : Bool) (w : Wake) : State :=
  s.modGroup g fun gr =>
    if kept then
      { gr with handler := gr.handler.map fun h => { h with parks := setNth h.parks l (some (.wake w.v w.p w.s)) } }
    else
      let gr1 := gr.modLane l fun t => { t.applyWake w with park := none, pc := t.pc + 8 }
      match w.s with
      | some (r, x) => gr1.setS r x
      | none => gr1

/-- Every group of the machine with its team's number. -/
def State.groupRefs (s : State) : List GRef :=
  s.teams.flatMap fun t => (List.range t.2.groups.length).map fun i => ⟨t.1, i⟩

/-- Every parked lane of a group whose record satisfies a test completes its word. -/
def wakeGroup (s : State) (g : GRef) (p : Park → Bool) (w : Wake) : State :=
  match s.group? g with
  | none => s
  | some gr => (List.range 32).foldl (fun st l =>
      (parksOf gr l).foldl (fun st' k => if p k.2 then wakeLane st' g l k.1 w else st') st) s

/-- Every parked lane of the machine whose record satisfies a test completes its word. -/
def wakeWhere (s : State) (p : GRef → Park → Bool) (w : Wake) : State :=
  s.groupRefs.foldl (fun st g => wakeGroup st g (p g) w) s

/-- A transaction's status word (R307). -/
def txStatus (code sub : Nat) : BitVec 16 := BitVec.ofNat 16 (sub % 256 * 256 + code % 256)

/-- The hold count after the `n`-th consecutive abort (R314). -/
def holdAfter (n : Nat) : Nat := if 4 ≤ n then 7 else 2 ^ (n - 1) - 1

/-- An abort (R306): logs discarded, controls restored, status written, PC at the abort PC, counts raised. -/
def Thread.abort (t : Thread) (code sub : Nat) : Thread :=
  match t.tx with
  | none => t
  | some x =>
    let n := if t.txlog.aborts < 255 then t.txlog.aborts + 1 else 255
    let ordered := x.mode == .ordered
    let t1 := t.setV x.d.toNat ((txStatus code sub).setWidth 32)
    { t1 with
      pc := x.abortPc, fpctl := x.fpctl, fpflags := x.fpflags, tx := none, park := none
      txlog := { t.txlog with
        aborts := n, last := txStatus code sub
        hold := if ordered then 0 else holdAfter n
        overflowed := ordered && (code == 4 || code == 5) } }

/-- A transaction begun (R300). -/
def Thread.begin (t : Thread) (mode : TxMode) (d : Reg) (pc : W64) : Thread :=
  { t.setV d.toNat 0 with
    tx := some { mode := mode, rd := [], wr := [], abortPc := pc + 8, d := d, fpctl := t.fpctl, fpflags := t.fpflags, issues := 0 } }

/-- A lane held at TXBEGIN. -/
def Thread.held (t : Thread) : Bool :=
  match t.park with
  | some (.hold _ _) => true
  | _ => false

/-- A lane held at TXBEGIN begins once its hold count is 0 (R314). -/
def Thread.beginHeld (t : Thread) : Thread :=
  match t.park with
  | some (.hold m d) => if t.txlog.hold = 0 then { t.begin m d t.pc with park := none, pc := t.pc + 8 } else t
  | _ => t

/-- Rounds without the lane lower its hold count; a held lane begins when it reaches 0 (R314). -/
def Thread.lowerHold (t : Thread) (n : Nat) : Thread :=
  if t.txlog.hold = 0 then t else Thread.beginHeld { t with txlog := { t.txlog with hold := t.txlog.hold - n } }

/-- The greatest hold count among the lanes held at TXBEGIN. -/
def heldMax (ls : List Thread) : Nat :=
  ls.foldl (fun m t => if t.held ∧ m < t.txlog.hold then t.txlog.hold else m) 0

/-- The empty rounds of R314: with no lane in a transaction and lanes held, the hold counts of the held lanes fall until none is
held. A transaction that stands suspended while the group's handler runs counts (R318). -/
def Group.emptyRounds (gr : Group) : Group :=
  if gr.lanes.all (fun t => t.tx.isNone) && (gr.handler.all fun h => h.txs.all Option.isNone) && 0 < heldMax gr.lanes then
    { gr with lanes := gr.lanes.map fun t => if t.held then t.lowerHold (heldMax gr.lanes) else t }
  else gr

/-- The lanes of a group that is on its core again, or whose round has ended: those held at TXBEGIN begin where nothing holds
them any more, and empty rounds follow (R314, R344). -/
def Group.letBegin (gr : Group) : Group := Group.emptyRounds { gr with lanes := gr.lanes.map Thread.beginHeld }

/-- A group's hold rules act while its team runs: one that is being saved, or is saved, begins nothing (R322, R412). -/
def whileRunning (s : State) (g : GRef) (f : Group → Group) : State :=
  if ((s.team? g.team).map fun t => t.resident && !t.saving).getD false then s.modGroup g f else s

/-- One lane's abort alone. -/
def dropLane (s : State) (g : GRef) (l code sub : Nat) : State :=
  (s.modGroup g fun gr => { gr.modLane l fun t => t.abort code sub with ordered := gr.ordered &&& ~~~(1#32 <<< l) }).countCore
    (((s.team? g.team).map Team.core).getD 0) 0x09 1

/-- One lane aborts. -/
def abortLane (s : State) (g : GRef) (l code sub : Nat) : State := whileRunning (dropLane s g l code sub) g Group.emptyRounds

/-- The lanes of a group in a logged transaction. -/
def loggedLanes (s : State) (g : GRef) : List Nat := (List.range 32).filter fun l => s.inLogged g l

/-- The core in whose name the merge units and command processors access memory: a core of no die. -/
def unitCore : Nat := 4096

/-- The open domains that satisfy a test close (R315): their registers are freed and their generations rise. -/
def closeWhere (s : State) (p : Domain → Bool) : State :=
  s.setDies (s.dies.map fun d => (d.1, { d.2 with slices := d.2.slices.map fun x =>
    (x.1, { x.2 with domains := x.2.domains.map fun m =>
      if m.2.isOpen && p m.2 then
        (m.1, { m.2 with isOpen := false, gen := if (m.2.gen + 1) % 2 ^ 32 = 0 then 1 else (m.2.gen + 1) % 2 ^ 32 })
      else m }) }))

/-- Domains that a task, a handler or a merge group opened close with it. -/
def closeDomains (s : State) (team : Nat) : State := closeWhere s fun d => d.grid.isNone && d.owner.team == team
/-- Domains that a grid's teams opened close with the grid. -/
def closeGridDomains (s : State) (grid : Nat) : State := closeWhere s fun d => d.grid == some grid

/-- A team's slot is freed, with everything R149 gave it (R166). -/
def freeTeam (s : State) (team : Nat) : State :=
  match s.team? team with
  | none => s
  | some t =>
    let s0 := if t.resident then s
      else s.setCtxs (amMod s.ctxs t.ctx fun c => { c with saves := c.saves.filter fun x => x.1 ≠ team })
    let s1 := s0.setTeams (amDel s.teams team)
    let s2 := s1.setMons (s1.mons.filter fun m => m.2.g.team ≠ team)
    match t.kind with
    | .grid => s2.setGrids (amMod s2.grids t.grid fun g => { g with endCore := t.core, tail := g.tail.filter fun x => x ≠ team })
    | .merge => (closeDomains s2 team).modCore t.core fun c => { c with mergeTeam := c.mergeTeam.filter fun x => x ≠ team }
    | _ => closeDomains s2 team

/-- The groups of a team have all retired, and none was unretired by a fault (R165). -/
def Team.quiet (t : Team) : Bool := t.groups.all fun g => g.retired && g.held.isEmpty && g.handler.isNone && g.pendTrap.isNone

/-- An ended team's slot is freed once its engine operations and accesses have ended (R375, R411). -/
def reapTeam (s : State) (team : Nat) : State :=
  match s.team? team with
  | none => s
  | some t =>
    if t.phase = .ended ∧ (s.ops.all fun o => o.2.g.team ≠ team) ∧ (s.pend.all fun a => a.2.g.team ≠ team) then
      freeTeam s team
    else s

/-- A finished team's slot is freed once its groups have retired and hold no fault; a group that runs its handler
keeps it until its ERET (R165, R166, R178). An ended team's waits for its operations (R411). -/
def letGo (s : State) (team : Nat) : State :=
  match s.team? team with
  | none => s
  | some t =>
    if t.phase = .ended then reapTeam s team
    else if t.quiet then freeTeam s team
    else s.putTeam team { t with parent := none, phase := .leaving }

/-- The write entries of a cairn's lanes in a sector, in the serial order of R309: the last winner's first. -/
def cairnEntries (s : State) (c : Cairn) (sec : Nat) : List WrEnt :=
  c.lanes.reverse.flatMap fun l => match (s.lane? c.g l).bind Thread.tx with
    | some x => x.wr.filter fun e => e.key / 64 == sec
    | none => []

/-- A sector's bytes after buffered writes. -/
def withEntries (sec : Nat) (es : List WrEnt) (bs : List Byte) : List Byte :=
  es.foldl (fun b e => maskBytes b (List.replicate (e.key - sec * 64) 0#8 ++ toBytes 8 e.data.toNat ++ List.replicate 64 0#8)
    fun i => e.key - sec * 64 ≤ i && i < e.key - sec * 64 + 8 && bit e.mask.toNat (i - (e.key - sec * 64))) bs

/-- The second pass at one sector (R311): one write, with one new stamp, partial where not every byte is written (R230). A sector in
error keeps its error unless every byte is written (R250). DESIGN CHOICE (log 138): the write carries the class and LU of the last of
the stores it is made of, and the line those of its later sector, where stores of different ones meet. -/
def cairnSector (c : Cairn) (s : State) (sec : Nat) : State :=
  match cairnEntries s c sec with
  | [] => s
  | e :: es =>
    let full : Bool := (withEntries sec (e :: es) (List.replicate 64 0#8)) == withEntries sec (e :: es) (List.replicate 64 1#8)
    let last := (e :: es).getLast?.getD e
    if inError s (sec * 64) && !full then report s (.sector sec)
    else
      let bs := withEntries sec (e :: es) (sectorBytes s sec)
      let s1 := if full then storeAt s (sec * 64) e.e last.cls bs else writeCover s (sec * 64) e.e last.cls 8 bs
      if last.lu then markFirst s1 (sec * 64) else s1

/-- The second pass at one line: its writes, then its unlock (R311). -/
def cairnLine (c : Cairn) (s : State) (line : Nat) : State :=
  let s1 := cairnSector c (cairnSector c s (2 * line)) (2 * line + 1)
  s1.setLocks (amDel s1.locks line)

/-- The cairns of a team that ends: one that is past its commit instant performs the rest of its writes; the others are
given up (R311, R322, R411). -/
def endCairns (s : State) (team : Nat) : State :=
  let s1 := (s.cairns.filter fun c => c.2.g.team = team && c.2.passed).foldl (fun st c =>
    c.2.todo.foldl (cairnLine c.2) st) s
  let s2 := s1.setCairns (s1.cairns.filter fun c => c.2.g.team ≠ team)
  s2.setLocks (s2.locks.filter fun l => amHas s2.cairns l.2)

/-- Everything of a team stops (R375, R411): its threads end, its cairns are ended, its engine operations are cancelled, its monitors
go, and the open rounds of its collectives end BROKEN. -/
def stopTeam (s : State) (team : Nat) : State :=
  match s.team? team with
  | none => s
  | some t =>
    let s1 := (endCairns s team).putTeam team { t with
      phase := .ended
      groups := t.groups.map fun g => { g with
        retired := true, handler := none, held := [], pendTrap := none
        lanes := g.lanes.map fun l => { l with exited := true, park := none, tx := none } } }
    let s2 := s1.setOps (s1.ops.map fun o => if o.2.g.team = team then (o.1, { o.2 with cancelled := true }) else o)
    let s3 := s2.setMons (s2.mons.filter fun m => m.2.g.team ≠ team)
    s3.setRounds (s3.rounds.map fun r =>
      if r.2.contribs.any (fun c => c.g.team = team) && r.2.result.isNone then
        (r.1, { r.2 with result := some (2, []) }) else r)

/-- A merge group ends before its time: its slot is freed once its operations and accesses have ended (R179, R181, R411). -/
def endMerge (s : State) (team : Nat) : State := reapTeam (stopTeam s team) team

/-- The merge group that works for a frame ends (R179, R181). -/
def dropMerge (s : State) (f : Nat) : State :=
  ((s.teams.filter fun t => (t.2.work.map MergeWork.frame) == some f && t.2.phase != .ended).map Prod.fst).foldl endMerge s

/-- The header of a frame as its merge unit writes it (R175). -/
def frameHeader (f : Frame) : List Byte :=
  toBytes 4 f.nchild ++ toBytes 4 f.cursor ++ toBytes 1 (if f.broken then 3 else 2) ++ toBytes 1 f.cause ++ toBytes 2 0 ++
  toBytes 4 f.ownerWord.toNat ++ toBytes 8 f.views.toNat

/-- The merge of a child in progress ends with a break; an application goes on. -/
def keepApply (j : Option MergeJob) : Option MergeJob :=
  match j with
  | some x => if x.src = .apply then j else none
  | none => none

/-- The merge unit writes a frame's header to memory (R181). It waits while a line of it is locked; where the write faults it is still
to be made, and until then the header that the merge unit holds is the one that counts. DESIGN CHOICE (log 139). -/
def tellFrame (s : State) (f : Nat) : State :=
  match amGet s.frames f with
  | none => s
  | some fr => match writeVa s unitCore fr.asid.toNat false fr.va.toNat (frameHeader fr) with
    | .ok s1 => s1.setFrames (amMod s1.frames f fun x => { x with told := true })
    | .error (c, s1) => if c.cause = 0 then s else s1

/-- A frame broken with its first cause (R181): children that have finished advance CURSOR without merging, and the
merge unit writes the header to memory. -/
def breakFrame (s : State) (f cause : Nat) : State :=
  match amGet s.frames f with
  | none => s
  | some fr =>
    let fr1 := { fr with
      broken := true, cause := if fr.broken then fr.cause else cause, told := false
      cursor := fr.cursor + fr.waiting.length + fr.slots.length
      waiting := [], slots := [], job := keepApply fr.job, parks := [], runner := none }
    let s1 := if keepApply fr.job = none then dropMerge s f else s
    tellFrame ((fr.waiting.map Prod.snd ++ fr.runner.toList).foldl letGo (s1.setFrames (amPut s1.frames f fr1))) f

/-- A child of a frame has ended without finishing: the frame breaks, and CURSOR counts the child once (R181). -/
def breakParent (s : State) (team f cause : Nat) : State :=
  let counted : Bool := match amGet s.frames f with
    | some fr => (fr.waiting.any fun w => w.2 = team) || fr.runner == some team
    | none => true
  let s1 := breakFrame s f cause
  if counted then s1 else s1.setFrames (amMod s1.frames f fun fr => { fr with cursor := fr.cursor + 1 })

/-- The frames a team owns break with its end; nothing is applied from them (R411). -/
def breakOwned (s : State) (team cause : Nat) : State :=
  ((s.frames.filter fun f => (f.2.owner.map GRef.team) == some team).map Prod.fst).foldl (fun st f =>
    let x := breakFrame (dropMerge st f) f cause
    x.setFrames (amMod x.frames f fun fr => { fr with job := none, parks := [], sync := none })) s

/-- The stake-table slot of a core (R184, R187). -/
def stakeSlot (s : State) (core slot : Nat) : StakeSlot := amGetD (s.core core).stakes slot ⟨1, none⟩
def putStake (s : State) (core slot : Nat) (x : StakeSlot) : State :=
  s.modCore core fun c => { c with stakes := amPut c.stakes slot x }

/-- The fields of a stake (R187). -/
def stakeDevice (x : W64) : Nat := field x.toNat 56 8
def stakeDie (x : W64) : Nat := field x.toNat 52 4
/-- The issuing core by its global number. -/
def stakeCore (x : W64) : Nat := stakeDie x * 32 + field x.toNat 47 5
def stakeSlotNo (x : W64) : Nat := field x.toNat 35 12
def stakeGen (x : W64) : Nat := field x.toNat 0 35
/-- The stake that a core issues for a slot and generation (R187). -/
def stakeWord (device core slot gen : Nat) : W64 :=
  BitVec.ofNat 64 (device * 2 ^ 56 + core / 32 * 2 ^ 52 + core % 32 * 2 ^ 47 + slot * 2 ^ 35 + gen)

/-- An enabled core of a compute die that has been admitted (R424, R430). -/
def coreEnabled (s : State) (core : Nat) : Bool :=
  core / 32 < 8 && (s.die (core / 32)).st != .off && core % 32 < (s.die (core / 32)).built.length

/-- The number under which this device keeps what it holds of the stakes of a peer's core: their handlers run here, or their
results stand here (R430, R431). -/
def foreignCore (x : W64) : Nat := 131072 + x.toNat / 2 ^ 47
/-- The core at which this device looks a stake up. -/
def entryCore (s : State) (x : W64) : Nat := if stakeDevice x = s.sys.device then stakeCore x else foreignCore x
/-- The stake of a slot of a core, which may be a peer's. -/
def stakeAt (s : State) (core slot gen : Nat) : W64 :=
  if core < 131072 then stakeWord s.sys.device core slot gen
  else stakeWord ((core - 131072) / 512) ((core - 131072) % 512) slot gen

/-- A peer is told (R431, R432). -/
def tellPeer (s : State) (dev : Nat) (x : PeerNote) : State := s.setSys { s.sys with stakeOut := s.sys.stakeOut ++ [(dev, x)] }
/-- The peer that issued a stake learns its state (R431, R432). -/
def announce (s : State) (core slot : Nat) (st : StakeSt) : State :=
  if core < 131072 then s
  else tellPeer s ((core - 131072) / 512) (.settled (stakeAt s core slot (stakeSlot s core slot).gen) st)

/-- What the resolution entry of a stake holds (R189): nothing where its generation differs. -/
def entryOf (s : State) (x : W64) : Option (Option (Nat × Nat) × StakeSt) :=
  let sl := stakeSlot s (entryCore s x) (stakeSlotNo x)
  if sl.gen ≠ stakeGen x then none
  else match sl.use with
    | some (.resolution placed st _ _) => some (placed, st)
    | _ => none

/-- A message that takes one of the eight places of an entry (R189). -/
def queueable (k : MsgKind) : Bool :=
  match k with
  | .await _ _ | .remote _ _ false | .invoke _ | .drop => true
  | _ => false

/-- The queue of an entry that is not yet placed is full, the messages on their way to it counted (R189). -/
def stakeFull (s : State) (x : W64) : Bool :=
  match entryOf s x with
  | some (none, .pending) => 8 ≤ (s.msgs.filter fun m => m.2.stake = x && queueable m.2.kind).length
  | _ => false

/-- The generation after a DROP (R187). -/
def genNext (g : Nat) : Nat := if (g + 1) % 2 ^ 35 = 0 then 1 else (g + 1) % 2 ^ 35

/-- The status word of a stake (R188). -/
def stakeStatus (st : StakeSt) : W64 :=
  match st with
  | .pending => 0
  | .fulfilled d => BitVec.ofNat 64 (d.length * 2 ^ 40 + 1)
  | .broken c t k => BitVec.ofNat 64 (t * 2 ^ 32 + k * 2 ^ 24 + c * 2 ^ 16 + 2)
def statusStale : W64 := 3

/-- The result registers of an AWAIT or POLL (R212): the status pair, then `m` words of the result or zeros. DESIGN CHOICE
(log 114): R212 gives the two writes no order; where the run contains a register of the status pair, the run's word stays. -/
def answerWake (d c : Reg) (m : Nat) (status : W64) (data : List Byte) : Wake :=
  let x := status.toNat
  { v := [(d.toNat, BitVec.ofNat 32 x), (d.toNat + 1, BitVec.ofNat 32 (x / 2 ^ 32))] ++
      (List.range m).map fun i => (c.toNat + i, BitVec.ofNat 32 (ofBytes ((data.drop (4 * i)).take 4)))
    p := none, s := none }

/-- A message is answered: the thread that waits for it completes its AWAIT or POLL (R212); FULFILLED is an acquire
(R292). -/
def answerMsg (s : State) (msg : Nat) (g : GRef) (lane : Nat) (status : W64) (data : List Byte) : State :=
  let s0 := s.setMsgs (amDel s.msgs msg)
  let s1 := if status.toNat % 4 = 1 then l1Clear s0 (((s0.team? g.team).map Team.core).getD 0) else s0
  (((s.group? g).map fun gr => parksOf gr lane).getD []).foldl (fun st k =>
    match k.2 with
    | .answer n d c m => if n = msg then wakeLane st g lane k.1 (answerWake d c m status data) else st
    | _ => st) s1

/-- A peer device in the place of a result core (R431). -/
def peerCore (dev : Nat) : Nat := 65536 + dev

/-- An invocation let through to the result core of a fulfilled stake, or to the peer that keeps the result (R190, R431). -/
def letThrough (s : State) (inv core : Nat) (d : List Byte) : State :=
  if core < 65536 then
    let n := s.newId
    n.2.setInvs (amMod n.2.invs inv fun i => { i with core := some core, die := core / 32, arrived := some n.1, pred := some d, since := s.time.datum })
  else s.setInvs (amMod s.invs inv fun i => { i with core := none, die := 8, device := some (core - 65536), pred := some d })

/-- Whatever a stake's settlement does to one message that waited for it (R189, R191). An invocation that waited on a
fulfilled stake is let through to the result core; on a broken one its own stake is to break: it is returned. -/
def settleMsg (s : State) (st : StakeSt) (stale : Bool) (rcore : Option Nat) (msg : Nat) : State × List Nat :=
  match amGet s.msgs msg with
  | none => (s, [])
  | some m =>
    match m.kind with
    | .await g l => (answerMsg s msg g l (if stale then statusStale else stakeStatus st)
        (match st with | .fulfilled d => if stale then [] else d | _ => []), [])
    | .poll g l => (answerMsg s msg g l (if stale then statusStale else stakeStatus st)
        (match st with | .fulfilled d => if stale then [] else d | _ => []), [])
    | .remote dev tag _ => (tellPeer (s.setMsgs (amDel s.msgs msg)) dev (.answer tag (if stale then statusStale else stakeStatus st)
        (match st with | .fulfilled d => if stale then [] else d | _ => [])), [])
    | .drop => (s.setMsgs (amDel s.msgs msg), [])
    | .place _ => (s, [])
    | .arrival _ _ _ _ => (s, [])
    | .invoke inv =>
      let s1 := s.setMsgs (amDel s.msgs msg)
      match st, stale, rcore with
      | .fulfilled d, false, some c => (letThrough s1 inv c d, [])
      | _, _, _ => (s1, [inv])

/-- The state with which the new stake of an invocation breaks (R191). -/
def chainState (st : StakeSt) (stale : Bool) : StakeSt :=
  if stale then .broken 0x64 0 0
  else match st with
    | .broken c t k => .broken 0x64 t (if c = 0x64 then k else c)
    | _ => .broken 0x64 0 0

/-- A stake settles at its resolution entry; every message that waited is answered or forwarded, and breakage goes
down the chains (R191, R192). `fuel` bounds the chain by the number of invocations. -/
def settleStake : Nat → State → Nat → Nat → StakeSt → State
  | 0, s, _, _, _ => s
  | fuel + 1, s, core, slot, st =>
    let sl := stakeSlot s core slot
    match sl.use with
    | some (.resolution placed .pending queue dropped) =>
      let waiting := match placed with
        | some (rc, rs) => match (stakeSlot s rc rs).use with
          | some (.result _ _ w) => w
          | _ => []
        | none => []
      let s1 := if dropped then
          match placed with
          | some (rc, rs) => putStake (putStake s core slot { sl with use := none }) rc rs { stakeSlot s rc rs with use := none }
          | none => putStake s core slot { sl with use := none }
        else
          let s' := putStake s core slot { sl with use := some (.resolution placed st [] false) }
          match placed with
          | some (rc, rs) => putStake s' rc rs { stakeSlot s' rc rs with use := some (.result core slot []) }
          | none => s'
      let r := (queue ++ waiting).foldl (fun acc m =>
        let x := settleMsg acc.1 st dropped (placed.map Prod.fst) m
        (x.1, acc.2 ++ x.2)) (announce s1 core slot st, [])
      r.2.foldl (fun acc inv =>
        match amGet acc.invs inv with
        | some i => settleStake fuel (acc.setInvs (amDel acc.invs inv)) i.issuer i.slot (chainState st dropped)
        | none => acc) r.1
    | _ => s

/-- A stake settles. -/
def settle (s : State) (core slot : Nat) (st : StakeSt) : State :=
  settleStake (s.invs.length + 2) s core slot st

/-- The launch status recorded for a grid: the lowest nonzero value (R441). -/
def gridStatus (s : State) (grid status detail : Nat) : State :=
  s.setGrids (amMod s.grids grid fun g =>
    if g.status = 0 ∨ status < g.status then { g with status := status, detail := detail } else g)

/-- A team is ended by HALT, a fatal trap or the loss of its core (R411, R449): `fcause` breaks its frames, `scause`
and `trapc` its stake. -/
def endTeam (s : State) (team fcause scause trapc : Nat) : State :=
  match s.team? team with
  | none => s
  | some t =>
    let s1 := stopTeam s team
    let s2 := match t.parent with
      | some (f, _) => breakParent s1 team f fcause
      | none => s1
    let s3 := breakOwned s2 team fcause
    let s4 := match t.inv with
      | some h => if h.settled then s3 else settle s3 h.issuer h.slot (.broken scause trapc 0)
      | none => s3
    reapTeam s4 team

/-- HALT and fatal traps: the merge group's HALT ends the requesting team (R402, R410). -/
def haltTeam (s : State) (team cause : Nat) : State :=
  match s.team? team with
  | none => s
  | some t =>
    match t.work with
    | some w => match w.owner with
      | some o => endTeam (endMerge s team) o cause 0x60 cause
      | none =>
        let s1 := breakFrame (endMerge s team) w.frame cause
        let s2 := match (amGet s1.frames w.frame).bind Frame.sync with
          | some (.grid g) => gridStatus s1 g 5 cause
          | _ => s1
        s2.setFrames (amMod s2.frames w.frame fun f => { f with job := none })
    | none => endTeam s team cause 0x60 cause

/-- The grid of the team that a HALT or a fatal trap in a team ends, where that is a grid team (R402, R405, R411). -/
def haltedGrid (s : State) (t : Team) : Option Nat :=
  match t.kind with
  | .grid => some t.grid
  | .merge => match (t.work.bind MergeWork.owner).bind fun o => s.team? o with
    | some o => if o.kind = .grid then some o.grid else none
    | none => none
  | _ => none

/-- A fatal trap ends the team (R405). -/
def fatalTrap (s : State) (g : GRef) (cause : Nat) : State :=
  match s.team? g.team with
  | none => s
  | some t =>
    let s1 := logEvent s (t.core / 32) (coreChannel s t.core) 3 t.asid.toNat cause 0
    let s2 := match haltedGrid s t with
      | some x => gridStatus s1 x 3 cause
      | none => s1
    haltTeam s2 g.team cause

/-- Everything of a context is ended: its resident and saved teams, and its tasks and invocations that were not yet
placed; the frames of its launches break. -/
def endContext (s : State) (ctx cause : Nat) : State :=
  let s1 := s.setDies (s.dies.map fun d => (d.1, { d.2 with pool := d.2.pool.filter fun k => k.ctx ≠ ctx }))
  let s2 := (s1.teams.filter fun t => t.2.ctx = ctx).foldl (fun st t => endTeam st t.1 cause 0x60 0) s1
  let s3 := (s2.invs.filter fun i => i.2.ctx = ctx).foldl (fun st i =>
    if amHas st.invs i.1 then settle (st.setInvs (amDel st.invs i.1)) i.2.issuer i.2.slot (.broken 0x60 0 0) else st) s2
  (s3.frames.filter fun f => f.2.ctx = ctx && f.2.owner.isNone).foldl (fun st f => breakFrame st f.1 cause) s3

/-- A context-fatal error ends everything of a context, its launches with status DATA_LOSS (R251). -/
def contextFatal (s : State) (ctx : Nat) : State :=
  endContext (s.setGrids (s.grids.map fun g =>
    if g.2.ctx = ctx ∧ !g.2.done then (g.1, { g.2 with status := 2, detail := 0, nextTeam := g.2.teamCount, tail := [] }) else g))
    ctx cDATA_ERROR

/-- A fault that the core meets for a team where no thread can take it, in a trap frame or a save image, is context-fatal and logged
at the core (R251, R395, R409, R412, R462). -/
def teamFatal (s : State) (t : Team) (cause : Nat) : State :=
  contextFatal (logEvent s (t.core / 32) (coreChannel s t.core) 2 t.asid.toNat cause 0) t.ctx

/-- The address of a group's trap frame (R396). -/
def frameAddrOf (c : Ctx) (t : Team) (gr : Group) : W64 :=
  c.traparea + BitVec.ofNat 64 (2048 * (t.core * 128 + gr.slot))

/-- TRAPCAUSE (R399). -/
def causeWord (async : Bool) (sub2 sub cause : Nat) : W64 :=
  BitVec.ofNat 64 ((if async then 2 ^ 24 else 0) + sub2 % 256 * 2 ^ 16 + sub % 256 * 2 ^ 8 + cause % 256)

/-- One lane record of a trap frame (R397): resume PC, state and the saved registers. -/
def laneRecord (t : Thread) : List Byte :=
  toBytes 8 t.pc.toNat ++
  toBytes 1 (if t.exited then 2 else if t.park.isSome then 1 else 0) ++
  toBytes 1 t.p.toNat ++ toBytes 1 (if t.wait < 255 then t.wait else 255) ++ toBytes 5 0 ++
  toBytes 4 t.fpctl.toNat ++ toBytes 4 t.fpflags.toNat ++
  toBytes 16 (t.getRun 0 4) ++ toBytes 8 0

/-- A trap frame (R397). -/
def trapFrame (gr : Group) (cause pc addr fin seq : W64) : List Byte :=
  toBytes 8 cause.toNat ++ toBytes 8 pc.toNat ++ toBytes 8 addr.toNat ++ toBytes 8 fin.toNat ++ toBytes 8 seq.toNat ++
  toBytes 24 0 ++ ((List.range 8).flatMap fun i => toBytes 8 (gr.getS (56 + i)).toNat) ++
  gr.lanes.flatMap laneRecord ++ toBytes 384 0

/-- What a trap reports: TRAPCAUSE, TRAPPC, TRAPADDR, TRAPDONE, TRAPSEQ, and a merge fault's frame and MSTATE. -/
structure TrapInfo where
  cause : Nat
  sub : Nat
  sub2 : Nat
  async : Bool
  pc : W64
  addr : W64
  fin : W64
  seq : W64
  merge : Option (MergeRef × W64 × W64 × W64 × W64)
deriving DecidableEq, Repr

/-- What a trap frame saves of a lane's registers (R397). -/
def Thread.regs (t : Thread) : LaneRegs := ⟨t.p, t.fpctl, t.fpflags, t.getRun 0 4⟩

/-- A lane as the handler starts in it (R398); a transaction of the lane stays suspended in the record of the entry (R318). -/
def Thread.toHandler (t : Thread) (base : W64) : Thread :=
  { t with pc := base, p := 0, fpctl := 0, fpflags := 0, exited := false, park := none, wait := 0, tx := none }

/-- A group as it stands after trap entry (R395, R398): registers written, privileged, every lane at TRAPBASE. -/
def Group.enter (gr : Group) (frame : W64) (now : Nat) (i : TrapInfo) : Group :=
  let ctl := { gr.ctl with
    priv := true, cause := causeWord i.async i.sub2 i.sub i.cause, pc := i.pc, addr := i.addr, fin := i.fin
    seq := i.seq
    ms0 := (i.merge.map fun m => m.2.1).getD 0, ms1 := (i.merge.map fun m => m.2.2.1).getD 0
    ms2 := (i.merge.map fun m => m.2.2.2.1).getD 0, ms3 := (i.merge.map fun m => m.2.2.2.2).getD 0 }
  let gr1 := (List.range 8).foldl (fun x k => x.setS (56 + k) (if k = 0 then frame else 0)) gr
  { gr1 with
    ctl := ctl, retired := false, pendTrap := none
    handler := some ⟨frame, maskOf ((List.range 32).filter fun l => ((gr.lane? l).map Thread.exited).getD true),
      gr.lanes.map Thread.park, gr.lanes.map fun t => (t.pc, t.wait), gr.lanes.map Thread.regs, gr.lanes.map Thread.tx, now,
      i.merge.map Prod.fst, []⟩
    lanes := gr.lanes.map fun t => t.toHandler gr.ctl.trapbase }

/-- Taking a trap (R395, R398): logged transactions abort with FAULT, the frame is written, the trap registers and
the mode change, and the handler starts. A fault while the frame is written is context-fatal; it is not taken while the frame has to
wait (`frameLocked`). -/
def takeTrap (s : State) (g : GRef) (i : TrapInfo) : State :=
  let s0 := (loggedLanes s g).foldl (fun st l => dropLane st g l 7 i.cause) s
  match s0.team? g.team, s0.group? g with
  | some t, some gr =>
    match s0.ctxOf t with
    | none => s0
    | some c =>
      let va := frameAddrOf c t gr
      let frame := trapFrame gr (causeWord i.async i.sub2 i.sub i.cause) i.pc i.addr i.fin i.seq
      match writeVa s0 t.core gr.ctl.asid.toNat true va.toNat frame with
      | .error (f, s1) => if f.cause = 0 then s else teamFatal s1 t f.cause
      | .ok s1 => (s1.modGroup g fun x => x.enter va s0.time.datum i).countCore t.core 0x0C 1
  | _, _ => s0

/-- What makes an access wait at all: a locked line, a line that nothing may evict, or a start that has not reached stage 4 (R243,
R294, R452). -/
def mayWait (s : State) : Bool := s.locks != [] || s.ops != [] || s.pend != [] || s.sys.stage < 4

/-- A range has to wait before it can be read or written (R243, R294, R452). -/
def rangeWaits (s : State) (core asid : Nat) (priv : Bool) (need : AccessNeed) (va n : Nat) : Bool :=
  mayWait s && match xlateAll core asid priv need (pieces va n) s with
    | .error (c, _) => c.cause == 0
    | .ok _ => false

/-- The trap frame of a group has to wait before it can be written. -/
def frameLocked (s : State) (g : GRef) : Bool :=
  match s.team? g.team, s.group? g with
  | some t, some gr => match s.ctxOf t with
    | some c => rangeWaits s t.core gr.ctl.asid.toNat true .write (frameAddrOf c t gr).toNat 2048
    | none => false
  | _, _ => false

/-- A group that a trap can enter now: on its core, with nothing outstanding and its frame writable now (R294, R395). -/
def entryReady (s : State) (g : GRef) : Bool :=
  drained s g && ((s.team? g.team).map Team.resident).getD false && !frameLocked s g

/-- The information of a precise trap. -/
def TrapRec.info (r : TrapRec) : TrapInfo :=
  ⟨r.cause, r.sub, 0, false, r.pc, r.addr, r.issued ++ r.fin, 0, none⟩

/-- A precise trap is raised: fatal in the handler (R405); entered at once where nothing is outstanding, else once
the group has drained (R395). The group of a saved team enters it when its team is back on its core, where its frame stands
(R396, R415). -/
def raiseTrap (s : State) (g : GRef) (r : TrapRec) : State :=
  match s.group? g with
  | none => s
  | some gr =>
    if gr.handler.isSome then fatalTrap s g r.cause
    else if entryReady s g then takeTrap s g r.info
    else s.modGroup g fun x => { x with pendTrap := some r }

/-- One lane's failure in a word. -/
structure Bad where
  lane : Nat
  cause : Nat
  sub : Nat
  addr : W64
deriving DecidableEq, Repr

/-- A whole-word trap and the lanes that raise it (R394, R474). -/
structure Whole where
  cause : Nat
  sub : Nat
  addr : W64
  raisers : List Nat
deriving DecidableEq, Repr

/-- What the body of a word leaves: the state, the PCs of lanes that do not simply advance, the lanes whose PC the
body has settled (parked, exited or aborted), and the traps. -/
structure Res where
  st : State
  jump : AMap W64
  stay : List Nat
  bad : List Bad
  whole : Option Whole
deriving DecidableEq, Repr

/-- A body that only changed the state. -/
def Res.done (s : State) : Res := ⟨s, [], [], [], none⟩
/-- A body that trapped as a whole. -/
def Res.trap (s : State) (cause sub : Nat) (addr : W64) (raisers : List Nat) : Res :=
  ⟨s, [], [], [], some ⟨cause, sub, addr, raisers⟩⟩

/-- What a body may use: the state, the group and its team, the active and acting lanes and the word's PC; `s0` is the
state before the word's aborts. -/
structure Wd where
  s0 : State
  s : State
  g : GRef
  t : Team
  gr : Group
  active : List Nat
  acting : List Nat
  pc : W64
  defer : Bool

/-- The group of a word's PC after the word: every active lane that the body leaves to it advances by 8 or jumps. -/
def advance (s : State) (g : GRef) (pc : W64) (r : Res) (lanes : List Nat) : State :=
  s.modLanes g (lanes.filter fun l => !r.stay.contains l && !(r.bad.any fun b => b.lane = l))
    fun l t => { t with pc := (amGet r.jump l).getD (pc + 8) }

/-- Lanes of a word that stand parked after it: their part is not complete (R394). -/
def parkedIn (s : State) (g : GRef) (l : Nat) : Bool := ((s.lane? g l).map fun t => t.park.isSome).getD false

/-- The end of a word (R155, R305, R325, R394): PCs advance, then a trap is delivered, or turned into aborts where every
lane that raises it is in a logged transaction. DESIGN CHOICE (log 117): R305's abort is also taken where the group runs its
trap handler, though R405 calls any trap there fatal. Cause 0 is no trap: the word waits, as if it had not issued (R452). -/
def finish (w : Wd) (r : Res) : State :=
  if ((r.whole.map fun t => t.cause == 0).getD false) || r.bad.any fun b => b.cause == 0 then w.s0 else
  match r.whole with
  | some t =>
    if t.raisers ≠ [] ∧ t.raisers.all (fun l => w.s.inLogged w.g l) then
      t.raisers.foldl (fun st l => abortLane st w.g l 7 t.cause)
        (advance r.st w.g w.pc r (w.active.filter fun l => !t.raisers.contains l))
    else raiseTrap r.st w.g ⟨t.cause, t.sub, t.addr, w.pc, maskOf w.active, 0⟩
  | none =>
    let s1 := advance r.st w.g w.pc r w.active
    match r.bad with
    | [] => s1
    | b :: _ =>
      if r.bad.all (fun x => w.s.inLogged w.g x.lane) then
        r.bad.foldl (fun st x => abortLane st w.g x.lane 7 b.cause) s1
      else raiseTrap s1 w.g ⟨b.cause, b.sub, b.addr, w.pc, maskOf w.active,
        maskOf (w.active.filter fun l => !(r.bad.any fun x => x.lane = l) && !parkedIn s1 w.g l)⟩

/-- The guard of a word (R24). -/
def Instr.guard : Instr → Guard
  | .bra f | .call f => f.g
  | .brx f | .ret f => f.g
  | .exit g | .yield g | .nop g => g
  | .bpt f | .trap f => f.g
  | .movi f | .movh f => f.g
  | .iaddImm f | .isubImm f | .imulImm f | .iminImm f | .imaxImm f | .andImm f | .orImm f | .xorImm f
  | .shlImm f | .shrImm f | .sarImm f | .rotImm f | .faddImm f | .fsubImm f | .fmulImm f | .fminImm f
  | .fmaxImm f | .fminnImm f | .fmaxnImm f => f.g
  | .ld m _ | .st m _ | .lds m _ | .sts m _ | .ldr m _ | .ldMx m _ | .stMx m _ | .atom m _ | .atomv m _
  | .red m _ | .fence m _ _ => m.g
  | .preq m | .cctlLine m | .cctlAll m | .cctlIfetch m | .tlbiPage m | .tlbiAsid m | .tlbiAll m => m.g
  | .copy f | .copyMc f | .fill f | .mshape f | .mma f | .accld f | .accst f | .accz f | .waitc f | .monw f
  | .nred f | .nbar f => f.g
  | .eret f | .mfc f | .mtc f | .mtcPtbase f | .mtcAsid f | .halt f => f.g
  | i => match regInfo i with
    | some (_, f) => f.g
    | none => ⟨false, 7⟩

/-- The X bit of a word (R24). -/
def Instr.scalar : Instr → Bool
  | .movi f | .movh f => f.x
  | .iaddImm f | .isubImm f | .imulImm f | .iminImm f | .imaxImm f | .andImm f | .orImm f | .xorImm f
  | .shlImm f | .shrImm f | .sarImm f | .rotImm f | .faddImm f | .fsubImm f | .fmulImm f | .fminImm f
  | .fmaxImm f | .fminnImm f | .fmaxnImm f => f.x
  | .ld m _ | .st m _ | .lds m _ | .sts m _ | .ldr m _ | .ldMx m _ | .stMx m _ | .atom m _ | .atomv m _
  | .red m _ | .fence m _ _ => m.x
  | .preq m | .cctlLine m | .cctlAll m | .cctlIfetch m | .tlbiPage m | .tlbiAsid m | .tlbiAll m => m.x
  | .copy f | .copyMc f | .fill f | .mshape f | .mma f | .accld f | .accst f | .accz f | .waitc f | .monw f
  | .nred f | .nbar f => f.x
  | .eret f | .mfc f | .mtc f | .mtcPtbase f | .mtcAsid f | .halt f => f.x
  | i => match regInfo i with
    | some (_, f) => f.x
    | none => false

/-- A guard that holds in a thread (R27). -/
def Guard.holds (g : Guard) (t : Thread) : Bool := t.getP g.p.toNat != g.neg

/-- The lanes in which a word acts: per lane, or for the whole group by its lowest active lane (R27, R155, R156). -/
def actingLanes (gr : Group) (i : Instr) (active : List Nat) : List Nat :=
  let ok (l : Nat) : Bool := ((gr.lane? l).map (Guard.holds (Instr.guard i))).getD false
  if Instr.scalar i then
    match active with
    | l :: _ => if ok l then active else []
    | [] => []
  else active.filter ok

/-- Privileged words (R16). -/
def Instr.privileged : Instr → Bool
  | .tlbiPage _ | .tlbiAsid _ | .tlbiAll _ | .eret _ | .mfc _ | .mtc _ | .mtcPtbase _ | .mtcAsid _ | .halt _ => true
  | _ => false

/-- The major of a word of the first eight rows of R304's table, which a transaction may not issue. -/
def Instr.forbiddenMajor : Instr → Option Nat
  | .exit _ => some 0x05
  | .lds _ _ => some 0x62
  | .sts _ _ => some 0x63
  | .ldMx _ _ => some 0x66
  | .stMx _ _ => some 0x67
  | .fence _ _ _ | .cctlLine _ | .cctlAll _ | .cctlIfetch _ | .tlbiPage _ | .tlbiAsid _ | .tlbiAll _ => some 0x6B
  | .txbegin _ | .txbeginTs _ | .txbeginO _ => some 0x6C
  | .sdopen _ => some 0x6F
  | .barInit _ | .barArr _ | .barArrRmt _ | .barWait _ | .barSync _ => some 0x73
  | .spawn _ => some 0x74
  | .sync _ | .endt _ => some 0x75
  | .invokeCore _ | .invokeAny _ | .invokeStake _ | .invokeDie _ => some 0x76
  | .await _ | .poll _ | .fulfil _ | .brk _ | .drop _ => some 0x77
  | .copy _ | .copyMc _ | .fill _ => some 0x78
  | .mshape _ => some 0x79
  | .mma _ => some 0x7A
  | .accld _ | .accst _ | .accz _ => some 0x7B
  | .waitc _ | .monw _ => some 0x7C
  | .nred _ | .nbar _ => some 0x7D
  | .eret _ | .mfc _ | .mtc _ | .mtcPtbase _ | .mtcAsid _ | .halt _ => some 0x7E
  | _ => none

/-- The major of a memory word, whose scalar form aborts transactions (R304). -/
def Instr.memMajor : Instr → Option Nat
  | .ld _ _ => some 0x60
  | .st _ _ => some 0x61
  | .lds _ _ => some 0x62
  | .sts _ _ => some 0x63
  | .ldr _ _ => some 0x64
  | .preq _ => some 0x65
  | .atom _ _ => some 0x68
  | .atomv _ _ => some 0x69
  | .red _ _ => some 0x6A
  | .fence _ _ _ | .cctlLine _ | .cctlAll _ | .cctlIfetch _ | .tlbiPage _ | .tlbiAsid _ | .tlbiAll _ => some 0x6B
  | _ => none

/-- The release part of an order (R283). -/
def Order.rels (o : Order) : Bool := o == .rel || o == .ar
def Order.acqs (o : Order) : Bool := o == .acq || o == .ar

/-- An outstanding access that reads: a fence's acquire part orders what it returns (R285). -/
def AccKind.reads (k : AccKind) : Bool :=
  match k with
  | .load _ _ _ _ => true
  | .atom _ _ _ _ _ _ => true
  | _ => false

/-- Which of the group's outstanding accesses a word waits for at its issue. A release, or what acts as one, waits for every
one (R205, R207, R209, R211, R290, R292, R295, R356, R409, R446), an acquire fence for what reads (R285), CCTL.IFETCH for stores
(R341), EXIT for those that are not counted in rem (R132, R352); every other word waits for none (R327). -/
def Instr.drains (i : Instr) (a : Access) : Bool :=
  match i with
  | .st _ k => Order.rels k.order
  | .sts _ k => Order.rels k.order
  | .stMx _ k => Order.rels k.order
  | .atom _ k => Order.rels k.order
  | .atomv _ k => Order.rels k.order
  | .red _ k => Order.rels k.order
  | .fence _ o _ => Order.rels o || AccKind.reads a.kind
  | .exit _ => !a.remote && !(match a.kind with | .load _ _ _ _ => true | _ => false)
  | .cctlIfetch _ => !(match a.kind with | .load _ _ _ _ => true | _ => false)
  | .txcommit _ | .barArr _ | .barArrRmt _ | .barSync _ | .spawn _ | .endt _ => true
  | .invokeCore _ | .invokeAny _ | .invokeStake _ | .invokeDie _ | .fulfil _ => true
  | .copy _ | .copyMc _ | .fill _ | .accld _ | .accst _ | .nred _ | .nbar _ | .eret _ => true
  | _ => false

/-- Every run of s-registers a word names (R327, R446). -/
def sregsOf : Instr → List (Nat × Nat)
  | .movi f | .movh f => if f.x then [(f.d.toNat, 1)] else []
  | .iaddImm f | .isubImm f | .imulImm f | .iminImm f | .imaxImm f | .andImm f | .orImm f | .xorImm f
  | .shlImm f | .shrImm f | .sarImm f | .rotImm f | .faddImm f | .fsubImm f | .fmulImm f | .fminImm f
  | .fmaxImm f | .fminnImm f | .fmaxnImm f => if f.x then [(f.d.toNat, 1), (f.a.toNat, 1)] else []
  | .brx f | .ret f => if f.bs then [(f.b.toNat, 1)] else []
  | .ld m _ | .st m _ | .lds m _ | .sts m _ | .ldr m _ | .ldMx m _ | .stMx m _ | .atom m _ | .atomv m _ | .red m _
  | .fence m _ _ => (m.a.toNat, 2) :: if m.x then [(m.d.toNat, 2), (m.b.toNat, 1)] else []
  | .preq m | .cctlLine m | .cctlAll m | .cctlIfetch m | .tlbiPage m | .tlbiAsid m | .tlbiAll m =>
    (m.a.toNat, 2) :: if m.x then [(m.b.toNat, 1)] else []
  | .copyMc f => [(f.d.toNat, 5), (f.a.toNat, 2), (f.b.toNat, 2), (f.c.toNat, 2)]
  | .copy f | .fill f | .mshape f | .mma f | .accld f | .accst f | .monw f =>
    [(f.d.toNat, 1), (f.a.toNat, 2), (f.b.toNat, 2), (f.c.toNat, 2)]
  | .nred f => [(f.c.toNat, 1)]
  | .nbar f => [(f.d.toNat, 1)]
  | .mfc f => if f.x then [(f.d.toNat, 1)] else []
  | .mtc f | .mtcPtbase f | .mtcAsid f => if f.x then [(f.a.toNat, 1)] else []
  | .txbeginO f => [(f.b.toNat, 1)]
  | i => match regInfo i with
    | some (_, f) =>
      if f.x then [(f.d.toNat, 1), (f.a.toNat, 1), (f.b.toNat, 1), (f.c.toNat, 1)]
      else if f.bs then [(f.b.toNat, 1)] else []
    | none => []

/-- A word that names a v-register of a run. -/
def namesV (i : Instr) (r n : Nat) : Bool := i.vregs.any fun x => x.1 < r + n && r < x.1 + x.2
/-- A word that names an s-register. -/
def namesS (i : Instr) (r : Nat) : Bool := (sregsOf i).any fun x => x.1 ≤ r && r < x.1 + x.2

/-- A word that names a predicate, as its guard or as an operand. -/
def namesP (i : Instr) (p : Nat) : Bool :=
  (Instr.guard i).p.toNat == p ||
  match i with
  | .ldr _ k => k.pd.toNat == p
  | .monw f => f.opf.toNat % 8 == p
  | _ => match regInfo i with
    | some (sp, f) =>
      (sp.d == .pred && f.d.toNat % 8 == p) || (sp.a == .pred && f.a.toNat % 8 == p) || (sp.b == .pred && f.b.toNat % 8 == p) ||
        (sp.c == .pred && f.c.toNat % 8 == p) || (sp.aux == .pred && f.aux.toNat % 8 == p)
    | none => false

/-- An outstanding load of the group whose destination the word names, LDR's predicate with it (R327). -/
def namesPending (i : Instr) (a : Access) : Bool :=
  match a.kind with
  | .load d x sz pd => (pd.any fun p => p != 7 && namesP i p.toNat) || if x then namesS i d.toNat else namesV i d.toNat (regsOf (8 * sz.bytes))
  | .atom aty _ el ret d x => ret && if x then namesS i d.toNat else namesV i d.toNat (regsOf aty.width * el.length)
  | _ => false

/-- An NRED or NBAR whose result the word names (R446). -/
def namesNet (i : Instr) (o : Op) : Bool :=
  match o.kind with
  | .net _ bar d sc => o.st != .complete && if bar then namesS i d.toNat else namesV i d.toNat 1 || namesS i sc.toNat
  | _ => false

/-- An outstanding acquire keeps a word from issuing; EXIT does not wait for one that is counted in rem (R352). -/
def Instr.afterAcq (i : Instr) (a : Access) : Bool :=
  a.acq && match i with
    | .exit _ => !a.remote
    | _ => true

/-- The word waits at the issue: for a register an outstanding access will write, for an acquire of the group, or for the
accesses that its own order makes it wait for (R289, R290, R327). -/
def stalls (s : State) (g : GRef) (i : Instr) : Bool :=
  (s.pend.any fun a => a.2.g = g && (Instr.drains i a.2 || Instr.afterAcq i a.2 || namesPending i a.2)) ||
  s.ops.any fun o => o.2.g = g && namesNet i o.2

/-- One more issue counted in every active lane's transaction; at the 65,536th the lane aborts with WATCHDOG (R305).
The lanes that remain. -/
def countIssue (s : State) (g : GRef) (active : List Nat) : State × List Nat :=
  active.foldl (fun acc l =>
    match acc.1.lane? g l with
    | some t =>
      match t.tx with
      | some x =>
        if x.mode = .irrevocable then (acc.1, acc.2 ++ [l])
        else if 65535 ≤ x.issues then (abortLane acc.1 g l 7 cWATCHDOG, acc.2)
        else (acc.1.modLane g l fun u => { u with tx := some { x with issues := x.issues + 1 } }, acc.2 ++ [l])
      | none => (acc.1, acc.2 ++ [l])
    | none => (acc.1, acc.2 ++ [l])) (s, [])

/-- A scalar-unit memory word (R304). -/
def scalarMem (i : Instr) : Bool := Instr.scalar i && (Instr.memMajor i).isSome

/-- The tree that a collective word of a team names, where its core contributes to it (R442, R445). -/
def treeAt (s : State) (t : Team) (n : Nat) : Option Tree :=
  match amGet s.grids t.grid with
  | none => none
  | some g => if !g.hasTrees then none
      else (g.trees[n]?).bind fun x => if x.cores.contains t.core then some x else none

/-- The tree number of a collective word (R445). -/
def Instr.treeNo : Instr → Option Nat
  | .nred f | .nbar f => some (field f.opf.toNat 12 4)
  | _ => none

/-- A collective word that fails R445's own check, which comes before what a transaction makes of the word. -/
def noTree (s : State) (g : GRef) (i : Instr) : Bool :=
  match Instr.treeNo i, s.team? g.team with
  | some n, some t => (treeAt s t n).isNone
  | _, _ => false

/-- The lanes whose logged transaction a word aborts, with its major (R304): the acting lanes of a forbidden word; every
active lane for a scalar-unit memory word that acts. -/
def victimsOf (s : State) (g : GRef) (i : Instr) (active acting : List Nat) : List (Nat × Nat) :=
  if noTree s g i then []
  else match (if scalarMem i && acting ≠ [] then Instr.memMajor i else none) with
  | some m => (active.filter fun l => s.inLogged g l).map fun l => (l, m)
  | none => match Instr.forbiddenMajor i with
    | some m => (acting.filter fun l => s.inLogged g l).map fun l => (l, m)
    | none => []

/-- What an issue comes to before its body runs: the body's words, or the outcome without it. -/
inductive Prep where
  | stop (o : Host.Outcome State Fault Refusal)
  | run (w : Wd)

/-- The issue of a word: waits, the privilege and budget checks of R31, and the transaction rules of R304, R305 and
R318. DESIGN CHOICE (log 140): an LDS, STS, FENCE, CCTL or TLBI of the scalar unit that an irrevocable lane acts in stands in both the
row of the words that trap and that of the words that execute once (R304, R318, R343); it executes. -/
def prepare (i : Instr) (s : State) : Prep :=
  match s.cur with
  | none => .stop (.fault .noIssue)
  | some c =>
    match s.team? c.g.team, s.group? c.g with
    | some t, some gr0 =>
      let sd := s.setCur none
      if stalls s c.g i then .stop (.next sd)
      else
        let q := countIssue sd c.g (lanesOf c.lanes)
        match q.1.group? c.g with
        | none => .stop (.next q.1)
        | some gr =>
          let w0 : Wd := ⟨sd, q.1, c.g, t, gr, q.2, [], c.pc, c.defer⟩
          if q.2 = [] then .stop (.next q.1)
          else if Instr.privileged i && !gr.ctl.priv then
            .stop (.next (finish w0 (.trap q.1 cPRIVILEGED_OP 0 0 q.2)))
          else if overBudget i gr0.budget then .stop (.next (finish w0 (.trap q.1 cREG_BUDGET 0 0 q.2)))
          else
            let acting := actingLanes gr i q.2
            let victims := victimsOf q.1 c.g i q.2 acting
            let hit (l : Nat) : Bool := victims.any fun v => v.1 = l
            let s1 := victims.foldl (fun st v => abortLane st c.g v.1 9 v.2) q.1
            let active := q.2.filter fun l => !hit l
            let acting' := if scalarMem i then acting else acting.filter fun l => !hit l
            let stuck := acting'.filter fun l => q.1.isIrrev c.g l && gr.handler.isNone
            let w : Wd := ⟨sd, s1, c.g, (s1.team? c.g.team).getD t, (s1.group? c.g).getD gr, active, acting', c.pc, c.defer⟩
            if (Instr.forbiddenMajor i).isSome && stuck ≠ [] && !scalarMem i && !noTree q.1 c.g i then
              .stop (.next (finish w (.trap s1 cFORBIDDEN_HERE 0x10 0 stuck)))
            else if acting' = [] then .stop (.next (finish w (.done s1)))
            else .run w
    | _, _ => .stop (.fault .noIssue)

/-- An engine operation, or a word's accesses to the host or a peer, issued: its counter rises, its sequence number is taken (R349). -/
def issueOp (w : Wd) (s : State) (kind : OpKind) (cls : Nat) (stamp : Option (W64 × W64 × Bool)) : Nat × State :=
  let c := ((s.group? w.g).getD w.gr).counter cls
  let op : Op :=
    { kind := kind, g := w.g, cls := cls, seq := c.seq, pc := w.pc, asid := w.gr.ctl.asid, priv := w.gr.ctl.priv
      stamp := stamp, st := .issued, delivered := [], given := [], cancelled := false
      faulted := false, image := none, held := none
      clk := s.time.clk, pipe := w.gr.slot / 16 }
  let n := s.newId
  (n.1, (n.2.setOps (amPut n.2.ops n.1 op)).modGroup w.g fun g => g.setCounter cls ⟨c.n + 1, (c.seq + 1) % 2 ^ 32⟩)

/-- The threads of a word park at it (R154). -/
def parkAll (w : Wd) (s : State) (p : Park) : Res :=
  { Res.done (s.modLanes w.g w.acting fun _ t => { t with park := some p }) with stay := w.acting }

/-- A word runs for the issuing group: its issue, then the body in the acting lanes, then the end of the word. -/
def runWord (i : Instr) (body : Wd → Res) (s : State) : Host.Outcome State Fault Refusal :=
  match prepare i s with
  | .stop o => o
  | .run w => .next (finish w (body w))

end Sys2Proof.Machine
end

