-- ==== Sys2Proof/Machine/Operands.lean ====
section
/-! DEFINITION. The operand forms of the compute words (R12, R13, R26, R88 to R91, R155, R156): what a word reads in a lane or in the scalar unit, and how its result is written. -/

namespace Sys2Proof.Machine

/-- Where a source stands: nowhere, in v-registers of the lane, in an s-register, or in the word itself; with its width in bits. -/
inductive Src where
  | none
  | v (r width : Nat)
  | s (r width : Nat)
  | imm (x : Nat)
deriving DecidableEq, Repr

/-- Where a result goes: nowhere, to v-registers or to an s-register; with its width and signedness (R13). -/
inductive Dst where
  | none
  | v (r width : Nat) (sgn : Bool)
  | s (r width : Nat) (sgn : Bool)
deriving DecidableEq, Repr

/-- The bits of a source. -/
def Src.read (x : Src) (gr : Group) (t : Thread) : Nat :=
  match x with
  | .none => 0
  | .v r w => t.getRun r ((w + 31) / 32) % 2 ^ w
  | .s r w => (gr.getS r).toNat % 2 ^ w
  | .imm n => n

/-- A result of `w` bits extended to `full` bits (R13). -/
def extend (w full : Nat) (sgn : Bool) (n : Nat) : Nat := if sgn then sextNat w full n else n % 2 ^ w

/-- The width of a result's v-registers, in bits. -/
def runWidth (w : Nat) : Nat := 32 * ((w + 31) / 32)

/-- A result written to the v-registers of a lane. -/
def Dst.writeV (d : Dst) (x : Nat) (t : Thread) : Thread :=
  match d with
  | .v r w sgn => t.setRun r ((w + 31) / 32) (extend w (runWidth w) sgn x)
  | _ => t

/-- A result written to an s-register of a group (R13). -/
def Dst.writeS (d : Dst) (x : Nat) (g : Group) : Group :=
  match d with
  | .s r w sgn => g.setS r (BitVec.ofNat 64 (extend w 64 sgn x))
  | _ => g

/-- What a compute word reads: three sources, the old value of its destination, the predicates and FPCTL. -/
structure AluIn where
  a : Nat
  b : Nat
  c : Nat
  d : Nat
  ps : Nat
  ctl : FpCtl
deriving DecidableEq, Repr

/-- What a compute word gives: a result, predicates written, flags raised. -/
structure AluOut where
  d : Nat
  p : List (Nat × Bool)
  fl : Fl
deriving DecidableEq, Repr

/-- A predicate among those read; p7 reads 1. -/
def AluIn.pred (x : AluIn) (p : Nat) : Bool := bit x.ps (p % 8)

/-- A result alone. -/
def outD (n : Nat) : AluOut := ⟨n, [], flNone⟩
/-- A predicate alone. -/
def outP (p : Nat) (b : Bool) (fl : Fl) : AluOut := ⟨0, [(p % 8, b)], fl⟩
/-- A floating-point result. -/
def outF (r : FRes) : AluOut := ⟨r.bits, [], r.fl⟩

/-- The operands of a compute word. -/
structure AluForm where
  x : Bool
  d : Dst
  a : Src
  b : Src
  c : Src
deriving DecidableEq, Repr

/-- The width of an operand kind. -/
def kindWidth (k : Fk) (f : RegF) : Nat :=
  match k with
  | .ty => f.ty.width
  | .src => ((Ty.ofCode f.aux.toNat).map Ty.width).getD 32
  | .one => 32
  | .pair => 64
  | .run => 32 * f.aux.toNat
  | .mxd => 32 * mxRegs f.ty
  | .mxa => 1024
  | _ => 0

/-- A source field of the register layout (R26, R88, R89). -/
def srcOf (k : Fk) (f : RegF) (bs : Bool) (r : Reg) : Src :=
  if kindWidth k f = 0 then .none
  else if f.x || bs then .s r.toNat (kindWidth k f) else .v r.toNat (kindWidth k f)

/-- The destination field of the register layout (R13, R88, R89). A result of TYPE's width is signed as TYPE is. -/
def dstOf (k : Fk) (f : RegF) : Dst :=
  let sgn := match k with
    | .ty => f.ty.signed
    | _ => false
  if kindWidth k f = 0 then .none
  else if f.x then .s f.d.toNat (kindWidth k f) sgn else .v f.d.toNat (kindWidth k f) sgn

/-- The operands of a register-layout word. -/
def regForm (sp : RegSpec) (f : RegF) : AluForm :=
  { x := f.x, d := dstOf sp.d f, a := srcOf sp.a f false f.a, b := srcOf sp.b f f.bs f.b, c := srcOf sp.c f false f.c }

/-- The operands of an immediate-layout word, the immediate already extended (R75). -/
def immForm (f : ImmF) (imm : Nat) : AluForm :=
  { x := f.x
    d := if f.x then .s f.d.toNat f.ty.width f.ty.signed else .v f.d.toNat f.ty.width f.ty.signed
    a := if f.x then .s f.a.toNat f.ty.width else .v f.a.toNat f.ty.width
    b := .imm imm, c := .none }

/-- What a word reads in a lane. -/
def AluForm.input (fm : AluForm) (gr : Group) (t : Thread) : AluIn :=
  { a := fm.a.read gr t, b := fm.b.read gr t, c := fm.c.read gr t
    d := match fm.d with
      | .v r w _ => t.getRun r ((w + 31) / 32)
      | _ => 0
    ps := t.preds, ctl := t.fpctl }

/-- Predicates written and flags raised in a lane. -/
def Thread.sideEffects (t : Thread) (o : AluOut) : Thread :=
  (o.p.foldl (fun x e => x.setP e.1 e.2) t).orFlags o.fl

/-- A compute word in the acting lanes (R155), or once in the scalar unit (R156): the guard, predicates and FPCTL are
read in the lowest active lane; predicates and flags are written in every active lane. -/
def aluBody (fm : AluForm) (op : AluIn → AluOut) (w : Wd) : Res :=
  if fm.x then
    match w.acting with
    | [] => Res.done w.s
    | l :: _ =>
      let o := op (fm.input w.gr ((w.gr.lane? l).getD (Thread.start 0)))
      Res.done ((w.s.modGroup w.g fun g => fm.d.writeS o.d g).modLanes w.g w.acting fun _ t => t.sideEffects o)
  else
    Res.done (w.s.modLanes w.g w.acting fun _ t =>
      let o := op (fm.input w.gr t)
      (fm.d.writeV o.d t).sideEffects o)

/-- A register-layout compute word. -/
def runAlu (i : Instr) (op : AluIn → AluOut) (s : State) : Host.Outcome State Fault Refusal :=
  match regInfo i with
  | some (sp, f) => runWord i (aluBody (regForm sp f) op) s
  | none => runWord i (fun w => Res.done w.s) s

/-- The immediate of major 0x2E (R75): sign-extended where `sgn`. -/
def immExt (f : ImmF) (sgn : Bool) : Nat := if sgn then sextNat 24 f.ty.width f.imm.toNat else f.imm.toNat

/-- An f32 widened to f64 exactly; a NaN keeps its mantissa bits (R75). -/
def widenF32 (x : Nat) : Nat :=
  match fdecode fmtF32 x with
  | .nan _ => (if bit x 31 then 2 ^ 63 else 0) + 0x7FF * 2 ^ 52 + x % 2 ^ 23 * 2 ^ 29
  | v => (convertTo fmtF64 .rn false false v).bits

/-- The immediate of major 0x45 (R75): bits 31 to 8 of an f32, converted exactly for f64. -/
def immFloat (f : ImmF) : Nat :=
  let x := f.imm.toNat * 256
  if f.ty = .f64 then widenF32 x else x

/-- An immediate-layout compute word. -/
def runAluImm (i : Instr) (f : ImmF) (imm : Nat) (op : AluIn → AluOut) (s : State) : Host.Outcome State Fault Refusal :=
  runWord i (aluBody (immForm f imm) op) s

end Sys2Proof.Machine
end

