-- ==== Sys2Proof/Machine/Integer.lean ====
section
/-! DEFINITION. The meanings of the integer arithmetic and comparison words (R92 to R98). -/

namespace Sys2Proof.Machine

/-- R92's shape: an exact integer from the operands' values, clamped under SAT, then wrapped. -/
def intResult (ty : Ty) (sat : Bool) (x : Int) : AluOut :=
  outD (wrap ty.width (if sat then clampInt (minOf ty.signed ty.width) (maxOf ty.signed ty.width) x else x))

/-- The value of an operand of a type. -/
def tyVal (ty : Ty) (n : Nat) : Int := valueOf ty.signed ty.width n

/-- A binary integer operation. -/
def intBin (ty : Ty) (sat : Bool) (formula : Int → Int → Int) (x : AluIn) : AluOut :=
  intResult ty sat (formula (tyVal ty x.a) (tyVal ty x.b))

/-- A unary integer operation. -/
def intUn (ty : Ty) (sat : Bool) (formula : Int → Int) (x : AluIn) : AluOut :=
  intResult ty sat (formula (tyVal ty x.a))

def fAdd (a b : Int) : Int := a + b
def fSub (a b : Int) : Int := a - b
def fMul (a b : Int) : Int := a * b
/-- The upper half of the product (R92). -/
def fMulh (w : Nat) (a b : Int) : Int := (a * b) / Int.ofNat (2 ^ w)
def fMin (a b : Int) : Int := if a ≤ b then a else b
def fMax (a b : Int) : Int := if a ≤ b then b else a
def fAbs (a : Int) : Int := if a < 0 then -a else a

/-- The quotient of R95. -/
def idivVal (ty : Ty) (a b : Int) : Int :=
  if b = 0 then (if ty.signed then -1 else maxOf false ty.width)
  else if ty.signed ∧ a = minOf true ty.width ∧ b = -1 then minOf true ty.width
  else Int.tdiv a b

/-- The remainder of R95. -/
def iremVal (ty : Ty) (a b : Int) : Int :=
  if b = 0 then a
  else if ty.signed ∧ a = minOf true ty.width ∧ b = -1 then 0
  else a - Int.tdiv a b * b

/-- IADDC (R93). -/
def addCarry (ty : Ty) (p : Nat) (x : AluIn) : AluOut :=
  let n := x.a % 2 ^ ty.width + x.b % 2 ^ ty.width + (if x.pred p then 1 else 0)
  ⟨n % 2 ^ ty.width, [(p % 8, 2 ^ ty.width ≤ n)], flNone⟩

/-- ISUBB (R93). -/
def subBorrow (ty : Ty) (p : Nat) (x : AluIn) : AluOut :=
  let n : Int := Int.ofNat (x.a % 2 ^ ty.width) - Int.ofNat (x.b % 2 ^ ty.width) - (if x.pred p then 1 else 0)
  ⟨wrap ty.width n, [(p % 8, decide (n < 0))], flNone⟩

/-- IMAD (R92). -/
def mulAdd (ty : Ty) (x : AluIn) : AluOut := intResult ty false (tyVal ty x.a * tyVal ty x.b + tyVal ty x.c)

/-- IMADW (R94): written at 64 bits. -/
def mulAddWide (ty : Ty) (x : AluIn) : AluOut :=
  outD (wrap 64 (tyVal ty x.a * tyVal ty x.b + valueOf ty.signed 64 x.c))

/-- ISAD (R92). -/
def sumAbsDiff (ty : Ty) (x : AluIn) : AluOut := intResult ty false (fAbs (tyVal ty x.a - tyVal ty x.b) + tyVal ty x.c)

/-- IDOT4 (R96). -/
def dot4 (ty : Ty) (sat : Bool) (x : AluIn) : AluOut :=
  let e (n k : Nat) : Int := valueOf ty.signed 8 (bitsAt n k 8)
  let sum := valueOf ty.signed 32 x.c + e x.a 0 * e x.b 0 + e x.a 1 * e x.b 1 + e x.a 2 * e x.b 2 + e x.a 3 * e x.b 3
  outD (wrap 32 (if sat then clampInt (minOf ty.signed 32) (maxOf ty.signed 32) sum else sum))

/-- The conditions of ICMP (R73). -/
def intCond (cc : Nat) (a b : Int) : Bool :=
  match cc with
  | 0 => a == b
  | 1 => a != b
  | 2 => decide (a < b)
  | 3 => decide (a ≤ b)
  | 4 => decide (b < a)
  | _ => decide (b ≤ a)

/-- ICMP (R98). -/
def intCmp (ty : Ty) (cc p : Nat) (x : AluIn) : AluOut := outP p (intCond cc (tyVal ty x.a) (tyVal ty x.b)) flNone

def execIadd (f : RegF) (s : State) := runAlu (.iadd f) (intBin f.ty f.sat fAdd) s
def execIsub (f : RegF) (s : State) := runAlu (.isub f) (intBin f.ty f.sat fSub) s
def execIaddc (f : RegF) (s : State) := runAlu (.iaddc f) (addCarry f.ty f.aux.toNat) s
def execIsubb (f : RegF) (s : State) := runAlu (.isubb f) (subBorrow f.ty f.aux.toNat) s
def execImul (f : RegF) (s : State) := runAlu (.imul f) (intBin f.ty false fMul) s
def execImulh (f : RegF) (s : State) := runAlu (.imulh f) (intBin f.ty false (fMulh f.ty.width)) s
def execImad (f : RegF) (s : State) := runAlu (.imad f) (mulAdd f.ty) s
def execImadw (f : RegF) (s : State) := runAlu (.imadw f) (mulAddWide f.ty) s
def execIdiv (f : RegF) (s : State) := runAlu (.idiv f) (intBin f.ty false (idivVal f.ty)) s
def execIrem (f : RegF) (s : State) := runAlu (.irem f) (intBin f.ty false (iremVal f.ty)) s
def execIneg (f : RegF) (s : State) := runAlu (.ineg f) (intUn f.ty f.sat (fun a => -a)) s
def execIabs (f : RegF) (s : State) := runAlu (.iabs f) (intUn f.ty f.sat fAbs) s
def execImin (f : RegF) (s : State) := runAlu (.imin f) (intBin f.ty false fMin) s
def execImax (f : RegF) (s : State) := runAlu (.imax f) (intBin f.ty false fMax) s
def execIsad (f : RegF) (s : State) := runAlu (.isad f) (sumAbsDiff f.ty) s
def execIdot4 (f : RegF) (s : State) := runAlu (.idot4 f) (dot4 f.ty f.sat) s
def execIcmp (f : RegF) (s : State) := runAlu (.icmp f) (intCmp f.ty f.op.toNat f.d.toNat) s
/-- The immediate forms have exactly the effect of their register forms (R97). -/
def execIaddImm (f : ImmF) (s : State) := runAluImm (.iaddImm f) f (immExt f f.ty.signed) (intBin f.ty f.sat fAdd) s
def execIsubImm (f : ImmF) (s : State) := runAluImm (.isubImm f) f (immExt f f.ty.signed) (intBin f.ty f.sat fSub) s
def execImulImm (f : ImmF) (s : State) := runAluImm (.imulImm f) f (immExt f f.ty.signed) (intBin f.ty false fMul) s
def execIminImm (f : ImmF) (s : State) := runAluImm (.iminImm f) f (immExt f f.ty.signed) (intBin f.ty false fMin) s
def execImaxImm (f : ImmF) (s : State) := runAluImm (.imaxImm f) f (immExt f f.ty.signed) (intBin f.ty false fMax) s

end Sys2Proof.Machine
end

