-- ==== Sys2Proof/Machine/Access.lean ====
section
/-! DEFINITION. How one memory access of a lane or of the scalar unit is made outside transactions: views, the L1, the home, outstanding accesses, the scratchpad, residency posts (R226 to R240, R250, R265 to R267, R274, R325 to R339, R437). -/

namespace Sys2Proof.Machine

/-- What an access asks: its lane (32 for the scalar unit), address, bytes, kind and modifiers, and the major of its word. -/
structure Req where
  major : Nat
  lane : Nat
  va : W64
  n : Nat
  kind : AccKind
  order : Order
  scope : Scope
  evp : Evp
  lu : Bool

/-- What one access comes to: done, or its word issues again once a condition holds, or a trap, or an abort. -/
inductive LaneOut where
  | ok (s : State)
  | wait (s : State) (p : Park)
  | bad (s : State) (cause sub : Nat) (addr : W64)
  | abort (s : State) (code sub : Nat)

/-- The rights an access needs (R264). -/
def needOf (k : AccKind) : AccessNeed :=
  match k with
  | .load _ _ _ _ => .read
  | .store _ => .write
  | .unit _ => .write
  | .atom _ _ _ ret _ _ => if ret then .atomic else .red

/-- An access whose data goes to its thread (R250). -/
def returnsData (k : AccKind) : Bool :=
  match k with
  | .load _ _ _ _ => true
  | .store _ => false
  | .unit _ => false
  | .atom _ _ _ ret _ _ => ret

def isLoad (k : AccKind) : Bool :=
  match k with
  | .load _ _ _ _ => true
  | _ => false

def szSigned (z : Sz) : Bool :=
  match z with
  | .i8 | .i16 | .i32 => true
  | _ => false
def atypeSigned (t : AType) : Bool :=
  match t with
  | .i32 | .i64 => true
  | _ => false

/-- The core a group runs on. -/
def coreOf (s : State) (g : GRef) : Nat := ((s.team? g.team).map Team.core).getD 0

/-- A value of `w` bits written to the destination of a memory word: a run of v-registers of the lane, or an
s-register (R13, R136, R335). -/
def putData (s : State) (g : GRef) (lane : Nat) (d : Reg) (x : Bool) (w : Nat) (sgn : Bool) (n : Nat) : State :=
  if x then s.modGroup g fun gr => gr.setS d.toNat (BitVec.ofNat 64 (extend w 64 sgn n))
  else s.modLane g lane fun t => t.setRun d.toNat ((w + 31) / 32) (extend w (runWidth w) sgn n)

/-- What a load writes: its data, and LDR's report (R136, R331). -/
def putLoad (s : State) (g : GRef) (lane : Nat) (d : Reg) (x : Bool) (sz : Sz) (pd : Option (BitVec 3)) (absent : Bool)
    (n : Nat) : State :=
  let s1 := putData s g lane d x (8 * sz.bytes) (szSigned sz) n
  match pd with
  | some p => s1.modLane g lane fun t => t.setP p.toNat absent
  | none => s1

/-- The new value of an atomic element, if it writes one (R336). -/
def atomNew (aty : AType) (aop : AOp) (old : Nat) (x : Nat × Nat) : Option Nat :=
  let w := aty.width
  let f := if w = 32 then fmtF32 else fmtF64
  let int (op : Int → Int → Int) : Nat :=
    wrap w (op (valueOf (atypeSigned aty) w old) (valueOf (atypeSigned aty) w x.1))
  match aop with
  | .add => some (if aty.float then (fadd f .rn false (fdecode f old) (fdecode f x.1)).bits else int fAdd)
  | .min => some (if aty.float then (fminmax f false false (fdecode f old) (fdecode f x.1)).bits else int fMin)
  | .max => some (if aty.float then (fminmax f true false (fdecode f old) (fdecode f x.1)).bits else int fMax)
  | .and => some (old &&& x.1)
  | .or => some (old ||| x.1)
  | .xor => some (old ^^^ x.1)
  | .exch => some x.1
  | .cas => if old = x.1 then some x.2 else none

/-- Where bytes stand: at their home, or in a team's scratchpad. -/
inductive Place where
  | mem (key e cls : Nat)
  | view (team off : Nat)

/-- `n` bytes of a place, from an offset on. -/
def Place.read (p : Place) (s : State) (off n : Nat) : List Byte :=
  match p with
  | .mem key _ _ => memRead s.mem (key + off) n
  | .view team o => memRead (((s.team? team).map Team.scratch).getD []) (o + off) n

/-- A read noted by the caches of a place (R232, R237). -/
def Place.touch (p : Place) (s : State) : State :=
  match p with
  | .mem key e cls => touchRead s key e cls
  | .view _ _ => s

/-- Bytes written at a place, from an offset on. -/
def Place.write (p : Place) (s : State) (off : Nat) (bs : List Byte) : State :=
  match p with
  | .mem key e cls => writeAt s (key + off) e cls bs
  | .view team o => noteScratch (s.modTeam team fun t => { t with scratch := memWrite t.scratch (o + off) bs }) team

/-- The elements of an atomic performed one after the other, each as one step; their old values (R336, R337). -/
def atomAt (p : Place) (aty : AType) (aop : AOp) : List (Nat × Nat) → Nat → State → List Nat × State
  | [], _, s => ([], s)
  | x :: xs, off, s =>
    let k := aty.width / 8
    let old := ofBytes (p.read s off k)
    let s1 := match atomNew aty aop old x with
      | some n => p.write s off (toBytes k n)
      | none => p.touch s
    let r := atomAt p aty aop xs (off + k) s1
    (old :: r.1, r.2)

/-- An access performed at its place, its destination written. -/
def performAt (p : Place) (s : State) (g : GRef) (lane : Nat) (k : AccKind) : State :=
  match k with
  | .load d x sz pd => putLoad (p.touch s) g lane d x sz pd false (ofBytes (p.read s 0 sz.bytes))
  | .store bs => p.write s 0 bs
  | .unit _ => s
  | .atom aty aop xs ret d x =>
    let r := atomAt p aty aop xs 0 s
    if ret then putData r.2 g lane d x (aty.width * xs.length) (atypeSigned aty) (packElems aty.width r.1) else r.2

/-- The L1 takes the sector a load missed on (R226). -/
def l1Fill (s : State) (core key : Nat) : State :=
  (l1Put s core (sectorOf key) (sectorBytes s (sectorOf key))).countCore core 0x05 1

/-- What the core's L1 does with a write or atomic of its own as it is performed (R226, R227). -/
def l1Own (s : State) (core key : Nat) (k : AccKind) : State :=
  match k with
  | .store bs => l1Update s core key bs
  | .atom _ _ _ _ _ _ => l1Drop s core (sectorOf key)
  | _ => s

/-- An access performed at its home: data in error goes to no thread and takes no partial store (R250). `none` when an
error stops an access that returns data. -/
def performAccess (s : State) (a : Access) : Option State :=
  let core := coreOf s a.g
  if inError s a.key then
    if returnsData a.kind then none else some (report s (.sector (sectorOf a.key)))
  else
    let s1 := performAt (.mem a.key a.e a.cls) s a.g a.lane a.kind
    let s2 := match a.kind with
      | .load _ _ _ _ => if a.lu then lastUse s1 a.key else if a.l1 then l1Fill s1 core a.key else s1
      | k => if a.lu then markFirst (l1Own s1 core a.key k) a.key else l1Own s1 core a.key k
    some (if a.acq && a.wide then l1Clear s2 core else s2)

/-- An atomic invalidates the L1's sector before it is sent (R226). A store reaches the L1 and its home in one step, when it is
performed: no other group reads it before (R227, R274, R290). -/
def l1Sent (s : State) (core : Nat) (a : Access) : State :=
  match a.kind with
  | .atom _ _ _ _ _ _ => l1Drop s core (sectorOf a.key)
  | _ => s

/-- The bytes that an access to a local home reads or writes. -/
def AccKind.span (k : AccKind) : Nat :=
  match k with
  | .load _ _ sz _ => sz.bytes
  | .store bs => bs.length
  | .unit _ => 0
  | .atom aty _ xs _ _ _ => aty.width / 8 * xs.length

/-- Two accesses to local homes that share a byte. -/
def Access.meets (a b : Access) : Bool := a.key < b.key + AccKind.span b.kind && b.key < a.key + AccKind.span a.kind

/-- The sectors that an access covers. -/
def Access.covers (a : Access) (sec : Nat) : Bool := sectorOf a.key == sec || a.also.contains sec

/-- The oldest outstanding access of the group to a sector at a local home. -/
def olderAcc (s : State) (g : GRef) (sec : Nat) : Option Nat :=
  (s.pend.find? fun p => p.2.g = g && !p.2.remote && p.2.covers sec).map Prod.fst
/-- An outstanding access of the group to one of the bytes: those of one thread to one location are performed in its order, and those
of the lanes of a word in theirs (R276, R289). -/
def olderTo (s : State) (a : Access) : Bool := s.pend.any fun p => p.2.g = a.g && !p.2.remote && p.2.meets a

/-- An access made outstanding (R327). -/
def enqueue (s : State) (a : Access) : State :=
  let n := s.newId
  n.2.setPend (amPut n.2.pend n.1 a)

/-- The accesses of which an access to a local home consists: each element of ATOMV is performed on its own, in any order (R337).
DESIGN CHOICE (log 141): where all are performed at the issue, and in a view, at the host and at a peer, they are performed in one step,
one of the orders that the rule allows. -/
def Access.elements (a : Access) : List Access :=
  match a.kind with
  | .atom aty aop xs ret d x => xs.mapIdx fun i v => { a with
      va := a.va + BitVec.ofNat 64 (i * (aty.width / 8)), key := a.key + i * (aty.width / 8)
      kind := .atom aty aop [v] ret (d + BitVec.ofNat 8 (i * (aty.width / 32))) x }
  | _ => [a]

/-- An access sent to its home: performed at once, unless it is left outstanding, or waits for a lock, for room or for an older
access of its group to one of its bytes (R243, R289, R294, R327). Data in error traps when the access is performed: it waits at the word for
what comes before it (R250, R325). -/
def submit (defer : Bool) (s : State) (a : Access) : LaneOut :=
  if inError s a.key && returnsData a.kind then
    if isLocked s a.key then .wait s (.locked (lineOf a.key))
    else match olderAcc s a.g (sectorOf a.key) with
      | some id => .wait s (.access id)
      | none => .bad (logConsumed s a.key a.asid.toNat) cDATA_ERROR 0 a.va
  else if olderTo s a || heldUp s a.key a.e || defer then .ok (a.elements.foldl enqueue (l1Sent s (coreOf s a.g) a))
  else match performAccess s a with
    | some s1 => .ok s1
    | none => .bad s cDATA_ERROR 0 a.va

/-- A load that hits the L1 (R226, R274); a last use drops the sector there and at its home (R239). -/
def l1Hit (s : State) (a : Access) (line : List Byte) : State :=
  let core := coreOf s a.g
  let s1 := s.countCore core 0x04 1
  let s2 := if a.lu then lastUse (l1Drop s1 core (sectorOf a.key)) a.key else s1
  match a.kind with
  | .load d x sz pd => putLoad s2 a.g a.lane d x sz pd false (ofBytes ((line.drop (a.key % 64)).take sz.bytes))
  | _ => s2

/-- What host memory's atomic engine performs (R437). -/
def hostAtomic (k : AccKind) : Bool :=
  match k with
  | .atom aty aop _ _ _ _ =>
    match aop with
    | .add => !aty.float && !aty.bits
    | .exch => true
    | .cas => true
    | _ => false
  | _ => true

/-- The access record of a request. -/
def accessOf (w : Wd) (q : Req) (key e : Nat) : Access :=
  let irrev := w.s.isIrrev w.g q.lane && w.gr.handler.isNone
  { g := w.g, lane := q.lane, pc := w.pc, va := q.va, key := key, e := e, kind := q.kind, remote := false, seq := 0
    also := [], cls := if q.lu && !isLoad q.kind then 1 else classOf q.evp e, lu := q.lu
    l1 := !wide q.scope && !irrev && isLoad q.kind
    acq := Order.acqs q.order || irrev, wide := wide q.scope, asid := w.gr.ctl.asid, priv := w.gr.ctl.priv }

/-- The key under which an access to the host or a peer is ordered and the L1 holds its sector. -/
def remoteKey (s : State) (core asid va : Nat) : Nat := (plainKey s core asid va).getD (memKey (va / 2 ^ 60) (va % 2 ^ 60))

/-- A store or atomic to the host or a peer: outstanding until acknowledged, and counted in rem by the one operation that this
issue of its word makes (R349, R437). -/
def remoteAccess (w : Wd) (q : Req) (s : State) : LaneOut :=
  let home := q.va.toNat / 2 ^ 60
  let core := w.t.core
  let rem := ((s.group? w.g).map fun x => x.rem).getD ⟨0, 0⟩
  let reply : Bool := match q.kind with
    | .atom _ _ _ ret _ _ => ret
    | _ => false
  if home = 10 ∧ s.sys.stage < 4 then .bad s 0 0 q.va
  else if home = 10 ∧ peerOf q.va.toNat = s.sys.device then .bad s cBAD_HOME 0 q.va
  else if home = 9 ∧ !hostAtomic q.kind then .bad s cATOMIC_DENIED 0 q.va
  else if rem.seq = w.gr.rem.seq ∧ 63 ≤ rem.n then .wait s (.counter 3 62)
  else if reply ∧ 256 ≤ (s.core core).cplq then .wait s .cplQueue
  else
    let key := remoteKey s core w.gr.ctl.asid.toNat q.va.toNat
    let also := match q.kind with
      | .unit ps => ps.flatMap fun p => (pieces p.1.toNat p.2.length).map fun x => sectorOf (remoteKey s core w.gr.ctl.asid.toNat x.1)
      | _ => []
    let a := { accessOf w q key 0 with remote := true, seq := w.gr.rem.seq, also := also }
    let s1 := if rem.seq = w.gr.rem.seq then (issueOp w s .remote 3 none).2 else s
    .ok (enqueue (l1Sent (if reply then s1.modCore core fun c => { c with cplq := c.cplq + 1 } else s1) core a) a)

/-- An access redirected to the team's view (R174, R224, R329). -/
def viewAccess (w : Wd) (q : Req) (off : Nat) (s : State) : LaneOut :=
  match s.team? w.g.team with
  | none => .ok s
  | some t =>
    if !linesPresent t off q.n then .wait s (.presence off (off + q.n))
    else if s.errs.scratch.contains (w.g.team, off / 128) then
      if returnsData q.kind then
        .bad (logCoreError s w.t.core w.gr.ctl.asid.toNat) cDATA_ERROR 0 q.va
      else .ok (report s (.scratch w.g.team (off / 128)))
    else .ok (performAt (.view w.g.team off) s w.g q.lane q.kind)

/-- The oldest outstanding access of the group sent to the host or a peer that covers the sector of an address (R437). -/
def remoteOlder (s : State) (g : GRef) (core asid va : Nat) : Option Nat :=
  if s.pend.any fun p => p.2.g = g && p.2.remote then
    let sec := sectorOf (remoteKey s core asid va)
    (s.pend.find? fun p => p.2.g = g && p.2.remote && p.2.covers sec).map Prod.fst
  else none

/-- An access of LD, ST, LDR, ATOM, ATOMV or RED outside a transaction (R325 to R329). -/
def memAccess (w : Wd) (q : Req) (s : State) : LaneOut :=
  let va := q.va.toNat
  let home := va / 2 ^ 60
  let core := w.t.core
  let s0 := if Order.acqs q.order && wide q.scope then l1Clear s core else s
  if va % q.n ≠ 0 then .bad s cMISALIGNED 0 q.va
  else match viewOf w.t va with
  | some off => viewAccess w q off s0
  | none =>
    if (home = 9 ∨ home = 10) ∧ !isLoad q.kind then remoteAccess w q s
    else match remoteOlder s w.g core w.gr.ctl.asid.toNat va with
    | some id => .wait s (.access id)
    | none =>
      match xlate s0 core w.gr.ctl.asid.toNat w.gr.ctl.priv (needOf q.kind) va with
      | (.fault c, s1) => .bad s1 c.cause c.sub q.va
      | (.absent, s1) =>
        match q.kind with
        | .load d x sz pd => .ok (putLoad s1 w.g q.lane d x sz pd true 0)
        | _ => .bad s1 cNONRESIDENT_STORE 0 q.va
      | (.ok key e, s1) =>
        let a := accessOf w q key e
        match amGet (s1.core core).l1 (sectorOf key) with
        | some line => if a.l1 && !olderTo s1 a then
              if line.bad then .bad (logCoreError s1 core a.asid.toNat) cDATA_ERROR 0 q.va else .ok (l1Hit s1 a line.data)
            else submit (w.defer && home ≤ 8) s1 a
        | none => submit (w.defer && home ≤ 8) s1 a

/-- The bytes of a scratchpad access read or written, after its checks (R220, R224, R330). -/
def scratchAccess (w : Wd) (q : Req) (s : State) : LaneOut :=
  let a := q.va.toNat
  let o := scratchOwner s w.g.team
  if a % q.n ≠ 0 then .bad s cMISALIGNED 0 q.va
  else match s.team? o with
  | none => .ok s
  | some t =>
    match scratchAt t a q.n with
    | .error c => .bad s c.cause c.sub q.va
    | .ok off =>
      if !linesPresent t off q.n then .wait s (.presence off (off + q.n))
      else if s.errs.scratch.contains (o, off / 128) then
        if returnsData q.kind then
          .bad (logCoreError s w.t.core w.gr.ctl.asid.toNat) cDATA_ERROR 0 q.va
        else .ok (report s (.scratch o (off / 128)))
      else .ok (performAt (.view o off) s w.g q.lane q.kind)

/-- A request filter's name for a page (R266). -/
def pageKey (asid level va : Nat) : Nat := (asid * 2 + level) * 2 ^ 48 + va / 2 ^ levelShift level

/-- One record posted to a context's residency queue (R267), unless its ring is full; `none` where the post has to wait (R243, R294).
DESIGN CHOICE (log 142): the queue is read and written in the requester's address space with privilege, and where it cannot be reached
nothing is posted. -/
def postRecord (s : State) (core asid ctx : Nat) (c : Ctx) (home page va : Nat) : Option State :=
  let q := c.resq.toNat
  let posted (r : Except (Cause × State) State) (f : State → Option State) : Option State :=
    match r with
    | .error (x, s1) => if x.cause = 0 then none else some s1
    | .ok s1 => f s1
  match readVa s core asid true q 0x18 with
  | .error (x, s1) => if x.cause = 0 then none else some s1
  | .ok (h, s1) =>
    let base := ofBytes (h.take 8)
    let size := 2 ^ (ofBytes ((h.drop 8).take 1) % 32)
    let prod := ofBytes ((h.drop 12).take 4)
    let cons := ofBytes ((h.drop 16).take 4)
    if (prod + 2 ^ 32 - cons) % 2 ^ 32 = size then
      posted (writeVa s1 core asid true (q + 0x14) (toBytes 4 (ofBytes ((h.drop 20).take 4) + 1))) some
    else
      let rec_ := toBytes 8 (va / 2 ^ 16 * 2 ^ 16) ++ toBytes 2 asid ++ toBytes 1 (core / 32) ++ toBytes 1 (core % 32) ++
        toBytes 4 0
      posted (writeVa s1 core asid true (base + 16 * (prod % size)) rec_) fun s2 =>
        posted (writeVa s2 core asid true (q + 0x0C) (toBytes 4 (prod + 1))) fun s3 =>
          let old := amGetD s3.sys.filters home []
          some (((s3.setSys { s3.sys with filters := amPut s3.sys.filters home ((page :: old).take 64) }).setCtxs
            (amMod s3.ctxs ctx fun x => { x with posts := x.posts + 1 })).countDie home 0x0D 1)

/-- A page request (R266, R332); `none` where its walk or its post has to wait. -/
def postResidency (s : State) (core asid ctx : Nat) (priv : Bool) (va : Nat) : Option State :=
  let home := va / 2 ^ 60
  if 8 ≤ home ∨ !s.dieUp home then some s
  else
    let r := findLeaf s core asid home va
    match r.1 with
    | .error c => if c.cause = 0 then none else some r.2
    | .ok l =>
      let page := pageKey asid l.level va
      if pteRes l.e || (pteP l.e && !priv) || (amGetD r.2.sys.filters home []).contains page then some r.2
      else match amGet r.2.ctxs ctx with
        | some c => if c.resq = 0 then some r.2 else postRecord r.2 core asid ctx c home page va
        | none => some r.2

/-- What one lane's access adds to its word's outcome. -/
def laneStep (w : Wd) (r : Res) (l : Nat) (o : LaneOut) : Res :=
  match o with
  | .ok s => { r with st := s }
  | .wait s p => { r with st := s.modLane w.g l fun t => { t with park := some p }, stay := r.stay ++ [l] }
  | .bad s c sub a => { r with st := s, bad := r.bad ++ [⟨l, c, sub, a⟩] }
  | .abort s c sub => { r with st := abortLane s w.g l c sub, stay := r.stay ++ [l] }

/-- The scratchpad line that a lane's access waits for (R224). -/
def LaneOut.absentLine (o : LaneOut) : Option Park :=
  match o with
  | .wait _ (.presence lo hi) => some (.presence lo hi)
  | _ => none

/-- A lane that has to wait before its access can be made. -/
def LaneOut.waits (o : LaneOut) : Bool :=
  match o with
  | .wait _ _ => true
  | _ => false

/-- The accesses of a word, one per acting lane in ascending order (R276, R325). Where one of them touches an absent scratchpad line
no lane performs its access: the acting threads park until every line that the word touches is present (R224). Where one lane has to
wait and another traps, the word waits, so that every lane whose access raises nothing is performed before the trap (R325). -/
def laneLoop (f : Nat → State → LaneOut) (w : Wd) : Res :=
  let r := w.acting.foldl (fun (x : Res × Option Park × Bool) l =>
    let o := f l x.1.st
    (laneStep w x.1 l o, x.2.1 <|> o.absentLine, x.2.2 || o.waits)) (Res.done w.s, none, false)
  match r.2.1 with
  | some p => parkAll w w.s p
  | none =>
    if r.2.2 && r.1.bad.any fun b => !w.s.inLogged w.g b.lane then Res.trap w.s 0 0 0 []
    else r.1

/-- The one access of a scalar-unit word (R326). A word that must wait and has no active lane left issues again. -/
def scalarOnce (f : State → LaneOut) (w : Wd) : Res :=
  match f w.s with
  | .ok s => Res.done s
  | .wait s p =>
    if w.active = [] then Res.done w.s0
    else { Res.done (s.modLanes w.g w.active fun _ t => { t with park := some p }) with stay := w.active }
  | .bad s c sub a => Res.trap s c sub a w.active
  | .abort s _ _ => Res.done s

end Sys2Proof.Machine
end

