-- ==== Sys2Proof/Machine/Tx.lean ====
section
/-! DEFINITION. Transactions: the accesses of a lane in one, and the words that begin, end and inspect them (R300 to R307, R314 to R321). Commit rounds are events. -/

namespace Sys2Proof.Machine

/-- The word keys an access of `n` bytes covers (R301). -/
def wordKeys (key n : Nat) : List Nat :=
  (List.range ((key + n - 1) / 8 + 1 - key / 8)).map fun i => (key / 8 + i) * 8

/-- The write-log entry of a word. -/
def Tx.wrOf (x : Tx) (word : Nat) : Option WrEnt := x.wr.find? fun e => e.key == word

/-- A byte that the write log holds. -/
def Tx.buffered (x : Tx) (k : Nat) : Option Byte :=
  match x.wrOf (k / 8 * 8) with
  | some e => if bit e.mask.toNat (k % 8) then some (BitVec.ofNat 8 (field e.data.toNat (8 * (k % 8)) 8)) else none
  | none => none

/-- The bytes a transactional read returns (R301). -/
def Tx.bytes (x : Tx) (s : State) (key n : Nat) : List Byte :=
  (List.range n).map fun i => (x.buffered (key + i)).getD (memGet s.mem (key + i))

/-- The words of which some byte comes from memory. -/
def Tx.fromMemory (x : Tx) (key n : Nat) : List Nat :=
  (wordKeys key n).filter fun w => (List.range n).any fun i => (key + i) / 8 * 8 == w && (x.buffered (key + i)).isNone

/-- The read entries an access adds (R301). -/
def Tx.newReads (x : Tx) (key n : Nat) : List Nat := (x.fromMemory key n).filter fun w => !(x.rd.any fun e => e.key == w)

/-- A byte written into a word's entry. -/
def WrEnt.put (e : WrEnt) (i : Nat) (b : Byte) : WrEnt :=
  { e with
    data := BitVec.ofNat 64 (e.data.toNat - field e.data.toNat (8 * i) 8 * 2 ^ (8 * i) + b.toNat * 2 ^ (8 * i))
    mask := e.mask ||| BitVec.ofNat 8 (2 ^ i) }

/-- A byte buffered (R301), with the priority class and last-use bit of its store, which hold where it is performed (R81, R303). -/
def bufferByte (wr : List WrEnt) (k e : Nat) (asid : BitVec 12) (cls : Nat) (lu : Bool) (b : Byte) : List WrEnt :=
  let w := k / 8 * 8
  if wr.any fun x => x.key == w then wr.map fun x => if x.key = w then { x.put (k % 8) b with cls := cls, lu := lu } else x
  else wr ++ [(⟨w, e, asid, 0, 0, cls, lu⟩ : WrEnt).put (k % 8) b]

/-- Bytes buffered from a key on. -/
def bufferBytes (wr : List WrEnt) (key e : Nat) (asid : BitVec 12) (cls : Nat) (lu : Bool) (bs : List Byte) : List WrEnt :=
  (List.range bs.length).foldl (fun a i => bufferByte a (key + i) e asid cls lu (bs.getD i 0#8)) wr

/-- The old values of an atomic's elements and the write log after it (R303). -/
def txElems (s : State) (asid : BitVec 12) (aty : AType) (aop : AOp) : List (Nat × Nat) → Nat → Nat → Tx → List Nat × List WrEnt
  | [], _, _, x => ([], x.wr)
  | v :: es, key, e, x =>
    let k := aty.width / 8
    let old := ofBytes (x.bytes s key k)
    let x1 := match atomNew aty aop old v with
      | some n => { x with wr := bufferBytes x.wr key e asid (pteEvp e) false (toBytes k n) }
      | none => x
    let r := txElems s asid aty aop es (key + k) e x1
    (old :: r.1, r.2)

/-- The read entries of an access (R301): the bytes in value mode, the stamp otherwise. -/
def readEntries (s : State) (e : Nat) (asid : BitVec 12) (ws : List Nat) : List RdEnt :=
  ws.map fun w => ⟨w, e, asid, BitVec.ofNat 64 (memNat s.mem w 8), stampOf s w e,
    s.time.datum⟩

/-- A transactional access at its key (R301 to R303). DESIGN CHOICE (log 116): of an access that needs both a 17th read entry and a
9th write entry, which R302 does not order, the read log's abort is taken. DESIGN CHOICE (log 143): a load with LU = 1 whose bytes all
come from the write log reaches no home and is no last use there. -/
def txAt (w : Wd) (q : Req) (s : State) (x : Tx) (key e : Nat) : LaneOut :=
  let cls := if q.lu && !isLoad q.kind then 1 else classOf q.evp e
  let reads : Bool := match q.kind with
    | .store _ => false
    | _ => true
  let newRd := if reads then x.newReads key q.n else []
  let memReads := if reads then x.fromMemory key q.n else []
  if memReads ≠ [] ∧ isLocked s key then .wait s (.locked (lineOf key))
  else if memReads ≠ [] ∧ !hasRoom s key e then .bad s 0 0 q.va
  else if memReads ≠ [] ∧ (olderAcc s w.g (sectorOf key)).isSome then
    .wait s (.access ((olderAcc s w.g (sectorOf key)).getD 0))
  else if memReads ≠ [] ∧ inError s key then .bad (logConsumed s key w.gr.ctl.asid.toNat) cDATA_ERROR 0 q.va
  else if 16 < x.rd.length + newRd.length then .abort s 4 0
  else
    let r : List Nat × List WrEnt := match q.kind with
      | .load _ _ _ _ => ([], x.wr)
      | .store bs => ([], bufferBytes x.wr key e w.gr.ctl.asid cls q.lu bs)
      | .unit _ => ([], x.wr)
      | .atom aty aop es _ _ _ => txElems s w.gr.ctl.asid aty aop es key e x
    if 8 < r.2.length then .abort s 5 0
    else
      let s0 := if memReads = [] then s else touchRead s key e cls
      let s1 := if isLoad q.kind && q.lu && memReads != [] then lastUse s0 key else s0
      let s2 := s1.modLane w.g q.lane fun t =>
        { t with tx := some { x with rd := x.rd ++ readEntries s0 e w.gr.ctl.asid newRd, wr := r.2 } }
      .ok (match q.kind with
        | .load d _ sz pd => putLoad s2 w.g q.lane d false sz pd false (ofBytes (x.bytes s key q.n))
        | .store _ => s2
        | .unit _ => s2
        | .atom aty _ es ret d _ =>
          if ret then putData s2 w.g q.lane d false (aty.width * es.length) (atypeSigned aty) (packElems aty.width r.1)
          else s2)

/-- An access of a lane in a logged transaction (R303, R304). DESIGN CHOICE (log 118): an access that R304 forbids for its home or its
tile aborts with FORBIDDEN_OP even where it is also misaligned (R325), an order the rules do not give. -/
def txAccess (w : Wd) (q : Req) (s : State) (x : Tx) : LaneOut :=
  let va := q.va.toNat
  let home := va / 2 ^ 60
  if (viewOf w.t va).isSome ∨ home = 9 ∨ home = 10 then .abort s 9 q.major
  else if va % q.n ≠ 0 then .bad s cMISALIGNED 0 q.va
  else match xlate s w.t.core w.gr.ctl.asid.toNat w.gr.ctl.priv (needOf q.kind) va with
    | (.fault c, s1) => .bad s1 c.cause c.sub q.va
    | (.absent, s1) => match postResidency s1 w.t.core w.gr.ctl.asid.toNat w.t.ctx w.gr.ctl.priv va with
      | some s2 => .abort s2 0x0B 0
      | none => .bad s 0 0 q.va
    | (.ok key e, s1) => txAt w q s1 x key e

/-- One access of a lane or of the scalar unit: transactional in a lane in a logged transaction. -/
def anyAccess (w : Wd) (q : Req) (s : State) : LaneOut :=
  match (s.lane? w.g q.lane).bind Thread.tx with
  | some x => if x.mode = .irrevocable then memAccess w q s else txAccess w q s x
  | none => memAccess w q s

/-- A thread in a transaction whose word runs in it: an irrevocable one is suspended in the handler (R318). -/
def Group.inTxNow (gr : Group) (l : Nat) : Bool :=
  match gr.lane? l with
  | some t => t.logged || (t.irrev && gr.handler.isNone)
  | none => false

/-- A lane that TXBEGIN holds: its hold count is not 0 (R314), or its group's cairn has not returned, after which only the lanes
of a later round begin (R345). -/
def heldBack (w : Wd) (l : Nat) : Bool := 0 < ((w.gr.lane? l).map fun t => t.txlog.hold).getD 0 || roundOut w.s w.g

/-- TXBEGIN and TXBEGIN.TS (R300, R314). -/
def txBegin (mode : TxMode) (f : RegF) (w : Wd) : Res :=
  let held := w.acting.filter (heldBack w)
  let s1 := w.s.modLanes w.g (w.acting.filter fun l => !heldBack w l) fun _ t => t.begin mode f.d w.pc
  let s2 := s1.modLanes w.g held fun _ t => { t with park := some (.hold mode f.d) }
  { Res.done (whileRunning s2 w.g Group.emptyRounds) with stay := held }

/-- The domain register a handle names: die, slice and register (R315). -/
def domainAt (h : W64) : Nat × Nat × Nat := (field h.toNat 12 3, field h.toNat 8 4, field h.toNat 0 4)
/-- A register before its first use (R315). -/
def Domain.init : Domain := { gen := 1, isOpen := false, limit := 0, next := 0, cursor := 0, owner := ⟨0, 0⟩, grid := none }
def getDomain (s : State) (h : W64) : Domain :=
  let a := domainAt h
  amGetD ((s.die a.1).slice a.2.1).domains a.2.2 Domain.init
def putDomain (s : State) (h : W64) (m : Domain) : State :=
  let a := domainAt h
  s.modSlice a.1 a.2.1 fun x => { x with domains := amPut x.domains a.2.2 m }
/-- A handle that names an open domain (R315, R316). -/
def domainLive (s : State) (h : W64) : Bool := (getDomain s h).isOpen && (getDomain s h).gen == field h.toNat 32 32
/-- A malformed handle (R316). -/
def handleBad (h : W64) : Bool :=
  field h.toNat 32 32 == 0 || field h.toNat 16 16 != 0 || field h.toNat 4 4 != 0 || bit h.toNat 15

/-- CURSOR rises by 1, and the domain closes at LIMIT (R315, R317). -/
def raiseCursor (s : State) (h : W64) : State :=
  if domainLive s h then
    let m := getDomain s h
    if m.cursor + 1 = m.limit then
      putDomain s h { m with isOpen := false, cursor := m.cursor + 1, gen := if (m.gen + 1) % 2 ^ 32 = 0 then 1 else (m.gen + 1) % 2 ^ 32 }
    else putDomain s h { m with cursor := m.cursor + 1 }
  else s

/-- CURSOR stands at a lane's uncommitted index (R317, R318). -/
def cursorAt (s : State) (t : Thread) : Bool :=
  match t.txlog.owed with
  | some h => domainLive s h && (getDomain s h).cursor == t.txlog.iter.toNat
  | none => false

/-- TXBEGIN.O in one lane (R316, R318). -/
def txBeginO (f : RegF) (h : W64) (w : Wd) (r : Res) (l : Nat) : Res :=
  match r.st.lane? w.g l with
  | none => r
  | some t =>
    let start (x : Thread) : Thread := (x.begin .ordered f.d w.pc).setP f.c.toNat true
    match t.txlog.owed with
    | some _ =>
      if t.txlog.overflowed then
        { r with
          st := r.st.modLane w.g l fun x => { x with park := some (.irrevocable f.d (BitVec.ofNat 3 f.c.toNat)) }
          stay := r.stay ++ [l] }
      else { r with st := r.st.modLane w.g l start }
    | none =>
      let m := getDomain r.st h
      if domainLive r.st h && m.next < m.limit then
        let s1 := putDomain r.st h { m with next := m.next + 1 }
        { r with st := s1.modLane w.g l fun x =>
            start { x with txlog := { x.txlog with iter := BitVec.ofNat 64 m.next, owed := some h, overflowed := false } } }
      else { r with st := r.st.modLane w.g l fun x => (x.setV f.d.toNat 0).setP f.c.toNat false }

def txBeginOBody (f : RegF) (w : Wd) : Res :=
  let h := w.gr.getS f.b.toNat
  if handleBad h then Res.trap w.s cFORBIDDEN_HERE 0x0E 0 w.acting
  else w.acting.foldl (txBeginO f h w) (Res.done w.s)

/-- What a commit leaves in a lane (R307, R308, R314, R317). -/
def Thread.commit (t : Thread) (d : Reg) (ordered : Bool) : Thread :=
  { t.setV d.toNat 0 with
    tx := none
    txlog := { t.txlog with
      hold := 0, aborts := 0, last := 0, owed := if ordered then none else t.txlog.owed
      overflowed := if ordered then false else t.txlog.overflowed } }

/-- TXCOMMIT (R308, R318): logged lanes park for the round; an irrevocable lane commits on its own. -/
def txCommitBody (f : RegF) (w : Wd) : Res :=
  let out := w.acting.filter fun l => !w.gr.inTxNow l
  if out ≠ [] then Res.trap w.s cFORBIDDEN_HERE 0x0D 0 out
  else
    let logged := w.acting.filter fun l => w.s.inLogged w.g l
    let irrev := w.acting.filter fun l => !w.s.inLogged w.g l
    let s1 := w.s.modLanes w.g logged fun _ t => { t with park := some (.commit f.d) }
    let s2 := irrev.foldl (fun st l =>
      match (st.lane? w.g l).bind fun t => t.txlog.owed with
      | some h => raiseCursor st h
      | none => st) s1
    let s3 := whileRunning ((s2.modLanes w.g irrev fun _ t => t.commit f.d true).modGroup w.g fun x =>
      { x with stop := x.stop.filter fun l => !irrev.contains l }) w.g Group.emptyRounds
    { Res.done (s3.countCore w.t.core 0x08 irrev.length) with stay := logged }

/-- TXABORT (R320). -/
def txAbortBody (f : RegF) (w : Wd) : Res :=
  let ls := w.acting.filter fun l => w.s.inLogged w.g l
  { Res.done (ls.foldl (fun st l => abortLane st w.g l 6 f.c.toNat) w.s) with stay := ls }

/-- TXSTAT's word (R321). -/
def txState (t : Thread) : Nat :=
  let mode := match t.tx with
    | none => 0
    | some x => match x.mode with
      | .value => 1
      | .stamp => 2
      | .ordered => 3
      | .irrevocable => 4
  (if t.inTx then 2 ^ 31 else 0) + mode * 2 ^ 28 + t.txlog.hold * 2 ^ 24 + t.txlog.aborts * 2 ^ 16 + t.txlog.last.toNat

/-- The slice of a die with the fewest open domains (R315). -/
def leastSlice (d : Die) : Nat :=
  let n (k : Nat) : Nat := ((d.slice k).domains.filter fun m => m.2.isOpen).length
  (List.range 16).foldl (fun best k => if n k < n best then k else best) 0

/-- The lowest free register of a slice. -/
def freeDomain (x : Slice) : Option Nat := leastFrom (fun r => !(amGetD x.domains r Domain.init).isOpen) 16 0

/-- SDOPEN (R315). -/
def sdopenBody (f : RegF) (w : Wd) : Res :=
  let first := (w.gr.getS f.a.toNat).toNat
  let count := (w.gr.getS f.b.toNat).toNat
  if count = 0 ∨ 2 ^ 32 < count ∨ 2 ^ 64 - 1 < first + count then Res.trap w.s cFORBIDDEN_HERE 0x0F 0 w.acting
  else
    let die := w.t.core / 32
    let k := leastSlice (w.s.die die)
    match freeDomain ((w.s.die die).slice k) with
    | none => Res.done (w.s.modGroup w.g fun g => g.setS f.d.toNat 0)
    | some r =>
      let gen := (amGetD ((w.s.die die).slice k).domains r Domain.init).gen
      let h := BitVec.ofNat 64 (gen * 2 ^ 32 + (16 * die + k) * 2 ^ 8 + r)
      let m : Domain :=
        { gen := gen, isOpen := true, limit := first + count, next := first, cursor := first, owner := w.g
          grid := if w.t.kind = .grid then some w.t.grid else none }
      Res.done ((putDomain w.s h m).modGroup w.g fun g => g.setS f.d.toNat h)

def execTxbegin (f : RegF) (s : State) := runWord (.txbegin f) (txBegin .value f) s
def execTxbeginTs (f : RegF) (s : State) := runWord (.txbeginTs f) (txBegin .stamp f) s
def execTxbeginO (f : RegF) (s : State) := runWord (.txbeginO f) (txBeginOBody f) s
def execTxcommit (f : RegF) (s : State) := runWord (.txcommit f) (txCommitBody f) s
def execTxabort (f : RegF) (s : State) := runWord (.txabort f) (txAbortBody f) s
def execTxstat (f : RegF) (s : State) :=
  runWord (.txstat f) (fun w => Res.done (w.s.modLanes w.g w.acting fun _ t => t.setV f.d.toNat (BitVec.ofNat 32 (txState t)))) s
def execSdopen (f : RegF) (s : State) := runWord (.sdopen f) (sdopenBody f) s

end Sys2Proof.Machine
end

