-- ==== Sys2Proof/Machine/MemWords.lean ====
section
/-! DEFINITION. The meanings of the memory words: loads, stores, residency loads and requests, MX units, atomics, fences, cache control and translation invalidation (R135 to R139, R265 to R269, R324 to R343). -/

namespace Sys2Proof.Machine

/-- The index of the memory layout in a lane, or for the scalar unit (R135). -/
def indexOf (m : MemF) (gr : Group) (t : Thread) : W64 :=
  if m.b = 0xFF then 0 else if m.x then gr.getS m.b.toNat else (t.getV m.b.toNat).signExtend 64

/-- What is added to the base (R135, R333). -/
def deltaOf (m : MemF) (gr : Group) (t : Thread) : W64 := indexOf m gr t + m.off.signExtend 64

/-- The address of the memory layout (R135). -/
def addrOf (m : MemF) (gr : Group) (t : Thread) : W64 := gr.getS m.a.toNat + deltaOf m gr t

/-- The lanes for which a die mask with a reserved bit traps (R281): a lane in a logged transaction ignores SCOPE. -/
def badMask (w : Wd) (m : MemF) (sc : Scope) : List Nat :=
  if sc == .pkg && field (w.gr.getS (m.a.toNat + 1)).toNat 8 8 != 0 then
    if m.x then w.active else w.acting.filter fun l => !w.s.inLogged w.g l
  else []

/-- A word that a die mask may stop (R281). -/
def masked (m : MemF) (sc : Scope) (body : Wd → Res) (w : Wd) : Res :=
  if sc == .pkg && field (w.gr.getS (m.a.toNat + 1)).toNat 8 8 != 0 && (m.x || badMask w m sc != []) then
    Res.trap w.s cILLEGAL_ENCODING 0 0 (badMask w m sc)
  else body w

/-- The lane that stands for the scalar unit's operands, or the lane itself. -/
def threadOf (w : Wd) (lane : Nat) : Thread := (w.gr.lane? lane).getD (Thread.start 0)

/-- A memory word's accesses: one per acting lane, or one for the group (R325, R326). -/
def accesses (m : MemF) (f : Nat → State → LaneOut) (w : Wd) : Res :=
  if m.x then scalarOnce (f 32) w else laneLoop f w

/-- The bytes a store takes from its data register (R136). -/
def storeData (m : MemF) (k : Sz) (gr : Group) (t : Thread) : List Byte :=
  if m.x then toBytes k.bytes (gr.getS m.d.toNat).toNat
  else toBytes k.bytes (t.getRun m.d.toNat (regsOf (8 * k.bytes)))

/-- A load's request in a lane. -/
def loadReq (major : Nat) (m : MemF) (k : LsMod) (pd : Option (BitVec 3)) (w : Wd) (l : Nat) : Req :=
  { major := major, lane := l, va := addrOf m w.gr (threadOf w l), n := k.sz.bytes, kind := .load m.d m.x k.sz pd
    order := k.order, scope := k.scope, evp := k.evp, lu := k.lu }

/-- A store's request in a lane. -/
def storeReq (major : Nat) (m : MemF) (k : LsMod) (w : Wd) (l : Nat) : Req :=
  { major := major, lane := l, va := addrOf m w.gr (threadOf w l), n := k.sz.bytes
    kind := .store (storeData m k.sz w.gr (threadOf w l)), order := k.order, scope := k.scope, evp := k.evp, lu := k.lu }

/-- The operands of one atomic element in a lane or the scalar unit (R335): the operand, or the pair that .cas compares
and writes. -/
def atomOperand (m : MemF) (k : AtMod) (gr : Group) (t : Thread) : Nat × Nat :=
  let w := k.aty.width
  let r (i : Nat) : Nat :=
    if m.x then (gr.getS (m.d.toNat + i)).toNat % 2 ^ w else t.getRun (m.d.toNat + i * (w / 32)) (w / 32)
  if k.aop = .cas then (r 0, r 1) else (r 0, 0)

/-- The elements of ATOMV in a lane (R337). -/
def vectorOperands (m : MemF) (k : AtMod) (t : Thread) : List (Nat × Nat) :=
  let n := k.aty.width / 32
  (List.range (8 / n)).map fun e => (t.getRun (m.d.toNat + n * e) n, 0)

/-- An atomic's request. -/
def atomReq (major : Nat) (m : MemF) (k : AtMod) (ret : Bool) (es : Thread → List (Nat × Nat)) (w : Wd) (l : Nat) : Req :=
  { major := major, lane := l, va := addrOf m w.gr (threadOf w l), n := k.aty.width / 8 * (es (threadOf w l)).length
    kind := .atom k.aty k.aop (es (threadOf w l)) ret m.d m.x, order := k.order, scope := k.scope, evp := .dflt, lu := false }

/-- The block bytes of an element type (R333). -/
def mxBytes (e : EType) : Nat := 4 * ETypeRegs e
/-- The alignment of the element address (R333). -/
def mxAddrAlign (e : EType) : Nat :=
  match e with
  | .e4m3 | .e5m2 => 32
  | .e2m3 | .e3m2 => 8
  | .e2m1 => 16

/-- Where one piece of an MX unit stands after its checks: in the team's view, at a key, on a page that is not resident, or at
the host or a peer. -/
inductive MxAt where
  | view (off : Nat)
  | mem (key e : Nat)
  | absent
  | remote
deriving DecidableEq, Repr

/-- A piece of an MX unit: the address of its part (of the elements or of the scale), its length, and where it stands. -/
structure MxPiece where
  part : W64
  n : Nat
  at_ : MxAt
deriving DecidableEq, Repr

/-- The place in the scratchpad of a part that lies inside a tile of the team (R174, R329). -/
def viewSpan (t : Team) (va n : Nat) : Option Nat := (viewOf t va).filter fun off => viewOf t (va + n - 1) == some (off + n - 1)

/-- One piece of memory of an MX unit checked (R263 to R265, R334, R437), or what its lane waits for (R243, R289, R294, R452). -/
def mxPiece (w : Wd) (store : Bool) (part : W64) (va : Nat) (s : State) : Except LaneOut (MxAt × State) :=
  let home := va / 2 ^ 60
  if store && (home == 9 || home == 10) then
    if home = 10 ∧ s.sys.stage < 4 then .error (.bad s 0 0 part)
    else if home = 10 ∧ peerOf va = s.sys.device then .error (.bad s cBAD_HOME 0 part)
    else .ok (.remote, s)
  else match remoteOlder s w.g w.t.core w.gr.ctl.asid.toNat va with
  | some id => .error (.wait s (.access id))
  | none =>
    match xlate s w.t.core w.gr.ctl.asid.toNat w.gr.ctl.priv (if store then .write else .read) va with
    | (.fault c, s1) => .error (.bad s1 c.cause c.sub part)
    | (.absent, s1) => if store then .error (.bad s1 cNONRESIDENT_STORE 0 part) else .ok (.absent, s1)
    | (.ok key e, s1) =>
      match olderAcc s1 w.g (sectorOf key) with
      | some id => .error (.wait s1 (.access id))
      | none =>
        if isLocked s1 key then .error (.wait s1 (.locked (lineOf key)))
        else if !hasRoom s1 key e then .error (.bad s1 0 0 part)
        else .ok (.mem key e, s1)

/-- The pieces of a part of an MX unit in memory: each sector is translated on its own (R261). -/
def mxPieces (w : Wd) (store : Bool) (part : W64) : List (Nat × Nat) → State → Except LaneOut (List MxPiece × State)
  | [], s => .ok ([], s)
  | (va, n) :: rest, s => match mxPiece w store part va s with
    | .error o => .error o
    | .ok (p, s1) => (mxPieces w store part rest s1).map fun r => (⟨part, n, p⟩ :: r.1, r.2)

/-- A part of an MX unit, redirected to the team's view or not on its own (R329). -/
def mxPart (w : Wd) (store : Bool) (part : W64) (n : Nat) (s : State) : Except LaneOut (List MxPiece × State) :=
  match viewSpan w.t part.toNat n with
  | some off =>
    if linesPresent ((s.team? w.g.team).getD w.t) off n then .ok ([⟨part, n, .view off⟩], s)
    else .error (.wait s (.presence off (off + n)))
  | none => mxPieces w store part (pieces part.toNat n) s

/-- A scratchpad line in error under a piece of a view. -/
def viewError (s : State) (team off n : Nat) : Option Nat :=
  ((List.range ((off + n - 1) / 128 + 1 - off / 128)).map fun i => off / 128 + i).find? fun k => s.errs.scratch.contains (team, k)

/-- The error that a load of an MX unit meets first (R250, R325). -/
def mxError (w : Wd) (ps : List MxPiece) (s : State) : Option LaneOut :=
  let asid := w.gr.ctl.asid.toNat
  ps.findSome? fun p => match p.at_ with
    | .view off => (viewError s w.g.team off p.n).map fun _ => .bad (logCoreError s w.t.core asid) cDATA_ERROR 0 p.part
    | .mem key _ => if inError s key then some (.bad (logConsumed s key asid) cDATA_ERROR 0 p.part) else none
    | _ => none

/-- The bytes of a piece, as the home reads them; a page that is not resident reads zero (R265, R334). -/
def MxPiece.read (p : MxPiece) (w : Wd) (s : State) : List Byte × State :=
  match p.at_ with
  | .view off => ((Place.view w.g.team off).read s 0 p.n, s)
  | .mem key e => (memRead s.mem key p.n, touchRead s key e (pteEvp e))
  | _ => (toBytes p.n 0, s)

/-- A piece stored at its place (R334); a partial store into an error is reported and not performed (R250). -/
def MxPiece.store (p : MxPiece) (w : Wd) (bs : List Byte) (s : State) : State :=
  match p.at_ with
  | .view off => match viewError s w.g.team off p.n with
    | some k => report s (.scratch w.g.team k)
    | none => (Place.view w.g.team off).write s 0 bs
  | .mem key e =>
    if inError s key then storeAt s key e (pteEvp e) bs else l1Update (storeAt s key e (pteEvp e) bs) w.t.core key bs
  | _ => s

/-- The pieces of a unit read in order, at one instant (R278). -/
def mxLoad (w : Wd) : List MxPiece → State → List Byte × State
  | [], s => ([], s)
  | p :: ps, s =>
    let a := p.read w s
    let r := mxLoad w ps a.2
    (a.1 ++ r.1, r.2)

/-- The pieces of a unit stored in order, at one instant (R278). -/
def mxStore (w : Wd) : List MxPiece → List Byte → State → State
  | [], _, s => s
  | p :: ps, bs, s => mxStore w ps (bs.drop p.n) (p.store w (bs.take p.n) s)

/-- A unit of which a part goes to the host or a peer: what lies in a view is stored, and the rest goes out as one access, which is
performed at one instant (R278, R329, R437). -/
def mxSend (w : Wd) (k : MxMod) (l : Nat) (ps : List MxPiece) (bs : List Byte) (parts : List (W64 × List Byte)) (s : State) : LaneOut :=
  let isView (p : MxPiece) : Bool := match p.at_ with
    | .view _ => true
    | _ => false
  let out := parts.filter fun x => !(ps.any fun p => p.part == x.1 && isView p)
  let first := ((ps.find? fun p => p.at_ == .remote).map MxPiece.part).getD 0
  match remoteAccess w ⟨0x67, l, first, 1, .unit out, k.order, k.scope, .dflt, false⟩ s with
  | .ok s1 => .ok (mxStore w (ps.map fun p => if isView p then p else { p with at_ := .remote }) bs s1)
  | o => o

/-- An MX unit moved in one lane (R333, R334): both parts are checked, the elements first, then the unit is read or written. -/
def mxAccess (m : MemF) (k : MxMod) (store : Bool) (w : Wd) (l : Nat) (s : State) : LaneOut :=
  let t := threadOf w l
  let bb := mxBytes k.et
  let delta := deltaOf m w.gr t
  let ea := w.gr.getS m.a.toNat + delta
  let sa := w.gr.getS (m.a.toNat + 1) + BitVec.ofInt 64 (delta.toInt / Int.ofNat bb)
  let r := m.d.toNat
  let n := ETypeRegs k.et
  if delta.toInt % Int.ofNat bb ≠ 0 ∨ ea.toNat % mxAddrAlign k.et ≠ 0 then .bad s cMISALIGNED 0 ea
  else
    match mxPart w store ea bb (if Order.acqs k.order && wide k.scope then l1Clear s w.t.core else s) with
    | .error o => o
    | .ok (p1, s1) =>
      match mxPart w store sa 1 s1 with
      | .error o => o
      | .ok (p2, s2) =>
        if store then
          let eb := toBytes bb (t.getRun r n)
          let sb := toBytes 1 (t.getV (r + n)).toNat
          if (p1 ++ p2).any fun p => p.at_ == .remote then mxSend w k l (p1 ++ p2) (eb ++ sb) [(ea, eb), (sa, sb)] s2
          else .ok (mxStore w (p1 ++ p2) (eb ++ sb) s2)
        else match mxError w (p1 ++ p2) s2 with
        | some o => o
        | none =>
          let x := mxLoad w (p1 ++ p2) s2
          .ok (x.2.modLane w.g l fun y => (y.setRun r n (ofBytes (x.1.take bb))).setV (r + n) (BitVec.ofNat 32 (ofBytes (x.1.drop bb))))

/-- FENCE (R340): its release part has waited at the issue; its acquire part at .die or wider invalidates the L1. -/
def fenceBody (o : Order) (sc : Scope) (w : Wd) : Res :=
  Res.done (if Order.acqs o && wide sc then l1Clear w.s w.t.core else w.s)

/-- The line that a load of an address would use (R341). -/
def lineFor (w : Wd) (s : State) (va : Nat) : Option Nat × State :=
  let home := va / 2 ^ 60
  if home = 10 then (some (lineOf (memKey 10 (va % 2 ^ 60))), s)
  else if 11 ≤ home ∨ (home ≤ 7 ∧ !s.dieUp home) then (none, s)
  else
    let r := findLeaf s w.t.core w.gr.ctl.asid.toNat home va
    match r.1 with
    | .error _ => (none, r.2)
    | .ok l => (if pteRes l.e then some (lineOf (leafKey l home va)) else none, r.2)

/-- CCTL.LINE at one address (R341). -/
def cctlLineAt (w : Wd) (s : State) (va : Nat) : State :=
  match lineFor w s va with
  | (some line, s1) => l1Drop (l1Drop s1 w.t.core (2 * line)) w.t.core (2 * line + 1)
  | (none, s1) => s1

/-- CCTL.IFETCH at one address (R228, R341). -/
def cctlFetchAt (w : Wd) (s : State) (va : Nat) : State :=
  match lineFor w s va with
  | (some line, s1) =>
    if amHas (s1.core w.t.core).icache line then
      s1.modCore w.t.core fun c => { c with icache := amDel c.icache line }
    else s1
  | (none, s1) => s1

/-- The addresses of a word that acts on addresses alone: each acting lane's, or the one of the scalar unit. -/
def addrsOf (m : MemF) (w : Wd) : List Nat :=
  if m.x then [(addrOf m w.gr (threadOf w 32)).toNat] else w.acting.map fun l => (addrOf m w.gr (threadOf w l)).toNat

/-- What a word does at each of its addresses in turn. -/
def eachAddr (m : MemF) (f : State → Nat → State) (w : Wd) : Res := Res.done ((addrsOf m w).foldl f w.s)

/-- The walk of an address waits for a locked line, or for room (R243, R294). -/
def walkWaits (w : Wd) (va : Nat) : Bool :=
  let home := va / 2 ^ 60
  home ≤ 9 && match (lookLeaf w.s (fun k => heldUp w.s k 0) w.t.core w.gr.ctl.asid.toNat home va).out with
    | .error c => c.cause == 0
    | .ok _ => false

/-- A word that walks at each of its addresses: it waits while one of the walks does. -/
def eachWalk (m : MemF) (f : State → Nat → State) (w : Wd) : Res :=
  if (addrsOf m w).any (walkWaits w) then Res.trap w.s 0 0 0 [] else eachAddr m f w

/-- PREQ's requests in turn (R332): the word waits while one of them does. -/
def preqBody (m : MemF) (w : Wd) : Res :=
  match (addrsOf m w).foldlM (fun st va => postResidency st w.t.core w.gr.ctl.asid.toNat w.t.ctx w.gr.ctl.priv va) w.s with
  | some s1 => Res.done s1
  | none => Res.trap w.s 0 0 0 []

/-- Every entry of an ASID on the path of an address removed, with the page from the request filters (R266, R268). -/
def tlbiPageAt (asid : Nat) (s : State) (va : Nat) : State :=
  let s1 := s.setTlb (s.tlb.filter fun e =>
    !(tlbAsid e.1 == asid && tlbPrefix e.1 == va / 2 ^ levelShift (tlbLevel e.1)))
  s1.setSys { s1.sys with filters := s1.sys.filters.map fun f =>
    (f.1, f.2.filter fun p => p != pageKey asid 0 va && p != pageKey asid 1 va) }

/-- Every entry of an ASID, or of every ASID, removed. -/
def tlbiWhere (p : Nat → Bool) (s : State) : State :=
  let s1 := s.setTlb (s.tlb.filter fun e => !p (tlbAsid e.1))
  s1.setSys { s1.sys with filters := s1.sys.filters.map fun f => (f.1, f.2.filter fun k => !p (k / 2 ^ 49)) }

/-- The ordered transactions of an ASID, or of any, that hold entries abort with ORDER, and run again with their index (R317). -/
def dropOrdered (asid : Option (BitVec 12)) (s : State) : State :=
  s.groupRefs.foldl (fun st g =>
    ((loggedLanes st g).filter fun l => ((st.lane? g l).bind Thread.tx).any fun x => x.mode == .ordered && x.uses asid).foldl
      (fun u l => abortLane u g l 0x0A 0) st) s

/-- TLBI is complete once no access that could use a removed entry is outstanding (R269): it waits for that first, and aborts the
transactions of its own lanes when it executes (R343). DESIGN CHOICE (log 126): an ordered transaction, whose turn may have to wait for
the thread that issues the TLBI, aborts instead. -/
def whenQuiet (asid : Option (BitVec 12)) (body : Wd → Res) (w : Wd) : Res :=
  if moduleQuiet w.s asid then
    let s1 := dropOrdered asid w.s
    { body { w with s := s1 } with stay := w.active.filter fun l => w.s.inLogged w.g l && !s1.inLogged w.g l }
  else parkAll w w.s0 (.quiet asid)

/-- The scratchpad request of LDS and STS. -/
def scratchWord (m : MemF) (req : Wd → Nat → Req) (w : Wd) : Res :=
  accesses m (fun l s => scratchAccess w (req w l) s) w

def execLd (m : MemF) (k : LsMod) (s : State) :=
  runWord (.ld m k) (masked m k.scope fun w => accesses m (fun l st => anyAccess w (loadReq 0x60 m k none w l) st) w) s
def execSt (m : MemF) (k : LsMod) (s : State) :=
  runWord (.st m k) (masked m k.scope fun w => accesses m (fun l st => anyAccess w (storeReq 0x61 m k w l) st) w) s
def execLds (m : MemF) (k : LsMod) (s : State) := runWord (.lds m k) (scratchWord m (loadReq 0x62 m k none)) s
def execSts (m : MemF) (k : LsMod) (s : State) := runWord (.sts m k) (scratchWord m (storeReq 0x63 m k)) s
def execLdr (m : MemF) (k : LdrMod) (s : State) :=
  runWord (.ldr m k) (masked m k.scope fun w => accesses m (fun l st =>
    anyAccess w (loadReq 0x64 m ⟨k.sz, k.order, k.scope, .dflt, false⟩ (some k.pd) w l) st) w) s
def execPreq (m : MemF) (s : State) :=
  runWord (.preq m) (preqBody m) s
def execLdMx (m : MemF) (k : MxMod) (s : State) := runWord (.ldMx m k) (fun w => laneLoop (mxAccess m k false w) w) s
def execStMx (m : MemF) (k : MxMod) (s : State) := runWord (.stMx m k) (fun w => laneLoop (mxAccess m k true w) w) s
def execAtom (m : MemF) (k : AtMod) (s : State) :=
  runWord (.atom m k) (masked m k.scope fun w => accesses m (fun l st =>
    anyAccess w (atomReq 0x68 m k true (fun t => [atomOperand m k w.gr t]) w l) st) w) s
def execAtomv (m : MemF) (k : AtMod) (s : State) :=
  runWord (.atomv m k) (masked m k.scope fun w => accesses m (fun l st =>
    anyAccess w (atomReq 0x69 m k true (vectorOperands m k) w l) st) w) s
def execRed (m : MemF) (k : AtMod) (s : State) :=
  runWord (.red m k) (masked m k.scope fun w => accesses m (fun l st =>
    anyAccess w (atomReq 0x6A m k false (fun t => [atomOperand m k w.gr t]) w l) st) w) s
def execFence (m : MemF) (o : Order) (sc : Scope) (s : State) :=
  runWord (.fence m o sc) (fun w =>
    if sc == .pkg && field (w.gr.getS m.a.toNat).toNat 8 8 != 0 then Res.trap w.s cILLEGAL_ENCODING 0 0 w.acting
    else fenceBody o sc w) s
def execCctlLine (m : MemF) (s : State) := runWord (.cctlLine m) (fun w => eachWalk m (cctlLineAt w) w) s
def execCctlAll (m : MemF) (s : State) := runWord (.cctlAll m) (fun w => Res.done (l1Clear w.s w.t.core)) s
def execCctlIfetch (m : MemF) (s : State) := runWord (.cctlIfetch m) (fun w => eachWalk m (cctlFetchAt w) w) s
def execTlbiPage (m : MemF) (s : State) :=
  runWord (.tlbiPage m) (fun w => whenQuiet (some w.gr.ctl.asid) (eachAddr m (tlbiPageAt w.gr.ctl.asid.toNat)) w) s
def execTlbiAsid (m : MemF) (s : State) :=
  runWord (.tlbiAsid m) (fun w => whenQuiet (some w.gr.ctl.asid) (fun w' => Res.done (tlbiWhere (fun a => a == w.gr.ctl.asid.toNat) w'.s)) w) s
def execTlbiAll (m : MemF) (s : State) :=
  runWord (.tlbiAll m) (whenQuiet none fun w => Res.done (tlbiWhere (fun _ => true) w.s)) s

end Sys2Proof.Machine
end

