-- ==== Sys2Proof/Machine/Retire.lean ====
section
/-! DEFINITION. Retirement of groups, the finish of teams and the freeing of their slots (R165, R166, R177, R191). -/

namespace Sys2Proof.Machine

/-- A group that retires: every thread has exited and nothing it issued or holds is outstanding (R165, R352). -/
def groupQuiet (s : State) (g : GRef) (gr : Group) : Bool :=
  (gr.lanes.all fun t => t.exited) && gr.handler.isNone && gr.held.isEmpty && gr.pendTrap.isNone &&
  gr.cpy.n == 0 && gr.mtx.n == 0 && gr.net.n == 0 && gr.rem.n == 0 && drained s g

/-- The groups of a team that can retire do. -/
def retireGroups (s : State) (team : Nat) : State :=
  match s.team? team with
  | none => s
  | some t => s.putTeam team { t with
      groups := t.groups.mapIdx fun i gr => if groupQuiet s ⟨team, i⟩ gr then { gr with retired := true } else gr }

/-- The bound frames a team owns. -/
def ownedFrames (s : State) (team : Nat) : List Nat :=
  (s.frames.filter fun f => (f.2.owner.map GRef.team) == some team).map Prod.fst

/-- Frames whose implicit SYNC by a team has not ended. -/
def implicitLeft (s : State) (team : Nat) : Bool := s.frames.any fun f => f.2.sync == some (.implicit team)

/-- A team that waits to be back on its core (R163, R402, R415): a finished one only while a fault or a handler of it is still
to run. -/
def Team.wantsCore (t : Team) : Bool :=
  match t.phase with
  | .ended => false
  | .folding | .leaving => t.groups.any fun g => g.handler.isSome || !g.held.isEmpty || g.pendTrap.isSome
  | _ => true

/-- A saved team of a grid that does not want its core any more leaves the tail of its grid; the next one there is its head from now
on (R153, R163). -/
def leaveTail (s : State) (team : Nat) : State :=
  match s.team? team with
  | none => s
  | some t =>
    if t.kind = .grid ∧ !t.wantsCore then s.setGrids (amMod s.grids t.grid fun g =>
      { g with tail := g.tail.filter (· ≠ team), headSince := if g.tail.head? = some team then s.time.datum else g.headSince })
    else s

/-- The second step of a finish (R177): a child waits for its fold; any other team frees its slot once its groups have all
retired (R165, R166). -/
def finishTeam (s : State) (team : Nat) : State :=
  match s.team? team with
  | none => s
  | some t =>
    match t.parent with
    | some (f, i) =>
      leaveTail ((s.putTeam team { t with phase := .folding }).setFrames
        (amMod s.frames f fun fr => { fr with waiting := amPut fr.waiting i team })) team
    | none => letGo s team

/-- A handler whose group has retired without settling its stake breaks it (R191), and its inbox entry is free (R185). -/
def retireHandler (s : State) (team : Nat) (t : Team) : State :=
  match t.inv with
  | none => s
  | some h =>
    let s1 := s.putTeam team { t with inv := some { h with settled := true, boxFree := true } }
    if h.settled then s1 else settle s1 h.issuer h.slot (.broken 0x60 0 0)

/-- A team whose groups have all retired: a handler's unsettled stake breaks, then every frame it owns is synced
implicitly, and where it owns none it finishes (R177, R191). -/
def teamRetired (s : State) (team : Nat) : State :=
  match s.team? team with
  | none => s
  | some t =>
    if t.phase = .running ∧ t.kind ≠ .merge ∧ t.quiet then
      let s1 := retireHandler s team t
      match ownedFrames s1 team with
      | [] => finishTeam s1 team
      | fs => (s1.modTeam team fun x => { x with phase := .syncing }).setFrames
          (s1.frames.map fun f => if fs.contains f.1 then (f.1, { f.2 with sync := some (.implicit team) }) else f)
    else if t.phase = .leaving then letGo s team
    else s

/-- Retirement after anything of a team has ended. An ended team's slot is freed instead (R411). -/
def retire (s : State) (team : Nat) : State :=
  match s.team? team with
  | none => s
  | some t =>
    if t.phase = .ended then reapTeam s team
    else teamRetired (retireGroups s team) team

/-- The complete operations at the head of a group's class, in issue order (R350). -/
def countable (s : State) (g : GRef) (cls : Nat) : List Nat :=
  ((s.ops.filter fun o => o.2.g = g && o.2.cls == cls).takeWhile fun o => o.2.st == .complete).map Prod.fst

/-- Completions counted in issue order (R350). -/
def countOps (s : State) (g : GRef) (cls : Nat) : State :=
  let ids := countable s g cls
  (s.setOps (s.ops.filter fun o => !ids.contains o.1)).modGroup g fun gr =>
    let c := gr.counter cls
    gr.setCounter cls { c with n := c.n - ids.length }

/-- An operation is complete: it is counted with what waited behind it, and its group may retire (R350, R352). -/
def opDone (s : State) (id : Nat) : State :=
  match amGet s.ops id with
  | none => s
  | some o =>
    let s1 := if o.cls = 0 then s.countCore (((s.team? o.g.team).map Team.core).getD 0) 0x0B 1 else s
    retire (countOps (s1.setOps (amMod s1.ops id fun x => { x with st := .complete })) o.g o.cls) o.g.team

/-- A saved team joins the tail of the waiting work of its grid (R163, R164). -/
def joinTail (s : State) (team : Nat) (t : Team) : State :=
  let n := s.newId
  let s1 := n.2.putTeam team { t with queued := n.1, since := s.time.datum }
  if t.kind = .grid then s1.setGrids (amMod s1.grids t.grid fun g => { g with tail := g.tail.filter (· ≠ team) ++ [team] }) else s1

/-- An asynchronous fault held by a group until it is delivered (R401). A team that has ended takes none; a finished team that was
saved waits from now on to be back on its core, where the fault is delivered (R402, R415). -/
def holdFault (s : State) (g : GRef) (f : AFault) : State :=
  match s.team? g.team with
  | some t =>
    if t.phase = .ended then s
    else
      let t1 : Team := { t with groups := modNth t.groups g.ix fun x => { x with held := x.held ++ [f] } }
      if !t.resident && !t.wantsCore then joinTail s g.team t1 else s.putTeam g.team t1
  | none => s

end Sys2Proof.Machine
end

