-- ==== Sys2Proof/Machine/Places.lean ====
section
/-! DEFINITION. Where work stands and where it fits: dies, cores, clusters, the resources of a core and its free slots (R149 to R152, R173, R184, R424). -/

namespace Sys2Proof.Machine

/-- The built number of a logical core (R424). -/
def builtNo (s : State) (core : Nat) : Nat := (s.die (core / 32)).built.getD (core % 32) 32

/-- The enabled cores of the cluster of a core, in ascending logical order (R203, R424). -/
def clusterOf (s : State) (core : Nat) : List Nat :=
  let c := builtNo s core / 4
  ((List.range (s.die (core / 32)).built.length).filter fun l => builtNo s (core / 32 * 32 + l) / 4 == c).map
    fun l => core / 32 * 32 + l

/-- The enabled cores of a die, ascending. -/
def coresOf (s : State) (die : Nat) : List Nat :=
  (List.range (s.die die).built.length).map fun l => die * 32 + l

/-- The teams that hold a slot on a core: resident teams, merge groups apart. -/
def teamsOn (s : State) (core : Nat) : List (Nat × Team) :=
  s.teams.filter fun t => t.2.resident && t.2.core == core && t.2.kind != .merge

/-- What a team takes of a core (R149, R173). -/
structure Need where
  ngroups : Nat
  regs : Nat
  scratch : Nat
  accs : Nat
  bars : Nat
  tiles : Nat
deriving DecidableEq, Repr

/-- The v-registers of a list of groups' budgets. -/
def regSum (bs : List Nat) : Nat := (bs.map fun b => 32 * b).sum

/-- What a team that holds its slot has taken. -/
def Team.need (t : Team) : Need :=
  ⟨t.groups.length, regSum (t.groups.map Group.budget), t.units, t.accs, t.bars.length, t.tiles.length⟩

/-- A team fits a core beside what is there (R150, R173). Of an ended team the barriers have ended, the share stays. -/
def fits (s : State) (core : Nat) (n : Need) : Bool :=
  let ts := (teamsOn s core).map Prod.snd
  let sum (f : Need → Nat) : Nat := (ts.map fun t => f t.need).sum
  ts.length < 16 && sum Need.ngroups + n.ngroups ≤ 64 && sum Need.regs + n.regs ≤ 131072 &&
  sum Need.scratch + n.scratch ≤ 64 && sum Need.accs + n.accs ≤ 4 && sum Need.bars + n.bars ≤ 128 &&
  sum Need.tiles + n.tiles ≤ 64

/-- A team would fit an empty core (R148 check 9). -/
def fitsEmpty (n : Need) : Bool :=
  n.ngroups ≤ 64 && n.regs ≤ 131072 && n.scratch ≤ 64 && n.accs ≤ 4 && n.bars ≤ 128 && n.tiles ≤ 64

/-- The group slots in use on a core. -/
def slotsOn (s : State) (core : Nat) : List Nat := (teamsOn s core).flatMap fun t => t.2.groups.map Group.slot

/-- The occupied group slots of a pipe. -/
def onPipe (used : List Nat) (p : Nat) : Nat := (used.filter fun k => k / 16 == p).length

/-- The pipe with the fewest occupied slots, the lowest at a tie (R151). -/
def leastPipe (used : List Nat) : Nat :=
  [1, 2, 3].foldl (fun best p => if onPipe used p < onPipe used best then p else best) 0

/-- The group slots that `n` groups take, in GROUPID order (R151). -/
def placeGroups : Nat → List Nat → List Nat
  | 0, _ => []
  | n + 1, used =>
    let p := leastPipe used
    let k := 16 * p + (leastFree ((used.filter fun k => k / 16 == p).map fun k => k % 16) 16).getD 0
    k :: placeGroups n (k :: used)

/-- The team slot that a team takes. DESIGN CHOICE (log 110): the spec numbers the 16 slots of a core (R175) and does not say which
one a team takes; here the lowest that is free. -/
def freeTeamSlot (s : State) (core : Nat) : Nat := (leastFree ((teamsOn s core).map fun t => t.2.slot) 16).getD 0

/-- The first core of a die that passes a test, in round-robin order after the die's last choice (R152). -/
def nextCore (s : State) (die : Nat) (ok : Nat → Bool) : Option Nat :=
  let n := (s.die die).built.length
  let last := (s.die die).lastCore
  ((List.range n).map fun k => die * 32 + (if n ≤ last then k else (last + 1 + k) % n)).find? ok

/-- The operations that hold a slot of a cluster's holding buffer (R365). -/
def holdingUsed (s : State) (core : Nat) : Nat :=
  (s.ops.filter fun o => match o.2.kind with
    | .copy _ _ _ _ _ _ rcv => rcv ≠ [] && ((s.team? o.2.g.team).map fun t => (clusterOf s core).contains t.core).getD false
    | _ => false).length

/-- Every line of a range counts fewer than 255 copies (R223). -/
def linesCountable (t : Team) (lo hi : Nat) : Bool :=
  (List.range ((hi + 127) / 128 - lo / 128)).all fun i => (amGetD t.absent (lo / 128 + i) []).length < 255

end Sys2Proof.Machine
end

