-- ==== Sys2Proof/Machine/Issue.lean ====
section
/-! DEFINITION. The issue of one word for a group (R23, R31, R154, R158, R401): which lanes issue, the fetch, the decode traps. -/

namespace Sys2Proof.Machine

/-- A parked thread whose word can issue again (R154): what it waits for has come about. -/
def parkReady (s : State) (g : GRef) (t : Team) (gr : Group) (th : Thread) (p : Park) : Bool :=
  match p with
  | .presence lo hi => match s.team? (scratchOwner s g.team) with
    | some o => hi ≤ lo || linesPresent o lo (hi - lo)
    | none => true
  | .counter cls n => (gr.counter cls).n ≤ n
  | .pool n => (s.die (t.core / 32)).pool.length + n ≤ 4096
  | .holding => holdingUsed s t.core < 16
  | .hold _ _ => th.txlog.hold == 0 && !roundOut s g
  | .locked line => !amHas s.locks line
  | .cplQueue => (s.core t.core).cplq < 256
  | .access a => !amHas s.pend a
  | .quiet asid => moduleQuiet s asid
  | .lineCount lo hi => match s.team? (scratchOwner s g.team) with
    | some o => linesCountable o lo hi
    | none => true
  | _ => false

/-- A runnable thread (R154). -/
def runnable (s : State) (g : GRef) (t : Team) (gr : Group) (th : Thread) : Bool :=
  !th.exited && match th.park with
    | none => true
    | some p => parkReady s g t gr th p

/-- The lanes of a group that can run. -/
def runnableLanes (s : State) (g : GRef) (t : Team) (gr : Group) : List Nat :=
  (List.range 32).filter fun l => ((gr.lane? l).map (runnable s g t gr)).getD false

/-- The PC of a lane. -/
def lanePc (gr : Group) (l : Nat) : Nat := ((gr.lane? l).map fun t => t.pc.toNat).getD 0

/-- The least of a list of numbers. -/
def leastOf : List Nat → Option Nat
  | [] => none
  | x :: xs => match leastOf xs with
    | none => some x
    | some y => some (if x ≤ y then x else y)

/-- The choice of R154: the PC and the lanes that stand at it. -/
def chooseIssue (s : State) (g : GRef) (t : Team) (gr : Group) : Option (W64 × List Nat) :=
  let run := runnableLanes s g t gr
  let starved := run.filter fun l => 64 ≤ ((gr.lane? l).map Thread.wait).getD 0
  match leastOf ((if starved = [] then run else starved).map (lanePc gr)) with
  | none => none
  | some pc => some (BitVec.ofNat 64 pc, run.filter fun l => lanePc gr l == pc)

/-- A word that parked the lane counts once (R305): its count is taken back before it issues again. -/
def Tx.recount (x : Tx) : Tx := { x with issues := x.issues - 1 }

/-- The wait counts after an issue (R154), and the parks of the lanes that issue again. -/
def Group.countWaits (gr : Group) (run issuing : List Nat) : Group :=
  gr.modLanes run fun l t =>
    if issuing.contains l then { t with wait := 0, park := none, tx := if t.park.isSome then t.tx.map Tx.recount else t.tx }
    else { t with wait := t.wait + 1 }

/-- What a fetch gives. -/
inductive Fetched where
  | trap (cause sub : Nat) (addr : W64)
  | wait
  | word (w : W64)
deriving DecidableEq, Repr

/-- The word at a key in its 128-byte line. -/
def wordOf (line : List Byte) (key : Nat) : W64 := BitVec.ofNat 64 (ofBytes ((line.drop (key % 128)).take 8))

/-- The fetch of the word at a PC (R15, R23, R228, R250, R263 to R265): through the core's instruction cache. A line of which the
other sector is in error gives its word and is not kept; both sectors of the line are read at the home (R236), and one that is locked
by a cairn, or without room, makes the fetch wait (R243, R294). -/
def fetchWord (s : State) (core asid : Nat) (priv : Bool) (pc : W64) : Fetched × State :=
  if pc.toNat % 8 ≠ 0 then (.trap cMISALIGNED_PC 0 pc, s)
  else
    match xlate s core asid priv .fetch pc.toNat with
    | (.fault c, s1) => if c.cause = 0 then (.wait, s) else (.trap c.cause c.sub pc, s1)
    | (.absent, s1) => (.trap cNONRESIDENT_EXEC 0 pc, s1)
    | (.ok key e, s1) =>
      match amGet (s1.core core).icache (lineOf key) with
      | some line => if line.bad then (.trap cDATA_ERROR 0 pc, logCoreError s1 core asid) else (.word (wordOf line.data key), s1)
      | none =>
        let other := (sectorOf key ^^^ 1) * 64
        if heldUp s1 key e || heldUp s1 other e then (.wait, s)
        else if inError s1 key then (.trap cDATA_ERROR 0 pc, logConsumed s1 key asid)
        else
          let line := memRead s1.mem (key / 128 * 128) 128
          let s2 := touchRead (touchRead s1 key e (pteEvp e)) other e (pteEvp e)
          (.word (wordOf line key), if (lineSectors (lineOf key) 2).any fun k => s.errs.sectors.contains k then s2
            else icachePut s2 core (lineOf key) line)

/-- The trap of a decode error (R31). -/
def decodeCause (e : DecodeError) : Nat :=
  match e with
  | .illegalOpcode => cILLEGAL_OPCODE
  | .illegalEncoding => cILLEGAL_ENCODING
  | .illegalPair => cILLEGAL_PAIR

/-- A trap raised at the fetch or the decode for every issuing lane (R31, R155, R305). -/
def issueTrap (s : State) (g : GRef) (t : Team) (lanes : List Nat) (pc : W64) (cause sub : Nat) (addr : W64) : State :=
  let q := countIssue s g lanes
  if q.2 = [] then q.1
  else
    let gr := (q.1.group? g).getD (Group.start 0 0 0 0 (Ctl.start 0 0 0))
    finish ⟨s, q.1, g, t, gr, q.2, q.2, pc, false⟩ (.trap q.1 cause sub addr q.2)

/-- A group that may issue: resident and not retired, its core running, no trap entry waiting (R154, R395, R412). -/
def canIssue (s : State) (g : GRef) : Bool :=
  match s.team? g.team, s.group? g with
  | some t, some gr =>
    t.resident && !t.saving && !gr.retired && gr.pendTrap.isNone && (s.core t.core).running && s.dieUp (t.core / 32) &&
    !(!gr.held.isEmpty && gr.handler.isNone) && !s.sys.tripped
  | _, _ => false

/-- What an issue comes to: nothing, a trap taken at the fetch or decode, or a word to run. -/
inductive IssueOut where
  | idle
  | trapped (s : State)
  | run (i : Instr) (s : State)

/-- A per-lane word of type .f64, which occupies its pipe's issue for two core clocks (R159). -/
def Instr.longIssue (i : Instr) : Bool :=
  !Instr.scalar i && match i with
    | .faddImm f | .fsubImm f | .fmulImm f | .fminImm f | .fmaxImm f | .fminnImm f | .fmaxnImm f => f.ty == .f64
    | _ => match regInfo i with
      | some (_, f) => f.ty == .f64
      | none => false

/-- A group issues: its pipe is held up to a clock, which is its last (R158, R159). -/
def holdUntil (s : State) (g : GRef) (core pipe clk : Nat) : State :=
  (s.modGroup g fun x => { x with lastClk := some clk }).modCore core fun c => { c with pipeClk := amPut c.pipeClk pipe clk }

/-- The issue holds its pipe for the clock, or for two (R159). DEDUCED (log 121): the second clock of a per-lane .f64 word counts as
one in which its group issued. -/
def holdPipe (s : State) (g : GRef) (core pipe : Nat) (i : Instr) : State :=
  if Instr.longIssue i then holdUntil s g core pipe (s.time.clk + 1) else s

/-- The bytes that a lane's part of a word reaches in a scratchpad, and whether it reads and writes there: LDS and STS, and accesses
to the team's views (R329). -/
def scratchPart (s : State) (g : GRef) (t : Team) (gr : Group) (i : Instr) (th : Thread) : Option (Nat × Nat × Bool × Bool) :=
  let direct (m : MemF) (n : Nat) (wr : Bool) :=
    ((s.team? (scratchOwner s g.team)).bind fun o => (scratchAt o (addrOf m gr th).toNat n).toOption).map fun off => (off, n, !wr, wr)
  let view (m : MemF) (n : Nat) (rd wr : Bool) := (viewOf t (addrOf m gr th).toNat).map fun off => (off, n, rd, wr)
  match i with
  | .lds m k => direct m k.sz.bytes false
  | .sts m k => direct m k.sz.bytes true
  | .ld m k => view m k.sz.bytes true false
  | .ldr m k => view m k.sz.bytes true false
  | .st m k => view m k.sz.bytes false true
  | .atom m k | .red m k => view m (k.aty.width / 8) true true
  | .atomv m _ => view m 32 true true
  | .ldMx m k => view m (mxBytes k.et) true false
  | .stMx m k => view m (mxBytes k.et) false true
  | _ => none

/-- The clocks beyond the first that a word's accesses take (R222): a bank serves one 64-byte half of a line for reading and one for
writing in a clock. -/
def bankClocks (ps : List (Nat × Nat × Bool × Bool)) : Nat :=
  let halves (sel : Bool × Bool → Bool) : List Nat :=
    (ps.flatMap fun p => if sel p.2.2 then (List.range ((p.1 + p.2.1 - 1) / 64 + 1 - p.1 / 64)).map (p.1 / 64 + ·) else []).eraseDups
  let most (hs : List Nat) : Nat := hs.foldl (fun n h => max n (hs.filter fun k => k / 2 % 32 == h / 2 % 32).length) 0
  max (most (halves Prod.fst)) (most (halves Prod.snd)) - 1

/-- The bank conflicts of a word counted (R460). A word that waits for presence is counted when it issues again. -/
def countBanks (s : State) (g : GRef) (t : Team) (gr : Group) (i : Instr) (lanes : List Nat) : State :=
  if (s.core t.core).csel.isEmpty then s
  else
    let ps := ((if Instr.scalar i then lanes.take 1 else lanes).filterMap gr.lane?).filter
      (fun th => th.getP (Instr.guard i).p.toNat != (Instr.guard i).neg) |>.filterMap (scratchPart s g t gr i)
    let there (p : Nat × Nat × Bool × Bool) : Bool :=
      ((s.team? (scratchOwner s g.team)).map fun o => linesPresent o p.1 p.2.1).getD false
    if ps.all there then s.countCore t.core 0x06 (bankClocks ps) else s

/-- One issue, and one pair issue, counted (R460). -/
def countIssued (s : State) (core : Nat) (i : Instr) : State :=
  match i with
  | .pair _ _ => (s.countCore core 0x02 1).countCore core 0x03 1
  | _ => s.countCore core 0x02 1

/-- The issue of one word by a group: the choice of lanes, the fetch and the decode; a word that must wait does not
issue and changes nothing. -/
def beginIssue (s : State) (g : GRef) (defer : Bool) : IssueOut :=
  match s.team? g.team, s.group? g with
  | some t, some gr =>
    if !canIssue s g then .idle
    else match chooseIssue s g t gr with
      | none => .idle
      | some (pc, lanes) =>
        let f := fetchWord s t.core gr.ctl.asid.toNat gr.ctl.priv pc
        let issued := holdUntil (f.2.modGroup g fun x => { x.countWaits (runnableLanes s g t gr) lanes with yielded := false })
          g t.core (gr.slot / 16) s.time.clk
        match f.1 with
        | .wait => .idle
        | .trap c sub a => .trapped (issueTrap issued g t lanes pc c sub a)
        | .word w => match decode w with
          | .error e => .trapped (issueTrap issued g t lanes pc (decodeCause e) 0 0)
          | .ok i => if stalls s g i then .idle
              else .run i ((countBanks (countIssued (holdPipe issued g t.core (gr.slot / 16) i) t.core i) g t gr i lanes).setCur (some ⟨g, maskOf lanes, pc, defer⟩))
  | _, _ => .idle

end Sys2Proof.Machine
end

