-- ==== Sys2Proof/Machine/Schedule.lean ====
section
/-! DEFINITION. The pipe's choice among its groups (R158 to R160), and the passing of time (R2). -/

namespace Sys2Proof.Machine

/-- The groups of a core that wait for presence (R224, R460). -/
def presenceWaits (s : State) (core : Nat) : Nat :=
  (s.groupRefs.filter fun g => match s.team? g.team, s.group? g with
    | some t, some gr => t.resident && t.core == core && gr.lanes.any fun th => match th.park with
      | some (.presence _ _) => true
      | _ => false
    | _, _ => false).length

/-- Core clocks, clocks in which groups wait for presence, and datum ticks, counted by the counters that select them (R460). -/
def countTime (s : State) (clocks ticks : Nat) : State :=
  let s1 := s.cores.foldl (fun st c => if c.2.csel.isEmpty || !c.2.running then st
    else (st.countCore c.1 0x01 clocks).countCore c.1 0x07 (clocks * presenceWaits s c.1)) s
  s1.dies.foldl (fun st d => if d.2.dsel = [] then st else st.countDie d.1 0x01 ticks) s1

/-- The core clocks that fall into the next `n` datum ticks, at the present rate (R2, R464). -/
def clocksIn (s : State) (n : Nat) : Nat := s.sys.mhz * (s.time.datum + n) / 1000 - s.sys.mhz * s.time.datum / 1000

/-- `n` datum ticks pass, with what is left of their core clocks: the datum clock is constant, the core clock runs at the
rate that power and throttling give it (R2, R464). -/
def elapse (s : State) (n : Nat) : State :=
  if n = 0 then s
  else
    let clocks := clocksIn s n - s.time.part
    (countTime s clocks n).setTime { clk := s.time.clk + clocks, datum := s.time.datum + n, part := 0 }

/-- One datum tick passes, and the core clocks that fall into it (R2, R464). -/
def tick (s : State) : State := elapse s 1

/-- One core clock passes: within the datum tick where a clock is left in it, else with the tick. -/
def clockPasses (s : State) : State :=
  if s.time.part < clocksIn s 1 then (countTime s 1 0).setTime { s.time with clk := s.time.clk + 1, part := s.time.part + 1 }
  else tick s

/-- The groups on a pipe of a core (R151). DEDUCED (log 120): the merge slot, a slot of its own (R179), issues as a pipe of its own,
number 4. -/
def pipeGroups (s : State) (core pipe : Nat) : List GRef :=
  s.groupRefs.filter fun g => match s.team? g.team, s.group? g with
    | some t, some gr => t.resident && t.core == core && gr.slot / 16 == pipe
    | _, _ => false

/-- A group that can issue a word now. -/
def readyGroup (s : State) (g : GRef) : Bool :=
  match beginIssue s g false with
  | .idle => false
  | _ => true

/-- The clock from which a group has gone without issuing, the age of its team, and its slot. DESIGN CHOICE (log 144): R158 ranks by
slot the groups of one team; those of different teams admitted in one clock are ranked by slot too. -/
def rankOf (s : State) (g : GRef) : Nat × Nat × Nat :=
  match s.team? g.team, s.group? g with
  | some t, some gr => (max (gr.lastClk.getD 0) t.age, t.age, gr.slot)
  | _, _ => (0, 0, 0)

/-- Lexicographic order of ranks. -/
def rankLess (a b : Nat × Nat × Nat) : Bool :=
  a.1 < b.1 || (a.1 == b.1 && (a.2.1 < b.2.1 || (a.2.1 == b.2.1 && a.2.2 < b.2.2)))

/-- The first of a list under a rank. -/
def bestOf (rank : GRef → Nat × Nat × Nat) : List GRef → Option GRef
  | [] => none
  | g :: gs => match bestOf rank gs with
    | none => some g
    | some h => some (if rankLess (rank h) (rank g) then h else g)

/-- The group was issued in the previous clock (R158). -/
def issuedLast (s : State) (g : GRef) : Bool :=
  match (s.group? g).bind Group.lastClk with
  | some c => c + 1 == s.time.clk
  | none => false

/-- The group's last word was a YIELD. -/
def hasYielded (s : State) (g : GRef) : Bool := ((s.group? g).map Group.yielded).getD false

/-- The oldest of the ready groups (R158 step 3). -/
def oldest (s : State) (gs : List GRef) : Option GRef := bestOf (fun g => (0, (rankOf s g).2)) gs

/-- The choice of R158 among the ready groups of a pipe: one that has waited 256 clocks or more; else the one issued in the
previous clock unless it yielded; else the oldest, a group that yielded in the previous clock only where there is no other (R160). -/
def pickGroup (s : State) (ready : List GRef) : Option GRef :=
  match ready.filter fun g => (rankOf s g).1 + 256 ≤ s.time.clk with
  | g :: gs => bestOf (rankOf s) (g :: gs)
  | [] => match ready.filter fun g => issuedLast s g && !hasYielded s g with
    | g :: _ => some g
    | [] => match ready.filter fun g => !(issuedLast s g && hasYielded s g) with
      | g :: gs => oldest s (g :: gs)
      | [] => oldest s ready

/-- An issue holds the pipe in this clock, also where its team's slot is free again (R158, R159). -/
def pipeHeld (s : State) (core pipe : Nat) : Bool :=
  match amGet (s.core core).pipeClk pipe with
  | some c => s.time.clk ≤ c
  | none => false

/-- The group that a pipe issues in this clock (R158): none where an issue holds the pipe, or no group is ready; the groups of
`busy` are not. -/
def pickIssue (s : State) (core pipe : Nat) (busy : List GRef) : Option GRef :=
  if pipeHeld s core pipe then none
  else pickGroup s ((pipeGroups s core pipe).filter fun g => !busy.contains g && readyGroup s g)

/-- The pipe of a group. -/
def pipeOf (s : State) (g : GRef) : Nat × Nat :=
  match s.team? g.team, s.group? g with
  | some t, some gr => (t.core, gr.slot / 16)
  | _, _ => (0, 0)

/-- The pipe whose turn it is where the schedule leaves it open: that of the ready group that has gone longest without issuing. -/
def nextPipe (s : State) : Option (Nat × Nat) :=
  (bestOf (rankOf s) (s.groupRefs.filter fun g => readyGroup s g && !pipeHeld s (pipeOf s g).1 (pipeOf s g).2)).map (pipeOf s)

end Sys2Proof.Machine
end

