-- ==== Sys2Proof/Machine/Boot.lean ====
section
/-! DEFINITION. A word placed where the next issue fetches it: in memory at the PC where a group is about to issue, else with a program of one group loaded from outside the machine. -/

namespace Sys2Proof.Machine

/-- Eight bytes of a table node of die 0, at a frame address read under scheme 0 (R257). -/
def putNode (m : Mem) (frame val : Nat) : Mem := memWrite m (memKey 0 (interleave 0 frame)) (toBytes 8 val)

/-- The page table of the loaded program: virtual page 0x1_0000 of home 0 at frame 0x10_0000, scheme 3, user, R, W, X
and A; the root at frame address 0, its descendants at 0x8000 to 0xB000. -/
def bootTable (m : Mem) : Mem :=
  putNode (putNode (putNode (putNode (putNode m 0x0 0x8003) 0x8000 0x9003) 0x9000 0xA003) 0xA000 0xB003) 0xB008 0x10187D

/-- Where the loaded program's first word stands. -/
def bootKey : Nat := memKey 0 0x100000
def bootPc : W64 := 0x10000#64
def bootAsid : BitVec 12 := 1#12

/-- The context of the loaded program: no trap handler, trap area, save pool or residency queue of its own beyond
the addresses named here. -/
def bootCtx : Ctx :=
  { alive := true, asid := bootAsid, ptbase := 1#64, trapbase := bootPc, traparea := 0#64, savepool := 0#64, savesize := 0,
    saves := [], resq := 0#64, msix := 0, priv := false, posts := 0, events := [], handles := [] }

/-- Its launch: one team of one group of budget 256 on die 0. -/
def bootGrid : Grid :=
  { ctx := 0, queue := 0, tag := 0#32, prio := 0, dies := [0], roles := [⟨bootPc, 256, 1⟩], teamCount := 1, scratch := 0,
    accs := 0, bars := 0, slice := 500000, argp := 0#64, templates := [], fmts := [], trees := [], hasTrees := false,
    tiles := [], ljoin := none, handles := [], deps := [], nextTeam := 1, lastDie := 0, headSince := 0, tail := [],
    status := 0, detail := 0, applied := false, done := false, endCore := 0 }

/-- Its team, resident on core 0 of die 0. -/
def bootTeam : Team :=
  { kind := .grid, grid := 0, ctx := 0, asid := bootAsid, prio := 0, core := 0, slot := 0, age := 0, resident := true,
    since := 0, phase := .running, teamid := 0#32, teams := 1#32, argp := 0#64, units := 0, scratchUnits := 0, accs := 0,
    scratch := [], absent := [], acc := [], bars := [], tiles := [], parent := none, inv := none, work := none,
    groups := [Group.start 0 256 0 bootPc (Ctl.start bootPc 1#64 bootAsid)], heldIn := [], queued := 0, saving := false }

/-- The access rights of an ASID bound to a context, at every memory target (R456). -/
def grantAll (s : State) (asid rights : Nat) : State :=
  s.setSys { s.sys with access :=
    (List.range 130).foldl (fun m t => amPut m (t * 65536 + asid) rights) s.sys.access }

/-- A machine with the program loaded: the start finished, die 0 admitted, the context bound, its team admitted. -/
def loadProgram (s : State) : State :=
  let s1 := (s.modDie 0 fun d => { d with st := .up, lastCore := 0 }).setSys { s.sys with stage := 4, admitting := true }
  let s2 := ((((s1.setMem (bootTable s1.mem)).setRoots (amPut s1.roots bootAsid.toNat 1#64)).setCtxs
    (amPut s1.ctxs 0 bootCtx)).setGrids (amPut s1.grids 0 bootGrid)).setTeams (amPut s1.teams 0 bootTeam)
  grantAll (s2.setFresh (s2.fresh + 1)) bootAsid.toNat 7

/-- The group that the next turn issues: the choice of the agenda's pipe where its head names one. -/
def nextGroup (s : State) (dflt : Option GRef) : Option GRef :=
  match s.agenda with
  | .issue core pipe busy _ _ :: _ => pickIssue s core pipe busy
  | _ :: _ => none
  | [] => dflt

/-- Where a group fetches its next word, if it can. -/
def fetchKey (s : State) (g : GRef) : Option Nat :=
  match s.team? g.team, s.group? g with
  | some t, some gr =>
    if !canIssue s g then none
    else match chooseIssue s g t gr with
      | none => none
      | some (pc, _) =>
        if pc.toNat % 8 ≠ 0 then none
        else match (xlate s t.core gr.ctl.asid.toNat gr.ctl.priv .fetch pc.toNat).1 with
          | .ok key _ => some key
          | _ => none
  | _, _ => none

/-- A word stored at a key of memory, where no instruction cache holds the line. -/
def placeWord (s : State) (key : Nat) (w : Nat) : State :=
  (s.setMem (memWrite s.mem key (toBytes 8 w))).setCores
    (s.cores.map fun c => (c.1, { c.2 with icache := amDel c.2.icache (lineOf key) }))

/-- The word is placed at the next group's PC; where no group is about to fetch, the program is loaded first and its
issue stands next on the agenda. -/
def fetchPlaced (s : State) (dflt : Option GRef) (w : Nat) : State :=
  match (nextGroup s dflt).bind (fetchKey s) with
  | some key => placeWord s key w
  | none => (placeWord (loadProgram s) bootKey w).setAgenda [.issue 0 0 [] false .tick]

end Sys2Proof.Machine
end

