-- ==== Sys2Proof/Machine/Float.lean ====
section
/-! DEFINITION. The meanings of the floating-point words and the approximated functions (R114 to R121). -/

namespace Sys2Proof.Machine

/-- The format of a floating-point type; f32 for the types no floating-point word allows. -/
def fmtD (ty : Ty) : Fmt := (fmtOf ty).getD fmtF32

/-- One element's inputs, read with flushing (R55). -/
def fin (ty : Ty) (ctl : FpCtl) (n : Nat) : FVal := fread (fmtD ty) (flushOf ctl (fmtD ty)) n

/-- An operation on one element of an operand, or on both elements of a packed operand (R51, R114). -/
def elementwise (ty : Ty) (op : Nat → Nat → Nat → FRes) (x : AluIn) : AluOut :=
  if ty.packed then
    let lo := op (x.a % 2 ^ 16) (x.b % 2 ^ 16) (x.c % 2 ^ 16)
    let hi := op (x.a / 2 ^ 16) (x.b / 2 ^ 16) (x.c / 2 ^ 16)
    ⟨lo.bits + 2 ^ 16 * hi.bits, [], lo.fl ||| hi.fl⟩
  else outF (op x.a x.b x.c)

/-- A rounded operation with sources a and b. -/
def fpBin (ty : Ty) (rnd : Rnd) (op : Fmt → Mode → Bool → FVal → FVal → FRes) (x : AluIn) : AluOut :=
  elementwise ty (fun a b _ =>
    op (fmtD ty) (modeOf rnd x.ctl) (flushOf x.ctl (fmtD ty)) (fin ty x.ctl a) (fin ty x.ctl b)) x
/-- A rounded operation with the source a. -/
def fpUn (ty : Ty) (rnd : Rnd) (op : Fmt → Mode → Bool → FVal → FRes) (x : AluIn) : AluOut :=
  elementwise ty (fun a _ _ => op (fmtD ty) (modeOf rnd x.ctl) (flushOf x.ctl (fmtD ty)) (fin ty x.ctl a)) x
/-- FFMA. -/
def fpFma (ty : Ty) (rnd : Rnd) (x : AluIn) : AluOut :=
  elementwise ty (fun a b c =>
    ffma (fmtD ty) (modeOf rnd x.ctl) (flushOf x.ctl (fmtD ty)) (fin ty x.ctl a) (fin ty x.ctl b) (fin ty x.ctl c)) x
/-- FSUB is FADD of the negated second source (R115). -/
def fsub (f : Fmt) (mode : Mode) (flush : Bool) (a b : FVal) : FRes := fadd f mode flush a b.flip
/-- FSCALE: one i32 scales every element (R115). -/
def fpScale (ty : Ty) (rnd : Rnd) (x : AluIn) : AluOut :=
  let n := toSigned 32 x.b
  elementwise ty (fun a _ _ =>
    fscale (fmtD ty) (modeOf rnd x.ctl) (flushOf x.ctl (fmtD ty)) (fin ty x.ctl a) n) x
/-- FMIN to FMAXN (R54, R116). -/
def fpMinMax (ty : Ty) (isMax preferNumber : Bool) (x : AluIn) : AluOut :=
  elementwise ty (fun a b _ => fminmax (fmtD ty) isMax preferNumber (fin ty x.ctl a) (fin ty x.ctl b)) x

/-- The conditions of FCMP (R73). -/
def floatCond (cc : Nat) (a b : FVal) : Bool :=
  let un := a.isNan || b.isNan
  let lt := fless false a b
  let gt := fless false b a
  let eq := feq a b
  match cc with
  | 0 => eq
  | 1 => !eq
  | 2 => lt
  | 3 => lt || eq
  | 4 => gt
  | 5 => gt || eq
  | 6 => !un
  | 7 => un
  | 8 => lt || un
  | 9 => lt || eq || un
  | 10 => gt || un
  | 11 => gt || eq || un
  | _ => eq || un

/-- FCMP (R117). -/
def floatCmp (ty : Ty) (cc p : Nat) (x : AluIn) : AluOut :=
  let a := fin ty x.ctl x.a
  let b := fin ty x.ctl x.b
  outP p (floatCond cc a b) (flWhen (a.isSnan || b.isSnan) flNV)

/-- FCLASS (R118). -/
def classify (ty : Ty) (x : AluIn) : AluOut :=
  let f := fmtD ty
  outD (match fdecode f x.a with
    | .nan true => 2 ^ 8
    | .nan false => 2 ^ 9
    | .inf neg => if neg then 2 ^ 0 else 2 ^ 7
    | .fin neg m _ =>
      if m = 0 then (if neg then 2 ^ 3 else 2 ^ 4)
      else if isSubnormal f x.a then (if neg then 2 ^ 2 else 2 ^ 5)
      else (if neg then 2 ^ 1 else 2 ^ 6))

/-- An approximated function (R120, R121). -/
def fpApprox (fn : AFn) (ty : Ty) (x : AluIn) : AluOut :=
  elementwise ty (fun a _ _ => approxElem fn (fmtD ty) (flushOf x.ctl (fmtD ty)) a) x

def execFadd (f : RegF) (s : State) := runAlu (.fadd f) (fpBin f.ty f.rnd fadd) s
def execFsub (f : RegF) (s : State) := runAlu (.fsub f) (fpBin f.ty f.rnd fsub) s
def execFmul (f : RegF) (s : State) := runAlu (.fmul f) (fpBin f.ty f.rnd fmul) s
def execFfma (f : RegF) (s : State) := runAlu (.ffma f) (fpFma f.ty f.rnd) s
def execFmin (f : RegF) (s : State) := runAlu (.fmin f) (fpMinMax f.ty false false) s
def execFmax (f : RegF) (s : State) := runAlu (.fmax f) (fpMinMax f.ty true false) s
def execFminn (f : RegF) (s : State) := runAlu (.fminn f) (fpMinMax f.ty false true) s
def execFmaxn (f : RegF) (s : State) := runAlu (.fmaxn f) (fpMinMax f.ty true true) s
def execFcmp (f : RegF) (s : State) := runAlu (.fcmp f) (floatCmp f.ty f.op.toNat f.d.toNat) s
def execFclass (f : RegF) (s : State) := runAlu (.fclass f) (classify f.ty) s
def execFrnd (f : RegF) (s : State) := runAlu (.frnd f) (fpUn f.ty f.rnd frnd) s
def execFscale (f : RegF) (s : State) := runAlu (.fscale f) (fpScale f.ty f.rnd) s
def execFdiv (f : RegF) (s : State) := runAlu (.fdiv f) (fpBin f.ty f.rnd fdiv) s
def execFsqrt (f : RegF) (s : State) := runAlu (.fsqrt f) (fpUn f.ty f.rnd fsqrt) s
def execFrcp (f : RegF) (s : State) := runAlu (.frcp f) (fpApprox .rcp f.ty) s
def execFrsq (f : RegF) (s : State) := runAlu (.frsq f) (fpApprox .rsq f.ty) s
def execFexp2 (f : RegF) (s : State) := runAlu (.fexp2 f) (fpApprox .exp2 f.ty) s
def execFlog2 (f : RegF) (s : State) := runAlu (.flog2 f) (fpApprox .log2 f.ty) s
def execFsin (f : RegF) (s : State) := runAlu (.fsin f) (fpApprox .sin f.ty) s
def execFcos (f : RegF) (s : State) := runAlu (.fcos f) (fpApprox .cos f.ty) s
def execFtanh (f : RegF) (s : State) := runAlu (.ftanh f) (fpApprox .tanh f.ty) s
/-- The immediate forms round by FPCTL.RM (R119). -/
def execFaddImm (f : ImmF) (s : State) := runAluImm (.faddImm f) f (immFloat f) (fpBin f.ty .ctl fadd) s
def execFsubImm (f : ImmF) (s : State) := runAluImm (.fsubImm f) f (immFloat f) (fpBin f.ty .ctl fsub) s
def execFmulImm (f : ImmF) (s : State) := runAluImm (.fmulImm f) f (immFloat f) (fpBin f.ty .ctl fmul) s
def execFminImm (f : ImmF) (s : State) := runAluImm (.fminImm f) f (immFloat f) (fpMinMax f.ty false false) s
def execFmaxImm (f : ImmF) (s : State) := runAluImm (.fmaxImm f) f (immFloat f) (fpMinMax f.ty true false) s
def execFminnImm (f : ImmF) (s : State) := runAluImm (.fminnImm f) f (immFloat f) (fpMinMax f.ty false true) s
def execFmaxnImm (f : ImmF) (s : State) := runAluImm (.fmaxnImm f) f (immFloat f) (fpMinMax f.ty true true) s

end Sys2Proof.Machine
end

