-- ==== Sys2Proof/Machine/Logic.lean ====
section
/-! DEFINITION. The meanings of the logic and bit-manipulation words (R99 to R105). -/

namespace Sys2Proof.Machine

/-- A bitwise function of two operands. -/
def logic2 (op : Nat → Nat → Nat) (x : AluIn) : AluOut := outD (op x.a x.b)

/-- NOT (R99). -/
def logicNot (w : Nat) (x : AluIn) : AluOut := outD (ones w - x.a % 2 ^ w)

/-- lut of LOP3 and PSET (R100): OP supplies bits 7 to 4, AUX bits 4 to 1 bits 3 to 0. -/
def lutOf (f : RegF) : Nat := f.op.toNat * 16 + f.aux.toNat / 2

/-- One bit of a truth table (R100). -/
def lutBit (lut : Nat) (a b c : Bool) : Bool := bit lut ((if a then 1 else 0) + (if b then 2 else 0) + (if c then 4 else 0))

/-- LOP3 (R100). -/
def lop3 (w lut : Nat) (x : AluIn) : AluOut :=
  outD (ofBits w fun i => lutBit lut (bit x.a i) (bit x.b i) (bit x.c i))

/-- The shifts and the rotate of R101, with their count. -/
def shlVal (w a n : Nat) : Nat := if w ≤ n then 0 else a * 2 ^ n % 2 ^ w
def shrVal (w a n : Nat) : Nat := if w ≤ n then 0 else a % 2 ^ w / 2 ^ n
def sarVal (w a n : Nat) : Nat := wrap w (toSigned w a / Int.ofNat (2 ^ (if n < w - 1 then n else w - 1)))
def rotVal (w a n : Nat) : Nat := (a % 2 ^ w * 2 ^ (n % w) + a % 2 ^ w / 2 ^ (w - n % w)) % 2 ^ w

/-- A shift of a by the count b. -/
def shiftOp (op : Nat → Nat → Nat → Nat) (w : Nat) (x : AluIn) : AluOut := outD (op w x.a x.b)

/-- FSHF (R102). -/
def fshfVal (left : Bool) (w a b n : Nat) : Nat :=
  let m := n % w
  let v := a % 2 ^ w * 2 ^ w + b % 2 ^ w
  if left then v * 2 ^ m / 2 ^ w % 2 ^ w else v / 2 ^ m % 2 ^ w
def funnel (left : Bool) (w : Nat) (x : AluIn) : AluOut := outD (fshfVal left w x.a x.b x.c)

/-- BFE (R103). -/
def bfeVal (sgn : Bool) (w a f : Nat) : Nat :=
  let pos := f % 256
  let len := if w < f / 256 % 256 then w else f / 256 % 256
  let bitAt (i : Nat) : Bool := if i < w then bit a i else sgn && bit a (w - 1)
  let raw := ofBits len fun k => bitAt (pos + k)
  if len = 0 then 0 else if sgn then sextNat len w raw else raw
def bitExtract (ty : Ty) (x : AluIn) : AluOut := outD (bfeVal ty.signed ty.width x.a x.b)

/-- BFI (R103). -/
def bfiVal (w a f c : Nat) : Nat :=
  let pos := f % 256
  let len := f / 256 % 256
  ofBits w fun i => if pos ≤ i && i < pos + len then bit a (i - pos) else bit c i
def bitInsert (w : Nat) (x : AluIn) : AluOut := outD (bfiVal w x.a x.b x.c)

/-- POPC, CLZ, CTZ and BREV (R104). -/
def bitCount (op : Nat → Nat → Nat) (w : Nat) (x : AluIn) : AluOut := outD (op w x.a)

/-- One byte of PRMT (R105). -/
def prmtByte (src sel : Nat) : Nat :=
  let b := bitsAt src (sel % 8) 8
  match sel / 8 % 4 with
  | 0 => b
  | 1 => 0x00
  | 2 => 0xFF
  | _ => if 128 ≤ b then 0xFF else 0x00
/-- PRMT (R105). -/
def permute (x : AluIn) : AluOut :=
  let src := x.a % 2 ^ 32 + x.b % 2 ^ 32 * 2 ^ 32
  outD (packElems 8 ((List.range 4).map fun j => prmtByte src (bitsAt x.c j 8)))

def execAnd (f : RegF) (s : State) := runAlu (.and f) (logic2 (· &&& ·)) s
def execOr (f : RegF) (s : State) := runAlu (.or f) (logic2 (· ||| ·)) s
def execXor (f : RegF) (s : State) := runAlu (.xor f) (logic2 (· ^^^ ·)) s
def execNot (f : RegF) (s : State) := runAlu (.not f) (logicNot f.ty.width) s
def execLop3 (f : RegF) (s : State) := runAlu (.lop3 f) (lop3 f.ty.width (lutOf f)) s
def execShl (f : RegF) (s : State) := runAlu (.shl f) (shiftOp shlVal f.ty.width) s
def execShr (f : RegF) (s : State) := runAlu (.shr f) (shiftOp shrVal f.ty.width) s
def execSar (f : RegF) (s : State) := runAlu (.sar f) (shiftOp sarVal f.ty.width) s
def execRot (f : RegF) (s : State) := runAlu (.rot f) (shiftOp rotVal f.ty.width) s
def execFshfL (f : RegF) (s : State) := runAlu (.fshfL f) (funnel true f.ty.width) s
def execFshfR (f : RegF) (s : State) := runAlu (.fshfR f) (funnel false f.ty.width) s
def execBfe (f : RegF) (s : State) := runAlu (.bfe f) (bitExtract f.ty) s
def execBfi (f : RegF) (s : State) := runAlu (.bfi f) (bitInsert f.ty.width) s
def execPopc (f : RegF) (s : State) := runAlu (.popc f) (bitCount popcount f.ty.width) s
def execClz (f : RegF) (s : State) := runAlu (.clz f) (bitCount clz f.ty.width) s
def execCtz (f : RegF) (s : State) := runAlu (.ctz f) (bitCount ctz f.ty.width) s
def execBrev (f : RegF) (s : State) := runAlu (.brev f) (bitCount brev f.ty.width) s
def execPrmt (f : RegF) (s : State) := runAlu (.prmt f) permute s
/-- The immediate forms (R75, R97): the logic forms sign-extend, the shifts take bits 5 to 0. -/
def execAndImm (f : ImmF) (s : State) := runAluImm (.andImm f) f (immExt f true) (logic2 (· &&& ·)) s
def execOrImm (f : ImmF) (s : State) := runAluImm (.orImm f) f (immExt f true) (logic2 (· ||| ·)) s
def execXorImm (f : ImmF) (s : State) := runAluImm (.xorImm f) f (immExt f true) (logic2 (· ^^^ ·)) s
def execShlImm (f : ImmF) (s : State) := runAluImm (.shlImm f) f (f.imm.toNat % 64) (shiftOp shlVal f.ty.width) s
def execShrImm (f : ImmF) (s : State) := runAluImm (.shrImm f) f (f.imm.toNat % 64) (shiftOp shrVal f.ty.width) s
def execSarImm (f : ImmF) (s : State) := runAluImm (.sarImm f) f (f.imm.toNat % 64) (shiftOp sarVal f.ty.width) s
def execRotImm (f : ImmF) (s : State) := runAluImm (.rotImm f) f (f.imm.toNat % 64) (shiftOp rotVal f.ty.width) s

end Sys2Proof.Machine
end

