-- ==== Sys2Proof/Machine/Parallel.lean ====
section
/-! DEFINITION. The meanings of the group-wide words and of the barriers (R193 to R205, R293). -/

namespace Sys2Proof.Machine

/-- A lane's operand of `w` bits. -/
def laneVal (w : Wd) (r : Reg) (bits l : Nat) : Nat := ((w.gr.lane? l).map fun t => t.getRun r.toNat (bits / 32)).getD 0
/-- A lane's predicate. -/
def lanePred (w : Wd) (r : Reg) (l : Nat) : Bool := ((w.gr.lane? l).map fun t => t.getP (r.toNat % 8)).getD false

/-- SHFL's source lane (R195). -/
def shflLane (mode wd l n : Nat) : Option Nat :=
  let o := l % wd
  let base := l - o
  match mode with
  | 0 => some (base + n % wd)
  | 1 => if n ≤ o then some (l - n) else none
  | 2 => if n < wd - o then some (l + n) else none
  | 3 => if o ^^^ n < wd then some (base + (o ^^^ n)) else none
  | _ => some (base + (o + n) % 2 ^ 32 % wd)

/-- The lane whose value SHFL delivers in a lane, if there is one and it acts (R195). -/
def shflSource (f : RegF) (w : Wd) (l : Nat) : Option Nat :=
  let n := if f.bs then (w.gr.getS f.b.toNat).toNat % 2 ^ 32 else laneVal w f.b 32 l
  (shflLane f.op.toNat (32 / 2 ^ f.aux.toNat) l n).bind fun j => if w.acting.contains j then some j else none

/-- SHFL (R194, R195). -/
def shflBody (f : RegF) (w : Wd) : Res :=
  Res.done (w.s.modLanes w.g w.acting fun l t =>
    match shflSource f w l with
    | some j => (t.setRun f.d.toNat (f.ty.width / 32) (laneVal w f.a f.ty.width j)).setP (f.c.toNat % 8) true
    | none => (t.setRun f.d.toNat (f.ty.width / 32) (laneVal w f.a f.ty.width l)).setP (f.c.toNat % 8) false)

/-- The lanes of a vote whose predicate is 1 (R196). -/
def voters (f : RegF) (w : Wd) : List Nat := w.acting.filter (lanePred w f.a)

/-- A predicate written in every acting lane. -/
def allPred (f : RegF) (v : Nat → Bool) (w : Wd) : Res :=
  Res.done (w.s.modLanes w.g w.acting fun l t => t.setP (f.d.toNat % 8) (v l))
/-- A single register written in every acting lane. -/
def allReg (f : RegF) (v : Nat → W32) (w : Wd) : Res :=
  Res.done (w.s.modLanes w.g w.acting fun l t => t.setV f.d.toNat (v l))

/-- The acting lanes whose value equals a lane's (R196). -/
def peersOf (f : RegF) (w : Wd) (l : Nat) : List Nat :=
  w.acting.filter fun k => laneVal w f.a f.ty.width k == laneVal w f.a f.ty.width l

def matchUniformBody (f : RegF) (w : Wd) : Res :=
  let same := w.acting.all fun l => (peersOf f w l).length == w.acting.length
  Res.done (w.s.modLanes w.g w.acting fun _ t =>
    (t.setV f.d.toNat (if same then maskOf w.acting else 0)).setP (f.c.toNat % 8) same)

def tyFloat (ty : Ty) : Bool := (fmtOf ty).isSome

/-- One step of a reduction (R115, R169, R198). -/
def combine (ty : Ty) (op : Nat) (rnd : Rnd) (ctl : FpCtl) (a b : Nat) : Nat × Fl :=
  let x : AluIn := { a := a, b := b, c := 0, d := 0, ps := 0, ctl := ctl }
  let o := match op with
    | 0 => if tyFloat ty then fpBin ty rnd fadd x else intBin ty false fAdd x
    | 1 => if tyFloat ty then fpMinMax ty false false x else intBin ty false fMin x
    | 2 => if tyFloat ty then fpMinMax ty true false x else intBin ty false fMax x
    | 3 => logic2 (· &&& ·) x
    | 4 => logic2 (· ||| ·) x
    | _ => logic2 (· ^^^ ·) x
  (o.d, o.fl)

/-- The identity of an operation (R169, R198). -/
def identityOf (ty : Ty) (op : Nat) : Nat :=
  let w := ty.width
  match op with
  | 0 => if tyFloat ty then 2 ^ (w - 1) else 0
  | 1 => if tyFloat ty then infBits (fmtD ty) else wrap w (maxOf ty.signed w)
  | 2 => if tyFloat ty then infBits (fmtD ty) + 2 ^ (w - 1) else wrap w (minOf ty.signed w)
  | 3 => ones w
  | _ => 0

/-- One level of the tree of R198: neighbours combined, lower lanes on the left. -/
def treeLevel (f : Nat → Nat → Nat × Fl) : List Nat → List Nat × Fl
  | a :: b :: rest =>
    let x := f a b
    let r := treeLevel f rest
    (x.1 :: r.1, x.2 ||| r.2)
  | xs => (xs, flNone)

/-- Five levels (R198). -/
def treeFold (f : Nat → Nat → Nat × Fl) : Nat → List Nat → Nat × Fl
  | 0, xs => (xs.headD 0, flNone)
  | n + 1, xs =>
    let a := treeLevel f xs
    let r := treeFold f n a.1
    (r.1, a.2 ||| r.2)

/-- GRED (R197, R198). -/
def gredBody (f : RegF) (w : Wd) : Res :=
  let ctl := ((w.gr.lane? (w.acting.headD 0)).map Thread.fpctl).getD 0
  let xs := (List.range 32).map fun l =>
    if w.acting.contains l then laneVal w f.a f.ty.width l else identityOf f.ty f.op.toNat
  let r := treeFold (combine f.ty f.op.toNat f.rnd ctl) 5 xs
  Res.done (w.s.modLanes w.g w.acting fun _ t => (t.setRun f.d.toNat (f.ty.width / 32) r.1).orFlags r.2)

/-- A barrier after `n` arrivals, and the phases they completed (R201). -/
def Barrier.arrive (b : Barrier) (n : Nat) : Barrier × Nat :=
  let k := (b.count + n) / b.expect
  ({ b with phase := b.phase + BitVec.ofNat 16 k, count := (b.count + n) % b.expect }, k)

/-- A barrier of a team. -/
def barrierOf (s : State) (team b : Nat) : Option Barrier := (s.team? team).bind fun t => t.bars[b]?

/-- An arrival applied as one step: a phase it completes releases every thread parked on the barrier (R201). -/
def arriveAt (s : State) (team b n : Nat) : State :=
  match barrierOf s team b with
  | none => s
  | some x =>
    let r := x.arrive n
    let s1 := s.modTeam team fun t => { t with bars := setNth t.bars b r.1 }
    if 1 ≤ r.2 then wakeWhere s1 (fun g p => g.team == team && p == .barrier b) ⟨[], none, none⟩ else s1

/-- A thread of the team stands parked on the barrier. -/
def someoneAt (s : State) (team b : Nat) : Bool :=
  match s.team? team with
  | none => false
  | some t => t.groups.any fun gr => (List.range 32).any fun l => (parksOf gr l).any fun k => k.2 == .barrier b

/-- A barrier word where the barrier exists (R200). -/
def withBarrier (f : RegF) (body : Barrier → Wd → Res) (w : Wd) : Res :=
  match barrierOf w.s w.g.team f.aux.toNat with
  | none => Res.trap w.s cFORBIDDEN_HERE 0x08 0 w.active
  | some b => body b w

/-- BAR.INIT (R202). -/
def barInitBody (f : RegF) (b : Barrier) (w : Wd) : Res :=
  let v := (w.gr.getS f.a.toNat).toNat
  if v = 0 ∨ 1024 < v ∨ b.count ≠ 0 ∨ someoneAt w.s w.g.team f.aux.toNat then Res.trap w.s cFORBIDDEN_HERE 0x09 0 w.active
  else Res.done (w.s.modTeam w.g.team fun t => { t with bars := setNth t.bars f.aux.toNat { b with expect := v } })

/-- BAR.ARR (R201). -/
def barArrBody (f : RegF) (b : Barrier) (w : Wd) : Res :=
  Res.done (arriveAt (w.s.modGroup w.g fun g => g.setS f.d.toNat (b.phase.setWidth 64)) w.g.team f.aux.toNat w.active.length)

/-- The active threads park on the barrier. -/
def parkAtBarrier (w : Wd) (s : State) (b : Nat) : Res :=
  { Res.done (s.modLanes w.g w.active fun _ t => { t with park := some (.barrier b) }) with stay := w.active }

/-- BAR.SYNC (R201). -/
def barSyncBody (f : RegF) (b : Barrier) (w : Wd) : Res :=
  let s1 := arriveAt w.s w.g.team f.aux.toNat w.active.length
  if 1 ≤ (b.arrive w.active.length).2 then Res.done s1 else parkAtBarrier w s1 f.aux.toNat

/-- BAR.WAIT (R201). -/
def barWaitBody (f : RegF) (b : Barrier) (w : Wd) : Res :=
  if (w.gr.getS f.a.toNat).setWidth 16 = b.phase then parkAtBarrier w w.s f.aux.toNat else Res.done w.s

/-- The team that a remote arrival names (R203). DESIGN CHOICE (log 113): the rule speaks of another team and lists no trap for a
word that names the sender's own; its arrival is applied like any other. -/
def remoteTeam (w : Wd) (x : Nat) : Option (Nat × Team) :=
  match (clusterOf w.s w.t.core)[x % 4]? with
  | none => none
  | some c => w.s.teams.find? fun t =>
      t.2.kind == .grid && t.2.grid == w.t.grid && t.2.core == c && t.2.teamid.toNat == x / 2 ^ 32

/-- The number that names a sending thread; lane 32 is the group's scalar unit. -/
def senderOf (g : GRef) (l : Nat) : Nat := (g.team * 64 + g.ix) * 33 + l

/-- BAR.ARR.RMT (R203): its threads park until the target core accepts the arrival. -/
def barRmtBody (f : RegF) (w : Wd) : Res :=
  let x := (w.gr.getS f.b.toNat).toNat
  if w.t.kind = .merge then Res.trap w.s cFORBIDDEN_HERE 0x08 0 w.active
  else if w.t.kind ≠ .grid ∨ field x 2 30 ≠ 0 then Res.trap w.s cFORBIDDEN_HERE 0x0A 0 w.active
  else match remoteTeam w x with
  | none => Res.trap w.s cFORBIDDEN_HERE 0x0A 0 w.active
  | some t =>
    if t.2.bars.length ≤ f.aux.toNat then Res.trap w.s cFORBIDDEN_HERE 0x08 0 w.active
    else
      let n := w.s.newId
      let m : StakeMsg := ⟨senderOf w.g 32, w.s.fresh, 0, .arrival w.g t.1 f.aux.toNat w.active.length, none, false⟩
      { Res.done ((n.2.setMsgs (amPut n.2.msgs n.1 m)).modLanes w.g w.active fun _ t => { t with park := some (.accept n.1) })
        with stay := w.active }

/-- An earlier arrival of the same sending team at the same barrier is on its way (R203). -/
def arrivalBefore (s : State) (msg : Nat) (g : GRef) (team b : Nat) : Bool :=
  s.msgs.any fun x => x.1 < msg && match x.2.kind with
    | .arrival h t k _ => h.team == g.team && t == team && k == b
    | _ => false

/-- REMOTE_ARRIVAL: the target core accepts an arrival, which applies it, or holds it for a saved team; the sender's
word completes. A release at .die reaches the core (R203, R293, R414). -/
def remoteArrivalOf (msg : Nat) (s : State) : State :=
  match amGet s.msgs msg with
  | some ⟨_, _, _, .arrival g team b n, _, _⟩ =>
    if arrivalBefore s msg g team b then s else
    let s1 := wakeGroup (s.setMsgs (amDel s.msgs msg)) g (fun p => p == .accept msg) ⟨[], none, none⟩
    match s1.team? team with
    | none => s1
    | some t =>
      if t.resident then arriveAt (l1Clear s1 t.core) team b n
      else s1.putTeam team { t with heldIn := t.heldIn ++ [.arrival b n] }
  | _ => s

def execShfl (f : RegF) (s : State) := runWord (.shfl f) (shflBody f) s
def execVoteEvery (f : RegF) (s : State) :=
  runWord (.voteEvery f) (fun w => allPred f (fun _ => w.acting.all (lanePred w f.a)) w) s
def execVoteSome (f : RegF) (s : State) :=
  runWord (.voteSome f) (fun w => allPred f (fun _ => w.acting.any (lanePred w f.a)) w) s
def execVoteSame (f : RegF) (s : State) :=
  runWord (.voteSame f) (fun w => allPred f (fun _ =>
    w.acting.all (lanePred w f.a) || !(w.acting.any (lanePred w f.a))) w) s
def execVoteMask (f : RegF) (s : State) := runWord (.voteMask f) (fun w => allReg f (fun _ => maskOf (voters f w)) w) s
def execVoteCount (f : RegF) (s : State) :=
  runWord (.voteCount f) (fun w => allReg f (fun _ => BitVec.ofNat 32 (voters f w).length) w) s
def execMatchPeers (f : RegF) (s : State) := runWord (.matchPeers f) (fun w => allReg f (fun l => maskOf (peersOf f w l)) w) s
def execMatchUniform (f : RegF) (s : State) := runWord (.matchUniform f) (matchUniformBody f) s
def execElect (f : RegF) (s : State) := runWord (.elect f) (fun w => allPred f (fun l => l == w.acting.headD 32) w) s
def execGred (f : RegF) (s : State) := runWord (.gred f) (gredBody f) s
def execBarInit (f : RegF) (s : State) := runWord (.barInit f) (withBarrier f (barInitBody f)) s
def execBarArr (f : RegF) (s : State) := runWord (.barArr f) (withBarrier f (barArrBody f)) s
def execBarArrRmt (f : RegF) (s : State) := runWord (.barArrRmt f) (barRmtBody f) s
def execBarWait (f : RegF) (s : State) := runWord (.barWait f) (withBarrier f (barWaitBody f)) s
def execBarSync (f : RegF) (s : State) := runWord (.barSync f) (withBarrier f (barSyncBody f)) s
def execRemoteArrival (index : Nat) (s : State) : Host.Outcome State Fault Refusal := .next (remoteArrivalOf index s)

end Sys2Proof.Machine
end

