-- ==== Sys2Proof/Machine/Tasks.lean ====
section
/-! DEFINITION. The meanings of SPAWN, SYNC and ENDT (R168 to R182, R206 to R209, R215, R216). -/

namespace Sys2Proof.Machine

/-- `n` bytes of a record from an offset, as a number (R6). -/
def num (bs : List Byte) (off n : Nat) : Nat := ofBytes ((bs.drop off).take n)

/-- A task descriptor (R168). -/
structure TaskDesc where
  entry : Nat
  argp : Nat
  join : Nat
  views : Nat
  budget : Nat
  ngroups : Nat
  scratch : Nat
  accs : Nat
  bars : Nat
  rsv : Nat
deriving DecidableEq, Repr

/-- The fields of a descriptor's 64 bytes (R168). -/
def taskDesc (bs : List Byte) : TaskDesc :=
  { entry := num bs 0 8, argp := num bs 8 8, join := num bs 0x10 8, views := num bs 0x18 8, budget := num bs 0x20 2
    ngroups := num bs 0x22 1, scratch := num bs 0x23 1, accs := num bs 0x24 1, bars := num bs 0x25 1
    rsv := num bs 0x26 26 }

/-- A register budget of R147. -/
def budgetOk (b : Nat) : Bool := b % 8 == 0 && 16 ≤ b && b ≤ 256

/-- The checks of R168 that look at the descriptor alone. -/
def TaskDesc.ok (d : TaskDesc) : Bool :=
  d.entry % 8 == 0 && d.join != 0 && d.join % 256 == 0 && d.views % 8 == 0 && budgetOk d.budget &&
  1 ≤ d.ngroups && d.ngroups ≤ 32 && d.accs ≤ 4 && d.bars ≤ 16 && d.rsv == 0

/-- The (OPER, ETYPE) pairs of R169; OPER 15 takes codes 0 to 11, 16 to 21 and 25. -/
def tilePair (oper ety : Nat) : Bool :=
  match oper with
  | 0 => [2, 3, 17, 16, 19].contains ety
  | 1 | 2 => [2, 17].contains ety
  | 3 | 4 | 5 => [10, 11].contains ety
  | 15 => ety ≤ 11 || (16 ≤ ety && ety ≤ 21) || ety == 25
  | _ => false

/-- One entry of a view list, with its place among the views (R169). -/
def tileOf (bs : List Byte) (off : Nat) : Option Tile :=
  let base := num bs 0 8
  let size := num bs 8 4
  let oper := num bs 12 1
  let ety := num bs 13 1
  let merge := num bs 16 8
  let ident := num bs 24 8
  let custom : Bool := if oper = 15 then merge != 0 && merge % 8 == 0 && ident < 2 ^ etyWidth ety else merge == 0 && ident == 0
  if base % 64 == 0 && size % 64 == 0 && 64 ≤ size && size ≤ 65536 && base + size ≤ 2 ^ 64 && num bs 14 2 == 0 &&
      tilePair oper ety && custom then
    some ⟨BitVec.ofNat 64 base, size, oper, ety, BitVec.ofNat 64 merge, BitVec.ofNat 64 ident, off⟩
  else none

/-- Two tiles that share a byte. -/
def tilesMeet (a b : Tile) : Bool := a.base.toNat < b.base.toNat + b.size && b.base.toNat < a.base.toNat + a.size

/-- The entries of a view list (R169): none where the list is invalid. -/
def tilesOf : Nat → Nat → List Byte → List Tile → Option (List Tile)
  | 0, _, _, acc => some acc
  | n + 1, off, bs, acc =>
    match tileOf bs off with
    | none => none
    | some t => if acc.any (tilesMeet t) then none else tilesOf n (off + t.size) (bs.drop 32) (acc ++ [t])

/-- The bytes of a list of tiles. -/
def tileBytes (ts : List Tile) : Nat := (ts.map Tile.size).sum
/-- The scratchpad units its views take (R173). -/
def viewUnits (ts : List Tile) : Nat := (tileBytes ts + 65535) / 65536
/-- Views placed after the team's own scratchpad units (R173). -/
def placeViews (ts : List Tile) (scratch : Nat) : List Tile := ts.map fun t => { t with off := scratch * 65536 + t.off }

/-- A view list read from memory (R169); no address, no tiles. -/
def readTiles (s : State) (core asid : Nat) (priv : Bool) (va : Nat) : Except (Cause × State) (Option (List Tile) × State) :=
  if va = 0 then .ok (some [], s)
  else match readVa s core asid priv va 8 with
  | .error c => .error c
  | .ok (h, s1) =>
    let n := num h 0 1
    if n = 0 ∨ 8 < n ∨ num h 1 7 ≠ 0 then .ok (none, s1)
    else match readVa s1 core asid priv (va + 8) (32 * n) with
      | .error c => .error c
      | .ok (bs, s2) => .ok (tilesOf n 0 bs [], s2)

/-- The identity of a tile's elements (R169). -/
def tileIdentity (t : Tile) : Nat :=
  if t.oper = 15 then t.ident.toNat else identityOf ((Ty.ofCode t.ety).getD .b32) t.oper
/-- A tile whose every element is the identity. -/
def identityBytes (t : Tile) : List Byte :=
  let k := etyWidth t.ety / 8
  (List.replicate (t.size / k) (toBytes k (tileIdentity t))).flatten

/-- Where a tile's accumulator stands in its frame (R175). -/
def accAddr (f : Frame) (t : Tile) : Nat := f.va.toNat + 0x40 + t.off

/-- The pieces of a frame's accumulators. -/
def accPieces (f : Frame) (ts : List Tile) : List (Nat × Nat) := ts.flatMap fun t => pieces (accAddr f t) t.size

/-- Accumulators written with their identities (R176): all of them, or none where one cannot be written. -/
def writeIdentities (f : Frame) (core : Nat) (priv : Bool) (ts : List Tile) (s : State) : Except (Cause × State) State :=
  (xlateAll core f.asid.toNat priv .write (accPieces f ts) s).map fun r => writeKeys core r.1 (ts.flatMap identityBytes) r.2

/-- A bound frame by its address (R175). -/
def frameFind (s : State) (asid : BitVec 12) (va : Nat) : Option (Nat × Frame) :=
  s.frames.find? fun f => f.2.asid == asid && f.2.va.toNat == va

/-- The bound frame at an address; a broken one whose header software has rewritten with zeros is given up (R181): one of which
memory has been told. -/
def frameAt (s : State) (asid : BitVec 12) (va : Nat) : Option (Nat × Frame) × State :=
  match frameFind s asid va with
  | none => (none, s)
  | some f =>
    if !f.2.broken || !f.2.told then (some f, s)
    else match readRaw s unitCore asid.toNat false va 0x18 with
      | .ok r => if r.1.all (· == 0#8) then (none, r.2.setFrames (amDel r.2.frames f.1)) else (some f, r.2)
      | .error _ => (some f, s)

/-- The header of the broken frame at an address has to wait before it can be read (R243, R294). -/
def frameWaits (s : State) (asid : BitVec 12) (va : Nat) : Bool :=
  match frameFind s asid va with
  | some f => f.2.broken && f.2.told && rangeWaits s unitCore asid.toNat false .read va 0x18
  | none => false

/-- OWNER of a group (R175). -/
def ownerWordOf (t : Team) (gr : Group) : W32 :=
  BitVec.ofNat 32 (gr.slot + t.slot * 2 ^ 8 + t.core % 32 * 2 ^ 16 + t.core / 32 * 2 ^ 24)

/-- Why a lane of a SPAWN fails: the cause, its address, and the state in which a denial is logged (R457). -/
abbrev SpawnStop := Cause × W64 × State

/-- The refusals of R170, with the lane's value, the address of its descriptor (R474). -/
def spawnBad (s : State) (va sub : Nat) : Except SpawnStop (Nat × State) := .error (⟨cFORBIDDEN_HERE, sub⟩, BitVec.ofNat 64 va, s)

/-- A child entered into a frame, its task into the die's pool (R171, R172, R181). -/
def enterChild (w : Wd) (d : TaskDesc) (tiles : List Tile) (id : Nat) (f : Frame) (s : State) : Nat × State :=
  let f1 := { f with nchild := f.nchild + 1, cursor := if f.broken then f.cursor + 1 else f.cursor }
  let s1 := s.setFrames (amPut s.frames id f1)
  let task : TaskRec :=
    { grid := w.t.grid, ctx := w.t.ctx, asid := w.t.asid, prio := w.t.prio, entry := BitVec.ofNat 64 d.entry
      argp := BitVec.ofNat 64 d.argp, budget := d.budget, ngroups := d.ngroups, scratch := d.scratch, accs := d.accs
      bars := d.bars, tiles := placeViews tiles d.scratch, frame := id, child := f.nchild
      since := s.time.datum, order := s.fresh }
  (f.nchild, if f.broken then s1 else s1.modDie (w.t.core / 32) fun x => { x with pool := x.pool ++ [task] })

/-- The first address of a frame's accumulators that cannot be written. -/
def accFault (s : State) (core : Nat) (priv : Bool) (f : Frame) : W64 :=
  faultPiece s core f.asid.toNat priv .write (accPieces f f.tiles) 0

/-- A frame bound by its first SPAWN (R176): the header as software wrote it, the accumulators at their identities. -/
def bindFrame (w : Wd) (va : Nat) (d : TaskDesc) (tiles : List Tile) (s : State) : Except SpawnStop (Nat × State) :=
  let asid := w.gr.ctl.asid
  match readVa s w.t.core asid.toNat w.gr.ctl.priv d.join 0x24 with
  | .error c => .error (c.1, faultAddr s w.t.core asid.toNat w.gr.ctl.priv .read d.join 0x24, c.2)
  | .ok (h, s1) =>
    if num h 0 4 = 0xFFFFFFFF then spawnBad s1 va 0x05
    else if 8 ≤ (s1.frames.filter fun f => (f.2.owner.map GRef.team) == some w.g.team).length then
      .error (⟨cVIEW_TABLE_FULL, 0⟩, BitVec.ofNat 64 va, s1)
    else
      let f : Frame :=
        { va := BitVec.ofNat 64 d.join, ctx := w.t.ctx, asid := asid, nchild := num h 0 4, cursor := num h 4 4
          broken := false, cause := 0, told := true, owner := some w.g, ownerWord := ownerWordOf w.t w.gr
          views := BitVec.ofNat 64 d.views, tiles := tiles, spill := BitVec.ofNat 64 (num h 0x18 8), spilln := num h 0x20 4
          slots := [], waiting := [], job := none, parks := [], runner := none, sync := none }
      match writeIdentities f w.t.core w.gr.ctl.priv tiles s1 with
      | .error c => .error (c.1, accFault s1 w.t.core w.gr.ctl.priv f, c.2)
      | .ok s2 => .ok (enterChild w d tiles s2.newId.1 f s2.newId.2)

/-- What a task takes of a core (R149, R173). -/
def taskNeed (ngroups budget scratch accs bars : Nat) (tiles : List Tile) : Need :=
  ⟨ngroups, ngroups * 32 * budget, scratch + viewUnits tiles, accs, bars, tiles.length⟩

/-- The SPAWN of one lane: the checks of R170 in order, then the child index. -/
def spawnLane (w : Wd) (va : Nat) (s : State) : Except SpawnStop (Nat × State) :=
  if va % 64 ≠ 0 then spawnBad s va 0x01
  else match readVa s w.t.core w.gr.ctl.asid.toNat w.gr.ctl.priv va 64 with
  | .error c => .error (c.1, faultAddr s w.t.core w.gr.ctl.asid.toNat w.gr.ctl.priv .read va 64, c.2)
  | .ok (bs, s1) =>
    let d := taskDesc bs
    if !d.ok || !fitsEmpty (taskNeed d.ngroups d.budget d.scratch d.accs d.bars []) then spawnBad s1 va 0x01
    else match readTiles s1 w.t.core w.gr.ctl.asid.toNat w.gr.ctl.priv d.views with
    | .error c => .error (c.1, faultAddr s1 w.t.core w.gr.ctl.asid.toNat w.gr.ctl.priv .read d.views
        (8 + 32 * num (memOr s1 w d.views) 0 1), c.2)
    | .ok (none, s2) => spawnBad s2 va 0x02
    | .ok (some tiles, s2) =>
      if !fitsEmpty (taskNeed d.ngroups d.budget d.scratch d.accs d.bars tiles) then spawnBad s2 va 0x01
      else if frameWaits s2 w.gr.ctl.asid d.join then .error (⟨0, 0⟩, 0, s2)
      else match frameAt s2 w.gr.ctl.asid d.join with
      | (some (id, f), s3) =>
        if f.views.toNat ≠ d.views then spawnBad s3 va 0x03
        else if f.owner ≠ some w.g then spawnBad s3 va 0x04
        else if f.nchild = 0xFFFFFFFF then spawnBad s3 va 0x05
        else .ok (enterChild w d tiles id f s3)
      | (none, s3) => bindFrame w va d tiles s3
where
  /-- The first bytes of a view list where they can be read, for the length of a read that faults later. -/
  memOr (s : State) (w : Wd) (va : Nat) : List Byte :=
    match readVa s w.t.core w.gr.ctl.asid.toNat w.gr.ctl.priv va 8 with
    | .ok (h, _) => h
    | .error _ => []

/-- The lanes of a SPAWN in ascending order, each writing its child index (R171, R207). DESIGN CHOICE (log 119): a lane's frame
is checked as the word's earlier lanes leave it; where a lane fails, no lane spawns, and what stands is what that lane's own accesses
left. -/
def spawnLanes (f : RegF) (w : Wd) : List Nat → State → Except SpawnStop State
  | [], s => .ok s
  | l :: ls, s =>
    let va := if f.bs then (w.gr.getS f.b.toNat).toNat else laneVal w f.b 64 l
    match spawnLane w va s with
    | .error c => .error (c.1, c.2.1, match spawnLane w va w.s with
        | .error d => d.2.2
        | .ok _ => w.s)
    | .ok (i, s1) => spawnLanes f w ls (s1.modLane w.g l fun t => t.setV f.d.toNat (BitVec.ofNat 32 i))

/-- A word that a merge group may not execute (R215). -/
def notInMerge (body : Wd → Res) (w : Wd) : Res :=
  if w.t.kind = .merge then Res.trap w.s cFORBIDDEN_HERE 0x0C 0 w.active else body w

/-- SPAWN (R170, R171, R207). -/
def spawnBody (f : RegF) (w : Wd) : Res :=
  let n := w.acting.length
  match spawnLanes f w w.acting w.s with
  | .error c => Res.trap c.2.2 c.1.cause c.1.sub c.2.1 w.active
  | .ok s1 =>
    if 4096 < (w.s.die (w.t.core / 32)).pool.length + n then
      { Res.done (w.s.modLanes w.g w.acting fun _ t => { t with park := some (.pool n) }) with stay := w.acting }
    else Res.done s1

/-- What SYNC comes to in one lane at its issue (R180, R208). -/
inductive SyncLane where
  | done
  | wait (frame nchild : Nat)
  | bad (cause sub : Nat) (addr : W64)
deriving DecidableEq, Repr

/-- The frame that a lane of a SYNC names. -/
def syncAddr (f : RegF) (w : Wd) (l : Nat) : Nat := if f.bs then (w.gr.getS f.b.toNat).toNat else laneVal w f.b 64 l

def syncLane (f : RegF) (w : Wd) (l : Nat) (s : State) : SyncLane × State :=
  let va := syncAddr f w l
  if va % 256 ≠ 0 then (.bad cMISALIGNED 0 (BitVec.ofNat 64 va), s)
  else match frameAt s w.gr.ctl.asid va with
  | (none, s1) => (.done, s1)
  | (some (id, fr), s1) => (if fr.owner = some w.g then .wait id fr.nchild else .bad cFORBIDDEN_HERE 0x04 0, s1)

/-- The lanes of a SYNC, each with what it comes to. -/
def syncLanes (f : RegF) (w : Wd) : List Nat → State → List (Nat × SyncLane) × State
  | [], s => ([], s)
  | l :: ls, s =>
    let r := syncLane f w l s
    let q := syncLanes f w ls r.2
    ((l, r.1) :: q.1, q.2)

def SyncLane.waits (x : SyncLane) : Bool :=
  match x with
  | .wait _ _ => true
  | _ => false

/-- The record that a lane of a SYNC parks on, where some frame of the word is still open. -/
def SyncLane.park (x : SyncLane) (issued : W32) : Option Park :=
  match x with
  | .done => none
  | .wait f n => some (.sync f n issued)
  | .bad c sub a => some (.syncFail c sub a issued)

/-- SYNC (R180, R208): lanes whose frame is open park; a trap waits until the word's frames have ended. It waits where the header of a
broken frame does (R294). -/
def syncBody (f : RegF) (w : Wd) : Res :=
  if w.acting.any fun l => frameWaits w.s w.gr.ctl.asid (syncAddr f w l) then Res.trap w.s 0 0 0 [] else
  let r := syncLanes f w w.acting w.s
  let s1 := if r.1.any fun x => x.2 = .done then l1Clear r.2 w.t.core else r.2
  if r.1.any fun x => x.2.waits then
    let out := (r.1.filter fun x => x.2 ≠ .done).map Prod.fst
    { Res.done (r.1.foldl (fun st x => match x.2.park (maskOf w.active) with
        | some p => st.modLane w.g x.1 fun t => { t with park := some p }
        | none => st) s1) with stay := out }
  else
    { Res.done s1 with bad := r.1.filterMap fun x => match x.2 with
        | .bad c sub a => some ⟨x.1, c, sub, a⟩
        | _ => none }

/-- The lanes of a group parked on a SYNC whose word is the one with this mask. -/
def syncOpen (gr : Group) (issued : W32) : Bool :=
  gr.lanes.any fun t => match t.park with
    | some (.sync _ _ i) => i == issued
    | _ => false

/-- The lanes of a SYNC that is to trap. -/
def syncFailed (gr : Group) (issued : W32) : List Nat :=
  (List.range 32).filter fun l => match (gr.lane? l).bind Thread.park with
    | some (.syncFail _ _ _ i) => i == issued
    | _ => false

/-- A SYNC traps once the last frame of its word has ended: the lowest failing lane's cause, the other lanes done (R208). -/
def syncSettle (s : State) (g : GRef) : State :=
  match s.group? g with
  | none => s
  | some gr =>
    if gr.handler.isSome || gr.pendTrap.isSome then s
    else match (List.range 32).findSome? fun l => (gr.lane? l).bind fun t => match t.park with
        | some (.syncFail c sub a i) => if syncOpen gr i then none else some (t.pc, c, sub, a, i)
        | _ => none with
      | none => s
      | some (pc, c, sub, a, i) =>
        let out := syncFailed gr i
        raiseTrap (s.modLanes g out fun _ t => { t with park := none }) g ⟨c, sub, a, pc, i, i &&& ~~~(maskOf out)⟩

/-- A merge of a frame changed. -/
def Frame.modMerge (f : Frame) (park : Option Nat) (g : MergeJob → MergeJob) : Frame :=
  match park with
  | none => { f with job := f.job.map g }
  | some k => { f with parks := amMod f.parks k g }
def modMerge (s : State) (m : MergeRef) (g : MergeJob → MergeJob) : State :=
  s.setFrames (amMod s.frames m.frame fun f => f.modMerge m.park g)

/-- A faulted merge goes on (R404). -/
def goOn (s : State) (m : MergeRef) : State := modMerge s m fun j => { j with faulted := false }

/-- Every merge that waits for a handler of the team goes on (R404). -/
def resumeMerges (s : State) (t : Team) : State :=
  t.groups.foldl (fun st gr =>
    match gr.handler.bind HandlerCtx.merge with
    | some m => goOn st m
    | none => st) s

/-- ENDT ends every thread of the team, as if each had executed EXIT (R177, R209). -/
def endThreads (s : State) (team : Nat) : State :=
  match s.team? team with
  | none => s
  | some t =>
    let s1 := endCairns (resumeMerges s t) team
    let s2 := s1.putTeam team { t with groups := t.groups.map fun g => { g with
        handler := none, pendTrap := none, ctl := { g.ctl with priv := false }
        lanes := g.lanes.map fun l => { l with exited := true, park := none, tx := none } } }
    retire (s2.setMons (s2.mons.filter fun m => m.2.g.team ≠ team)) team

/-- ENDT (R209). -/
def endtBody (w : Wd) : Res := { Res.done (endThreads w.s w.g.team) with stay := w.active }

def execSpawn (f : RegF) (s : State) := runWord (.spawn f) (notInMerge (spawnBody f)) s
def execSync (f : RegF) (s : State) := runWord (.sync f) (notInMerge (syncBody f)) s
def execEndt (f : RegF) (s : State) := runWord (.endt f) (notInMerge endtBody) s

end Sys2Proof.Machine
end

