-- ==== Sys2Proof/Machine/Templates.lean ====
section
/-! DEFINITION. Copy templates and format slots as a launch binds them: their bytes, the layout list that rewrites the axis table, and what makes them invalid (R359 to R363, R371, R381). -/

namespace Sys2Proof.Machine

/-- The element types of a copy (R360). -/
def copyType (c : Nat) : Bool := (8 ≤ c && c ≤ 12) || (17 ≤ c && c ≤ 24)
/-- The bit types among them. -/
def bitType (c : Nat) : Bool := 8 ≤ c && c ≤ 12
/-- The element types of MX blocks (R61). -/
def mxType (c : Nat) : Bool := 20 ≤ c && c ≤ 24

/-- The alignment of a side's base (R333, R362, R378). -/
def sideAlign (ty : Nat) (mx : Bool) : Nat :=
  if packedSide ty mx then
    match ty with
    | 22 | 23 => 8
    | 24 => 16
    | _ => 32
  else etyWidth ty / 8

/-- One layout operation: CODE, AX, B, XOP, YOP (R381). -/
structure LayOp where
  code : Nat
  a : Nat
  b : Nat
  x : Nat
  y : Nat
deriving DecidableEq, Repr

/-- The operand fields a layout operation uses: AX, B, XOP, YOP (R381). -/
def layUses (code : Nat) : Option (Bool × Bool × Bool × Bool) :=
  match code with
  | 1 => some (true, false, false, false)
  | 2 => some (true, true, false, false)
  | 3 => some (true, false, true, false)
  | 4 | 5 => some (true, false, true, true)
  | 6 => some (true, false, true, false)
  | 7 => some (true, false, false, false)
  | 8 => some (false, false, true, false)
  | _ => none

/-- A layout entry of 8 bytes (R381). -/
def layOp (bs : List Byte) : Option LayOp :=
  let o : LayOp := ⟨num bs 0 1 % 16, num bs 1 1 % 8, num bs 1 1 / 8 % 8, num bs 2 3, num bs 5 3⟩
  match layUses o.code with
  | some (a, b, x, y) =>
    if num bs 0 1 < 16 && num bs 1 1 < 64 && (a || o.a == 0) && (b || o.b == 0) && (x || o.x == 0) && (y || o.y == 0) then some o
    else none
  | none => none

/-- The working of a layout list: the axis table, the ITER names, the CAST type, whether an axis gathers (R361). -/
structure Layout where
  axes : List Axis
  iters : List Nat
  ty : Nat
  gathers : Bool
deriving DecidableEq, Repr

/-- An axis that PAD, SLICE and REPEAT may name. -/
def Axis.plain (x : Axis) : Bool := x.per == 0 && !x.gather

/-- One layout operation applied (R361, R362): none where it breaks its requirements. -/
def layStep (styWidth : Nat) (srcPacked anyPacked : Bool) (l : Layout) (o : LayOp) : Option Layout :=
  if o.code = 1 then
    if l.iters.contains o.a then none else some { l with iters := l.iters ++ [o.a] }
  else if o.code = 8 then
    if copyType o.x && etyWidth o.x == styWidth && !srcPacked then some { l with ty := o.x } else none
  else if anyPacked && (o.a == 0 || (o.code == 2 && o.b == 0)) then none
  else match l.axes[o.a]? with
  | none => none
  | some x =>
    match o.code with
    | 2 => match l.axes[o.b]? with
      | none => none
      | some y =>
        if o.a = o.b then none
        else some { l with axes := setNth (setNth l.axes o.a { y with ds := x.ds }) o.b { x with ds := y.ds } }
    | 3 =>
      if o.x = 0 ∨ x.n % o.x ≠ 0 ∨ x.off ≠ 0 ∨ x.per ≠ 0 ∨ x.ext ≠ x.n ∨ 7 < l.axes.length then none
      else
        let outer : Axis := ⟨x.n / o.x, o.x * x.ss, o.x * x.ds, 0, 0, x.n / o.x, false⟩
        some { l with axes := l.axes.take o.a ++ { x with n := o.x, ext := o.x } :: outer :: l.axes.drop (o.a + 1) }
    | 4 => if x.plain then some { l with axes := setNth l.axes o.a { x with n := x.n + o.x + o.y, off := x.off - o.x } } else none
    | 5 => if x.plain && 1 ≤ o.y then some { l with axes := setNth l.axes o.a { x with n := o.y, off := x.off + o.x } } else none
    | 6 => if x.plain && 1 ≤ o.x then some { l with axes := setNth l.axes o.a { x with n := x.n * o.x, per := x.n } } else none
    | 7 =>
      if x.off = 0 ∧ x.per = 0 ∧ !l.gathers then
        some { l with axes := setNth l.axes o.a { x with gather := true }, gathers := true }
      else none
    | _ => none

/-- A layout list applied in order. -/
def layAll (styWidth : Nat) (srcPacked anyPacked : Bool) : List LayOp → Layout → Option Layout
  | [], l => some l
  | o :: os, l => (layStep styWidth srcPacked anyPacked l o).bind (layAll styWidth srcPacked anyPacked os)

/-- One axis entry of 12 bytes as the template sets it (R361, R381). -/
def axisOf (bs : List Byte) : Axis :=
  ⟨num bs 0 4, toSigned 32 (num bs 4 4), toSigned 32 (num bs 8 4), 0, 0, num bs 0 4, false⟩

/-- The limits of an axis on one side (R360, R362). -/
def strideOk (packed : Bool) (unit a n : Nat) (st : Int) : Bool :=
  if packed && a == 0 then st == 0 && n % 32 == 0 else st % unit == 0 && (!packed || 0 ≤ st)

/-- A finite nonzero f32 (R360). -/
def mulOk (x : Nat) : Bool :=
  match fdecode fmtF32 x with
  | .fin _ m _ => m != 0
  | _ => false

/-- The walk order of the axes, innermost first (R361). -/
def walkOrder (axes : List Axis) (iters : List Nat) : List Nat :=
  iters ++ (List.range axes.length).filter fun a => !iters.contains a

/-- The parsed entries of a template's layout list. -/
def layOps (bs : List Byte) (n : Nat) : Option (List LayOp) := ((List.range n).map fun i => layOp ((bs.drop (0x80 + 8 * i)).take 8)).mapM id

/-- A template's bytes read and checked (R360 to R362, R381): none where the template is invalid. -/
def parseTemplate (bs : List Byte) : Option Template :=
  let fl := num bs 0 1
  let sty := num bs 1 1
  let dty := num bs 2 1
  let nd := num bs 3 1
  let nops := num bs 4 1
  let smx := bit fl 2
  let dmx := bit fl 3
  let sp := packedSide sty smx
  let dp := packedSide dty dmx
  let axes := (List.range nd).map fun a => axisOf ((bs.drop (0x20 + 12 * a)).take 12)
  let axesOk := (List.range nd).all fun a =>
    let x := axisOf ((bs.drop (0x20 + 12 * a)).take 12)
    1 ≤ x.n && x.n ≤ 2 ^ 24 && strideOk sp (sideUnit sty smx) a x.n x.ss && strideOk dp (sideUnit dty dmx) a x.n x.ds
  if !(copyType sty && copyType dty && (!smx || mxType sty) && (!dmx || mxType dty) && !(bit fl 4 && dty == 17) &&
      mulOk (num bs 8 4) && 1 ≤ nd && nd ≤ 8 && nops ≤ 16 && num bs 5 3 == 0 && num bs 0x0C 4 == 0 && num bs 0x18 8 == 0 &&
      num bs (0x20 + 12 * nd) (12 * (8 - nd)) == 0 && num bs (0x80 + 8 * nops) (8 * (16 - nops)) == 0 && axesOk) then none
  else match layOps bs nops with
  | none => none
  | some ops =>
    match layAll (etyWidth sty) sp (sp || dp) ops ⟨axes, [], sty, false⟩ with
    | none => none
    | some l =>
      let plain := (l.ty == dty || bitType l.ty || bitType dty) && !smx && !dmx
      let order := walkOrder l.axes l.iters
      let sizes := l.axes.all (fun x => 1 ≤ x.n && x.n ≤ 2 ^ 24) && axesCount l.axes ≤ 2 ^ 32
      let names := l.iters.all fun a => a < l.axes.length
      let kinds : Bool := if plain then etyWidth l.ty == etyWidth dty && num bs 8 4 == 0x3F800000 else !bitType l.ty && !bitType dty
      let inner : Bool := !(sp || dp) || order.headD 0 == 0
      if sizes && names && kinds && inner then
        some { sspace := bit fl 0, dspace := bit fl 1, sty := sty, dty := dty, smx := smx, dmx := dmx, rnd := fl / 64
               sat := bit fl 4, mul := num bs 8 4, pad := num bs 0x10 8, idram := bit fl 5, ndim := nd, nops := nops
               cast := l.ty, axes := l.axes, order := order, gathers := l.gathers }
      else none

/-- A template that moves bits unchanged (R360). -/
def Template.plain (t : Template) : Bool := (t.cast == t.dty || bitType t.cast || bitType t.dty) && !t.smx && !t.dmx

/-- What the command processor makes of a part of a launch: the number of the check that fails, none where it has to wait (R243, R294,
R452), with the state that its reads leave; or a result. -/
abbrev CpRes (α : Type) := Except (Option Nat × State) (α × State)

/-- A read of a command processor, for a check of R148. -/
def cpRead (s : State) (asid va n check : Nat) : CpRes (List Byte) :=
  match readVa s cmdCore asid true va n with
  | .error (c, s1) => .error (if c.cause = 0 then none else some check, s1)
  | .ok r => .ok r

/-- A result that a check may refuse. -/
def cpGive {α : Type} (check : Nat) (x : Option α) (s : State) : CpRes α :=
  match x with
  | some y => .ok (y, s)
  | none => .error (some check, s)

/-- A template table (R359, R360): check 12 fails where it is misaligned, cannot be read or is invalid. -/
def readTemplates (s : State) (asid va : Nat) : CpRes (List Template) :=
  if va = 0 then .ok ([], s)
  else if va % 64 ≠ 0 then .error (some 12, s)
  else (cpRead s asid va 64 12).bind fun h =>
    let n := num h.1 0 4
    if n = 0 ∨ 256 < n ∨ num h.1 4 60 ≠ 0 then .error (some 12, h.2)
    else (cpRead h.2 asid (va + 64) (256 * n) 12).bind fun r =>
      cpGive 12 (((List.range n).map fun i => parseTemplate ((r.1.drop (256 * i)).take 256)).mapM id) r.2

/-- The fields of a format slot (R371). -/
def fmtEn (x : Nat) : Bool := bit x 31
def fmtRz (x : Nat) : Bool := bit x 20
def fmtOvw (x : Nat) : Bool := bit x 19
def fmtMode (x : Nat) : Nat := field x 16 3
def fmtB (x : Nat) : Nat := field x 8 5
def fmtA (x : Nat) : Nat := field x 0 5

/-- The type codes of a matrix side (R371). -/
def matrixType (c : Nat) : Bool := c == 0 || (18 ≤ c && c ≤ 24)

/-- A format slot that keeps R371. -/
def fmtOk (x : Nat) : Bool :=
  if fmtEn x then
    field x 32 32 == 0 && field x 21 10 == 0 && field x 13 3 == 0 && field x 5 3 == 0 && fmtMode x ≤ 3 &&
    matrixType (fmtA x) && matrixType (fmtB x) && (fmtMode x != 1 || (mxType (fmtA x) && mxType (fmtB x)))
  else x == 0

/-- K's granule (R369). -/
def granule (x : Nat) : Nat :=
  if fmtA x = 24 ∨ fmtB x = 24 then 256
  else if etyWidth (fmtA x) < 16 ∨ etyWidth (fmtB x) < 16 then 128
  else 64

/-- The value of {64, 128, 256} nearest a request, the larger at a tie (R369). -/
def nearestSide (r : Nat) : Nat := if r < 96 then 64 else if r < 192 then 128 else 256

/-- The multiple of a granule nearest a request, the larger at a tie, from `q` to 4096 (R369). -/
def nearestK (q r : Nat) : Nat :=
  let k := (2 * r + q) / (2 * q) * q
  if k < q then q else if 4096 < k then 4096 else k

end Sys2Proof.Machine
end

