-- ==== Sys2Proof/Machine/EngineData.lean ====
section
/-! DEFINITION. What the copy engine computes: its accesses to memory, views and the scratchpad, the walk of a copy, the values of its elements, and fills (R223 to R225, R353 to R357, R362 to R368, R380). -/

namespace Sys2Proof.Machine

/-- In whose name an engine acts. -/
structure Eng where
  team : Nat
  core : Nat
  asid : Nat
  priv : Bool
deriving DecidableEq, Repr

def Op.eng (s : State) (o : Op) : Eng := ⟨o.g.team, coreOf s o.g, o.asid.toNat, o.priv⟩

/-- A fault of an engine access: its memory cause and address. Cause 0 says that a line is locked and the access waits
(R294). -/
abbrev EFault := Cause × W64

/-- The access finds its line locked by a cairn (R294, R310). -/
def lockedFault (va : Nat) : EFault := (⟨0, 0⟩, BitVec.ofNat 64 va)
/-- An evaluation that met a locked line. -/
def mustWait (f : Option EFault) : Bool := f.any fun e => e.1.cause == 0

/-- The team whose scratchpad an engine reaches. -/
def engTeam (s : State) (c : Eng) : Option Team := s.team? (scratchOwner s c.team)

/-- What an engine access comes to: a fault, with the state in which its denial is logged and counted (R457, R460), or a result. -/
abbrev EngRes (α : Type) := Except (EFault × State) α

/-- Pieces of memory read, redirected to views tile by tile (R174, R353). -/
def engReadMem (c : Eng) : List (Nat × Nat) → State → EngRes (List Byte × State)
  | [], s => .ok ([], s)
  | (va, n) :: rest, s =>
    let r : EngRes (List Byte × State) :=
      match (s.team? c.team).bind fun t => (viewOf t va).map fun off => memRead t.scratch off n with
      | some bs => .ok (bs, s)
      | none => match xlate s c.core c.asid c.priv .read va with
        | (.fault e, s1) => .error ((e, BitVec.ofNat 64 va), s1)
        | (.absent, s1) => .error ((⟨cNO_TRANSLATION, 0x20⟩, BitVec.ofNat 64 va), s1)
        | (.ok key e, s1) =>
          if heldUp s1 key e then .error (lockedFault va, s1)
          else if inError s1 key then .error ((⟨cDATA_ERROR, 0⟩, BitVec.ofNat 64 key), s1)
          else .ok (memRead s1.mem key n, touchRead s1 key e (pteEvp e))
    match r with
    | .error e => .error e
    | .ok (bs, s1) => match engReadMem c rest s1 with
      | .error e => .error e
      | .ok (more, s2) => .ok (bs ++ more, s2)

/-- An engine read of `n` bytes (R353): of the scratchpad, within the team's range, or of memory at its home. -/
def engRead (c : Eng) (sp : Bool) (a n : Nat) (s : State) : EngRes (List Byte × State) :=
  if sp then
    match engTeam s c with
    | none => .ok ([], s)
    | some t => if a + n ≤ t.units * 65536 then .ok (memRead t.scratch a n, s) else .error ((⟨cSCRATCH_RANGE, 0⟩, BitVec.ofNat 64 a), s)
  else engReadMem c (pieces (a % 2 ^ 64) n) s

/-- The checks of an engine write (R263, R265, R378). What errors do to it depends on the whole operation's writes (R250). -/
def engProbeMem (c : Eng) : List (Nat × Nat) → State → EngRes State
  | [], s => .ok s
  | (va, _) :: rest, s =>
    if ((s.team? c.team).bind fun t => viewOf t va).isSome then engProbeMem c rest s
    else match xlate s c.core c.asid c.priv .write va with
      | (.fault e, s1) => .error ((e, BitVec.ofNat 64 va), s1)
      | (.absent, s1) => .error ((⟨cNONRESIDENT_STORE, 0⟩, BitVec.ofNat 64 va), s1)
      | (.ok key e, s1) => if heldUp s1 key e then .error (lockedFault va, s1) else engProbeMem c rest s1

def engProbe (c : Eng) (sp : Bool) (a n : Nat) (s : State) : EngRes State :=
  if sp then
    match engTeam s c with
    | none => .ok s
    | some t => if a + n ≤ t.units * 65536 then .ok s else .error ((⟨cSCRATCH_RANGE, 0⟩, BitVec.ofNat 64 a), s)
  else engProbeMem c (pieces (a % 2 ^ 64) n) s

/-- Where a write that has passed its checks is performed: a peer's answer to the check stands (R436). -/
def engKey (c : Eng) (s : State) (va : Nat) : Option (Nat × Nat × State) :=
  if va / 2 ^ 60 = 10 then some (memKey 10 (va % 2 ^ 60), 0, s)
  else match xlate s c.core c.asid c.priv .write va with
    | (.ok key e, s1) => some (key, e, s1)
    | _ => none

/-- Pieces of memory written at their homes, or in the views; the issuing core's L1 drops the sectors (R353). -/
def engWriteMem (c : Eng) : List (Nat × Nat) → List Byte → State → State
  | [], _, s => s
  | (va, n) :: rest, bs, s =>
    match (s.team? c.team).bind fun t => viewOf t va with
    | some off => engWriteMem c rest (bs.drop n) ((Place.view c.team off).write s 0 (bs.take n))
    | none => match engKey c s va with
      | some (key, e, s1) => engWriteMem c rest (bs.drop n) (l1Drop (writeAt s1 key e (pteEvp e) (bs.take n)) c.core (sectorOf key))
      | none => engWriteMem c rest (bs.drop n) s

def engWrite (c : Eng) (sp : Bool) (w : Nat × List Byte) (s : State) : State :=
  if sp then (Place.view (scratchOwner s c.team) w.1).write s 0 w.2
  else engWriteMem c (pieces (w.1 % 2 ^ 64) w.2.length) w.2 s

/-- A write cut at multiples of `k` bytes: chunk number, address, bytes. -/
def chunksOf (k : Nat) (w : Nat × List Byte) : List (Nat × Nat × List Byte) :=
  (List.range ((w.1 + w.2.length + k - 1) / k - w.1 / k)).map fun i =>
    let c := w.1 / k + i
    let lo := if c * k < w.1 then w.1 else c * k
    let hi := if (c + 1) * k < w.1 + w.2.length then (c + 1) * k else w.1 + w.2.length
    (c, lo, (w.2.drop (lo - w.1)).take (hi - lo))

/-- The writes of MX units in pairs: the elements and the scale (R278). -/
def pairUp : List (Nat × List Byte) → List (Nat × List (Nat × List Byte))
  | a :: b :: rest => (a.1, [a, b]) :: pairUp rest
  | [a] => [(a.1, [a])]
  | [] => []

/-- Writes cut by the instants at which they are performed, each with the number of its instant: an aligned chunk of `k` bytes, or a
whole MX unit, by the address of its elements (R277, R278). All that carries one number is performed at once. -/
def writePieces (mx : Bool) (k : Nat) (ws : List (Nat × List Byte)) : List (Nat × List (Nat × List Byte)) :=
  if mx then pairUp ws else (ws.flatMap (chunksOf k)).map fun x => (x.1, [x.2])

/-- The instants of what an element or block writes, its ranges given. -/
def instantsOf (mx : Bool) (k : Nat) (ds : List (Nat × Nat)) : List Nat :=
  if mx then (ds.map Prod.fst).take 1
  else ds.flatMap fun d => (List.range ((d.1 + d.2 + k - 1) / k - d.1 / k)).map fun i => d.1 / k + i

/-- What stays of a list of writes that ended early: each piece old or new, as free value `n` has it (R225, R368). One of which an
element has no new value keeps its old value. -/
def partialWrites (mx : Bool) (n k : Nat) (holes : List (Nat × Nat)) (ws : List (Nat × List Byte)) : List (Nat × List Byte) :=
  let bad := holes.flatMap fun h => instantsOf mx k [h]
  ((writePieces mx k ws).filter fun x => Config.partialDone n x.1 && !bad.contains x.1).flatMap Prod.snd

/-- The source coordinates of an index vector and whether they are valid; a gathered one is read from the index list (R363). -/
def coordinates (c : Eng) (idx : Nat) : List (Nat × Axis) → State → EngRes (Bool × List Int × State)
  | [], s => .ok (true, [], s)
  | (j, x) :: rest, s =>
    let u := if x.per = 0 then j else j % x.per
    let r : EngRes (Int × State) :=
      if x.gather then
        match engRead c false (idx + 4 * u) 4 s with
        | .error e => .error e
        | .ok (bs, s1) => .ok (toSigned 32 (ofBytes bs), s1)
      else .ok (Int.ofNat u + x.off, s)
    match r with
    | .error e => .error e
    | .ok (k, s1) => match coordinates c idx rest s1 with
      | .error e => .error e
      | .ok (ok, ks, s2) => .ok (decide (0 ≤ k) && decide (k < Int.ofNat x.ext) && ok, k :: ks, s2)

/-- What a copy names: its template, bases, index base and scale bases. -/
structure CopyArgs where
  t : Template
  src : W64
  dst : W64
  idx : Nat
  ssc : W64
  dsc : W64

/-- A source element: its bits, and its block's scale where the side is MX (R361, R362). -/
def sourceElem (c : Eng) (a : CopyArgs) (e : Nat) (s : State) : EngRes (Option (Nat × Nat) × State) :=
  let t := a.t
  let unit := sideUnit t.sty t.smx
  let packed := packedSide t.sty t.smx
  match coordinates c a.idx ((walkVector t e).zip t.axes) s with
  | .error f => .error f
  | .ok (false, _, s1) => .ok (none, s1)
  | .ok (true, ks, s1) =>
    let off := sideOffset packed unit ks (t.axes.map Axis.ss)
    match engRead c t.sspace (addrAt a.src off) unit s1 with
    | .error f => .error f
    | .ok (bs, s2) =>
      let bits := if packed then bitsAt (ofBytes bs) ((ks.headD 0) % 32).toNat (etyWidth t.cast) else ofBytes bs
      if t.smx then
        match engRead c t.sspace (addrAt a.ssc (off / Int.ofNat unit)) 1 s2 with
        | .error f => .error f
        | .ok (sc, s3) => .ok (some (bits, ofBytes sc), s3)
      else .ok (some (bits, 0), s2)

/-- An exact product (R364). -/
def exactMul (a b : FVal) : FVal :=
  match a, b with
  | .nan x, _ => .nan x
  | _, .nan x => .nan x
  | .inf n, .inf k => .inf (n != k)
  | .inf n, .fin k m _ => if m = 0 then .nan false else .inf (n != k)
  | .fin k m _, .inf n => if m = 0 then .nan false else .inf (n != k)
  | .fin n1 m1 e1, .fin n2 m2 e2 => .fin (n1 != n2) (m1 * m2) (e1 + e2)

/-- The format of a float type code. -/
def codeFmt (c : Nat) : Fmt := ((Ty.ofCode c).bind fmtOf).getD fmtF32

/-- The exact value of a source element times MUL (R364). -/
def elemValue (t : Template) (x : Nat × Nat) : FVal :=
  exactMul (if t.smx then mxValue (codeFmt t.cast) x.2 x.1 else fdecode (codeFmt t.cast) x.1) (fdecode fmtF32 t.mul)

/-- The bits of a destination element (R364). DESIGN CHOICE (log 146): PADVAL has 64 bits; the upper 64 bits of a .b128 pad element are 0. -/
def elemBits (t : Template) (x : Option (Nat × Nat)) : Nat :=
  match x with
  | none => t.pad % 2 ^ etyWidth t.dty
  | some v =>
    if t.plain then v.1
    else (convertTo (codeFmt t.dty) (modeOfRM t.rnd) t.sat false (elemValue t v)).bits

/-- The source elements of a run of `n` elements of the walk. -/
def sourceElems (c : Eng) (a : CopyArgs) : Nat → Nat → State → EngRes (List (Option (Nat × Nat)) × State)
  | 0, _, s => .ok ([], s)
  | n + 1, e, s =>
    match sourceElem c a e s with
    | .error f => .error f
    | .ok (x, s1) => match sourceElems c a n (e + 1) s1 with
      | .error f => .error f
      | .ok (xs, s2) => .ok (x :: xs, s2)

/-- The block of an MX destination: its element bits and its scale (R62, R364). -/
def mxBlock (t : Template) (xs : List (Option (Nat × Nat))) : List Nat × Nat :=
  match xs.headD none with
  | none => (List.replicate 32 (t.pad % 2 ^ 8), t.pad / 2 ^ 8 % 2 ^ 8)
  | some _ =>
    let r := mxQuantise (codeFmt t.dty) (modeOfRM t.rnd) (xs.map fun x => elemValue t (x.getD (0, 0)))
    (r.2.1, r.1)

/-- The writes of one element, or of one block of a packed destination (R363, R364). -/
def unitWrites (c : Eng) (a : CopyArgs) (u : Nat) (s : State) : EngRes (List (Nat × List Byte) × State) :=
  let t := a.t
  let unit := sideUnit t.dty t.dmx
  let packed := packedSide t.dty t.dmx
  match sourceElems c a (if packed then 32 else 1) (if packed then 32 * u else u) s with
  | .error f => .error f
  | .ok (xs, s1) =>
    let bytes (es : List Nat) : List Byte := toBytes unit (packElems (etyWidth t.dty) es)
    let out := if t.dmx then [bytes (mxBlock t xs).1, toBytes 1 (mxBlock t xs).2] else [bytes (xs.map (elemBits t))]
    .ok (((unitDest t a.dst a.dsc u).map Prod.fst).zip out, s1)

/-- The checks of a list of writes. -/
def probeAll (c : Eng) (sp : Bool) : List (Nat × List Byte) → State → EngRes State
  | [], s => .ok s
  | w :: ws, s => match engProbe c sp w.1 w.2.length s with
    | .error f => .error f
    | .ok s1 => probeAll c sp ws s1

/-- What an engine operation would write, in order, the first fault it meets, the state after its reads, and the ranges that what
faulted would have written. -/
structure EngOut where
  writes : List (Nat × List Byte)
  fault : Option EFault
  st : State
  holes : List (Nat × Nat)

/-- The fault that an operation reports: its first, unless a locked line makes it wait. -/
def firstFault (old : Option EFault) (e : EFault) : Option EFault :=
  if e.1.cause == 0 || old.isNone then some e else old

/-- A fault of one unit: the operation ends with its first, whose denial is logged (R368, R457). -/
def EngOut.stop (r : EngOut) (ds : List (Nat × Nat)) (e : EFault × State) : EngOut :=
  { r with fault := firstFault r.fault e.1, st := if r.fault.isNone then e.2 else r.st, holes := ds ++ r.holes }

/-- The units of an operation evaluated one after the other, each with the ranges it writes: a unit that faults writes nothing. -/
def evalUnits {α : Type} (c : Eng) (probe sp : Bool) (f : α → State → EngRes (List (Nat × List Byte) × State))
    (dest : α → List (Nat × Nat)) (us : List α) (s : State) : EngOut :=
  let r := us.foldl (fun (acc : List (List (Nat × List Byte)) × EngOut) u =>
    match f u acc.2.st with
    | .error e => (acc.1, acc.2.stop (dest u) e)
    | .ok (ws, s1) =>
      match (if probe then probeAll c sp ws s1 else .ok s1) with
      | .error e => (acc.1, acc.2.stop (dest u) e)
      | .ok s2 => (ws :: acc.1, { acc.2 with st := s2 })) ([], ⟨[], none, s, []⟩)
  { r.2 with writes := r.1.reverse.flatten }

/-- A copy evaluated (R359 to R364), but for the units that a test on their ranges leaves out. The image of a COPY.MC is checked at its
receivers. -/
def copyEval (c : Eng) (mc : Bool) (skip : List (Nat × Nat) → Bool) (a : CopyArgs) (s : State) : EngOut :=
  evalUnits c (!mc) a.t.dspace (unitWrites c a) (unitDest a.t a.dst a.dsc)
    ((List.range (copyUnits a.t)).filter fun u => !skip (unitDest a.t a.dst a.dsc u)) s

/-- A fill evaluated (R380), but for what a test leaves out. -/
def fillEval (c : Eng) (skip : List (Nat × Nat) → Bool) (pat dst : W64) (len : Nat) (sp : Bool) (s : State) : EngOut :=
  let at_ (u : Nat) : Nat := dst.toNat + 8 * u
  evalUnits c true sp (fun u st => .ok ([(at_ u, toBytes 8 pat.toNat)], st)) (fun u => [(at_ u, 8)])
    ((List.range (len / 8)).filter fun u => !skip [(at_ u, 8)]) s

/-- Writes that were computed before, checked now. -/
def heldEval (c : Eng) (mx sp : Bool) (skip : List (Nat × Nat) → Bool) (ws : List (Nat × List Byte)) (s : State) : EngOut :=
  let dest (u : List (Nat × List Byte)) : List (Nat × Nat) := u.map fun w => (w.1, w.2.length)
  let us := if mx then (pairUp ws).map Prod.snd else ws.map fun w => [w]
  evalUnits c true sp (fun u st => .ok (u, st)) dest (us.filter fun u => !skip (dest u)) s

/-- The lowest and highest byte that the walk can touch on a side, from its base (R378): none for a gathered source, or
where nothing is read. -/
def sideSpan (t : Template) (src : Bool) : Option (Int × Int) :=
  let ty := if src then t.sty else t.dty
  let mx := if src then t.smx else t.dmx
  let packed := packedSide ty mx
  let unit := Int.ofNat (sideUnit ty mx)
  if src && t.gathers then none
  else
    let r := (List.range t.axes.length).foldl (fun (acc : Option (Int × Int)) a =>
      match acc, t.axes[a]? with
      | some (lo, hi), some x =>
        if packed && a == 0 then some (lo, hi + (Int.ofNat x.n / 32 - 1) * unit)
        else
          let cmin : Int := if src then (if x.off < 0 then 0 else x.off) else 0
          let top : Int := if src then x.off + Int.ofNat (if x.per = 0 then x.n else x.per) - 1 else Int.ofNat x.n - 1
          let cmax : Int := if src && Int.ofNat x.ext ≤ top then Int.ofNat x.ext - 1 else top
          let st := if src then x.ss else x.ds
          if cmax < cmin then none
          else some (lo + (if st < 0 then cmax * st else cmin * st), hi + (if st < 0 then cmin * st else cmax * st))
      | _, _ => none) (some (0, 0))
    r.map fun x => (x.1, x.2 + unit - 1)

/-- A range of addresses: its first byte and its length. -/
abbrev Span := Int × Nat

/-- The scratchpad ranges of one side of a copy, its elements' and its scales' (R362, R378), each with the base that reports it
(R377). -/
def sideSpans (t : Template) (src : Bool) (base scale : W64) : List (W64 × Span) :=
  match sideSpan t src with
  | none => []
  | some (lo, hi) =>
    let u := Int.ofNat (sideUnit (if src then t.sty else t.dty) (if src then t.smx else t.dmx))
    (base, Int.ofNat base.toNat + lo, (hi - lo + 1).toNat) ::
      if (if src then t.smx else t.dmx) then [(base, Int.ofNat scale.toNat + lo / u, ((hi - lo) / u + 1).toNat)] else []

/-- A range within a team's scratchpad (R220, R378). -/
def spanOk (t : Team) (x : Span) : Bool := 0 ≤ x.1 && x.1 + Int.ofNat x.2 ≤ Int.ofNat (t.units * 65536)

/-- The scratchpad lines of a range. -/
def spanLines (x : Span) : List Nat :=
  let a := x.1.toNat
  if x.2 = 0 then [] else (List.range ((a + x.2 - 1) / 128 + 1 - a / 128)).map fun i => a / 128 + i

/-- Lines made absent by an operation (R223), and one copy's hold on a line given up. -/
def Team.makeAbsent (t : Team) (op : Nat) (ls : List Nat) : Team :=
  { t with absent := ls.foldl (fun m l => if (amGetD m l []).contains op then m else amPut m l (amGetD m l [] ++ [op])) t.absent }
def Team.givePresent (t : Team) (op : Nat) (ok : Nat → Bool) : Team :=
  { t with absent := (t.absent.map fun e => if ok e.1 then (e.1, e.2.filter fun x => x ≠ op) else e).filter fun e => e.2 ≠ [] }

/-- The order in which a core's engine operations issued: by clock, in one clock by pipe (R224, R385). -/
def opBefore (s : State) (a b : Nat) : Bool :=
  match amGet s.ops a, amGet s.ops b with
  | some x, some y => x.clk < y.clk || (x.clk == y.clk && (x.pipe < y.pipe || (x.pipe == y.pipe && a < b)))
  | _, _ => a < b

/-- A line that a copy older than the operation still holds absent (R224). -/
def olderAbsent (s : State) (t : Team) (op : Nat) (ls : List Nat) : Bool :=
  ls.any fun l => (amGetD t.absent l []).any fun x => opBefore s x op

/-- The lines of a team's views. -/
def viewLines (t : Team) : List Nat :=
  (List.range ((t.units - t.scratchUnits) * 512)).map fun i => t.scratchUnits * 512 + i

end Sys2Proof.Machine
end

