-- ==== Sys2Proof/Machine/Matrix.lean ====
section
/-! DEFINITION. What the matrix engine computes: dot products bit for bit, and the accumulator words (R63 to R66, R369 to R374, R384, R387). -/

namespace Sys2Proof.Machine

/-- An element of an accumulator (R373): absent elements hold +0 (R374). -/
def accKey (acc row col : Nat) : Nat := acc * 65536 + row * 256 + col
def Team.getAcc (t : Team) (acc row col : Nat) : W32 := amGetD t.acc (accKey acc row col) 0#32
def Team.setAcc (t : Team) (acc row col : Nat) (x : W32) : Team :=
  { t with acc := if x = 0#32 then amDel t.acc (accKey acc row col) else amPut t.acc (accKey acc row col) x }

/-- An element of a matrix operand (R66, R371). -/
def matValue (code x : Nat) : FVal := if code = 0 then ofInteger (toSigned 8 x) else fdecode (codeFmt code) x

/-- A product of two factors: of two integers, an integer (R66). -/
def matProduct (ca cb : Nat) (a b : FVal) : FVal :=
  match exactMul a b with
  | .fin n m e => if ca = 0 ∧ cb = 0 ∧ m = 0 then .fin false 0 e else .fin n m e
  | x => x

/-- The sum of two values that are not NaN, exact (R65). -/
def sumStep (a b : FVal) : FVal :=
  match a, b with
  | .nan x, _ => .nan x
  | _, .nan x => .nan x
  | .inf n, .inf k => if n = k then .inf n else .nan false
  | .inf n, _ => .inf n
  | _, .inf k => .inf k
  | .fin n1 m1 e1, .fin n2 m2 e2 =>
    let x := exactAdd n1 m1 e1 n2 m2 e2
    .fin (if x.1 = 0 then n1 && n2 && m1 = 0 && m2 = 0 else decide (x.1 < 0)) x.1.natAbs x.2

/-- The exact sum of a chunk's products (R64, R65); a NaN anywhere outlasts it. -/
def chunkSum (ps : List FVal) : FVal :=
  match ps with
  | [] => .fin false 0 0
  | p :: rest => rest.foldl sumStep p

/-- An exact value rounded once to f32; a NaN is canonical (R64, R65). -/
def toF32 (mode : Mode) (v : FVal) : Nat := (convertTo fmtF32 mode false false v).bits

/-- One chunk added to an accumulator element (R64, R65). -/
def chunkStep (smode : Nat) (mode : Mode) (sa sb : FVal) (ps : List FVal) (acc : Nat) : Nat :=
  let p := toF32 .rn (chunkSum ps)
  let q := if smode = 0 then p else toF32 mode (exactMul (exactMul (fdecode fmtF32 p) sa) sb)
  (fadd fmtF32 mode false (fdecode fmtF32 acc) (fdecode fmtF32 q)).bits

/-- What an MMA names (R384): the slot's value, the shape, the region and the bases. -/
structure MmaArgs where
  slot : Nat
  sh : Shape
  acc : Nat
  row : Nat
  col : Nat
  a : Nat
  b : Nat
  sa : Nat
  sb : Nat

/-- The indices of a chunk in the scale mode (R63). -/
def chunkLen (smode : Nat) : Nat := if smode = 1 then 32 else 128
/-- The number of chunks. -/
def chunkCount (smode k : Nat) : Nat := (k + chunkLen smode - 1) / chunkLen smode

/-- The scale of row or column `r` for chunk `g` (R64, R372). -/
def scaleOf (m : Mem) (smode addr : Nat) : FVal :=
  match smode with
  | 1 => ofE8m0 (memNat m addr 1)
  | _ => fdecode fmtF32 (memNat m addr 4)
def scaleA (m : Mem) (x : MmaArgs) (r g : Nat) : FVal :=
  match fmtMode x.slot with
  | 1 => scaleOf m 1 (x.sa + r * x.sh.k / 32 + g)
  | 2 => scaleOf m 2 (x.sa + 4 * (r * ((x.sh.k + 127) / 128) + g))
  | _ => scaleOf m 3 x.sa
def scaleB (m : Mem) (x : MmaArgs) (c g : Nat) : FVal :=
  match fmtMode x.slot with
  | 1 => scaleOf m 1 (x.sb + c * x.sh.k / 32 + g)
  | 2 => scaleOf m 2 (x.sb + 4 * (g * ((x.sh.n + 127) / 128) + c / 128))
  | _ => scaleOf m 3 x.sb

/-- The elements of one row of an operand (R372). -/
def operandRow (m : Mem) (base k w r : Nat) : Nat := memNat m (base + r * k * w / 8) (k * w / 8)

/-- One output element after an MMA (R384). -/
def mmaElem (m : Mem) (x : MmaArgs) (i j start : Nat) : Nat :=
  let ca := fmtA x.slot
  let cb := fmtB x.slot
  let ra := operandRow m x.a x.sh.k (etyWidth ca) i
  let rb := operandRow m x.b x.sh.k (etyWidth cb) j
  let mode := if fmtRz x.slot then Mode.rz else Mode.rn
  let sm := fmtMode x.slot
  (List.range (chunkCount sm x.sh.k)).foldl (fun acc g =>
    let n := if (g + 1) * chunkLen sm ≤ x.sh.k then chunkLen sm else x.sh.k - g * chunkLen sm
    let ps := (List.range n).map fun k =>
      matProduct ca cb (matValue ca (bitsAt ra (g * chunkLen sm + k) (etyWidth ca)))
        (matValue cb (bitsAt rb (g * chunkLen sm + k) (etyWidth cb)))
    chunkStep sm mode (scaleA m x i g) (scaleB m x j g) ps acc) start

/-- Every element of a region, row by row. -/
def region (sh : Shape) : List (Nat × Nat) := (List.range sh.m).flatMap fun i => (List.range sh.n).map fun j => (i, j)

/-- An MMA performed on a team's accumulator, its operands from a scratchpad (R384). -/
def mmaOn (m : Mem) (x : MmaArgs) (t : Team) : Team :=
  (region x.sh).foldl (fun st e =>
    let start := if fmtOvw x.slot then 0 else (t.getAcc x.acc (x.row + e.1) (x.col + e.2)).toNat
    st.setAcc x.acc (x.row + e.1) (x.col + e.2) (BitVec.ofNat 32 (mmaElem m x e.1 e.2 start))) t

/-- ACCZ (R387). -/
def acczOn (sh : Shape) (acc row col : Nat) (t : Team) : Team :=
  (region sh).foldl (fun st e => st.setAcc acc (row + e.1) (col + e.2) 0) t

/-- An element of an accumulator word read as its type (R387). -/
def accLoadBits (ty : Nat) (mode : Mode) (x : Nat) : Nat :=
  toF32 mode (if ty = 2 then ofInteger (toSigned 32 x) else fdecode (codeFmt ty) x)
/-- An f32 converted to the type of an ACCST (R387). -/
def accStoreBits (ty : Nat) (mode : Mode) (sat : Bool) (x : Nat) : Nat :=
  let v := fdecode fmtF32 x
  if ty = 2 then (toInteger mode true 32 v).bits else (convertTo (codeFmt ty) mode sat false v).bits

/-- Where element (i, j) of an accumulator word lies (R386). -/
def accElemAddr (base stride : W64) (w i j : Nat) : Nat :=
  (base + BitVec.ofNat 64 i * stride + BitVec.ofNat 64 (j * w)).toNat

/-- ACCLD performed. Where it faults, each aligned 16 bytes of the accumulator whose elements have all been read is loaded, or not,
as its free value has it; the others keep their old values (R368, R387). -/
def accldOn (c : Eng) (sh : Shape) (acc row col : Nat) (base stride : W64) (ty rnd : Nat) (sp : Bool) (s : State) :
    State × Option EFault :=
  let w := etyWidth ty / 8
  let r := (region sh).foldl (fun (a : List (Nat × Nat × Nat) × Option EFault × State) e =>
    match engRead c sp (accElemAddr base stride w e.1 e.2) w a.2.2 with
    | .error f => (a.1, firstFault a.2.1 f.1, if a.2.1.isNone then f.2 else a.2.2)
    | .ok (bs, s1) => ((e.1, e.2, accLoadBits ty (modeOfRM rnd) (ofBytes bs)) :: a.1, a.2.1, s1)) ([], none, s)
  let f := r.2.2.takeFree
  let quad (x : Nat × Nat) : Nat := ((row + x.1) * 256 + col + x.2) / 4
  let kept := if r.2.1.isSome then r.1.filter fun x =>
      Config.partialDone f.1 (quad (x.1, x.2.1)) &&
        (region sh).all fun e => quad e != quad (x.1, x.2.1) || r.1.any fun y => (y.1, y.2.1) == e
    else r.1
  (f.2.modTeam c.team fun t => kept.foldl (fun st x => st.setAcc acc (row + x.1) (col + x.2.1) (BitVec.ofNat 32 x.2.2)) t, r.2.1)

/-- ACCST evaluated (R387). -/
def accstEval (c : Eng) (t : Team) (sh : Shape) (acc row col : Nat) (base stride : W64) (ty rnd : Nat) (sat sp : Bool)
    (s : State) : EngOut :=
  let w := etyWidth ty / 8
  evalUnits c true sp (fun e st => .ok ([(accElemAddr base stride w e.1 e.2,
      toBytes w (accStoreBits ty (modeOfRM rnd) sat (t.getAcc acc (row + e.1) (col + e.2)).toNat))], st))
    (fun e => [(accElemAddr base stride w e.1 e.2, w)]) (region sh) s

/-- The scratchpad ranges an MMA reads (R372, R384), each with the base that reports it. -/
def mmaSpans (x : MmaArgs) : List (Nat × Span) :=
  let k := x.sh.k
  let sp (base n : Nat) : Nat × Span := (base, Int.ofNat base, n)
  let ab := [sp x.a (x.sh.m * k * etyWidth (fmtA x.slot) / 8), sp x.b (x.sh.n * k * etyWidth (fmtB x.slot) / 8)]
  match fmtMode x.slot with
  | 0 => ab
  | 1 => ab ++ [sp x.sa (x.sh.m * k / 32), sp x.sb (x.sh.n * k / 32)]
  | 2 => ab ++ [sp x.sa (4 * x.sh.m * ((k + 127) / 128)), sp x.sb (4 * ((k + 127) / 128) * ((x.sh.n + 127) / 128))]
  | _ => ab ++ [sp x.sa 4, sp x.sb 4]

/-- The range of an accumulator word (R386). -/
def accSpan (sh : Shape) (base stride : W64) (w : Nat) : Span :=
  let st := stride.toInt
  let last := st * (Int.ofNat sh.m - 1)
  let lo := Int.ofNat base.toNat + if last < 0 then last else 0
  (lo, (last.natAbs + sh.n * w))

end Sys2Proof.Machine
end

