-- ==== Sys2Proof/Machine/Engines.lean ====
section
/-! DEFINITION. The meanings of the engine words and of the collective words (R348 to R391, R445, R446). -/

namespace Sys2Proof.Machine

/-- The value of an s-register of the issuing group. -/
def sval (w : Wd) (r : Reg) : W64 := w.gr.getS r.toNat
/-- The s-register after the one a field names. -/
def svalNext (w : Wd) (r : Reg) : W64 := w.gr.getS (r.toNat + 1)

/-- The grid of the group's team: its templates, format slots and trees (R359, R371, R442). -/
def gridOf (w : Wd) : Option Grid := amGet w.s.grids w.t.grid

/-- A word that parks while its class's counter is full (R349, R377). -/
def counted (cls : Nat) (body : Wd → Res) (w : Wd) : Res :=
  if 63 ≤ (w.gr.counter cls).n then parkAll w w.s (.counter cls 62) else body w

/-- A check of an engine word (R377): whether it fails, with the cause, sub-cause and TRAPADDR it reports. -/
structure Chk where
  fails : Bool
  cause : Nat
  sub : Nat
  addr : W64

/-- The first failing check traps; otherwise the word goes on. -/
def checked (w : Wd) (cs : List Chk) (k : Res) : Res :=
  match cs.find? Chk.fails with
  | some c => Res.trap w.s c.cause c.sub c.addr w.acting
  | none => k

def misaligned (a : W64) (k : Nat) : Chk := ⟨a.toNat % k != 0, cMISALIGNED, 0, a⟩
def outside (t : Team) (base : W64) (x : Span) : Chk := ⟨!spanOk t x, cSCRATCH_RANGE, 0, base⟩

/-- The stamp a word names (R357): address, value and space. -/
def stampOfWord (w : Wd) (f : EngF) : Option (W64 × W64 × Bool) :=
  if f.c = 0xFF then none else some (sval w f.c, svalNext w f.c, bit f.opf.toNat 8)

/-- The checks of a stamp address (R378). -/
def stampAligned (x : Option (W64 × W64 × Bool)) : List Chk :=
  match x with
  | some (a, _, _) => [misaligned a 8]
  | none => []
def stampInside (t : Team) (x : Option (W64 × W64 × Bool)) : List Chk :=
  match x with
  | some (a, _, true) => [outside t a (Int.ofNat a.toNat, 8)]
  | _ => []

/-- The views' bytes that a range of memory reaches (R174, R353). -/
def viewSpans (t : Team) (x : Int × Nat) : List Span :=
  t.tiles.filterMap fun v =>
    let lo := if x.1 < Int.ofNat v.base.toNat then Int.ofNat v.base.toNat else x.1
    let top := Int.ofNat (v.base.toNat + v.size)
    let hi := if x.1 + Int.ofNat x.2 < top then x.1 + Int.ofNat x.2 else top
    if lo < hi then some (Int.ofNat v.off + (lo - Int.ofNat v.base.toNat), (hi - lo).toNat) else none

/-- The lines of the team's scratchpad that ranges of addresses include a byte of: directly, or through its views (R223). -/
def partLines (t : Team) (sp : Bool) (xs : List (Nat × Nat)) : List Nat :=
  (xs.flatMap fun x =>
    let span : Span := (Int.ofNat x.1, x.2)
    (if sp then [span] else viewSpans t span).flatMap spanLines).eraseDups

/-- Lines of teams made absent by an operation (R223). -/
def absentAll (s : State) (op : Nat) (teams ls : List Nat) : State :=
  teams.foldl (fun st t => st.modTeam t fun x => x.makeAbsent op (ls.filter fun l => l < x.units * 512)) s

/-- Every line could count one more copy (R223). -/
def linesFree (s : State) (teams ls : List Nat) : Bool :=
  teams.all fun t => match s.team? t with
    | some x => ls.all fun l => (amGetD x.absent l []).length < 255
    | none => true

/-- The park of a copy that would make a 256th on some line (R223). -/
def lineWait (ls : List Nat) : Park := .lineCount (128 * ls.headD 0) (128 * (ls.headD 0 + ls.length))

/-- The receivers that a COPY.MC's words name (R365, R366): none where one is invalid, or the issuer is a task or a handler. A
merge group belongs to the team it serves (R280). -/
def receivers (w : Wd) (f : EngF) (k : Nat) : Option (List Nat) :=
  if (w.s.team? (scratchOwner w.s w.g.team)).all fun t => t.kind != .grid then none
  else ((List.range k).map fun i =>
    let x := (w.gr.getS (f.d.toNat + i)).toNat
    if field x 2 30 ≠ 0 then none else (remoteTeam w x).map Prod.fst).mapM id |>.map List.eraseDups

/-- The bases and scale bases of a copy (R362, R378). -/
def copyArgs (w : Wd) (f : EngF) (t : Template) (idx : W64) : CopyArgs :=
  { t := t, src := sval w f.a, dst := sval w f.b, idx := idx.toNat, ssc := svalNext w f.a, dsc := svalNext w f.b }

/-- The operation of a copy. -/
def CopyArgs.kind (a : CopyArgs) (rcv : List Nat) : OpKind :=
  .copy a.t a.src a.dst (if a.t.gathers then some (BitVec.ofNat 64 a.idx) else none) a.ssc a.dsc rcv

/-- COPY (R378). -/
def copyBody (f : EngF) (w : Wd) : Res :=
  match (gridOf w).bind fun g => g.templates[f.opf.toNat % 256]? with
  | none => Res.trap w.s cTEMPLATE_INVALID 0 0 w.acting
  | some t =>
    let o := scratchOwner w.s w.g.team
    let st := (w.s.team? o).getD w.t
    let a := copyArgs w f t (sval w f.d)
    let stamp := stampOfWord w f
    let src := sideSpans t true a.src a.ssc
    let dst := sideSpans t false a.dst a.dsc
    let ls := partLines st t.dspace (copyDest t a.dst a.dsc)
    checked w ([⟨(t.gathers && f.d == 0xFF) || (t.smx && f.a == 63) || (t.dmx && f.b == 63), cTEMPLATE_INVALID, 0, 0⟩] ++
      (if f.d = 0xFF then [] else [misaligned (sval w f.d) 4]) ++ stampAligned stamp ++
      [misaligned a.src (sideAlign t.sty t.smx), misaligned a.dst (sideAlign t.dty t.dmx)] ++
      (if t.sspace then src.map fun x => outside st x.1 x.2 else []) ++
      (if t.dspace then dst.map fun x => outside st x.1 x.2 else []) ++ stampInside st stamp)
      (if !linesFree w.s [o] ls then parkAll w w.s (lineWait ls)
       else
        let n := issueOp w w.s (a.kind []) 0 stamp
        Res.done (absentAll n.2 n.1 [o] ls))

/-- COPY.MC (R365, R366, R379). DESIGN CHOICE (log 134): an image of more than 64 KiB, for which R365 names no trap, is delivered. -/
def copyMcBody (f : EngF) (w : Wd) : Res :=
  match (gridOf w).bind fun g => g.templates[f.opf.toNat % 256]? with
  | none => Res.trap w.s cTEMPLATE_INVALID 0 0 w.acting
  | some t =>
    let st := (w.s.team? (scratchOwner w.s w.g.team)).getD w.t
    let k := field f.opf.toNat 9 2 + 1
    let a := copyArgs w f t (w.gr.getS (f.d.toNat + k))
    let stamp := stampOfWord w f
    let src := sideSpans t true a.src a.ssc
    let rs := receivers w f k
    let teams := rs.getD []
    let ls := partLines st true (copyDest t a.dst a.dsc)
    checked w ([⟨(t.smx && f.a == 63) || (t.dmx && f.b == 63) || !t.dspace || (t.gathers && f.d.toNat + k == 64),
        cTEMPLATE_INVALID, 0, 0⟩,
      ⟨rs.isNone, cFORBIDDEN_HERE, 0x11, 0⟩] ++
      (if t.gathers then [misaligned (w.gr.getS (f.d.toNat + k)) 4] else []) ++ stampAligned stamp ++
      [misaligned a.src (sideAlign t.sty t.smx), misaligned a.dst (sideAlign t.dty t.dmx)] ++
      (if t.sspace then src.map fun x => outside st x.1 x.2 else []) ++ stampInside st stamp)
      (if 16 ≤ holdingUsed w.s w.t.core then parkAll w w.s .holding
       else if !linesFree w.s teams ls then parkAll w w.s (lineWait ls)
       else
        let n := issueOp w w.s (a.kind teams) 0 stamp
        Res.done (absentAll n.2 n.1 teams ls))

/-- FILL (R380). -/
def fillBody (f : EngF) (w : Wd) : Res :=
  let o := scratchOwner w.s w.g.team
  let st := (w.s.team? o).getD w.t
  let base := sval w f.b
  let len := (sval w f.a).toNat
  let sp := bit f.opf.toNat 9
  let stamp := stampOfWord w f
  let span : Span := (Int.ofNat base.toNat, len)
  let ls := if len = 0 then [] else partLines st sp [(base.toNat, len)]
  checked w ([misaligned base 8, ⟨len % 8 != 0, cMISALIGNED, 0, base⟩, ⟨decide (2 ^ 64 < base.toNat + len), cMISALIGNED, 0, base⟩] ++
    stampAligned stamp ++ (if sp && len != 0 then [outside st base span] else []) ++ stampInside st stamp)
    (if !linesFree w.s [o] ls then parkAll w w.s (lineWait ls)
     else
      let n := issueOp w w.s (.fill (sval w f.d) len base sp) 0 stamp
      Res.done (absentAll n.2 n.1 [o] ls))

/-- The value of a format slot of the grid (R371). -/
def fmtSlot (w : Wd) (n : Nat) : Nat := ((((gridOf w).map Grid.fmts).getD []).getD n 0#64).toNat

/-- MSHAPE (R369, R383). -/
def mshapeBody (f : EngF) (w : Wd) : Res :=
  let slot := f.opf.toNat % 8
  let x := fmtSlot w slot
  let r := (sval w f.a).toNat
  if !fmtEn x then Res.trap w.s cSHAPE_MISMATCH 0 0 w.acting
  else
    let sh : Shape := ⟨slot, nearestSide (field r 0 16), nearestSide (field r 16 16), nearestK (granule x) (field r 32 16)⟩
    Res.done (w.s.modGroup w.g fun g =>
      { g.setS f.d.toNat (BitVec.ofNat 64 (sh.m + sh.n * 2 ^ 16 + sh.k * 2 ^ 32)) with shape := some sh })

/-- The region check of a matrix word (R373). -/
def accRange (t : Team) (sh : Shape) (acc row col : Nat) : Chk :=
  ⟨decide (t.accs ≤ acc) || decide (256 < row + sh.m) || decide (256 < col + sh.n), cACC_RANGE, 0, 0⟩

/-- MMA (R373, R384). -/
def mmaBody (f : EngF) (w : Wd) : Res :=
  let opf := f.opf.toNat
  let x := fmtSlot w (opf % 8)
  match w.gr.shape with
  | none => Res.trap w.s cSHAPE_MISMATCH 0 0 w.acting
  | some sh =>
    let st := (w.s.team? (scratchOwner w.s w.g.team)).getD w.t
    let m : MmaArgs := ⟨x, sh, field opf 3 2, 64 * field opf 5 2, 64 * field opf 7 2, (sval w f.a).toNat, (sval w f.b).toNat,
      (sval w f.c).toNat, (svalNext w f.c).toNat⟩
    let wide : Bool := fmtMode x == 2 || fmtMode x == 3
    checked w ([⟨!fmtEn x || sh.k % granule x != 0 || (f.c == 0xFF && fmtMode x != 0), cSHAPE_MISMATCH, 0, 0⟩,
      accRange w.t sh m.acc m.row m.col, misaligned (sval w f.a) 128, misaligned (sval w f.b) 128] ++
      (if wide then [misaligned (sval w f.c) 4, misaligned (svalNext w f.c) 4] else []) ++
      (mmaSpans m).map fun y => outside st (BitVec.ofNat 64 y.1) y.2)
      (Res.done (issueOp w w.s (.mma x sh m.acc m.row m.col (sval w f.a) (sval w f.b) (sval w f.c) (svalNext w f.c)) 1 none).2)

/-- ACCLD and ACCST (R386, R387). -/
def accBody (f : EngF) (store : Bool) (w : Wd) : Res :=
  let opf := f.opf.toNat
  match w.gr.shape with
  | none => Res.trap w.s cSHAPE_MISMATCH 0 0 w.acting
  | some sh =>
    let st := (w.s.team? (scratchOwner w.s w.g.team)).getD w.t
    let ty := field opf 6 5
    let acc := field opf 0 2
    let row := 64 * field opf 2 2
    let col := 64 * field opf 4 2
    let sp := bit opf 14
    let base := sval w f.a
    let k := etyWidth ty / 8
    checked w ([accRange w.t sh acc row col, misaligned base k, ⟨(sval w f.b).toNat % k != 0, cMISALIGNED, 0, base⟩] ++
      (if sp then [outside st base (accSpan sh base (sval w f.b) k)] else []))
      (Res.done (issueOp w w.s
        (if store then .accst sh acc row col base (sval w f.b) ty (field opf 11 2) (bit opf 13) sp
          else .accld sh acc row col base (sval w f.b) ty (field opf 11 2) sp) 1 none).2)

/-- ACCZ (R386, R387). -/
def acczBody (f : EngF) (w : Wd) : Res :=
  let opf := f.opf.toNat
  match w.gr.shape with
  | none => Res.trap w.s cSHAPE_MISMATCH 0 0 w.acting
  | some sh =>
    let acc := field opf 0 2
    let row := 64 * field opf 2 2
    let col := 64 * field opf 4 2
    checked w [accRange w.t sh acc row col] (Res.done (issueOp w w.s (.accz sh acc row col) 1 none).2)

/-- WAITC (R351, R389, R447): an acquire for the operations of the class; of those at .sys and of remote writes the L1 is invalidated. -/
def waitcBody (f : EngF) (w : Wd) : Res :=
  let cls := f.opf.toNat % 4
  let n := field f.opf.toNat 2 6
  if n < (w.gr.counter cls).n then parkAll w w.s (.counter cls n)
  else Res.done (if 2 ≤ cls then l1Clear w.s w.t.core else w.s)

/-- One read of a monitored word (R358, R390): a page that is not resident reads zero; where the word cannot be read,
the last value stands. -/
def monRead (s : State) (core : Nat) (m : Mon) : W64 × State :=
  if m.sp then
    (match s.team? (scratchOwner s m.g.team) with
      | some t => BitVec.ofNat 64 (memNat t.scratch m.va.toNat 8)
      | none => m.last, s)
  else match (s.team? m.g.team).bind fun t => viewOf t m.va.toNat with
  | some off => (BitVec.ofNat 64 (memNat (((s.team? m.g.team).map Team.scratch).getD []) off 8), s)
  | none => match xlate s core m.asid.toNat m.priv .read m.va.toNat with
    | (.ok key e, s1) => if inError s1 key then (m.last, s1) else (BitVec.ofNat 64 (memNat s1.mem key 8), touchRead s1 key e (pteEvp e))
    | (.absent, s1) => (0, s1)
    | (.fault _, s1) => (m.last, s1)

/-- The monitors of a core that hold an entry (R358). -/
def armedOn (s : State) (core : Nat) : Nat := (s.mons.filter fun m => !m.2.polling && coreOf s m.2.g == core).length

/-- MONW's registers written in the word's threads (R390). -/
def monReport (f : EngF) (w : Wd) (s : State) (x : W64) (sat : Bool) : Res :=
  Res.done ((s.modGroup w.g fun g => g.setS f.d.toNat x).modLanes w.g w.acting fun _ t => t.setP (f.opf.toNat % 8) sat)

/-- MONW once its word may be read (R358, R390): satisfied at once, or armed. -/
def monArm (f : EngF) (w : Wd) (s : State) : Res :=
  let va := sval w f.a
  let m : Mon :=
    { g := w.g, lanes := maskOf w.acting, pc := w.pc, va := va, sp := bit f.opf.toNat 3, target := sval w f.b
      deadline := if f.c = 0xFF then none else some (s.time.datum + (sval w f.c).toNat), d := f.d
      pd := BitVec.ofNat 3 f.opf.toNat, polling := false, since := s.time.clk, last := 0, dirty := false, resumed := false
      asid := w.gr.ctl.asid, priv := w.gr.ctl.priv }
  let r := monRead s w.t.core m
  if m.target.toNat ≤ r.1.toNat then monReport f w (l1Clear r.2 w.t.core) r.1 true
  else
    let remote : Bool := !m.sp && (va.toNat / 2 ^ 60 == 9 || va.toNat / 2 ^ 60 == 10)
    let n := r.2.newId
    parkAll w (n.2.setMons (amPut n.2.mons n.1 { m with last := r.1, polling := remote || 64 ≤ armedOn r.2 w.t.core }))
      (.monitor n.1)

/-- MONW (R358, R390). -/
def monwBody (f : EngF) (w : Wd) : Res :=
  let va := sval w f.a
  let st := (w.s.team? (scratchOwner w.s w.g.team)).getD w.t
  if va.toNat % 8 ≠ 0 then Res.trap w.s cMISALIGNED 0 va w.acting
  else if bit f.opf.toNat 3 then
    if !spanOk st (Int.ofNat va.toNat, 8) then Res.trap w.s cSCRATCH_RANGE 0 va w.acting
    else if !linesPresent st va.toNat 8 then parkAll w w.s (.presence va.toNat (va.toNat + 8))
    else monArm f w w.s
  else match viewOf w.t va.toNat with
  | some off => if linesPresent w.t off 8 then monArm f w w.s else parkAll w w.s (.presence off (off + 8))
  | none => match remoteOlder w.s w.g w.t.core w.gr.ctl.asid.toNat va.toNat with
    | some id => parkAll w w.s (.access id)
    | none => match xlate w.s w.t.core w.gr.ctl.asid.toNat w.gr.ctl.priv .read va.toNat with
      | (.fault c, s1) => Res.trap s1 c.cause c.sub va w.acting
      | (.ok key e, s1) =>
        if heldUp s1 key e then parkAll w w.s (.locked (lineOf key))
        else match olderAcc s1 w.g (sectorOf key) with
        | some id => parkAll w w.s (.access id)
        | none =>
        if inError s1 key then Res.trap (logConsumed s1 key w.gr.ctl.asid.toNat) cDATA_ERROR 0 va w.acting else monArm f w s1
      | (.absent, s1) => monArm f w s1

/-- The tree that a collective word names (R442, R445). -/
def treeOf (w : Wd) (n : Nat) : Option Tree := treeAt w.s w.t n

/-- The status word of a collective (R446). -/
def collStatus (round code : Nat) : W64 := BitVec.ofNat 64 (round % 2 ^ 32 * 2 ^ 16 + code)

/-- A contribution completes: the results and the status are written, and it is counted (R446). -/
def netFinish (s : State) (id : Nat) (c : Contribution) (num code : Nat) (vals : List Nat) (lost : Bool) : State :=
  let st := collStatus num code
  let s1 := if c.bar then s.modGroup c.g fun g => g.setS c.d.toNat st
    else
      let s' := s.modGroup c.g fun g => g.setS c.sc.toNat st
      if code = 0 then s'.modLanes c.g (lanesOf c.lanes) fun l t => t.setV c.d.toNat (BitVec.ofNat 32 (vals.getD l 0)) else s'
  let s2 := if c.bar && code == 2 && lost then
      holdFault s1 c.g ⟨cBARRIER_BROKEN, 0, 0, 0, 2, c.seq, ((amGet s.ops id).map Op.pc).getD 0, none⟩
    else s1
  opDone s2 id

/-- The round of a tree that a core's next collective word belongs to. -/
def findRound (s : State) (grid tree num : Nat) : Option (Nat × CollRound) :=
  s.rounds.find? fun r => r.2.grid == grid && r.2.tree == tree && r.2.num == num

/-- A round's number, the round and the state with it, opened where nobody has heard of it yet (R443). -/
def roundFor (s : State) (grid tree num : Nat) : Nat × CollRound × State :=
  match findRound s grid tree num with
  | some x => (x.1, x.2, s)
  | none => (s.newId.1, ⟨grid, tree, num, [], [], [], [], [], none⟩, s.newId.2)

/-- A contribution of a core to its next round (R444, R445). -/
def contribute (w : Wd) (tree : Nat) (t : Tree) (c : Contribution) : Res :=
  let key := w.t.grid * 16 + tree
  let num := amGetD (w.s.core w.t.core).nextRound key 0
  let s1 := w.s.modCore w.t.core fun x => { x with nextRound := amPut x.nextRound key (num + 1) }
  let r := roundFor s1 w.t.grid tree num
  let n := issueOp w r.2.2 (.net r.1 c.bar c.d c.sc) 2 none
  let c1 := { c with seq := (w.gr.counter 2).seq }
  if t.broken then Res.done (netFinish n.2 n.1 c1 num 2 [] t.lost)
  else match r.2.1.result with
  | some x => Res.done (netFinish n.2 n.1 c1 num (if x.1 = 0 then 1 else x.1) [] false)
  | none => Res.done (n.2.setRounds (amPut n.2.rounds r.1 { r.2.1 with contribs := r.2.1.contribs ++ [c1] }))

/-- NRED (R445, R446). -/
def nredBody (f : EngF) (w : Wd) : Res :=
  let opf := f.opf.toNat
  match treeOf w (field opf 12 4) with
  | none => Res.trap w.s cFORBIDDEN_HERE 0x13 0 w.acting
  | some t =>
    let ty := (Ty.ofCode (field opf 0 5)).getD .b32
    let vals := (List.range 32).map fun l =>
      if w.acting.contains l then laneVal w f.a 32 l else identityOf ty (field opf 8 3)
    contribute w (field opf 12 4) t
      { core := w.t.core, g := w.g, seq := 0, bar := false, op := field opf 8 3, ty := field opf 0 5, vals := vals
        lanes := maskOf w.acting, d := f.d, sc := f.c }

/-- NBAR (R445, R446). -/
def nbarBody (f : EngF) (w : Wd) : Res :=
  match treeOf w (field f.opf.toNat 12 4) with
  | none => Res.trap w.s cFORBIDDEN_HERE 0x13 0 w.acting
  | some t => contribute w (field f.opf.toNat 12 4) t
      { core := w.t.core, g := w.g, seq := 0, bar := true, op := 0, ty := 0, vals := [], lanes := 0, d := f.d, sc := f.d }

def execCopy (f : EngF) (s : State) := runWord (.copy f) (counted 0 (copyBody f)) s
def execCopyMc (f : EngF) (s : State) := runWord (.copyMc f) (counted 0 (copyMcBody f)) s
def execFill (f : EngF) (s : State) := runWord (.fill f) (counted 0 (fillBody f)) s
def execMshape (f : EngF) (s : State) := runWord (.mshape f) (mshapeBody f) s
def execMma (f : EngF) (s : State) := runWord (.mma f) (counted 1 (mmaBody f)) s
def execAccld (f : EngF) (s : State) := runWord (.accld f) (counted 1 (accBody f false)) s
def execAccst (f : EngF) (s : State) := runWord (.accst f) (counted 1 (accBody f true)) s
def execAccz (f : EngF) (s : State) := runWord (.accz f) (counted 1 (acczBody f)) s
def execWaitc (f : EngF) (s : State) := runWord (.waitc f) (waitcBody f) s
def execMonw (f : EngF) (s : State) := runWord (.monw f) (monwBody f) s
def execNred (f : EngF) (s : State) := runWord (.nred f) (counted 2 (nredBody f)) s
def execNbar (f : EngF) (s : State) := runWord (.nbar f) (counted 2 (nbarBody f)) s

end Sys2Proof.Machine
end

