-- ==== Sys2Proof/Machine/EngineEvents.lean ====
section
/-! DEFINITION. The events of the engines: lines delivered, operations completed and counted, multicast drains, the matrix engine, monitors (R223 to R225, R244, R245, R348 to R375, R380 to R390). -/

namespace Sys2Proof.Machine

/-- The lines that a copy reads; those of a gathered source are not known before, so every line counts. -/
def copySourceLines (o : Team) (t : Template) (src : W64) (ssc : W64) : List Nat :=
  if t.gathers then (if t.sspace then List.range (o.units * 512) else viewLines o)
  else partLines o t.sspace (copySource t src ssc)

/-- The arguments of a copy. -/
def copyArgsOf (t : Template) (src dst : W64) (idx : Option W64) (ssc dsc : W64) : CopyArgs :=
  { t := t, src := src, dst := dst, idx := (idx.getD 0).toNat, ssc := ssc, dsc := dsc }

/-- The scratchpad lines that an operation reads (R224). -/
def Op.sourceLines (s : State) (o : Op) : List Nat :=
  match s.team? (scratchOwner s o.g.team) with
  | none => []
  | some t =>
    match o.kind with
    | .copy tm src _ _ ssc _ _ => copySourceLines t tm src ssc
    | .mma slot sh acc row col a b sa sb =>
      (mmaSpans ⟨slot, sh, acc, row, col, a.toNat, b.toNat, sa.toNat, sb.toNat⟩).flatMap fun x => spanLines x.2
    | .accld sh _ _ _ base stride ty _ sp =>
      let w := etyWidth ty / 8
      partLines t sp ((List.range sh.m).map fun i => (accElemAddr base stride w i 0, sh.n * w))
    | _ => []

/-- An operation may read: the clock of its issue is over, so that every operation issued in it is known, and its source is present
but for what its own copy and younger ones write (R224, R385). -/
def sourceReady (s : State) (id : Nat) (o : Op) : Bool :=
  o.clk < s.time.clk && match s.team? (scratchOwner s o.g.team) with
  | some t => !olderAbsent s t id (Op.sourceLines s o)
  | none => true

/-- A source line of the scratchpad in uncorrectable error (R250), and its report. -/
def sourceInError (s : State) (o : Op) : Bool :=
  let owner := scratchOwner s o.g.team
  s.errs.scratch != [] && (Op.sourceLines s o).any fun l => s.errs.scratch.contains (owner, l)
def reportSource (s : State) (o : Op) : State :=
  let owner := scratchOwner s o.g.team
  ((Op.sourceLines s o).filter fun l => s.errs.scratch.contains (owner, l)).foldl (fun st l => report st (.scratch owner l)) s

/-- A copy out of MX blocks, and one into them (R278). -/
def Op.fromMx (o : Op) : Bool :=
  match o.kind with
  | .copy t _ _ _ _ _ _ => t.smx
  | _ => false
def Op.toMx (o : Op) : Bool :=
  match o.kind with
  | .copy t _ _ _ _ _ _ => t.dmx
  | _ => false

/-- Every instant of a unit's writes is past. -/
def Op.past (o : Op) (ds : List (Nat × Nat)) : Bool :=
  o.given != [] && (instantsOf o.toMx 16 ds).all o.given.contains

/-- What a copy or fill still would write, and to which side: what it has read of an MX source stands (R278). -/
def Op.evaluate (s : State) (o : Op) : Bool × EngOut :=
  match o.kind with
  | .copy t src dst idx ssc dsc rcv =>
    (t.dspace, match o.held with
      | some ws => heldEval (Op.eng s o) o.toMx t.dspace o.past ws s
      | none => copyEval (Op.eng s o) (rcv != []) o.past (copyArgsOf t src dst idx ssc dsc) s)
  | .fill pat len dst sp => (sp, fillEval (Op.eng s o) o.past pat dst len sp s)
  | _ => (false, ⟨[], none, s, []⟩)

/-- A copy that delivers through the holding buffer (R365). -/
def Op.multicast (o : Op) : Bool :=
  match o.kind with
  | .copy _ _ _ _ _ _ rcv => rcv != [] || o.image.isSome
  | _ => false
def Op.receivers (o : Op) : List Nat :=
  match o.kind with
  | .copy _ _ _ _ _ _ rcv => rcv
  | _ => []
def Op.dropReceiver (o : Op) (team : Nat) : Op :=
  match o.kind with
  | .copy t src dst idx ssc dsc rcv => { o with kind := .copy t src dst idx ssc dsc (rcv.filter fun x => x ≠ team) }
  | _ => o

/-- The parts of a write by the scratchpad line they fall in, directly or through a view: `none` for memory (R174). -/
def byLine (t : Option Team) (sp : Bool) (w : Nat × List Byte) : List (Option Nat × Nat × List Byte) :=
  if sp then (chunksOf 128 w).map fun x => (some x.1, x.2)
  else (chunksOf 64 w).map fun x => ((t.bind fun y => viewOf y x.2.1).map fun off => off / 128, x.2)

/-- The instants of an operation that still stand to come, with their writes in order. -/
def Op.left (o : Op) (ws : List (Nat × List Byte)) : List (Nat × List (Nat × List Byte)) :=
  (writePieces o.toMx 16 ws).filter fun p => !o.given.contains p.1

/-- The writes that still stand to be made. -/
def undelivered (o : Op) (ws : List (Nat × List Byte)) : List (Nat × List Byte) :=
  if o.given = [] then ws else (o.left ws).flatMap Prod.snd

/-- The instants that write a byte of a scratchpad line. -/
def lineInstants (s : State) (o : Op) (sp : Bool) (line : Nat) (ws : List (Nat × List Byte)) : List Nat :=
  ((o.left ws).filter fun p => p.2.any fun w => (byLine (s.team? o.g.team) sp w).any fun x => x.1 == some line).map Prod.fst

/-- Every write of some instants, in order: an MX unit that reaches a line is performed with all of its parts (R278). -/
def instantWrites (o : Op) (ks : List Nat) (ws : List (Nat × List Byte)) : List (Nat × List Byte) :=
  ((o.left ws).filter fun p => ks.contains p.1).flatMap Prod.snd

def writeAll (s : State) (o : Op) (sp : Bool) (ws : List (Nat × List Byte)) : State :=
  ws.foldl (fun st w => engWrite (Op.eng st o) sp w st) s

/-- Every line an operation holds absent becomes present (R223, R225). -/
def releaseLines (s : State) (id : Nat) : State :=
  s.setTeams (s.teams.map fun t => if t.2.absent = [] then t else (t.1, t.2.givePresent id fun _ => true))

/-- What holds a byte that an engine writes, and where in it: a sector of memory, or a line of a scratchpad, directly or through a
view. -/
def errorSpot (s : State) (c : Eng) (sp : Bool) (va : Nat) : Option (ErrAt × Nat) :=
  if sp then some (.scratch (scratchOwner s c.team) (va / 128), va % 128)
  else match (s.team? c.team).bind fun t => viewOf t va with
    | some off => some (.scratch c.team (off / 128), off % 128)
    | none => (engKey c s va).map fun k => (.sector (sectorOf k.1), k.1 % 64)

/-- What holds it is in uncorrectable error (R250). -/
def ErrAt.stands (s : State) (e : ErrAt) : Bool :=
  match e with
  | .sector k => s.errs.sectors.contains k
  | .scratch t l => s.errs.scratch.contains (t, l)
  | _ => false
/-- Its size in bytes. -/
def ErrAt.size (e : ErrAt) : Nat :=
  match e with
  | .sector _ => 64
  | _ => 128

/-- The sectors and lines in error that writes reach (R250). -/
def errorSpots (s : State) (c : Eng) (sp : Bool) (ws : List (Nat × List Byte)) : List ErrAt :=
  if s.errs.scratch = [] && (sp || s.errs.sectors = []) then []
  else (((ws.flatMap (chunksOf 64)).filterMap fun x => (errorSpot s c sp x.2.1).map Prod.fst).filter (ErrAt.stands s)).eraseDups

/-- How many bytes of a sector or line writes cover. -/
def coveredBytes (s : State) (c : Eng) (sp : Bool) (ws : List (Nat × List Byte)) (e : ErrAt) : Nat :=
  ((ws.flatMap (chunksOf 64)).flatMap fun x => match errorSpot s c sp x.2.1 with
    | some (f, o) => if f = e then (List.range x.2.2.length).map fun i => o + i else []
    | none => []).eraseDups.length

/-- Sectors and lines in error under an engine's writes (R250): one that they cover loses its error; another is reported, and the
writes to it are not performed. -/
def settleErrors (s : State) (c : Eng) (sp : Bool) (ws : List (Nat × List Byte)) : State × List (Nat × List Byte) :=
  let bad := errorSpots s c sp ws
  if bad = [] then (s, ws)
  else
    let part := bad.filter fun e => coveredBytes s c sp ws e < ErrAt.size e
    let s1 := part.foldl report s
    (s1.setErrs { s1.errs with
        sectors := s1.errs.sectors.filter fun k => !bad.contains (.sector k) || part.contains (.sector k)
        scratch := s1.errs.scratch.filter fun k => !bad.contains (.scratch k.1 k.2) || part.contains (.scratch k.1 k.2) },
      if part = [] then ws
      else (ws.flatMap (chunksOf 64)).filterMap fun x => match errorSpot s c sp x.2.1 with
        | some (e, _) => if part.contains e then none else some x.2
        | none => some x.2)

/-- Writes performed, but for those that an error keeps from it (R250). -/
def writeSettled (s : State) (o : Op) (sp : Bool) (ws : List (Nat × List Byte)) : State :=
  let x := settleErrors s (Op.eng s o) sp ws
  writeAll x.1 o sp x.2

/-- An operation's fault delivered to its group (R368, R387); a data error of engine traffic is reported (R250). -/
def engineFault (s : State) (o : Op) (f : EFault) : State :=
  if f.1.cause = cDATA_ERROR then report s (.sector (f.2.toNat / 64))
  else holdFault s o.g ⟨cCOPY_FAULT, f.1.cause, f.1.sub, f.2, o.cls, o.seq, o.pc, none⟩

/-- The fault of a stamp write, as it stands (R357). -/
def stampFault (s : State) (o : Op) : Option (EFault × State) :=
  match o.stamp with
  | some (a, _, sp) => match engProbe (Op.eng s o) sp a.toNat 8 s with
    | .error f => some f
    | .ok _ => none
  | none => none

/-- The stamp finds a locked line, or no room. -/
def stampWaits (s : State) (o : Op) : Bool := mustWait ((stampFault s o).map Prod.fst)

/-- The stamp written (R357): a partial write, as errors meet it (R250). -/
def writeStamp (s : State) (o : Op) : State :=
  match o.stamp with
  | some (a, v, sp) => match stampFault s o with
    | some f => engineFault f.2 o f.1
    | none => writeSettled s o sp [(a.toNat, toBytes 8 v.toNat)]
  | none => s

/-- The home of a range of main memory, where one compute die holds it all. -/
def mainHome (base len : Nat) : Option Nat :=
  let h := base / 2 ^ 60
  if h ≤ 7 ∧ 0 < len ∧ (base + len - 1) / 2 ^ 60 = h then some h else none

/-- No view of the team stands in a range. -/
def outsideViews (t : Option Team) (base len : Nat) : Bool :=
  match t with
  | some x => x.tiles.all fun v => base + len ≤ v.base.toNat || v.base.toNat + v.size ≤ base
  | none => true

/-- The destination range of an operation that takes the in-DRAM path, and its source range (R244, R367). -/
def inDram (s : State) (o : Op) : Option ((Nat × Nat) × (Nat × Nat)) :=
  let t := s.team? o.g.team
  match o.kind with
  | .copy tm src dst _ _ _ [] =>
    match tm.axes with
    | [x] =>
      let w := etyWidth tm.sty / 8
      let len := x.n * w
      if tm.idram && !tm.sspace && !tm.dspace && tm.plain && tm.nops == 0 && tm.ndim == 1 && !tm.gathers &&
          x.ss == Int.ofNat w && x.ds == Int.ofNat w && src.toNat % 64 == 0 && dst.toNat % 64 == 0 && len % 64 == 0 &&
          (mainHome src.toNat len).isSome && mainHome src.toNat len == mainHome dst.toNat len &&
          outsideViews t src.toNat len && outsideViews t dst.toNat len then
        some ((dst.toNat, len), (src.toNat, len))
      else none
    | _ => none
  | .fill _ len dst sp =>
    if !sp && dst.toNat % 64 == 0 && len % 64 == 0 && (mainHome dst.toNat len).isSome && outsideViews t dst.toNat len then
      some ((dst.toNat, len), (0, 0))
    else none
  | _ => none

/-- The keys of the sectors of a range of addresses, by the copy's own translation. -/
def sectorsOfRange (s : State) (c : Eng) (n : AccessNeed) (x : Nat × Nat) : List Nat :=
  (pieces x.1 x.2).filterMap fun p => match (xlate s c.core c.asid c.priv n p.1).1 with
    | .ok key _ => some (sectorOf key)
    | _ => none

/-- The dirty source sectors of an in-DRAM copy are written back before it reads (R244). -/
def dramBefore (s : State) (o : Op) : State :=
  match inDram s o with
  | some (_, src) => (sectorsOfRange s (Op.eng s o) .read src).foldl (fun st k => writebackMsc (writebackL2 st k) k) s
  | none => s

/-- The destination sectors of an in-DRAM copy are invalidated before its stamp (R245). -/
def dramAfter (s : State) (o : Op) : State :=
  match inDram s o with
  | some (dst, _) => (sectorsOfRange s (Op.eng s o) .write dst).foldl (fun st k =>
      invalidMsc (raiseHorizon (invalidL2 st k) (k * 64) st.datum48) k) s
  | none => s

/-- An operation that ended early: each 16 bytes of memory and each byte of the scratchpad that it had not written keeps
its old value or takes the new one (R225, R368); what a unit that faulted shares such 16 bytes with keeps its old value. -/
def writeSome (s : State) (o : Op) (sp : Bool) (holes : List (Nat × Nat)) (ws : List (Nat × List Byte)) : State :=
  let f := s.takeFree
  let fill : Bool := match o.kind with
    | .fill _ _ _ _ => true
    | _ => false
  writeSettled f.2 o sp (partialWrites o.toMx f.1 (if sp then (if fill then 8 else 1) else 16) holes ws)

/-- A copy or fill, other than a multicast, comes to its end (R350, R357, R368, R375). -/
def completeCopy (s : State) (id : Nat) (o : Op) : State :=
  let s0 := dramBefore s o
  let r := Op.evaluate s0 o
  let ws := undelivered o r.2.writes
  if o.cancelled then opDone (releaseLines (writeSome s0 o r.1 r.2.holes ws) id) id
  else if sourceInError s o then opDone (releaseLines (reportSource (writeSome s0 o r.1 r.2.holes ws) o) id) id
  else if mustWait r.2.fault || !sourceReady s id o then s
  else match r.2.fault with
    | some f => opDone (releaseLines (engineFault (writeSome r.2.st o r.1 r.2.holes ws) o f) id) id
    | none =>
      let s1 := dramAfter (writeSettled r.2.st o r.1 ws) o
      if stampWaits s1 o then s else opDone (releaseLines (writeStamp s1 o) id) id

/-- The image of a multicast assembled in its slot (R365). -/
def assemble (s : State) (id : Nat) (o : Op) : State :=
  let r := Op.evaluate s o
  if o.image.isSome then s
  else if o.cancelled then opDone (releaseLines s id) id
  else if sourceInError s o then opDone (releaseLines (reportSource s o) id) id
  else if mustWait r.2.fault || !sourceReady s id o then s
  else match r.2.fault with
    | some f => opDone (releaseLines (engineFault r.2.st o f) id) id
    | none =>
      let bytes := r.2.writes.flatMap fun w => w.2.mapIdx fun i b => (w.1 + i, b)
      r.2.st.setOps (amPut r.2.st.ops id { o with image := some bytes })

/-- Bytes of an image written to a receiver: a line in error takes them only where they cover it (R250). -/
def imageTo (s : State) (team : Nat) (bs : List (Nat × Byte)) : State :=
  let x := settleErrors s ⟨team, 0, 0, false⟩ true (bs.map fun b => (b.1, [b.2]))
  noteScratch (x.1.modTeam team fun t => { t with scratch := x.2.foldl (fun m b => memWrite m b.1 b.2) t.scratch }) team

/-- A receiver has been served: the operation ends with its last (R365, R366). One that faulted at a receiver, or was cancelled, writes
no stamp (R357). -/
def receiverDone (s : State) (id : Nat) (o : Op) (team : Nat) : State :=
  let o1 := Op.dropReceiver o team
  let s1 := (s.setOps (amPut s.ops id o1)).modTeam team fun t => t.givePresent id fun _ => true
  if o1.receivers = [] then opDone (if o1.cancelled || o1.faulted then s1 else writeStamp s1 o1) id else s1

/-- A copy's source read at one instant for all that it writes, where MX blocks are read or written: each unit is then of one reading,
whatever the pieces it is delivered in (R278). -/
def Op.reading (o : Op) (ws : List (Nat × List Byte)) : Op :=
  if o.held.isNone && (o.fromMx || o.toMx) then { o with held := some ws } else o

/-- Some of the instants of a copy or fill to memory come, each an aligned 16 bytes or an MX unit: they are not atomic as a set, and
come in any order (R277, R278, R298). -/
def copySome (s : State) (id : Nat) (chunks : List Nat) : State :=
  match amGet s.ops id with
  | none => s
  | some o =>
    let r := Op.evaluate s o
    if o.cls ≠ 0 || r.1 || Op.multicast o || o.cancelled || o.st == .complete || sourceInError s o || r.2.fault.isSome ||
        !sourceReady s id o || (inDram s o).isSome || errorSpots s (Op.eng s o) r.1 r.2.writes != [] then s
    else
      let s1 := writeAll r.2.st o r.1 (instantWrites o chunks r.2.writes)
      s1.setOps (amPut s1.ops id { o.reading r.2.writes with
        given := o.given ++ (((o.left r.2.writes).map Prod.fst).filter chunks.contains).eraseDups })

/-- The last receiver of a multicast is served only once its stamp can be written. -/
def lastWaits (s : State) (o : Op) (team : Nat) : Bool := o.receivers == [team] && !o.cancelled && !o.faulted && stampWaits s o

/-- A multicast's image drained into one receiver (R365, R366). DESIGN CHOICE (log 133): a receiver whose slot has been freed is served
no more, and the stamp is written though it was not reached. -/
def drainTo (s : State) (id team : Nat) : State :=
  match amGet s.ops id, s.team? team with
  | some o, some t =>
    match o.image with
    | none => s
    | some bytes =>
      if !o.receivers.contains team || !t.resident then s
      else if lastWaits s o team then s
      else match bytes.find? fun b => t.units * 65536 ≤ b.1 with
        | some b => receiverDone (if o.cancelled then s else
            engineFault s o (⟨cSCRATCH_RANGE, 0⟩, BitVec.ofNat 64 b.1)) id { o with faulted := true } team
        | none => receiverDone (imageTo s team (bytes.filter fun b => !o.delivered.contains (team, b.1 / 128))) id o team
  | some o, none =>
    if o.image.isNone || !o.receivers.contains team || lastWaits s o team then s
    else receiverDone s id o team
  | none, _ => s

/-- A line of a multicast's image drained ahead of the rest. -/
def drainLine (s : State) (id : Nat) (o : Op) (team line : Nat) (bytes : List (Nat × Byte)) : State :=
  match s.team? team with
  | some t =>
    if !o.receivers.contains team || !t.resident || o.delivered.contains (team, line) ||
        bytes.any (fun b => t.units * 65536 ≤ b.1) || !(amGetD t.absent line []).contains id then s
    else
      let s1 := imageTo s team (bytes.filter fun b => b.1 / 128 = line)
      (s1.setOps (amPut s1.ops id { o with delivered := (team, line) :: o.delivered })).modTeam team fun x =>
        x.givePresent id fun l => l == line
  | none => s

/-- A copy's bytes for one line delivered (R223), with the other parts of the MX units that reach it (R278). -/
def deliverLine (s : State) (id team line : Nat) : State :=
  match amGet s.ops id with
  | none => s
  | some o =>
    match o.image with
    | some bytes => drainLine s id o team line bytes
    | none =>
      let owner := scratchOwner s o.g.team
      let r := Op.evaluate s o
      if Op.multicast o || o.cancelled || team ≠ owner || o.st == .complete || sourceInError s o ||
          !(((s.team? owner).map fun t => amGetD t.absent line []).getD []).contains id ||
          r.2.fault.isSome || !sourceReady s id o then s
      else
        let ks := lineInstants s o r.1 line r.2.writes
        let mine := instantWrites o ks r.2.writes
        if (errorSpots s (Op.eng s o) r.1 mine).any fun e => e != .scratch team line then s
        else
          let s1 := writeSettled r.2.st o r.1 mine
          (s1.setOps (amPut s1.ops id { o.reading r.2.writes with given := o.given ++ ks.eraseDups })).modTeam team fun x =>
            x.givePresent id fun l => l == line

/-- A copy delivers its bytes for a scratchpad line (R223, R224). -/
def execLineDelivered (op team line : Nat) (s : State) : Host.Outcome State Fault Refusal := .next (deliverLine s op team line)

/-- An operation of the matrix engine (R348). -/
def Op.matrix (o : Op) : Bool := o.cls == 1

/-- An engine operation comes to its end (R350): a copy or fill with its last bytes and its stamp, a multicast with its
image in the holding buffer, a matrix operation that has been performed. -/
def execEngineOpComplete (op : Nat) (s : State) : Host.Outcome State Fault Refusal :=
  .next (match amGet s.ops op with
    | none => s
    | some o =>
      if o.st == .complete then s
      else if Op.matrix o then (if o.st == .started || o.cancelled then opDone s op else s)
      else if o.cls ≠ 0 then s
      else if Op.multicast o then assemble s op o
      else completeCopy s op o)

/-- The image of a COPY.MC reaches the core of a receiver that is saved, where it is held (R414). -/
def holdImage (s : State) (id team : Nat) : State :=
  match amGet s.ops id, s.team? team with
  | some o, some t =>
    if o.image.isSome && o.receivers.contains team && !t.resident && !t.heldIn.contains (.image id) then
      s.putTeam team { t with heldIn := t.heldIn ++ [.image id] }
    else s
  | _, _ => s

/-- A receiver drains the image of a COPY.MC (R365), or its core holds it while it is saved (R414). -/
def execMcDrain (op team : Nat) (s : State) : Host.Outcome State Fault Refusal := .next (drainTo (holdImage s op team) op team)

/-- The effect of a matrix operation (R374, R384, R387). -/
def matrixEffect (s : State) (o : Op) : State :=
  match o.kind, s.team? o.g.team with
  | .mma slot sh acc row col a b sa sb, some t =>
    let m := ((s.team? (scratchOwner s o.g.team)).map Team.scratch).getD []
    s.putTeam o.g.team (mmaOn m ⟨slot, sh, acc, row, col, a.toNat, b.toNat, sa.toNat, sb.toNat⟩ t)
  | .accz sh acc row col, some t => s.putTeam o.g.team (acczOn sh acc row col t)
  | .accld sh acc row col base stride ty rnd sp, some _ =>
    let r := accldOn (Op.eng s o) sh acc row col base stride ty rnd sp s
    match r.2 with
    | some f => engineFault r.1 o f
    | none => r.1
  | .accst sh acc row col base stride ty rnd sat sp, some t =>
    let r := accstEval (Op.eng s o) t sh acc row col base stride ty rnd sat sp s
    match r.fault with
    | some f => engineFault (writeSome r.st o sp r.holes r.writes) o f
    | none => writeSettled r.st o sp r.writes
  | _, _ => s

/-- A matrix operation finds a locked line. -/
def matrixWaits (s : State) (o : Op) : Bool :=
  match o.kind, s.team? o.g.team with
  | .accld sh acc row col base stride ty rnd sp, some _ => mustWait (accldOn (Op.eng s o) sh acc row col base stride ty rnd sp s).2
  | .accst sh acc row col base stride ty rnd sat sp, some t =>
    mustWait (accstEval (Op.eng s o) t sh acc row col base stride ty rnd sat sp s).fault
  | _, _ => false

/-- The matrix engine of a core starts its oldest operation, once its operand lines are present and none is in progress
(R354, R374, R385). -/
def execMatrixOpStart (core : Nat) (s : State) : Host.Outcome State Fault Refusal :=
  let ops := s.ops.filter fun o => Op.matrix o.2 && !o.2.cancelled && o.2.st != .complete && coreOf s o.2.g == core
  .next (match ops.find? fun x => ops.all fun y => x.1 == y.1 || opBefore s x.1 y.1 with
    | none => s
    | some (id, o) =>
      if o.st == .started || !sourceReady s id o || matrixWaits s o then s
      else
        let s1 := if sourceInError s o then reportSource s o else matrixEffect s o
        (s1.setOps (amMod s1.ops id fun x => { x with st := .started })).countCore core 0x0A 1)

/-- A monitored word that cannot be read yet: its team is saved, its line absent or locked. -/
def monBlocked (s : State) (m : Mon) : Bool :=
  match s.team? m.g.team with
  | none => true
  | some t =>
    let own := (s.team? (scratchOwner s m.g.team)).getD t
    !t.resident ||
    (if m.sp then !linesPresent own m.va.toNat 8
     else match viewOf t m.va.toNat with
      | some off => !linesPresent t off 8
      | none => match (xlate s t.core m.asid.toNat m.priv .read m.va.toNat).1 with
        | .ok key e => heldUp s key e
        | x => x.waits)

/-- The threads parked at a MONW go on, with its report (R358, R390). -/
def monWake (s : State) (id : Nat) (m : Mon) (x : W64) (sat : Bool) : State :=
  let s1 := s.setMons (amDel s.mons id)
  wakeGroup (if sat then l1Clear s1 (coreOf s1 m.g) else s1) m.g (fun p => p == .monitor id)
    { v := [], p := some (m.pd.toNat, sat), s := some (m.d.toNat, x) }

/-- A monitor reads its word at the home (R358). -/
def monTry (s : State) (id : Nat) (m : Mon) : State :=
  let r := monRead s (coreOf s m.g) m
  if m.target.toNat ≤ r.1.toNat then monWake r.2 id m r.1 true
  else r.2.setMons (amPut r.2.mons id { m with last := r.1, dirty := false, resumed := false, since := s.time.clk })

/-- A monitor is read again after a write to its word's sector, and once after its team's return to a core (R358, R390). -/
def execMonitorReread (mon : Nat) (s : State) : Host.Outcome State Fault Refusal :=
  .next (match amGet s.mons mon with
    | some m => if !(m.resumed || (m.dirty && !m.polling)) || monBlocked s m then s else monTry s mon m
    | none => s)

/-- A MONW without an entry, or on host or peer memory, reads its word every 1,024 core clocks (R358, R390). -/
def execMonitorPoll (mon : Nat) (s : State) : Host.Outcome State Fault Refusal :=
  .next (match amGet s.mons mon with
    | some m => if !m.polling || s.time.clk < m.since + 1024 || monBlocked s m then s else monTry s mon m
    | none => s)

/-- DATUM has passed a monitor's deadline with no satisfying read (R358, R390). A read that is due comes first, where it can be made;
after a resumption it comes first in any case. -/
def execMonitorTimeout (mon : Nat) (s : State) : Host.Outcome State Fault Refusal :=
  .next (match amGet s.mons mon with
    | some m =>
      let late : Bool := match m.deadline with
        | some d => d < s.time.datum
        | none => false
      if !late || m.resumed || (m.dirty && !monBlocked s m) || !((s.team? m.g.team).map Team.resident).getD false then s
      else monWake s mon m m.last false
    | none => s)

end Sys2Proof.Machine
end

