-- ==== Sys2Proof/Machine/Routes.lean ====
section
/-! DEFINITION. The package's routers, the fixed routes of the ordered class, and the routes of a collective tree (R423 to R426, R433, R442, R443). -/

namespace Sys2Proof.Machine

/-- Router (x, y) of a compute die; IOD0 and IOD1 follow at 384 and 385. -/
def routerAt (die x y : Nat) : Nat := die * 48 + y * 8 + x
def routerDie (r : Nat) : Nat := if r < 384 then r / 48 else r - 376
def routerX (r : Nat) : Nat := r % 48 % 8
def routerY (r : Nat) : Nat := r % 48 / 8
/-- The router of an I/O die. -/
def routerIo (i : Nat) : Nat := 384 + i

/-- The router of a core (R424). -/
def routerOfCore (s : State) (core : Nat) : Nat :=
  let b := builtNo s core
  routerAt (core / 32) (b % 8) (if b < 16 then b / 8 else b / 8 + 2)

/-- The ports in fold order: local, north, east, south, west, U0 to U2, then J0 to J17 (R443). -/
def pLocal : Nat := 0
def pNorth : Nat := 1
def pEast : Nat := 2
def pSouth : Nat := 3
def pWest : Nat := 4
def pU (n : Nat) : Nat := 5 + n
def pJ (k : Nat) : Nat := 8 + k

/-- The router of a UCIe port of a die (R424). -/
def routerU (die n : Nat) : Nat := if n = 0 then routerAt die 0 2 else if n = 1 then routerAt die 7 2 else routerAt die 0 3

/-- The UCIe port by which a message leaves a die for another (R423). -/
def exitPort (die dest : Nat) : Nat :=
  if dest = 8 then 0
  else if dest = 9 then 1
  else if die % 4 < dest % 4 then 1 else if dest % 4 < die % 4 then 0 else 2

/-- The router beyond a UCIe port, and the port by which it is entered (R423). An I/O die meets row 0 at its U0 and row 1
at its U1. -/
def crossU (die n : Nat) : Nat × Nat :=
  match n with
  | 0 => if die % 4 = 0 then (routerIo 0, pU (die / 4)) else (routerU (die - 1) 1, pU 1)
  | 1 => if die % 4 = 3 then (routerIo 1, pU (die / 4)) else (routerU (die + 1) 0, pU 0)
  | _ => (routerU ((die + 4) % 8) 2, pU 2)

/-- The next router of a mesh, x first and then y (R425). -/
def meshStep (here dest : Nat) : Nat :=
  if here % 8 < dest % 8 then here + 1
  else if dest % 8 < here % 8 then here - 1
  else if here < dest then here + 8
  else here - 8

/-- The plain route within a mesh, up to its end. -/
def meshRoute : Nat → Nat → Nat → List Nat
  | 0, _, _ => []
  | n + 1, here, dest => if here = dest then [] else meshStep here dest :: meshRoute n (meshStep here dest) dest

/-- The neighbours of a router in the mesh of 8 × 6. -/
def meshNear (r : Nat) : List Nat :=
  (if 0 < r / 8 then [r - 8] else []) ++ (if r % 8 < 7 then [r + 1] else []) ++ (if r / 8 < 5 then [r + 8] else []) ++
    if 0 < r % 8 then [r - 1] else []

/-- What is reached from a set within `n` steps to a neighbour. -/
def within (near : Nat → List Nat) : Nat → List Nat → List Nat
  | 0, seen => seen
  | n + 1, seen => within near n (seen ++ ((seen.flatMap near).eraseDups.filter fun r => !seen.contains r))

/-- The neighbours by which a shortest way of fewer than `bound` steps may go on. -/
def waysTo (near : Nat → List Nat) (bound here dest : Nat) : List Nat :=
  match (List.range bound).find? fun n => (within near n [dest]).contains here with
  | some (n + 1) => (near here).filter fun r => (within near n [dest]).contains r
  | _ => []

/-- The neighbours by which a shortest route that avoids the failed routers may go on. -/
def meshDetours (failed : List Nat) (here dest : Nat) : List Nat :=
  waysTo (fun r => (meshNear r).filter fun x => !failed.contains x) 48 here dest

/-- The next router within a die, and the port by which it is entered: the plain route, or where that would enter a failed router the
fixed detour of the tables (R425, R426). DESIGN CHOICE (log 127): a detour is one of the shortest that remain. -/
def stepInDie (s : State) (here dest : Nat) : Nat × Nat :=
  let d := routerDie here
  let failed := (s.die d).failed
  let h := here % 48
  let plain := meshStep h (dest % 48)
  let next := if failed = [] then plain
    else if !((meshRoute 48 h (dest % 48)).any failed.contains) then plain
    else
      let ways := meshDetours failed h (dest % 48)
      ways.getD (Config.detour d h (dest % 48) failed % ways.length) plain
  (d * 48 + next, if next + 8 = h then pSouth else if h + 8 = next then pNorth else if next = h + 1 then pWest else pEast)

/-- The dies that a die's links lead to (R423); 8 and 9 are the I/O dies. -/
def dieNear (d : Nat) : List Nat :=
  if d = 8 then [0, 4] else if d = 9 then [3, 7] else (List.range 3).map fun n => routerDie (crossU d n).1
/-- The port of a compute die that leads to a die. -/
def portTowards (d e : Nat) : Nat := ((List.range 3).find? fun n => routerDie (crossU d n).1 == e).getD 0
/-- The next die of the plain route (R423). -/
def plainDie (d e : Nat) : Nat :=
  if d = 8 then 4 * (e % 8 / 4) else if d = 9 then 4 * (e % 8 / 4) + 3 else routerDie (crossU d (exitPort d e)).1
/-- The dies of the plain route, up to its end. -/
def plainDies : Nat → Nat → Nat → List Nat
  | 0, _, _ => []
  | n + 1, d, e => if d = e then [] else plainDie d e :: plainDies n (plainDie d e) e

/-- A link that a route may take: no router at its ends is marked failed, and it does not enter a die to be avoided. -/
def linkOk (s : State) (avoid : List Nat) (d e : Nat) : Bool :=
  let ok (a b : Nat) : Bool := 8 ≤ a || !(s.die a).failed.contains (routerU a (portTowards a b) % 48)
  !avoid.contains e && ok d e && ok e d

/-- The next die on the way to another: that of the plain route, or where it would enter a failed router or a die to be avoided, that
of the fixed detour (R423, R426, R470), which leaves the plain route no sooner than it must. DESIGN CHOICE (log 127): a detour is one
of the shortest that remain. -/
def nextDie (s : State) (avoid : List Nat) (d e : Nat) : Nat :=
  let away := avoid.filter fun x => x ≠ e
  let plain := plainDies 10 d e
  if (List.zip (d :: plain) plain).all fun l => linkOk s away l.1 l.2 then plainDie d e
  else
    let ways := waysTo (fun a => (dieNear a).filter (linkOk s away a)) 10 d e
    if ways.contains (plainDie d e) then plainDie d e
    else if ways.length ≤ 1 then ways.headD (plainDie d e)
    else ways.getD (Config.dieDetour d e ways % ways.length) (plainDie d e)

/-- The compute dies out of service, which messages go around and trees do not (R444, R470). -/
def diesOut (s : State) : List Nat := (List.range 8).filter fun d => !s.dieUp d

/-- The next hop of the ordered class (R423, R425), around the dies to be avoided. -/
def nextHop (s : State) (avoid : List Nat) (here dest : Nat) : Nat × Nat :=
  let d := routerDie here
  let e := routerDie dest
  if d = e then stepInDie s here dest
  else
    let x := nextDie s avoid d e
    if 384 ≤ here then (routerU x (portTowards x d), pU (portTowards x d))
    else
      let n := portTowards d x
      if here = routerU d n then crossU d n else stepInDie s here (routerU d n)

/-- The hops of a route: router, next router, and the port by which that is entered. -/
def routeTo (s : State) (avoid : List Nat) (dest : Nat) : Nat → Nat → List (Nat × Nat × Nat)
  | 0, _ => []
  | n + 1, here =>
    if here = dest then []
    else
      let h := nextHop s avoid here dest
      (here, h.1, h.2) :: routeTo s avoid dest n h.1

/-- The route of a message of the ordered class (R425): while a compute die is out of service it goes around it, and at the die's
re-admission the plain route is back (R470). -/
def messageRoute (s : State) (here dest : Nat) : List (Nat × Nat × Nat) := routeTo s (diesOut s) dest 256 here

/-- The ports that carry traffic, and the one on the fixed route to a peer: where it is taken down its traffic moves (R433). -/
def portsUp (s : State) : List Nat :=
  (List.range 18).filter fun k => ((amGet s.sys.jports k).map fun p => p.trained && !p.down).getD false
def portTo (s : State) (dev : Nat) : Nat :=
  let k := Config.jiathPort s.sys.device dev % 18
  let up := portsUp s
  if up.contains k then k else up.getD (Config.jiathMoved dev up % up.length) k

/-- The router at which a tree's values meet on this device: its root core's, or the I/O die's on the way to the root device. -/
def treeRoot (s : State) (root rootDev : Nat) : Nat :=
  if rootDev = s.sys.device then routerOfCore s root else routerIo (portTo s rootDev / 9)

/-- The I/O die router at which a tree's values from a peer enter, and the port, fixed when the launch was accepted (R433, R443,
R444). -/
def Tree.peerEntry (t : Tree) (dev : Nat) : Nat × Nat :=
  let k := ((t.entries.find? fun e => e.1 == dev).map Prod.snd).getD 0
  (routerIo (k / 9), pJ k)

/-- The peers whose values enter a tree rooted on this device. -/
def treePeers (s : State) (rootDev : Nat) (devs : List Nat) : List Nat :=
  if rootDev = s.sys.device then devs.filter fun d => d ≠ s.sys.device else []

/-- The links of a tree (R443): the union of the routes from its contributors to its root, and the root itself. -/
def treeLinks (s : State) (cores : List Nat) (root rootDev : Nat) (devs : List Nat) : List (Nat × Nat × Nat) :=
  let dest := treeRoot s root rootDev
  let starts := cores.map (routerOfCore s) ++ (treePeers s rootDev devs).map fun d => routerIo (portTo s d / 9)
  ((starts.eraseDups.flatMap fun r => routeTo s [] dest 256 r) ++ [(dest, dest, pLocal)]).eraseDups

end Sys2Proof.Machine
end

