-- ==== Sys2Proof/Machine/System.lean ====
section
/-! DEFINITION. The system words and the return from a trap: ERET, MFC, MTC, HALT (R21, R270, R271, R399 to R411, R459 to R461). -/

namespace Sys2Proof.Machine

/-- The kind of the team that a group belongs to: for a merge group that of the team it serves (R280). -/
def servedKind (s : State) (t : Team) : TeamKind :=
  (((t.work.bind MergeWork.owner).bind s.team?).map Team.kind).getD t.kind

/-- PRIVSTAT of a group (R399). -/
def privstat (s : State) (t : Team) (gr : Group) : W64 :=
  BitVec.ofNat 64 ((if servedKind s t = .task then 8 else 0) + (if servedKind s t = .handler then 4 else 0) +
    (if t.kind = .merge then 2 else 0) + if gr.ctl.priv then 1 else 0)

/-- The value of a control register, as MFC reads it (R21, R270, R399, R403, R459). -/
def readCtl (s : State) (t : Team) (gr : Group) (x : Nat) : W64 :=
  let c := s.core t.core
  let d := s.die (t.core / 32)
  if x = 0x000 then privstat s t gr
  else if x = 0x001 then gr.ctl.trapbase
  else if x = 0x002 then gr.ctl.cause
  else if x = 0x003 then gr.ctl.pc
  else if x = 0x004 then gr.ctl.addr
  else if x = 0x005 then gr.ctl.fin
  else if x = 0x006 then gr.ctl.seq
  else if x = 0x010 then gr.ctl.asid.setWidth 64
  else if x = 0x011 then gr.ctl.ptbase
  else if x = 0x020 then gr.ctl.ms0
  else if x = 0x021 then gr.ctl.ms1
  else if x = 0x022 then gr.ctl.ms2
  else if x = 0x023 then gr.ctl.ms3
  else if 0x100 ≤ x ∧ x < 0x108 then BitVec.ofNat 64 (amGetD c.cev (x - 0x100) 0)
  else if 0x108 ≤ x ∧ x < 0x110 then BitVec.ofNat 64 (amGetD c.csel (x - 0x108) 0)
  else if 0x110 ≤ x ∧ x < 0x120 then BitVec.ofNat 64 (amGetD d.dev (x - 0x110) 0)
  else if 0x120 ≤ x ∧ x < 0x130 then BitVec.ofNat 64 (amGetD d.dsel (x - 0x120) 0)
  else 0

/-- MFC (R408). -/
def mfcBody (f : SysF) (w : Wd) : Res :=
  let x := readCtl w.s w.t w.gr f.crx.toNat
  Res.done (if f.x then w.s.modGroup w.g fun g => g.setS f.d.toNat x
    else w.s.modLanes w.g w.acting fun _ t => t.setRun f.d.toNat 2 x.toNat)

/-- The value an MTC writes (R408): of s(A), or of the lowest acting lane's pair. -/
def mtcValue (f : SysF) (w : Wd) : W64 :=
  if f.x then w.gr.getS f.a.toNat
  else match w.acting with
    | l :: _ => BitVec.ofNat 64 (((w.gr.lane? l).map fun t => t.getRun f.a.toNat 2).getD 0)
    | [] => 0

/-- The reserved bits of a writable control register (R270, R399, R459). -/
def ctlReserved (x v : Nat) : Bool :=
  if x = 0x001 then field v 0 3 != 0
  else if x = 0x010 then field v 12 52 != 0
  else if x = 0x011 then field v 51 13 != 0 || field v 37 11 != 0 || field v 1 14 != 0
  else if (0x100 ≤ x ∧ x < 0x108) ∨ (0x110 ≤ x ∧ x < 0x120) then field v 48 16 != 0
  else field v 16 48 != 0 || field v 8 6 != 0 || field v 0 8 == 0 || 0x0D < field v 0 8

/-- A selector written: OVF stays only where it was set and is written 1 (R459). -/
def selWritten (old new : Nat) : Nat := if bit new 14 && !bit old 14 then new - 2 ^ 14 else new

/-- An MTC that acts only where no reserved bit is set (R408). -/
def mtcChecked (f : SysF) (body : W64 → Wd → State) (w : Wd) : Res :=
  let v := mtcValue f w
  if ctlReserved f.crx.toNat v.toNat then Res.trap w.s cILLEGAL_ENCODING 0 0 w.active else Res.done (body v w)

/-- MTC to TRAPBASE and to the event counters (R408, R459 to R461). A counter takes the events of the clock after the write. -/
def mtcBody (f : SysF) (v : W64) (w : Wd) : State :=
  let x := f.crx.toNat
  let n := v.toNat
  if x = 0x001 then w.s.modGroup w.g fun g => { g with ctl := { g.ctl with trapbase := v } }
  else if x < 0x108 then w.s.modCore w.t.core fun c =>
    let r := countWritten w.s.time.clk c.csel c.cev c.cnow (x - 0x100) n
    { c with csel := r.1, cev := r.2 }
  else if x < 0x110 then w.s.modCore w.t.core fun c =>
    { c with csel := amPut c.csel (x - 0x108) (selWritten (amGetD c.csel (x - 0x108) 0) n) }
  else if x < 0x120 then w.s.modDie (w.t.core / 32) fun d =>
    let r := countWritten w.s.time.clk d.dsel d.dev d.dnow (x - 0x110) n
    { d with dsel := r.1, dev := r.2 }
  else w.s.modDie (w.t.core / 32) fun d => { d with dsel := amPut d.dsel (x - 0x120) (selWritten (amGetD d.dsel (x - 0x120) 0) n) }

/-- MTC to PTBASE: the group's register, and the root record of its ASID at every home (R271). -/
def ptbaseBody (v : W64) (w : Wd) : State :=
  (w.s.modGroup w.g fun g => { g with ctl := { g.ctl with ptbase := v } }).setRoots (amPut w.s.roots w.gr.ctl.asid.toNat v)

/-- MTC to ASID: it governs the group's later accesses (R271). -/
def asidBody (v : W64) (w : Wd) : State :=
  w.s.modGroup w.g fun g => { g with ctl := { g.ctl with asid := v.setWidth 12 } }

/-- HALT (R410, R411). -/
def haltBody (w : Wd) : Res :=
  let s1 := match haltedGrid w.s w.t with
    | some g => gridStatus w.s g 4 0
    | none => w.s
  { Res.done (haltTeam s1 w.g.team (w.gr.ctl.cause.toNat % 256)) with stay := w.active }

/-- A held fault as a trap (R401, R403). -/
def AFault.info (f : AFault) : TrapInfo :=
  ⟨f.cause, f.sub, f.sub2, true, f.pc, f.addr, 0,
    if f.merge.isSome then 0 else BitVec.ofNat 64 (f.cls % 4 * 2 ^ 32 + f.seq % 2 ^ 32), f.merge⟩

/-- The oldest held fault of a group is delivered (R401). -/
def deliverFault (s : State) (g : GRef) : State :=
  match s.group? g with
  | none => s
  | some gr =>
    match gr.held with
    | [] => s
    | f :: rest => if frameLocked s g then s else takeTrap (s.modGroup g fun x => { x with held := rest }) g (AFault.info f)

/-- One lane restored by ERET from its record in the frame (R397, R409). A lane whose parked word completed meanwhile
takes that word's writes; one that had exited keeps what its registers held then. -/
def Thread.fromFrame (t : Thread) (h : HandlerCtx) (l : Nat) (r : List Byte) : Thread :=
  let gone (x : Thread) : Thread :=
    { x with exited := true, park := none, tx := none, pc := (h.pcs.getD l (0, 0)).1, wait := (h.pcs.getD l (0, 0)).2 }
  if bit h.exited.toNat l then
    let k := h.left.getD l ⟨0, 0, 0, 0⟩
    { (gone t).setRun 0 4 k.v with p := k.p, fpctl := k.fpctl, fpflags := k.fpflags }
  else if num r 8 1 == 2 then gone t
  else
    let t1 := { t with tx := h.txs.getD l none, p := BitVec.ofNat 7 (num r 9 1), fpctl := BitVec.ofNat 4 (num r 0x10 4), fpflags := BitVec.ofNat 6 (num r 0x14 4) }
    let t2 := t1.setRun 0 4 (num r 0x18 16)
    match h.parks.getD l none with
    | none => { t2 with pc := BitVec.ofNat 64 (num r 0 8), wait := num r 10 1, park := none }
    | some (.wake v p sr) =>
      { t2.applyWake ⟨v, p, sr⟩ with pc := (h.pcs.getD l (0, 0)).1 + 8, wait := (h.pcs.getD l (0, 0)).2, park := none }
    | some k => { t2 with pc := (h.pcs.getD l (0, 0)).1, wait := (h.pcs.getD l (0, 0)).2, park := some k }

/-- The s-register writes of the words that completed while the handler ran. -/
def wakeScalars (h : HandlerCtx) : List (Nat × W64) :=
  h.parks.filterMap fun p => match p with
    | some (.wake _ _ (some x)) => some x
    | _ => none

/-- A group as ERET leaves it (R409). -/
def Group.leave (gr : Group) (h : HandlerCtx) (bs : List Byte) : Group :=
  let g1 := (List.range 8).foldl (fun x k => x.setS (56 + k) (BitVec.ofNat 64 (num bs (0x40 + 8 * k) 8))) gr
  let g2 := (wakeScalars h).foldl (fun x e => x.setS e.1 e.2) g1
  { g2 with
    lanes := gr.lanes.mapIdx fun l t => t.fromFrame h l ((bs.drop (0x80 + 48 * l)).take 48)
    ctl := { gr.ctl with priv := false, ms0 := 0, ms1 := 0, ms2 := 0, ms3 := 0 }, handler := none }

/-- The return from a trap, once for the group (R404, R409): the frame is read, every lane continues from its record, a
faulted merge goes on, and the next held fault is delivered. A data error in the frame is context-fatal. -/
def returnTrap (s : State) (g : GRef) : State :=
  match s.team? g.team, s.group? g with
  | some t, some gr =>
    match gr.handler with
    | none => s
    | some h =>
      match readRaw s t.core gr.ctl.asid.toNat true h.frame.toNat 2048 with
      | .error (c, s1) => if c.cause = 0 then s else teamFatal s1 t c.cause
      | .ok (bs, s1) =>
        let s2 := whileRunning (s1.modGroup g fun x => x.leave h bs) g Group.letBegin
        let s3 := match h.merge with
          | some m => goOn s2 m
          | none => s2
        let s4 := syncSettle s3 g
        retire (if ((s4.group? g).map fun x => x.handler.isNone).getD false then deliverFault s4 g else s4) g.team
  | _, _ => s

/-- Every lane of a group stands at an ERET. -/
def allAtEret (gr : Group) : Bool := gr.lanes.all fun t => t.park == some .eret

/-- The frame that ERET reads has to wait (R243, R294, R452). -/
def returnLocked (s : State) (g : GRef) : Bool :=
  match s.team? g.team, s.group? g with
  | some t, some gr => match gr.handler with
    | some h => rangeWaits s t.core gr.ctl.asid.toNat true .read h.frame.toNat 2048
    | none => false
  | _, _ => false

/-- ERET (R409); it waits where its frame's line is locked (R294). -/
def eretBody (w : Wd) : Res :=
  let s1 := w.s.modLanes w.g w.acting fun _ t => { t with park := some .eret }
  if ((s1.group? w.g).map allAtEret).getD false then
    if returnLocked s1 w.g then Res.trap w.s 0 0 0 [] else { Res.done (returnTrap s1 w.g) with stay := w.active }
  else { Res.done s1 with stay := w.active }

def execEret (f : SysF) (s : State) := runWord (.eret f) eretBody s
def execMfc (f : SysF) (s : State) := runWord (.mfc f) (mfcBody f) s
def execMtc (f : SysF) (s : State) := runWord (.mtc f) (mtcChecked f (mtcBody f)) s
def execMtcPtbase (f : SysF) (s : State) := runWord (.mtcPtbase f) (mtcChecked f ptbaseBody) s
def execMtcAsid (f : SysF) (s : State) := runWord (.mtcAsid f) (mtcChecked f asidBody) s
def execHalt (f : SysF) (s : State) := runWord (.halt f) haltBody s

end Sys2Proof.Machine
end

