-- ==== Sys2Proof/Machine/AccessEvents.lean ====
section
/-! DEFINITION. The events of memory accesses, caches, errors and traps: accesses performed, acknowledgements, peers' accesses, evictions and write-backs, context-fatal reports, trap entry and fault delivery (R230, R238, R242, R243, R251, R273, R395, R401, R405, R436, R437). -/

namespace Sys2Proof.Machine

/-- An older access of the group to one of the bytes is still outstanding (R276, R289). -/
def olderPend (s : State) (id : Nat) (a : Access) : Bool :=
  s.pend.any fun p => p.1 < id && p.2.g = a.g && !p.2.remote && p.2.meets a

/-- An outstanding access is performed at its home, unless its line is locked or an older access of its group to one of its bytes
is outstanding (R273, R289, R294); the elements of an ATOMV come in any order (R337). Data that has gone into error meanwhile is reported. -/
def execAccessPerform (acc : Nat) (s : State) : Host.Outcome State Fault Refusal :=
  .next (match amGet s.pend acc with
    | none => s
    | some a =>
      if a.remote || heldUp s a.key a.e || olderPend s acc a then s
      else
        let s1 := s.setPend (amDel s.pend acc)
        let s2 := (performAccess s1 a).getD (report s1 (.sector (sectorOf a.key)))
        retire s2 a.g.team)

/-- The line that a full set of an L2 slice, or of a memory-side cache, is to give up next (R238, R243). -/
def l2Victim (s : State) (line : Nat) : Bool := Room.of (l2Set s line) (fun k => !busyLine s k 2) == .evict line
def mscVictim (s : State) (line : Nat) : Bool := Room.of (mscSet s line) (fun k => !busyLine s k 32) == .evict line

/-- A cache gives up a line (R226, R228, R232, R236, R238, R254): an L1 or instruction line drops; the victim of a full set of the L2
is written back where dirty and raises the horizon, that of a memory-side cache goes to DRAM where dirty; an entry of a TLB or walk
cache drops. -/
def execEviction (l : CacheLine) (s : State) : Host.Outcome State Fault Refusal :=
  .next (match l with
    | .l1 core sec => l1Drop (l1Drop s core (sec / 2 * 2)) core (sec / 2 * 2 + 1)
    | .icache core line => if amHas (s.core core).icache line then s.modCore core fun c => { c with icache := amDel c.icache line } else s
    | .l2 line => if l2Victim s line && backReady s line then dropL2 s line else s
    | .msc line => if mscVictim s line then dropMsc s line else s
    | .tlb loc i => match (s.tlb.filter fun e => tlbLoc e.1 == loc)[i]? with
      | some e => s.setTlb (amDel s.tlb e.1)
      | none => s)

/-- The L2, or the memory-side cache, writes a dirty sector back and keeps it as clean (R230), the L2 where the memory-side cache has
room for it (R243). -/
def execSpontaneousWriteback (sector : Nat) (toDram : Bool) (s : State) : Host.Outcome State Fault Refusal :=
  .next (if toDram then writebackMsc s sector else if backReady s (sector / 2) then writebackL2 s sector else s)

/-- A due refresh splits a burst of a copy or fill that holds its bank open, `bank` counting the 2,048 banks of each die
(R241, R242): only the count of splits changes. -/
def execRefresh (bank : Nat) (s : State) : Host.Outcome State Fault Refusal :=
  .next (if s.ops.any fun o => match inDram s o.2 with
      | some ((dst, _), _) => dst / 2 ^ 60 == bank / 2048
      | none => false
    then s.countDie (bank / 2048) 0x0A 1 else s)

/-- The log, channel and address of a report (R462). -/
def reportPlace (s : State) (r : Report) : Nat × Nat × Nat :=
  match r.err with
  | .sector sec => ((chanOf (sec * 64)).1, (chanOf (sec * 64)).2, keyAddr (sec * 64))
  | _ => (r.core / 32, coreChannel s r.core, 0)

/-- The contexts that a report ends: those that map the sector, or the one of the team at which it arose (R251). -/
def reportCtxs (s : State) (r : Report) : List Nat :=
  match r.err with
  | .sector sec => (s.ctxs.filter fun c => ctxMaps s (sec * 64) c.2).map Prod.fst
  | _ => r.ctx.toList

/-- A context-fatal report reaches the command processor (R251). -/
def execContextFatalReport (e : ErrAt) (s : State) : Host.Outcome State Fault Refusal :=
  .next (match s.errs.reports.find? fun r => r.err == e with
    | none => s
    | some r =>
      let cs := reportCtxs s r
      let p := reportPlace s r
      let asid := ((cs.head?.bind fun c => amGet s.ctxs c).map fun c => c.asid.toNat).getD 0xFFFF
      let s1 := logEvent (s.setErrs { s.errs with reports := s.errs.reports.filter fun x => x.err ≠ e }) p.1 p.2.1 2 asid cDATA_ERROR p.2.2
      cs.foldl contextFatal s1)

/-- A group that a trap can enter now: on its core, with nothing outstanding, not in its handler (R395). -/
def enterable (s : State) (g : GRef) (gr : Group) : Bool :=
  match s.team? g.team with
  | some t => t.phase != .ended && gr.handler.isNone && entryReady s g
  | none => false

/-- A precise trap is entered once the group's accesses have drained (R395). -/
def execTrapEntry (g : GRef) (s : State) : Host.Outcome State Fault Refusal :=
  .next (match s.group? g with
    | some gr => match gr.pendTrap with
      | some r => if enterable s g gr then takeTrap s g r.info else s
      | none => s
    | none => s)

/-- A held fault is delivered at an issue boundary of its group (R401). -/
def execAsyncFaultDelivery (g : GRef) (s : State) : Host.Outcome State Fault Refusal :=
  .next (match s.group? g with
    | some gr => if gr.pendTrap.isNone && enterable s g gr && !((s.team? g.team).map Team.saving).getD true then deliverFault s g else s
    | none => s)

/-- A handler that has run for more than 10,000,000 datum ticks is fatal (R405). -/
def execHandlerWatchdog (g : GRef) (s : State) : Host.Outcome State Fault Refusal :=
  .next (match (s.group? g).bind Group.handler with
    | some h => if h.since + 10000000 < s.time.datum && ((s.team? g.team).map Team.resident).getD false then fatalTrap s g cWATCHDOG else s
    | none => s)

/-- An older access of the group to a sector that this one covers (R276, R289, R437). -/
def olderRemote (s : State) (id : Nat) (a : Access) : Bool :=
  s.pend.any fun p => p.1 < id && p.2.g = a.g && (p.2.covers (sectorOf a.key) || a.also.any fun k => p.2.covers k)

/-- The operation in rem of an access. -/
def remoteOp (s : State) (a : Access) : Option Nat :=
  (s.ops.find? fun o => o.2.g = a.g && o.2.cls == 3 && o.2.seq == a.seq).map Prod.fst

/-- A reply leaves the completion queue (R437). -/
def dequeue (s : State) (a : Access) : State :=
  if returnsData a.kind then s.modCore (coreOf s a.g) fun c => { c with cplq := c.cplq - 1 } else s

/-- The parts of an MX unit translated and checked once (R263 to R265, R334): where each is performed, or the first fault with its part's
address, cause 0 where one waits. -/
def unitKeys (core : Nat) (a : Access) : List (W64 × Nat × Nat) → State → EngRes (List (Nat × Nat × Nat) × State)
  | [], s => .ok ([], s)
  | (va, p, n) :: rest, s =>
    match xlate s core a.asid.toNat a.priv .write p with
    | (.fault c, s1) => .error ((c, va), s1)
    | (.absent, s1) => .error ((⟨cNONRESIDENT_STORE, 0⟩, va), s1)
    | (.ok key e, s1) =>
      if heldUp s1 key e then .error ((⟨0, 0⟩, va), s1)
      else (unitKeys core a rest s1).map fun r => ((key, e, n) :: r.1, r.2)

/-- An MX unit of which a part lies at the host or a peer is written at one instant (R278). -/
def unitPerform (core : Nat) (a : Access) (parts : List (W64 × List Byte)) (s : State) : EngRes State :=
  (unitKeys core a (parts.flatMap fun x => (pieces x.1.toNat x.2.length).map fun p => (x.1, p)) s).map fun r =>
    writeKeys core r.1 (parts.flatMap Prod.snd) r.2

/-- The target of a write or atomic to the host or a peer performs it, with what the core's L1 does (R226 to R228), or faults. -/
def remotePerform (core : Nat) (a : Access) (s : State) : EngRes State :=
  let done (x : State) : State := if a.acq && a.wide then l1Clear x core else x
  match a.kind with
  | .unit parts => (unitPerform core a parts s).map done
  | k => match xlate s core a.asid.toNat a.priv (needOf k) a.va.toNat with
    | (.fault c, s1) => .error ((c, a.va), s1)
    | (.absent, s1) => .error ((⟨cNONRESIDENT_STORE, 0⟩, a.va), s1)
    | (.ok key e, s1) => .ok (done (l1Own (performAt (.mem key e a.cls) s1 a.g a.lane k) core key k))

/-- Other accesses of the word that sent this one are still to be acknowledged (R349). -/
def sameOp (s : State) (a : Access) : Bool := s.pend.any fun p => p.2.remote && p.2.g = a.g && p.2.seq == a.seq

/-- The target acknowledges a write or atomic to the host or a peer: performed with its reply, or faulted with no effect; the word's
operation is counted in rem with the last of its accesses (R349, R437). -/
def execRemoteAck (acc : Nat) (s : State) : Host.Outcome State Fault Refusal :=
  .next (match amGet s.pend acc with
    | none => s
    | some a =>
      if !a.remote || olderRemote s acc a then s
      else
        let core := coreOf s a.g
        let s0 := dequeue (s.setPend (amDel s.pend acc)) a
        match remotePerform core a s0 with
        | .error (f, s1) => if f.1.cause = 0 then s
            else counted (holdFault s1 a.g ⟨f.1.cause, f.1.sub, 0, f.2, 3, a.seq, a.pc, none⟩) a
        | .ok s1 => counted s1 a)
where
  counted (s : State) (a : Access) : State :=
    if sameOp s a then s
    else match remoteOp s a with
      | some o => opDone s o
      | none => retire s a.g.team

/-- What a peer's request needs. -/
def peerNeed (r : PeerReq) : AccessNeed :=
  match r with
  | .read _ => .read
  | .write _ => .write
  | .atomic _ _ _ ret => if ret then .atomic else .red

/-- A peer's access performed at its home (R436): what it returns, and the state. -/
def peerPerform (s : State) (key e : Nat) (r : PeerReq) : PeerAns × State :=
  let p : Place := .mem key e (pteEvp e)
  match r with
  | .read n => (.done (p.read s 0 n), p.touch s)
  | .write bs => (.done [], p.write s 0 bs)
  | .atomic aty aop xs ret =>
    let q := atomAt p aty aop xs 0 s
    (.done (if ret then toBytes (aty.width / 8 * xs.length) (packElems aty.width q.1) else []), q.2)

/-- A peer's access that has passed the access table of the Jiath ingress. -/
def peerDone (r : PeerReq) (x : XOut × State) : PeerAns × State :=
  match x.1 with
  | .fault f => (.fault f.cause f.sub, x.2)
  | .absent => (match r with
      | .read _ => .absent
      | _ => .fault cNONRESIDENT_STORE 0, x.2)
  | .ok key e =>
    if !inError x.2 key then peerPerform x.2 key e r
    else match r with
      | .read _ => (.fault cDATA_ERROR 0, x.2)
      | .atomic _ _ _ true => (.fault cDATA_ERROR 0, x.2)
      | .write bs => (.done [], storeAt x.2 key e (pteEvp e) bs)
      | .atomic _ _ _ false => (.done [], report x.2 (.sector (sectorOf key)))

/-- A translation that stops at one of checks 1 to 4 of R263: at none of the access tables, and not for want of the page. -/
def XOut.early (x : XOut) : Bool :=
  match x with
  | .fault f => f.sub != 0x40
  | _ => false

/-- The checks of a peer's access at this device's ingress (R263 to R265, R436, R456): checks 1 to 4 of R263 come before those of the
access tables, of which that of the ingress is the first (R457). -/
def peerChecked (s : State) (dev off : Nat) (r : PeerReq) : PeerAns × State :=
  match (amGet s.sys.peers dev).bind Peer.entry with
  | none => (.fault cNO_TRANSLATION 0x30, s)
  | some (ctx, base, size) =>
    if size ≤ off then (.fault cNO_TRANSLATION 0x30, s)
    else match amGet s.ctxs ctx with
      | none => (.fault cNO_TRANSLATION 0x30, s)
      | some c =>
        let x := xlate s unitCore c.asid.toNat false (peerNeed r) (base.toNat + off)
        match (if x.1.early then none else missingAccess s (peerNeed r) 131 (0x1000 + dev)) with
        | some d =>
          let k := portTo s dev
          (.fault d 0x40, logEvent s (8 + k / 9) (32 + k % 9) 4 0xFFFF d 0)
        | none => peerDone r x

/-- An access by a locked line waits (R294). -/
def peerWaits (s : State) (dev off : Nat) (r : PeerReq) : Bool :=
  (s.locks != [] || s.ops != [] || s.pend != []) && match (amGet s.sys.peers dev).bind Peer.entry with
    | some (ctx, base, _) => match amGet s.ctxs ctx with
      | some c => match (xlate s unitCore c.asid.toNat false (peerNeed r) (base.toNat + off)).1 with
        | .ok key e => heldUp s key e
        | x => x.waits
      | none => false
    | none => false

/-- A peer's home-10 access arrives at this device's ingress (R436), where it waits during a checkpoint (R416); its answer goes back to the peer. -/
def execPeerAccess (dev off : Nat) (r : PeerReq) (s : State) : Host.Outcome State Fault Refusal :=
  .next (match amGet s.sys.peers dev with
    | some p =>
      if !p.present || p.lost || s.sys.stage < 4 || !s.sys.admitting || peerWaits s dev off r then s
      else
        let a := peerChecked s dev off r
        a.2.setSys { a.2.sys with peerOut := a.2.sys.peerOut ++ [(dev, a.1)] }
    | none => s)

end Sys2Proof.Machine
end

