-- ==== Sys2Proof/Machine/Fold.lean ====
section
/-! DEFINITION. The fold of join frames: merges, spill slots, custom merges, SYNC application, and the end of grids (R165, R178 to R182, R235, R402 to R404, R419). -/

namespace Sys2Proof.Machine

/-- Where the elements of a tile stand: in a team's view, or in memory. -/
inductive Spot where
  | view (team off : Nat)
  | mem (va : Nat)
deriving DecidableEq, Repr

/-- The address of a byte of a tile, as MSTATE2 and MSTATE3 give it (R403). -/
def Spot.addr (p : Spot) (k : Nat) : W64 :=
  match p with
  | .view _ off => BitVec.ofNat 64 (off + k)
  | .mem va => BitVec.ofNat 64 (va + k)
def Spot.scratch (p : Spot) : Bool :=
  match p with
  | .view _ _ => true
  | .mem _ => false

/-- A view's bytes that cannot be used yet, or hold an error. -/
def viewStop (s : State) (team off n : Nat) : Option Cause :=
  match s.team? team with
  | some t => if !linesPresent t off n then some ⟨0, 0⟩
      else if s.errs.scratch.contains (team, off / 128) then some ⟨cDATA_ERROR, 0⟩ else none
  | none => some ⟨0, 0⟩

/-- An element read by a merge unit. Cause 0 says that it waits (R294). -/
def Spot.get (p : Spot) (s : State) (asid k n : Nat) : Except (Cause × State) (Nat × State) :=
  match p with
  | .view t off => match viewStop s t (off + k) n with
    | some c => .error (c, s)
    | none => .ok (memNat (((s.team? t).map Team.scratch).getD []) (off + k) n, s)
  | .mem va =>
    (readRaw s unitCore asid false (va + k) n).map fun r => (ofBytes r.1, r.2)

/-- An element written by a merge unit (R235). -/
def Spot.put (p : Spot) (s : State) (asid k n x : Nat) : Except (Cause × State) State :=
  match p with
  | .view t off => match viewStop s t (off + k) n with
    | some c => .error (c, s)
    | none => .ok ((Place.view t off).write s k (toBytes n x))
  | .mem va => writeVa s unitCore asid false (va + k) (toBytes n x)

/-- What stopped a merge: the cause and the place. -/
structure MergeStop where
  elem : Nat
  cause : Cause
  spot : Spot
  off : Nat
deriving DecidableEq, Repr

/-- A place that stopped a merge, with the state that its access leaves: none of it where the merge only waits. -/
def stopAt (s : State) (e off : Nat) (p : Spot) (c : Cause × State) : MergeStop × State :=
  (⟨e, c.1, p, off⟩, if c.1.cause = 0 then s else c.2)

/-- One element of a merge, as one step (R169, R178, R404): the target combined with the source, or a copy of it. -/
def mergeElem (asid : Nat) (x : Tile) (copy : Bool) (tgt src : Spot) (e : Nat) (s : State) : Except (MergeStop × State) State :=
  let w := etyWidth x.ety
  let n := w / 8
  match src.get s asid (e * n) n with
  | .error c => .error (stopAt s e (e * n) src c)
  | .ok (b, s1) =>
    let r : Except (MergeStop × State) (Nat × State) :=
      if copy then .ok (b, s1)
      else match tgt.get s1 asid (e * n) n with
        | .error c => .error (stopAt s1 e (e * n) tgt c)
        | .ok (a, s2) => .ok ((combine ((Ty.ofCode x.ety).getD .b32) x.oper .rn 0 a b).1, s2)
    match r with
    | .error f => .error f
    | .ok (v, s2) => match tgt.put s2 asid (e * n) n v with
      | .error c => .error (stopAt s2 e (e * n) tgt c)
      | .ok s3 => .ok s3

/-- The elements of a tile in ascending order, up to the first that stops. -/
def mergeElems (asid : Nat) (x : Tile) (copy : Bool) (tgt src : Spot) : Nat → Nat → State → State × Option MergeStop
  | 0, _, s => (s, none)
  | n + 1, e, s => match mergeElem asid x copy tgt src e s with
    | .error (f, s1) => (s1, some f)
    | .ok s1 => mergeElems asid x copy tgt src n (e + 1) s1

/-- The address of spill slot `k` of a frame (R175). -/
def slotAddr (f : Frame) (k : Nat) : Nat := f.spill.toNat + k * ((64 + tileBytes f.tiles + 255) / 256 * 256)

/-- The target of the application of a tile (R180 step 5): the team's own view, memory, or nothing where a view overlaps. -/
def applyTarget (s : State) (f : Frame) (x : Tile) : Option Spot :=
  match f.owner.bind fun g => (s.team? g.team).map fun t => (g.team, t) with
  | none => some (.mem x.base.toNat)
  | some (n, t) => match t.tiles.find? fun y => y.base == x.base && y.size == x.size with
    | some y => some (.view n y.off)
    | none => if t.tiles.any (tilesMeet x) then none else some (.mem x.base.toNat)

/-- Where a child's view of a tile stands. -/
def childSpot (s : State) (team tile : Nat) : Spot :=
  .view team ((((s.team? team).bind fun t => t.tiles[tile]?).map Tile.off).getD 0)

/-- Target and source of a job's tile (R178, R180). -/
def jobSpots (s : State) (f : Frame) (j : MergeJob) (x : Tile) : Option (Spot × Spot) :=
  let acc : Spot := .mem (accAddr f x)
  let slot (k : Nat) : Spot := .mem (slotAddr f k + 0x40 + x.off)
  match j.src with
  | .child t => some (acc, childSpot s t j.tile)
  | .slot k => some (acc, slot k)
  | .park t k => some (slot k, childSpot s t j.tile)
  | .apply => (applyTarget s f x).map fun p => (p, acc)

/-- The team for which a job is done: the child's, the one whose run of folds it is, or the syncing one. -/
def jobTeam (f : Frame) (j : MergeJob) : Option Nat :=
  match j.src with
  | .child t => some t
  | .park t _ => some t
  | .slot _ => f.runner
  | .apply => f.owner.map GRef.team

/-- The core whose merge group carries out a job's custom tiles (R179, R182). -/
def jobCore (s : State) (f : Frame) (j : MergeJob) : Nat :=
  match (jobTeam f j).bind fun t => s.team? t with
  | some t => t.core
  | none => match f.sync with
    | some (.grid g) => ((amGet s.grids g).map Grid.endCore).getD 0
    | _ => 0

/-- The index that MSTATE1 names (R403). -/
def jobChild (f : Frame) (j : MergeJob) : Nat :=
  match j.src with
  | .child _ => f.cursor
  | .slot k => amGetD f.slots k 0
  | .park t _ => ((f.waiting.find? fun w => w.2 == t).map Prod.fst).getD 0
  | .apply => f.nchild

/-- STEP of MSTATE1 (R403). -/
def jobStep (j : MergeJob) : Nat :=
  match j.src with
  | .child _ => 1
  | .park _ _ => 2
  | .slot _ => 3
  | .apply => 4

/-- The lanes of a frame's owner that wait in a SYNC which is due: CURSOR has reached their NCHILD (R180). -/
def syncDue (id : Nat) (f : Frame) (p : Park) : Bool :=
  match p with
  | .sync x n _ => x == id && n ≤ f.cursor
  | _ => false

/-- The PC of the SYNC that waits on a frame. -/
def syncPc (s : State) (id : Nat) (f : Frame) : W64 :=
  match f.owner.bind fun g => s.group? g with
  | none => 0
  | some gr => (((List.range 32).findSome? fun l => (parksOf gr l).findSome? fun k =>
      if syncDue id f k.2 then
        (if k.1 then gr.handler.map fun h => (h.pcs.getD l (0, 0)).1 else (gr.lane? l).map Thread.pc)
      else none)).getD 0

/-- A merge of a frame. -/
def Frame.merge? (f : Frame) (park : Option Nat) : Option MergeJob :=
  match park with
  | none => f.job
  | some k => amGet f.parks k

/-- The error that a merge met, reported (R250, R251). -/
def reportSpot (s : State) (asid : Nat) (m : MergeStop) : State :=
  match m.spot with
  | .view t off => report s (.scratch t ((off + m.off) / 128))
  | .mem va => match (xlate s unitCore asid false .read (va + m.off)).1 with
    | .ok key _ => report s (.sector (sectorOf key))
    | _ => s

/-- A merge that stopped at a fault is delivered to the group of R402, with its state (R403). -/
def mergeFaultTo (s : State) (r : MergeRef) (f : Frame) (j : MergeJob) (tgt src : Spot) (w : Nat) (m : MergeStop) : State :=
  let g : GRef := match j.src with
    | .apply => f.owner.getD ⟨0, 0⟩
    | _ => ⟨(jobTeam f j).getD 0, 0⟩
  let ms1 := jobChild f j * 2 ^ 32 + m.elem % 2 ^ 16 * 2 ^ 16 + (if tgt.scratch then 2 ^ 15 else 0) +
    (if src.scratch then 2 ^ 14 else 0) + j.tile % 8 * 2 ^ 10 + jobStep j
  holdFault s g
    { cause := cMERGE_FAULT, sub := m.cause.cause, sub2 := m.cause.sub, addr := m.spot.addr m.off, cls := 0, seq := 0
      pc := if j.src = .apply then syncPc s r.frame f else 0
      merge := some (r, f.va, BitVec.ofNat 64 ms1, tgt.addr (m.elem * w), src.addr (m.elem * w)) }

/-- A merge stopped at an element (R402 to R404): it waits for a lock or a line, is context-fatal, fails the launch, or
faults to the group of R402. -/
def stopMerge (s : State) (r : MergeRef) (f : Frame) (j : MergeJob) (tgt src : Spot) (w : Nat) (m : MergeStop) : State :=
  let s1 := modMerge s r fun x => { x with elem := m.elem, faulted := m.cause.cause != 0 }
  if m.cause.cause = 0 then s1
  else if m.cause.cause = cDATA_ERROR then reportSpot s1 f.asid.toNat m
  else match f.sync with
    | some (.grid g) =>
      if j.src = .apply then
        let s2 := gridStatus (breakFrame s1 r.frame cMERGE_FAULT) g 5 m.cause.cause
        s2.setFrames (amMod s2.frames r.frame fun x => { x with job := none })
      else mergeFaultTo s1 r f j tgt src w m
    | _ => mergeFaultTo s1 r f j tgt src w m

/-- A merge that stopped at the bytes of a header: of a spill slot's INDEX and VALID, or of the frame at its reset. DESIGN CHOICE
(log 123): MSTATE1 names tile 0 and element 0, and MSTATE2 and MSTATE3 the header's address. -/
def stopHeader (s : State) (r : MergeRef) (f : Frame) (j : MergeJob) (c : Cause × State) (va : Nat) : State :=
  let m := stopAt s j.elem 0 (.mem va) c
  stopMerge m.2 r f { j with tile := 0 } (.mem va) (.mem va) 0 m.1

/-- The merge group of a core started for one tile (R145, R179); a merge sees what the one before it wrote (R291). DESIGN CHOICE
(log 145): it shares the scratchpad of the team it serves and no accumulator: it has none (R179, R373). -/
def startMerge (s : State) (id : Nat) (f : Frame) (owner : Option Nat) (core : Nat) (x : Tile) (tile : Nat) (tgt src : Spot) : State :=
  let c := (amGet s.ctxs f.ctx).getD
    { alive := false, asid := f.asid, ptbase := 0, trapbase := 0, traparea := 0, savepool := 0, savesize := 0, saves := [], resq := 0,
      msix := 0, priv := false, posts := 0, events := [], handles := [] }
  let own := owner.bind fun t => s.team? t
  let asid := (own.map Team.asid).getD f.asid
  let g0 := Group.start 0 64 64 x.merge (Ctl.start c.trapbase c.ptbase asid)
  let flags := (if tgt.scratch then 1 else 0) + (if src.scratch then 2 else 0) + tile % 8 * 2 ^ 8
  let g := (((g0.setS 0 (tgt.addr 0)).setS 1 (src.addr 0)).setS 2 (BitVec.ofNat 64 x.size)).setS 3 (BitVec.ofNat 64 flags)
  let n := s.newId
  let team : Team :=
    { kind := .merge, grid := (own.map Team.grid).getD 0, ctx := f.ctx, asid := asid, prio := (own.map Team.prio).getD 0
      core := core, slot := 0, age := s.time.clk, resident := true, since := s.time.datum, phase := .running
      teamid := (own.map Team.teamid).getD 0, teams := (own.map Team.teams).getD 0, argp := (own.map Team.argp).getD 0
      units := 0, scratchUnits := 0, accs := 0, scratch := [], absent := [], acc := [], bars := [], tiles := []
      parent := none, inv := none, work := some ⟨id, owner⟩, groups := [g], heldIn := [], queued := 0, saving := false }
  modMerge (((l1Clear n.2 core).putTeam n.1 team).modCore core fun k => { k with mergeTeam := some n.1 }) ⟨id, none⟩ fun j =>
    { j with group := some n.1, asked := none }

/-- Merge groups of a core are given in request order (R179): the job starts its group, or takes its place. -/
def askMerge (s : State) (id : Nat) (f : Frame) (j : MergeJob) (x : Tile) (tgt src : Spot) : State :=
  let core := jobCore s f j
  let n := s.newId
  let mine := j.asked.getD n.1
  let before := s.frames.any fun o => o.1 != id && match o.2.job with
    | some k => k.group.isNone && (k.asked.getD mine < mine) && jobCore s o.2 k == core
    | none => false
  if (s.core core).mergeTeam.isNone && !before then startMerge s id f (jobTeam f j) core x j.tile tgt src
  else if j.asked.isSome then s else modMerge n.2 ⟨id, none⟩ fun k => { k with asked := some n.1 }

/-- INDEX and VALID of a slot written to memory (R175, R419). -/
def slotHeader (s : State) (f : Frame) (k : Nat) (bs : List Byte) (off : Nat) : Except (Cause × State) State :=
  writeVa s unitCore f.asid.toNat false (slotAddr f k + off) bs

/-- An implicit SYNC has ended; the team finishes with its last (R177). -/
def implicitDone (s : State) (team : Nat) : State := if implicitLeft s team then s else finishTeam s team

/-- An implicit SYNC that finds its frame broken, or breaks it (R181): the frame stays bound, and the frame of which the
team is a child breaks with its cause. -/
def implicitBroken (s : State) (id team cause : Nat) : State :=
  let s1 := s.setFrames (amMod s.frames id fun f => { f with sync := none })
  let s2 := match (s1.team? team).bind Team.parent with
    | some (p, _) => breakFrame s1 p cause
    | none => s1
  implicitDone s2 team

/-- The header of a reset frame: SPILL and SPILLN as the merge unit holds them, every other byte 0 (R175, R176, R180). -/
def resetHeader (f : Frame) : List Byte :=
  toBytes 24 0 ++ toBytes 8 f.spill.toNat ++ toBytes 4 f.spilln ++ toBytes 28 0

/-- The frame reset in memory, and its record given up (R180 step 7); the team whose run it held is let go. -/
def resetFrame (s : State) (id : Nat) (f : Frame) : Except (Cause × State) State :=
  (writeVa s unitCore f.asid.toNat false f.va.toNat (resetHeader f)).map fun s1 =>
    f.runner.toList.foldl letGo (s1.setFrames (amDel s1.frames id))

/-- The end of an application in memory (R180 step 7): the frame is reset, or where later children are still to fold only its
accumulators are. -/
def settleFrame (s : State) (id : Nat) (f : Frame) : Except (Cause × State) State :=
  if f.cursor < f.nchild then writeIdentities f unitCore false f.tiles (s.setFrames (amPut s.frames id { f with job := none }))
  else resetFrame s id f

/-- An application has ended (R180 steps 6 and 7): the threads that waited go on, as an acquire at .die. -/
def finishApply (s : State) (id : Nat) (f : Frame) (j : MergeJob) : State :=
  match settleFrame s id f with
  | .error c => stopHeader s ⟨id, none⟩ f j c f.va.toNat
  | .ok s1 => match f.sync, f.owner with
    | some (.implicit t), _ => implicitDone s1 t
    | some (.grid g), _ => s1.setGrids (amMod s1.grids g fun x => { x with applied := true })
    | none, some g => syncSettle (wakeGroup (l1Clear s1 (coreOf s1 g)) g (syncDue id f) ⟨[], none, none⟩) g
    | none, none => s1

/-- What follows the last tile of a merge (R178, R180). -/
def finishJob (s : State) (r : MergeRef) (f : Frame) (j : MergeJob) : State :=
  match j.src with
  | .child t =>
    s.setFrames (amPut s.frames r.frame
      { f with job := none, cursor := f.cursor + 1, runner := some t, waiting := f.waiting.filter fun w => w.2 != t })
  | .slot k => match slotHeader s f k [0#8] 4 with
    | .error c => stopHeader s r f j c (slotAddr f k + 4)
    | .ok s1 => s1.setFrames (amPut s1.frames r.frame { f with job := none, cursor := f.cursor + 1, slots := amDel f.slots k })
  | .park t k =>
    let i := jobChild f j
    match slotHeader s f k (toBytes 4 i ++ [1#8]) 0 with
    | .error c => stopHeader s r f j c (slotAddr f k)
    | .ok s1 => letGo (s1.setFrames (amPut s1.frames r.frame
        { f with parks := amDel f.parks k, slots := amPut f.slots k i, waiting := f.waiting.filter fun w => w.2 != t })) t
  | .apply => finishApply s r.frame f j

/-- A merge that copies, into a spill slot. -/
def MergeJob.copies (j : MergeJob) : Bool :=
  match j.src with
  | .park _ _ => true
  | _ => false

/-- At most `n` elements of a merge's tile in ascending order, each as one step, and whether the tile is complete (R178, R180). -/
def mergeTile (r : MergeRef) (f : Frame) (j : MergeJob) (x : Tile) (tgt src : Spot) (n : Nat) (s : State) : State × Bool :=
  let w := etyWidth x.ety / 8
  let todo := min n (x.size / w - j.elem)
  let q := mergeElems f.asid.toNat x j.copies tgt src todo j.elem s
  let upTo := (q.2.map MergeStop.elem).getD (j.elem + todo)
  let s1 := if j.copies then q.1 else q.1.countDie (f.va.toNat / 2 ^ 60) 0x07 (upTo - j.elem)
  match q.2 with
  | some m => (stopMerge s1 r f j tgt src w m, false)
  | none =>
    if upTo = x.size / w then (modMerge s1 r fun k => { k with tile := k.tile + 1, elem := 0 }, true)
    else (modMerge s1 r fun k => { k with elem := upTo }, false)

/-- The tiles of a merge from where it stands, in declaration order (R178). -/
def runTiles (r : MergeRef) : Nat → State → State
  | 0, s => s
  | n + 1, s =>
    match (amGet s.frames r.frame).bind fun f => (f.merge? r.park).map fun j => (f, j) with
    | none => s
    | some (f, j) =>
      if j.faulted || j.group.isSome then s
      else match f.tiles[j.tile]? with
        | none => finishJob s r f j
        | some x => match jobSpots s f j x with
          | none => s
          | some (tgt, src) =>
            if x.oper == 15 && !j.copies then askMerge s r.frame f j x tgt src
            else
              let q := mergeTile r f j x tgt src x.size s
              if q.2 then runTiles r n q.1 else q.1

/-- A merge runs as far as it can. -/
def runMerge (s : State) (r : MergeRef) : State :=
  runTiles r ((((amGet s.frames r.frame).map Frame.tiles).getD []).length + 1) s

/-- The next `n` elements of a merge's tile, where a merge unit carries it out. -/
def runPart (s : State) (r : MergeRef) (n : Nat) : State :=
  match (amGet s.frames r.frame).bind fun f => (f.merge? r.park).map fun j => (f, j) with
  | none => s
  | some (f, j) =>
    if j.faulted || j.group.isSome then s
    else match f.tiles[j.tile]? with
      | none => s
      | some x => match jobSpots s f j x with
        | none => s
        | some (tgt, src) => if x.oper == 15 && !j.copies then s else (mergeTile r f j x tgt src n s).1

/-- A merge, begun. -/
def MergeJob.begin (src : MergeSrc) : MergeJob := ⟨src, 0, 0, false, none, none⟩

/-- The merge that carries a frame's fold or application on begins. -/
def beginJob (s : State) (id : Nat) (f : Frame) (src : MergeSrc) : State :=
  s.setFrames (amPut s.frames id { f with job := some (MergeJob.begin src) })

/-- It begins, and runs as far as it can. -/
def startJob (s : State) (id : Nat) (f : Frame) (src : MergeSrc) : State := runMerge (beginJob s id f src) ⟨id, none⟩

/-- The application of a frame is due: its SYNC words, its implicit SYNC or its grid wait for nothing more (R180). -/
def applyDue (s : State) (id : Nat) (f : Frame) : Bool :=
  match f.sync with
  | some (.grid _) => f.broken || f.cursor == f.nchild
  | some (.implicit _) => f.cursor == f.nchild
  | none => match f.owner.bind fun g => s.group? g with
    | none => false
    | some gr => (List.range 32).any fun l => (parksOf gr l).any fun k => syncDue id f k.2

/-- The free spill slot of the lowest number. DESIGN CHOICE (log 112): SPILLN alone says how many slots there are; SPILL = 0 beside
a nonzero SPILLN is an address like any other. -/
def freeSlot (f : Frame) : Option Nat := leastFree (amKeys f.slots ++ amKeys f.parks) f.spilln

/-- The waiting child that takes a free slot: the lowest index, the child at CURSOR and those already on their way apart (R178). -/
def nextPark (f : Frame) : Option (Nat × Nat) :=
  match f.waiting.find? (fun w => w.1 != f.cursor && !f.parks.any fun p => p.2.src == .park w.2 p.1), freeSlot f with
  | some w, some k => some (w.2, k)
  | _, _ => none

/-- The merge of a waiting child into spill slot `k` begins. -/
def beginPark (s : State) (id : Nat) (f : Frame) (t k : Nat) : State :=
  s.setFrames (amPut s.frames id { f with parks := amPut f.parks k (MergeJob.begin (.park t k)) })

/-- The merges into spill slots go on (R178, R402). -/
def parkStep (s : State) (id : Nat) (f : Frame) : State :=
  (f.parks.filter fun p => !p.2.faulted).foldl (fun st p => runMerge st ⟨id, some p.1⟩) s

/-- The merge that a frame's fold makes next (R178): from the slot that holds CURSOR, or of the child at CURSOR once the run of
folds before it has ended; none while an application is due. -/
def nextFold (s : State) (id : Nat) (f : Frame) : Option MergeSrc :=
  if applyDue s id f then none
  else match f.slots.find? fun k => k.2 == f.cursor with
    | some k => if f.runner.isSome then some (.slot k.1) else none
    | none => if f.runner.isSome then none else (amGet f.waiting f.cursor).map .child

/-- A run of folds from spill slots has ended (R178): no slot holds CURSOR, and no child with that index is on its way to one. -/
def runEnds (f : Frame) : Option Nat :=
  if (f.slots.any fun k => k.2 == f.cursor) || f.parks.any (fun p => match p.2.src with
    | .park t _ => amGet f.waiting f.cursor == some t
    | _ => false) then none else f.runner

/-- The merge that carries the fold on stands still: it waits for a handler, or for its merge group (R179, R402). -/
def MergeJob.still (j : MergeJob) : Bool := j.faulted || j.group.isSome || j.asked.isSome || j.src == .apply

/-- The frame's own merge goes on; where it stands still, one into a spill slot does. -/
def stepJob (s : State) (id : Nat) (f : Frame) (j : MergeJob) : State :=
  if j.still then
    let s1 := if j.faulted || j.src == .apply then s else runMerge s ⟨id, none⟩
    parkStep s1 id ((amGet s1.frames id).getD f)
  else runMerge s ⟨id, none⟩

/-- A broken frame of which memory has not been told yet tells it now, where that can be done. -/
def tellAgain (s : State) (id : Nat) : State :=
  let s1 := tellFrame s id
  if ((amGet s1.frames id).map Frame.told).getD false then s1 else s

/-- One step of a frame's fold (R178, R181): a waiting child takes a slot that has become free; a merge goes on; a run of folds goes
on or ends; the child at CURSOR is merged; a broken frame counts those that have finished. -/
def foldStep (s : State) (id : Nat) : State :=
  match amGet s.frames id with
  | none => s
  | some f =>
    if f.broken then
      let s1 := if f.told then s else tellAgain s id
      match f.waiting with
      | [] => s1
      | w :: rest => letGo (s1.setFrames (amMod s1.frames id fun x => { x with cursor := x.cursor + 1, waiting := rest })) w.2
    else match nextPark f with
    | some (t, k) => runMerge (beginPark s id f t k) ⟨id, some k⟩
    | none => match f.job with
      | some j => stepJob s id f j
      | none => match runEnds f with
        | some r => letGo (s.setFrames (amPut s.frames id { f with runner := none })) r
        | none => match nextFold s id f with
          | some src => startJob s id f src
          | none => parkStep s id f

/-- What begins on a frame's own merge where it has none: the next fold, or the application that is due. -/
def beginNext (s : State) (id : Nat) (f : Frame) : State :=
  if f.broken || f.job.isSome || (nextPark f).isSome then s
  else match nextFold s id f with
    | some src => beginJob s id f src
    | none => if applyDue s id f && f.tiles.all fun x => (applyTarget s f x).isSome then beginJob s id f .apply else s

/-- The merge units merge the next `n` elements of a frame's merge, or of the one into slot `park`, and no more: the elements of
a merge are not atomic as a set (R180). -/
def mergeSome (s : State) (id : Nat) (park : Option Nat) (n : Nat) : State :=
  match amGet s.frames id with
  | none => s
  | some f => match park with
    | none => runPart (beginNext s id f) ⟨id, none⟩ n
    | some k => runPart (if amHas f.parks k || f.broken then s
        else match nextPark f with
          | some (t, j) => if j = k then beginPark s id f t k else s
          | none => s) ⟨id, some k⟩ n

/-- A finished child's views are merged, parked in a spill slot, or left waiting (R178). -/
def execFold (frame : Nat) (s : State) : Host.Outcome State Fault Refusal := .next (foldStep s frame)

/-- A custom merge group has retired: its slot is free, and the fold goes on with the next tile (R179). -/
def execMergeGroupRetire (g : GRef) (s : State) : Host.Outcome State Fault Refusal :=
  .next (match s.team? g.team with
    | some t => match t.work with
      | some w => if t.kind = .merge ∧ t.phase ≠ .ended ∧ t.groups.all Group.retired then
            modMerge (freeTeam s g.team) ⟨w.frame, none⟩ fun j =>
              if j.group == some g.team then { j with group := none, tile := j.tile + 1, elem := 0 } else j
          else s
      | none => s
    | none => s)

/-- The SYNC words that wait on a frame are to trap (R180, R208). -/
def failSync (s : State) (id : Nat) (f : Frame) (cause sub : Nat) : State :=
  match f.owner with
  | none => s
  | some g =>
    let swap (p : Park) : Park := match p with
      | .sync x n i => if x == id && n ≤ f.cursor then .syncFail cause sub 0 i else p
      | _ => p
    syncSettle (s.modGroup g fun gr => { gr with
      lanes := gr.lanes.map fun t => { t with park := t.park.map swap }
      handler := gr.handler.map fun h => { h with parks := h.parks.map fun p => p.map swap } }) g

/-- A frame cannot be applied: its words trap, or its implicit SYNC ends (R180, R181). -/
def applyFails (s : State) (id : Nat) (f : Frame) (cause sub : Nat) : State :=
  match f.sync with
  | some (.implicit t) => implicitBroken s id t f.cause
  | some (.grid g) => s.setGrids (amMod s.grids g fun x => { x with applied := true })
  | none => failSync s id f cause sub

/-- An application begins or goes on (R180). -/
def applyStep (s : State) (id : Nat) : State :=
  match amGet s.frames id with
  | none => s
  | some f => match f.job with
    | some j => if j.src == .apply then runMerge s ⟨id, none⟩ else s
    | none =>
      if !applyDue s id f then s
      else if f.broken then applyFails s id f cJOIN_BROKEN 0
      else if f.tiles.any fun x => (applyTarget s f x).isNone then
        match f.sync with
        | some (.implicit t) => implicitBroken (breakFrame s id cFORBIDDEN_HERE) id t cFORBIDDEN_HERE
        | _ => failSync s id f cFORBIDDEN_HERE 0x06
      else startJob s id f .apply

/-- Once CURSOR equals NCHILD, the accumulators are applied to their targets and the frame is reset (R180, R181). -/
def execSyncApplication (frame : Nat) (s : State) : Host.Outcome State Fault Refusal :=
  .next (match (amGet s.frames frame).bind Frame.sync with
    | some (.grid _) => s
    | _ => applyStep s frame)

/-- Every team of a grid has been admitted and has freed its slot (R153). -/
def gridEmpty (s : State) (grid : Nat) (g : Grid) : Bool :=
  g.nextTeam == g.teamCount && g.tail.isEmpty && s.teams.all fun t => !(t.2.kind == .grid && t.2.grid == grid)

/-- At the completion of a grid its views are applied to memory (R182). -/
def execGridCompletion (grid : Nat) (s : State) : Host.Outcome State Fault Refusal :=
  .next (match amGet s.grids grid with
    | none => s
    | some g =>
      if g.applied || !gridEmpty s grid g then s
      else match g.ljoin with
        | none => s.setGrids (amPut s.grids grid { g with applied := true })
        | some f => if amHas s.frames f then applyStep s f else s.setGrids (amPut s.grids grid { g with applied := true }))

/-- The 16 bytes of a completion (R441). -/
def completionBytes (tag : W32) (status detail : Nat) (value : W64) : List Byte :=
  toBytes 4 tag.toNat ++ toBytes 2 status ++ toBytes 2 detail ++ toBytes 8 value.toNat

/-- An entry of a queue's completion ring that is still to be written, the next one being 0 (R438). -/
def nextEntry (s : State) (queue i : Nat) : Option Nat :=
  (amGet s.queues queue).bind fun q => q.ring.map fun r => r.cbase.toNat + 16 * ((q.done.length + i) % r.csize)

/-- One of the next `n` completions has to wait before it can be written (R243, R294). -/
def completeWaits (s : State) (queue n : Nat) : Bool :=
  (List.range n).any fun i => ((nextEntry s queue i).map fun a => plainWaits s a 16).getD false

/-- A completion written to the next entry of the queue's completion ring (R438, R441). -/
def complete (s : State) (queue : Nat) (tag : W32) (status detail : Nat) (value : W64) : State :=
  let s1 := match nextEntry s queue 0 with
    | some a => writePlain s a (completionBytes tag status detail value)
    | none => s
  s1.setQueues (amMod s1.queues queue fun q => { q with done := q.done ++ [(tag, status, detail, value)] })

/-- A launch is complete (R182, R297, R441): its teams have freed their slots, its views are applied, its writes performed. -/
def execLaunchCompletion (grid : Nat) (s : State) : Host.Outcome State Fault Refusal :=
  .next (match amGet s.grids grid with
    | none => s
    | some g =>
      if g.done || !g.applied || !gridEmpty s grid g || completeWaits s g.queue 1 then s
      else
        let s1 := s.setGrids (amPut s.grids grid { g with done := true })
        let s2 := s1.setGrids (s1.grids.map fun x =>
          if x.2.deps.contains grid then (x.1, { x.2 with headSince := s.time.datum }) else x)
        complete (closeGridDomains s2 grid) g.queue g.tag g.status g.detail 0)

end Sys2Proof.Machine
end

