-- ==== Sys2Proof/Machine/Stakes.lean ====
section
/-! DEFINITION. The meanings of the invocation and stake words, and the messages of stakes (R183 to R192, R210 to R214, R430 to R432). -/

namespace Sys2Proof.Machine

/-- The bytes of a run of `m` registers of a lane (R206). -/
def runBytes (w : Wd) (r : Reg) (m l : Nat) : List Byte := toBytes (4 * m) (laneVal w r (32 * m) l)

/-- The slots of a core's stake table in use (R184). -/
def stakesUsed (s : State) (core : Nat) : Nat := ((s.core core).stakes.filter fun x => x.2.use.isSome).length
/-- The lowest free slot (R184). -/
def freeStake (s : State) (core : Nat) : Option Nat := leastFrom (fun k => (stakeSlot s core k).use.isNone) 4096 0

/-- Where an invocation goes. -/
inductive InvTarget where
  | core (core : Nat)
  | die (die : Nat)
  | device (dev : Nat)
  | stake (x : W64)
  | bad
deriving DecidableEq, Repr

/-- A target word's checks on the device that it names, its sender's die given (R430). -/
def targetHere (s : State) (die x : Nat) (byDie : Bool) : InvTarget :=
  let d := if bit x 8 then field x 5 3 else die
  if field x 18 14 ≠ 0 ∨ (byDie ∧ field x 0 5 ≠ 0) then .bad
  else if byDie then if (s.die d).st = .off then .bad else .die d
  else if coreEnabled s (d * 32 + field x 0 5) then .core (d * 32 + field x 0 5) else .bad

/-- The target that a target word names (R210, R430). -/
def targetWord (s : State) (core x : Nat) (byDie : Bool) : InvTarget :=
  if bit x 17 then
    if field x 18 14 ≠ 0 ∨ (byDie ∧ field x 0 5 ≠ 0) ∨ field x 9 8 = s.sys.device then .bad else .device (field x 9 8)
  else targetHere s (core / 32) x byDie

/-- A stake settled at its issuer's entry before any handler was placed, its invocation gone. -/
def settleInv (s : State) (inv : Nat) (st : StakeSt) : State :=
  match amGet s.invs inv with
  | some i => settle (s.setInvs (amDel s.invs inv)) i.issuer i.slot st
  | none => s

/-- A message put on its way (R431), with the lane that is parked until it is taken. -/
def sendMsg (s : State) (sender word : Nat) (stake : W64) (k : MsgKind) (waiter : Option (GRef × Nat)) : State :=
  let n := s.newId
  n.2.setMsgs (amPut n.2.msgs n.1 ⟨sender, word, stake, k, waiter, false⟩)

/-- A peer device of the domain (R430, R431). -/
def peerOk (s : State) (d : Nat) : Bool :=
  match amGet s.sys.peers d with
  | some p => p.present && !p.lost
  | none => false
/-- A peer that has been lost (R434). -/
def peerLostNow (s : State) (d : Nat) : Bool :=
  match amGet s.sys.peers d with
  | some p => p.present && p.lost
  | none => false

/-- A device of the domain: this one, or a peer (R430, R434). -/
def peerThere (s : State) (d : Nat) : Bool := ((amGet s.sys.peers d).map Peer.present).getD false

/-- A stake that no resolution entry of the domain keeps: its generation is 0, or its fields name no enabled core, or no
device (R187, R212, R431). A peer's stake waits for stage 4 (R452). -/
def stakeNowhere (s : State) (x : W64) : Bool :=
  stakeGen x == 0 ||
  if stakeDevice x = s.sys.device then !coreEnabled s (stakeCore x)
  else 4 ≤ s.sys.stage && !peerThere s (stakeDevice x)

/-- The invocation to another device, checked once the start has reached stage 4 (R430). -/
def deviceCheck (s : State) (inv d : Nat) : State :=
  if s.sys.stage < 4 ∨ peerOk s d then s
  else settleInv s inv (if peerLostNow s d then .broken 0x63 0 0 else .broken 0x63 0x0B 0)

/-- An invocation sent on its way to its target (R183, R210, R430, R431). -/
def sendInvocation (s : State) (sender word inv : Nat) (t : InvTarget) (waiter : Option (GRef × Nat)) : State :=
  let aim (st : State) (core : Option Nat) (die : Nat) (dev : Option Nat) : State :=
    st.setInvs (amMod st.invs inv fun i => { i with core := core, die := die, device := dev })
  match t with
  | .core c => if s.dieUp (c / 32) then sendMsg (aim s (some c) (c / 32) none) sender word 0 (.place inv) none
      else settleInv s inv (.broken 0x62 0 0)
  | .die d => if s.dieUp d then sendMsg (aim s none d none) sender word 0 (.place inv) none else settleInv s inv (.broken 0x62 0 0)
  | .device d => deviceCheck (aim s none 8 (some d)) inv d
  | .stake x =>
    if stakeNowhere s x then settleInv s inv (.broken 0x64 0 0)
    else if stakeDevice x ≠ s.sys.device then
      if peerLostNow s (stakeDevice x) then settleInv s inv (.broken 0x64 0 0x63)
      else aim s none 8 (some (stakeDevice x))
    else sendMsg s sender word x (.invoke inv) waiter
  | .bad => s

/-- A target whose queue is full, so that its sender parks (R189). -/
def targetFull (s : State) (t : InvTarget) : Bool :=
  match t with
  | .stake x => !stakeNowhere s x && stakeDevice x == s.sys.device && stakeFull s x
  | _ => false

/-- A lane of INVOKE.STAKE or DROP parks until the message of that number is taken (R189). -/
def parkSent (s : State) (g : GRef) (l msg : Nat) (v : List (Nat × W32)) : State :=
  s.modLane g l fun t => { t with park := some (.sent msg v) }

/-- One lane's invocation with its new stake, written to D (R211); where the queue of the stake it is addressed to is full, the
lane parks and D is written when the message is taken (R189). -/
def invokeLane (f : RegF) (w : Wd) (target : Nat → InvTarget) (l : Nat) (s : State) : State :=
  match freeStake s w.t.core with
  | none => s
  | some slot =>
    let sl := stakeSlot s w.t.core slot
    let x := stakeWord s.sys.device w.t.core slot sl.gen
    let i : Invocation :=
      { word := BitVec.ofNat 64 (laneVal w f.a 64 l), payload := runBytes w f.c f.aux.toNat l, pred := none, stake := x
        issuer := w.t.core, slot := slot, grid := w.t.grid, ctx := w.t.ctx, asid := w.t.asid, prio := w.t.prio
        core := none, die := w.t.core / 32, device := none
        via := (match target l with
          | .stake y => y
          | _ => 0)
        arrived := none, since := 0 }
    let s1 := putStake s w.t.core slot { sl with use := some (.resolution none .pending [] false) }
    let n := s1.newId
    if targetFull s (target l) then
      parkSent (sendInvocation (n.2.setInvs (amPut n.2.invs n.1 i)) (senderOf w.g l) w.s.fresh n.1 (target l) (some (w.g, l)))
        w.g l n.2.fresh [(f.d.toNat, x.setWidth 32), (f.d.toNat + 1, (x >>> 32).setWidth 32)]
    else
      (sendInvocation (n.2.setInvs (amPut n.2.invs n.1 i)) (senderOf w.g l) w.s.fresh n.1 (target l) none).modLane w.g l
        fun t => t.setRun f.d.toNat 2 x.toNat

/-- The lanes of an INVOKE, in ascending order; those whose stake's queue is full stay (R189, R211). -/
def invokeLanes (f : RegF) (w : Wd) (target : Nat → InvTarget) : Res :=
  w.acting.foldl (fun r l =>
    { r with st := invokeLane f w target l r.st, stay := if targetFull r.st (target l) then r.stay ++ [l] else r.stay })
    (Res.done w.s)

/-- INVOKE (R183, R210, R211): no lane sends unless every target stands and the stake table has room. -/
def invokeBody (f : RegF) (target : Wd → Nat → InvTarget) (w : Wd) : Res :=
  if w.acting.any fun l => target w l = .bad then Res.trap w.s cFORBIDDEN_HERE 0x0B 0 w.active
  else if 4096 < stakesUsed w.s w.t.core + w.acting.length then Res.trap w.s cSTAKE_TABLE_FULL 0 0 w.active
  else invokeLanes f w (target w)

/-- A 32-bit or 64-bit operand in B, from the lane or an s-register (R206). -/
def operandB (f : RegF) (bits : Nat) (w : Wd) (l : Nat) : Nat :=
  if f.bs then (w.gr.getS f.b.toNat).toNat % 2 ^ bits else laneVal w f.b bits l

def stakeOf (f : RegF) (w : Wd) (l : Nat) : W64 := BitVec.ofNat 64 (operandB f 64 w l)

/-- An AWAIT or POLL answered at once by the sending core, or nothing. -/
def answeredHere (s : State) (x : W64) : Option W64 :=
  if stakeNowhere s x then some statusStale
  else if stakeDevice x ≠ s.sys.device && peerLostNow s (stakeDevice x) then some (stakeStatus (.broken 0x63 0 0))
  else none

/-- AWAIT and POLL (R189, R212). -/
def queryBody (f : RegF) (kind : GRef → Nat → MsgKind) (w : Wd) : Res :=
  let m := f.aux.toNat
  w.acting.foldl (fun r l =>
    let x := stakeOf f w l
    match answeredHere r.st x with
    | some status => { r with st := r.st.modLane w.g l fun t => t.applyWake (answerWake f.d f.c m status []) }
    | none =>
      let s1 := sendMsg r.st (senderOf w.g l) w.s.fresh x (kind w.g l) none
      { r with
        st := s1.modLane w.g l fun t => { t with park := some (.answer r.st.fresh f.d f.c m) }
        stay := r.stay ++ [l] }) (Res.done w.s)

/-- The handler's own stake settles (R191, R213). -/
def settleOwn (st : Wd → StakeSt) (w : Wd) : Res :=
  match w.t.inv with
  | some h =>
    if h.settled then Res.trap w.s cFORBIDDEN_HERE 0x07 0 w.active
    else Res.done (settle (w.s.modTeam w.g.team fun t => { t with inv := some { h with settled := true } }) h.issuer h.slot (st w))
  | none => Res.trap w.s cFORBIDDEN_HERE 0x07 0 w.active

/-- DROP (R192, R214). -/
def dropBody (f : RegF) (w : Wd) : Res :=
  w.acting.foldl (fun r l =>
    let x := stakeOf f w l
    if stakeNowhere r.st x || stakeDevice x ≠ r.st.sys.device then r
    else if stakeFull r.st x then
      { r with
        st := parkSent (sendMsg r.st (senderOf w.g l) w.s.fresh x .drop (some (w.g, l))) w.g l r.st.fresh []
        stay := r.stay ++ [l] }
    else { r with st := sendMsg r.st (senderOf w.g l) w.s.fresh x .drop none }) (Res.done w.s)

def execInvokeCore (f : RegF) (s : State) :=
  runWord (.invokeCore f) (notInMerge (invokeBody f fun w l => targetWord w.s w.t.core (operandB f 32 w l) false)) s
def execInvokeDie (f : RegF) (s : State) :=
  runWord (.invokeDie f) (notInMerge (invokeBody f fun w l => targetWord w.s w.t.core (operandB f 32 w l) true)) s
def execInvokeAny (f : RegF) (s : State) :=
  runWord (.invokeAny f) (notInMerge (invokeBody f fun w _ => .die (w.t.core / 32))) s
def execInvokeStake (f : RegF) (s : State) :=
  runWord (.invokeStake f) (notInMerge (invokeBody f fun w l => .stake (stakeOf f w l))) s
def execAwait (f : RegF) (s : State) := runWord (.await f) (queryBody f .await) s
def execPoll (f : RegF) (s : State) := runWord (.poll f) (queryBody f .poll) s
def execFulfil (f : RegF) (s : State) :=
  runWord (.fulfil f) (settleOwn fun w => .fulfilled (runBytes w f.a f.aux.toNat (w.acting.headD 0))) s
def execBrk (f : RegF) (s : State) := runWord (.brk f) (settleOwn fun _ => .broken 0x61 0 0) s
def execDrop (f : RegF) (s : State) := runWord (.drop f) (dropBody f) s

/-- The result core of a stake's handler, and the slot there. -/
def putResult (s : State) (placed : Option (Nat × Nat)) (f : List Nat → List Nat) : State :=
  match placed with
  | some (rc, rs) =>
    let sl := stakeSlot s rc rs
    match sl.use with
    | some (.result a b w) => putStake s rc rs { sl with use := some (.result a b (f w)) }
    | _ => s
  | none => s

/-- The messages waiting at the result core. -/
def resultWaiting (s : State) (placed : Option (Nat × Nat)) : List Nat :=
  match placed with
  | some (rc, rs) => match (stakeSlot s rc rs).use with
    | some (.result _ _ w) => w
    | _ => []
  | none => []

/-- The invocations addressed to a stake that were let through and still wait for room at its result core. -/
def letThroughOf (s : State) (x : W64) : List Nat :=
  (sortBy (fun a b => a.2.arrived.getD 0 ≤ b.2.arrived.getD 0)
    (s.invs.filter fun i => i.2.via == x && i.2.arrived.isSome)).map Prod.fst

/-- DROP at the entry (R192): the generation rises, whoever waited is answered as for a differing generation, forwarded
invocations whose handlers have not started break, and a settled stake's slots are freed. -/
def dropAt (s : State) (core slot : Nat) : State :=
  let sl := stakeSlot s core slot
  match sl.use with
  | some (.resolution placed st queue _) =>
    let waiting := queue ++ resultWaiting s placed
    let s1 :=
      if st = .pending then
        putResult (putStake s core slot { gen := genNext sl.gen, use := some (.resolution placed st [] true) }) placed fun _ => []
      else
        let s' := putStake s core slot { gen := genNext sl.gen, use := none }
        match placed with
        | some (rc, rs) => putStake s' rc rs { stakeSlot s' rc rs with use := none }
        | none => s'
    let r := waiting.foldl (fun acc m =>
      let x := settleMsg acc.1 st true none m
      (x.1, acc.2 ++ x.2)) (s1, [])
    (letThroughOf s (stakeAt s core slot sl.gen) ++ r.2).foldl (fun acc inv =>
      settleInv acc inv (chainState st true)) r.1
  | _ => s

/-- A message whose stake's generation differs (R189). -/
def staleAt (s : State) (msg : Nat) : State :=
  let r := settleMsg s .pending true none msg
  r.2.foldl (fun acc inv => settleInv acc inv (chainState .pending true)) r.1

/-- A message left waiting, at the entry or at the result core (R189). -/
def landAt (s : State) (msg core slot : Nat) : State :=
  let s1 := s.setMsgs (amMod s.msgs msg fun m => { m with landed := true })
  let sl := stakeSlot s1 core slot
  match sl.use with
  | some (.resolution none st queue d) => putStake s1 core slot { sl with use := some (.resolution none st (queue ++ [msg]) d) }
  | some (.resolution placed _ _ _) => putResult s1 placed fun w => w ++ [msg]
  | _ => s1

/-- A message at an entry whose generation it names (R189). A POLL takes no place, and waits as any message does while the entry's
queue is full (R212). -/
def messageAt (s : State) (msg : Nat) (m : StakeMsg) (core slot : Nat) (placed : Option (Nat × Nat)) (st : StakeSt)
    (queue : List Nat) : State :=
  match m.kind with
  | .drop => dropAt (s.setMsgs (amDel s.msgs msg)) core slot
  | .poll _ _ => if st = .pending ∧ placed = none ∧ 8 ≤ queue.length then s else (settleMsg s st false none msg).1
  | .remote _ _ true => if st = .pending ∧ placed = none ∧ 8 ≤ queue.length then s else (settleMsg s st false none msg).1
  | _ =>
    if st = .pending then
      if placed = none ∧ 8 ≤ queue.length then s else landAt s msg core slot
    else
      let r := settleMsg s st false (placed.map Prod.fst) msg
      r.2.foldl (fun acc inv => settleInv acc inv (chainState st false)) r.1

/-- A message of the same sender, or of the same word, to the same stake that is on its way before this one (R211, R431). -/
def overtakes (s : State) (msg : Nat) (m : StakeMsg) : Bool :=
  s.msgs.any fun x => x.1 < msg && !x.2.landed && (x.2.sender == m.sender || x.2.word == m.word) && x.2.stake == m.stake

/-- A message that its thread waits to have taken finds no place yet: the messages that are on their way or queued there take
all eight (R189). -/
def sendWaits (s : State) (m : StakeMsg) : Bool :=
  m.waiter.isSome && match entryOf s m.stake with
    | some (none, .pending) =>
      8 ≤ (s.msgs.filter fun x => x.2.stake = m.stake && x.2.waiter.isNone && queueable x.2.kind).length
    | _ => false

/-- The entry takes a message: a lane that is parked until then completes its word (R189). -/
def taken (s : State) (msg : Nat) (m : StakeMsg) : State :=
  match m.waiter with
  | none => s
  | some (g, l) =>
    (((s.group? g).map fun gr => parksOf gr l).getD []).foldl (fun st k =>
      match k.2 with
      | .sent n v => if n = msg then wakeLane st g l k.1 ⟨v, none, none⟩ else st
      | _ => st) (s.setMsgs (amPut s.msgs msg { m with waiter := none }))

/-- A message is handled at a resolution entry (R189). -/
def entered (s : State) (msg : Nat) (m : StakeMsg) : State :=
  let core := entryCore s m.stake
  let slot := stakeSlotNo m.stake
  let sl := stakeSlot s core slot
  if sl.gen ≠ stakeGen m.stake then staleAt (taken s msg m) msg
  else match sl.use with
  | some (.resolution placed st queue _) => messageAt (taken s msg m) msg m core slot placed st queue
  | _ => staleAt (taken s msg m) msg

/-- The proxy's answer to a message for a stake of a die out of service (R450). -/
def proxied (s : State) (msg : Nat) (m : StakeMsg) : State :=
  let s1 := taken s msg m
  match m.kind with
  | .invoke inv => settleInv (s1.setMsgs (amDel s1.msgs msg)) inv (.broken 0x64 0 0x62)
  | .drop => s1.setMsgs (amDel s1.msgs msg)
  | _ => (settleMsg s1 (.broken 0x62 0 0) false none msg).1

/-- STAKE_MESSAGE: a message reaches the resolution entry, or an invocation its target (R183, R189, R431). -/
def stakeMessageOf (msg : Nat) (s : State) : State :=
  match amGet s.msgs msg with
  | none => s
  | some m =>
    match m.kind with
    | .arrival _ _ _ _ => s
    | .place inv =>
      match amGet s.invs inv with
      | some i => if s.dieUp i.die then
          let n := (s.setMsgs (amDel s.msgs msg)).newId
          n.2.setInvs (amPut n.2.invs inv { i with arrived := some n.1, since := s.time.datum })
        else s
      | none => s.setMsgs (amDel s.msgs msg)
    | _ =>
      let core := stakeCore m.stake
      if m.landed || stakeDevice m.stake ≠ s.sys.device || overtakes s msg m || !s.dieUp (core / 32) || sendWaits s m then s
      else entered s msg m

/-! ### What peers send (R430, R431) -/

/-- A stake breaks with the loss of a die or a device, whatever it held (R432). The handler's team knows that it has settled. -/
def loseStake (s : State) (core slot cause : Nat) : State :=
  let s1 := match (stakeSlot s core slot).use with
    | some (.resolution _ .pending _ _) => settle s core slot (.broken cause 0 0)
    | some (.resolution p (.fulfilled _) q d) =>
      announce (putStake s core slot { stakeSlot s core slot with use := some (.resolution p (.broken cause 0 0) q d) }) core slot
        (.broken cause 0 0)
    | _ => s
  s1.setTeams (s1.teams.map fun t => (t.1, { t.2 with inv := t.2.inv.map fun h =>
    if h.issuer = core ∧ h.slot = slot then { h with settled := true } else h }))

/-- A peer's message reaches the entry at once; while the entry's queue is full, it waits at the peer (R189). A die out of service
is answered for by its proxies (R450). -/
def peerMessage (s : State) (stake : W64) (k : MsgKind) : State :=
  if stakeFull s stake then s
  else
    let s1 := sendMsg s 0 s.fresh stake k none
    match amGet s1.msgs s.fresh with
    | some m =>
      if stakeDevice stake = s.sys.device ∧ !s.dieUp (stakeDie stake) ∧ (s.die (stakeDie stake)).st ≠ .off then proxied s1 s.fresh m
      else entered s1 s.fresh m
    | none => s

/-- The context in which a peer's invocation runs here: the one that its ASID names. -/
def ctxOfAsid (s : State) (a : BitVec 12) : Option Nat :=
  (s.ctxs.find? fun c => c.2.alive && c.2.asid == a).map Prod.fst

/-- A peer's invocation stands here, its new stake known to be pending. DESIGN CHOICE (log 128): it runs in the context of its ASID. -/
def peerInv (s : State) (word : W64) (payload : List Byte) (stake via : W64) (asid : BitVec 12) (prio : Nat) : Nat × State :=
  let core := foreignCore stake
  let slot := stakeSlotNo stake
  let a := (putStake s core slot ⟨stakeGen stake, some (.resolution none .pending [] false)⟩).newId
  let b := a.2.newId
  (a.1, b.2.setInvs (amPut b.2.invs a.1
    { word := word, payload := payload, pred := none, stake := stake, issuer := core, slot := slot, grid := b.1
      ctx := (ctxOfAsid s asid).getD 0, asid := asid, prio := prio, core := none, die := 8, device := none, via := via
      arrived := none, since := 0 }))

/-- A stake that a peer may issue now: its own, of no invocation that is still open here. -/
def peerStakeFree (s : State) (dev : Nat) (x : W64) : Bool :=
  stakeDevice x == dev && stakeGen x != 0 && match (stakeSlot s (foreignCore x) (stakeSlotNo x)).use with
    | some (.resolution _ .pending _ _) => false
    | _ => true

/-- An invocation arrives at its core or die (R183). -/
def arrive (s : State) (inv : Nat) (core : Option Nat) (die : Nat) : State :=
  if s.dieUp die then
    let n := s.newId
    n.2.setInvs (amMod n.2.invs inv fun i => { i with core := core, die := die, arrived := some n.1, since := s.time.datum })
  else settleInv s inv (.broken 0x62 0 0)

/-- A peer's invocation of a core or die is checked here (R430). -/
def peerInvoked (s : State) (inv : Nat) (t : InvTarget) (asid : BitVec 12) : State :=
  if (ctxOfAsid s asid).isNone then settleInv s inv (.broken 0x63 0x0B 0)
  else match t with
  | .core c => arrive s inv (some c) (c / 32)
  | .die d => arrive s inv none d
  | _ => settleInv s inv (.broken 0x63 0x0B 0)

/-- A message of a peer arrives (R430, R431). -/
def peerSend (s : State) (dev : Nat) (m : PeerMsg) : State :=
  if s.sys.stage < 4 ∨ !peerOk s dev then s
  else match m with
  | .ask poll tag stake => peerMessage s stake (.remote dev tag poll)
  | .drop stake => peerMessage s stake .drop
  | .invoke byDie target word payload stake asid prio =>
    if peerStakeFree s dev stake then
      let n := peerInv s word payload stake 0 asid prio
      peerInvoked n.2 n.1 (targetHere s (stakeDie stake) (field target.toNat 0 9) byDie) asid
    else s
  | .chain via word payload stake asid prio =>
    if peerStakeFree s dev stake && !stakeFull s via && stakeDevice via == s.sys.device then
      let n := peerInv s word payload stake via asid prio
      if (ctxOfAsid s asid).isNone then settleInv n.2 n.1 (.broken 0x63 0x0B 0) else peerMessage n.2 via (.invoke n.1)
    else s
  | .forward inv =>
    match amGet s.invs inv with
    | some i =>
      if i.device = some dev ∧ i.via ≠ 0 ∧ (entryOf s i.via).isSome ∧ !stakeFull s i.via then
        peerMessage (s.setInvs (amPut s.invs inv { i with device := none })) i.via (.invoke inv)
      else s
    | none => s

def execStakeMessage (index : Nat) (s : State) : Host.Outcome State Fault Refusal := .next (stakeMessageOf index s)

end Sys2Proof.Machine
end

