-- ==== Sys2Proof/Machine/Admit.lean ====
section
/-! DEFINITION. The dispatchers: admission of teams, tasks and handlers, pre-emption, saving and resumption (R145, R150 to R153, R163, R164, R171 to R173, R184 to R186, R412 to R415). -/

namespace Sys2Proof.Machine

/-- Work may be admitted on a core: its die serves, and nothing holds admission back (R416, R450, R465). -/
def coreOpen (s : State) (core : Nat) : Bool :=
  s.sys.admitting && !s.sys.tripped && s.dieUp (core / 32) && (s.core core).running && core % 32 < (s.die (core / 32)).built.length

/-- What one team of a grid takes (R149, R173). -/
def gridNeed (g : Grid) : Need :=
  ⟨(g.roles.map Role.ngroups).sum, regSum (g.roles.flatMap fun r => List.replicate r.ngroups r.budget), g.scratch + viewUnits g.tiles,
    g.accs, g.bars, g.tiles.length⟩

/-- What a task takes. -/
def taskRecNeed (t : TaskRec) : Need := taskNeed t.ngroups t.budget t.scratch t.accs t.bars t.tiles

/-- A scratchpad whose views hold their identities (R173, R221). -/
def viewScratch (tiles : List Tile) : Mem := tiles.foldl (fun m t => memWrite m t.off (identityBytes t)) []

/-- The groups of a team, placed on the pipes (R144, R145, R151): role, budget and entry PC of each. -/
def startGroups (s : State) (core : Nat) (ctl : Ctl) (gs : List (Nat × Nat × W64)) : List Group :=
  List.zipWith (fun g k => Group.start g.1 g.2.1 k g.2.2 { ctl with priv := false }) gs (placeGroups gs.length (slotsOn s core))

/-- A context's control registers at admission (R270, R399). -/
def ctlOf (s : State) (ctx : Nat) (asid : BitVec 12) : Ctl :=
  match amGet s.ctxs ctx with
  | some c => Ctl.start c.trapbase c.ptbase asid
  | none => Ctl.start 0 0 asid

/-- Every launch that a launch depends on is complete (R297). -/
def depsDone (s : State) (g : Grid) : Bool := g.deps.all fun d => ((amGet s.grids d).map Grid.done).getD true

/-- The first core where the head team of a grid is to be placed (R152). -/
def headCore (s : State) (g : Grid) : Option Nat :=
  let dies := ((List.range 8).map fun k => (g.lastDie + 1 + k) % 8).filter g.dies.contains
  dies.findSome? fun d => nextCore s d fun c => coreOpen s c && fits s c (gridNeed g)

/-- What stands at the head of a queue of waiting work (R153, R163, R164, R171): a grid's next team that has not started, the oldest
of its saved teams once all have started, or the first of a grid's waiting tasks on a die, in the pool or saved. -/
inductive HeadRef where
  | grid (id : Nat)
  | task (die ix : Nat)
  | saved (team : Nat)
deriving DecidableEq, Repr

/-- A waiting head: its priority, its launch, what it takes, the cores it may take, and since when it has been a head. -/
structure Head where
  ref : HeadRef
  prio : Nat
  grid : Nat
  need : Need
  cores : List Nat
  since : Nat

/-- The head of a grid's teams (R153, R163). -/
def gridHead (s : State) (id : Nat) (g : Grid) : List Head :=
  if g.done || !depsDone s g then []
  else if g.nextTeam < g.teamCount then
    [⟨.grid id, g.prio, id, gridNeed g, g.dies.flatMap (coresOf s), g.headSince⟩]
  else match g.tail.find? fun n => ((s.team? n).map Team.wantsCore).getD false with
    | none => []
    | some n => match s.team? n with
      | some t => [⟨.saved n, g.prio, id, t.need, [t.core], max t.since g.headSince⟩]
      | none => []

/-- The first task of a grid in a die's pool, with its place. -/
def poolHead (d : Die) (grid : Nat) : Option (Nat × TaskRec) := (d.pool.mapIdx fun i t => (i, t)).find? fun x => x.2.grid == grid

/-- The saved task of a grid on a die that has waited longest (R164). -/
def savedTask (s : State) (die grid : Nat) : Option (Nat × Team) :=
  (sortBy (fun a b => a.2.queued ≤ b.2.queued) (s.teams.filter fun t =>
    t.2.kind == .task && !t.2.resident && t.2.wantsCore && t.2.core / 32 == die && t.2.grid == grid)).head?

/-- The head of the tasks of one grid on a die (R164, R171): the one that joined the queue first. -/
def taskHead (s : State) (die grid : Nat) : List Head :=
  let d := s.die die
  let since (x : Nat) : Nat := max x (amGetD d.headAt grid 0)
  let inPool (i : Nat) (k : TaskRec) : Head := ⟨.task die i, k.prio, grid, taskRecNeed k, coresOf s die, since k.since⟩
  let saved (n : Nat) (t : Team) : Head := ⟨.saved n, t.prio, grid, t.need, [t.core], since t.since⟩
  match poolHead d grid, savedTask s die grid with
  | some (i, k), some (n, t) => if k.order ≤ t.queued then [inPool i k] else [saved n t]
  | some (i, k), none => [inPool i k]
  | none, some (n, t) => [saved n t]
  | none, none => []

/-- The grids with tasks that wait on a die. -/
def taskGrids (s : State) (die : Nat) : List Nat :=
  ((s.die die).pool.map TaskRec.grid ++ (s.teams.filter fun t => t.2.kind == .task && !t.2.resident && t.2.core / 32 == die).map
    fun t => t.2.grid).dedup

/-- Every waiting head in the order in which heads are offered: higher PRIO first, then the earlier launch (R153, R171). -/
def headOrder (s : State) : List Head :=
  sortBy (fun a b => b.prio < a.prio || (a.prio == b.prio && a.grid ≤ b.grid))
    (s.grids.flatMap (fun g => gridHead s g.1 g.2) ++ s.dies.flatMap fun d => (taskGrids s d.1).flatMap (taskHead s d.1))

/-- The group slots and the team slot that a saved team left are free (R142, R151, R413). DEDUCED (log 122): it goes back into
them, so that its groups stay on their pipes and its frames at their addresses. -/
def slotsFree (s : State) (t : Team) : Bool :=
  (t.groups.all fun g => !(slotsOn s t.core).contains g.slot) && !((teamsOn s t.core).any fun x => x.2.slot == t.slot)

/-- A saved team has room on its core (R415). -/
def savedFits (s : State) (n : Nat) : Bool :=
  match s.team? n with
  | some t => coreOpen s t.core && fits s t.core t.need && slotsFree s t
  | none => false

/-- The core on which a head fits now. -/
def headFits (s : State) (h : Head) : Option Nat :=
  match h.ref with
  | .grid id => (amGet s.grids id).bind (headCore s)
  | .task die _ => nextCore s die fun c => coreOpen s c && fits s c h.need
  | .saved n => if savedFits s n then h.cores.head? else none

/-- The heads that may be admitted now: the first in the order that fits, and those of the same PRIO and launch, which R153 puts
in no order (log 124). -/
def offered (s : State) : List (Head × Nat) :=
  let fit := (headOrder s).filterMap fun h => (headFits s h).map fun c => (h, c)
  fit.filter fun x => match fit.head? with
    | some y => y.1.prio == x.1.prio && y.1.grid == x.1.grid
    | none => false

/-- The head team of a grid that is to be placed next, and its core (R153). -/
def nextHead (s : State) : Option (Nat × Grid × Nat) :=
  (offered s).findSome? fun x => match x.1.ref with
    | .grid id => (amGet s.grids id).map fun g => (id, g, x.2)
    | _ => none

/-- The next team of a grid starts on a core (R144, R145, R173, R182, R199). The first start of a launch that depends on others is
an acquire at .sys on every core of its dies (R297). -/
def admitTeam (s : State) (id : Nat) (g : Grid) (core : Nat) : State :=
  let tiles := placeViews g.tiles g.scratch
  let groups := startGroups s core (ctlOf s g.ctx (((amGet s.ctxs g.ctx).map Ctx.asid).getD 0))
    ((g.roles.mapIdx fun i r => List.replicate r.ngroups (i, r.budget, r.entry)).flatten)
  let t : Team :=
    { kind := .grid, grid := id, ctx := g.ctx, asid := ((amGet s.ctxs g.ctx).map Ctx.asid).getD 0, prio := g.prio, core := core
      slot := freeTeamSlot s core, age := s.time.clk, resident := true, since := s.time.datum, phase := .running
      teamid := BitVec.ofNat 32 g.nextTeam, teams := BitVec.ofNat 32 g.teamCount, argp := g.argp
      units := g.scratch + viewUnits g.tiles, scratchUnits := g.scratch, accs := g.accs, scratch := viewScratch tiles, absent := []
      acc := [], bars := List.replicate g.bars ⟨32 * groups.length, 0, 0⟩, tiles := tiles, parent := g.ljoin.map fun f => (f, g.nextTeam), inv := none
      work := none, groups := groups, heldIn := [], queued := 0, saving := false }
  let n := s.newId
  let s1 := ((n.2.putTeam n.1 t).modDie (core / 32) fun d => { d with lastCore := core % 32 }).setGrids
    (amPut n.2.grids id { g with nextTeam := g.nextTeam + 1, lastDie := core / 32, headSince := s.time.datum })
  if g.nextTeam = 0 ∧ g.deps ≠ [] then (g.dies.flatMap (coresOf s1)).foldl l1Clear s1 else s1

/-- A dispatcher admits the first waiting head team that fits (R152, R153). -/
def execTeamAdmission (s : State) : Host.Outcome State Fault Refusal :=
  .next (match nextHead s with
    | some (id, g, core) => admitTeam s id g core
    | none => s)

/-- The head task of a die's pool that is to be placed next, with its place, and its core (R153, R171). -/
def nextTask (s : State) (die : Nat) : Option (Nat × TaskRec × Nat) :=
  (offered s).findSome? fun x => match x.1.ref with
    | .task d i => if d = die then ((s.die die).pool[i]?).map fun k => (i, k, x.2) else none
    | _ => none

/-- A task starts on a core (R172, R173, R199). -/
def admitTask (s : State) (die i : Nat) (k : TaskRec) (core : Nat) : State :=
  let t : Team :=
    { kind := .task, grid := k.grid, ctx := k.ctx, asid := k.asid, prio := k.prio, core := core, slot := freeTeamSlot s core
      age := s.time.clk, resident := true, since := s.time.datum, phase := .running, teamid := BitVec.ofNat 32 k.child, teams := 1
      argp := k.argp, units := k.scratch + viewUnits k.tiles, scratchUnits := k.scratch, accs := k.accs
      scratch := viewScratch k.tiles, absent := [], acc := [], bars := List.replicate k.bars ⟨32 * k.ngroups, 0, 0⟩, tiles := k.tiles
      parent := some (k.frame, k.child), inv := none, work := none
      groups := startGroups s core (ctlOf s k.ctx k.asid) (List.replicate k.ngroups (0, k.budget, k.entry)), heldIn := []
      queued := 0, saving := false }
  let n := (l1Clear s core).newId
  (n.2.putTeam n.1 t).modDie die fun d =>
    { d with lastCore := core % 32, pool := d.pool.eraseIdx i, headAt := amPut d.headAt k.grid s.time.datum }

/-- A head task of the ready pool is placed on a core of its die (R171). -/
def execTaskAdmission (die : Nat) (s : State) : Host.Outcome State Fault Refusal :=
  .next (match nextTask s die with
    | some (i, k, core) => admitTask s die i k core
    | none => s)

/-- The inbox entries of a core in use: those of its handlers that have not retired, saved ones too (R185, R414). -/
def inboxUsed (s : State) (core : Nat) : List Nat :=
  (s.teams.filter fun t => t.2.core == core).filterMap fun t => t.2.inv.bind fun h => if h.boxFree then none else some h.inbox

/-- The budget of an invocation's handler (R183). -/
def handlerBudget (i : Invocation) : Nat := 32 * (i.word.toNat % 8 + 1)
def handlerNeed (i : Invocation) : Need := ⟨1, 32 * handlerBudget i, 0, 0, 0, 0⟩

/-- A core has room for a handler (R184). -/
def handlerFits (s : State) (i : Invocation) (core : Nat) : Bool :=
  coreOpen s core && fits s core (handlerNeed i) && (inboxUsed s core).length < 256 && (freeStake s core).isSome

/-- An earlier invocation to the same stake waits at the same core (R190). -/
def placedBefore (s : State) (id : Nat) (i : Invocation) : Bool :=
  i.via != 0 && s.invs.any fun o => o.1 != id && o.2.via == i.via && o.2.core == i.core && o.2.arrived.isSome &&
    o.2.arrived.getD 0 < i.arrived.getD 0

/-- The core on which an arrived invocation can be placed now (R171, R184). -/
def placeCore (s : State) (id : Nat) (i : Invocation) : Option Nat :=
  if i.arrived.isNone || i.device.isSome || placedBefore s id i then none
  else match i.core with
    | some c => if handlerFits s i c then some c else none
    | none => nextCore s i.die (handlerFits s i)

/-- The arrived invocations in arrival order. -/
def arrivedInvs (s : State) : List (Nat × Invocation) :=
  sortBy (fun a b => a.2.arrived.getD 0 ≤ b.2.arrived.getD 0) (s.invs.filter fun i => i.2.arrived.isSome)

/-- The resolution entry of a placed invocation, its queue forwarded to the result slot (R184, R189). -/
def forwardQueue (s : State) (i : Invocation) (core rslot : Nat) : State :=
  let sl := stakeSlot s i.issuer i.slot
  match sl.use with
  | some (.resolution _ st queue d) =>
    let s1 := putStake s i.issuer i.slot { sl with use := some (.resolution (some (core, rslot)) st [] d) }
    putStake s1 core rslot { stakeSlot s1 core rslot with use := some (.result i.issuer i.slot queue) }
  | _ => s

/-- The stake of an invocation has settled before its handler starts, because the issuer's die was lost (R432). -/
def settledAt (s : State) (i : Invocation) : Bool :=
  match (stakeSlot s i.issuer i.slot).use with
  | some (.resolution _ st _ _) => st != .pending
  | _ => true

/-- A handler starts on a core (R184 to R186); INVOKE's release is acquired there (R292). -/
def placeHandler (s : State) (id : Nat) (i : Invocation) (core : Nat) : State :=
  let box := (leastFree (inboxUsed s core) 256).getD 0
  let rslot := (freeStake s core).getD 0
  let base := inboxBase + 128 * box
  let pred := i.pred.getD []
  let gs := startGroups s core (ctlOf s i.ctx i.asid) [(0, handlerBudget i, i.word &&& ~~~7#64)]
  let len := i.payload.length + 256 * pred.length
  let t : Team :=
    { kind := .handler, grid := i.grid, ctx := i.ctx, asid := i.asid, prio := i.prio, core := core, slot := freeTeamSlot s core
      age := s.time.clk, resident := true, since := s.time.datum, phase := .running, teamid := 0, teams := 1, argp := 0, units := 0
      scratchUnits := 0, accs := 0, scratch := memWrite (memWrite [] base i.payload) (base + 64) pred, absent := [], acc := []
      bars := [], tiles := [], parent := none
      inv := some { stake := i.stake, issuer := i.issuer, slot := i.slot, resultSlot := rslot, inbox := box, boxFree := false
                    settled := settledAt s i }
      work := none
      groups := gs.map fun g => (((g.setS 0 (BitVec.ofNat 64 base)).setS 1 i.stake).setS 2
        (if i.pred.isSome then BitVec.ofNat 64 (base + 64) else 0)).setS 3 (BitVec.ofNat 64 len)
      heldIn := [], queued := 0, saving := false }
  let n := (l1Clear s core).newId
  let s1 := (n.2.putTeam n.1 t).setInvs (amDel n.2.invs id)
  forwardQueue (if i.core.isNone then s1.modDie (core / 32) fun d => { d with lastCore := core % 32 } else s1) i core rslot

/-- The first of a die's arrived invocations that can be placed now, and its core: arrival order goes over all cores of the die
(R184). -/
def nextPlacement (s : State) (die : Nat) : Option (Nat × Invocation × Nat) :=
  (arrivedInvs s).findSome? fun i => (placeCore s i.1 i.2).bind fun c => if c / 32 = die then some (i.1, i.2, c) else none

/-- The first arrived invocation of a core's die that can be placed has its handler admitted, where that is on this core (R184). -/
def execPlacement (core : Nat) (s : State) : Host.Outcome State Fault Refusal :=
  .next (match nextPlacement s (core / 32) with
    | some (id, i, c) => if c = core then placeHandler s id i core else s
    | none => s)

/-- The time slice of a team's grid (R146, R163). -/
def sliceTicks (s : State) (grid : Nat) : Nat := ((amGet s.grids grid).map Grid.slice).getD 500000

/-- Work that waits for a core: what it takes, the cores it may take, since when, and its grid (R163, R164); for a saved team, its
number. -/
structure Waiting where
  need : Need
  cores : List Nat
  since : Nat
  grid : Nat
  back : Option Nat

/-- It has room on a core. -/
def Waiting.fits (s : State) (w : Waiting) (c : Nat) : Bool :=
  match w.back with
  | some n => savedFits s n
  | none => coreOpen s c && Machine.fits s c w.need

/-- Everything that waits for a core: the heads, the saved handlers, and the arrived invocations (R163, R164). -/
def waitingWork (s : State) : List Waiting :=
  ((headOrder s).map fun h => (⟨h.need, h.cores, h.since, h.grid, match h.ref with
    | .saved n => some n
    | _ => none⟩ : Waiting)) ++
  (s.teams.filter fun t => t.2.kind == .handler && !t.2.resident && t.2.wantsCore).map (fun t =>
    (⟨t.2.need, [t.2.core], t.2.since, t.2.grid, some t.1⟩ : Waiting)) ++
  (arrivedInvs s).map fun i =>
    (⟨handlerNeed i.2, match i.2.core with
      | some c => [c]
      | none => coresOf s i.2.die, i.2.since, i.2.grid, none⟩ : Waiting)

/-- The size of a team's save image (R413). -/
def imageBytes (t : Team) : Nat :=
  4096 + 1536 * t.groups.length + 4 * regSum (t.groups.map Group.budget) + 65536 * t.units + 262144 * t.accs

/-- The first place of a context's save pool where an image fits beside those it holds (R412). The pool's use is the machine's own
(log 125). -/
def poolPlace (c : Ctx) (n : Nat) : Option Nat :=
  ((0 :: c.saves.map fun x => x.2.1 + x.2.2).filter fun o =>
    o + n ≤ c.savesize && c.saves.all fun x => x.2.1 + x.2.2 ≤ o || o + n ≤ x.2.1).head?

/-- The save pool has room for a team's image (R412). -/
def poolRoom (s : State) (t : Team) : Bool := ((s.ctxOf t).bind fun c => poolPlace c (imageBytes t)).isSome

/-- The fold works on a team's views, or holds its slot for a run of folds (R178); a merge that has stopped at a fault keeps its
team from nothing (R402). -/
def folding (s : State) (team : Nat) : Bool :=
  s.frames.any fun f =>
    (f.2.runner == some team && !((f.2.job.map MergeJob.faulted).getD false)) ||
    (f.2.job.toList ++ f.2.parks.map Prod.snd).any fun j => !j.faulted && jobTeam f.2 j == some team

/-- A team that may be pre-empted (R163, R178, R412): it has run for its grid's slice, or waits for its fold. -/
def candidate (s : State) (team : Nat) (t : Team) : Bool :=
  t.resident && !t.saving && t.kind != .merge && t.phase != .ended && !folding s team && poolRoom s t &&
  (t.phase == .folding || t.since + sliceTicks s t.grid ≤ s.time.datum)

/-- The candidates in the order of R163: longest resident first. DESIGN CHOICE (log 111): of two that have been resident equally
long, the one with the lower number. -/
def candidates (s : State) : List (Nat × Team) :=
  sortBy (fun a b => a.2.since < b.2.since || (a.2.since == b.2.since && a.1 ≤ b.1)) (s.teams.filter fun t => candidate s t.1 t.2)

/-- What is left on a core once some teams have gone. -/
def withoutTeams (s : State) (gone : List Nat) : State := s.setTeams (s.teams.filter fun t => !gone.contains t.1)

/-- The fewest of a core's candidates, in order, that make room. -/
def roomBy (s : State) (core : Nat) (w : Waiting) : List Nat → List Nat → Option (List Nat)
  | [], _ => none
  | t :: ts, gone =>
    if w.fits (withoutTeams s (gone ++ [t])) core then some (gone ++ [t]) else roomBy s core w ts (gone ++ [t])

/-- The teams chosen to make room: candidates are taken on one core, that of the first candidate whose core can be cleared. -/
def chosenFor (s : State) (w : Waiting) : Option (List Nat) :=
  let cs := (candidates s).filter fun t => w.cores.contains t.2.core && coreOpen s t.2.core
  cs.findSome? fun c => roomBy s c.2.core w ((cs.filter fun x => x.2.core == c.2.core).map Prod.fst) []

/-- A team chosen for pre-emption issues nothing more; every transactional lane whose cairn has not left aborts with
PREEMPTED (R322, R412). -/
def beginSave (s : State) (team : Nat) : State :=
  match s.team? team with
  | none => s
  | some t =>
    let s1 := s.putTeam team { t with saving := true }
    (List.range t.groups.length).foldl (fun st i =>
      let g : GRef := ⟨team, i⟩
      let moving (l : Nat) : Bool := st.cairns.any fun c => c.2.g == g && c.2.lanes.contains l
      ((loggedLanes st g).filter fun l => !moving l).foldl (fun u l => dropLane u g l 8 0) st) s1

/-- A head that has waited one slice and fits nowhere has resident teams pre-empted for it (R163, R164). -/
def execPreemption (s : State) : Host.Outcome State Fault Refusal :=
  .next (if s.teams.any fun t => t.2.saving then s
    else match ((waitingWork s).filter fun w =>
        w.since + sliceTicks s w.grid ≤ s.time.datum && !(w.cores.any (w.fits s))).findSome? (chosenFor s) with
      | some ts => ts.foldl beginSave s
      | none => s)

/-- A COPY.MC that waits only for receivers that are themselves pre-empted (R375). -/
def waitsForSaved (s : State) (o : Op) : Bool :=
  match o.kind with
  | .copy _ _ _ _ _ _ rcv => o.image.isSome && rcv.all fun r => match s.team? r with
      | some t => !t.resident || t.saving
      | none => true
  | _ => false

/-- A team's outstanding work has ended (R412 steps 1 to 3). -/
def saveReady (s : State) (team : Nat) (t : Team) : Bool :=
  (List.range t.groups.length).all (fun i => drained s ⟨team, i⟩) && t.groups.all (fun g => g.pendTrap.isNone) &&
  (s.ops.all fun o => o.2.g.team != team || waitsForSaved s o.2) &&
  (s.teams.all fun m => (m.2.work.bind MergeWork.owner) != some team) && !folding s team

/-- The trap frames of a team's groups that run their handlers, as they stand in memory, are part of its image (R413). -/
def keepFrames (s : State) (t : Team) : List Group → Except (Cause × State) (List Group × State)
  | [] => .ok ([], s)
  | gr :: rest =>
    match gr.handler with
    | none => (keepFrames s t rest).map fun r => (gr :: r.1, r.2)
    | some h => match readRaw s t.core gr.ctl.asid.toNat true h.frame.toNat 2048 with
      | .error c => .error c
      | .ok (bs, s1) => (keepFrames s1 t rest).map fun r => ({ gr with handler := some { h with kept := bs } } :: r.1, r.2)

/-- The bytes of a save image: its layout is the machine's own, so that each is a free value (R413). -/
def imageOf (n size : Nat) : List Byte := (List.range size).map fun i => Config.imageByte n i

/-- The team's image stands in its save pool, its resources are free, and it joins the tail of its grid (R163, R412, R413). A fault
of the image is context-fatal (R251); where a line is locked by a cairn, the image waits (R294). -/
def saveTeam (s : State) (team : Nat) (t : Team) (c : Ctx) (off : Nat) : State :=
  match keepFrames s t t.groups with
  | .error (e, s1) => if e.cause = 0 then s else teamFatal s1 t e.cause
  | .ok (gs, s1) =>
    let f := s1.takeFree
    match writeVa f.2 t.core t.asid.toNat true (c.savepool.toNat + off) (imageOf f.1 (imageBytes t)) with
    | .error (e, s2) => if e.cause = 0 then s else teamFatal s2 t e.cause
    | .ok s2 =>
      let t1 : Team := { t with resident := false, saving := false, since := s.time.datum, groups := gs }
      let s3 := ((s2.putTeam team t1).setCtxs (amMod s2.ctxs t.ctx fun x => { x with saves := x.saves ++ [(team, off, imageBytes t)] })).countCore
        t.core 0x0D 1
      if t1.wantsCore then joinTail s3 team t1 else s3

/-- After draining, a chosen team is saved (R412); where its pool has no room any more, it stays. -/
def execPreemptionSave (team : Nat) (s : State) : Host.Outcome State Fault Refusal :=
  .next (match s.team? team with
    | some t =>
      if !t.saving || !saveReady s team t then s
      else match s.ctxOf t with
        | none => s
        | some c => match poolPlace c (imageBytes t) with
          | some off => saveTeam s team t c off
          | none => s.putTeam team { t with saving := false }
    | none => s)

/-- A saved team may resume (R163, R164, R415): it is a head that is offered, or a handler, and its core has room in the slots it
left. -/
def canResume (s : State) (team : Nat) (t : Team) : Bool :=
  !t.resident && t.wantsCore && savedFits s team &&
  (t.kind == .handler || (offered s).any fun x => x.1.ref == .saved team)

/-- The frames of a resumed team's handlers written back (R413). -/
def putFrames (t : Team) : List Group → State → Except (Cause × State) State
  | [], s => .ok s
  | gr :: rest, s =>
    match gr.handler with
    | none => putFrames t rest s
    | some h => match writeVa s t.core gr.ctl.asid.toNat true h.frame.toNat h.kept with
      | .error c => .error c
      | .ok s1 => putFrames t rest s1

/-- A group of a resumed team: the time it was saved counts in no time-out of its handler (R405). -/
def Group.backAfter (ticks : Nat) (gr : Group) : Group :=
  { gr with handler := gr.handler.map fun h => { h with since := h.since + ticks, kept := [] } }

/-- One thing that the core held for a saved team takes effect (R203, R414). -/
def applyHeld (team : Nat) (s : State) (x : HeldIn) : State :=
  match x with
  | .arrival b n => arriveAt s team b n
  | .image op => drainTo s op team

/-- A team back on its core, in the slots it left (R142, R151, R415): age and slice afresh, an acquire at .die, monitors to be read
again, the trap frames of its handlers as they were, and what was held for it applied in its order. -/
def resumeTeam (s : State) (team : Nat) (t : Team) : State :=
  match putFrames t t.groups s with
  | .error (c, s1) => if c.cause = 0 then s else teamFatal s1 t c.cause
  | .ok s0 =>
    let t1 : Team := { t with
      resident := true, age := s.time.clk, since := s.time.datum, heldIn := []
      groups := t.groups.map (Group.backAfter (s.time.datum - t.since)) }
    let s1 := (l1Clear (s0.putTeam team t1) t.core).setCtxs
      (amMod s0.ctxs t.ctx fun c => { c with saves := c.saves.filter fun x => x.1 ≠ team })
    let s2 := match t.kind with
      | .grid => s1.setGrids (amMod s1.grids t.grid fun g =>
          { g with tail := g.tail.filter fun x => x ≠ team, headSince := s.time.datum })
      | .task => s1.modDie (t.core / 32) fun d => { d with headAt := amPut d.headAt t.grid s.time.datum }
      | _ => s1
    let s3 := s2.setMons (s2.mons.map fun m => if m.2.g.team = team then (m.1, { m.2 with resumed := true }) else m)
    (List.range t.groups.length).foldl (fun st i => whileRunning st ⟨team, i⟩ Group.letBegin) (t.heldIn.foldl (applyHeld team) s3)

/-- A saved team resumes on the core it left (R415). -/
def execTeamResume (team : Nat) (s : State) : Host.Outcome State Fault Refusal :=
  .next (match s.team? team with
    | some t => if canResume s team t then resumeTeam s team t else s
    | none => s)

end Sys2Proof.Machine
end

