-- ==== Sys2Proof/Machine/Collect.lean ====
section
/-! DEFINITION. The events of the collectives: a round's inputs in the routers, its time-outs and its results (R442 to R448). -/

namespace Sys2Proof.Machine

/-- The tree of a round. -/
def roundTree (s : State) (r : CollRound) : Option Tree := (amGet s.grids r.grid).bind fun g => g.trees[r.tree]?

/-- The kind of a contribution: an arrival, or an operation and type; those of one round must agree (R444). -/
def Contribution.kind (c : Contribution) : Nat := if c.bar then 0x10000 else c.op * 32 + c.ty

/-- The place of an input in a round's table. -/
def inputKey (router port peer : Nat) : Nat := router * 16384 + port * 512 + peer

/-- The inputs that a router waits for, in fold order (R443): its local core, the ports through which the tree enters it, and
the peers that enter at it. -/
def expected (s : State) (t : Tree) (router : Nat) : List Nat :=
  (if t.cores.any fun c => routerOfCore s c == router then [inputKey router pLocal 0] else []) ++
  (t.links.filter fun l => l.2.1 == router && l.1 != router).map (fun l => inputKey router l.2.2 0) ++
  ((t.entries.map Prod.fst).filter fun d => (t.peerEntry d).1 == router).map fun d => inputKey router (t.peerEntry d).2 (d + 1)

/-- One step of a fold (R443, R444, R446). -/
def foldMsg (a b : RedMsg) : RedMsg :=
  match a, b with
  | .vals k xs, .vals j ys =>
    if k ≠ j then .mismatch
    else if k = 0x10000 then .vals k []
    else .vals k (List.zipWith (fun x y => (combine ((Ty.ofCode (k % 32)).getD .b32) (k / 32) .rn 0 x y).1) xs ys)
  | .mismatch, _ => .mismatch
  | _, .mismatch => .mismatch
  | _, _ => .timeout

/-- The left fold of a router's inputs in port order (R443). -/
def foldAll : List RedMsg → RedMsg
  | [] => .timeout
  | m :: ms => ms.foldl foldMsg m

/-- The result that a root broadcasts: its code and values (R446). -/
def resultOf (m : RedMsg) : Nat × List Nat :=
  match m with
  | .vals _ xs => (0, xs)
  | .timeout => (1, [])
  | .mismatch => (3, [])

/-- The router at which a round of the tree ends, on its root device. -/
def endsAt (t : Tree) (router : Nat) : Bool := (t.links.any fun l => l.1 == router && l.2.1 == router) && t.home

/-- A router sends its message onward; the root of this device ends the round (R443, R444). -/
def sendOn (t : Tree) (r : CollRound) (router : Nat) (m : RedMsg) : CollRound :=
  let r1 := { r with sent := router :: r.sent }
  if endsAt t router then
    { r1 with result := match r.result with
        | some x => some x
        | none => some (resultOf m) }
  else { r1 with links := amPut r1.links router m }

/-- An input stands at a router: the timer starts with the first, and with the last the router folds and sends; a TIMEOUT mark that
reaches the root ends the round at once (R443, R444). -/
def receive (s : State) (t : Tree) (r : CollRound) (key : Nat) (m : RedMsg) : CollRound :=
  let router := key / 16384
  if r.sent.contains router || amHas r.inputs key then r
  else
    let r1 := { r with
      inputs := amPut r.inputs key m
      timers := if amHas r.timers router then r.timers else amPut r.timers router s.time.datum }
    let want := sortBy (fun a b => a ≤ b) (expected s t router)
    if m = .timeout && endsAt t router then sendOn t r1 router .timeout
    else if want.all (amHas r1.inputs) then sendOn t r1 router (foldAll (want.filterMap (amGet r1.inputs))) else r1

/-- The round as an input reaches a router. -/
def routed (s : State) (t : Tree) (r : CollRound) (src : NetSrc) : CollRound :=
  match src with
  | .core c => match r.contribs.find? fun x => x.core == c with
    | some x => receive s t r (inputKey (routerOfCore s c) pLocal 0) (.vals x.kind (if x.bar then [] else x.vals))
    | none => r
  | .link n => match amGet r.links n, t.links.find? fun l => l.1 == n && l.2.1 != n with
    | some m, some l => receive s t { r with links := amDel r.links n } (inputKey l.2.1 l.2.2 0) m
    | _, _ => r
  | .peer d _ _ k vals =>
    if t.entries.any fun e => e.1 == d then
      receive s t r (inputKey (t.peerEntry d).1 (t.peerEntry d).2 (d + 1)) (match vals with
        | some xs => .vals k xs
        | none => .timeout)
    else r
  | .answer _ _ code vals => if !t.home ∧ r.result.isNone ∧ code ≤ 3 then { r with result := some (code, vals) } else r

/-- What comes over Jiath for a round of a tree of a launch, be it the first that this device hears of the round (R443, R444). -/
def fromAfar (s : State) (grid tree num : Nat) (src : NetSrc) (mine : Tree → Bool) : State :=
  match (amGet s.grids grid).bind fun g => g.trees[tree]? with
  | some t =>
    if t.broken || !mine t then s
    else
      let r := roundFor s grid tree num
      r.2.2.setRounds (amPut r.2.2.rounds r.1 (routed s t r.2.1 src))
  | none => s

/-- An input reaches a router of a collective round (R443): `round` is the round's number, or that of the launch for what comes over
Jiath. -/
def execRouterInput (round : Nat) (src : NetSrc) (s : State) : Host.Outcome State Fault Refusal :=
  .next (match src with
    | .peer d tree num _ _ => fromAfar s round tree num src fun t => t.entries.any fun e => e.1 == d
    | .answer tree num _ _ => fromAfar s round tree num src fun t => !t.home
    | _ => match amGet s.rounds round with
      | some r => match roundTree s r with
        | some t => if t.broken then s else s.setRounds (amPut s.rounds round (routed s t r src))
        | none => s
      | none => s)

/-- A router's timer has run for LIMIT datum ticks with an input missing (R444). -/
def execRoundTimeout (round node : Nat) (s : State) : Host.Outcome State Fault Refusal :=
  .next (match amGet s.rounds round with
    | some r => match roundTree s r, amGet r.timers node with
      | some t, some at_ =>
        if t.broken || r.sent.contains node || s.time.datum < at_ + t.limit then s
        else s.setRounds (amPut s.rounds round (sendOn t r node .timeout))
      | _, _ => s
    | none => s)

/-- The operation of a contribution. -/
def contribOp (s : State) (c : Contribution) : Option Nat :=
  (s.ops.find? fun o => o.2.g = c.g && o.2.cls == 2 && o.2.seq == c.seq).map Prod.fst

/-- The root's broadcast reaches a contributor, whose NRED or NBAR completes (R443, R446). -/
def execRoundComplete (round core : Nat) (s : State) : Host.Outcome State Fault Refusal :=
  .next (match amGet s.rounds round with
    | some r => match r.result, r.contribs.find? fun c => c.core == core with
      | some x, some c =>
        let s1 := s.setRounds (amPut s.rounds round { r with contribs := r.contribs.filter fun y => y.core ≠ core })
        let lost := ((roundTree s r).map Tree.lost).getD false
        match contribOp s c with
        | some o => netFinish s1 o c r.num x.1 x.2 lost
        | none => s1
      | _, _ => s
    | none => s)

/-- Trees that satisfy a test break, with their open rounds, for the rest of their launches (R444). -/
def breakTrees (s : State) (lost : Bool) (p : Tree → Bool) : State :=
  let s1 := s.setGrids (s.grids.map fun g => (g.1, { g.2 with
    trees := g.2.trees.map fun t => if p t && !t.broken then { t with broken := true, lost := lost } else t }))
  s1.setRounds (s1.rounds.map fun r => match roundTree s r.2 with
    | some t => if p t && r.2.result.isNone then (r.1, { r.2 with result := some (2, []) }) else r
    | none => r)

end Sys2Proof.Machine
end

