-- ==== Sys2Proof/Machine/Commands.lean ====
section
/-! DEFINITION. The command processors: doorbells, contexts, launches with their checks, windows for peers, checkpoints and restores (R146 to R148, R182, R272, R296, R297, R359, R416, R417, R438 to R442). -/

namespace Sys2Proof.Machine

/-- The context to which a queue is bound, while it exists (R439). -/
def queueCtx (s : State) (queue : Nat) : Option (Nat × Ctx) :=
  ((amGet s.queues queue).bind Queue.ctx).bind fun n => match amGet s.ctxs n with
    | some c => if c.alive then some (n, c) else none
    | none => none

/-- A record that a command names by an address of its own, read without translation: homes 0 to 7 by frame address under
scheme 0, the second tier and the host directly. -/
def plainRecord (s : State) (addr n : Nat) : Option (List Byte) :=
  let key (i : Nat) : Nat := plainAddr (addr + i)
  if 10 ≤ addr / 2 ^ 60 ∨ (addr / 2 ^ 60 ≤ 7 ∧ !s.dieUp (addr / 2 ^ 60)) then none
  else if (List.range n).any fun i => inError s (key i) then none
  else some ((List.range n).map fun i => memGet s.mem (key i))

/-- A record of a command read, as the caches and the error logs note it (R236, R250, R462). -/
def plainRead (s : State) (addr n : Nat) : Option (List Byte) × State :=
  let ks := (pieces addr n).map fun p => plainAddr p.1
  if 10 ≤ addr / 2 ^ 60 ∨ (addr / 2 ^ 60 ≤ 7 ∧ !s.dieUp (addr / 2 ^ 60)) then (none, s)
  else
    let s1 := ks.foldl (fun st k => touchRead st k 0 0) s
    (plainRecord s addr n, match ks.find? (inError s) with
      | some k => logConsumed s1 k 0xFFFF
      | none => s1)

/-- A context record within its limits (R399, R270, R440). -/
def ctxRecordOk (bs : List Byte) : Bool :=
  ctlReservedPt (num bs 0 8) && num bs 8 8 % 8 == 0 && num bs 0x10 8 % 2 ^ 26 == 0 && num bs 0x18 8 % 2 ^ 16 == 0 &&
  num bs 0x28 8 % 64 == 0 && num bs 0x32 14 == 0
where
  ctlReservedPt (x : Nat) : Bool := field x 51 13 == 0 && field x 37 11 == 0 && field x 1 14 == 0

/-- The context of a record (R440). -/
def ctxOfRecord (bs : List Byte) (asid : Nat) : Ctx :=
  { alive := true, asid := BitVec.ofNat 12 asid, ptbase := BitVec.ofNat 64 (num bs 0 8), trapbase := BitVec.ofNat 64 (num bs 8 8)
    traparea := BitVec.ofNat 64 (num bs 0x10 8), savepool := BitVec.ofNat 64 (num bs 0x18 8), savesize := num bs 0x20 8, saves := []
    resq := BitVec.ofNat 64 (num bs 0x28 8), msix := num bs 0x30 2, priv := false, posts := 0, events := [], handles := [] }

/-- A second-tier base that a checkpoint or a restore may name (R416). -/
def tierBaseOk (tb : Nat) : Bool := tb % 2 ^ 30 == 0 && tb + 2 ^ 40 + 2 ^ 26 ≤ 2 ^ 42

/-- The window of an EXPORT: base and log of the size (R439). -/
def windowBase (x : W64) : W64 := x >>> 16 <<< 16
def windowLog (x : W64) : Nat := x.toNat % 64

/-- The arguments of a command of a bound queue are within their limits (R416, R439, R475). -/
def argsOk (c : Cmd) : Bool :=
  if c.op = 5 ∨ c.op = 6 then tierBaseOk c.arg0.toNat
  else if c.op = 7 then c.arg0.toNat ≤ 7
  else if c.op = 8 then c.arg0.toNat < 256 && 16 ≤ windowLog c.arg1 && windowLog c.arg1 ≤ 52
  else true

/-- The DETAIL of BAD_COMMAND that a command deserves, if any (R439, R441). -/
def cmdBad (s : State) (queue : Nat) (c : Cmd) : Option Nat :=
  if c.op = 0 ∨ 8 < c.op ∨ c.rsv then some 1
  else if c.op = 2 then
    if ((plainRecord s c.arg0.toNat 64).map ctxRecordOk).getD false then none else some 1
  else if c.op = 3 then if ((amGet s.ctxs c.arg0.toNat).map Ctx.alive).getD false then none else some 1
  else match queueCtx s queue with
    | none => some 2
    | some (_, x) =>
      if 5 ≤ c.op ∧ c.op ≤ 7 ∧ !x.priv then some 3 else if argsOk c then none else some 1

/-- A command has to wait: its completion cannot be written yet, or its context record be read (R243, R294). -/
def cmdWaits (s : State) (queue : Nat) (c : Cmd) : Bool :=
  completeWaits s queue 1 || (c.op == 2 && plainWaits s c.arg0.toNat 64)

/-- The commands at the head of a queue that are no commands are completed with BAD_COMMAND. -/
def settleBad : Nat → State → Nat → State
  | 0, s, _ => s
  | n + 1, s, queue =>
    match amGet s.queues queue with
    | some q => match q.cmds with
      | c :: rest => match (if cmdWaits s queue c then none else cmdBad s queue c) with
        | some d => settleBad n (complete (s.setQueues (amPut s.queues queue { q with cmds := rest })) queue c.tag 9 d 0) queue
        | none => s
      | [] => s
    | none => s

/-- How many commands a queue holds. -/
def queueLen (s : State) (queue : Nat) : Nat := ((amGet s.queues queue).map fun q => q.cmds.length).getD 0

/-- The head of a queue has been taken (R438). -/
def popCmd (s : State) (queue : Nat) : State :=
  let s1 := s.setQueues (amMod s.queues queue fun q => { q with cmds := q.cmds.drop 1 })
  settleBad (queueLen s1 queue) s1 queue

/-- A command completes and the next comes to the head (R438, R441). -/
def finishCmd (s : State) (queue : Nat) (c : Cmd) (status detail : Nat) (value : W64) : State :=
  popCmd (complete s queue c.tag status detail value) queue

/-- The command at the head of a queue, where it is one of a given code that may be accepted now (R439, R452). -/
def headCmd (s : State) (queue op : Nat) : Option Cmd :=
  if s.sys.stage < 3 then none
  else match (amGet s.queues queue).bind fun q => q.cmds.head? with
    | some c => if c.op = op && !cmdWaits s queue c && (cmdBad s queue c).isNone then some c else none
    | none => none

/-- The 64 bytes of a command (R439). -/
def decodeCmd (bs : List Byte) : Cmd :=
  { op := num bs 0 1, tag := BitVec.ofNat 32 (num bs 4 4), arg0 := BitVec.ofNat 64 (num bs 8 8), arg1 := BitVec.ofNat 64 (num bs 0x10 8)
    rsv := num bs 1 3 != 0 || num bs 0x18 40 != 0 }

/-- A queue of which nothing is known. -/
def Queue.empty : Queue := { ctx := none, ring := none, rung := 0, read := 0, cmds := [], done := [] }

/-- The addresses of the commands that a queue's doorbell has announced and that have not been read, at most a ring of them (R438). -/
def Queue.unread (q : Queue) : List Nat :=
  match q.ring with
  | some r => (List.range (min r.size ((q.rung + 2 ^ 32 - q.read) % 2 ^ 32))).map fun i => r.base.toNat + 64 * ((q.read + i) % r.size)
  | none => []

/-- Commands read in ring order (R438). One that cannot be read is no command. -/
def readCmds : List Nat → State → List Cmd × State
  | [], s => ([], s)
  | a :: rest, s =>
    let r := plainRead s a 64
    let q := readCmds rest r.2
    (decodeCmd (r.1.getD (List.replicate 64 0#8)) :: q.1, q.2)

/-- The command processor reads the commands that the doorbell has announced (R438), once commands are accepted (R452) and every one
can be read (R243, R294). -/
def readRing (s : State) (queue : Nat) : State :=
  match amGet s.queues queue with
  | none => s
  | some q =>
    if s.sys.stage < 3 || q.unread.any fun a => plainWaits s a 64 then s
    else
      let r := readCmds q.unread s
      let s1 := r.2.setQueues (amPut r.2.queues queue { q with read := q.rung, cmds := q.cmds ++ r.1 })
      settleBad (queueLen s1 queue) s1 queue

/-- A doorbell (R438): it holds the producer index written, up to which the command processor reads. The two processors serve 64 queues
each. DESIGN CHOICE (log 104): the index counts commands modulo 2^32, and a ring never holds more than its entries. -/
def doorbellAt (s : State) (queue index : Nat) : State :=
  if 128 ≤ queue then s
  else readRing (s.setQueues (amPut s.queues queue { amGetD s.queues queue Queue.empty with rung := index % 2 ^ 32 })) queue

def execDoorbell (queue index : Nat) (s : State) : Host.Outcome State Fault Refusal := .next (doorbellAt s queue index)

/-- The host names the rings of a command queue (R438). -/
def setupQueue (s : State) (queue : Nat) (r : Ring) : State :=
  if 128 ≤ queue ∨ r.size = 0 ∨ r.csize = 0 then s
  else s.setQueues (amPut s.queues queue { amGetD s.queues queue Queue.empty with ring := some r, rung := 0, read := 0 })

/-- A queue bound to a context. -/
def bindQueue (s : State) (queue : Nat) (ctx : Option Nat) : State :=
  s.setQueues (amMod s.queues queue fun q => { q with ctx := ctx })

/-- The lowest ASID that no context holds. -/
def freeAsid (s : State) : Option Nat := leastFrom (fun a => s.ctxs.all fun c => !c.2.alive || c.2.asid.toNat != a) 4096 0

/-- CONTEXT_CREATE (R272, R440, R456): every cached entry of a free ASID is removed, its root record written, its rights
granted at targets 0 to 129, and the context's number returned. -/
def execContextCreate (queue : Nat) (s : State) : Host.Outcome State Fault Refusal :=
  .next (match headCmd s queue 2 with
    | none => s
    | some c =>
      match freeAsid s, plainRead s c.arg0.toNat 64 with
      | some a, (some bs, s0) =>
        let n := (leastFree (amKeys s.ctxs) (s.ctxs.length + 1)).getD 0
        let x := ctxOfRecord bs a
        let s1 := tlbiWhere (fun k => k == a) s0
        let s2 := ((s1.setRoots (amPut s1.roots a x.ptbase)).setCtxs (amPut s1.ctxs n x))
        finishCmd (bindQueue (grantAll s2 a 7) queue (some n)) queue c 0 0 (BitVec.ofNat 64 n)
      | _, _ => finishCmd s queue c 9 4 0)

/-- CONTEXT_ATTACH (R439). -/
def execContextAttach (queue : Nat) (s : State) : Host.Outcome State Fault Refusal :=
  .next (match headCmd s queue 3 with
    | none => s
    | some c => finishCmd (bindQueue s queue (some c.arg0.toNat)) queue c 0 0 0)

/-- CONTEXT_DESTROY (R439, R456): the context's work ends, its launches are halted, and its rights are cleared. -/
def execContextDestroy (queue : Nat) (s : State) : Host.Outcome State Fault Refusal :=
  .next (match headCmd s queue 4, queueCtx s queue with
    | some c, some (n, x) =>
      let s1 := endContext (s.setGrids (s.grids.map fun g =>
        if g.2.ctx = n ∧ !g.2.done then (g.1, { g.2 with status := if g.2.status = 0 then 4 else g.2.status, nextTeam := g.2.teamCount, tail := [] }) else g))
        n 0x60
      let s2 := grantAll (s1.setCtxs (amMod s1.ctxs n fun y => { y with alive := false })) x.asid.toNat 0
      finishCmd (bindQueue s2 queue none) queue c 0 0 0
    | _, _ => s)

/-- EXPORT (R436, R439, R456): the requesting peer's entry of the export table, and its rights at the Jiath ingress. -/
def execExportWindow (queue : Nat) (s : State) : Host.Outcome State Fault Refusal :=
  .next (match headCmd s queue 8, queueCtx s queue with
    | some c, some (n, _) =>
      let d := c.arg0.toNat
      let p := amGetD s.sys.peers d { present := false, lost := false, lastFlit := 0, entry := none }
      let s1 := s.setSys { s.sys with
        peers := amPut s.sys.peers d { p with entry := some (n, windowBase c.arg1, 2 ^ windowLog c.arg1) }
        access := amPut s.sys.access (131 * 65536 + 0x1000 + d) 7 }
      finishCmd s1 queue c 0 0 0
    | _, _ => s)

/-! ### Launches -/

/-- What the checks of a launch have read. -/
structure LaunchInfo where
  roles : List Role
  tiles : List Tile
  handles : List (Nat × Nat)
  templates : List Template
  trees : List Tree

/-- The role entries of a record (R147). -/
def launchRoles (bs : List Byte) : List Role :=
  (List.range (num bs 6 1)).map fun i =>
    ⟨BitVec.ofNat 64 (num bs (0x20 + 16 * i) 8), num bs (0x28 + 16 * i) 2, num bs (0x2A + 16 * i) 1⟩

/-- The dies of a DIEMASK. -/
def maskDies (m : Nat) : List Nat := (List.range 8).filter fun d => bit m d

/-- Check 2 of R148: a version or a reserved field that is wrong (R146, R147, R182). -/
def reservedOk (bs : List Byte) : Bool :=
  num bs 0 2 == 1 && num bs 2 2 == 0 && num bs 5 1 == 0 && num bs 0x0D 1 < 16 && num bs 0x12 6 == 0 && num bs 0x7C 4 == 0 &&
  num bs 0xD0 48 == 0 && (List.range 4).all fun i => num bs (0x2B + 16 * i) 5 == 0

/-- A record as one team of it takes its share (R149, R173). -/
def launchNeed (bs : List Byte) (tiles : List Tile) : Need :=
  ⟨((launchRoles bs).map Role.ngroups).sum, regSum ((launchRoles bs).flatMap fun r => List.replicate r.ngroups r.budget),
    num bs 0x0E 1 + viewUnits tiles, num bs 0x0F 1, num bs 0x10 1, tiles.length⟩

/-- Checks 2 to 9 of R148: the number of the first that fails. -/
def launchPlain (s : State) (bs : List Byte) (tiles : List Tile) : Option Nat :=
  if !reservedOk bs then some 2
  else if num bs 6 1 = 0 ∨ 4 < num bs 6 1 ∨ num bs (0x20 + 16 * num bs 6 1) (16 * (4 - num bs 6 1)) ≠ 0 then some 3
  else if !((launchRoles bs).all fun r => r.ngroups != 0 && budgetOk r.budget && r.entry.toNat % 8 == 0) then some 4
  else if 32 < ((launchRoles bs).map Role.ngroups).sum then some 5
  else if num bs 8 4 = 0 ∨ 3 < num bs 7 1 then some 6
  else if maskDies (num bs 4 1) = [] ∨ !((maskDies (num bs 4 1)).all s.dieUp) then some 7
  else if 64 < num bs 0x0E 1 ∨ 4 < num bs 0x0F 1 ∨ 16 < num bs 0x10 1 then some 8
  else if !fitsEmpty (launchNeed bs tiles) then some 9
  else none

/-- The view list of a launch (R182): check 10 fails where it is invalid or cannot be read. -/
def launchTiles (s : State) (asid : Nat) (bs : List Byte) : CpRes (List Tile) :=
  match readTiles s cmdCore asid true (num bs 0xC0 8) with
  | .ok (t, s1) => cpGive 10 t s1
  | .error (c, s1) => .error (if c.cause = 0 then none else some 10, s1)

/-- The rest of check 10 of R148 (R182): LJOIN is an address of a frame that is not bound. -/
def joinOk (s : State) (asid : BitVec 12) (bs : List Byte) : CpRes Unit :=
  let va := num bs 0xC8 8
  if num bs 0xC0 8 = 0 then .ok ((), s)
  else if frameWaits s asid va then .error (none, s)
  else
    let f := frameAt s asid va
    if va = 0 ∨ va % 256 ≠ 0 ∨ f.1.isSome then .error (some 10, f.2) else .ok ((), f.2)

/-- A buffer-handle entry (R296). -/
def handleOf (e : List Byte) : Option (Nat × Nat) :=
  if 1 ≤ num e 0 4 ∧ num e 0 4 ≤ 0xFFFF ∧ 1 ≤ num e 4 1 ∧ num e 4 1 ≤ 3 ∧ num e 5 3 = 0 then some (num e 0 4, num e 4 1) else none

/-- The buffer-handle list of a launch (R296), as check 11 of R148 has it. -/
def readHandles (s : State) (asid va n : Nat) : CpRes (List (Nat × Nat)) :=
  if 256 < n ∨ (n = 0 ∧ va ≠ 0) then .error (some 11, s)
  else if n = 0 then .ok ([], s)
  else if va % 8 ≠ 0 then .error (some 11, s)
  else (cpRead s asid va (8 * n) 11).bind fun r =>
    cpGive 11 ((((List.range n).map fun i => handleOf ((r.1.drop (8 * i)).take 8)).mapM id).filter fun hs =>
      (hs.map Prod.fst).eraseDups.length == n) r.2

/-- A core of this device that a tree may name (R442). -/
def treeCoreOk (s : State) (core : Nat) : Bool := s.dieUp (core / 32) && core % 32 < (s.die (core / 32)).built.length

/-- The devices of a DEVS mask (R442); check 13 fails where it cannot be read. -/
def treeDevs (s : State) (asid va : Nat) : CpRes (List Nat) :=
  if va = 0 then .ok ([s.sys.device], s)
  else (cpRead s asid va 32 13).map fun r => ((List.range 256).filter fun d => bit (num r.1 0 32) d, r.2)

/-- A tree entry and its devices (R442), its routes fixed at acceptance (R443, R444): none where check 13 of R148 fails. A tree that has a
router on a die out of service, or a device outside the domain, is broken. -/
def parseTree (s : State) (devs : List Nat) (e : List Byte) : Option Tree :=
  let cores := (List.range 8).flatMap fun d => ((List.range 30).filter fun c => bit (num e (4 * d) 4) c).map fun c => d * 32 + c
  let root := num e 0x20 1 * 32 + num e 0x21 1
  let rootDev := num e 0x22 1
  if (List.range 8).all (fun d => num e (4 * d) 4 < 2 ^ 30) && num e 0x23 1 == 0 && num e 0x34 12 == 0 && num e 0x21 1 < 32 &&
        cores.contains root && devs.contains s.sys.device && devs.contains rootDev && cores.all (treeCoreOk s) then
    let links := treeLinks s cores root rootDev devs
    let others := devs.filter fun d => d ≠ s.sys.device
    let out := links.any fun l => l.1 < 384 && !s.dieUp (l.1 / 48)
    some { cores := cores, root := root, rootDev := rootDev, home := rootDev == s.sys.device, devs := others, limit := num e 0x24 4
           tag := BitVec.ofNat 32 (num e 0x30 4), links := links, entries := (treePeers s rootDev devs).map fun d => (d, portTo s d)
           broken := out || others.any fun d => !peerOk s d, lost := out || others.any (peerLostNow s) }
  else none

/-- The first `n` entries of a collective descriptor. -/
def treeEntries (asid : Nat) : Nat → List Byte → State → CpRes (List Tree)
  | 0, _, s => .ok ([], s)
  | n + 1, bs, s =>
    (treeDevs s asid (num bs 0x28 8)).bind fun d =>
      (cpGive 13 (parseTree d.2 d.1 (bs.take 64)) d.2).bind fun t =>
        (treeEntries asid n (bs.drop 64) t.2).map fun r => (t.1 :: r.1, r.2)

/-- The collective descriptor of a launch (R442), as check 13 of R148 has it. -/
def readTrees (s : State) (asid va : Nat) : CpRes (List Tree) :=
  if va = 0 then .ok ([], s)
  else if va % 64 ≠ 0 then .error (some 13, s)
  else (cpRead s asid va 64 13).bind fun h =>
    if num h.1 0 1 = 0 ∨ 16 < num h.1 0 1 ∨ num h.1 1 63 ≠ 0 then .error (some 13, h.2)
    else (cpRead h.2 asid (va + 64) (64 * num h.1 0 1) 13).bind fun r => treeEntries asid (num h.1 0 1) r.1 r.2

/-- Checks 2 to 9 of R148, with some views. -/
def plainOk (s : State) (bs : List Byte) (tiles : List Tile) : CpRes Unit :=
  match launchPlain s bs tiles with
  | some n => .error (some n, s)
  | none => .ok ((), s)

/-- The checks of a launch record in their order (R148, R182, R296, R360, R371, R442): what they read, or the number of the
first that fails. -/
def launchChecks (s : State) (asid : BitVec 12) (bs : List Byte) : CpRes LaunchInfo :=
  (plainOk s bs []).bind fun _ =>
  (launchTiles s asid.toNat bs).bind fun tiles =>
  (plainOk tiles.2 bs tiles.1).bind fun p =>
  (joinOk p.2 asid bs).bind fun j =>
  (readHandles j.2 asid.toNat (num bs 0x70 8) (num bs 0x78 4)).bind fun hs =>
  (readTemplates hs.2 asid.toNat (num bs 0x60 8)).bind fun ts =>
  if !((List.range 8).all fun i => fmtOk (num bs (0x80 + 8 * i) 8)) then .error (some 12, ts.2)
  else (readTrees ts.2 asid.toNat (num bs 0x68 8)).map fun trees => (⟨launchRoles bs, tiles.1, hs.1, ts.1, trees.1⟩, trees.2)

/-- A launch record read and checked (R148). -/
def readLaunch (s : State) (asid : BitVec 12) (va : Nat) : CpRes (List Byte × LaunchInfo) :=
  if va % 256 ≠ 0 then .error (some 1, s)
  else (cpRead s asid.toNat va 256 1).bind fun r => (launchChecks r.2 asid r.1).map fun i => ((r.1, i.1), i.2)

/-- The launches on which one with these handles depends (R297). -/
def handleDeps (t : AMap (Option Nat × List Nat)) (hs : List (Nat × Nat)) : List Nat :=
  (hs.flatMap fun h =>
    let e := amGetD t h.1 (none, [])
    e.1.toList ++ if h.2 = 1 then [] else e.2).eraseDups

/-- The handle table once a launch has been accepted (R297). -/
def handleNote (t : AMap (Option Nat × List Nat)) (id : Nat) (hs : List (Nat × Nat)) : AMap (Option Nat × List Nat) :=
  hs.foldl (fun m h =>
    let e := amGetD m h.1 (none, [])
    amPut m h.1 (if h.2 = 1 then (e.1, e.2.drop (e.2.length - 63) ++ [id]) else (some id, []))) t

/-- A launch that must still wait: for room in the template memory of its dies (R359), or for the oldest of 64 readers of a
handle (R297). -/
def launchWaits (s : State) (c : Ctx) (dies : List Nat) (i : LaunchInfo) : Bool :=
  (dies.any fun d => 4096 < i.templates.length +
    ((s.grids.filter fun g => !g.2.done && g.2.dies.contains d).map fun g => g.2.templates.length).sum) ||
  i.handles.any fun h =>
    let r := (amGetD c.handles h.1 (none, [])).2
    h.2 == 1 && 64 ≤ r.length && ((amGet s.grids (r.headD 0)).map fun g => !g.done).getD false

/-- What a merge unit's access at the binding of a launch's frame leaves: none where it has to wait (R243, R294); where it faults, what
it was to read is zero, or what it was to write is not written. DESIGN CHOICE (log 149): R182 names no outcome for such a fault. -/
def unitTry {α : Type} (x : Except (Cause × State) α) (fail : State → α) : Option α :=
  match x with
  | .ok r => some r
  | .error (c, s1) => if c.cause = 0 then none else some (fail s1)

/-- The join frame of a launch is bound, its accumulators at their identities (R176, R182); none where that has to wait. -/
def bindLaunch (s : State) (id ctx : Nat) (asid : BitVec 12) (bs : List Byte) (tiles : List Tile) : Option (Option Nat × State) :=
  if num bs 0xC0 8 = 0 then some (none, s)
  else
    let va := num bs 0xC8 8
    (unitTry (readRaw s unitCore asid.toNat false va 0x24) fun s1 => ([], s1)).bind fun r =>
    let h := r.1
    let f : Frame :=
      { va := BitVec.ofNat 64 va, ctx := ctx, asid := asid, nchild := num bs 8 4, cursor := 0, broken := false, cause := 0, told := true, owner := none
        ownerWord := 0, views := BitVec.ofNat 64 (num bs 0xC0 8), tiles := tiles, spill := BitVec.ofNat 64 (num h 0x18 8)
        spilln := num h 0x20 4, slots := [], waiting := [], job := none, parks := [], runner := none, sync := some (.grid id) }
    let n := r.2.newId
    (unitTry (writeIdentities f unitCore false tiles n.2) fun t => t).map fun s1 => (some n.1, s1.setFrames (amPut s1.frames n.1 f))

/-- A launch accepted (R146, R152, R182, R297, R359); none where the binding of its frame has to wait. -/
def acceptLaunch (s : State) (queue : Nat) (c : Cmd) (ctx : Nat) (x : Ctx) (bs : List Byte) (i : LaunchInfo) : Option State :=
  let n := s.newId
  (bindLaunch n.2 n.1 ctx x.asid bs i.tiles).map fun f =>
  let g : Grid :=
    { ctx := ctx, queue := queue, tag := c.tag, prio := num bs 7 1, dies := maskDies (num bs 4 1), roles := i.roles, teamCount := num bs 8 4
      scratch := num bs 0x0E 1, accs := num bs 0x0F 1, bars := num bs 0x10 1
      slice := (if num bs 0x11 1 = 0 then 500000 else num bs 0x11 1 * 10000), argp := BitVec.ofNat 64 (num bs 0x18 8)
      templates := i.templates, fmts := (List.range 8).map (fun k => BitVec.ofNat 64 (num bs (0x80 + 8 * k) 8)), trees := i.trees
      hasTrees := num bs 0x68 8 != 0, tiles := i.tiles, ljoin := f.1, handles := i.handles, deps := handleDeps x.handles i.handles
      nextTeam := 0, lastDie := 7, headSince := s.time.datum, tail := [], status := 0, detail := 0, applied := false, done := false
      endCore := 0 }
  (f.2.setGrids (amPut f.2.grids n.1 g)).setCtxs (amMod f.2.ctxs ctx fun y => { y with handles := handleNote y.handles n.1 i.handles })

/-- LAUNCH (R148): a record that fails a check completes with LAUNCH_INVALID and its number; else its teams are offered. It waits where
a read of the record, or of what it names, has to (R243, R294, R452). -/
def execLaunch (queue : Nat) (s : State) : Host.Outcome State Fault Refusal :=
  .next (match headCmd s queue 1, queueCtx s queue with
    | some c, some (n, x) =>
      match readLaunch s x.asid c.arg0.toNat with
      | .error (none, _) => s
      | .error (some k, s1) => finishCmd s1 queue c 1 k 0
      | .ok ((bs, i), s1) =>
        if launchWaits s x (maskDies (num bs 4 1)) i then s
        else ((acceptLaunch s1 queue c n x bs i).map fun t => popCmd t queue).getD s
    | _, _ => s)

/-! ### Checkpoint and restore -/

/-- Teams that a checkpoint must still save: those that hold a core. -/
def unsaved (s : State) : List (Nat × Team) := s.teams.filter fun t => t.2.resident

/-- Nothing but saved work is outstanding (R416 step 2): accesses, cairns, engine operations and merges have ended. -/
def workEnded (s : State) : Bool :=
  s.pend.isEmpty && s.cairns.isEmpty && s.ops.all (fun o => waitsForSaved s o.2) &&
  s.frames.all fun f => (f.2.job.toList ++ f.2.parks.map Prod.snd).all MergeJob.faulted

/-- Admission stops and every resident team is chosen for pre-emption (R416 step 1). -/
def stopDevice (s : State) : State :=
  ((unsaved s).filter fun t => t.2.kind != .merge && t.2.phase != .ended).foldl (fun st t => beginSave st t.1)
    (s.setSys { s.sys with admitting := false })

/-- Admission resumes; a team that was still to be saved goes on (R416). -/
def resumeDevice (s : State) : State :=
  (s.setTeams (s.teams.map fun t => (t.1, { t.2 with saving := false }))).setSys { s.sys with admitting := true }

/-- The device state block (R416 step 4). -/
def deviceBlock (s : State) : DeviceBlock :=
  { stakes := s.cores.map fun c => (c.1, c.2.stakes), pools := s.dies.map fun d => (d.1, (d.2.pool, d.2.slices)), teams := s.teams
    frames := s.frames, grids := s.grids, ctxs := s.ctxs, msgs := s.msgs, invs := s.invs, ops := s.ops, mons := s.mons
    rounds := s.rounds, filters := s.sys.filters, roots := s.roots }

/-- Every sector leaves the L2s and memory-side caches for DRAM, the horizons rising (R232, R416 step 5). -/
def flushCaches (s : State) : State :=
  let s1 := (amKeys s.l2).foldl dropL2 s
  (amKeys s1.msc).foldl dropMsc s1

/-- Where a byte of main memory stands in a checkpoint: die `d`'s stack at TB + 128 GiB × d, in address order (R416). -/
def savedKey (tb key : Nat) : Nat := memKey 8 (tb + keyHome key * 2 ^ 37 + keyAddr key)
/-- A byte of main memory. -/
def mainKey (key : Nat) : Bool := keyHome key ≤ 7 && keyAddr key < 2 ^ 37

/-- Main memory copied to a second-tier base (R416 step 6). -/
def copyOut (m : Mem) (tb : Nat) : Mem :=
  m.filter (fun c => c.1 < memKey 8 tb) ++ ((m.filter fun c => mainKey c.1).map (fun c => (savedKey tb c.1, c.2)) ++
    m.filter fun c => memKey 8 (tb + 2 ^ 40) ≤ c.1)

/-- Main memory copied back (R417). -/
def copyIn (m : Mem) (tb : Nat) : Mem :=
  ((m.filter fun c => memKey 8 tb ≤ c.1 && c.1 < memKey 8 (tb + 2 ^ 40)).map fun c =>
    (memKey ((c.1 - memKey 8 tb) / 2 ^ 37) ((c.1 - memKey 8 tb) % 2 ^ 37), c.2)) ++
  m.filter fun c => memKey 8 0 ≤ c.1

/-- The uncached stamps of the I/O dies whose second tier a range of 1 TiB and 64 MiB meets (R233). -/
def raiseIoStamps (s : State) (tb : Nat) : State :=
  let up (st : State) (home : Nat) : State :=
    st.setSys { st.sys with ioU := amPut st.sys.ioU home (stampNext st.datum48 (amGetD st.sys.ioU home 0)) }
  let s1 := if tb < 2 ^ 41 then up s 128 else s
  if 2 ^ 41 < tb + 2 ^ 40 + 2 ^ 26 then up s1 129 else s1

/-- The bytes of a device state block (R416), whose layout is internal to the device. DESIGN CHOICE (log 16): 64 bytes, the block's
number and then free values. -/
def blockBytes (n : Nat) : List Byte := toBytes 8 n ++ (List.range 56).map (Config.blockByte n)

/-- Steps 4 to 6 of a checkpoint (R416). -/
def writeCheckpoint (s : State) (tb : Nat) : State :=
  let n := (flushCaches s).newId
  let m := memWrite (copyOut n.2.mem tb) (memKey 8 (tb + 2 ^ 40)) (blockBytes n.1)
  let s2 := raiseIoStamps (n.2.setMem m) tb
  s2.setSys { s2.sys with checkpoints := amPut s2.sys.checkpoints n.1 (deviceBlock s) }

/-- CHECKPOINT (R416): at first every resident team is chosen for pre-emption; once all are saved the device is written out.
A team that cannot be saved ends it with NO_SAVE_SPACE. -/
def execCheckpoint (queue : Nat) (s : State) : Host.Outcome State Fault Refusal :=
  .next (match headCmd s queue 5 with
    | none => s
    | some c =>
      if s.sys.admitting then stopDevice s
      else if (unsaved s).any fun t => t.2.kind != .merge && t.2.phase != .ended && !t.2.saving then
        finishCmd (resumeDevice s) queue c 6 0 0
      else if (unsaved s).isEmpty && workEnded s then
        let s1 := writeCheckpoint s c.arg0.toNat
        finishCmd (if c.arg1.getLsbD 0 then resumeDevice s1 else s1) queue c 0 0 0
      else s)

/-- The device as its state block gives it (R417); the caches start empty. -/
def restoreBlock (s : State) (b : DeviceBlock) : State :=
  let s1 := ((((((((((s.setTeams b.teams).setFrames b.frames).setGrids b.grids).setCtxs b.ctxs).setMsgs b.msgs).setInvs b.invs).setOps
    b.ops).setMons b.mons).setRounds b.rounds).setRoots b.roots).setSys { s.sys with filters := b.filters }
  (s1.setCores (s1.cores.map fun c => (c.1, { c.2 with stakes := amGetD b.stakes c.1 [], l1 := [], icache := [], mergeTeam := none }))).setDies
    (s1.dies.map fun d => (d.1, { d.2 with pool := ((amGet b.pools d.1).map Prod.fst).getD [], slices := ((amGet b.pools d.1).map Prod.snd).getD [] }))

/-- Every slice horizon of a die set to DATUM (R232, R417, R450), and its uncached stamp raised: each is above every stamp that a
transaction has logged (R451). -/
def raiseHorizons (s : State) (die : Nat) : State :=
  (List.range 16).foldl (fun st k => st.modSlice die k fun x =>
    { x with h := stampNext st.datum48 x.h, u := stampNext st.datum48 x.u }) s

/-- The device state block that stands at an address of the second tier, if one does (R417). -/
def blockAt (s : State) (addr : Nat) : Option DeviceBlock :=
  let bs := memRead s.mem (memKey 8 addr) 64
  if bs = blockBytes (ofBytes (bs.take 8)) then amGet s.sys.checkpoints (ofBytes (bs.take 8)) else none

/-- Main memory and the device as the checkpoint at a base left them (R417); bytes that are no device state block leave the device's
state as it is. -/
def readCheckpoint (s : State) (tb : Nat) : State :=
  let s1 := (((s.setMem (copyIn s.mem tb)).setL2 []).setMsc []).setTlb []
  let s2 := match blockAt s (tb + 2 ^ 40) with
    | some b => restoreBlock s1 b
    | none => s1
  (List.range 8).foldl raiseHorizons s2

/-- RESTORE (R417): the device stops, takes the checkpoint back, and resumes. -/
def execRestore (queue : Nat) (s : State) : Host.Outcome State Fault Refusal :=
  .next (match headCmd s queue 6 with
    | none => s
    | some c =>
      if s.sys.admitting then stopDevice s
      else if workEnded s && (unsaved s).all fun t => t.2.kind != .merge then
        finishCmd (resumeDevice (readCheckpoint s c.arg0.toNat)) queue c 0 0 0
      else s)

end Sys2Proof.Machine
end

