-- ==== Sys2Proof/Machine/Control.lean ====
section
/-! DEFINITION. The meanings of the pair form and of the control words (R28, R29, R85, R86, R127 to R134, R157, R165). -/

namespace Sys2Proof.Machine

/-- A half-opcode's operation: its full form's, with the named type, RND = 0 and SAT = 0 (R85, R86). -/
def halfOp (h : Hop) (x : AluIn) : AluOut :=
  match h with
  | .iadd => intBin .i32 false fAdd x
  | .isub => intBin .i32 false fSub x
  | .imul => intBin .i32 false fMul x
  | .imin => intBin .i32 false fMin x
  | .imax => intBin .i32 false fMax x
  | .nmin => intBin .n32 false fMin x
  | .nmax => intBin .n32 false fMax x
  | .and => logic2 (· &&& ·) x
  | .or => logic2 (· ||| ·) x
  | .xor => logic2 (· ^^^ ·) x
  | .shl => shiftOp shlVal 32 x
  | .shr => shiftOp shrVal 32 x
  | .sar => shiftOp sarVal 32 x
  | .rot => shiftOp rotVal 32 x
  | .fadd => fpBin .f32 .ctl fadd x
  | .fsub => fpBin .f32 .ctl fsub x
  | .fmul => fpBin .f32 .ctl fmul x
  | .fmin => fpMinMax .f32 false false x
  | .fmax => fpMinMax .f32 true false x
  | .fminn => fpMinMax .f32 false true x
  | .fmaxn => fpMinMax .f32 true true x

/-- The immediate of a half-op under its extension class (R29, R85). -/
def halfImm (h : Hop) (v : BitVec 16) : Nat :=
  match h with
  | .iadd | .isub | .imul | .imin | .imax => sextNat 16 32 v.toNat
  | .nmin | .nmax | .and | .or | .xor => v.toNat
  | .shl | .shr | .sar | .rot => v.toNat % 32
  | .fadd | .fsub | .fmul | .fmin | .fmax | .fminn | .fmaxn => v.toNat * 2 ^ 16

/-- What a half-op computes in a lane. -/
def halfVal (h : Half) (t : Thread) : AluOut :=
  let b := match h.src with
    | .reg a => (t.getV a.toNat).toNat
    | .imm v => halfImm h.hop v
  halfOp h.hop { a := (t.getV h.d.toNat).toNat, b := b, c := 0, d := 0, ps := t.preds, ctl := t.fpctl }

/-- A pair in a lane: both halves read before either writes (R29). -/
def Thread.pair (t : Thread) (u l : Half) : Thread :=
  let x := halfVal u t
  let y := halfVal l t
  ((t.setV u.d.toNat (BitVec.ofNat 32 x.d)).setV l.d.toNat (BitVec.ofNat 32 y.d)).orFlags (x.fl ||| y.fl)

def execPair (u l : Half) (s : State) :=
  runWord (.pair u l) (fun w => Res.done (w.s.modLanes w.g w.acting fun _ t => t.pair u l)) s

/-- The decision of each active lane at a transfer: its target where it acts (R157). -/
def decisions (w : Wd) (target : Thread → W64) : List (Option W64) :=
  w.active.map fun l => if w.acting.contains l then (w.gr.lane? l).map target else none

/-- Whether the active lanes of a transfer agree (R157). -/
def agreed (ds : List (Option W64)) : Bool :=
  match ds with
  | [] => true
  | d :: rest => rest.all fun x => x == d

/-- A transfer (R127 to R131, R157, R474): the uniformity check, then the alignment check, in each acting lane, or once for a
target that the group supplies, then the transfers. `link` writes what CALL writes. -/
def transfer (u once : Bool) (target : Thread → W64) (link : Thread → Thread) (w : Wd) : Res :=
  if u && !agreed (decisions w target) then Res.trap w.s cUNIFORMITY 0 0 w.active
  else
    let tg (l : Nat) : W64 := ((w.gr.lane? l).map target).getD 0
    let failing := w.acting.filter fun l => (tg l).toNat % 8 != 0
    let good := w.acting.filter fun l => (tg l).toNat % 8 == 0
    if once && failing != [] then Res.trap w.s cMISALIGNED_PC 0 (tg (failing.headD 0)) w.acting
    else
    { st := w.s.modLanes w.g good fun _ t => link t
      jump := good.map fun l => (l, tg l)
      stay := []
      bad := failing.map fun l => ⟨l, cMISALIGNED_PC, 0, tg l⟩
      whole := none }

/-- The target of a branch offset (R128). -/
def branchTarget (pc : W64) (off : W32) : W64 := pc + off.signExtend 64 * 8

/-- The link of CALL: the next word's address in the pair of D (R128). -/
def linkTo (d : Reg) (pc : W64) (t : Thread) : Thread := t.setRun d.toNat 2 (pc + 8).toNat

/-- The target that BRX and RET take from B (R129). -/
def regTarget (f : TgtF) (gr : Group) (t : Thread) : W64 :=
  if f.bs then gr.getS f.b.toNat else BitVec.ofNat 64 (t.getRun f.b.toNat 2)

/-- EXIT (R132, R165, R405). -/
def exitBody (w : Wd) : Res :=
  if w.gr.handler.isSome then Res.trap w.s cFORBIDDEN_HERE 0x12 0 w.acting
  else
    { Res.done (retire (w.s.modLanes w.g w.acting fun _ t => { t with exited := true }) w.g.team) with stay := w.acting }

def execBra (f : BrF) (s : State) :=
  runWord (.bra f) (fun w => transfer f.u false (fun _ => branchTarget w.pc f.off) id w) s
def execBrx (f : TgtF) (s : State) := runWord (.brx f) (fun w => transfer f.u f.bs (regTarget f w.gr) id w) s
def execCall (f : BrF) (s : State) :=
  runWord (.call f) (fun w => transfer f.u false (fun _ => branchTarget w.pc f.off) (linkTo f.d w.pc) w) s
def execRet (f : TgtF) (s : State) := runWord (.ret f) (fun w => transfer f.u f.bs (regTarget f w.gr) id w) s
def execExit (g : Guard) (s : State) := runWord (.exit g) exitBody s
/-- YIELD gives up the pipe's next choice (R133, R160). -/
def execYield (g : Guard) (s : State) :=
  runWord (.yield g) (fun w => Res.done (w.s.modGroup w.g fun x => { x with yielded := true })) s
def execNop (g : Guard) (s : State) := runWord (.nop g) (fun w => Res.done w.s) s
def execBpt (f : CodeF) (s : State) :=
  runWord (.bpt f) (fun w => Res.trap w.s cBREAKPOINT f.code.toNat 0 w.acting) s
def execTrap (f : CodeF) (s : State) :=
  runWord (.trap f) (fun w => Res.trap w.s cSOFTWARE_TRAP f.code.toNat 0 w.acting) s

end Sys2Proof.Machine
end

