-- ==== Sys2Proof/Machine/Convert.lean ====
section
/-! DEFINITION. The meanings of the conversion and packing words (R57 to R62, R122 to R125). -/

namespace Sys2Proof.Machine

/-- An integer type. -/
def tyIsInt : Ty → Bool
  | .i8 | .i16 | .i32 | .i64 | .n8 | .n16 | .n32 | .n64 => true
  | _ => false

/-- The value of a source of a conversion (R57). -/
def convSource (ty : Ty) (ctl : FpCtl) (n : Nat) : FVal :=
  if ty = .e8m0 then ofE8m0 n
  else if tyIsInt ty then ofInteger (valueOf ty.signed ty.width n)
  else fin ty ctl n

/-- CVT from a source type to a destination type (R122). -/
def convVal (td ts : Ty) (mode : Mode) (sat : Bool) (ctl : FpCtl) (n : Nat) : FRes :=
  if tyIsInt td && tyIsInt ts then intToInt sat td.signed td.width (valueOf ts.signed ts.width n)
  else
    let v := convSource ts ctl n
    if tyIsInt td then toInteger mode td.signed td.width v
    else if td = .e8m0 then toE8m0 mode v
    else convertTo (fmtD td) mode sat (flushOf ctl (fmtD td)) v

def convert (td ts : Ty) (rnd : Rnd) (sat : Bool) (x : AluIn) : AluOut :=
  outF (convVal td ts (modeOf rnd x.ctl) sat x.ctl x.a)

/-- The width of an element of a packing type. -/
def qWidth (ty : Ty) : Nat := ty.width

/-- Elements 2k and 2k + 1 of a register replaced; bits 31 to 24 are 0 for 6-bit types (R123). -/
def packInto (w k old lo hi : Nat) : Nat :=
  ofBits (if w = 6 then 24 else 32) fun i =>
    if i / w = 2 * k then bit lo (i % w) else if i / w = 2 * k + 1 then bit hi (i % w) else bit old i

/-- QPACK (R123). -/
def qpack (ty : Ty) (rnd : Rnd) (sat : Bool) (k : Nat) (x : AluIn) : AluOut :=
  let lo := convVal ty .f32 (modeOf rnd x.ctl) sat x.ctl x.a
  let hi := convVal ty .f32 (modeOf rnd x.ctl) sat x.ctl x.b
  ⟨packInto (qWidth ty) k x.d lo.bits hi.bits, [], lo.fl ||| hi.fl⟩

/-- QUNPK (R124). -/
def qunpk (ty : Ty) (k : Nat) (x : AluIn) : AluOut :=
  let lo := convVal .f32 ty (FpCtl.mode x.ctl) false x.ctl (bitsAt x.a (2 * k) (qWidth ty))
  let hi := convVal .f32 ty (FpCtl.mode x.ctl) false x.ctl (bitsAt x.a (2 * k + 1) (qWidth ty))
  ⟨lo.bits + 2 ^ 32 * hi.bits, [], lo.fl ||| hi.fl⟩

/-- The mode of MXQ: RND 0 selects RN (R125). -/
def mxqMode (r : Rnd) : Mode :=
  match r with
  | .ctl => .rn
  | .rn => .rn
  | .rz => .rz
  | .rd => .rd
  | .ru => .ru

/-- MXQ's scale, packed elements and flags (R62, R125). -/
def mxqVal (ty : Ty) (rnd : Rnd) (ctl : FpCtl) (src : Nat) : Nat × Nat × Fl :=
  let vals := (List.range 32).map fun i => fin .f32 ctl (bitsAt src i 32)
  let r := mxQuantise (fmtD ty) (mxqMode rnd) vals
  (r.1, packElems ty.width r.2.1, r.2.2)

/-- MXQ in the acting lanes: the run and the scale in v(C) (R125). Which stands where C lies in the run is open. -/
def mxqBody (f : RegF) (w : Wd) : Res :=
  Res.done (w.s.modLanes w.g w.acting fun _ t =>
    let r := mxqVal f.ty f.rnd t.fpctl (t.getRun f.a.toNat 32)
    let scale (u : Thread) : Thread := u.setV f.c.toNat (BitVec.ofNat 32 r.1)
    let elems (u : Thread) : Thread := u.setRun f.d.toNat (mxRegs f.ty) r.2.1
    (if Config.mxqScaleLast then scale (elems t) else elems (scale t)).orFlags r.2.2)

/-- The source type of CVT (R122). -/
def cvtSource (f : RegF) : Ty := (Ty.ofCode f.aux.toNat).getD .i8

def execCvt (f : RegF) (s : State) := runAlu (.cvt f) (convert f.ty (cvtSource f) f.rnd f.sat) s
def execQpack (f : RegF) (s : State) := runAlu (.qpack f) (qpack f.ty f.rnd f.sat f.op.toNat) s
def execQunpk (f : RegF) (s : State) := runAlu (.qunpk f) (qunpk f.ty f.op.toNat) s
def execMxq (f : RegF) (s : State) := runWord (.mxq f) (mxqBody f) s

end Sys2Proof.Machine
end

