-- ==== Sys2Proof/Machine/TxEvents.lean ====
section
/-! DEFINITION. The events of transactions: commit rounds, cairns, ordered commits, irrevocable begins and the issue limit (R305, R308 to R318). -/

namespace Sys2Proof.Machine

/-- A lane parked at TXCOMMIT in a logged transaction (R308). -/
def atCommit (gr : Group) (l : Nat) : Bool :=
  match gr.lane? l with
  | some t => t.logged && match t.park with
    | some (.commit _) => true
    | _ => false
  | none => false

/-- A lane's mode is ordered. -/
def inOrdered (gr : Group) (l : Nat) : Bool :=
  (((gr.lane? l).bind Thread.tx).map fun x => x.mode == .ordered).getD false

/-- The round that stopped waits for its aborted lane to reach TXCOMMIT again (R317); it does not wait for one that runs
irrevocably (R308, R318). -/
def roundStopped (gr : Group) : Bool :=
  match gr.stop with
  | some l => !atCommit gr l && !((gr.lane? l).map Thread.irrev).getD false
  | none => false

/-- The participants of the round that a group can start: every logged lane stands at TXCOMMIT, and none of them takes part
in a round that is still open (R308, R317). -/
def participants (gr : Group) : List Nat :=
  let logged := (List.range 32).filter fun l => ((gr.lane? l).map Thread.logged).getD false
  if logged.all (atCommit gr) then
    logged.filter fun l => !bit gr.ordered.toNat l && !(inOrdered gr l && roundStopped gr)
  else []

/-- The consecutive abort count of a lane. -/
def abortsOf (gr : Group) (l : Nat) : Nat := ((gr.lane? l).map fun t => t.txlog.aborts).getD 0

/-- The order of the conflict unit (R309). -/
def conflictOrder (gr : Group) (ls : List Nat) : List Nat :=
  sortBy (fun a b => abortsOf gr b < abortsOf gr a || (abortsOf gr a == abortsOf gr b && a ≤ b)) ls

/-- The words a lane reads and writes (R301). -/
def readsOf (gr : Group) (l : Nat) : List Nat := (((gr.lane? l).bind Thread.tx).map fun x => x.rd.map RdEnt.key).getD []
def writesOf (gr : Group) (l : Nat) : List Nat := (((gr.lane? l).bind Thread.tx).map fun x => x.wr.map WrEnt.key).getD []

/-- The conflict unit (R309): the winners in order, and each loser with the winner it met first. -/
def conflicts (gr : Group) : List Nat → List Nat → List (Nat × Nat) → List Nat × List (Nat × Nat)
  | [], ws, ls => (ws, ls)
  | l :: rest, ws, ls =>
    match ws.find? fun w => (writesOf gr l).any fun k => (readsOf gr w).contains k || (writesOf gr w).contains k with
    | some w => conflicts gr rest ws (ls ++ [(l, w)])
    | none => conflicts gr rest (ws ++ [l]) ls

/-- The lines of a lane's footprint (R310). -/
def footprintOf (gr : Group) (l : Nat) : List Nat := ((readsOf gr l ++ writesOf gr l).map lineOf).eraseDups

/-- The order in which a cairn visits lines: by home, then by address (R310). -/
def lineBefore (a b : Nat) : Bool :=
  homeId (a * 128) < homeId (b * 128) || (homeId (a * 128) == homeId (b * 128) && keyAddr (a * 128) ≤ keyAddr (b * 128))

/-- The lines of a cairn of some lanes, in its order. -/
def cairnRoute (gr : Group) (ls : List Nat) : List Nat := sortBy lineBefore (ls.flatMap (footprintOf gr)).eraseDups

/-- A cairn sent (R310). -/
def sendCairn (s : State) (g : GRef) (gr : Group) (ls : List Nat) (ordered : Bool) : State :=
  let n := s.newId
  (n.2.setCairns (amPut n.2.cairns n.1 ⟨g, ls, ordered, [], cairnRoute gr ls, false⟩)).countDie (coreDie n.2 g) 0x06 1
where
  coreDie (s : State) (g : GRef) : Nat := ((s.team? g.team).map Team.core).getD 0 / 32

/-- A group that may start a round: on its core, with no trap and no cairn of it waiting (R308, R395). -/
def mayRound (s : State) (g : GRef) (gr : Group) : Bool :=
  gr.pendTrap.isNone && ((s.team? g.team).map Team.resident).getD false &&
    s.cairns.all fun c => c.2.g != g

/-- A commit round starts (R308, R309, R314): hold counts of the other lanes fall, the losers of the conflict unit abort, the
winners leave as one cairn, and ordered participants wait for their turn. -/
def execCommitRound (g : GRef) (s : State) : Host.Outcome State Fault Refusal :=
  .next (match s.group? g with
    | none => s
    | some gr =>
      let ps := participants gr
      if ps = [] || !mayRound s g gr then s
      else
        let one := ps.filter fun l => !inOrdered gr l
        let many := ps.filter fun l => inOrdered gr l
        let r := conflicts gr (conflictOrder gr one) [] []
        let s1 := s.modGroup g fun x => { x with
          ordered := x.ordered ||| maskOf many, stop := if many = [] then x.stop else none
          lanes := x.lanes.mapIdx fun l t => if ps.contains l then t else t.lowerHold 1 }
        let s2 := r.2.foldl (fun st v => abortLane st g v.1 1 v.2) s1
        if r.1 = [] then s2 else sendCairn s2 g gr r.1 false)

/-- A lane leaves a cairn with an abort; the lines that no remaining lane needs are unlocked at once (R310). An ordered one
ends its round (R317). -/
def loseLane (id : Nat) (c : Cairn) (s : State) (l code sub : Nat) : State :=
  let s1 := if c.ordered then
      (abortLane s c.g l (if code = 2 then 0x0A else code) sub).modGroup c.g fun x => { x with ordered := 0, stop := some l }
    else abortLane s c.g l code sub
  match amGet s1.cairns id, s1.group? c.g with
  | some k, some gr =>
    let ls := k.lanes.filter fun x => x ≠ l
    let need := cairnRoute gr ls
    if ls = [] then
      whileRunning ((s1.setCairns (amDel s1.cairns id)).setLocks (s1.locks.filter fun x => x.2 != id)) c.g Group.letBegin
    else
      (s1.setCairns (amPut s1.cairns id { k with
        lanes := ls, lines := k.lines.filter need.contains, todo := k.todo.filter need.contains })).setLocks
        (s1.locks.filter fun x => x.2 != id || need.contains x.1)
  | _, _ => s1

/-- A read entry validates (R312). A word in error never does; the error is reported. -/
def validates (s : State) (mode : TxMode) (e : RdEnt) : Bool :=
  !inError s e.key &&
  if mode = .value then BitVec.ofNat 64 (memNat s.mem e.key 8) == e.data
  else stampOf s e.key e.e == e.stamp && s.time.datum < e.datum + 2 ^ 47

/-- The lanes of a cairn whose footprint holds a line. -/
def lanesAt (gr : Group) (c : Cairn) (line : Nat) : List Nat := c.lanes.filter fun l => (footprintOf gr l).contains line

/-- The lanes with a read entry in the line that does not validate. -/
def invalidAt (s : State) (gr : Group) (c : Cairn) (line : Nat) : List Nat :=
  c.lanes.filter fun l => match (gr.lane? l).bind Thread.tx with
    | some x => x.rd.any fun e => lineOf e.key == line && !validates s x.mode e
    | none => false

/-- Sectors in error that a line's validation read. -/
def reportReads (s : State) (gr : Group) (c : Cairn) (line : Nat) : State :=
  c.lanes.foldl (fun st l => match (gr.lane? l).bind Thread.tx with
    | some x => x.rd.foldl (fun u e => if lineOf e.key = line ∧ inError u e.key then report u (.sector (sectorOf e.key)) else u) st
    | none => st) s

/-- The sectors of a line that validation reads again at their home: those of the words that are compared by value (R312). -/
def validated (gr : Group) (c : Cairn) (line : Nat) : List (Nat × Nat) :=
  (c.lanes.flatMap fun l => match (gr.lane? l).bind Thread.tx with
    | some x => if x.mode = .value then (x.rd.filter fun e => lineOf e.key == line).map fun e => (sectorOf e.key * 64, e.e) else []
    | none => []).eraseDups

/-- A cairn's reads at a line, or its writes there, find room in the caches (R243). -/
def cairnRoom (s : State) (gr : Group) (c : Cairn) (line : Nat) : Bool :=
  if c.passed then [2 * line, 2 * line + 1].all fun sec => (cairnEntries s c sec).all fun e => hasRoom s (sec * 64) e.e
  else (validated gr c line).all fun x => hasRoom s x.1 x.2

/-- The lanes of a cairn have committed; the commit is an acquire at .sys (R295, R311). -/
def commitLanes (s : State) (id : Nat) (c : Cairn) : State :=
  let s1 := (s.setCairns (amDel s.cairns id)).setLocks (s.locks.filter fun x => x.2 != id)
  let s2 := if c.ordered then
      c.lanes.foldl (fun st l => match (st.lane? c.g l).bind fun t => t.txlog.owed with
        | some h => raiseCursor st h
        | none => st) s1
    else s1
  let core := ((s2.team? c.g.team).map Team.core).getD 0
  let s3 := s2.modGroup c.g fun x =>
    let x1 := x.modLanes c.lanes fun _ t => match t.park with
      | some (.commit d) => { t.commit d c.ordered with park := none, pc := t.pc + 8 }
      | _ => t
    { x1 with ordered := if c.ordered then x.ordered &&& ~~~(maskOf c.lanes) else x.ordered }
  (l1Clear (whileRunning s3 c.g Group.letBegin) core).countCore core 0x08 c.lanes.length

/-- The first pass at one line (R310): the line's home must serve, another cairn's lock makes its lanes busy, or an ordered
cairn wait; then the line is locked and its entries are validated, by reads that the caches note (R236, R237). -/
def firstPass (s : State) (id : Nat) (c : Cairn) (gr : Group) (line : Nat) (rest : List Nat) : State :=
  let key := line * 128
  let next := s.setCairns (amPut s.cairns id { c with todo := rest })
  if keyHome key ≤ 7 && !s.dieUp (keyHome key) then
    (lanesAt gr c line).foldl (fun st l => loseLane id c st l 7 cHOME_UNAVAILABLE) next
  else match amGet s.locks line with
  | some _ => if c.ordered then s else (lanesAt gr c line).foldl (fun st l => loseLane id c st l 3 0) next
  | none =>
    let s1 := (s.setCairns (amPut s.cairns id { c with todo := rest, lines := c.lines ++ [line] })).setLocks
      (amPut s.locks line id)
    let s2 := (validated gr c line).foldl (fun st x => touchRead st x.1 x.2 (pteEvp x.2)) s1
    (invalidAt s gr c line).foldl (fun st l => loseLane id c st l 2 0) (reportReads s2 gr c line)

/-- A cairn at its next line (R310, R311): in its first pass it locks and validates, in the second it writes and unlocks;
between them lies the commit instant. It waits where its line finds no room in the caches (R243). -/
def execCairn (g : GRef) (s : State) : Host.Outcome State Fault Refusal :=
  .next (match s.cairns.find? fun c => c.2.g == g, s.group? g with
    | some (id, c), some gr =>
      match c.todo with
      | line :: rest =>
        if !cairnRoom s gr c line then s
        else if c.passed then (cairnLine c s line).setCairns (amPut s.cairns id { c with todo := rest }) else firstPass s id c gr line rest
      | [] =>
        if c.passed then commitLanes s id c
        else s.setCairns (amPut s.cairns id { c with passed := true, todo := c.lines })
    | _, _ => s)

/-- The ordered participant with the lowest index (R317). DESIGN CHOICE (log 147): of participants of different domains with equal ITER,
between which R317 gives no order, the lowest lane. -/
def nextOrdered (gr : Group) : Option Nat :=
  (sortBy (fun a b => ((gr.lane? a).map fun t => t.txlog.iter.toNat).getD 0 ≤ ((gr.lane? b).map fun t => t.txlog.iter.toNat).getD 0)
    (lanesOf gr.ordered)).head?

/-- The ordered participant with the lowest index sends its cairn once its ITER equals its domain's CURSOR (R317). -/
def execOrderedCommit (g : GRef) (s : State) : Host.Outcome State Fault Refusal :=
  .next (match s.group? g with
    | none => s
    | some gr => match nextOrdered gr with
      | none => s
      | some l =>
        let due := ((gr.lane? l).map (cursorAt s)).getD false
        if due && atCommit gr l && mayRound s g gr then sendCairn s g gr [l] true else s)

/-- A lane that overflowed its log begins irrevocably once CURSOR reaches its index (R318): an acquire at .sys. -/
def execIrrevocableBegin (g : GRef) (lane : Nat) (s : State) : Host.Outcome State Fault Refusal :=
  .next (match s.lane? g lane, s.team? g.team with
    | some t, some tm =>
      match t.park with
      | some (.irrevocable d p) =>
        if cursorAt s t && tm.resident then
          (l1Clear s tm.core).modLane g lane fun x =>
            { (x.begin .irrevocable d x.pc).setP p.toNat true with park := none, pc := x.pc + 8 }
        else s
      | _ => s
    | _, _ => s)

/-- A transactional lane's 65,536th issue (R305): it aborts with FAULT and WATCHDOG at the word it would issue. -/
def execWatchdog (g : GRef) (lane : Nat) (s : State) : Host.Outcome State Fault Refusal :=
  .next (match s.lane? g lane with
    | some t => match t.tx with
      | some x =>
        if x.mode != .irrevocable && 65535 ≤ x.issues && t.park.isNone then abortLane s g lane 7 cWATCHDOG else s
      | none => s
    | none => s)

end Sys2Proof.Machine
end

