-- ==== Sys2Proof/Machine/Devices.lean ====
section
/-! DEFINITION. Stopping and starting dies: core reset, warm die reset, the proxy's answers, thermal trips and throttling, module reset and the admission of dies (R426, R449 to R452, R464, R465, R469 to R471, R475). -/

namespace Sys2Proof.Machine

/-- A team resident on stopped cores ends (R449): frames and its stake break with DIE_LOST, and a grid that loses a team, or its
final application, completes with DIE_LOST. -/
def loseTeam (die : Nat) (s : State) (id : Nat) : State :=
  match s.team? id with
  | none => s
  | some t =>
    if t.phase = .ended then s
    else match t.work with
    | some w => match w.owner with
      | some _ => s
      | none =>
        let s1 := breakFrame (endMerge s id) w.frame 0x62
        let s2 := match (amGet s1.frames w.frame).bind Frame.sync with
          | some (.grid g) => gridStatus s1 g 7 die
          | _ => s1
        s2.setFrames (amMod s2.frames w.frame fun f => { f with job := none })
    | none => endTeam (if t.kind = .grid then gridStatus s t.grid 7 die else s) id 0x62 0x62 0

/-- The teams resident on a die's cores. -/
def residents (s : State) (die : Nat) : List Nat := (s.teams.filter fun t => t.2.resident && t.2.core / 32 == die).map Prod.fst

/-- A core reset of a die (R449): its cores stop and their teams end; nothing else changes. -/
def resetCores (s : State) (die : Nat) : State :=
  let s1 := (residents s die).foldl (loseTeam die) s
  (coresOf s1 die).foldl (fun st c => st.modCore c fun x => { x with running := false, l1 := [], icache := [] }) s1

/-- The cores of a die run again, CLOCKS from 0, their caches empty (R449; log 89). -/
def restartCores (s : State) (die : Nat) : State :=
  (coresOf s die).foldl (fun st c => st.modCore c fun x =>
    if x.running then x else { x with running := true, clkBase := st.time.clk, l1 := [], icache := [] }) s

/-- A core of a die that is stopped. -/
def coresStopped (s : State) (die : Nat) : Bool := (coresOf s die).any fun c => !(s.core c).running

/-- CORE_RESET (R449). The cores stay stopped until THERMAL_RELEASE or the die's re-admission starts them. -/
def execCoreReset (die : Nat) (s : State) : Host.Outcome State Fault Refusal :=
  .next (if 8 ≤ die ∨ !s.dieUp die ∨ coresStopped s die then s else resetCores s die)

/-! ### Warm die reset -/

/-- What a cairn does at the instant Q (R450 step 1): past its first pass it finishes on the die; otherwise its lanes with a line
there abort. -/
def quiesceCairn (die : Nat) (s : State) (id : Nat) : State :=
  match amGet s.cairns id with
  | none => s
  | some c =>
    let here (line : Nat) : Bool := keyHome (line * 128) == die
    if c.passed then
      ((c.todo.filter here).foldl (cairnLine c) s).setCairns (amPut s.cairns id { c with todo := c.todo.filter fun l => !here l })
    else match s.group? c.g with
      | some gr => (c.lanes.filter fun l => (footprintOf gr l).any here).foldl (fun st l => loseLane id c st l 7 cHOME_UNAVAILABLE) s
      | none => s

/-- An access to the die is performed before Q (R450 step 1). -/
def performBefore (s : State) (id : Nat) : State :=
  match amGet s.pend id with
  | some a =>
    let s1 := s.setPend (amDel s.pend id)
    retire ((performAccess s1 a).getD (report s1 (.sector (sectorOf a.key)))) a.g.team
  | none => s

/-- The stakes whose resolution entry or result slot stands in a core's table. -/
def stakesAt (s : State) (core : Nat) : List (Nat × Nat) :=
  (s.core core).stakes.filterMap fun x => match x.2.use with
    | some (.resolution _ _ _ _) => some (core, x.1)
    | some (.result i k _) => some (i, k)
    | none => none

/-- An invocation that waits on the lost die for its handler (R432, R450): one that was let through there breaks as those that wait on
its broken stake do (R191, R469). -/
def loseInvocation (s : State) (id : Nat) : State :=
  settleInv s id (if ((amGet s.invs id).map fun i => i.via != 0).getD false then .broken 0x64 0 0x62 else .broken 0x62 0 0)

/-- Frames homed on the die, and frames with a child there, break (R450 step 4). A task that waits in the die's pool is a child
that ends. -/
def loseFrames (s : State) (die : Nat) : State :=
  let pool := (s.die die).pool
  let s1 := (s.frames.filter fun f => f.2.va.toNat / 2 ^ 60 == die ||
      s.teams.any fun t => t.2.core / 32 == die && (t.2.parent.map Prod.fst) == some f.1).foldl (fun st f => breakFrame st f.1 0x62) s
  let s2 := pool.foldl (fun st k =>
    let x := breakFrame st k.frame 0x62
    x.setFrames (amMod x.frames k.frame fun f => { f with cursor := f.cursor + 1 })) s1
  s2.modDie die fun d => { d with pool := [] }

/-- Step 4 of R450. -/
def loseWork (s : State) (die : Nat) : State :=
  let s1 := ((coresOf s die).flatMap (stakesAt s)).foldl (fun st x => loseStake st x.1 x.2 0x62) s
  let s2 := ((s1.invs.filter fun i => i.2.device.isNone && i.2.arrived.isSome && i.2.die == die).map Prod.fst).foldl loseInvocation s1
  loseFrames s2 die

/-- Every dirty L2 sector of the die is written to its stack; the memory-side cache keeps its contents (R450 step 2). -/
def writeStack (s : State) (die : Nat) : State :=
  let lines := (amKeys s.l2).filter fun k => keyHome (k * 128) == die
  lines.foldl (fun st k =>
    let x := dropL2 st k
    (lineSectors k 2).foldl writebackMsc x) s

/-- A tree with a router or a contributor on a die (R450 step 5). -/
def treeOn (die : Nat) (t : Tree) : Bool := t.links.any (fun l => l.1 < 384 && l.1 / 48 == die) || t.cores.any fun c => c / 32 == die

/-- A warm reset of a die in service (R450, steps 1 to 5), logged with KIND 7 (R462). DEDUCED (log 150): R450 gives the steps an order
and a longest time; here nothing comes between them, so that no message is held between Q and step 4 (R469). -/
def warmReset (s : State) (die : Nat) : State :=
  let s1 := resetCores (logEvent s die (Config.resetChannel die % 115) 7 0xFFFF 0 0) die
  let s2 := (s1.cairns.map Prod.fst).foldl (quiesceCairn die) s1
  let s3 := ((s2.pend.filter fun a => !a.2.remote && keyHome a.2.key == die).map Prod.fst).foldl performBefore s2
  let s4 := breakTrees (writeStack (loseWork s3 die) die) true (treeOn die)
  s4.modDie die fun d => { d with st := .resetting }

/-- A command waits for a die's reset to end (R475). -/
def waitReset (s : State) (die queue : Nat) (c : Cmd) : State :=
  popCmd (s.modDie die fun d => { d with waiters := d.waiters ++ [(queue, c.tag)] }) queue

/-- DIE_RESET (R475): it starts a warm reset of a die in service, or joins or starts one of a die that is out of service. -/
def execDieReset (queue : Nat) (s : State) : Host.Outcome State Fault Refusal :=
  .next (match headCmd s queue 7 with
    | none => s
    | some c =>
      let d := c.arg0.toNat
      waitReset (if s.dieUp d then warmReset s d else if (s.die d).st = .off then resetCores s d else s) d queue c)

/-- The channel of a router in its die's log: its built core's, or its slice's (R424, R462). -/
def routerChannel (r : Nat) : Nat := if r / 8 < 2 then 80 + r else if r / 8 < 4 then 64 + (r - 16) else 80 + (r - 16)

/-- A router fails while its die runs (R426, R450, R462). -/
def execRouterFailure (die router : Nat) (s : State) : Host.Outcome State Fault Refusal :=
  .next (if 8 ≤ die ∨ 48 ≤ router ∨ !s.dieUp die then s
    else warmReset ((logEvent s die (routerChannel router) 6 0xFFFF 0 0).modDie die fun d => { d with failing := router :: d.failing }) die)

/-- The routers that failed before a reset are marked at its end (R426). -/
def markFailed (s : State) (die : Nat) : State :=
  s.modDie die fun d => { d with failed := (d.failing ++ d.failed).eraseDups, failing := [] }

/-- An uncorrectable error in a die's fabric (R450). -/
def execFabricError (die : Nat) (s : State) : Host.Outcome State Fault Refusal :=
  .next (if 8 ≤ die ∨ !s.dieUp die then s else warmReset s die)

/-- The commands that waited for a die's reset complete (R471, R475). -/
def completeWaiters (s : State) (die status : Nat) : State :=
  let ws := (s.die die).waiters
  ws.foldl (fun st w => complete st w.1 w.2 status (if status = 0 then 0 else die) 0) (s.modDie die fun d => { d with waiters := [] })

/-- A completion that waits for a die's reset cannot be written yet (R243, R294). -/
def waitersHeld (s : State) (die : Nat) : Bool := (s.die die).waiters.any fun w => completeWaits s w.1 (s.die die).waiters.length

/-- The end of a warm reset (R450 step 6, R451, R471): the die is admitted again with its horizons at DATUM, or is lost. -/
def execDieReadmission (die : Nat) (ok : Bool) (s : State) : Host.Outcome State Fault Refusal :=
  .next (if 8 ≤ die ∨ s.dieUp die ∨ ((s.die die).st ≠ .resetting ∧ (s.die die).waiters = []) ∨ waitersHeld s die then s
    else if ok then
      let s1 := (raiseHorizons (markFailed s die) die).modDie die fun d => { d with st := .up, lastCore := 31 }
      completeWaiters (if s.sys.tripped then s1 else restartCores s1 die) die 0
    else completeWaiters ((markFailed s die).modDie die fun d => { d with st := if d.st = .resetting then .lost else d.st }) die 7)

/-- The proxy of a die out of service answers a message for it (R450). -/
def proxyAnswer (s : State) (msg : Nat) : State :=
  match amGet s.msgs msg with
  | none => s
  | some m =>
    let gone (die : Nat) : Bool := die < 8 && !s.dieUp die
    match m.kind with
    | .place inv => match amGet s.invs inv with
      | some i => if gone i.die then settleInv (s.setMsgs (amDel s.msgs msg)) inv (.broken 0x62 0 0) else s
      | none => s
    | .arrival _ _ _ _ => s
    | _ =>
      if stakeDevice m.stake ≠ s.sys.device || m.landed || !gone (stakeDie m.stake) || overtakes s msg m then s
      else proxied s msg m

def execProxyAnswer (index : Nat) (s : State) : Host.Outcome State Fault Refusal := .next (proxyAnswer s index)

/-! ### The start -/

/-- Module reset (R452): stage A again. The host's and the peers' memory, the sensors and the fused rollback counter stand; the
agenda and the model's counters go on. -/
def execModuleReset (s : State) : Host.Outcome State Fault Refusal :=
  .next { State.reset with
    agenda := s.agenda, free := s.free, fresh := s.fresh, mem := s.mem.filter (fun c => memKey 9 0 ≤ c.1)
    sys := { Sys.init with rollback := s.sys.rollback, sensors := s.sys.sensors } }

/-- The start stops at its stage (R452, R453). -/
def startFails (s : State) (code : Nat) : State := s.setSys { s.sys with fail := true, failcode := code }

/-- Training and test of the links and stacks end stage B (R452, R453). -/
def execTrainingComplete (iod1 : Bool) (s : State) : Host.Outcome State Fault Refusal :=
  .next (if s.sys.stage ≠ 1 ∨ s.sys.fail then s
    else if iod1 then s.setSys { s.sys with stage := 2, nextDie := 0 } else startFails s 4)

/-- Stage D begins (R452): the command processors accept the commands that have been announced. -/
def beginStageD (s : State) : State :=
  (amKeys s.queues).foldl readRing (s.setSys { s.sys with stage := 3 })

/-- A compute die is admitted in stage C, in its turn, or stays out of service (R452); the result of the admission is kept for the
measurements (R455). With the last one stage D begins. -/
def execDieAdmission (die : Nat) (ok : Bool) (s : State) : Host.Outcome State Fault Refusal :=
  .next (if s.sys.stage ≠ 2 ∨ s.sys.fail ∨ die ≠ s.sys.nextDie ∨ 8 ≤ die then s
    else
      let s0 := if ok then s.modDie die fun d => { d with st := .up, lastCore := 31 } else s
      let s1 := (if ok && !s.sys.tripped && coresStopped s0 die then restartCores s0 die else s0).setSys
        { s.sys with nextDie := die + 1, admitted := s.sys.admitted + if ok then 2 ^ die else 0 }
      if die < 7 then s1
      else if (List.range 8).any s1.dieUp then beginStageD s1 else startFails s1 3)

/-! ### Power and cooling -/

/-- The core clock steps by 50 MHz, between 950 MHz and 1,900 MHz (R464). -/
def execThrottle (up : Bool) (s : State) : Host.Outcome State Fault Refusal :=
  .next (s.setSys { s.sys with mhz :=
    if up then (if s.sys.mhz + 50 ≤ 1900 then s.sys.mhz + 50 else s.sys.mhz) else if 1000 ≤ s.sys.mhz then s.sys.mhz - 50 else s.sys.mhz })

/-- A thermal trip (R465): a core reset of every compute die, logged with KIND 7 on each; they are held until the release. -/
def execThermalTrip (s : State) : Host.Outcome State Fault Refusal :=
  .next (if s.sys.tripped then s
    else
      let s1 := (List.range 8).foldl (fun st d =>
        resetCores (logEvent st d (Config.resetChannel d % 115) 7 0xFFFF 0 0) d) s
      s1.setSys { s1.sys with tripped := true })

/-- Every die is below 90 °C: the stopped cores start again (R465). -/
def execThermalRelease (s : State) : Host.Outcome State Fault Refusal :=
  .next ((List.range 8).foldl (fun st d => if st.dieUp d then restartCores st d else st)
    (s.setSys { s.sys with tripped := false }))

end Sys2Proof.Machine
end

