-- ==== Sys2Proof/Machine/Jiath.lean ====
section
/-! DEFINITION. The Jiath ports: the compression of what they send, flits received, ports taken down, training, and the loss of a peer (R430 to R435, R452). -/

namespace Sys2Proof.Machine

/-- The words of a block (R435). -/
def blockWords (bs : List Byte) : List Nat := (List.range 32).map fun i => ofBytes ((bs.drop (8 * i)).take 8)

/-- The code of a word after the two words before it: the first that applies, in the order 1, 2, 3, 0 (R435). -/
def wordCode (w : Nat) (p q : Option Nat) : Nat := if w = 0 then 1 else if p = some w then 2 else if q = some w then 3 else 0

/-- The codes of a block's words, the word before and the word before that given. -/
def wordCodes : List Nat → Option Nat → Option Nat → List Nat
  | [], _, _ => []
  | w :: ws, p, q => wordCode w p q :: wordCodes ws (some w) p

/-- The coded form of a block (R435): its flag, its map and its literals. -/
def codedBlock (bs : List Byte) : List Byte :=
  let ws := blockWords bs
  let cs := wordCodes ws none none
  1#8 :: toBytes 8 (packElems 2 cs) ++ ((List.zip ws cs).filter fun x => x.2 == 0).flatMap fun x => toBytes 8 x.1

/-- The literal words of a block. -/
def literals (bs : List Byte) : Nat := ((wordCodes (blockWords bs) none none).filter fun c => c == 0).length

/-- A block of 256 bytes as a port sends it (R435). -/
def sendBlock (bs : List Byte) : List Byte := if literals bs ≤ 30 then codedBlock bs else 0#8 :: bs

/-- The blocks of a message as a port sends them, and the rest unchanged (R435). -/
def sendBlocks : Nat → List Byte → List Byte
  | 0, bs => bs
  | n + 1, bs => sendBlock (bs.take 256) ++ sendBlocks n (bs.drop 256)

/-- A message's data as a port sends it. -/
def compress (bs : List Byte) : List Byte := sendBlocks (bs.length / 256) bs

/-- The words of a coded block, with what follows it (R435): none for an invalid code or missing bytes. -/
def readWords : Nat → Nat → Option Nat → Option Nat → List Byte → Option (List Nat × List Byte)
  | 0, _, _, _, bs => some ([], bs)
  | n + 1, map, p, q, bs =>
    let next (w : Nat) (rest : List Byte) : Option (List Nat × List Byte) :=
      (readWords n (map / 4) (some w) p rest).map fun r => (w :: r.1, r.2)
    match map % 4 with
    | 0 => if bs.length < 8 then none else next (ofBytes (bs.take 8)) (bs.drop 8)
    | 1 => next 0 bs
    | 2 => p.bind fun w => next w bs
    | _ => q.bind fun w => next w bs

/-- One block read from what a port received (R435): none for another flag. -/
def readBlock (bs : List Byte) : Option (List Byte × List Byte) :=
  match bs with
  | [] => none
  | f :: rest =>
    if f = 0#8 then if rest.length < 256 then none else some (rest.take 256, rest.drop 256)
    else if f = 1#8 then
      if rest.length < 8 then none
      else (readWords 32 (ofBytes (rest.take 8)) none none (rest.drop 8)).map fun r => (r.1.flatMap (toBytes 8), r.2)
    else none

/-- `n` blocks and a last part of `tail` bytes. -/
def readBlocks : Nat → Nat → List Byte → Option (List Byte)
  | 0, tail, bs => if bs.length = tail then some bs else none
  | n + 1, tail, bs => (readBlock bs).bind fun b => (readBlocks n tail b.2).map fun r => b.1 ++ r

/-- The data of a message of a known length as it was before compression (R435). -/
def decompress (len : Nat) (bs : List Byte) : Option (List Byte) := readBlocks (len / 256) (len % 256) bs

/-- A flit arrives (R433 to R435). One that fails FEC, CRC or decompression is replayed: nothing is delivered yet. An idle flit
carries no data. -/
def execFlitReceive (port dev len : Nat) (ok : Bool) (payload : List Byte) (s : State) : Host.Outcome State Fault Refusal :=
  .next (match amGet s.sys.jports port, amGet s.sys.peers dev, decompress len payload with
    | some p, some d, some bs =>
      if !p.trained || p.down || !d.present || d.lost || !ok then s
      else s.setSys { s.sys with
        jports := if bs = [] then s.sys.jports else amPut s.sys.jports port { p with rx := p.rx ++ [bs] }
        peers := amPut s.sys.peers dev { d with lastFlit := s.time.datum } }
    | _, _, _ => s)

/-- A port whose replays fail is taken down, and the event logged (R433, R462). -/
def execPortDown (port : Nat) (s : State) : Host.Outcome State Fault Refusal :=
  .next (match amGet s.sys.jports port with
    | some p =>
      if !p.trained || p.down then s
      else
        let s1 := logEvent s (8 + port / 9) (32 + port % 9) 5 0xFFFF 0 0
        s1.setSys { s1.sys with jports := amPut s1.sys.jports port { p with down := true } }
    | none => s)

/-- An AWAIT, POLL or DROP of a stake that a lost peer issued (R432, R434). -/
def peerGoneMsg (s : State) (x : Nat × StakeMsg) : State :=
  match x.2.kind with
  | .await g l => answerMsg s x.1 g l (stakeStatus (.broken 0x63 0 0)) []
  | .poll g l => answerMsg s x.1 g l (stakeStatus (.broken 0x63 0 0)) []
  | _ => s.setMsgs (amDel s.msgs x.1)

/-- The stakes that a device keeps for this one, or this one for it: their entries stand there, or their results. -/
def stakesWith (s : State) (dev : Nat) : List (Nat × Nat) :=
  s.cores.flatMap fun c => c.2.stakes.filterMap fun x => match x.2.use with
    | some (.resolution p _ _ _) =>
      if p.map Prod.fst = some (peerCore dev) ∨ (131072 ≤ c.1 ∧ (c.1 - 131072) / 512 = dev) then some (c.1, x.1) else none
    | _ => none

/-- Stakes whose entry, handler or result a lost peer holds break, and messages to it are answered (R432). An invocation that it
had let through breaks as its handler's loss does. -/
def peerGone (s : State) (dev : Nat) : State :=
  let s1 := (s.invs.filter fun i => i.2.device == some dev).foldl (fun st i =>
    settleInv st i.1 (if i.2.via = 0 ∨ i.2.pred.isSome then .broken 0x63 0 0 else .broken 0x64 0 0x63)) s
  let s2 := (s1.msgs.filter fun m => stakeDevice m.2.stake == dev && queueableOrPoll m.2.kind && dev != s.sys.device).foldl peerGoneMsg s1
  (stakesWith s2 dev).foldl (fun st x => loseStake st x.1 x.2 0x63) s2
where
  queueableOrPoll (k : MsgKind) : Bool :=
    match k with
    | .await _ _ | .poll _ _ | .drop => true
    | _ => false

/-- A peer from which no flit has arrived for 1,000,000 datum ticks is lost (R434): stakes break, trees that include it break, and
every context's event queue is told. Accesses to it find it lost when they are performed. -/
def execPeerLost (dev : Nat) (s : State) : Host.Outcome State Fault Refusal :=
  .next (match amGet s.sys.peers dev with
    | some p =>
      if !p.present || p.lost || s.time.datum < p.lastFlit + 1000000 then s
      else
        let s1 := s.setSys { s.sys with peers := amPut s.sys.peers dev { p with lost := true } }
        let s2 := breakTrees (peerGone s1 dev) true fun t => t.devs.contains dev
        s2.setCtxs (s2.ctxs.map fun c => (c.1, { c.2 with events := c.2.events ++ [dev] }))
    | none => s)

/-- What waited for stage 4 goes on (R430, R431, R452): invocations to other devices are checked, and stakes of devices outside the
domain are answered. -/
def stageFour (s : State) : State :=
  let s1 := (s.invs.filter fun i => i.2.device.isSome).foldl (fun st i =>
    let d := i.2.device.getD 0
    if i.2.via = 0 then deviceCheck st i.1 d
    else if d = st.sys.device then
      sendMsg (st.setInvs (amMod st.invs i.1 fun x => { x with device := none })) 0 st.fresh i.2.via (.invoke i.1) none
    else if peerLostNow st d then settleInv st i.1 (.broken 0x64 0 0x63)
    else if peerThere st d then st
    else settleInv st i.1 (.broken 0x64 0 0)) s
  (s1.msgs.filter fun m => m.2.stake != 0 && stakeDevice m.2.stake != s.sys.device).foldl (fun st m =>
    if peerLostNow st (stakeDevice m.2.stake) then peerGoneMsg st m
    else if peerThere st (stakeDevice m.2.stake) then st
    else staleAt st m.1) s1

/-- The peers of a training, found alive (R433, R434). -/
def trainPeers (s : State) (dev : Nat) (peers : List Nat) : AMap Peer :=
  (peers.filter fun d => d != dev && d < 256).foldl (fun m d =>
    amPut m d { present := true, lost := false, lastFlit := s.time.datum, entry := (amGet m d).bind Peer.entry }) s.sys.peers

/-- Jiath training completes (R433, R452): in stage D the device gets its number and the start is ready; later it re-admits peers. -/
def execJiathTraining (dev : Nat) (ports peers : List Nat) (s : State) : Host.Outcome State Fault Refusal :=
  .next (if s.sys.stage < 3 ∨ 256 ≤ dev ∨ s.sys.fail then s
    else
      let n := if s.sys.stage = 3 then dev else s.sys.device
      let jp := (ports.filter fun k => k < 18).foldl (fun m k =>
        amPut m k { trained := true, down := false, rx := ((amGet m k).map Port.rx).getD [] }) s.sys.jports
      let s1 := s.setSys { s.sys with device := n, jports := jp, peers := trainPeers s n peers, stage := 4 }
      if s.sys.stage = 3 then stageFour s1 else s1)

/-- Jiath training times out (R452): STAGE becomes 4 with no port trained, and every peer reads as lost. -/
def execJiathTrainingTimeout (s : State) : Host.Outcome State Fault Refusal :=
  .next (if s.sys.stage ≠ 3 ∨ s.sys.fail then s
    else
      let lost := (List.range 256).foldl (fun m d => if d = s.sys.device then m
        else amPut m d { present := true, lost := true, lastFlit := s.time.datum, entry := (amGet m d).bind Peer.entry }) s.sys.peers
      stageFour (s.setSys { s.sys with peers := lost, stage := 4 }))

end Sys2Proof.Machine
end

