-- ==== Sys2Proof/Machine/Moves.lean ====
section
/-! DEFINITION. The meanings of the moves, selections, predicate words and special-register words (R17 to R20, R106 to R113, R144, R156). -/

namespace Sys2Proof.Machine

/-- MOV (R106): the source is in B. -/
def moveB (x : AluIn) : AluOut := outD x.b

/-- SEL (R108). -/
def select (p : Nat) (x : AluIn) : AluOut := outD (if x.pred p then x.a else x.b)

/-- PSET (R109). -/
def predSet (f : RegF) (x : AluIn) : AluOut :=
  outP f.d.toNat (lutBit (lutOf f) (x.pred f.a.toNat) (x.pred f.b.toNat) (x.pred f.c.toNat)) flNone

/-- PMOV.V (R110). -/
def predsOut (x : AluIn) : AluOut := outD x.ps
/-- PMOV.P (R110). -/
def predsIn (x : AluIn) : AluOut := ⟨0, (List.range 7).map fun i => (i, bit x.a i), flNone⟩

/-- The operands of MOVI and MOVH (R107). -/
def wideForm (f : WideF) : AluForm :=
  { x := f.x, d := if f.x then .s f.d.toNat 64 false else .v f.d.toNat 32 false, a := .none, b := .none, c := .none }
/-- The value MOVI writes (R76, R107). -/
def moviVal (f : WideF) : Nat := if f.sx then sextNat 32 64 f.imm.toNat else f.imm.toNat
/-- MOVH writes the upper word and keeps the lower (R107). -/
def movhForm (f : WideF) : AluForm :=
  { x := f.x
    d := if f.x then .s f.d.toNat 64 false else .v f.d.toNat 64 false
    a := if f.x then .s f.d.toNat 64 else .v f.d.toNat 64
    b := .none, c := .none }
def movhVal (f : WideF) (x : AluIn) : AluOut := outD (f.imm.toNat * 2 ^ 32 + x.a % 2 ^ 32)

/-- A special register's value in a lane (R17, R144, R172, R186, R316). DESIGN CHOICE (log 108): R11 says that MFS reads the PC, and
R17 lists no index for it; no index reads the PC here. -/
def specialReg (w : Wd) (lane ix : Nat) (t : Thread) : Nat :=
  match ix with
  | 0x00 => lane
  | 0x01 => w.g.ix
  | 0x02 => w.t.teamid.toNat
  | 0x03 => w.gr.role
  | 0x04 => w.t.core % 32
  | 0x05 => w.t.core / 32
  | 0x06 => w.s.sys.device
  | 0x07 => t.txlog.iter.toNat
  | 0x08 => w.s.time.datum % 2 ^ 64
  | 0x09 => (w.s.time.clk - (w.s.core w.t.core).clkBase) % 2 ^ 64
  | 0x0A => t.fpctl.toNat
  | 0x0B => t.fpflags.toNat
  | 0x0C => w.t.teams.toNat
  | 0x0D => w.t.groups.length
  | _ => w.t.argp.toNat

/-- MFS (R111, R156). -/
def mfsBody (f : RegF) (w : Wd) : Res :=
  let cut (n : Nat) : Nat := n % 2 ^ f.ty.width
  if f.x then
    match w.acting with
    | [] => Res.done w.s
    | l :: _ =>
      let t := (w.gr.lane? l).getD (Thread.start 0)
      Res.done (w.s.modGroup w.g fun g => g.setS f.d.toNat (BitVec.ofNat 64 (cut (specialReg w l f.b.toNat t))))
  else
    Res.done (w.s.modLanes w.g w.acting fun l t =>
      t.setRun f.d.toNat (f.ty.width / 32) (cut (specialReg w l f.b.toNat t)))

/-- The value is legal for the special register: no reserved bit is set (R19, R20, R112). -/
def mtsLegal (ix v : Nat) : Bool := if ix = 0x0A then v < 2 ^ 4 else v < 2 ^ 6

/-- FPCTL or FPFLAGS replaced (R112, R113). -/
def Thread.writeSpecial (t : Thread) (ix v : Nat) : Thread :=
  if ix = 0x0A then { t with fpctl := BitVec.ofNat 4 v } else { t with fpflags := BitVec.ofNat 6 v }

/-- MTS (R112, R156, R474): per lane each value is checked for itself; the scalar unit checks its one value. -/
def mtsBody (f : RegF) (w : Wd) : Res :=
  if f.x then
    let v := (w.gr.getS f.a.toNat).toNat % 2 ^ f.ty.width
    if mtsLegal f.b.toNat v then
      Res.done (w.s.modLanes w.g w.acting fun _ t => t.writeSpecial f.b.toNat v)
    else Res.trap w.s cILLEGAL_ENCODING 0 0 w.acting
  else
    let val (l : Nat) : Nat := ((w.gr.lane? l).map fun t => t.getRun f.a.toNat (f.ty.width / 32)).getD 0
    let good := w.acting.filter fun l => mtsLegal f.b.toNat (val l)
    let failing := w.acting.filter fun l => !mtsLegal f.b.toNat (val l)
    { Res.done (w.s.modLanes w.g good fun l t => t.writeSpecial f.b.toNat (val l)) with
      bad := failing.map fun l => ⟨l, cILLEGAL_ENCODING, 0, 0⟩ }

def execMov (f : RegF) (s : State) := runAlu (.mov f) moveB s
def execMovi (f : WideF) (s : State) := runWord (.movi f) (aluBody (wideForm f) fun _ => outD (moviVal f)) s
def execMovh (f : WideF) (s : State) := runWord (.movh f) (aluBody (movhForm f) (movhVal f)) s
def execSel (f : RegF) (s : State) := runAlu (.sel f) (select f.c.toNat) s
def execPset (f : RegF) (s : State) := runAlu (.pset f) (predSet f) s
def execPmovV (f : RegF) (s : State) := runAlu (.pmovV f) predsOut s
def execPmovP (f : RegF) (s : State) := runAlu (.pmovP f) predsIn s
def execMfs (f : RegF) (s : State) := runWord (.mfs f) (mfsBody f) s
def execMts (f : RegF) (s : State) := runWord (.mts f) (mtsBody f) s

end Sys2Proof.Machine
end

