-- ==== Sys2Proof/Machine/Sha3.lean ====
section
/-! DEFINITION. SHA3-512, by which firmware, keys and measurements are digested (R3, R454, R455). The spec names the function; what it computes is PRESUMED from the public standard (log 135). -/

namespace Sys2Proof.Machine

/-- A lane of the state, rotated left. -/
def rotLane (x : W64) (n : Nat) : W64 := x.rotateLeft (n % 64)

/-- The rotation of each lane, by x + 5 y. -/
def rhoOffsets : List Nat :=
  [0, 1, 62, 28, 27, 36, 44, 6, 55, 20, 3, 10, 43, 25, 39, 41, 45, 15, 21, 8, 18, 2, 61, 56, 14]

/-- The round constants, from the first round on. -/
def roundConstants : List W64 :=
  [0x0000000000000001#64, 0x0000000000008082#64, 0x800000000000808A#64, 0x8000000080008000#64, 0x000000000000808B#64,
   0x0000000080000001#64, 0x8000000080008081#64, 0x8000000000008009#64, 0x000000000000008A#64, 0x0000000000000088#64,
   0x0000000080008009#64, 0x000000008000000A#64, 0x000000008000808B#64, 0x800000000000008B#64, 0x8000000000008089#64,
   0x8000000000008003#64, 0x8000000000008002#64, 0x8000000000000080#64, 0x000000000000800A#64, 0x800000008000000A#64,
   0x8000000080008081#64, 0x8000000000008080#64, 0x0000000080000001#64, 0x8000000080008008#64]

/-- One round of the permutation of 25 lanes. -/
def keccakRound (a : List W64) (rc : W64) : List W64 :=
  let at_ (l : List W64) (x y : Nat) : W64 := l.getD (x % 5 + 5 * (y % 5)) 0
  let c := (List.range 5).map fun x => at_ a x 0 ^^^ at_ a x 1 ^^^ at_ a x 2 ^^^ at_ a x 3 ^^^ at_ a x 4
  let d := (List.range 5).map fun x => c.getD ((x + 4) % 5) 0 ^^^ rotLane (c.getD ((x + 1) % 5) 0) 1
  let t := (List.range 25).map fun i => rotLane (a.getD i 0 ^^^ d.getD (i % 5) 0) (rhoOffsets.getD i 0)
  let b := (List.range 25).map fun i => at_ t (i % 5 + 3 * (i / 5)) (i % 5)
  (List.range 25).map fun i =>
    let r := at_ b (i % 5) (i / 5) ^^^ (~~~(at_ b (i % 5 + 1) (i / 5)) &&& at_ b (i % 5 + 2) (i / 5))
    if i = 0 then r ^^^ rc else r

/-- The permutation. -/
def keccak (a : List W64) : List W64 := roundConstants.foldl keccakRound a

/-- A message with its padding to whole blocks of 72 bytes. -/
def sha3Pad (m : List Byte) : List Byte :=
  let z := 71 - m.length % 72
  if z = 0 then m ++ [0x86#8] else m ++ 0x06#8 :: (List.replicate (z - 1) 0#8 ++ [0x80#8])

/-- The blocks of a padded message taken in. -/
def absorb : Nat → List Byte → List W64 → List W64
  | 0, _, a => a
  | n + 1, m, a => absorb n (m.drop 72) (keccak (a.mapIdx fun i x => if i < 9 then x ^^^ BitVec.ofNat 64 (ofBytes ((m.drop (8 * i)).take 8)) else x))

/-- The SHA3-512 digest of a message: 64 bytes. -/
def sha3 (m : List Byte) : List Byte :=
  ((absorb (m.length / 72 + 1) (sha3Pad m) (List.replicate 25 0)).take 8).flatMap fun x => toBytes 8 x.toNat

end Sys2Proof.Machine
end

