-- ==== Sys2Proof/Machine/Services.lean ====
section
/-! DEFINITION. The services of IOD0: STARTSTAT, the mailbox, firmware, SPDM, the error-log window, access tables, and inbound PCI Express requests (R453 to R458, R462). -/

namespace Sys2Proof.Machine

/-- STARTSTAT (R453). -/
def startstat (s : State) : W64 :=
  BitVec.ofNat 64 (s.sys.stage + (if s.sys.fail then 2 ^ 7 else 0) + s.sys.failcode * 2 ^ 16 +
    ofBits 8 (fun d => (s.die d).st == .up || (s.die d).st == .resetting) * 2 ^ 38 +
    ofBits 18 (fun k => ((amGet s.sys.jports k).map Port.trained).getD false) * 2 ^ 46)

/-- The mailbox as a command leaves it: CMD, STATUS, DATA (R453). -/
def mailed (s : State) (cmd status : Nat) (data : List Byte) : State := s.setSys { s.sys with mailbox := (cmd, status, data) }

/-- An image whose signature over the digest of its body verifies under the key that is fused by its digest (R454). -/
def signatureOk (image : List Byte) : Bool :=
  sha3 (Config.imageKey image) == Config.fusedKey &&
    Config.mlDsaVerify (Config.imageKey image) (sha3 (Config.imageBody image)) (Config.imageSignature image)

/-- The verdict on a firmware image (R454): a FAILCODE, or none. -/
def firmwareFault (s : State) (image : List Byte) : Option Nat :=
  if !signatureOk image then some 1
  else if Config.securityVersion image % 2 ^ 32 < s.sys.rollback then some 2
  else none

/-- LOAD_FIRMWARE, from what DATA then holds (R452 to R454): allowed in stage A, or with FAIL set. An accepted image starts stage B. -/
def loadFirmware (data : List Byte) (addr len : Nat) (s : State) : State :=
  if s.sys.stage ≠ 0 ∧ !s.sys.fail then mailed s 0x01 2 data
  else
    let image := memRead s.mem (memKey 9 (addr % 2 ^ 60)) len
    match firmwareFault s image with
    | some code => mailed (startFails s code) 0x01 Config.refusedStatus data
    | none => mailed (s.setSys { s.sys with
        stage := 1, fail := false, failcode := 0, nextDie := 0, admitted := 0, rollback := Config.securityVersion image % 2 ^ 32
        firmware := some (Config.securityVersion image % 2 ^ 32, image) }) 0x01 0 data

def execLoadFirmware (addr : W64) (len : Nat) (s : State) : Host.Outcome State Fault Refusal :=
  .next (loadFirmware (toBytes 8 addr.toNat ++ toBytes 8 len) addr.toNat len s)

/-- A context marked privileged or not (R439, R453). -/
def setPrivTo (data : List Byte) (cmd : Nat) (p : Bool) (ctx : Nat) (s : State) : State :=
  if s.sys.stage < 3 then mailed s cmd 2 data
  else if !((amGet s.ctxs ctx).map Ctx.alive).getD false then mailed s cmd 1 data
  else mailed (s.setCtxs (amMod s.ctxs ctx fun c => { c with priv := p })) cmd 0 data

def execSetPriv (ctx : Nat) (s : State) : Host.Outcome State Fault Refusal := .next (setPrivTo (toBytes 4 ctx) 0x10 true ctx s)
def execClearPriv (ctx : Nat) (s : State) : Host.Outcome State Fault Refusal := .next (setPrivTo (toBytes 4 ctx) 0x11 false ctx s)

/-- READ_SENSORS (R453). -/
def readSensors (s : State) : State := mailed s 0x20 0 ((s.sys.sensors.flatMap (toBytes 4)).take 248)

def execReadSensors (s : State) : Host.Outcome State Fault Refusal := .next (readSensors s)

/-- SET_POWER_LIMIT (R453, R464). -/
def setPowerLimit (data : List Byte) (watts : Nat) (s : State) : State :=
  if s.sys.stage < 3 then mailed s 0x21 2 data
  else if watts < 1800 ∨ 3600 < watts then mailed s 0x21 1 data
  else mailed (s.setSys { s.sys with powerLimit := watts }) 0x21 0 data

def execSetPowerLimit (watts : Nat) (s : State) : Host.Outcome State Fault Refusal :=
  .next (setPowerLimit (toBytes 2 watts) watts s)

/-- An entry of an access table that software may set (R456). -/
def accessEntryOk (target master : Nat) (rights : BitVec 8) : Bool := target ≤ 131 && master ≤ 0x110F && rights.toNat < 8

/-- SET_ACCESS (R453, R456, R458): every target has applied the entry when it completes. -/
def setAccess (data : List Byte) (target master : Nat) (rights : BitVec 8) (s : State) : State :=
  if s.sys.stage < 1 then mailed s 0x30 2 data
  else if !accessEntryOk target master rights then mailed s 0x30 1 data
  else mailed (s.setSys { s.sys with access := amPut s.sys.access (target * 65536 + master) rights.toNat }) 0x30 0 data

def execSetAccess (target master : Nat) (rights : BitVec 8) (s : State) : Host.Outcome State Fault Refusal :=
  .next (setAccess (toBytes 2 target ++ toBytes 2 master ++ toBytes 1 rights.toNat) target master rights s)

/-- A command of the mailbox, its arguments in DATA (R453); a code that names none is turned down with STATUS 1. -/
def mailCommand (s : State) (cmd : Nat) (data : List Byte) : State :=
  match cmd with
  | 0x01 => loadFirmware data (num data 0 8) (num data 8 8) s
  | 0x10 => setPrivTo data 0x10 true (num data 0 4) s
  | 0x11 => setPrivTo data 0x11 false (num data 0 4) s
  | 0x20 => readSensors s
  | 0x21 => setPowerLimit data (num data 0 2) s
  | 0x30 => setAccess data (num data 0 2) (num data 2 2) (BitVec.ofNat 8 (num data 4 1)) s
  | _ => mailed s cmd 1 data

/-- Bytes written over others from an offset on. -/
def overlay (old : List Byte) (off : Nat) (bs : List Byte) : List Byte :=
  (List.range old.length).map fun i => if off ≤ i ∧ i < off + bs.length then bs.getD (i - off) 0 else old.getD i 0

/-- A write to the mailbox (R453): DATA takes its bytes, STATUS none, and a write that reaches CMD runs the command that it then
holds. DESIGN CHOICE (log 129). -/
def mailWrite (s : State) (off : Nat) (bs : List Byte) : State :=
  let m := s.sys.mailbox
  let box := overlay (toBytes 4 m.1 ++ (toBytes 4 m.2.1 ++ (m.2.2 ++ List.replicate 248 0#8).take 248)) (off - 0x100) bs
  if off < 0x104 then mailCommand s (num box 0 4) (box.drop 8) else mailed s m.1 m.2.1 (box.drop 8)

/-! ### SPDM -/

/-- An SPDM request answered (R455). -/
def spdmAnswer (s : State) (parts : List SpdmPart) : State := s.setSys { s.sys with spdm := parts }

/-- GET_VERSION: version 1.3. -/
def execGetVersion (s : State) : Host.Outcome State Fault Refusal :=
  .next (spdmAnswer s [.version 1 3, .data (Config.spdmPart 0x84)])
def execGetCapabilities (s : State) : Host.Outcome State Fault Refusal := .next (spdmAnswer s [.data (Config.spdmPart 0xE1)])
/-- NEGOTIATE_ALGORITHMS: SHA3-512 and ML-DSA-87 alone are offered. -/
def execNegotiateAlgorithms (s : State) : Host.Outcome State Fault Refusal :=
  .next (spdmAnswer s [.offers .sha3_512, .offers .mlDsa87, .data (Config.spdmPart 0xE3)])
def execGetDigests (s : State) : Host.Outcome State Fault Refusal := .next (spdmAnswer s [.data (sha3 Config.certificates)])
def execGetCertificate (s : State) : Host.Outcome State Fault Refusal := .next (spdmAnswer s [.data Config.certificates])
/-- CHALLENGE: a signature by the identity key over a digest, which covers the nonce (R455). -/
def execChallenge (nonce : List Byte) (s : State) : Host.Outcome State Fault Refusal :=
  .next (spdmAnswer s [.data nonce, .data (Config.identitySign (sha3 nonce))])

/-- The four measurements (R455). Before stage B the firmware's is a digest of zeros. -/
def measurements (s : State) : List (List Byte) :=
  [sha3 Config.bootRom,
    if s.sys.stage = 0 then List.replicate 64 0#8 else sha3 ((s.sys.firmware.map Prod.snd).getD []),
    sha3 (Config.harvestFuses ++ toBytes 1 s.sys.admitted), toBytes 4 s.sys.rollback]

def execGetMeasurements (s : State) : Host.Outcome State Fault Refusal := .next (spdmAnswer s ((measurements s).map .data))

/-! ### The error-log window -/

/-- The oldest records leave a log, and HEAD moves on (R462). -/
def popLog (s : State) (log n : Nat) : State :=
  if 10 ≤ log then s
  else modLog s log fun g =>
    let k := if n < g.recs.length then n else g.recs.length
    { g with head := (g.head + k) % 64, recs := g.recs.drop k }

/-- A log's overflow cleared (R462). -/
def clearOvf (s : State) (log : Nat) : State :=
  if 10 ≤ log then s else modLog s log fun g => { g with ovf := false, discarded := 0 }

/-- A write of `n` to POP (R462). -/
def execPop (log n : Nat) (s : State) : Host.Outcome State Fault Refusal := .next (popLog s log n)

/-- Any write to OVF clears it (R462). -/
def execOvfClear (log : Nat) (s : State) : Host.Outcome State Fault Refusal := .next (clearOvf s log)

/-- The 32 bytes of an error record (R462). -/
def recordBytes (r : ErrRec) : List Byte :=
  toBytes 8 r.datum ++ (toBytes 8 r.addr ++ (toBytes 1 r.chan ++ (toBytes 1 r.kind ++ (toBytes 2 r.asid ++ (toBytes 4 r.count ++
    toBytes 8 (r.cause % 256))))))

/-- A byte of a little-endian number. -/
def byteOf (v k : Nat) : Byte := BitVec.ofNat 8 (v / 2 ^ (8 * k))

/-- A byte of an error log's window (R462): nothing where no record or field stands. -/
def logByte (g : ErrLog) (o : Nat) : Option Byte :=
  if o < 0x800 then (g.recs[(o / 32 + 64 - g.head % 64) % 64]?).map fun r => (recordBytes r).getD (o % 32) 0
  else if o < 0x804 then some (byteOf g.head (o - 0x800))
  else if o < 0x808 then some (byteOf g.recs.length (o - 0x804))
  else if o < 0x80C then some (byteOf ((if g.ovf then 2 ^ 31 else 0) + g.discarded) (o - 0x808))
  else if 0xA00 ≤ o ∧ o < 0xE00 then
    some (if o % 8 < 4 then byteOf (amGetD g.ce ((o - 0xA00) / 8) 0) (o % 8) else byteOf (amGetD g.le ((o - 0xA00) / 8) 0) (o % 8 - 4))
  else none

/-- A byte of BAR0 (R453): STARTSTAT, the mailbox and the error logs. -/
def barByte (s : State) (off : Nat) : Option Byte :=
  if off < 8 then some (byteOf (startstat s).toNat off)
  else if 0x100 ≤ off ∧ off < 0x200 then
    let m := s.sys.mailbox
    some ((toBytes 4 m.1 ++ (toBytes 4 m.2.1 ++ m.2.2)).getD (off - 0x100) 0)
  else if 0x10000 ≤ off ∧ off < 0x1A000 then
    logByte (amGetD s.sys.logs ((off - 0x10000) / 0x1000) ErrLog.init) (off % 0x1000)
  else none

/-! ### Inbound PCI Express requests -/

/-- A device address that the endpoint serves: a die in service, or the second tier. -/
def pcieKeyOk (s : State) (key : Nat) : Bool :=
  (keyHome key ≤ 7 && s.dieUp (keyHome key) && keyAddr key < 2 ^ 37) || (keyHome key == 8 && keyAddr key < 2 ^ 42)

/-- The pieces of a request's range that no target serves, or that its master may not touch (R457). -/
def pcieDenied (s : State) (fn : Nat) (n : AccessNeed) (ps : List (Nat × Nat)) : Option (Nat × Option Cause × Nat) :=
  ps.findSome? fun p =>
    if !pcieKeyOk s p.1 then some (0, none, p.1)
    else match missingAccess s n (homeId p.1) (0x1100 + fn) with
      | some c => some (homeId p.1, some ⟨c, 0⟩, p.1)
      | none => none

/-- A request completed: as Unsupported Request, or with its data (R457). -/
def pcieDone (s : State) (ok : Bool) (data : List Byte) : State := s.setSys { s.sys with pcie := s.sys.pcie ++ [(ok, data)] }

/-- A request performed at its home agents. Data in error is reported, and the request is turned down; a write of the whole sector
takes the error away (R250). -/
def pciePerform (s : State) (ps : List (Nat × Nat)) (r : PcieReq) : State :=
  let whole : Bool := match r with
    | .write _ _ => true
    | _ => false
  match ps.find? fun p => inError s p.1 && !(whole && p.2 == 64) with
  | some p => pcieDone (report s (.sector (sectorOf p.1))) false []
  | none =>
    match r with
    | .read _ _ => pcieDone (ps.foldl (fun st p => touchRead st p.1 0 0) s) true (ps.flatMap fun p => memRead s.mem p.1 p.2)
    | .write a bs => pcieDone (ps.foldl (fun st p => storeAt st p.1 0 0 ((bs.drop (p.1 - a.toNat)).take p.2)) s) true []
    | _ => s

/-- What stops a request to `n` bytes of BAR0 (R453, R456, R457): an offset outside it, STARTSTAT or the mailbox for a function
other than 0 (cause 0), or a right of MMIO that the function misses; the mailbox itself is no part of that target. -/
def barDenied (s : State) (fn off n : Nat) (need : AccessNeed) : Option Nat :=
  let own (o : Nat) : Bool := o < 8 || (0x100 ≤ o && o < 0x200)
  if 0x20000 < off + n ∨ (fn ≠ 0 ∧ (List.range n).any fun i => own (off + i)) then some 0
  else if (List.range n).all (fun i => 0x100 ≤ off + i && off + i < 0x200) then none
  else missingAccess s need 130 (0x1100 + fn)

/-- A write to BAR0 (R438, R453, R462): doorbells, the mailbox, and POP and OVF of the error logs take their writes; the rest is
read-only. -/
def barWrite (s : State) (off : Nat) (bs : List Byte) : State :=
  let log := (off - 0x10000) / 0x1000
  if 0x100 ≤ off ∧ off < 0x200 then mailWrite s off bs
  else if 0x1000 ≤ off ∧ off < 0x1400 then
    if off % 8 = 0 ∧ (bs.length = 4 ∨ bs.length = 8) then doorbellAt s ((off - 0x1000) / 8) (ofBytes bs) else s
  else if off < 0x10000 ∨ 0x1A000 ≤ off then s
  else if off % 0x1000 = 0x80C ∧ bs.length = 4 then popLog s log (ofBytes bs)
  else if off % 0x1000 / 4 = 0x202 then clearOvf s log
  else s

/-- A request to BAR0 (R453, R462). Bytes with no contents of their own read as free values. -/
def barRequest (s : State) (fn off n : Nat) (r : PcieReq) : State :=
  let need : AccessNeed := match r with
    | .barWrite _ _ => .write
    | _ => .read
  match barDenied s fn off n need with
  | some 0 => pcieDone s false []
  | some c => pcieDone (logEvent s 8 41 4 0xFFFF c 0) false []
  | none =>
    match r with
    | .barWrite _ bs => pcieDone (barWrite s off bs) true []
    | _ =>
      let f := s.takeFree
      pcieDone f.2 true ((List.range n).map fun i => (barByte s (off + i)).getD (Config.barByte f.1 (off + i)))

/-- PCI_EXPRESS_REQUEST (R416, R453, R457): a request to memory waits during a checkpoint, and for locks and room at its
homes; then every target it reaches checks the function's entry, and it is performed or completed as Unsupported Request. -/
def execPciExpressRequest (fn : Nat) (r : PcieReq) (s : State) : Host.Outcome State Fault Refusal :=
  .next (
    let memory (a n : Nat) (need : AccessNeed) : State :=
      let ps := pieces a n
      if !s.sys.admitting || ps.any (fun p => heldUp s p.1 0) then s
      else match pcieDenied s fn need ps with
        | some (t, some c, key) => pcieDone (logDenial s t 0xFFFF c.cause key) false []
        | some (_, none, _) => pcieDone s false []
        | none => pciePerform s ps r
    if 16 ≤ fn then pcieDone s false []
    else match r with
      | .read a n => memory a.toNat n .read
      | .write a bs => memory a.toNat bs.length .write
      | .barRead off n => barRequest s fn off n r
      | .barWrite off bs => barRequest s fn off bs.length r)

end Sys2Proof.Machine
end

