-- ==== Sys2Proof/Machine/Dispatch.lean ====
section
/-! DEFINITION. What each instruction does: one arm per constructor, each one call of its meaning. -/

namespace Sys2Proof.Machine

/-- The effect of an instruction on the machine. -/
def exec (i : Instr) (s : State) : Host.Outcome State Fault Refusal :=
  match i with
  | .pair u l => Sys2Proof.Machine.execPair u l s
  | .bra f => Sys2Proof.Machine.execBra f s
  | .brx f => Sys2Proof.Machine.execBrx f s
  | .call f => Sys2Proof.Machine.execCall f s
  | .ret f => Sys2Proof.Machine.execRet f s
  | .exit g => Sys2Proof.Machine.execExit g s
  | .yield g => Sys2Proof.Machine.execYield g s
  | .nop g => Sys2Proof.Machine.execNop g s
  | .bpt f => Sys2Proof.Machine.execBpt f s
  | .trap f => Sys2Proof.Machine.execTrap f s
  | .iadd f => Sys2Proof.Machine.execIadd f s
  | .isub f => Sys2Proof.Machine.execIsub f s
  | .iaddc f => Sys2Proof.Machine.execIaddc f s
  | .isubb f => Sys2Proof.Machine.execIsubb f s
  | .imul f => Sys2Proof.Machine.execImul f s
  | .imulh f => Sys2Proof.Machine.execImulh f s
  | .imad f => Sys2Proof.Machine.execImad f s
  | .imadw f => Sys2Proof.Machine.execImadw f s
  | .idiv f => Sys2Proof.Machine.execIdiv f s
  | .irem f => Sys2Proof.Machine.execIrem f s
  | .ineg f => Sys2Proof.Machine.execIneg f s
  | .iabs f => Sys2Proof.Machine.execIabs f s
  | .imin f => Sys2Proof.Machine.execImin f s
  | .imax f => Sys2Proof.Machine.execImax f s
  | .isad f => Sys2Proof.Machine.execIsad f s
  | .idot4 f => Sys2Proof.Machine.execIdot4 f s
  | .icmp f => Sys2Proof.Machine.execIcmp f s
  | .and f => Sys2Proof.Machine.execAnd f s
  | .or f => Sys2Proof.Machine.execOr f s
  | .xor f => Sys2Proof.Machine.execXor f s
  | .not f => Sys2Proof.Machine.execNot f s
  | .lop3 f => Sys2Proof.Machine.execLop3 f s
  | .shl f => Sys2Proof.Machine.execShl f s
  | .shr f => Sys2Proof.Machine.execShr f s
  | .sar f => Sys2Proof.Machine.execSar f s
  | .rot f => Sys2Proof.Machine.execRot f s
  | .fshfL f => Sys2Proof.Machine.execFshfL f s
  | .fshfR f => Sys2Proof.Machine.execFshfR f s
  | .bfe f => Sys2Proof.Machine.execBfe f s
  | .bfi f => Sys2Proof.Machine.execBfi f s
  | .popc f => Sys2Proof.Machine.execPopc f s
  | .clz f => Sys2Proof.Machine.execClz f s
  | .ctz f => Sys2Proof.Machine.execCtz f s
  | .brev f => Sys2Proof.Machine.execBrev f s
  | .prmt f => Sys2Proof.Machine.execPrmt f s
  | .iaddImm f => Sys2Proof.Machine.execIaddImm f s
  | .isubImm f => Sys2Proof.Machine.execIsubImm f s
  | .imulImm f => Sys2Proof.Machine.execImulImm f s
  | .iminImm f => Sys2Proof.Machine.execIminImm f s
  | .imaxImm f => Sys2Proof.Machine.execImaxImm f s
  | .andImm f => Sys2Proof.Machine.execAndImm f s
  | .orImm f => Sys2Proof.Machine.execOrImm f s
  | .xorImm f => Sys2Proof.Machine.execXorImm f s
  | .shlImm f => Sys2Proof.Machine.execShlImm f s
  | .shrImm f => Sys2Proof.Machine.execShrImm f s
  | .sarImm f => Sys2Proof.Machine.execSarImm f s
  | .rotImm f => Sys2Proof.Machine.execRotImm f s
  | .fadd f => Sys2Proof.Machine.execFadd f s
  | .fsub f => Sys2Proof.Machine.execFsub f s
  | .fmul f => Sys2Proof.Machine.execFmul f s
  | .ffma f => Sys2Proof.Machine.execFfma f s
  | .fmin f => Sys2Proof.Machine.execFmin f s
  | .fmax f => Sys2Proof.Machine.execFmax f s
  | .fminn f => Sys2Proof.Machine.execFminn f s
  | .fmaxn f => Sys2Proof.Machine.execFmaxn f s
  | .fcmp f => Sys2Proof.Machine.execFcmp f s
  | .fclass f => Sys2Proof.Machine.execFclass f s
  | .frnd f => Sys2Proof.Machine.execFrnd f s
  | .fscale f => Sys2Proof.Machine.execFscale f s
  | .fdiv f => Sys2Proof.Machine.execFdiv f s
  | .fsqrt f => Sys2Proof.Machine.execFsqrt f s
  | .frcp f => Sys2Proof.Machine.execFrcp f s
  | .frsq f => Sys2Proof.Machine.execFrsq f s
  | .fexp2 f => Sys2Proof.Machine.execFexp2 f s
  | .flog2 f => Sys2Proof.Machine.execFlog2 f s
  | .fsin f => Sys2Proof.Machine.execFsin f s
  | .fcos f => Sys2Proof.Machine.execFcos f s
  | .ftanh f => Sys2Proof.Machine.execFtanh f s
  | .faddImm f => Sys2Proof.Machine.execFaddImm f s
  | .fsubImm f => Sys2Proof.Machine.execFsubImm f s
  | .fmulImm f => Sys2Proof.Machine.execFmulImm f s
  | .fminImm f => Sys2Proof.Machine.execFminImm f s
  | .fmaxImm f => Sys2Proof.Machine.execFmaxImm f s
  | .fminnImm f => Sys2Proof.Machine.execFminnImm f s
  | .fmaxnImm f => Sys2Proof.Machine.execFmaxnImm f s
  | .cvt f => Sys2Proof.Machine.execCvt f s
  | .qpack f => Sys2Proof.Machine.execQpack f s
  | .qunpk f => Sys2Proof.Machine.execQunpk f s
  | .mxq f => Sys2Proof.Machine.execMxq f s
  | .mov f => Sys2Proof.Machine.execMov f s
  | .movi f => Sys2Proof.Machine.execMovi f s
  | .movh f => Sys2Proof.Machine.execMovh f s
  | .sel f => Sys2Proof.Machine.execSel f s
  | .pset f => Sys2Proof.Machine.execPset f s
  | .pmovV f => Sys2Proof.Machine.execPmovV f s
  | .pmovP f => Sys2Proof.Machine.execPmovP f s
  | .mfs f => Sys2Proof.Machine.execMfs f s
  | .mts f => Sys2Proof.Machine.execMts f s
  | .ld m k => Sys2Proof.Machine.execLd m k s
  | .st m k => Sys2Proof.Machine.execSt m k s
  | .lds m k => Sys2Proof.Machine.execLds m k s
  | .sts m k => Sys2Proof.Machine.execSts m k s
  | .ldr m k => Sys2Proof.Machine.execLdr m k s
  | .preq m => Sys2Proof.Machine.execPreq m s
  | .ldMx m k => Sys2Proof.Machine.execLdMx m k s
  | .stMx m k => Sys2Proof.Machine.execStMx m k s
  | .atom m k => Sys2Proof.Machine.execAtom m k s
  | .atomv m k => Sys2Proof.Machine.execAtomv m k s
  | .red m k => Sys2Proof.Machine.execRed m k s
  | .fence m o sc => Sys2Proof.Machine.execFence m o sc s
  | .cctlLine m => Sys2Proof.Machine.execCctlLine m s
  | .cctlAll m => Sys2Proof.Machine.execCctlAll m s
  | .cctlIfetch m => Sys2Proof.Machine.execCctlIfetch m s
  | .tlbiPage m => Sys2Proof.Machine.execTlbiPage m s
  | .tlbiAsid m => Sys2Proof.Machine.execTlbiAsid m s
  | .tlbiAll m => Sys2Proof.Machine.execTlbiAll m s
  | .txbegin f => Sys2Proof.Machine.execTxbegin f s
  | .txbeginTs f => Sys2Proof.Machine.execTxbeginTs f s
  | .txbeginO f => Sys2Proof.Machine.execTxbeginO f s
  | .txcommit f => Sys2Proof.Machine.execTxcommit f s
  | .txabort f => Sys2Proof.Machine.execTxabort f s
  | .txstat f => Sys2Proof.Machine.execTxstat f s
  | .sdopen f => Sys2Proof.Machine.execSdopen f s
  | .shfl f => Sys2Proof.Machine.execShfl f s
  | .voteEvery f => Sys2Proof.Machine.execVoteEvery f s
  | .voteSome f => Sys2Proof.Machine.execVoteSome f s
  | .voteSame f => Sys2Proof.Machine.execVoteSame f s
  | .voteMask f => Sys2Proof.Machine.execVoteMask f s
  | .matchPeers f => Sys2Proof.Machine.execMatchPeers f s
  | .matchUniform f => Sys2Proof.Machine.execMatchUniform f s
  | .elect f => Sys2Proof.Machine.execElect f s
  | .voteCount f => Sys2Proof.Machine.execVoteCount f s
  | .gred f => Sys2Proof.Machine.execGred f s
  | .barInit f => Sys2Proof.Machine.execBarInit f s
  | .barArr f => Sys2Proof.Machine.execBarArr f s
  | .barArrRmt f => Sys2Proof.Machine.execBarArrRmt f s
  | .barWait f => Sys2Proof.Machine.execBarWait f s
  | .barSync f => Sys2Proof.Machine.execBarSync f s
  | .spawn f => Sys2Proof.Machine.execSpawn f s
  | .sync f => Sys2Proof.Machine.execSync f s
  | .endt f => Sys2Proof.Machine.execEndt f s
  | .invokeCore f => Sys2Proof.Machine.execInvokeCore f s
  | .invokeAny f => Sys2Proof.Machine.execInvokeAny f s
  | .invokeStake f => Sys2Proof.Machine.execInvokeStake f s
  | .invokeDie f => Sys2Proof.Machine.execInvokeDie f s
  | .await f => Sys2Proof.Machine.execAwait f s
  | .poll f => Sys2Proof.Machine.execPoll f s
  | .fulfil f => Sys2Proof.Machine.execFulfil f s
  | .brk f => Sys2Proof.Machine.execBrk f s
  | .drop f => Sys2Proof.Machine.execDrop f s
  | .copy f => Sys2Proof.Machine.execCopy f s
  | .copyMc f => Sys2Proof.Machine.execCopyMc f s
  | .fill f => Sys2Proof.Machine.execFill f s
  | .mshape f => Sys2Proof.Machine.execMshape f s
  | .mma f => Sys2Proof.Machine.execMma f s
  | .accld f => Sys2Proof.Machine.execAccld f s
  | .accst f => Sys2Proof.Machine.execAccst f s
  | .accz f => Sys2Proof.Machine.execAccz f s
  | .waitc f => Sys2Proof.Machine.execWaitc f s
  | .monw f => Sys2Proof.Machine.execMonw f s
  | .nred f => Sys2Proof.Machine.execNred f s
  | .nbar f => Sys2Proof.Machine.execNbar f s
  | .eret f => Sys2Proof.Machine.execEret f s
  | .mfc f => Sys2Proof.Machine.execMfc f s
  | .mtc f => Sys2Proof.Machine.execMtc f s
  | .mtcPtbase f => Sys2Proof.Machine.execMtcPtbase f s
  | .mtcAsid f => Sys2Proof.Machine.execMtcAsid f s
  | .halt f => Sys2Proof.Machine.execHalt f s
  | .teamAdmission => Sys2Proof.Machine.execTeamAdmission s
  | .taskAdmission die => Sys2Proof.Machine.execTaskAdmission die s
  | .placement core => Sys2Proof.Machine.execPlacement core s
  | .preemption => Sys2Proof.Machine.execPreemption s
  | .preemptionSave team => Sys2Proof.Machine.execPreemptionSave team s
  | .teamResume team => Sys2Proof.Machine.execTeamResume team s
  | .fold frame => Sys2Proof.Machine.execFold frame s
  | .mergeGroupRetire g => Sys2Proof.Machine.execMergeGroupRetire g s
  | .syncApplication frame => Sys2Proof.Machine.execSyncApplication frame s
  | .gridCompletion grid => Sys2Proof.Machine.execGridCompletion grid s
  | .launchCompletion grid => Sys2Proof.Machine.execLaunchCompletion grid s
  | .stakeMessage index => Sys2Proof.Machine.execStakeMessage index s
  | .lineDelivered op team line => Sys2Proof.Machine.execLineDelivered op team line s
  | .engineOpComplete op => Sys2Proof.Machine.execEngineOpComplete op s
  | .mcDrain op team => Sys2Proof.Machine.execMcDrain op team s
  | .matrixOpStart core => Sys2Proof.Machine.execMatrixOpStart core s
  | .monitorReread mon => Sys2Proof.Machine.execMonitorReread mon s
  | .monitorPoll mon => Sys2Proof.Machine.execMonitorPoll mon s
  | .monitorTimeout mon => Sys2Proof.Machine.execMonitorTimeout mon s
  | .commitRound g => Sys2Proof.Machine.execCommitRound g s
  | .cairn g => Sys2Proof.Machine.execCairn g s
  | .orderedCommit g => Sys2Proof.Machine.execOrderedCommit g s
  | .irrevocableBegin g lane => Sys2Proof.Machine.execIrrevocableBegin g lane s
  | .watchdog g lane => Sys2Proof.Machine.execWatchdog g lane s
  | .accessPerform acc => Sys2Proof.Machine.execAccessPerform acc s
  | .eviction l => Sys2Proof.Machine.execEviction l s
  | .spontaneousWriteback sector toDram => Sys2Proof.Machine.execSpontaneousWriteback sector toDram s
  | .refresh bank => Sys2Proof.Machine.execRefresh bank s
  | .contextFatalReport e => Sys2Proof.Machine.execContextFatalReport e s
  | .trapEntry g => Sys2Proof.Machine.execTrapEntry g s
  | .asyncFaultDelivery g => Sys2Proof.Machine.execAsyncFaultDelivery g s
  | .handlerWatchdog g => Sys2Proof.Machine.execHandlerWatchdog g s
  | .remoteArrival index => Sys2Proof.Machine.execRemoteArrival index s
  | .remoteAck acc => Sys2Proof.Machine.execRemoteAck acc s
  | .peerAccess dev off r => Sys2Proof.Machine.execPeerAccess dev off r s
  | .flitReceive port dev len ok payload => Sys2Proof.Machine.execFlitReceive port dev len ok payload s
  | .portDown port => Sys2Proof.Machine.execPortDown port s
  | .peerLost dev => Sys2Proof.Machine.execPeerLost dev s
  | .routerInput round src => Sys2Proof.Machine.execRouterInput round src s
  | .roundTimeout round node => Sys2Proof.Machine.execRoundTimeout round node s
  | .roundComplete round core => Sys2Proof.Machine.execRoundComplete round core s
  | .doorbell queue index => Sys2Proof.Machine.execDoorbell queue index s
  | .launch queue => Sys2Proof.Machine.execLaunch queue s
  | .contextCreate queue => Sys2Proof.Machine.execContextCreate queue s
  | .contextAttach queue => Sys2Proof.Machine.execContextAttach queue s
  | .contextDestroy queue => Sys2Proof.Machine.execContextDestroy queue s
  | .checkpoint queue => Sys2Proof.Machine.execCheckpoint queue s
  | .restore queue => Sys2Proof.Machine.execRestore queue s
  | .dieReset queue => Sys2Proof.Machine.execDieReset queue s
  | .exportWindow queue => Sys2Proof.Machine.execExportWindow queue s
  | .dieReadmission die ok => Sys2Proof.Machine.execDieReadmission die ok s
  | .routerFailure die router => Sys2Proof.Machine.execRouterFailure die router s
  | .fabricError die => Sys2Proof.Machine.execFabricError die s
  | .proxyAnswer index => Sys2Proof.Machine.execProxyAnswer index s
  | .coreReset die => Sys2Proof.Machine.execCoreReset die s
  | .moduleReset => Sys2Proof.Machine.execModuleReset s
  | .trainingComplete iod1 => Sys2Proof.Machine.execTrainingComplete iod1 s
  | .dieAdmission die ok => Sys2Proof.Machine.execDieAdmission die ok s
  | .jiathTraining dev ports peers => Sys2Proof.Machine.execJiathTraining dev ports peers s
  | .jiathTrainingTimeout => Sys2Proof.Machine.execJiathTrainingTimeout s
  | .loadFirmware addr len => Sys2Proof.Machine.execLoadFirmware addr len s
  | .setPriv ctx => Sys2Proof.Machine.execSetPriv ctx s
  | .clearPriv ctx => Sys2Proof.Machine.execClearPriv ctx s
  | .readSensors => Sys2Proof.Machine.execReadSensors s
  | .setPowerLimit watts => Sys2Proof.Machine.execSetPowerLimit watts s
  | .setAccess target master rights => Sys2Proof.Machine.execSetAccess target master rights s
  | .getVersion => Sys2Proof.Machine.execGetVersion s
  | .getCapabilities => Sys2Proof.Machine.execGetCapabilities s
  | .negotiateAlgorithms => Sys2Proof.Machine.execNegotiateAlgorithms s
  | .getDigests => Sys2Proof.Machine.execGetDigests s
  | .getCertificate => Sys2Proof.Machine.execGetCertificate s
  | .challenge nonce => Sys2Proof.Machine.execChallenge nonce s
  | .getMeasurements => Sys2Proof.Machine.execGetMeasurements s
  | .pop log n => Sys2Proof.Machine.execPop log n s
  | .ovfClear log => Sys2Proof.Machine.execOvfClear log s
  | .throttle up => Sys2Proof.Machine.execThrottle up s
  | .thermalTrip => Sys2Proof.Machine.execThermalTrip s
  | .thermalRelease => Sys2Proof.Machine.execThermalRelease s
  | .pciExpressRequest fn r => Sys2Proof.Machine.execPciExpressRequest fn r s

end Sys2Proof.Machine
end

