-- ==== Sys2Proof/Machine/Auto.lean ====
section
/-! DEFINITION. Which part of the machine moves next where the agenda does not say: the first event that its own work makes due, else a group that can issue, else only time. -/

namespace Sys2Proof.Machine

/-- The events of one group. -/
def groupEvents (g : GRef) (gr : Group) (merge : Bool) : List Instr :=
  List.flatten [
    (if gr.pendTrap.isSome then [.trapEntry g] else []),
    (if gr.held.isEmpty then [] else [.asyncFaultDelivery g]),
    (if gr.lanes.any fun t => match t.park with
    | some (.commit _) => true
    | _ => false then [.commitRound g] else []),
    (if gr.ordered = 0 then [] else [.orderedCommit g]),
    ((List.range 32).filter fun l => match (gr.lane? l).bind Thread.park with
    | some (.irrevocable _ _) => true
    | _ => false).map (fun l => .irrevocableBegin g l),
    (if merge then [.mergeGroupRetire g] else []),
    (if gr.handler.isSome then [.handlerWatchdog g] else [])]

/-- The events of one team. -/
def teamEvents (id : Nat) (t : Team) : List Instr :=
  List.flatten [
    (t.groups.mapIdx fun i gr => groupEvents ⟨id, i⟩ gr (t.kind == .merge)).flatten,
    (if t.saving then [.preemptionSave id] else []),
    (if t.resident then [] else [.teamResume id])]

/-- The events of one engine operation. -/
def opEvents (s : State) (id : Nat) (o : Op) : List Instr :=
  (match o.kind with
    | .copy _ _ _ _ _ _ rcv => rcv.map fun r => .mcDrain id r
    | .mma .. | .accld .. | .accst .. | .accz .. => [.matrixOpStart (((s.team? o.g.team).map Team.core).getD 0)]
    | _ => []) ++ [.engineOpComplete id]

/-- The events of one collective round. -/
def roundEvents (id : Nat) (r : CollRound) : List Instr :=
  List.flatten [
    r.contribs.map (fun c => .routerInput id (.core c.core)),
    (amKeys r.links).map (fun n => .routerInput id (.link n)),
    (amKeys r.timers).map (fun n => .roundTimeout id n),
    r.contribs.map fun c => .roundComplete id c.core]

/-- The events of a queue: its head command, and the commands that its doorbell has announced. -/
def queueEvents (id : Nat) (q : Queue) : List Instr :=
  (match q.cmds with
  | [] => []
  | c :: _ => match c.op with
    | 1 => [.launch id]
    | 2 => [.contextCreate id]
    | 3 => [.contextAttach id]
    | 4 => [.contextDestroy id]
    | 5 => [.checkpoint id]
    | 6 => [.restore id]
    | 7 => [.dieReset id]
    | 8 => [.exportWindow id]
    | _ => []) ++ [.doorbell id q.rung]

/-- Every event that the machine's own work may make due, in a fixed order. What the environment decides is not among them. -/
def workEvents (s : State) : List Instr :=
  List.flatten [
    s.pend.map (fun a => if a.2.remote then .remoteAck a.1 else .accessPerform a.1),
    s.cairns.map (fun c => .cairn c.2.g),
    s.msgs.flatMap (fun m => [.stakeMessage m.1, .remoteArrival m.1, .proxyAnswer m.1]),
    s.errs.reports.map (fun r => .contextFatalReport r.err),
    s.teams.flatMap (fun t => teamEvents t.1 t.2),
    s.ops.flatMap (fun o => opEvents s o.1 o.2),
    s.mons.flatMap (fun m => [.monitorTimeout m.1, .monitorReread m.1, .monitorPoll m.1]),
    s.rounds.flatMap (fun r => roundEvents r.1 r.2),
    s.frames.flatMap (fun f => [.fold f.1, .syncApplication f.1]),
    (s.grids.filter fun g => !g.2.done).flatMap (fun g => [.teamAdmission, .gridCompletion g.1, .launchCompletion g.1]),
    s.invs.filterMap (fun i => (placeCore s i.1 i.2).map Instr.placement),
    s.dies.map (fun d => .taskAdmission d.1),
    (if (waitingWork s).isEmpty then [] else [.preemption]),
    s.queues.flatMap (fun q => queueEvents q.1 q.2),
    (s.sys.peers.filter fun p => p.2.present && !p.2.lost).map fun p => .peerLost p.1]

/-- An event that would change the machine. -/
def due (s : State) (i : Instr) : Bool :=
  match exec i s with
  | .next t => t != s
  | _ => false

/-- The turn of an empty agenda. -/
def defaultTurn (s : State) : Turn :=
  match (workEvents s).find? (due s) with
  | some i => .event i .tick
  | none => match nextPipe s with
    | some (core, pipe) => .issue core pipe [] false .tick
    | none => .pass 1

/-- The next turn and the agenda after it. -/
def nextTurn (s : State) : Turn × State :=
  match s.agenda with
  | t :: rest => (t, s.setAgenda rest)
  | [] => (defaultTurn s, s)

end Sys2Proof.Machine
end

