-- ==== Sys2Proof/Machine/Environ.lean ====
section
/-! DEFINITION. What the environment does to the machine beside the events of the opcode table: errors arise, and the host and peers write their own memory (R218, R250, R436). -/

namespace Sys2Proof.Machine

/-- An uncorrectable error arises (R250). A sector that an access is on its way to keeps its data; registers and
accumulators report at once, since the next access to them consumes the error. -/
def upset (s : State) (e : ErrAt) : State :=
  match e with
  | .sector sec =>
    if s.errs.sectors.contains sec || s.pend.any (fun a => sectorOf a.2.key == sec || a.2.also.contains sec) then s
    else s.setErrs { s.errs with sectors := sec :: s.errs.sectors }
  | .scratch team line =>
    if s.errs.scratch.contains (team, line) then s else s.setErrs { s.errs with scratch := (team, line) :: s.errs.scratch }
  | .reg t r => report s (.reg t r)
  | .l1 core sec => s.modCore core fun c => { c with l1 := amMod c.l1 sec fun x => { x with bad := true } }
  | .icache core line => s.modCore core fun c => { c with icache := amMod c.icache line fun x => { x with bad := true } }

/-- A correctable error is counted (R250, R460, R462). -/
def corrected (s : State) (log chan : Nat) : State :=
  let up (n : Nat) : Nat := if n < 0xFFFFFFFF then n + 1 else n
  if 10 ≤ log ∨ 128 ≤ chan then s
  else
  let s1 := modLog s log fun g => { g with ce := amPut g.ce chan (up (amGetD g.ce chan 0)) }
  if log < 8 then s1.countDie log 0x09 1 else s1

/-- A stake that a peer device issued. -/
def foreignStake (s : State) (stake : W64) : Bool :=
  field stake.toNat 56 8 != s.sys.device && amHas s.sys.peers (field stake.toNat 56 8)

/-- A peer answers an AWAIT or POLL of a stake it issued (R431). -/
def peerAnswered (s : State) (msg : Nat) (status : W64) (bs : List Byte) : State :=
  match amGet s.msgs msg with
  | some m =>
    if foreignStake s m.stake then
      match m.kind with
      | .await g l => answerMsg s msg g l status bs
      | .poll g l => answerMsg s msg g l status bs
      | _ => s.setMsgs (amDel s.msgs msg)
    else s
  | none => s

/-- An invocation sent to a peer settles its stake (R430). -/
def peerSettled (s : State) (inv : Nat) (st : StakeSt) : State :=
  match amGet s.invs inv with
  | some i =>
    match i.device with
    | none => s
    | some d =>
      if st = .pending then s
      else
        let sl := stakeSlot s i.issuer i.slot
        settle (match sl.use with
          | some (.resolution none x q g) =>
            putStake (s.setInvs (amDel s.invs inv)) i.issuer i.slot { sl with use := some (.resolution (some (peerCore d, 0)) x q g) }
          | _ => s.setInvs (amDel s.invs inv)) i.issuer i.slot st
  | none => s

/-- The host or a peer writes its own memory. -/
def outsideWrite (s : State) (key : Nat) (bs : List Byte) : State :=
  if keyHome key = 9 ∨ keyHome key = 10 then noteWrite (s.setMem (memWrite s.mem key bs)) (sectorOf key) else s

end Sys2Proof.Machine
end

