-- ==== Sys2Proof/Machine/Turns.lean ====
section
/-! DEFINITION. What one turn of the agenda does, and the time that follows it. -/

namespace Sys2Proof.Machine

/-- The time that follows a turn. -/
def passed (a : After) (s : State) : State :=
  match a with
  | .tick => tick s
  | .clock => clockPasses s
  | .now => s

/-- The outcome with that time passed. -/
def timed (a : After) (o : Host.Outcome State Fault Refusal) : Host.Outcome State Fault Refusal :=
  match o with
  | .next s => .next (passed a s)
  | .fault f => .fault f
  | .refused r => .refused r

/-- The time that follows each turn: a datum tick where the turn does not say. -/
def afterOf (t : Turn) : After :=
  match t with
  | .event _ a => a
  | .issue _ _ _ _ a => a
  | .pass _ => .now
  | _ => .tick

/-- What one turn does. -/
def runTurn (t : Turn) (s : State) : Host.Outcome State Fault Refusal :=
  match t with
  | .event i _ => if Instr.isWord i then .fault .badTurn else exec i s
  | .issue core pipe busy d _ => match (pickIssue s core pipe busy).map fun g => beginIssue s g d with
    | some (.trapped s1) => .next s1
    | some (.run i s1) => exec i s1
    | _ => .next s
  | .pass n => .next (elapse s n)
  | .mergeSome f park n => .next (mergeSome s f park n)
  | .copySome op n => .next (copySome s op n)
  | .upset e => .next (upset s e)
  | .corrected log chan => .next (corrected s log chan)
  | .peerAnswer msg status data => .next (peerAnswered s msg status data)
  | .peerSettle inv st => .next (peerSettled s inv st)
  | .peerSend dev m => .next (peerSend s dev m)
  | .queueSetup queue r => .next (setupQueue s queue r)
  | .flits die n => .next (if die < 8 then s.countDie die 0x08 n else s)
  | .sense xs => .next (s.setSys { s.sys with sensors := xs })
  | .outside key data => .next (outsideWrite s key data)

end Sys2Proof.Machine
end

