-- ==== Sys2Proof/Machine/Step.lean ====
section
/-! DEFINITION. One step of the machine: the next turn of the agenda, or of the default schedule, and the time that follows it. -/

namespace Sys2Proof.Machine

/-- One step. -/
def step (s : State) : Host.Outcome State Fault Refusal :=
  let n := nextTurn s
  timed (afterOf n.1) (runTurn n.1 n.2)

/-- A state whose next step fetches and runs the instruction of a word. -/
def State.withFetchWord (s : State) (nbits w : Nat) : State :=
  fetchPlaced s (match defaultTurn s with
    | .issue core pipe busy _ _ => pickIssue s core pipe busy
    | _ => none) (w % 2 ^ nbits)

end Sys2Proof.Machine
end

