-- ==== Sys2Proof/Safety.lean ====
section
/-! DEFINITION. What the claims are stated in: when a word issues, what a word leaves when it completes in the acting lanes, and what a state keeps. -/

namespace Sys2Proof.Machine

/-- The word issues now for the group of `w`: nothing it must wait for is outstanding, the mode and the budget allow it,
and some lane acts in it (R27, R31, R154). `w` holds the group, the active and the acting lanes, the PC, and the state
once the issue is counted. -/
def Issues (i : Instr) (s : State) (w : Wd) : Prop := prepare i s = .run w

/-- The lanes in which a word acts among those that issue it: per lane, those whose guard holds; in the scalar unit all of them
where the lowest one's guard holds (R27, R155, R156). -/
def guarded (i : Instr) (gr : Group) (lanes : List Nat) : List Nat :=
  let holds (l : Nat) : Bool := ((gr.lane? l).map fun u => u.getP (Instr.guard i).p.toNat != (Instr.guard i).neg).getD false
  if Instr.scalar i then (if holds (lanes.headD 32) then lanes else []) else lanes.filter holds

/-- A word executes normally (R16, R24, R27, R31, R154 to R156, R327), in terms of the state and the word alone: a group `gr` of a
team `t` issues it, nothing that it must wait for is outstanding, no issuing lane is in a transaction, the mode and the
budget allow it, and some lane acts. -/
structure Ready (i : Instr) (s : State) (c : Issue) (t : Team) (gr : Group) : Prop where
  issued : s.cur = some c
  team : s.team? c.g.team = some t
  group : s.group? c.g = some gr
  free : stalls s c.g i = false
  plain : ∀ l ∈ lanesOf c.lanes, ∀ u, gr.lane? l = some u → u.tx = none
  mode : Instr.privileged i = true → gr.ctl.priv = true
  budget : overBudget i gr.budget = false
  acts : guarded i gr (lanesOf c.lanes) ≠ []

/-- Such an issue: no lane aborts at it, so the body starts in the state it was issued in. -/
def issueOf (i : Instr) (s : State) (c : Issue) (t : Team) (gr : Group) : Wd :=
  ⟨s.setCur none, s.setCur none, c.g, t, gr, lanesOf c.lanes, guarded i gr (lanesOf c.lanes), c.pc, c.defer⟩

/-- A word completes with the state that `out` gives: whenever it executes normally, and at every issue besides. -/
def Completes (i : Instr) (out : Wd → State) : Prop :=
  (∀ s w, Issues i s w → exec i s = .next (out w)) ∧
  ∀ s c t gr, Ready i s c t gr → exec i s = .next (out (issueOf i s c t gr))

/-- A thread after a word that advances its PC. -/
def stepped (w : Wd) (t : Thread) : Thread := { t with pc := w.pc + 8 }

/-- A group with each of its threads changed by its lane's number. -/
def eachLane (f : Nat → Thread → Thread) (gr : Group) : Group := { gr with lanes := gr.lanes.mapIdx f }

/-- A group after a word that does `f` in each acting lane, after which every active lane's PC advances by 8 (R23, R27). -/
def afterGroup (w : Wd) (f : Nat → Thread → Thread) (gr : Group) : Group :=
  { gr with lanes := gr.lanes.mapIdx fun l t =>
      let u := if w.acting.contains l then f l t else t
      if w.active.contains l then stepped w u else u }

/-- The state after such a word: only its group differs from the state of the issue. -/
def afterLanes (w : Wd) (f : Nat → Thread → Thread) : State := w.s.modGroup w.g (afterGroup w f)

/-- The state after a word that changes the state of the issue to `t`, once every active lane's PC has advanced. -/
def afterWord (w : Wd) (t : State) : State := t.modLanes w.g w.active fun _ u => stepped w u

/-- The lane that stands for the group in a scalar word (R156): the lowest active lane. -/
def leader (w : Wd) : Thread := ((w.acting.head?.bind w.gr.lane?)).getD (Thread.start 0)

/-- A compute word in one lane (R12, R13, R155): its result, its predicates and its flags. -/
def computeLane (fm : AluForm) (op : AluIn → AluOut) (w : Wd) (t : Thread) : Thread :=
  (fm.d.writeV (op (fm.input w.gr t)).d t).sideEffects (op (fm.input w.gr t))

/-- The state after a compute word, per lane or in the scalar unit (R155, R156). -/
def computed (fm : AluForm) (op : AluIn → AluOut) (w : Wd) : State :=
  if fm.x then
    let o := op (fm.input w.gr (leader w))
    w.s.modGroup w.g fun gr => afterGroup w (fun _ t => t.sideEffects o) (fm.d.writeS o.d gr)
  else afterLanes w fun _ t => computeLane fm op w t

/-- The operand form of a register-layout word. -/
def formOf (i : Instr) : AluForm :=
  match regInfo i with
  | some (sp, f) => regForm sp f
  | none => ⟨false, .none, .none, .none, .none⟩

/-- The word completes with the operation `op` on its operands whenever it executes normally. -/
def Computes (i : Instr) (fm : AluForm) (op : AluIn → AluOut) : Prop := Completes i (computed fm op)

/-- The threads of the word's acting lanes park; active lanes that do not act go on (R154). -/
def parked (w : Wd) (p : Park) (s : State) : State :=
  s.modGroup w.g (eachLane fun l t =>
    if w.acting.contains l then { t with park := some p } else if w.active.contains l then stepped w t else t)

/-- A precise trap is taken at once (R395): the team is on its core, the group runs no handler, nothing it issued is outstanding, no
lane of it is in a logged transaction, and its frame, of which no line is locked, can be written. `t` is the state in which the
handler starts. -/
def Takes (s : State) (g : GRef) (i : TrapInfo) (t : State) : Prop :=
  ∃ team gr c s1, s.team? g.team = some team ∧ s.group? g = some gr ∧ gr.handler = none ∧ drained s g = true ∧
    team.resident = true ∧ frameLocked s g = false ∧ loggedLanes s g = [] ∧ s.ctxOf team = some c ∧
    writeVa s team.core gr.ctl.asid.toNat true (frameAddrOf c team gr).toNat
      (trapFrame gr (causeWord i.async i.sub2 i.sub i.cause) i.pc i.addr i.fin i.seq) = .ok s1 ∧
    t = (s1.modGroup g fun x => x.enter (frameAddrOf c team gr) s.time.datum i).countCore team.core 0x0C 1

/-- What a whole-word trap of a word reports: nothing has completed (R394, R399). -/
def wordTrap (w : Wd) (cause sub : Nat) (addr : W64) : TrapInfo := ⟨cause, sub, 0, false, w.pc, addr, maskOf w.active ++ 0#32, 0, none⟩

/-- The accesses of a memory word: one per acting lane in ascending order, or the one of the scalar unit, as lane 32. -/
def unitsOf (m : MemF) (w : Wd) : List Nat := if m.x then [32] else w.acting

/-- Steps taken one after the other, each from the state that the one before left. -/
def Runs (one : Nat → State → State → Prop) : List Nat → State → State → Prop
  | [], s, t => t = s
  | l :: ls, s, t => ∃ u, one l s u ∧ Runs one ls u t

/-- The state in which an access looks its page up: a wide acquire has emptied the core's L1 (R290). -/
def acquired (w : Wd) (q : Req) (s : State) : State :=
  if Order.acqs q.order && wide q.scope then l1Clear s w.t.core else s

/-- The oldest access of the word's group to the host or a peer that still waits at the sector of an access (R437). -/
def olderThere (w : Wd) (q : Req) (s : State) : Option Nat := remoteOlder s w.g w.t.core w.gr.ctl.asid.toNat q.va.toNat

/-- An access that is performed at once, outside logged transactions. `p` is where it is performed and `seen` the bytes that
a load finds there. It is aligned; it lies in a view whose lines are present, or its page is resident and allows it, no older
access of its group to one of its bytes is outstanding, its line is not locked and has room, and its data is not in error. -/
inductive Does (w : Wd) (q : Req) (p : Place) (seen : List Byte) (s : State) : State → Prop where
  | view (t : Team) (off : Nat) : q.va.toNat % q.n = 0 → s.inLogged w.g q.lane = false →
      viewOf w.t q.va.toNat = some off → (acquired w q s).team? w.g.team = some t → linesPresent t off q.n = true →
      (acquired w q s).errs.scratch.contains (w.g.team, off / 128) = false → p = .view w.g.team off →
      seen = memRead t.scratch off q.n → Does w q p seen s (performAt p (acquired w q s) w.g q.lane q.kind)
  | hit (key e : Nat) (line : List Byte) (s1 : State) : q.va.toNat % q.n = 0 → s.inLogged w.g q.lane = false →
      viewOf w.t q.va.toNat = none → isLoad q.kind = true → olderThere w q s = none →
      xlate (acquired w q s) w.t.core w.gr.ctl.asid.toNat w.gr.ctl.priv (needOf q.kind) q.va.toNat = (.ok key e, s1) →
      amGet (s1.core w.t.core).l1 (sectorOf key) = some ⟨line, false⟩ → (accessOf w q key e).l1 = true →
      olderTo s1 (accessOf w q key e) = false → p = .mem key e (classOf q.evp e) →
      seen = (line.drop (key % 64)).take q.n → Does w q p seen s (l1Hit s1 (accessOf w q key e) line)
  | home (key e : Nat) (s1 s2 : State) : q.va.toNat % q.n = 0 → s.inLogged w.g q.lane = false →
      viewOf w.t q.va.toNat = none → (q.va.toNat / 2 ^ 60 ≤ 8 ∨ isLoad q.kind = true) → olderThere w q s = none →
      xlate (acquired w q s) w.t.core w.gr.ctl.asid.toNat w.gr.ctl.priv (needOf q.kind) q.va.toNat = (.ok key e, s1) →
      (amGet (s1.core w.t.core).l1 (sectorOf key) = none ∨ (accessOf w q key e).l1 = false) →
      (w.defer = false ∨ 8 < q.va.toNat / 2 ^ 60) →
      olderTo s1 (accessOf w q key e) = false → heldUp s1 key e = false → inError s1 key = false →
      p = .mem key e (accessOf w q key e).cls → seen = memRead s1.mem key q.n →
      performAccess s1 (accessOf w q key e) = some s2 → Does w q p seen s s2

/-- What stands before an access is looked up: it is aligned, no view holds it, and no older access of its group to the host or
a peer waits at its sector. -/
def Plain (w : Wd) (q : Req) (s : State) : Prop :=
  q.va.toNat % q.n = 0 ∧ viewOf w.t q.va.toNat = none ∧ olderThere w q s = none

/-- A load of a page that is not resident: zeros, and LDR's predicate 1 (R265, R331). -/
def DoesAbsent (w : Wd) (q : Req) (s u : State) : Prop :=
  s.inLogged w.g q.lane = false ∧ Plain w q s ∧ ∃ d x sz pd s1, q.kind = .load d x sz pd ∧
    xlate (acquired w q s) w.t.core w.gr.ctl.asid.toNat w.gr.ctl.priv .read q.va.toNat = (.absent, s1) ∧
    u = putLoad s1 w.g q.lane d x sz pd true 0

/-- An access that is left outstanding (R243, R289, R294, R327): an older access of its group to one of its bytes is, or it does not hit the
L1 and its line is locked or without room, or the schedule leaves it. The elements of ATOMV go apart (R337). -/
def Queued (w : Wd) (q : Req) (s u : State) : Prop :=
  s.inLogged w.g q.lane = false ∧ Plain w q s ∧ (q.va.toNat / 2 ^ 60 ≤ 8 ∨ isLoad q.kind = true) ∧ ∃ key e s1,
    xlate (acquired w q s) w.t.core w.gr.ctl.asid.toNat w.gr.ctl.priv (needOf q.kind) q.va.toNat = (.ok key e, s1) ∧
    (inError s1 key && returnsData q.kind) = false ∧
    (olderTo s1 (accessOf w q key e) = true ∨
      (amGet (s1.core w.t.core).l1 (sectorOf key) = none ∨ (accessOf w q key e).l1 = false) ∧
        (heldUp s1 key e = true ∨ w.defer = true ∧ q.va.toNat / 2 ^ 60 ≤ 8)) ∧
    u = (accessOf w q key e).elements.foldl enqueue (l1Sent s1 (coreOf s1 w.g) (accessOf w q key e))

/-- An operation as a word issues it: its class, sequence number and stamp, and the clock and pipe of the issue (R348, R385). -/
def freshOp (w : Wd) (kind : OpKind) (cls seq clk : Nat) (stamp : Option (W64 × W64 × Bool)) : Op :=
  { kind := kind, g := w.g, cls := cls, seq := seq, pc := w.pc, asid := w.gr.ctl.asid, priv := w.gr.ctl.priv
    stamp := stamp, st := .issued, delivered := [], given := [], cancelled := false, faulted := false, image := none, held := none
    clk := clk, pipe := w.gr.slot / 16 }

/-- The first access of a word to the host or a peer takes the word's sequence number in rem, and the count rises; the later ones
belong to the same operation (R349, R437). -/
def remIssued (w : Wd) (rem : Counter) (s : State) : State :=
  if rem.seq = w.gr.rem.seq then
    ((s.setFresh (s.fresh + 1)).setOps (amPut s.ops s.fresh (freshOp w .remote 3 rem.seq s.time.clk none))).modGroup w.g fun x =>
      { x with rem := ⟨rem.n + 1, (rem.seq + 1) % 2 ^ 32⟩ }
  else s

/-- A store or an atomic without a reply to the host or a peer, counted in rem until it is acknowledged (R437). -/
def Sent (w : Wd) (q : Req) (s u : State) : Prop :=
  s.inLogged w.g q.lane = false ∧ q.va.toNat % q.n = 0 ∧ viewOf w.t q.va.toNat = none ∧
    (q.va.toNat / 2 ^ 60 = 9 ∧ hostAtomic q.kind = true ∨
      q.va.toNat / 2 ^ 60 = 10 ∧ 4 ≤ s.sys.stage ∧ peerOf q.va.toNat ≠ s.sys.device) ∧
    isLoad q.kind = false ∧ returnsData q.kind = false ∧ (∀ ps, q.kind ≠ .unit ps) ∧ ∃ gr, s.group? w.g = some gr ∧
    (gr.rem.seq = w.gr.rem.seq → gr.rem.n < 63) ∧
    let a := { accessOf w q (remoteKey s w.t.core w.gr.ctl.asid.toNat q.va.toNat) 0 with remote := true, seq := w.gr.rem.seq }
    u = enqueue (l1Sent (remIssued w gr.rem s) w.t.core a) a

/-- An access of a lane in a logged transaction (R301 to R303): to a resident page outside the views, its words in no locked
line, both logs with room (`txAt`). Reads take the lane's own buffered bytes first; writes go to the write log only. -/
def Logged (w : Wd) (q : Req) (s u : State) : Prop :=
  ∃ t x key e s1, s.lane? w.g q.lane = some t ∧ t.tx = some x ∧ x.mode ≠ .irrevocable ∧ viewOf w.t q.va.toNat = none ∧
    q.va.toNat / 2 ^ 60 ≤ 8 ∧ q.va.toNat % q.n = 0 ∧
    xlate s w.t.core w.gr.ctl.asid.toNat w.gr.ctl.priv (needOf q.kind) q.va.toNat = (.ok key e, s1) ∧ txAt w q s1 x key e = .ok u

/-- One access of LD, ST, LDR, ATOM, ATOMV or RED that neither traps, aborts nor waits. -/
def Passes (w : Wd) (q : Req) (s u : State) : Prop :=
  (∃ p seen, Does w q p seen s u) ∨ DoesAbsent w q s u ∨ Queued w q s u ∨ Sent w q s u ∨ Logged w q s u

/-- What a trap of single lanes of a word reports (R325, R394, R399): the word is complete in the other active lanes. -/
def laneTrap (w : Wd) (failing : List Nat) (cause sub : Nat) (addr : W64) : TrapInfo :=
  ⟨cause, sub, 0, false, w.pc, addr, maskOf w.active ++ maskOf (w.active.filter fun l => !failing.contains l), 0, none⟩

/-- The active lanes in which a word is complete go on; those in which it failed stand at it (R394). -/
def beyond (w : Wd) (failing : List Nat) (s : State) : State :=
  s.modLanes w.g (w.active.filter fun l => !failing.contains l) fun _ t => stepped w t

/-- No active lane is parked, as at every issue (R154). -/
def Awake (w : Wd) : Prop := ∀ l ∈ w.active, ∀ t, w.gr.lane? l = some t → t.park = none

/-- An access outside logged transactions that traps, with its cause and sub-cause and the state that its checks leave (R263 to R265,
R325): it is misaligned; its page's translation refuses it; or it writes to a page that is not resident. -/
inductive Fails (w : Wd) (q : Req) (s : State) : Nat → Nat → State → Prop where
  | misaligned : q.va.toNat % q.n ≠ 0 → Fails w q s 0x16 0 s
  | refused (c : Cause) (s1 : State) : Plain w q s → (q.va.toNat / 2 ^ 60 ≠ 9 ∧ q.va.toNat / 2 ^ 60 ≠ 10 ∨ isLoad q.kind = true) →
      xlate (acquired w q s) w.t.core w.gr.ctl.asid.toNat w.gr.ctl.priv (needOf q.kind) q.va.toNat = (.fault c, s1) → c.cause ≠ 0 →
      Fails w q s c.cause c.sub s1
  | absent (s1 : State) : Plain w q s → q.va.toNat / 2 ^ 60 ≤ 7 → isLoad q.kind = false →
      xlate (acquired w q s) w.t.core w.gr.ctl.asid.toNat w.gr.ctl.priv (needOf q.kind) q.va.toNat = (.absent, s1) →
      Fails w q s 0x1B 0 s1

/-- The accesses of a word in turn, of which some trap: each of these lanes with its cause and sub-cause (R325). -/
def Tries (w : Wd) (q : Nat → Req) : List Nat → List (Nat × Nat × Nat) → State → State → Prop
  | [], bad, s, t => bad = [] ∧ t = s
  | l :: ls, bad, s, t => (∃ u, Passes w (q l) s u ∧ Tries w q ls bad u t) ∨
      ∃ c sub u rest, Fails w (q l) s c sub u ∧ bad = (l, c, sub) :: rest ∧ Tries w q ls rest u t

/-- An engine operation issued by a word: it takes the next sequence number of its class, whose counter rises (R348, R349). -/
def opIssued (w : Wd) (kind : OpKind) (cls : Nat) (stamp : Option (W64 × W64 × Bool)) : State :=
  let c := w.gr.counter cls
  ((w.s.setFresh (w.s.fresh + 1)).setOps (amPut w.s.ops w.s.fresh (freshOp w kind cls c.seq w.s.time.clk stamp))).modGroup w.g fun g =>
    g.setCounter cls ⟨c.n + 1, (c.seq + 1) % 2 ^ 32⟩

/-- A scratchpad access that is performed: aligned, inside the team's scratchpad or the handler's own inbox entry, every
line present and free of error (R220, R330). -/
def DoesLocal (w : Wd) (q : Req) (p : Place) (s u : State) : Prop :=
  q.va.toNat % q.n = 0 ∧ ∃ t off, s.team? (scratchOwner s w.g.team) = some t ∧ scratchAt t q.va.toNat q.n = .ok off ∧
    linesPresent t off q.n = true ∧ s.errs.scratch.contains (scratchOwner s w.g.team, off / 128) = false ∧
    p = .view (scratchOwner s w.g.team) off ∧ u = performAt p s w.g q.lane q.kind

end Sys2Proof.Machine
end

