-- ==== Sys2Proof/Certificates/Slice0/Obligations.lean ====
section
/-! DEFINITION. The statements for the provers, one per numbered rule or family of rules of the spec. -/

section

open Sys2Proof Sys2Proof.Machine

/-! The compute words: what each leaves whenever it issues. `x.a`, `x.b` and `x.c` are its operands, `x.d` the old value of
its destination, `x.ps` the predicates and `x.ctl` FPCTL. -/

/-- R92 to R98, R75: every integer word's exact formula, clamped under SAT, modulo 2^w; IADDC and ISUBB also write their predicate,
ICMP only its predicate. The second source of the immediate words is the 24-bit immediate, extended by the signedness of TYPE. -/
def Obligations.IntegerWords : Prop :=
  (∀ f : RegF,
    let v (n : Nat) : Int := valueOf f.ty.signed f.ty.width n
    let out (sat : Bool) (x : Int) : AluOut :=
      outD (wrap f.ty.width (if sat then clampInt (minOf f.ty.signed f.ty.width) (maxOf f.ty.signed f.ty.width) x else x))
    Computes (.iadd f) (formOf (.iadd f)) (fun x => out f.sat (v x.a + v x.b)) ∧
    Computes (.isub f) (formOf (.isub f)) (fun x => out f.sat (v x.a - v x.b)) ∧
    Computes (.iaddc f) (formOf (.iaddc f)) (fun x =>
      let n := x.a % 2 ^ f.ty.width + x.b % 2 ^ f.ty.width + (if x.pred f.aux.toNat then 1 else 0)
      ⟨n % 2 ^ f.ty.width, [(f.aux.toNat % 8, 2 ^ f.ty.width ≤ n)], flNone⟩) ∧
    Computes (.isubb f) (formOf (.isubb f)) (fun x =>
      let n : Int := Int.ofNat (x.a % 2 ^ f.ty.width) - Int.ofNat (x.b % 2 ^ f.ty.width) - (if x.pred f.aux.toNat then 1 else 0)
      ⟨wrap f.ty.width n, [(f.aux.toNat % 8, n < 0)], flNone⟩) ∧
    Computes (.imul f) (formOf (.imul f)) (fun x => out false (v x.a * v x.b)) ∧
    Computes (.imulh f) (formOf (.imulh f)) (fun x => out false (v x.a * v x.b / Int.ofNat (2 ^ f.ty.width))) ∧
    Computes (.imad f) (formOf (.imad f)) (fun x => out false (v x.a * v x.b + v x.c)) ∧
    Computes (.imadw f) (formOf (.imadw f)) (fun x => outD (wrap 64 (v x.a * v x.b + valueOf f.ty.signed 64 x.c))) ∧
    Computes (.idiv f) (formOf (.idiv f)) (fun x => out false
      (if v x.b = 0 then (if f.ty.signed then -1 else maxOf false f.ty.width)
       else if f.ty.signed ∧ v x.a = minOf true f.ty.width ∧ v x.b = -1 then minOf true f.ty.width
       else Int.tdiv (v x.a) (v x.b))) ∧
    Computes (.irem f) (formOf (.irem f)) (fun x => out false
      (if v x.b = 0 then v x.a
       else if f.ty.signed ∧ v x.a = minOf true f.ty.width ∧ v x.b = -1 then 0
       else v x.a - Int.tdiv (v x.a) (v x.b) * v x.b)) ∧
    Computes (.ineg f) (formOf (.ineg f)) (fun x => out f.sat (-v x.a)) ∧
    Computes (.iabs f) (formOf (.iabs f)) (fun x => out f.sat (if v x.a < 0 then -v x.a else v x.a)) ∧
    Computes (.imin f) (formOf (.imin f)) (fun x => out false (if v x.a ≤ v x.b then v x.a else v x.b)) ∧
    Computes (.imax f) (formOf (.imax f)) (fun x => out false (if v x.a ≤ v x.b then v x.b else v x.a)) ∧
    Computes (.isad f) (formOf (.isad f)) (fun x =>
      out false ((if v x.a - v x.b < 0 then -(v x.a - v x.b) else v x.a - v x.b) + v x.c)) ∧
    Computes (.idot4 f) (formOf (.idot4 f)) (fun x =>
      let e (n k : Nat) : Int := valueOf f.ty.signed 8 (bitsAt n k 8)
      let sum := valueOf f.ty.signed 32 x.c + e x.a 0 * e x.b 0 + e x.a 1 * e x.b 1 + e x.a 2 * e x.b 2 + e x.a 3 * e x.b 3
      outD (wrap 32 (if f.sat then clampInt (minOf f.ty.signed 32) (maxOf f.ty.signed 32) sum else sum))) ∧
    Computes (.icmp f) (formOf (.icmp f)) (fun x => outP f.d.toNat
      (match f.op.toNat with
        | 0 => v x.a == v x.b
        | 1 => v x.a != v x.b
        | 2 => decide (v x.a < v x.b)
        | 3 => decide (v x.a ≤ v x.b)
        | 4 => decide (v x.b < v x.a)
        | _ => decide (v x.b ≤ v x.a)) flNone)) ∧
  ∀ f : ImmF,
    let v (n : Nat) : Int := valueOf f.ty.signed f.ty.width n
    let out (sat : Bool) (x : Int) : AluOut :=
      outD (wrap f.ty.width (if sat then clampInt (minOf f.ty.signed f.ty.width) (maxOf f.ty.signed f.ty.width) x else x))
    let imm := immForm f (if f.ty.signed then sextNat 24 f.ty.width f.imm.toNat else f.imm.toNat)
    Computes (.iaddImm f) imm (fun x => out f.sat (v x.a + v x.b)) ∧
    Computes (.isubImm f) imm (fun x => out f.sat (v x.a - v x.b)) ∧
    Computes (.imulImm f) imm (fun x => out false (v x.a * v x.b)) ∧
    Computes (.iminImm f) imm (fun x => out false (if v x.a ≤ v x.b then v x.a else v x.b)) ∧
    Computes (.imaxImm f) imm (fun x => out false (if v x.a ≤ v x.b then v x.b else v x.a))

/-- R75, R97, R99 to R105: the bitwise, shift, bit-field, counting and byte-permute words; those with an immediate extend it from
bit 23, and the shifts take their count from its bits 5 to 0. -/
def Obligations.LogicWords : Prop :=
  (∀ f : RegF,
    let w := f.ty.width
    Computes (.and f) (formOf (.and f)) (fun x => outD (x.a &&& x.b)) ∧
    Computes (.or f) (formOf (.or f)) (fun x => outD (x.a ||| x.b)) ∧
    Computes (.xor f) (formOf (.xor f)) (fun x => outD (x.a ^^^ x.b)) ∧
    Computes (.not f) (formOf (.not f)) (fun x => outD (2 ^ w - 1 - x.a % 2 ^ w)) ∧
    Computes (.lop3 f) (formOf (.lop3 f)) (fun x => outD (ofBits w fun i =>
      bit (f.op.toNat * 16 + f.aux.toNat / 2)
        ((if bit x.a i then 1 else 0) + (if bit x.b i then 2 else 0) + (if bit x.c i then 4 else 0)))) ∧
    Computes (.shl f) (formOf (.shl f)) (fun x => outD (if w ≤ x.b then 0 else x.a * 2 ^ x.b % 2 ^ w)) ∧
    Computes (.shr f) (formOf (.shr f)) (fun x => outD (if w ≤ x.b then 0 else x.a % 2 ^ w / 2 ^ x.b)) ∧
    Computes (.sar f) (formOf (.sar f)) (fun x =>
      outD (wrap w (toSigned w x.a / Int.ofNat (2 ^ (if x.b < w - 1 then x.b else w - 1))))) ∧
    Computes (.rot f) (formOf (.rot f)) (fun x =>
      outD ((x.a % 2 ^ w * 2 ^ (x.b % w) + x.a % 2 ^ w / 2 ^ (w - x.b % w)) % 2 ^ w)) ∧
    Computes (.fshfL f) (formOf (.fshfL f)) (fun x =>
      outD ((x.a % 2 ^ w * 2 ^ w + x.b % 2 ^ w) * 2 ^ (x.c % w) / 2 ^ w % 2 ^ w)) ∧
    Computes (.fshfR f) (formOf (.fshfR f)) (fun x =>
      outD ((x.a % 2 ^ w * 2 ^ w + x.b % 2 ^ w) / 2 ^ (x.c % w) % 2 ^ w)) ∧
    Computes (.bfe f) (formOf (.bfe f)) (fun x => outD (bfeVal f.ty.signed w x.a x.b)) ∧
    Computes (.bfi f) (formOf (.bfi f)) (fun x => outD (ofBits w fun i =>
      if x.b % 256 ≤ i && i < x.b % 256 + x.b / 256 % 256 then bit x.a (i - x.b % 256) else bit x.c i)) ∧
    Computes (.popc f) (formOf (.popc f)) (fun x => outD (popcount w x.a)) ∧
    Computes (.clz f) (formOf (.clz f)) (fun x => outD (if x.a = 0 then w else w - 1 - Nat.log2 x.a)) ∧
    Computes (.ctz f) (formOf (.ctz f)) (fun x => outD (ctz w x.a)) ∧
    Computes (.brev f) (formOf (.brev f)) (fun x => outD (brev w x.a)) ∧
    Computes (.prmt f) (formOf (.prmt f)) (fun x => outD (packElems 8 ((List.range 4).map fun j =>
      prmtByte (x.a % 2 ^ 32 + x.b % 2 ^ 32 * 2 ^ 32) (bitsAt x.c j 8))))) ∧
  ∀ f : ImmF,
    let w := f.ty.width
    let imm := immForm f (sextNat 24 w f.imm.toNat)
    let cnt := f.imm.toNat % 64
    Computes (.andImm f) imm (fun x => outD (x.a &&& x.b)) ∧
    Computes (.orImm f) imm (fun x => outD (x.a ||| x.b)) ∧
    Computes (.xorImm f) imm (fun x => outD (x.a ^^^ x.b)) ∧
    Computes (.shlImm f) (immForm f cnt) (fun x => outD (if w ≤ x.b then 0 else x.a * 2 ^ x.b % 2 ^ w)) ∧
    Computes (.shrImm f) (immForm f cnt) (fun x => outD (if w ≤ x.b then 0 else x.a % 2 ^ w / 2 ^ x.b)) ∧
    Computes (.sarImm f) (immForm f cnt) (fun x =>
      outD (wrap w (toSigned w x.a / Int.ofNat (2 ^ (if x.b < w - 1 then x.b else w - 1))))) ∧
    Computes (.rotImm f) (immForm f cnt) (fun x =>
      outD ((x.a % 2 ^ w * 2 ^ (x.b % w) + x.a % 2 ^ w / 2 ^ (w - x.b % w)) % 2 ^ w))

/-- R51, R54, R55, R75, R114 to R119: the rounded, minimum, comparison and classification words of floating point, element by
element for packed types; RND 0 takes FPCTL's mode, and FTZ and DAZ come from FPCTL. The immediate is bits 31 to 8 of an f32,
widened exactly for .f64; those words round by FPCTL. (Readings of the model's own: log entry 25.) -/
def Obligations.FloatWords : Prop :=
  (∀ f : RegF,
    let mode (x : AluIn) : Mode := modeOf f.rnd x.ctl
    let ftz (x : AluIn) : Bool := flushOf x.ctl (fmtD f.ty)
    let num (x : AluIn) (n : Nat) : FVal := fread (fmtD f.ty) (ftz x) n
    let each (op : AluIn → Nat → Nat → Nat → FRes) (x : AluIn) : AluOut :=
      if f.ty.packed then
        let lo := op x (x.a % 2 ^ 16) (x.b % 2 ^ 16) (x.c % 2 ^ 16)
        let hi := op x (x.a / 2 ^ 16) (x.b / 2 ^ 16) (x.c / 2 ^ 16)
        ⟨lo.bits + 2 ^ 16 * hi.bits, [], lo.fl ||| hi.fl⟩
      else outF (op x x.a x.b x.c)
    Computes (.fadd f) (formOf (.fadd f)) (each fun x a b _ => fadd (fmtD f.ty) (mode x) (ftz x) (num x a) (num x b)) ∧
    Computes (.fsub f) (formOf (.fsub f)) (each fun x a b _ => fadd (fmtD f.ty) (mode x) (ftz x) (num x a) (num x b).flip) ∧
    Computes (.fmul f) (formOf (.fmul f)) (each fun x a b _ => fmul (fmtD f.ty) (mode x) (ftz x) (num x a) (num x b)) ∧
    Computes (.ffma f) (formOf (.ffma f))
      (each fun x a b c => ffma (fmtD f.ty) (mode x) (ftz x) (num x a) (num x b) (num x c)) ∧
    Computes (.fmin f) (formOf (.fmin f)) (each fun x a b _ => fminmax (fmtD f.ty) false false (num x a) (num x b)) ∧
    Computes (.fmax f) (formOf (.fmax f)) (each fun x a b _ => fminmax (fmtD f.ty) true false (num x a) (num x b)) ∧
    Computes (.fminn f) (formOf (.fminn f)) (each fun x a b _ => fminmax (fmtD f.ty) false true (num x a) (num x b)) ∧
    Computes (.fmaxn f) (formOf (.fmaxn f)) (each fun x a b _ => fminmax (fmtD f.ty) true true (num x a) (num x b)) ∧
    Computes (.fcmp f) (formOf (.fcmp f)) (fun x =>
      outP f.d.toNat (floatCond f.op.toNat (num x x.a) (num x x.b))
        (flWhen ((num x x.a).isSnan || (num x x.b).isSnan) flNV)) ∧
    Computes (.fclass f) (formOf (.fclass f)) (classify f.ty) ∧
    Computes (.frnd f) (formOf (.frnd f)) (each fun x a _ _ => frnd (fmtD f.ty) (mode x) (ftz x) (num x a)) ∧
    Computes (.fscale f) (formOf (.fscale f))
      (each fun x a _ _ => fscale (fmtD f.ty) (mode x) (ftz x) (num x a) (toSigned 32 x.b)) ∧
    Computes (.fdiv f) (formOf (.fdiv f)) (each fun x a b _ => fdiv (fmtD f.ty) (mode x) (ftz x) (num x a) (num x b)) ∧
    Computes (.fsqrt f) (formOf (.fsqrt f)) (each fun x a _ _ => fsqrt (fmtD f.ty) (mode x) (ftz x) (num x a))) ∧
  ∀ f : ImmF,
    let mode (x : AluIn) : Mode := modeOf .ctl x.ctl
    let ftz (x : AluIn) : Bool := flushOf x.ctl (fmtD f.ty)
    let num (x : AluIn) (n : Nat) : FVal := fread (fmtD f.ty) (ftz x) n
    let imm := immForm f (if f.ty = .f64 then widenF32 (f.imm.toNat * 256) else f.imm.toNat * 256)
    f.ty.packed = false →
    Computes (.faddImm f) imm (fun x => outF (fadd (fmtD f.ty) (mode x) (ftz x) (num x x.a) (num x x.b))) ∧
    Computes (.fsubImm f) imm (fun x => outF (fadd (fmtD f.ty) (mode x) (ftz x) (num x x.a) (num x x.b).flip)) ∧
    Computes (.fmulImm f) imm (fun x => outF (fmul (fmtD f.ty) (mode x) (ftz x) (num x x.a) (num x x.b))) ∧
    Computes (.fminImm f) imm (fun x => outF (fminmax (fmtD f.ty) false false (num x x.a) (num x x.b))) ∧
    Computes (.fmaxImm f) imm (fun x => outF (fminmax (fmtD f.ty) true false (num x x.a) (num x x.b))) ∧
    Computes (.fminnImm f) imm (fun x => outF (fminmax (fmtD f.ty) false true (num x x.a) (num x x.b))) ∧
    Computes (.fmaxnImm f) imm (fun x => outF (fminmax (fmtD f.ty) true true (num x x.a) (num x x.b)))

/-- R120, R121: the approximated functions complete with a result that depends on the element and the flush mode alone; which bits it
has within the bound of R121 is the model's free value (log entry 7). -/
def Obligations.ApproximationWords : Prop :=
  ∀ f : RegF,
    let each (fn : AFn) (x : AluIn) : AluOut :=
      elementwise f.ty (fun a _ _ => approxElem fn (fmtD f.ty) (flushOf x.ctl (fmtD f.ty)) a) x
    Computes (.frcp f) (formOf (.frcp f)) (each .rcp) ∧
    Computes (.frsq f) (formOf (.frsq f)) (each .rsq) ∧
    Computes (.fexp2 f) (formOf (.fexp2 f)) (each .exp2) ∧
    Computes (.flog2 f) (formOf (.flog2 f)) (each .log2) ∧
    Computes (.fsin f) (formOf (.fsin f)) (each .sin) ∧
    Computes (.fcos f) (formOf (.fcos f)) (each .cos) ∧
    Computes (.ftanh f) (formOf (.ftanh f)) (each .tanh)

/-- R57 to R62, R122 to R125: conversions between types, packing and unpacking of pairs of elements, and block quantisation.
Where MXQ's scale register lies inside its run of elements, which of the two stands there is the model's free choice
`Config.mxqScaleLast` (the spec orders neither after the other). -/
def Obligations.ConversionWords : Prop :=
  ∀ f : RegF,
    let mode (x : AluIn) : Mode := modeOf f.rnd x.ctl
    Computes (.cvt f) (formOf (.cvt f))
      (fun x => outF (convVal f.ty ((Ty.ofCode f.aux.toNat).getD .i8) (mode x) f.sat x.ctl x.a)) ∧
    Computes (.qpack f) (formOf (.qpack f)) (fun x =>
      let lo := convVal f.ty .f32 (mode x) f.sat x.ctl x.a
      let hi := convVal f.ty .f32 (mode x) f.sat x.ctl x.b
      ⟨packInto f.ty.width f.op.toNat x.d lo.bits hi.bits, [], lo.fl ||| hi.fl⟩) ∧
    Computes (.qunpk f) (formOf (.qunpk f)) (fun x =>
      let e (k : Nat) : FRes := convVal .f32 f.ty (FpCtl.mode x.ctl) false x.ctl (bitsAt x.a k f.ty.width)
      ⟨(e (2 * f.op.toNat)).bits + 2 ^ 32 * (e (2 * f.op.toNat + 1)).bits, [],
        (e (2 * f.op.toNat)).fl ||| (e (2 * f.op.toNat + 1)).fl⟩) ∧
    Completes (.mxq f) (fun w => afterLanes w fun _ t =>
      let r := mxQuantise (fmtD f.ty) (mxqMode f.rnd)
        ((List.range 32).map fun i => fread fmtF32 (flushOf t.fpctl fmtF32) (bitsAt (t.getRun f.a.toNat 32) i 32))
      let scale (u : Thread) : Thread := u.setV f.c.toNat (BitVec.ofNat 32 r.1)
      let elems (u : Thread) : Thread := u.setRun f.d.toNat (mxRegs f.ty) (packElems f.ty.width r.2.1)
      (if Config.mxqScaleLast then scale (elems t) else elems (scale t)).orFlags r.2.2)

/-- R76, R106 to R110: moves, immediates, selection, and the predicate words. MOVH keeps the lower 32 bits; PSET applies its
truth table to three predicates; PMOV moves all eight predicates, and p7 is not written. -/
def Obligations.MoveWords : Prop :=
  (∀ f : RegF,
    Computes (.mov f) (formOf (.mov f)) (fun x => outD x.b) ∧
    Computes (.sel f) (formOf (.sel f)) (fun x => outD (if x.pred f.c.toNat then x.a else x.b)) ∧
    Computes (.pset f) (formOf (.pset f)) (fun x => outP f.d.toNat
      (bit (f.op.toNat * 16 + f.aux.toNat / 2) ((if x.pred f.a.toNat then 1 else 0) + (if x.pred f.b.toNat then 2 else 0) +
        (if x.pred f.c.toNat then 4 else 0))) flNone) ∧
    Computes (.pmovV f) (formOf (.pmovV f)) (fun x => outD x.ps) ∧
    Computes (.pmovP f) (formOf (.pmovP f)) (fun x => ⟨0, (List.range 7).map fun i => (i, bit x.a i), flNone⟩)) ∧
  ∀ f : WideF,
    let dst (w : Nat) : Dst := if f.x then .s f.d.toNat 64 false else .v f.d.toNat w false
    Computes (.movi f) ⟨f.x, dst 32, .none, .none, .none⟩ (fun _ => outD (if f.sx then sextNat 32 64 f.imm.toNat else f.imm.toNat)) ∧
    Computes (.movh f) ⟨f.x, dst 64, if f.x then .s f.d.toNat 64 else .v f.d.toNat 64, .none, .none⟩
      (fun x => outD (f.imm.toNat * 2 ^ 32 + x.a % 2 ^ 32))

/-- R17, R19, R20, R111 to R113, R144, R172, R186, R316: MFS reads the special register of its index in each acting lane, or in the
lowest one for the scalar form, cut to TYPE's width; MTS replaces FPCTL (4 bits) or FPFLAGS (6 bits) in every acting lane where no
lane's value sets a reserved bit, the scalar form with its one value. A value with a reserved bit traps ILLEGAL_ENCODING: in the lanes
whose own value it is, the others being complete, or the scalar form as a whole. -/
def Obligations.SpecialRegisters : Prop :=
  (∀ (f : RegF) (s : State) (w : Wd), Issues (.mfs f) s w →
    let val (l : Nat) (t : Thread) : Nat :=
      (match f.b.toNat with
        | 0x00 => l
        | 0x01 => w.g.ix
        | 0x02 => w.t.teamid.toNat
        | 0x03 => w.gr.role
        | 0x04 => w.t.core % 32
        | 0x05 => w.t.core / 32
        | 0x06 => w.s.sys.device
        | 0x07 => t.txlog.iter.toNat
        | 0x08 => w.s.time.datum % 2 ^ 64
        | 0x09 => (w.s.time.clk - (w.s.core w.t.core).clkBase) % 2 ^ 64
        | 0x0A => t.fpctl.toNat
        | 0x0B => t.fpflags.toNat
        | 0x0C => w.t.teams.toNat
        | 0x0D => w.t.groups.length
        | _ => w.t.argp.toNat) % 2 ^ f.ty.width
    exec (.mfs f) s = .next
      (if f.x then afterWord w (w.s.modGroup w.g fun g => g.setS f.d.toNat (BitVec.ofNat 64 (val (w.acting.headD 0) (leader w))))
       else afterLanes w fun l t => t.setRun f.d.toNat (f.ty.width / 32) (val l t))) ∧
  ∀ (f : RegF) (s : State) (w : Wd), Issues (.mts f) s w →
    let val (l : Nat) : Nat :=
      if f.x then (w.gr.getS f.a.toNat).toNat % 2 ^ f.ty.width
      else ((w.gr.lane? l).map fun t => t.getRun f.a.toNat (f.ty.width / 32)).getD 0
    let put (l : Nat) (t : Thread) : Thread :=
      if f.b.toNat = 0x0A then { t with fpctl := BitVec.ofNat 4 (val l) } else { t with fpflags := BitVec.ofNat 6 (val l) }
    let failing := w.acting.filter fun l => 2 ^ (if f.b.toNat = 0x0A then 4 else 6) ≤ val l
    (failing = [] → exec (.mts f) s = .next (afterLanes w put)) ∧
    ∀ u, failing ≠ [] →
      (f.x = true → Takes w.s w.g (wordTrap w 0x02 0 0) u → exec (.mts f) s = .next u) ∧
      (f.x = false → Awake w → Takes (beyond w failing (w.s.modLanes w.g (w.acting.filter fun l => !failing.contains l) put)) w.g
        (laneTrap w failing 0x02 0 0) u → exec (.mts f) s = .next u)

/-- R28, R29, R85, R86: a pair reads both halves' sources before either half writes; each half is its full form's operation
at 32 bits, and the flags of both are raised. -/
def Obligations.PairWord : Prop :=
  ∀ u l : Half,
    let imm (h : Half) (n : BitVec 16) : Nat :=
      match h.hop with
      | .iadd | .isub | .imul | .imin | .imax => sextNat 16 32 n.toNat
      | .nmin | .nmax | .and | .or | .xor => n.toNat
      | .shl | .shr | .sar | .rot => n.toNat % 32
      | .fadd | .fsub | .fmul | .fmin | .fmax | .fminn | .fmaxn => n.toNat * 2 ^ 16
    let val (h : Half) (t : Thread) : AluOut :=
      halfOp h.hop ⟨(t.getV h.d.toNat).toNat, (match h.src with
        | .reg a => (t.getV a.toNat).toNat
        | .imm n => imm h n), 0, 0, t.preds, t.fpctl⟩
    Completes (.pair u l) (fun w => afterLanes w fun _ t =>
      ((t.setV u.d.toNat (BitVec.ofNat 32 (val u t).d)).setV l.d.toNat (BitVec.ofNat 32 (val l t).d)).orFlags
        ((val u t).fl ||| (val l t).fl))

/-! Control transfers, EXIT, traps raised by words. -/

/-- R127 to R133, R157, R160, R165, R405, R474: a transfer goes, in every acting lane, to that lane's target, and active lanes that do
not act go on to the next word; it completes where every target is aligned and, under U, the active lanes agree; CALL also writes the
address of the next word to the pair of D. Under U, lanes that do not agree trap UNIFORMITY as a whole; then lanes whose target is
misaligned trap MISALIGNED_PC, as a whole where the group supplies the target. YIELD and NOP change nothing but the PC and YIELD's
yield. EXIT ends the acting threads, whose PC stays; while a thread of the group is left, nothing else changes; with its last thread the
group retires, and with its last group a team of a grid frees its slot; in a trap handler EXIT is a fatal trap. -/
def Obligations.Transfers : Prop :=
  (let completes (i : Instr) (u : Bool) (target : Wd → Nat → W64) (link : Wd → Thread → Thread) : Prop :=
    ∀ s w, Issues i s w →
      (∀ l ∈ w.acting, (w.gr.lane? l).isSome ∧ (target w l).toNat % 8 = 0) →
      (u = true → w.acting = w.active ∧ ∀ l ∈ w.active, ∀ k ∈ w.active, target w l = target w k) →
      exec i s = .next (w.s.modGroup w.g (eachLane fun l t =>
        let x : Thread := if w.acting.contains l then link w t else t
        if w.active.contains l then { x with pc := (if w.acting.contains l then target w l else w.pc + 8) } else x))
  let traps (i : Instr) (u once : Bool) (target : Wd → Nat → W64) (link : Wd → Thread → Thread) : Prop :=
    ∀ s w v, Issues i s w → (∀ l ∈ w.acting, (w.gr.lane? l).isSome) →
      let agree : Prop := w.acting = w.active ∧ ∀ l ∈ w.active, ∀ k ∈ w.active, target w l = target w k
      let failing := w.acting.filter fun l => (target w l).toNat % 8 ≠ 0
      let addr := target w (failing.headD 0)
      (u = true → ¬ agree → Takes w.s w.g (wordTrap w 0x04 0 0) v → exec i s = .next v) ∧
      ((u = true → agree) → failing ≠ [] →
        (once = true → Takes w.s w.g (wordTrap w 0x09 0 addr) v → exec i s = .next v) ∧
        (once = false → Awake w → Takes (w.s.modGroup w.g (eachLane fun l t =>
            if w.active.contains l && !failing.contains l then
              if w.acting.contains l then { link w t with pc := target w l } else stepped w t
            else t)) w.g (laneTrap w failing 0x09 0 addr) v → exec i s = .next v))
  let relative (off : W32) (w : Wd) (_ : Nat) : W64 := w.pc + off.signExtend 64 * 8
  let register (f : TgtF) (w : Wd) (l : Nat) : W64 :=
    if f.bs then w.gr.getS f.b.toNat else BitVec.ofNat 64 (((w.gr.lane? l).map fun t => t.getRun f.b.toNat 2).getD 0)
  (∀ f : BrF,
    let link (w : Wd) (t : Thread) : Thread := t.setRun f.d.toNat 2 (w.pc + 8).toNat
    completes (.bra f) f.u (relative f.off) (fun _ t => t) ∧ traps (.bra f) f.u false (relative f.off) (fun _ t => t) ∧
    completes (.call f) f.u (relative f.off) link ∧ traps (.call f) f.u false (relative f.off) link) ∧
  ∀ f : TgtF, completes (.brx f) f.u (register f) (fun _ t => t) ∧ traps (.brx f) f.u f.bs (register f) (fun _ t => t) ∧
    completes (.ret f) f.u (register f) (fun _ t => t) ∧ traps (.ret f) f.u f.bs (register f) (fun _ t => t)) ∧
  (∀ (g : Guard) (s : State) (w : Wd),
    (Issues (.nop g) s w → exec (.nop g) s = .next (afterWord w w.s)) ∧
    (Issues (.yield g) s w →
      exec (.yield g) s = .next (afterWord w (w.s.modGroup w.g fun x => { x with yielded := true })))) ∧
  (∀ (g : Guard) (s : State) (w : Wd) (t : Team) (gr : Group), Issues (.exit g) s w → w.gr.handler = none →
    w.s.team? w.g.team = some t → t.groups[w.g.ix]? = some gr → t.phase ≠ .ended → (t.phase = .leaving → t.parent = none) →
    gr.retired = false →
    let ended : Group → Group := eachLane fun l u =>
      if w.acting.contains l then { u with exited := true } else if w.active.contains l then stepped w u else u
    let last : Prop := (∀ th ∈ (ended gr).lanes, th.exited = true) ∧ gr.held = [] ∧ gr.pendTrap = none ∧ gr.handler = none ∧
      gr.cpy.n = 0 ∧ gr.mtx.n = 0 ∧ gr.net.n = 0 ∧ gr.rem.n = 0 ∧ drained w.s w.g = true
    ((∃ l th, gr.lane? l = some th ∧ th.exited = false ∧ l ∉ w.acting) →
      (∀ i x, t.groups[i]? = some x → i ≠ w.g.ix → groupQuiet w.s ⟨w.g.team, i⟩ x = false) →
      exec (.exit g) s = .next (w.s.modGroup w.g ended)) ∧
    (last → t.phase = .running → (∃ i x, t.groups[i]? = some x ∧ i ≠ w.g.ix ∧ x.retired = false) →
      (∀ i x, t.groups[i]? = some x → i ≠ w.g.ix → groupQuiet w.s ⟨w.g.team, i⟩ x = false) →
      exec (.exit g) s = .next (w.s.modGroup w.g fun x => { ended x with retired := true })) ∧
    (last → t.phase = .running → t.groups = [gr] → t.kind = .grid → t.parent = none → t.inv = none → ownedFrames w.s w.g.team = [] →
      ∃ u, exec (.exit g) s = .next u ∧ u.team? w.g.team = none ∧ u.mem = w.s.mem ∧
        ∀ h, h.team ≠ w.g.team → u.group? h = w.s.group? h)) ∧
  ∀ (g : Guard) (s : State) (w : Wd), Issues (.exit g) s w → w.gr.handler ≠ none → (∃ l ∈ w.acting, w.s.inLogged w.g l = false) →
    exec (.exit g) s = .next (fatalTrap w.s w.g 0x0A)

/-! Traps and group-wide words. -/

/-- R33, R134, R155, R305, R394: BPT and TRAP trap in their acting lanes, with their code as the sub-cause; where all of
these are in logged transactions, they abort with status FAULT instead and the group goes on. (That they abort even where the group runs
its trap handler, in which R405 calls any trap fatal, is the model's choice, log entry 117.) -/
def Obligations.TrapWords : Prop :=
  ∀ (f : CodeF) (s : State) (w : Wd) (t : State),
    let aborted (cause : Nat) : State :=
      w.acting.foldl (fun st l => abortLane st w.g l 7 cause)
        (w.s.modLanes w.g (w.active.filter fun l => !w.acting.contains l) fun _ u => stepped w u)
    (Issues (.bpt f) s w → (∃ l ∈ w.acting, w.s.inLogged w.g l = false) → Takes w.s w.g (wordTrap w 0x07 f.code.toNat 0) t →
      exec (.bpt f) s = .next t) ∧
    (Issues (.trap f) s w → (∃ l ∈ w.acting, w.s.inLogged w.g l = false) → Takes w.s w.g (wordTrap w 0x08 f.code.toNat 0) t →
      exec (.trap f) s = .next t) ∧
    (Issues (.bpt f) s w → (∀ l ∈ w.acting, w.s.inLogged w.g l = true) → exec (.bpt f) s = .next (aborted 0x07)) ∧
    (Issues (.trap f) s w → (∀ l ∈ w.acting, w.s.inLogged w.g l = true) → exec (.trap f) s = .next (aborted 0x08))

/-- R395, R398, R399: after trap entry the group is privileged, its trap registers describe the trap, s56 names the frame and s57 to s63
are 0, and every lane stands at TRAPBASE, neither parked nor exited nor in a transaction, with cleared predicates, FPCTL and FPFLAGS; its
v-registers, its other s-registers and every other group are as before. -/
def Obligations.TrapEntryState : Prop :=
  ∀ (s : State) (g : GRef) (i : TrapInfo) (t : State) (team : Team) (gr : Group) (c : Ctx),
    Takes s g i t → s.team? g.team = some team → s.group? g = some gr → s.ctxOf team = some c →
    ∃ gr1, t.group? g = some gr1 ∧ gr1.ctl.priv = true ∧
      gr1.ctl.cause.toNat = (if i.async then 2 ^ 24 else 0) + i.sub2 % 256 * 2 ^ 16 + i.sub % 256 * 2 ^ 8 + i.cause % 256 ∧
      gr1.ctl.pc = i.pc ∧ gr1.ctl.addr = i.addr ∧ gr1.ctl.fin = i.fin ∧ gr1.ctl.seq = i.seq ∧
      gr1.getS 56 = c.traparea + BitVec.ofNat 64 (2048 * (team.core * 128 + gr.slot)) ∧
      (∀ k, 57 ≤ k → k < 64 → gr1.getS k = 0) ∧ (∀ k, k < 56 → gr1.getS k = gr.getS k) ∧
      gr1.lanes = gr.lanes.map (fun u => { u with
        pc := gr.ctl.trapbase, p := 0, fpctl := 0, fpflags := 0, exited := false, park := none, wait := 0, tx := none }) ∧
      ∀ h, h ≠ g → t.group? h = s.group? h

/-- R194 to R198: the group-wide tests of a predicate, masks and counts of the acting lanes, matches of values, and ELECT; SHFL
delivers the value of the source lane of its mode within the segment where that lane acts, else the lane's own with predicate 0;
GRED folds the 32 values over five levels of neighbours, lanes that do not act giving the identity, under the FPCTL of the lowest
acting lane. -/
def Obligations.GroupWideWords : Prop :=
  (∀ (f : RegF) (s : State) (w : Wd),
    let pa (l : Nat) : Bool := ((w.gr.lane? l).map fun t => t.getP (f.a.toNat % 8)).getD false
    let va (l : Nat) : Nat := ((w.gr.lane? l).map fun t => t.getRun f.a.toNat (f.ty.width / 32)).getD 0
    let pred (b : Nat → Bool) : State := afterLanes w fun l t => t.setP (f.d.toNat % 8) (b l)
    let reg (x : Nat → W32) : State := afterLanes w fun l t => t.setV f.d.toNat (x l)
    (Issues (.voteEvery f) s w → exec (.voteEvery f) s = .next (pred fun _ => w.acting.all pa)) ∧
    (Issues (.voteSome f) s w → exec (.voteSome f) s = .next (pred fun _ => w.acting.any pa)) ∧
    (Issues (.voteSame f) s w → exec (.voteSame f) s = .next (pred fun _ => w.acting.all pa || w.acting.all fun l => !pa l)) ∧
    (Issues (.voteMask f) s w → exec (.voteMask f) s = .next (reg fun _ => maskOf (w.acting.filter pa))) ∧
    (Issues (.voteCount f) s w →
      exec (.voteCount f) s = .next (reg fun _ => BitVec.ofNat 32 (w.acting.filter pa).length)) ∧
    (Issues (.matchPeers f) s w →
      exec (.matchPeers f) s = .next (reg fun l => maskOf (w.acting.filter fun k => va k == va l))) ∧
    (Issues (.matchUniform f) s w →
      let same := w.acting.all fun l => w.acting.all fun k => va k == va l
      exec (.matchUniform f) s = .next (afterLanes w fun _ t =>
        (t.setV f.d.toNat (if same then maskOf w.acting else 0)).setP (f.c.toNat % 8) same)) ∧
    (Issues (.elect f) s w → exec (.elect f) s = .next (pred fun l => l == w.acting.headD 32))) ∧
  (∀ (f : RegF) (s : State) (w : Wd), Issues (.shfl f) s w →
    let wd := 32 / 2 ^ f.aux.toNat
    let n (l : Nat) : Nat :=
      if f.bs then (w.gr.getS f.b.toNat).toNat % 2 ^ 32 else ((w.gr.lane? l).map fun t => t.getRun f.b.toNat 1).getD 0
    let src (l : Nat) : Option Nat :=
      match f.op.toNat with
      | 0 => some (l - l % wd + n l % wd)
      | 1 => if n l ≤ l % wd then some (l - n l) else none
      | 2 => if n l < wd - l % wd then some (l + n l) else none
      | 3 => if l % wd ^^^ n l < wd then some (l - l % wd + (l % wd ^^^ n l)) else none
      | _ => some (l - l % wd + (l % wd + n l) % 2 ^ 32 % wd)
    let va (l : Nat) : Nat := ((w.gr.lane? l).map fun t => t.getRun f.a.toNat (f.ty.width / 32)).getD 0
    let from_ (l : Nat) : Option Nat := (src l).bind fun j => if w.acting.contains j then some j else none
    exec (.shfl f) s = .next (afterLanes w fun l t =>
      (t.setRun f.d.toNat (f.ty.width / 32) (va ((from_ l).getD l))).setP (f.c.toNat % 8) (from_ l).isSome)) ∧
  ∀ (f : RegF) (s : State) (w : Wd), Issues (.gred f) s w →
    let ctl := ((w.gr.lane? (w.acting.headD 0)).map Thread.fpctl).getD 0
    let x (l : Nat) : Nat :=
      if w.acting.contains l then ((w.gr.lane? l).map fun t => t.getRun f.a.toNat (f.ty.width / 32)).getD 0
      else identityOf f.ty f.op.toNat
    let two (a b : Nat × Fl) : Nat × Fl :=
      ((combine f.ty f.op.toNat f.rnd ctl a.1 b.1).1, a.2 ||| b.2 ||| (combine f.ty f.op.toNat f.rnd ctl a.1 b.1).2)
    let pairUp (v : Nat → Nat × Fl) (l : Nat) : Nat × Fl := two (v (2 * l)) (v (2 * l + 1))
    let r := pairUp (pairUp (pairUp (pairUp (pairUp fun l => (x l, flNone))))) 0
    exec (.gred f) s = .next (afterLanes w fun _ t => (t.setRun f.d.toNat (f.ty.width / 32) r.1).orFlags r.2)

/-- R200 to R203, R293: the barrier words where their barrier exists. BAR.INIT sets EXPECT of an idle barrier; BAR.ARR returns the
phase and arrives; BAR.SYNC arrives and, where that completes no phase, parks the arriving threads; BAR.WAIT parks while PHASE is
the one it names; BAR.ARR.RMT sends its arrival to a team of its own grid on its cluster and parks until the target core has
accepted it, after the earlier ones of its team at that barrier; a saved team keeps it. An arrival of n threads raises COUNT by n,
taken modulo EXPECT, and PHASE by the number of times that EXPECT was reached; EXPECT and every other barrier stand. (Readings of
the model's own: log entries 50 and 82, and 113 where BAR.ARR.RMT names its own team, of which R203 does not speak.) -/
def Obligations.BarrierWords : Prop :=
  (∀ (f : RegF) (s : State) (w : Wd) (b : Barrier),
    let v := (w.gr.getS f.a.toNat).toNat
    let n := w.active.length
    let k := f.aux.toNat
    w.acting = w.active → barrierOf w.s w.g.team k = some b →
    (Issues (.barInit f) s w → 1 ≤ v → v ≤ 1024 → b.count = 0 → someoneAt w.s w.g.team k = false →
      exec (.barInit f) s = .next (afterWord w (w.s.modTeam w.g.team fun t =>
        { t with bars := setNth t.bars k { b with expect := v } }))) ∧
    (Issues (.barArr f) s w →
      exec (.barArr f) s = .next (afterWord w (arriveAt (w.s.modGroup w.g fun g => g.setS f.d.toNat (b.phase.setWidth 64))
        w.g.team k n))) ∧
    (Issues (.barSync f) s w →
      exec (.barSync f) s = .next (if b.expect ≤ b.count + n ∧ b.expect ≠ 0 then afterWord w (arriveAt w.s w.g.team k n)
        else parked w (.barrier k) (arriveAt w.s w.g.team k n))) ∧
    (Issues (.barWait f) s w →
      exec (.barWait f) s = .next (if (w.gr.getS f.a.toNat).setWidth 16 = b.phase then parked w (.barrier k) w.s
        else afterWord w w.s))) ∧
  (∀ (f : RegF) (s : State) (w : Wd) (t : Nat × Team),
    let x := (w.gr.getS f.b.toNat).toNat
    Issues (.barArrRmt f) s w → w.acting = w.active → w.t.kind = .grid → field x 2 30 = 0 → remoteTeam w x = some t →
    f.aux.toNat < t.2.bars.length →
    exec (.barArrRmt f) s = .next (parked w (.accept w.s.fresh) ((w.s.setFresh (w.s.fresh + 1)).setMsgs
      (amPut w.s.msgs w.s.fresh ⟨senderOf w.g 32, w.s.fresh, 0, .arrival w.g t.1 f.aux.toNat w.active.length, none, false⟩)))) ∧
  (∀ (s : State) (msg : Nat) (m : StakeMsg) (team k n : Nat) (g : GRef) (t : Team),
    let s1 := wakeGroup (s.setMsgs (amDel s.msgs msg)) g (fun p => p == .accept msg) ⟨[], none, none⟩
    amGet s.msgs msg = some m → m.kind = .arrival g team k n → s1.team? team = some t →
    (∀ x ∈ s.msgs, ∀ h n1, x.1 < msg → x.2.kind = .arrival h team k n1 → h.team ≠ g.team) →
    exec (.remoteArrival msg) s = .next (if t.resident then arriveAt (l1Clear s1 t.core) team k n
      else s1.putTeam team { t with heldIn := t.heldIn ++ [.arrival k n] })) ∧
  ∀ (s : State) (team k n : Nat) (b : Barrier), barrierOf s team k = some b →
    barrierOf (arriveAt s team k n) team k =
      some ⟨b.expect, (b.count + n) % b.expect, b.phase + BitVec.ofNat 16 ((b.count + n) / b.expect)⟩ ∧
    ∀ t j, (t ≠ team ∨ j ≠ k) → barrierOf (arriveAt s team k n) t j = barrierOf s t j

/-! Memory words. -/

/-- R12, R135 to R137, R220, R325 to R339: the words of memory complete once each of their accesses passes, one per acting lane in
ascending order or one for the scalar unit; the address is s(A), plus the index where B is not FF, plus the offset. Where the access of
some lanes is misaligned or its page's translation refuses it, every lane whose access raises nothing is performed, and the word traps at
the lowest failing lane, TRAPDONE naming the lanes that are done; the scalar unit's one access traps as a whole. LDS and STS access the
scratchpad in the same way. (Readings of the model's own: log entries 9, 36 and 141; that the accesses of one word to the host or a peer are
one operation of rem is the model's reading too, log entry 37, and the class of a store with LU log entry 81.) -/
def Obligations.MemoryWords : Prop :=
  (∀ (m : MemF) (s : State) (w : Wd) (t : State),
    let thread (l : Nat) : Thread := (w.gr.lane? l).getD (Thread.start 0)
    let va (l : Nat) : W64 := w.gr.getS m.a.toNat +
      ((if m.b = 0xFF then 0 else if m.x then w.gr.getS m.b.toNat else ((thread l).getV m.b.toNat).signExtend 64) +
        m.off.signExtend 64)
    let done (i : Instr) (sc : Scope) (q : Nat → Req) : Prop :=
      Issues i s w → (sc = .pkg → field (w.gr.getS (m.a.toNat + 1)).toNat 8 8 = 0) →
      (Runs (fun l => Passes w (q l)) (unitsOf m w) w.s t → exec i s = .next (afterWord w t)) ∧
      (∀ u l c sub rest, (∀ k ∈ w.acting, w.s.inLogged w.g k = false) → m.x = false → Awake w →
        Tries w q w.acting ((l, c, sub) :: rest) w.s u →
        Takes (beyond w (l :: rest.map Prod.fst) u) w.g (laneTrap w (l :: rest.map Prod.fst) c sub (q l).va) t →
        exec i s = .next t) ∧
      ∀ u c sub, m.x = true → w.s.inLogged w.g 32 = false → Fails w (q 32) w.s c sub u →
        Takes u w.g (wordTrap w c sub (q 32).va) t → exec i s = .next t
    (∀ k : LsMod,
      done (.ld m k) k.scope (fun l => ⟨0x60, l, va l, k.sz.bytes, .load m.d m.x k.sz none, k.order, k.scope, k.evp, k.lu⟩) ∧
      done (.st m k) k.scope (fun l => ⟨0x61, l, va l, k.sz.bytes,
        .store (if m.x then toBytes k.sz.bytes (w.gr.getS m.d.toNat).toNat
          else toBytes k.sz.bytes ((thread l).getRun m.d.toNat (regsOf (8 * k.sz.bytes)))), k.order, k.scope, k.evp, k.lu⟩)) ∧
    (∀ k : LdrMod, done (.ldr m k) k.scope
      (fun l => ⟨0x64, l, va l, k.sz.bytes, .load m.d m.x k.sz (some k.pd), k.order, k.scope, .dflt, false⟩)) ∧
    (∀ k : AtMod,
      let n := k.aty.width / 32
      let one (l : Nat) : List (Nat × Nat) :=
        let r (i : Nat) : Nat := if m.x then (w.gr.getS (m.d.toNat + i)).toNat % 2 ^ k.aty.width
          else (thread l).getRun (m.d.toNat + i * n) n
        [if k.aop = .cas then (r 0, r 1) else (r 0, 0)]
      let eight (l : Nat) : List (Nat × Nat) := (List.range (8 / n)).map fun e => ((thread l).getRun (m.d.toNat + n * e) n, 0)
      let q (major : Nat) (ret : Bool) (es : Nat → List (Nat × Nat)) (l : Nat) : Req :=
        ⟨major, l, va l, k.aty.width / 8 * (es l).length, .atom k.aty k.aop (es l) ret m.d m.x, k.order, k.scope, .dflt, false⟩
      done (.atom m k) k.scope (q 0x68 true one) ∧ done (.atomv m k) k.scope (q 0x69 true eight) ∧
      done (.red m k) k.scope (q 0x6A false one))) ∧
  ∀ (m : MemF) (k : LsMod) (s : State) (w : Wd) (t : State),
    let thread (l : Nat) : Thread := (w.gr.lane? l).getD (Thread.start 0)
    let va (l : Nat) : W64 := w.gr.getS m.a.toNat +
      ((if m.b = 0xFF then 0 else if m.x then w.gr.getS m.b.toNat else ((thread l).getV m.b.toNat).signExtend 64) +
        m.off.signExtend 64)
    let done (i : Instr) (q : Nat → Req) : Prop :=
      Issues i s w → Runs (fun l u v => ∃ p, DoesLocal w (q l) p u v) (unitsOf m w) w.s t → exec i s = .next (afterWord w t)
    done (.lds m k) (fun l => ⟨0x62, l, va l, k.sz.bytes, .load m.d m.x k.sz none, k.order, k.scope, k.evp, k.lu⟩) ∧
    done (.sts m k) (fun l => ⟨0x63, l, va l, k.sz.bytes,
      .store (if m.x then toBytes k.sz.bytes (w.gr.getS m.d.toNat).toNat
        else toBytes k.sz.bytes ((thread l).getRun m.d.toNat (regsOf (8 * k.sz.bytes)))), k.order, k.scope, k.evp, k.lu⟩)

/-- R12, R136, R265, R331: a performed load writes its bytes, little-endian and extended by its size, to D (a run of the lane's
v-registers, or an s-register), LDR its predicate 0; without the last-use hint no byte of memory changes, and no other group does.
A load of a page that is not resident writes zeros, and LDR its predicate 1. -/
def Obligations.LoadResult : Prop :=
  (∀ (w : Wd) (q : Req) (p : Place) (seen : List Byte) (s u : State) (d : Reg) (x : Bool) (sz : Sz) (pd : Option (BitVec 3)),
    q.kind = .load d x sz pd → q.n = sz.bytes → Does w q p seen s u →
    (x = false → u.lane? w.g q.lane = (s.lane? w.g q.lane).map fun t =>
      let t1 := t.setRun d.toNat ((8 * sz.bytes + 31) / 32) (extend (8 * sz.bytes) (runWidth (8 * sz.bytes)) (szSigned sz) (ofBytes seen))
      match pd with
      | some r => t1.setP r.toNat false
      | none => t1) ∧
    (x = true → 32 ≤ q.lane → (∀ g, s.group? w.g = some g → g.lanes.length = 32) → u.group? w.g = (s.group? w.g).map fun g =>
      g.setS d.toNat (BitVec.ofNat 64 (extend (8 * sz.bytes) 64 (szSigned sz) (ofBytes seen)))) ∧
    (∀ h, h ≠ w.g → u.group? h = s.group? h) ∧
    (q.lu = false → ∀ a, memGet u.mem a = memGet s.mem a)) ∧
  ∀ (w : Wd) (q : Req) (s u : State) (d : Reg) (sz : Sz) (pd : Option (BitVec 3)),
    q.kind = .load d false sz pd → DoesAbsent w q s u →
    (u.lane? w.g q.lane = (s.lane? w.g q.lane).map fun t =>
      let t1 := t.setRun d.toNat ((8 * sz.bytes + 31) / 32) 0
      match pd with
      | some r => t1.setP r.toNat true
      | none => t1) ∧
    (∀ h, h ≠ w.g → u.group? h = s.group? h) ∧ ∀ a, memGet u.mem a = memGet s.mem a

/-- R12, R230: a performed store puts its bytes, the least significant at the lowest address, at its place, and changes no
other byte of memory, of any scratchpad, and no register. -/
def Obligations.StoreResult : Prop :=
  ∀ (w : Wd) (q : Req) (p : Place) (seen : List Byte) (s u : State) (bs : List Byte),
    q.kind = .store bs → q.n = bs.length → Does w q p seen s u →
    (∀ h, u.group? h = s.group? h) ∧
    match p with
    | .mem key _ _ =>
      (∀ a, memGet u.mem a = if key ≤ a ∧ a < key + bs.length then bs.getD (a - key) 0 else memGet s.mem a) ∧
      ∀ i, (u.team? i).map Team.scratch = (s.team? i).map Team.scratch
    | .view team off =>
      (∀ a, memGet u.mem a = memGet s.mem a) ∧
      ∀ i v, s.team? i = some v → ∃ v1, u.team? i = some v1 ∧ ∀ a, memGet v1.scratch a =
        if i = team ∧ off ≤ a ∧ a < off + bs.length then bs.getD (a - off) 0 else memGet v.scratch a

/-- R335 to R338: a performed atomic replaces each element by the operation's new value, where it writes one, and returns the old
values to D where it is not RED; no other group changes. The operations on integers are modulo 2^w; compare and swap writes only
where the old value equals its first operand. -/
def Obligations.AtomicResult : Prop :=
  (∀ (w : Wd) (q : Req) (p : Place) (seen : List Byte) (s u : State) (aty : AType) (aop : AOp) (xs : List (Nat × Nat))
    (ret x : Bool) (d : Reg),
    let k := aty.width / 8
    let old (j : Nat) : Nat := ofBytes ((seen.drop (k * j)).take k)
    q.kind = .atom aty aop xs ret d x → q.n = k * xs.length → Does w q p seen s u →
    (∀ j v, xs[j]? = some v →
      p.read u (k * j) k = toBytes k ((atomNew aty aop (old j) v).getD (old j))) ∧
    (ret = true → x = false → u.lane? w.g q.lane = (s.lane? w.g q.lane).map fun t =>
      t.setRun d.toNat ((aty.width * xs.length + 31) / 32)
        (packElems aty.width ((List.range xs.length).map old))) ∧
    (ret = false → u.group? w.g = s.group? w.g) ∧
    (∀ h, h ≠ w.g → u.group? h = s.group? h) ∧
    match p with
    | .mem key _ _ => ∀ a, (a < key ∨ key + q.n ≤ a) → memGet u.mem a = memGet s.mem a
    | .view _ _ => ∀ a, memGet u.mem a = memGet s.mem a) ∧
  ∀ (aty : AType) (old x c : Nat), aty.float = false → old < 2 ^ aty.width → x < 2 ^ aty.width →
    let v (n : Nat) : Int := valueOf (atypeSigned aty) aty.width n
    atomNew aty .add old (x, c) = some ((old + x) % 2 ^ aty.width) ∧
    atomNew aty .min old (x, c) = some (if v old ≤ v x then old else x) ∧
    atomNew aty .max old (x, c) = some (if v old ≤ v x then x else old) ∧
    atomNew aty .and old (x, c) = some (old &&& x) ∧
    atomNew aty .or old (x, c) = some (old ||| x) ∧
    atomNew aty .xor old (x, c) = some (old ^^^ x) ∧
    atomNew aty .exch old (x, c) = some x ∧
    atomNew aty .cas old (x, c) = if old = x then some c else none

/-- R301 to R303: in a logged transaction a load returns the lane's own buffered bytes and the others from memory, and leaves the write
log; a store's bytes stand in the write log, over which every other byte stands as before, and nothing else of the thread changes; an
atomic reads each element as a load does, buffers what it writes of it, and returns the old values where it is not RED; the other groups
and lanes do not change, nor, but for a load's last use, does memory. (Readings of the model's own: log entries 116 and 143.) -/
def Obligations.TransactionalAccess : Prop :=
  ∀ (w : Wd) (q : Req) (s u : State) (t : Thread) (x : Tx), Logged w q s u → s.lane? w.g q.lane = some t → t.tx = some x →
    (q.lu = false ∨ isLoad q.kind = false → u.mem = s.mem) ∧
    (∀ h, h ≠ w.g → u.group? h = s.group? h) ∧ (∀ l, l ≠ q.lane → u.lane? w.g l = s.lane? w.g l) ∧
    ∃ t1 x1, u.lane? w.g q.lane = some t1 ∧ t1.tx = some x1 ∧ x1.mode = x.mode ∧ x1.abortPc = x.abortPc ∧
      x1.rd.length ≤ 16 ∧ x1.wr.length ≤ 8 ∧
      ∃ key e s1, xlate s w.t.core w.gr.ctl.asid.toNat w.gr.ctl.priv (needOf q.kind) q.va.toNat = (.ok key e, s1) ∧
        let seen (a : Nat) : Byte := (x.buffered a).getD (memGet s.mem a)
        (∀ d sz pd, q.kind = .load d false sz pd → q.n = sz.bytes → x1.wr = x.wr ∧
          ∀ i, i < sz.bytes → BitVec.ofNat 8 ((t1.getV (d.toNat + i / 4)).toNat / 2 ^ (8 * (i % 4))) = seen (key + i)) ∧
        (∀ bs, q.kind = .store bs → q.n = bs.length → x1.rd = x.rd ∧ t1 = { t with tx := some x1 } ∧
          ∀ a, x1.buffered a = if key ≤ a ∧ a < key + bs.length then some (bs.getD (a - key) 0) else x.buffered a) ∧
        ∀ aty aop xs ret d, q.kind = .atom aty aop xs ret d false → q.n = aty.width / 8 * xs.length →
          let k := aty.width / 8
          let old (j : Nat) : Nat := ofBytes ((List.range k).map fun i => seen (key + k * j + i))
          (∀ j v i, xs[j]? = some v → i < k → x1.buffered (key + k * j + i) = match atomNew aty aop (old j) v with
            | some n => some ((toBytes k n).getD i 0)
            | none => x.buffered (key + k * j + i)) ∧
          (∀ a, (a < key ∨ key + q.n ≤ a) → x1.buffered a = x.buffered a) ∧
          t1 = { (if ret then t.setRun d.toNat ((aty.width * xs.length + 31) / 32)
            (packElems aty.width ((List.range xs.length).map old)) else t) with tx := some x1 }

/-- R261, R278, R329, R333, R334: an MX unit moves a block of elements and its scale byte, at addresses that the same index gives,
between the lane's registers and memory or a view, each piece at the place that its own translation gives; what of a unit goes to
the host or a peer goes out as one access. (Readings of the model's own: log entry 131.) -/
def Obligations.BlockWords : Prop :=
  ∀ (m : MemF) (k : MxMod) (s : State) (w : Wd) (t : State),
    let bb := 4 * ETypeRegs k.et
    let thread (l : Nat) : Thread := (w.gr.lane? l).getD (Thread.start 0)
    let delta (l : Nat) : W64 :=
      (if m.b = 0xFF then 0 else if m.x then w.gr.getS m.b.toNat else ((thread l).getV m.b.toNat).signExtend 64) + m.off.signExtend 64
    let ea (l : Nat) : W64 := w.gr.getS m.a.toNat + delta l
    let sa (l : Nat) : W64 := w.gr.getS (m.a.toNat + 1) + BitVec.ofInt 64 ((delta l).toInt / Int.ofNat bb)
    let found (store : Bool) (l : Nat) (u : State) (p1 p2 : List MxPiece) (s2 : State) : Prop :=
      (delta l).toInt % Int.ofNat bb = 0 ∧ (ea l).toNat % mxAddrAlign k.et = 0 ∧ ∃ s1,
        mxPart w store (ea l) bb (if Order.acqs k.order && wide k.scope then l1Clear u w.t.core else u) = .ok (p1, s1) ∧
        mxPart w store (sa l) 1 s1 = .ok (p2, s2)
    let bytes (u : State) (p : MxPiece) : List Byte := match p.at_ with
      | .view off => memRead (((u.team? w.g.team).map Team.scratch).getD []) off p.n
      | .mem key _ => memRead u.mem key p.n
      | _ => List.replicate p.n 0
    let touched (u : State) (p : MxPiece) : State := match p.at_ with
      | .mem key e => touchRead u key e (pteEvp e)
      | _ => u
    (Issues (.ldMx m k) s w → Runs (fun l u v => ∃ p1 p2 s2, found false l u p1 p2 s2 ∧ mxError w (p1 ++ p2) s2 = none ∧
      v = ((p1 ++ p2).foldl touched s2).modLane w.g l fun x =>
        (x.setRun m.d.toNat (ETypeRegs k.et) (ofBytes (((p1 ++ p2).flatMap (bytes s2)).take bb))).setV
          (m.d.toNat + ETypeRegs k.et) (BitVec.ofNat 32 (ofBytes (((p1 ++ p2).flatMap (bytes s2)).drop bb)))) w.acting w.s t →
      exec (.ldMx m k) s = .next (afterWord w t)) ∧
    (Issues (.stMx m k) s w → Runs (fun l u v => ∃ p1 p2 s2, found true l u p1 p2 s2 ∧
      let eb := toBytes bb ((thread l).getRun m.d.toNat (ETypeRegs k.et))
      let sb := toBytes 1 ((thread l).getV (m.d.toNat + ETypeRegs k.et)).toNat
      ((∀ p ∈ p1 ++ p2, p.at_ ≠ .remote) ∧ v = mxStore w (p1 ++ p2) (eb ++ sb) s2 ∨
        (∃ p ∈ p1 ++ p2, p.at_ = .remote) ∧
          mxSend w k l (p1 ++ p2) (eb ++ sb) [(ea l, eb), (sa l, sb)] s2 = .ok v)) w.acting w.s t →
      exec (.stMx m k) s = .next (afterWord w t))

/-- R228, R268, R269, R290, R332, R340, R341: FENCE and the cache and translation words. A fence's acquire at .die or wider and
CCTL.ALL empty the core's L1, CCTL.LINE drops the two sectors of the line from it, CCTL.IFETCH the line from the instruction cache;
TLBI, once nothing that could use a removed entry is in progress and the ordered transactions have aborted, removes the cached
entries and filter records of a page, an ASID or all; PREQ posts a request for each address. CCTL and PREQ complete once no walk or
post of theirs has to wait. (Readings of the model's own: log entries 126 and 142.) -/
def Obligations.CacheWords : Prop :=
  ∀ (m : MemF) (s : State) (w : Wd),
    let va (l : Nat) : Nat := (addrOf m w.gr ((w.gr.lane? l).getD (Thread.start 0))).toNat
    let asid := w.gr.ctl.asid.toNat
    let each (f : Nat → State → State) : State := afterWord w ((unitsOf m w).foldl (fun st l => f (va l) st) w.s)
    let cut (gone : Nat → Bool) (page : Nat → Bool) (st : State) : State :=
      (st.setTlb (st.tlb.filter fun e => !gone e.1)).setSys
        { st.sys with filters := st.sys.filters.map fun f => (f.1, f.2.filter fun k => !page k) }
    (∀ (o : Order) (sc : Scope), Issues (.fence m o sc) s w → (sc = .pkg → field (w.gr.getS m.a.toNat).toNat 8 8 = 0) →
      exec (.fence m o sc) s = .next (afterWord w
        (if (o = .acq ∨ o = .ar) ∧ (sc = .die ∨ sc = .pkg ∨ sc = .sys) then l1Clear w.s w.t.core else w.s))) ∧
    (Issues (.cctlAll m) s w → exec (.cctlAll m) s = .next (afterWord w (l1Clear w.s w.t.core))) ∧
    let walks : Prop := (addrsOf m w).any (walkWaits w) = false
    let plain : Prop := ∀ l ∈ w.active, w.s.inLogged w.g l = false
    (Issues (.cctlLine m) s w → walks → exec (.cctlLine m) s = .next (each fun a st =>
      match lineFor w st a with
      | (some line, s1) => l1Drop (l1Drop s1 w.t.core (2 * line)) w.t.core (2 * line + 1)
      | (none, s1) => s1)) ∧
    (Issues (.cctlIfetch m) s w → walks → exec (.cctlIfetch m) s = .next (each fun a st =>
      match lineFor w st a with
      | (some line, s1) => if amHas (s1.core w.t.core).icache line then
          s1.modCore w.t.core fun c => { c with icache := amDel c.icache line } else s1
      | (none, s1) => s1)) ∧
    (Issues (.tlbiPage m) s w → moduleQuiet w.s (some w.gr.ctl.asid) = true → plain →
      exec (.tlbiPage m) s = .next (afterWord w ((unitsOf m w).foldl (fun st l =>
        cut (fun k => tlbAsid k == asid && tlbPrefix k == va l / 2 ^ levelShift (tlbLevel k))
          (fun p => p == pageKey asid 0 (va l) || p == pageKey asid 1 (va l)) st) (dropOrdered (some w.gr.ctl.asid) w.s)))) ∧
    (Issues (.tlbiAsid m) s w → moduleQuiet w.s (some w.gr.ctl.asid) = true → plain → exec (.tlbiAsid m) s = .next (afterWord w
      (cut (fun k => tlbAsid k == asid) (fun p => p / 2 ^ 49 == asid) (dropOrdered (some w.gr.ctl.asid) w.s)))) ∧
    (Issues (.tlbiAll m) s w → moduleQuiet w.s none = true → plain →
      exec (.tlbiAll m) s = .next (afterWord w (cut (fun _ => true) (fun _ => true) (dropOrdered none w.s)))) ∧
    ∀ t, Issues (.preq m) s w →
      Runs (fun l u v => postResidency u w.t.core asid w.t.ctx w.gr.ctl.priv (va l) = some v) (unitsOf m w) w.s t →
      exec (.preq m) s = .next (afterWord w t)

/-! Transactions. -/

/-- R300, R314 to R316: TXBEGIN starts a transaction in value mode, TXBEGIN.TS in stamp mode, in each acting lane whose hold count
is 0 while no cairn of its group is out: logs empty, the abort PC the next word, the controls kept, D = 0; another lane parks, but
where no lane of a running group is in a transaction the empty rounds let every held lane begin at once. TXBEGIN.O gives the acting
lanes, which owe no index, the next indices of an open domain that has as many left, in lane order, with predicate 1; where none is
left, or the domain is closed, predicate 0. SDOPEN opens a register of the slice with the fewest open domains and returns its
handle, or 0. (Readings of the model's own: log entries 30 and 130.) -/
def Obligations.TransactionBegin : Prop :=
  (let begins (i : RegF → Instr) (mode : TxMode) : Prop :=
    ∀ (f : RegF) (s : State) (w : Wd), Issues (i f) s w → w.s.group? w.g = some w.gr →
      ∃ t, exec (i f) s = .next t ∧ t.mem = w.s.mem ∧ ∀ l ∈ w.acting, l ∈ w.active → ∀ u, w.gr.lane? l = some u →
        let free (x : Thread) : Prop := x.txlog.hold = 0 ∧ roundOut w.s w.g = false
        (free u → ∃ v, t.lane? w.g l = some v ∧ v.pc = w.pc + 8 ∧ v.getV f.d.toNat = 0 ∧
          v.tx = some ⟨mode, [], [], w.pc + 8, f.d, u.fpctl, u.fpflags, 0⟩) ∧
        (¬ free u → (∃ k x, w.gr.lane? k = some x ∧ (x.tx.isSome = true ∨ k ∈ w.acting ∧ free x)) →
          ∃ v, t.lane? w.g l = some v ∧ v.pc = u.pc ∧ v.tx = u.tx ∧ v.v = u.v ∧ v.park = some (.hold mode f.d)) ∧
        (w.s.team? w.g.team = some w.t → w.t.resident = true → w.t.saving = false → w.gr.handler = none →
          (∀ k x, w.gr.lane? k = some x → x.tx = none ∧ (k ∈ w.acting → x.txlog.hold ≠ 0)) →
          ∃ v, t.lane? w.g l = some v ∧ v.pc = u.pc + 8 ∧ v.getV f.d.toNat = 0 ∧ v.park = none ∧ v.txlog.hold = 0 ∧
            v.tx = some ⟨mode, [], [], u.pc + 8, f.d, u.fpctl, u.fpflags, 0⟩)
  begins .txbegin .value ∧ begins .txbeginTs .stamp) ∧
  (∀ (f : RegF) (s : State) (w : Wd),
    let h := w.gr.getS f.b.toNat
    let m := getDomain w.s h
    Issues (.txbeginO f) s w → handleBad h = false → w.acting.Nodup →
    (∀ l ∈ w.acting, l ∈ w.active ∧ ∃ u, w.s.lane? w.g l = some u ∧ u.txlog.owed = none) →
    (domainLive w.s h = true → m.next + w.acting.length ≤ m.limit →
      ∃ t, exec (.txbeginO f) s = .next t ∧ (getDomain t h).next = m.next + w.acting.length ∧
        ∀ k l, w.acting[k]? = some l → ∃ v x, t.lane? w.g l = some v ∧ v.tx = some x ∧ x.mode = .ordered ∧
          v.txlog.iter = BitVec.ofNat 64 (m.next + k) ∧ v.txlog.owed = some h ∧ v.getP f.c.toNat = true ∧ v.pc = w.pc + 8) ∧
    ((domainLive w.s h = false ∨ m.limit ≤ m.next) →
      exec (.txbeginO f) s = .next (afterLanes w fun _ u => (u.setV f.d.toNat 0).setP f.c.toNat false))) ∧
  ∀ (f : RegF) (s : State) (w : Wd),
    let first := (w.gr.getS f.a.toNat).toNat
    let count := (w.gr.getS f.b.toNat).toNat
    let die := w.t.core / 32
    let k := leastSlice (w.s.die die)
    Issues (.sdopen f) s w → 1 ≤ count → count ≤ 2 ^ 32 → first + count ≤ 2 ^ 64 - 1 →
    (freeDomain ((w.s.die die).slice k) = none →
      exec (.sdopen f) s = .next (afterWord w (w.s.modGroup w.g fun g => g.setS f.d.toNat 0))) ∧
    ∀ r, freeDomain ((w.s.die die).slice k) = some r →
      let gen := (amGetD ((w.s.die die).slice k).domains r Domain.init).gen
      let h := BitVec.ofNat 64 (gen * 2 ^ 32 + (16 * die + k) * 2 ^ 8 + r)
      let dom : Domain := ⟨gen, true, first + count, first, first, w.g, if w.t.kind = .grid then some w.t.grid else none⟩
      exec (.sdopen f) s = .next (afterWord w
        ((w.s.modSlice ((16 * die + k) / 16 % 8) ((16 * die + k) % 16) fun x => { x with domains := amPut x.domains (r % 16) dom }).modGroup
          w.g fun g => g.setS f.d.toNat h))

/-- R306 to R308, R314, R318, R320, R321: TXCOMMIT parks the lanes of logged transactions for the commit round and commits an
irrevocable lane at once, whose domain's CURSOR rises by 1; TXABORT aborts logged transactions with status EXPLICIT and its code;
TXSTAT reports the lane's state. An abort discards both logs, restores the controls, writes the status to D, goes to the abort PC and
raises the counts. -/
def Obligations.TransactionEnd : Prop :=
  (∀ (f : RegF) (s : State) (w : Wd),
    let logged := w.acting.filter fun l => w.s.inLogged w.g l
    w.s.group? w.g = some w.gr →
    (Issues (.txcommit f) s w → (∀ l ∈ w.acting, l < 32 ∧ w.s.inLogged w.g l = true) →
      ∃ t, exec (.txcommit f) s = .next t ∧ t.mem = w.s.mem ∧ ∀ l ∈ w.acting, ∀ u, w.gr.lane? l = some u →
        t.lane? w.g l = some { u with park := some (.commit f.d) }) ∧
    (Issues (.txcommit f) s w → w.gr.handler = none → (∀ l ∈ w.acting, l ∈ w.active ∧ w.s.isIrrev w.g l = true) →
      ∃ t, exec (.txcommit f) s = .next t ∧ t.mem = w.s.mem ∧ ∀ l ∈ w.acting, ∃ v, t.lane? w.g l = some v ∧ v.tx = none ∧
        v.getV f.d.toNat = 0 ∧ v.txlog.owed = none ∧ v.pc = w.pc + 8 ∧
        ∀ u h, w.acting = [l] → w.gr.lane? l = some u → u.txlog.owed = some h → domainLive w.s h = true →
          (getDomain t h).cursor = (getDomain w.s h).cursor + 1) ∧
    (Issues (.txabort f) s w → exec (.txabort f) s = .next
      ((logged.foldl (fun st l => abortLane st w.g l 6 f.c.toNat) w.s).modLanes w.g
        (w.active.filter fun l => !logged.contains l) fun _ u => stepped w u)) ∧
    (Issues (.txstat f) s w → exec (.txstat f) s = .next (afterLanes w fun _ u => u.setV f.d.toNat (BitVec.ofNat 32
      ((if u.tx.isSome then 2 ^ 31 else 0) + (match u.tx.map Tx.mode with
        | none => 0
        | some .value => 1
        | some .stamp => 2
        | some .ordered => 3
        | some .irrevocable => 4) * 2 ^ 28 + u.txlog.hold * 2 ^ 24 + u.txlog.aborts * 2 ^ 16 + u.txlog.last.toNat))))) ∧
  ∀ (t : Thread) (x : Tx) (code sub : Nat), t.tx = some x → code < 256 → sub < 256 → t.txlog.aborts < 255 →
    let v := t.abort code sub
    v.tx = none ∧ v.pc = x.abortPc ∧ v.fpctl = x.fpctl ∧ v.fpflags = x.fpflags ∧ v.p = t.p ∧
    (v.getV x.d.toNat).toNat = sub * 256 + code ∧ (∀ r, r ≠ x.d.toNat → v.getV r = t.getV r) ∧
    v.txlog.aborts = t.txlog.aborts + 1 ∧
    v.txlog.hold = (if x.mode = .ordered then 0 else if t.txlog.aborts = 0 then 0 else if t.txlog.aborts = 1 then 1
      else if t.txlog.aborts = 2 then 3 else 7)

/-! Tasks, invocations and stakes. -/

/-- R168 to R173, R176, R207: SPAWN enters each acting lane's child in lane order and writes its index to D, where the ready pool
has room; else its threads park. A child of a bound, unbroken frame of the group takes index NCHILD, which rises, and its task
enters the pool of the core's die. (Readings of the model's own: log entries 38 and 119.) -/
def Obligations.SpawnWord : Prop :=
  (∀ (f : RegF) (s : State) (w : Wd) (t : State),
    let va (l : Nat) : Nat := if f.bs then (w.gr.getS f.b.toNat).toNat
      else ((w.gr.lane? l).map fun t => t.getRun f.b.toNat 2).getD 0
    Issues (.spawn f) s w → w.t.kind ≠ .merge →
    Runs (fun l u v => ∃ i u1, spawnLane w (va l) u = .ok (i, u1) ∧
      v = u1.modLane w.g l fun t => t.setV f.d.toNat (BitVec.ofNat 32 i)) w.acting w.s t →
    exec (.spawn f) s = .next (if (w.s.die (w.t.core / 32)).pool.length + w.acting.length ≤ 4096 then afterWord w t
      else parked w (.pool w.acting.length) w.s)) ∧
  ∀ (w : Wd) (va id : Nat) (s s1 s2 s3 : State) (bs : List Byte) (tiles : List Tile) (fr : Frame),
    let d := taskDesc bs
    va % 64 = 0 → readVa s w.t.core w.gr.ctl.asid.toNat w.gr.ctl.priv va 64 = .ok (bs, s1) → d.ok = true →
    readTiles s1 w.t.core w.gr.ctl.asid.toNat w.gr.ctl.priv d.views = .ok (some tiles, s2) →
    fitsEmpty (taskNeed d.ngroups d.budget d.scratch d.accs d.bars tiles) = true →
    frameAt s2 w.gr.ctl.asid d.join = (some (id, fr), s3) → fr.views.toNat = d.views → fr.owner = some w.g →
    fr.nchild < 0xFFFFFFFF → fr.broken = false →
    ∃ u k, spawnLane w va s = .ok (fr.nchild, u) ∧ amGet u.frames id = some { fr with nchild := fr.nchild + 1 } ∧
      (u.die (w.t.core / 32)).pool = (s3.die (w.t.core / 32)).pool ++ [k] ∧ k.frame = id ∧ k.child = fr.nchild ∧
      k.entry = BitVec.ofNat 64 d.entry ∧ k.argp = BitVec.ofNat 64 d.argp ∧ k.prio = w.t.prio ∧ u.teams = s3.teams

/-- R180, R208, R209: SYNC of a frame that is not bound completes at once, as an acquire; of an open frame that the group owns
it parks; ENDT ends every thread of its team. -/
def Obligations.SyncAndEnd : Prop :=
  ∀ (f : RegF) (s : State) (w : Wd),
    let va (l : Nat) : Nat := if f.bs then (w.gr.getS f.b.toNat).toNat
      else ((w.gr.lane? l).map fun t => t.getRun f.b.toNat 2).getD 0
    w.t.kind ≠ .merge →
    (Issues (.sync f) s w → (∀ l ∈ w.acting, va l % 256 = 0 ∧ frameFind w.s w.gr.ctl.asid (va l) = none) →
      exec (.sync f) s = .next (afterWord w (l1Clear w.s w.t.core))) ∧
    (Issues (.sync f) s w → ∀ id fr, (∀ l ∈ w.acting, va l % 256 = 0 ∧
        frameFind w.s w.gr.ctl.asid (va l) = some (id, fr)) → fr.owner = some w.g → fr.broken = false → w.acting.Nodup →
      exec (.sync f) s = .next (parked w (.sync id fr.nchild (maskOf w.active)) w.s)) ∧
    (Issues (.endt f) s w → ∀ t, w.s.team? w.g.team = some t →
      (∀ c ∈ w.s.cairns, c.2.g.team ≠ w.g.team) → (∀ l ∈ w.s.locks, amHas w.s.cairns l.2 = true) →
      (∀ gr ∈ t.groups, gr.handler = none) → w.acting = w.active →
      exec (.endt f) s = .next (retire (((w.s.putTeam w.g.team { t with groups := t.groups.map fun g =>
        { g with
          handler := none, pendTrap := none, ctl := { g.ctl with priv := false }
          lanes := g.lanes.map fun l => { l with exited := true, park := none, tx := none } } }).setMons
        (w.s.mons.filter fun m => m.2.g.team ≠ w.g.team))) w.g.team))

/-- R183, R187, R210, R211: INVOKE, its targets standing and the stake table with room, gives each acting lane the lowest free slot
of the core's stake table in lane order, pending, sends the invocation on its way and writes the stake to D. (Readings of the
model's own: log entry 46.) -/
def Obligations.InvokeWords : Prop :=
  (∀ (f : RegF) (s : State) (w : Wd),
    let b32 (l : Nat) : Nat := if f.bs then (w.gr.getS f.b.toNat).toNat % 2 ^ 32
      else ((w.gr.lane? l).map fun t => t.getRun f.b.toNat 1).getD 0
    let b64 (l : Nat) : W64 := BitVec.ofNat 64 (if f.bs then (w.gr.getS f.b.toNat).toNat % 2 ^ 64
      else ((w.gr.lane? l).map fun t => t.getRun f.b.toNat 2).getD 0)
    let done (i : Instr) (target : Nat → InvTarget) : Prop :=
      Issues i s w → (∀ l ∈ w.acting, target l ≠ .bad) →
      (∀ l ∈ w.acting, ∀ x, target l = .stake x → stakeDevice x ≠ w.s.sys.device) →
      exec i s = .next (afterWord w (w.acting.foldl (fun st l => invokeLane f w target l st) w.s))
    w.t.kind ≠ .merge → stakesUsed w.s w.t.core + w.acting.length ≤ 4096 →
    done (.invokeCore f) (fun l => targetWord w.s w.t.core (b32 l) false) ∧
    done (.invokeDie f) (fun l => targetWord w.s w.t.core (b32 l) true) ∧
    done (.invokeAny f) (fun _ => .die (w.t.core / 32)) ∧
    done (.invokeStake f) (fun l => .stake (b64 l)) ∧
    (Issues (.invokeStake f) s w → (∀ l ∈ w.acting, stakeDevice (b64 l) = w.s.sys.device ∧ stakeFull w.s (b64 l) = false) →
      w.acting.length = 1 → exec (.invokeStake f) s =
        .next (afterWord w (w.acting.foldl (fun st l => invokeLane f w (fun k => .stake (b64 k)) l st) w.s)))) ∧
  ∀ (f : RegF) (w : Wd) (l core slot : Nat) (s : State) (target : Nat → InvTarget) (t : Thread),
    target l = .core core → s.dieUp (core / 32) = true → freeStake s w.t.core = some slot → s.lane? w.g l = some t →
    let gen := (stakeSlot s w.t.core slot).gen
    let u := invokeLane f w target l s
    stakeSlot u w.t.core slot = ⟨gen, some (.resolution none .pending [] false)⟩ ∧
    u.lane? w.g l = some (t.setRun f.d.toNat 2 (stakeWord s.sys.device w.t.core slot gen).toNat) ∧
    ∃ i, amGet u.invs s.fresh = some i ∧ i.core = some core ∧ i.issuer = w.t.core ∧ i.slot = slot ∧
      i.stake = stakeWord s.sys.device w.t.core slot gen ∧
      i.word = BitVec.ofNat 64 (((w.gr.lane? l).map fun x => x.getRun f.a.toNat 2).getD 0) ∧
      i.payload = toBytes (4 * f.aux.toNat) (((w.gr.lane? l).map fun x => x.getRun f.c.toNat f.aux.toNat).getD 0) ∧
      u.mem = s.mem

/-- R188, R191, R212 to R214: AWAIT and POLL of a stake that no entry keeps answer STALE at once, with zeros; the others send a
message and park for its answer. FULFIL and BREAK settle the handler's own stake once, with the bytes of the lowest acting lane or
with cause 61. DROP sends its message and goes on. (Readings of the model's own: log entries 48 and 114.) -/
def Obligations.StakeWords : Prop :=
  ∀ (f : RegF) (s : State) (w : Wd),
    let x (l : Nat) : W64 := BitVec.ofNat 64 (if f.bs then (w.gr.getS f.b.toNat).toNat % 2 ^ 64
      else ((w.gr.lane? l).map fun t => t.getRun f.b.toNat 2).getD 0)
    let m := f.aux.toNat
    let query (i : Instr) (kind : GRef → Nat → MsgKind) : Prop :=
      Issues i s w →
      ((∀ l ∈ w.acting, stakeNowhere w.s (x l) = true) → w.acting.Nodup →
        exec i s = .next (afterLanes w fun _ t => t.applyWake (answerWake f.d f.c m 3 []))) ∧
      ((∀ l ∈ w.acting, stakeNowhere w.s (x l) = false ∧ stakeDevice (x l) = w.s.sys.device) →
        exec i s = .next ((w.acting.foldl (fun st l =>
          ((st.setFresh (st.fresh + 1)).setMsgs (amPut st.msgs st.fresh ⟨senderOf w.g l, w.s.fresh, x l, kind w.g l, none, false⟩)).modLane w.g l
            fun t => { t with park := some (.answer st.fresh f.d f.c m) }) w.s).modLanes w.g
          (w.active.filter fun l => !w.acting.contains l) fun _ t => stepped w t))
    query (.await f) .await ∧ query (.poll f) .poll ∧
    (∀ h, w.t.inv = some h → h.settled = false →
      let own := w.s.modTeam w.g.team fun t => { t with inv := some { h with settled := true } }
      (Issues (.fulfil f) s w → exec (.fulfil f) s = .next (afterWord w (settle own h.issuer h.slot
        (.fulfilled (toBytes (4 * m) (((w.gr.lane? (w.acting.headD 0)).map fun t => t.getRun f.a.toNat m).getD 0)))))) ∧
      (Issues (.brk f) s w → exec (.brk f) s = .next (afterWord w (settle own h.issuer h.slot (.broken 0x61 0 0))))) ∧
    (Issues (.drop f) s w → (∀ l ∈ w.acting, stakeNowhere w.s (x l) = false ∧ stakeDevice (x l) = w.s.sys.device ∧
        stakeFull w.s (x l) = false) → w.acting.length = 1 →
      exec (.drop f) s = .next (afterWord w (w.acting.foldl (fun st l =>
        (st.setFresh (st.fresh + 1)).setMsgs (amPut st.msgs st.fresh ⟨senderOf w.g l, w.s.fresh, x l, .drop, none, false⟩)) w.s)))

/-- R188, R191: a pending stake that nobody waits on and that was not dropped settles once: its entry keeps its place and holds
the state, and no other entry changes. -/
def Obligations.StakeSettles : Prop :=
  ∀ (s : State) (core slot gen : Nat) (placed : Option (Nat × Nat)) (st : StakeSt),
    stakeSlot s core slot = ⟨gen, some (.resolution placed .pending [] false)⟩ →
    (∀ rc rs, placed = some (rc, rs) → (rc, rs) ≠ (core, slot) ∧ (stakeSlot s rc rs).use = some (.result core slot [])) →
    stakeSlot (settle s core slot st) core slot = ⟨gen, some (.resolution placed st [] false)⟩ ∧
    (∀ c k, (c ≠ core ∨ k ≠ slot) → stakeSlot (settle s core slot st) c k = stakeSlot s c k) ∧
    (settle s core slot st).teams = s.teams ∧ (settle s core slot st).mem = s.mem

/-! Engines, monitors, collectives and the system words. -/

/-- R223, R348, R349, R357, R378 to R380: COPY, COPY.MC and FILL, their operands aligned and inside their spaces, the class's
counter below 63 and no line at its 255th copy, issue one operation with its sequence number and stamp, and the lines of the
scratchpad that it will write become absent. (That a COPY.MC whose image is longer than the 64 KiB of its holding buffer is issued like
any other, of which R365 names no outcome, is the model's choice, log entry 134.) -/
def Obligations.CopyWords : Prop :=
  ∀ (f : EngF) (s : State) (w : Wd),
    let own := (w.s.team? (scratchOwner w.s w.g.team)).getD w.t
    let o := scratchOwner w.s w.g.team
    let src := sval w f.a
    let dst := sval w f.b
    let stamp : Option (W64 × W64 × Bool) := if f.c = 0xFF then none else some (sval w f.c, svalNext w f.c, bit f.opf.toNat 8)
    let stampOk (t : Team) : Prop := f.c = 0xFF ∨ (sval w f.c).toNat % 8 = 0 ∧
      (bit f.opf.toNat 8 = true → spanOk t (Int.ofNat (sval w f.c).toNat, 8) = true)
    w.s.group? w.g = some w.gr → w.gr.cpy.n < 63 →
    (∀ g t, gridOf w = some g → g.templates[f.opf.toNat % 256]? = some t →
      let ss := sideSpans t true src (svalNext w f.a)
      let ds := sideSpans t false dst (svalNext w f.b)
      (t.smx = true → f.a ≠ 63) → (t.dmx = true → f.b ≠ 63) →
      src.toNat % sideAlign t.sty t.smx = 0 → dst.toNat % sideAlign t.dty t.dmx = 0 →
      (Issues (.copy f) s w →
        let ls := partLines own t.dspace (copyDest t dst (svalNext w f.b))
        (t.gathers = true → f.d ≠ 0xFF) → (f.d ≠ 0xFF → (sval w f.d).toNat % 4 = 0) → stampOk own →
        (t.sspace = true → ∀ x ∈ ss, spanOk own x.2 = true) → (t.dspace = true → ∀ x ∈ ds, spanOk own x.2 = true) →
        linesFree w.s [o] ls = true →
        exec (.copy f) s = .next (afterWord w (absentAll (opIssued w (.copy t src dst
          (if t.gathers then some (BitVec.ofNat 64 (sval w f.d).toNat) else none) (svalNext w f.a) (svalNext w f.b) []) 0 stamp)
          w.s.fresh [o] ls))) ∧
      (Issues (.copyMc f) s w → ∀ rs,
        let k := field f.opf.toNat 9 2 + 1
        let idx := w.gr.getS (f.d.toNat + k)
        let ls := partLines own true (copyDest t dst (svalNext w f.b))
        receivers w f k = some rs → t.dspace = true → (t.gathers = true → f.d.toNat + k ≠ 64 ∧ idx.toNat % 4 = 0) → stampOk own →
        (t.sspace = true → ∀ x ∈ ss, spanOk own x.2 = true) → holdingUsed w.s w.t.core < 16 → linesFree w.s rs ls = true →
        exec (.copyMc f) s = .next (afterWord w (absentAll (opIssued w (.copy t src dst
          (if t.gathers then some (BitVec.ofNat 64 idx.toNat) else none) (svalNext w f.a) (svalNext w f.b) rs) 0 stamp)
          w.s.fresh rs ls)))) ∧
    (Issues (.fill f) s w →
      let len := src.toNat
      let sp := bit f.opf.toNat 9
      let ls := if len = 0 then [] else partLines own sp [(dst.toNat, len)]
      dst.toNat % 8 = 0 → len % 8 = 0 → dst.toNat + len ≤ 2 ^ 64 → stampOk own →
      (sp = true → len ≠ 0 → spanOk own (Int.ofNat dst.toNat, len) = true) → linesFree w.s [o] ls = true →
      exec (.fill f) s = .next (afterWord w (absentAll (opIssued w (.fill (sval w f.d) len dst sp) 0 stamp) w.s.fresh [o] ls)))

/-- R368, R369, R373, R383 to R387: MSHAPE grants the supported shape nearest to the request and returns it; MMA, ACCLD, ACCST
and ACCZ, their shape granted, their region inside the accumulator and their operands aligned and inside the scratchpad, issue one
operation of the matrix class. -/
def Obligations.MatrixWords : Prop :=
  ∀ (f : EngF) (s : State) (w : Wd),
    let opf := f.opf.toNat
    let own := (w.s.team? (scratchOwner w.s w.g.team)).getD w.t
    let a := sval w f.a
    let b := sval w f.b
    let c := sval w f.c
    let inside (sh : Shape) (acc row col : Nat) : Prop := acc < w.t.accs ∧ row + sh.m ≤ 256 ∧ col + sh.n ≤ 256
    (Issues (.mshape f) s w →
      let x := fmtSlot w (opf % 8)
      fmtEn x = true →
      let sh : Shape := ⟨opf % 8, nearestSide (field a.toNat 0 16), nearestSide (field a.toNat 16 16),
        nearestK (granule x) (field a.toNat 32 16)⟩
      exec (.mshape f) s = .next (afterWord w (w.s.modGroup w.g fun g =>
        { g.setS f.d.toNat (BitVec.ofNat 64 (sh.m + sh.n * 2 ^ 16 + sh.k * 2 ^ 32)) with shape := some sh }))) ∧
    ∀ sh, w.s.group? w.g = some w.gr → w.gr.mtx.n < 63 → w.gr.shape = some sh →
      (Issues (.mma f) s w →
        let x := fmtSlot w (opf % 8)
        let m : MmaArgs := ⟨x, sh, field opf 3 2, 64 * field opf 5 2, 64 * field opf 7 2, a.toNat, b.toNat, c.toNat,
          (svalNext w f.c).toNat⟩
        fmtEn x = true → sh.k % granule x = 0 → (f.c = 0xFF → fmtMode x = 0) → inside sh m.acc m.row m.col →
        a.toNat % 128 = 0 → b.toNat % 128 = 0 →
        (fmtMode x = 2 ∨ fmtMode x = 3 → c.toNat % 4 = 0 ∧ (svalNext w f.c).toNat % 4 = 0) →
        (∀ y ∈ mmaSpans m, spanOk own y.2 = true) →
        exec (.mma f) s = .next (afterWord w (opIssued w (.mma x sh m.acc m.row m.col a b c (svalNext w f.c)) 1 none))) ∧
      (let ty := field opf 6 5
        let acc := field opf 0 2
        let row := 64 * field opf 2 2
        let col := 64 * field opf 4 2
        let k := etyWidth ty / 8
        inside sh acc row col →
        (a.toNat % k = 0 → b.toNat % k = 0 → (bit opf 14 = true → spanOk own (accSpan sh a b k) = true) →
          (Issues (.accld f) s w → exec (.accld f) s = .next (afterWord w
            (opIssued w (.accld sh acc row col a b ty (field opf 11 2) (bit opf 14)) 1 none))) ∧
          (Issues (.accst f) s w → exec (.accst f) s = .next (afterWord w
            (opIssued w (.accst sh acc row col a b ty (field opf 11 2) (bit opf 13) (bit opf 14)) 1 none)))) ∧
        (Issues (.accz f) s w → exec (.accz f) s = .next (afterWord w (opIssued w (.accz sh acc row col) 1 none))))

/-- R351, R358, R389, R390, R447: WAITC goes on once its class's counter is at most N, for the collectives and for remote writes as
an acquire that empties the L1, and else parks; MONW of a word in the scratchpad that is present, or of a resident page that may be
read, goes on where the word is at least the target, with the word in D, predicate 1 and the L1 emptied; below the target, MONW of
the scratchpad parks with a monitor. (Readings of the model's own: log entry 73.) -/
def Obligations.WaitWords : Prop :=
  ∀ (f : EngF) (s : State) (w : Wd),
    let cls := f.opf.toNat % 4
    let n := field f.opf.toNat 2 6
    let va := sval w f.a
    let target := sval w f.b
    let own := (w.s.team? (scratchOwner w.s w.g.team)).getD w.t
    let satisfied (s1 : State) (x : W64) : State := afterWord w (((l1Clear s1 w.t.core).modGroup w.g fun g =>
      g.setS f.d.toNat x).modLanes w.g w.acting fun _ t => t.setP (f.opf.toNat % 8) true)
    (Issues (.waitc f) s w → exec (.waitc f) s = .next
      (if (w.gr.counter cls).n ≤ n then afterWord w (if 2 ≤ cls then l1Clear w.s w.t.core else w.s)
        else parked w (.counter cls n) w.s)) ∧
    (Issues (.monw f) s w → va.toNat % 8 = 0 → bit f.opf.toNat 3 = true → spanOk own (Int.ofNat va.toNat, 8) = true →
      linesPresent own va.toNat 8 = true → w.s.team? (scratchOwner w.s w.g.team) = some own →
      let x := BitVec.ofNat 64 (memNat own.scratch va.toNat 8)
      (target.toNat ≤ x.toNat → exec (.monw f) s = .next (satisfied w.s x)) ∧
      (x.toNat < target.toNat → ∃ t m, exec (.monw f) s = .next t ∧ amGet t.mons w.s.fresh = some m ∧ m.g = w.g ∧ m.va = va ∧
        m.target = target ∧ m.last = x ∧ m.sp = true ∧ m.lanes = maskOf w.acting ∧
        m.deadline = (if f.c = 0xFF then none else some (w.s.time.datum + (sval w f.c).toNat)) ∧
        t = parked w (.monitor w.s.fresh) ((w.s.setFresh (w.s.fresh + 1)).setMons t.mons))) ∧
    (Issues (.monw f) s w → va.toNat % 8 = 0 → bit f.opf.toNat 3 = false → viewOf w.t va.toNat = none →
      w.s.team? w.g.team = some w.t → remoteOlder w.s w.g w.t.core w.gr.ctl.asid.toNat va.toNat = none →
      ∀ key e s1, xlate w.s w.t.core w.gr.ctl.asid.toNat w.gr.ctl.priv .read va.toNat = (.ok key e, s1) →
      heldUp s1 key e = false → olderAcc s1 w.g (sectorOf key) = none → inError s1 key = false →
      xlate s1 w.t.core w.gr.ctl.asid.toNat w.gr.ctl.priv .read va.toNat = (.ok key e, s1) → s1.teams = w.s.teams →
      target.toNat ≤ (BitVec.ofNat 64 (memNat s1.mem key 8)).toNat →
      exec (.monw f) s = .next (satisfied (touchRead s1 key e (pteEvp e)) (BitVec.ofNat 64 (memNat s1.mem key 8))))

/-- R444 to R446: NRED and NBAR on an unbroken tree that the core contributes to join the core's next round of that tree, which
they open where no other core has, with the values of the lanes, or an arrival; their class's counter rises. -/
def Obligations.CollectiveWords : Prop :=
  ∀ (f : EngF) (s : State) (w : Wd) (t : Tree),
    let tree := field f.opf.toNat 12 4
    let num := amGetD (w.s.core w.t.core).nextRound (w.t.grid * 16 + tree) 0
    let ty := (Ty.ofCode (field f.opf.toNat 0 5)).getD .b32
    let vals := (List.range 32).map fun l =>
      if w.acting.contains l then ((w.gr.lane? l).map fun t => t.getRun f.a.toNat 1).getD 0 else identityOf ty (field f.opf.toNat 8 3)
    let joins (i : Instr) (c : Contribution) : Prop :=
      Issues i s w → ∃ u id r, exec i s = .next u ∧ amGet u.rounds id = some r ∧ r.grid = w.t.grid ∧ r.tree = tree ∧ r.num = num ∧
        r.result = none ∧ c ∈ r.contribs ∧ amGetD (u.core w.t.core).nextRound (w.t.grid * 16 + tree) 0 = num + 1 ∧
        u.mem = w.s.mem ∧ (u.group? w.g).map (fun g => g.net.n) = some (w.gr.net.n + 1)
    w.s.group? w.g = some w.gr → w.gr.net.n < 63 → treeOf w tree = some t → t.broken = false →
    (∀ x, findRound w.s w.t.grid tree num = some x → x.2.result = none) →
    joins (.nred f) ⟨w.t.core, w.g, w.gr.net.seq, false, field f.opf.toNat 8 3, field f.opf.toNat 0 5, vals, maskOf w.acting, f.d, f.c⟩ ∧
    joins (.nbar f) ⟨w.t.core, w.g, w.gr.net.seq, true, 0, 0, [], 0, f.d, f.d⟩

/-- R21, R270, R271, R399, R403, R408, R459: MFC reads a control register, of the group, its core or its die, into the lanes' pairs
or an s-register, TASK and INVH of PRIVSTAT from the team that a merge group serves; MTC writes TRAPBASE, PTBASE with the root record of
its ASID, ASID, or an event counter or selector where the value sets no reserved bit. A counter takes, after the write, the events that
it has counted in the clock of the write. Writing 1 to OVF leaves it as it is, writing 0 clears it. (Readings of the model's own: log
entry 60.) -/
def Obligations.ControlRegisters : Prop :=
  (∀ (f : SysF) (s : State) (w : Wd), Issues (.mfc f) s w →
    let c := w.gr.ctl
    let r := f.crx.toNat
    let kindBit : Nat := match (((w.t.work.bind MergeWork.owner).bind w.s.team?).map Team.kind).getD w.t.kind with
      | .task => 8
      | .handler => 4
      | .merge => 0
      | .grid => 0
    let v : W64 := match r with
      | 0x000 => BitVec.ofNat 64 (kindBit + (if w.t.kind = .merge then 2 else 0) + if c.priv then 1 else 0)
      | 0x001 => c.trapbase
      | 0x002 => c.cause
      | 0x003 => c.pc
      | 0x004 => c.addr
      | 0x005 => c.fin
      | 0x006 => c.seq
      | 0x010 => c.asid.setWidth 64
      | 0x011 => c.ptbase
      | 0x020 => c.ms0
      | 0x021 => c.ms1
      | 0x022 => c.ms2
      | 0x023 => c.ms3
      | _ =>
        if 0x100 ≤ r ∧ r < 0x108 then BitVec.ofNat 64 (amGetD (w.s.core w.t.core).cev (r - 0x100) 0)
        else if 0x108 ≤ r ∧ r < 0x110 then BitVec.ofNat 64 (amGetD (w.s.core w.t.core).csel (r - 0x108) 0)
        else if 0x110 ≤ r ∧ r < 0x120 then BitVec.ofNat 64 (amGetD (w.s.die (w.t.core / 32)).dev (r - 0x110) 0)
        else if 0x120 ≤ r ∧ r < 0x130 then BitVec.ofNat 64 (amGetD (w.s.die (w.t.core / 32)).dsel (r - 0x120) 0)
        else 0
    exec (.mfc f) s = .next (if f.x then afterWord w (w.s.modGroup w.g fun g => g.setS f.d.toNat v)
      else afterLanes w fun _ t => t.setRun f.d.toNat 2 v.toNat)) ∧
  ∀ (f : SysF) (s : State) (w : Wd),
    let v : W64 := if f.x then w.gr.getS f.a.toNat
      else BitVec.ofNat 64 (((w.gr.lane? (w.acting.headD 0)).map fun t => t.getRun f.a.toNat 2).getD 0)
    let r := f.crx.toNat
    let sel (old : Nat) : Nat := if bit v.toNat 14 = true ∧ bit old 14 = false then v.toNat - 2 ^ 14 else v.toNat
    let ctl (g : Ctl → Ctl) : State := w.s.modGroup w.g fun x => { x with ctl := g x.ctl }
    let counted (now : Nat × AMap Nat) (k : Nat) : Nat := if now.1 = w.s.time.clk then amGetD now.2 k 0 else 0
    (Issues (.mtcPtbase f) s w → r = 0x011 → v.toNat / 2 ^ 51 = 0 → v.toNat / 2 ^ 37 % 2 ^ 11 = 0 → v.toNat / 2 % 2 ^ 14 = 0 →
      exec (.mtcPtbase f) s = .next (afterWord w ((ctl fun c => { c with ptbase := v }).setRoots
        (amPut w.s.roots w.gr.ctl.asid.toNat v)))) ∧
    (Issues (.mtcAsid f) s w → r = 0x010 → v.toNat < 4096 →
      exec (.mtcAsid f) s = .next (afterWord w (ctl fun c => { c with asid := v.setWidth 12 }))) ∧
    (Issues (.mtc f) s w →
      (r = 0x001 → v.toNat % 8 = 0 → exec (.mtc f) s = .next (afterWord w (ctl fun c => { c with trapbase := v }))) ∧
      (0x100 ≤ r → r < 0x108 → v.toNat < 2 ^ 48 → exec (.mtc f) s = .next (afterWord w (w.s.modCore w.t.core fun c =>
        let n := v.toNat + counted c.cnow (r - 0x100)
        { c with cev := amPut c.cev (r - 0x100) (n % 2 ^ 48)
                 csel := if n < 2 ^ 48 then c.csel else amMod c.csel (r - 0x100) fun x => x ||| 2 ^ 14 }))) ∧
      (0x110 ≤ r → r < 0x120 → v.toNat < 2 ^ 48 → exec (.mtc f) s = .next (afterWord w (w.s.modDie (w.t.core / 32) fun d =>
        let n := v.toNat + counted d.dnow (r - 0x110)
        { d with dev := amPut d.dev (r - 0x110) (n % 2 ^ 48)
                 dsel := if n < 2 ^ 48 then d.dsel else amMod d.dsel (r - 0x110) fun x => x ||| 2 ^ 14 }))) ∧
      (v.toNat < 2 ^ 16 → v.toNat / 2 ^ 8 % 2 ^ 6 = 0 → 1 ≤ v.toNat % 2 ^ 8 → v.toNat % 2 ^ 8 ≤ 0x0D →
        (0x108 ≤ r → r < 0x110 → exec (.mtc f) s = .next (afterWord w (w.s.modCore w.t.core fun c =>
          { c with csel := amPut c.csel (r - 0x108) (sel (amGetD c.csel (r - 0x108) 0)) }))) ∧
        (0x120 ≤ r → r < 0x130 → exec (.mtc f) s = .next (afterWord w (w.s.modDie (w.t.core / 32) fun d =>
          { d with dsel := amPut d.dsel (r - 0x120) (sel (amGetD d.dsel (r - 0x120) 0)) })))))

/-- R318, R404, R409 to R411: lanes at an ERET park until every lane of the group stands at one; the return then happens once for the
group, and a lane that was not parked goes on from its record in the frame, in user mode, and in the irrevocable transaction that
it was in, while one that had exited holds again what its registers held then. HALT ends the team, with the group's trap cause, and its
launch's status is HALTED. -/
def Obligations.ReturnAndHalt : Prop :=
  (∀ (f : SysF) (s : State) (w : Wd), w.acting = w.active →
    let s1 := w.s.modLanes w.g w.acting fun _ t => { t with park := some .eret }
    (Issues (.eret f) s w → ∀ g, w.s.group? w.g = some g →
      (∃ l t, g.lane? l = some t ∧ l ∉ w.acting ∧ t.park ≠ some .eret) → exec (.eret f) s = .next (parked w .eret w.s)) ∧
    (Issues (.eret f) s w → ∀ g h t bs u, w.s.group? w.g = some g →
      (∀ l t, g.lane? l = some t → l ∈ w.acting ∨ t.park = some .eret) → g.handler = some h → h.merge = none → g.held = [] →
      w.s.team? w.g.team = some t → readRaw s1 t.core g.ctl.asid.toNat true h.frame.toNat 2048 = .ok (bs, u) →
      h.parks = List.replicate 32 none →
      exec (.eret f) s = .next (retire (u.modGroup w.g fun x => x.leave h bs) w.g.team)) ∧
    (Issues (.halt f) s w → w.t.kind ≠ .merge → w.s.team? w.g.team = some w.t → w.t.work = none →
      exec (.halt f) s = .next (endTeam (if w.t.kind = .grid then gridStatus w.s w.t.grid 4 0 else w.s) w.g.team
        (w.gr.ctl.cause.toNat % 256) 0x60 (w.gr.ctl.cause.toNat % 256)))) ∧
  (∀ (gr : Group) (h : HandlerCtx) (bs : List Byte) (l : Nat) (t : Thread) (k : LaneRegs), gr.lane? l = some t → bit h.exited.toNat l = true →
    h.left[l]? = some k → ∃ u, (gr.leave h bs).lane? l = some u ∧ u.exited = true ∧ u.park = none ∧ u.p = k.p ∧ u.fpctl = k.fpctl ∧
      u.fpflags = k.fpflags ∧ u.getRun 0 4 = k.v % 2 ^ 128) ∧
  ∀ (gr : Group) (h : HandlerCtx) (bs : List Byte) (l : Nat) (t : Thread), bs.length = 2048 → gr.lane? l = some t → l < 32 →
    h.parks.getD l none = none → bit h.exited.toNat l = false → num bs (0x80 + 48 * l + 8) 1 ≠ 2 → wakeScalars h = [] →
    let rec_ (o n : Nat) : Nat := num bs (0x80 + 48 * l + o) n
    let g1 := gr.leave h bs
    g1.ctl.priv = false ∧ g1.handler = none ∧ (∀ k, k < 8 → g1.getS (56 + k) = BitVec.ofNat 64 (num bs (0x40 + 8 * k) 8)) ∧
    (∀ k, k < 56 → g1.getS k = gr.getS k) ∧
    ∃ u, g1.lane? l = some u ∧ u.pc = BitVec.ofNat 64 (rec_ 0 8) ∧ u.p = BitVec.ofNat 7 (rec_ 9 1) ∧ u.wait = rec_ 10 1 ∧
      u.fpctl = BitVec.ofNat 4 (rec_ 0x10 4) ∧ u.fpflags = BitVec.ofNat 6 (rec_ 0x14 4) ∧ u.park = none ∧ u.tx = h.txs.getD l none ∧
      (∀ k, k < 4 → u.getV k = BitVec.ofNat 32 (rec_ (0x18 + 4 * k) 4)) ∧ ∀ k, 4 ≤ k → u.getV k = t.getV k

/-! Events: work is admitted, saved and joined. -/

/-- R144, R145, R151 to R153, R171 to R173, R183 to R186, R199: the first waiting head that fits is admitted: a grid's next team,
with its TEAMID; the head task of a die's pool, with its index in its frame; the handler of the first arrived invocation of a die that can
be placed, with s0 to s3. Every thread starts at its role's entry with cleared registers, in user mode. (Readings of the model's own:
log entries 82, 110 and 124.) -/
def Obligations.Admissions : Prop :=
  (∀ (s : State) (id core : Nat) (g : Grid), nextHead s = some (id, g, core) →
    ∃ t m, exec .teamAdmission s = .next t ∧ t.team? s.fresh = some m ∧ m.kind = .grid ∧ m.grid = id ∧ m.core = core ∧
      m.resident = true ∧ m.teamid = BitVec.ofNat 32 g.nextTeam ∧ m.teams = BitVec.ofNat 32 g.teamCount ∧ m.argp = g.argp ∧
      m.bars.length = g.bars ∧ (∀ b ∈ m.bars, b = ⟨32 * m.groups.length, 0, 0⟩) ∧
      (∀ x ∈ m.groups, ∃ r, g.roles[x.role]? = some r ∧ x.budget = r.budget ∧ x.lanes = List.replicate 32 (Thread.start r.entry) ∧
        x.s = [] ∧ x.ctl.priv = false) ∧
      amGet t.grids id = some { g with nextTeam := g.nextTeam + 1, lastDie := core / 32, headSince := s.time.datum }) ∧
  (∀ (s : State) (die i core : Nat) (k : TaskRec), nextTask s die = some (i, k, core) →
    ∃ t m, exec (.taskAdmission die) s = .next t ∧ t.team? s.fresh = some m ∧ m.kind = .task ∧ m.core = core ∧
      m.parent = some (k.frame, k.child) ∧ m.argp = k.argp ∧ m.teamid = BitVec.ofNat 32 k.child ∧
      (∀ x ∈ m.groups, x.budget = k.budget ∧ x.lanes = List.replicate 32 (Thread.start k.entry) ∧ x.ctl.priv = false) ∧
      (t.die die).pool = (s.die die).pool.eraseIdx i) ∧
  ∀ (s : State) (id core : Nat) (v : Invocation), nextPlacement s (core / 32) = some (id, v, core) →
    ∃ t m x box, exec (.placement core) s = .next t ∧ t.team? s.fresh = some m ∧ m.kind = .handler ∧ m.core = core ∧
      m.groups = [x] ∧ x.budget = 32 * (v.word.toNat % 8 + 1) ∧
      x.lanes = List.replicate 32 (Thread.start (v.word &&& ~~~7#64)) ∧ x.getS 0 = BitVec.ofNat 64 (0x400000 + 128 * box) ∧
      x.getS 1 = v.stake ∧ x.getS 2 = (if v.pred.isSome then BitVec.ofNat 64 (0x400000 + 128 * box + 64) else 0) ∧
      x.getS 3 = BitVec.ofNat 64 (v.payload.length + 256 * (v.pred.getD []).length) ∧ amGet t.invs id = none

/-- R163, R412, R414, R415: a head that has waited one slice has the fewest candidates of one core chosen, marked for saving; a
chosen team whose work has ended is saved, its image written in its context's save pool, and joins the tail of its grid; a saved
team resumes on its core in the slots it left, with a fresh age, the frames of its handlers as they were. (Readings of the model's
own: log entries 16, 122 and 125.) -/
def Obligations.Preemptions : Prop :=
  (∀ (s : State) (ts : List Nat), (∀ t ∈ s.teams, t.2.saving = false) →
    ((waitingWork s).filter fun w =>
      w.since + sliceTicks s w.grid ≤ s.time.datum && !(w.cores.any (w.fits s))).findSome? (chosenFor s) = some ts →
    ∃ t, exec .preemption s = .next t ∧ t.mem = s.mem ∧
      ∀ i ∈ ts, ∀ m, s.team? i = some m → ∃ m1, t.team? i = some m1 ∧ m1.saving = true) ∧
  (∀ (s s1 s2 : State) (i off : Nat) (m : Team) (c : Ctx) (gs : List Group), s.team? i = some m → m.saving = true →
    saveReady s i m = true → s.ctxOf m = some c → poolPlace c (imageBytes m) = some off → keepFrames s m m.groups = .ok (gs, s1) →
    writeVa s1.takeFree.2 m.core m.asid.toNat true (c.savepool.toNat + off) (imageOf s1.takeFree.1 (imageBytes m)) = .ok s2 →
    ∃ t q c1, exec (.preemptionSave i) s = .next t ∧
      t.team? i = some { m with resident := false, saving := false, since := s.time.datum, groups := gs, queued := q } ∧
      t.mem = s2.mem ∧ t.ctxOf m = some c1 ∧ (i, off, imageBytes m) ∈ c1.saves ∧
      ∀ g, m.kind = .grid → ({ m with resident := false, saving := false, groups := gs } : Team).wantsCore = true →
        amGet s.grids m.grid = some g → amGet t.grids m.grid = some { g with tail := g.tail.filter (fun k => k ≠ i) ++ [i] }) ∧
  ∀ (s s1 : State) (i : Nat) (m : Team), s.team? i = some m → canResume s i m = true → m.heldIn = [] →
    putFrames m m.groups s = .ok s1 →
    ∃ t m1, exec (.teamResume i) s = .next t ∧ t.team? i = some m1 ∧ m1.resident = true ∧ m1.age = s.time.clk ∧
      m1.core = m.core ∧ m1.slot = m.slot ∧ m1.groups.map Group.slot = m.groups.map Group.slot ∧ m1.scratch = m.scratch ∧
      m1.acc = m.acc ∧ m1.bars = m.bars ∧ (t.core m.core).l1 = [] ∧ t.mem = s1.mem

/-- R165, R178 to R182, R441: the events of joins. On a broken frame, of which memory has been told, a waiting child only advances CURSOR;
else, on a frame of one tile of which no other waiting child takes a free slot, the child whose index CURSOR names is merged and CURSOR
rises; a custom merge group that has retired lets the next tile follow; once CURSOR has reached NCHILD the application of a frame that
parked SYNC words wait for starts; a grid without views needs no application; a finished, applied launch completes with its status.
(Readings of the model's own: log entry 63.) -/
def Obligations.JoinEvents : Prop :=
  (∀ (s : State) (id : Nat) (f : Frame), amGet s.frames id = some f →
    (∀ w rest, f.broken = true → f.told = true → f.waiting = w :: rest →
      exec (.fold id) s = .next (letGo (s.setFrames (amMod s.frames id fun x =>
        { x with cursor := x.cursor + 1, waiting := rest })) w.2)) ∧
    (∀ c x u, f.broken = false → nextPark f = none → f.job = none → f.runner = none → (∀ k ∈ f.slots, k.2 ≠ f.cursor) →
      applyDue s id f = false →
      amGet f.waiting f.cursor = some c → f.tiles = [x] → x.oper ≠ 15 → etyWidth x.ety ≠ 0 →
      mergeElems f.asid.toNat x false (.mem (f.va.toNat + 0x40 + x.off)) (childSpot s c 0) (x.size / (etyWidth x.ety / 8)) 0
        (s.setFrames (amPut s.frames id { f with job := some ⟨.child c, 0, 0, false, none, none⟩ })) = (u, none) →
      ∃ t f1, exec (.fold id) s = .next t ∧ t.mem = u.mem ∧ amGet t.frames id = some f1 ∧ f1.cursor = f.cursor + 1 ∧
        f1.runner = some c ∧ f1.job = none ∧ f1.nchild = f.nchild ∧ f1.waiting = f.waiting.filter fun w => w.2 != c) ∧
    (∀ g, f.job = none → f.broken = false → f.sync = none → f.owner = some g → applyDue s id f = true →
      (∀ x ∈ f.tiles, (applyTarget s f x).isSome = true) → exec (.syncApplication id) s = .next (startJob s id f .apply))) ∧
  (∀ (s : State) (g : GRef) (t : Team) (w : MergeWork) (f : Frame) (j : MergeJob), s.team? g.team = some t → t.kind = .merge →
    t.work = some w → t.resident = true → t.phase ≠ .ended → t.groups.all Group.retired = true →
    amGet s.frames w.frame = some f → f.job = some j → j.group = some g.team →
    ∃ u, exec (.mergeGroupRetire g) s = .next u ∧ u.team? g.team = none ∧
      amGet u.frames w.frame = some { f with job := some { j with group := none, tile := j.tile + 1, elem := 0 } }) ∧
  ∀ (s : State) (id : Nat) (g : Grid), amGet s.grids id = some g → gridEmpty s id g = true →
    (g.applied = false → g.ljoin = none → exec (.gridCompletion id) s = .next (s.setGrids (amPut s.grids id { g with applied := true }))) ∧
    (∀ q, g.applied = true → g.done = false → g.deps.contains id = false → amGet s.queues g.queue = some q →
      completeWaits s g.queue 1 = false →
      ∃ u, exec (.launchCompletion id) s = .next u ∧ amGet u.grids id = some { g with done := true } ∧
        amGet u.queues g.queue = some { q with done := q.done ++ [(g.tag, g.status, g.detail, 0)] })

/-- R183, R189, R191, R212, R432, R450: a query that reaches its entry is answered with the settled stake's status and result, an
invocation that reaches its target stands in its order of arrival, and the proxy of a die out of service answers for it with cause
62. (Readings of the model's own: log entry 48.) -/
def Obligations.StakeMessages : Prop :=
  (∀ (s : State) (msg slot gen sender word lane : Nat) (x : W64) (g : GRef) (placed : Option (Nat × Nat)) (st : StakeSt) (q : List Nat)
      (d : Bool) (kind : MsgKind),
    amGet s.msgs msg = some ⟨sender, word, x, kind, none, false⟩ → stakeDevice x = s.sys.device →
    overtakes s msg ⟨sender, word, x, kind, none, false⟩ = false → s.dieUp (stakeCore x / 32) = true → slot = stakeSlotNo x →
    gen = stakeGen x →
    stakeSlot s (stakeCore x) slot = ⟨gen, some (.resolution placed st q d)⟩ →
    (kind = .poll g lane ∧ (st = .pending → placed = none → q.length < 8) ∨ kind = .await g lane ∧ st ≠ .pending) →
    exec (.stakeMessage msg) s = .next (answerMsg s msg g lane (stakeStatus st) (match st with
      | .fulfilled data => data
      | _ => []))) ∧
  (∀ (s : State) (msg inv sender word : Nat) (x : W64) (w : Option (GRef × Nat)) (l : Bool) (v : Invocation),
    amGet s.msgs msg = some ⟨sender, word, x, .place inv, w, l⟩ →
    amGet s.invs inv = some v →
    (s.dieUp v.die = true → exec (.stakeMessage msg) s = .next (((s.setMsgs (amDel s.msgs msg)).setFresh (s.fresh + 1)).setInvs
      (amPut s.invs inv { v with arrived := some s.fresh, since := s.time.datum }))) ∧
    (v.die < 8 → s.dieUp v.die = false → exec (.proxyAnswer msg) s = .next
      (settle ((s.setMsgs (amDel s.msgs msg)).setInvs (amDel s.invs inv)) v.issuer v.slot (.broken 0x62 0 0)))) ∧
  ∀ (s : State) (msg sender word lane : Nat) (x : W64) (g : GRef) (kind : MsgKind),
    amGet s.msgs msg = some ⟨sender, word, x, kind, none, false⟩ →
    stakeDevice x = s.sys.device → stakeDie x < 8 → s.dieUp (stakeDie x) = false →
    overtakes s msg ⟨sender, word, x, kind, none, false⟩ = false → (kind = .await g lane ∨ kind = .poll g lane) →
    exec (.proxyAnswer msg) s = .next (answerMsg s msg g lane 0x620002 [])

/-- R223, R350, R354, R357, R365, R374, R384: the events of the engines. A fill or copy whose source is ready and that meets no
fault makes its writes, then its stamp, and is counted; a line may come ahead of the rest; the holding buffer's image drains into a
receiver; the matrix engine starts its core's oldest operation, an MMA, with its products accumulated, and completes an operation
that it has started. (Readings of the model's own: log entries 10 and 56.) -/
def Obligations.EngineEvents : Prop :=
  (∀ (s : State) (id : Nat) (o : Op), amGet s.ops id = some o → o.st = .issued → o.cls = 0 → o.cancelled = false → o.delivered = [] →
    o.given = [] → sourceInError s o = false → sourceReady s id o = true → Op.multicast o = false → inDram s o = none →
    (Op.evaluate s o).2.fault = none →
    let r := Op.evaluate s o
    let s1 := writeAll r.2.st o r.1 r.2.writes
    (errorSpots r.2.st (Op.eng r.2.st o) r.1 r.2.writes = [] → stampFault s1 o = none → inDram s1 o = none →
      (∀ a v sp, o.stamp = some (a, v, sp) → errorSpots s1 (Op.eng s1 o) sp [(a.toNat, toBytes 8 v.toNat)] = []) →
      exec (.engineOpComplete id) s = .next (opDone (releaseLines (match o.stamp with
      | some (a, v, sp) => engWrite (Op.eng s1 o) sp (a.toNat, toBytes 8 v.toNat) s1
      | none => s1) id) id)) ∧
    ∀ line t, scratchOwner s o.g.team = o.g.team → s.team? o.g.team = some t → (amGetD t.absent line []).contains id = true →
      o.image = none →
      let ks := lineInstants s o r.1 line r.2.writes
      let mine := instantWrites o ks r.2.writes
      let s2 := writeAll r.2.st o r.1 mine
      errorSpots s (Op.eng s o) r.1 mine = [] → errorSpots r.2.st (Op.eng r.2.st o) r.1 mine = [] →
      exec (.lineDelivered id o.g.team line) s = .next
        ((s2.setOps (amPut s2.ops id { o.reading r.2.writes with given := ks.eraseDups })).modTeam o.g.team fun x =>
          x.givePresent id fun l => l == line)) ∧
  (∀ (s : State) (id team other : Nat) (o : Op) (t : Team) (bytes : List (Nat × Byte)), amGet s.ops id = some o → s.team? team = some t →
    o.image = some bytes → team ∈ Op.receivers o → other ∈ Op.receivers o → other ≠ team → o.delivered = [] →
    t.resident = true → s.errs.scratch = [] →
    (∀ b ∈ bytes, b.1 < t.units * 65536) →
    ∃ u t1, exec (.mcDrain id team) s = .next u ∧ u.team? team = some t1 ∧ u.mem = s.mem ∧
      t1.scratch = bytes.foldl (fun m b => memWrite m b.1 [b.2]) t.scratch ∧
      t1.absent = (t.givePresent id fun _ => true).absent) ∧
  (∀ (s : State) (core id acc row col : Nat) (x : Nat) (sh : Shape) (a b sa sb : W64) (o : Op) (t : Team),
    let mine := s.ops.filter fun p => Op.matrix p.2 && !p.2.cancelled && p.2.st != .complete && coreOf s p.2.g == core
    (id, o) ∈ mine → (∀ p ∈ mine, p ≠ (id, o) → p.1 ≠ id ∧ opBefore s id p.1 = true ∧ opBefore s p.1 id = false) →
    o.kind = .mma x sh acc row col a b sa sb → o.st = .issued → sourceReady s id o = true → sourceInError s o = false →
    s.team? o.g.team = some t → scratchOwner s o.g.team = o.g.team →
    ∃ u, exec (.matrixOpStart core) s = .next u ∧ u.mem = s.mem ∧
      u.team? o.g.team = some (mmaOn t.scratch ⟨x, sh, acc, row, col, a.toNat, b.toNat, sa.toNat, sb.toNat⟩ t)) ∧
  ∀ (s : State) (id : Nat) (o : Op), amGet s.ops id = some o → o.cls = 1 → o.st = .started →
    exec (.engineOpComplete id) s = .next (opDone s id)

/-- R358, R390: an armed monitor whose sector has been written, or whose team has come back to its core, or after 1,024 clocks one that
polls, reads its word and, where it has reached the target, its threads go on with predicate 1; past the deadline, with no such read to be
made first, they go on with predicate 0. -/
def Obligations.MonitorEvents : Prop :=
  ∀ (s : State) (id : Nat) (m : Mon) (t : Team), amGet s.mons id = some m → s.team? m.g.team = some t → t.resident = true →
    let woken (u : State) (x : W64) (ok : Bool) : State :=
      wakeGroup u m.g (fun p => p == .monitor id) { v := [], p := some (m.pd.toNat, ok), s := some (m.d.toNat, x) }
    let r := monRead s t.core m
    (monBlocked s m = false → m.target.toNat ≤ r.1.toNat →
      (m.resumed = true ∨ m.polling = false ∧ m.dirty = true →
        exec (.monitorReread id) s = .next (woken (l1Clear (r.2.setMons (amDel r.2.mons id)) (coreOf r.2 m.g)) r.1 true)) ∧
      (m.polling = true → m.since + 1024 ≤ s.time.clk →
        exec (.monitorPoll id) s = .next (woken (l1Clear (r.2.setMons (amDel r.2.mons id)) (coreOf r.2 m.g)) r.1 true))) ∧
    ∀ d, m.deadline = some d → d < s.time.datum → m.resumed = false → (m.dirty = false ∨ monBlocked s m = true) →
      exec (.monitorTimeout id) s = .next (woken (s.setMons (amDel s.mons id)) m.last false)

/-- R243, R305, R308 to R311, R317, R318: the events of commits. The one logged lane of a group leaves as a cairn; a cairn, where its line
finds room in the caches, locks and validates each line, and once all are locked passes its commit instant, writes and unlocks line by
line, and commits its lanes; the lowest ordered participant follows once CURSOR names its index; a lane that overflowed begins
irrevocably; the 65,536th issue aborts. (Readings of the model's own: log entry 66.) -/
def Obligations.CommitEvents : Prop :=
  (∀ (s : State) (g : GRef) (gr : Group) (l : Nat) (t : Thread) (x : Tx) (d : Reg), s.group? g = some gr → mayRound s g gr = true →
    (List.range 32).filter (fun k => ((gr.lane? k).map Thread.logged).getD false) = [l] → gr.lane? l = some t → t.tx = some x →
    t.park = some (.commit d) → x.mode ≠ .ordered → gr.ordered = 0 →
    ∃ u c, exec (.commitRound g) s = .next u ∧ amGet u.cairns s.fresh = some c ∧ c.g = g ∧ c.lanes = [l] ∧ c.ordered = false ∧
      c.todo = cairnRoute gr [l] ∧ c.passed = false ∧ u.mem = s.mem) ∧
  (∀ (s : State) (g : GRef) (gr : Group) (id : Nat) (c : Cairn), s.group? g = some gr → g = c.g →
    s.cairns.find? (fun p => p.2.g == g) = some (id, c) →
    (∀ line rest, c.passed = false → c.todo = line :: rest → cairnRoom s gr c line = true →
      (keyHome (line * 128) ≤ 7 → s.dieUp (keyHome (line * 128)) = true) →
      amGet s.locks line = none → (∀ k ∈ c.lanes, ∀ u x, gr.lane? k = some u → u.tx = some x →
        ∀ e ∈ x.rd, lineOf e.key = line → validates s x.mode e = true) →
      exec (.cairn g) s = .next ((validated gr c line).foldl (fun st x => touchRead st x.1 x.2 (pteEvp x.2))
        ((s.setCairns (amPut s.cairns id { c with todo := rest, lines := c.lines ++ [line] })).setLocks (amPut s.locks line id)))) ∧
    (c.passed = false → c.todo = [] → exec (.cairn g) s = .next (s.setCairns (amPut s.cairns id { c with passed := true, todo := c.lines }))) ∧
    (∀ line rest, c.passed = true → c.todo = line :: rest → cairnRoom s gr c line = true →
      ∃ u, exec (.cairn g) s = .next u ∧ amGet u.locks line = none ∧ amGet u.cairns id = some { c with todo := rest }) ∧
    (c.passed = true → c.todo = [] → c.ordered = false → c.lanes.Nodup →
      ∃ u, exec (.cairn g) s = .next u ∧ amGet u.cairns id = none ∧ u.mem = s.mem ∧
        ∀ k ∈ c.lanes, ∀ v d, gr.lane? k = some v → v.park = some (.commit d) →
          ∃ v1, u.lane? g k = some v1 ∧ v1.tx = none ∧ v1.park = none ∧ v1.pc = v.pc + 8 ∧ v1.getV d.toNat = 0)) ∧
  (∀ (s : State) (g : GRef) (gr : Group) (l : Nat) (t : Thread), s.group? g = some gr → nextOrdered gr = some l → gr.lane? l = some t →
    cursorAt s t = true → atCommit gr l = true → mayRound s g gr = true →
    ∃ u c, exec (.orderedCommit g) s = .next u ∧ amGet u.cairns s.fresh = some c ∧ c.g = g ∧ c.lanes = [l] ∧ c.ordered = true) ∧
  (∀ (s : State) (g : GRef) (l : Nat) (t : Thread) (m : Team) (d : Reg) (p : BitVec 3), s.lane? g l = some t → s.team? g.team = some m →
    m.resident = true → t.park = some (.irrevocable d p) → cursorAt s t = true →
    ∃ u v x, exec (.irrevocableBegin g l) s = .next u ∧ u.lane? g l = some v ∧ v.tx = some x ∧ x.mode = .irrevocable ∧ v.park = none ∧
      v.pc = t.pc + 8 ∧ v.getP p.toNat = true ∧ u.mem = s.mem) ∧
  ∀ (s : State) (g : GRef) (l : Nat) (t : Thread) (x : Tx), s.lane? g l = some t → t.tx = some x → x.mode ≠ .irrevocable →
    65535 ≤ x.issues → t.park = none → exec (.watchdog g l) s = .next (abortLane s g l 7 0x5F)

/-! Events: memory, traps, peers, collectives, commands and services. -/

/-- R230, R232, R238, R241, R242, R251, R273, R437: an outstanding access is performed; caches drop lines, a full set of the L2 or of the
memory-side cache its victim, or write them back where what is dirty finds room below, without a change of any byte of memory; a refresh
changes no state but its count; a report leaves the list of reports, is logged with KIND 2, and ends everything of each context that it
meets: its teams end, its tasks and invocations are dropped, its launches complete with DATA_LOSS, and the frames of its launches and
teams break (with cause DATA_ERROR, which is the model's choice, log entry 28); a store that its peer or the host takes is performed, the
core's own L1 follows it, and the word's operation is counted with its last access (that it is one operation is the model's reading, log
entry 37). -/
def Obligations.MemoryEvents : Prop :=
  (∀ (s : State) (id : Nat) (a : Access) (u : State), amGet s.pend id = some a → a.remote = false → heldUp s a.key a.e = false →
    olderPend s id a = false → performAccess (s.setPend (amDel s.pend id)) a = some u →
    exec (.accessPerform id) s = .next (retire u a.g.team)) ∧
  (∀ (s : State) (l : CacheLine), ∃ t, exec (.eviction l) s = .next t ∧ t.mem = s.mem ∧ t.teams = s.teams ∧
    (∀ core sec, l = .l1 core sec → amGet (t.core core).l1 sec = none) ∧
    (∀ line, l = .l2 line → l2Victim s line = true → backReady s line = true → ∀ sec, sec / 2 = line → t.l2Sec sec = none) ∧
    ∀ line, l = .msc line → mscVictim s line = true → amGet t.msc line = none) ∧
  (∀ (s : State) (sec : Nat) (dram : Bool), ∃ t, exec (.spontaneousWriteback sec dram) s = .next t ∧ t.mem = s.mem ∧ t.teams = s.teams ∧
    (∀ x, dram = true → s.mscSec sec = some x → t.mscSec sec = some { x with dram := none }) ∧
    (∀ x, dram = false → backReady s (sec / 2) = true → s.l2Sec sec = some x → t.l2Sec sec = some { x with below := none })) ∧
  (∀ (s : State) (bank : Nat), ∃ t, exec (.refresh bank) s = .next t ∧ t = s.setDies t.dies) ∧
  (∀ (s : State) (e : ErrAt) (r : Report), s.errs.reports.find? (fun x => x.err == e) = some r →
    let p := reportPlace s r
    ∃ u, exec (.contextFatalReport e) s = .next ((reportCtxs s r).foldl contextFatal u) ∧
      u.errs.reports = s.errs.reports.filter (fun x => x.err ≠ e) ∧ u.teams = s.teams ∧ u.mem = s.mem ∧ u.grids = s.grids ∧
      ∀ g, amGet s.sys.logs p.1 = some g → g.recs.length < 64 → ∃ g1 x, amGet u.sys.logs p.1 = some g1 ∧ x ∈ g1.recs ∧ x.kind = 2 ∧
        x.chan = p.2.1 ∧ x.addr = p.2.2 ∧ x.cause = 0x18 ∧ x.datum = s.time.datum) ∧
  (∀ (s : State) (e : ErrAt) (r : Report) (n : Nat), s.errs.reports.find? (fun x => x.err == e) = some r → n ∈ reportCtxs s r →
    ∃ t, exec (.contextFatalReport e) s = .next t ∧
      (∀ i m, s.team? i = some m → m.ctx = n → t.team? i = none ∨ ∃ m1, t.team? i = some m1 ∧ m1.phase = .ended) ∧
      (∀ d, ∀ k ∈ (t.die d).pool, k.ctx ≠ n) ∧ (∀ i v, amGet t.invs i = some v → v.ctx ≠ n) ∧
      (∀ i g, amGet s.grids i = some g → g.ctx = n → g.done = false →
        ∃ g1, amGet t.grids i = some g1 ∧ g1.status = 2 ∧ g1.nextTeam = g1.teamCount ∧ g1.tail = []) ∧
      ∀ i f, amGet s.frames i = some f → (∀ x ∈ s.frames, x.2.waiting = [] ∧ x.2.runner = none) →
        (f.owner = none ∧ f.ctx = n ∨ ∃ g m, f.owner = some g ∧ s.team? g.team = some m ∧ m.ctx = n ∧ m.work = none) →
        ∃ f1, amGet t.frames i = some f1 ∧ f1.broken = true ∧ (f.broken = false → f1.cause = 0x18)) ∧
  ∀ (s : State) (id key e o : Nat) (a : Access) (r : State), amGet s.pend id = some a → a.remote = true → olderRemote s id a = false →
    returnsData a.kind = false → (∀ ps, a.kind ≠ .unit ps) →
    xlate (s.setPend (amDel s.pend id)) (coreOf s a.g) a.asid.toNat a.priv (needOf a.kind) a.va.toNat = (.ok key e, r) →
    let done := l1Own (performAt (.mem key e a.cls) r a.g a.lane a.kind) (coreOf s a.g) key a.kind
    let u := if a.acq && a.wide then l1Clear done (coreOf s a.g) else done
    sameOp u a = false → remoteOp u a = some o → exec (.remoteAck id) s = .next (opDone u o)

/-- R395, R401, R405: a trap that waited for the group's accesses is taken once they have drained, with the cause it recorded; a
held fault is taken at an issue boundary; a handler that has run for more than 10,000,000 ticks is ended as by a fatal trap. -/
def Obligations.TrapEvents : Prop :=
  ∀ (s : State) (g : GRef) (gr : Group) (m : Team), s.group? g = some gr → s.team? g.team = some m → m.resident = true →
    (∀ r t, m.phase ≠ .ended → gr.pendTrap = some r → Takes s g r.info t → exec (.trapEntry g) s = .next t) ∧
    (∀ f rest t, m.phase ≠ .ended → m.saving = false → gr.pendTrap = none → gr.handler = none → drained s g = true →
      gr.held = f :: rest → Takes (s.modGroup g fun x => { x with held := rest }) g (AFault.info f) t →
      exec (.asyncFaultDelivery g) s = .next t) ∧
    (∀ h, gr.handler = some h → h.since + 10000000 < s.time.datum → exec (.handlerWatchdog g) s = .next (fatalTrap s g 0x5F))

/-- R433 to R437, R452: peers. A peer's read or write of its window, allowed by the access table and the page, is performed at this
device and answered; a sound flit on a port in service is decompressed and delivered, whatever the data; a failed port is taken down
and logged; a silent peer is lost, and every context is told; training, or its time-out, ends stage D. (Readings of the model's own:
log entry 96, and 95 for the last clause, that after the time-out each of the other 255 device numbers is lost.) -/
def Obligations.PeerEvents : Prop :=
  (∀ (s : State) (dev off ctx size key e : Nat) (base : W64) (p : Peer) (c : Ctx) (r : PeerReq) (u : State),
    amGet s.sys.peers dev = some p → p.present = true → p.lost = false → 4 ≤ s.sys.stage → s.sys.admitting = true →
    p.entry = some (ctx, base, size) → off < size → amGet s.ctxs ctx = some c → (base.toNat + off) / 2 ^ 60 ≤ 9 →
    peerWaits s dev off r = false →
    missingAccess s (peerNeed r) 131 (0x1000 + dev) = none →
    xlate s unitCore c.asid.toNat false (peerNeed r) (base.toNat + off) = (.ok key e, u) → inError u key = false →
    (∀ bs, r = .write bs → ∃ t, exec (.peerAccess dev off r) s = .next t ∧ t.mem = memWrite u.mem key bs ∧
      t.sys.peerOut = u.sys.peerOut ++ [(dev, .done [])]) ∧
    (∀ n, r = .read n → ∃ t, exec (.peerAccess dev off r) s = .next t ∧ t.mem = u.mem ∧
      t.sys.peerOut = u.sys.peerOut ++ [(dev, .done (memRead u.mem key n))])) ∧
  (∀ (s : State) (port dev : Nat) (p : Port) (d : Peer) (data : List Byte), amGet s.sys.jports port = some p →
    amGet s.sys.peers dev = some d → p.trained = true → p.down = false → d.present = true → d.lost = false → data ≠ [] →
    exec (.flitReceive port dev data.length true (compress data)) s = .next (s.setSys { s.sys with
      jports := amPut s.sys.jports port { p with rx := p.rx ++ [data] }
      peers := amPut s.sys.peers dev { d with lastFlit := s.time.datum } })) ∧
  (∀ (s : State) (port : Nat) (p : Port), amGet s.sys.jports port = some p → p.trained = true → p.down = false → port < 18 →
    ∃ t, exec (.portDown port) s = .next t ∧ amGet t.sys.jports port = some { p with down := true } ∧ t.mem = s.mem ∧
      ∀ g, amGet s.sys.logs (8 + port / 9) = some g → g.recs.length < 64 → ∃ g1 r, amGet t.sys.logs (8 + port / 9) = some g1 ∧
        r ∈ g1.recs ∧ (g.clk ≠ s.time.clk → g1.recs = g.recs ++ [r]) ∧ r.kind = 5 ∧ r.chan = 32 + port % 9 ∧ r.datum = s.time.datum) ∧
  (∀ (s : State) (dev : Nat) (p : Peer), amGet s.sys.peers dev = some p → p.present = true → p.lost = false →
    p.lastFlit + 1000000 ≤ s.time.datum →
    ∃ t, exec (.peerLost dev) s = .next t ∧ amGet t.sys.peers dev = some { p with lost := true } ∧ t.mem = s.mem ∧
      ∀ n c, amGet s.ctxs n = some c → ∃ c1, amGet t.ctxs n = some c1 ∧ c1.events = c.events ++ [dev]) ∧
  ∀ (s : State), s.sys.stage = 3 → s.sys.fail = false →
    (∀ dev ports peers, dev < 256 → ∃ t, exec (.jiathTraining dev ports peers) s = .next t ∧ t.sys.stage = 4 ∧ t.sys.device = dev ∧
      t.mem = s.mem ∧ ∀ k ∈ ports, k < 18 → (amGet t.sys.jports k).map Port.trained = some true) ∧
    ∃ t, exec .jiathTrainingTimeout s = .next t ∧ t.sys.stage = 4 ∧ t.mem = s.mem ∧
      ∀ d, d < 256 → d ≠ s.sys.device → (amGet t.sys.peers d).map Peer.lost = some true

/-- R443, R444, R446: the events of a collective round: a contribution enters its core's router, whose timer starts with it; a timer
that has run for LIMIT sends a time-out, which at the root ends the round with code 1; the root's result completes the NRED or NBAR
of each contributor. (Readings of the model's own: log entry 71.) -/
def Obligations.CollectiveEvents : Prop :=
  ∀ (s : State) (id : Nat) (r : CollRound) (t : Tree), amGet s.rounds id = some r → roundTree s r = some t →
    (∀ core c, t.broken = false → r.contribs.find? (fun x => x.core == core) = some c → r.sent.contains (routerOfCore s core) = false →
      amHas r.inputs (inputKey (routerOfCore s core) 0 0) = false →
      ∃ u r1, exec (.routerInput id (.core core)) s = .next u ∧ amGet u.rounds id = some r1 ∧ r1.contribs = r.contribs ∧
        amGet r1.inputs (inputKey (routerOfCore s core) 0 0) =
          some (.vals (if c.bar then 0x10000 else c.op * 32 + c.ty) (if c.bar then [] else c.vals)) ∧
        amHas r1.timers (routerOfCore s core) = true) ∧
    (∀ node at_, t.broken = false → amGet r.timers node = some at_ → r.sent.contains node = false → at_ + t.limit ≤ s.time.datum →
      (node, node) ∈ t.links.map (fun l => (l.1, l.2.1)) → t.home = true → r.result = none →
      ∃ u r1, exec (.roundTimeout id node) s = .next u ∧ amGet u.rounds id = some r1 ∧ r1.result = some (1, [])) ∧
    ∀ core c code xs o, r.result = some (code, xs) → r.contribs.find? (fun x => x.core == core) = some c → contribOp s c = some o →
      exec (.roundComplete id core) s = .next (netFinish
        (s.setRounds (amPut s.rounds id { r with contribs := r.contribs.filter fun y => y.core ≠ core })) o c r.num code xs t.lost)

/-- R148, R438 to R441: at a doorbell the commands up to the producer index, read from the queue's ring, join their queue; a launch
record that fails a check completes with LAUNCH_INVALID and its number, one that passes leaves the queue and becomes a launch;
contexts are created, attached and destroyed. (Readings of the model's own: log entries 20, 68 and 104; that CONTEXT_CREATE reads its
record without translation, under scheme 0, is log entry 84.) -/
def Obligations.ContextCommands : Prop :=
  ∀ (s : State) (k : Nat) (q : Queue) (c : Cmd), amGet s.queues k = some q → q.cmds = [c] → 3 ≤ s.sys.stage →
    let answered (u : State) (status detail : Nat) (value : W64) : Prop :=
      ∃ q1, amGet u.queues k = some q1 ∧ q1.cmds = [] ∧ q1.done = q.done ++ [(c.tag, status, detail, value)]
    (∀ index, k < 128 → cmdBad s k c = none →
      let q1 := { q with rung := index % 2 ^ 32 }
      (∀ a ∈ q1.unread, plainWaits s a 64 = false) →
      ∃ u, exec (.doorbell k index) s = .next u ∧ u.mem = s.mem ∧ u.teams = s.teams ∧ amGet u.queues k = some { q1 with
        read := index % 2 ^ 32
        cmds := c :: q1.unread.map fun a => decodeCmd ((plainRecord s a 64).getD (List.replicate 64 0#8)) }) ∧
    (∀ n x i u0, headCmd s k 1 = some c → queueCtx s k = some (n, x) → readLaunch s x.asid c.arg0.toNat = .error (some i, u0) →
      ∃ u, exec (.launch k) s = .next u ∧ answered u 1 i 0 ∧ u.grids = s.grids ∧ (q.ring = none → u.mem = s.mem)) ∧
    (∀ n x bs i s1, headCmd s k 1 = some c → queueCtx s k = some (n, x) → readLaunch s x.asid c.arg0.toNat = .ok ((bs, i), s1) →
      launchWaits s x (maskDies (num bs 4 1)) i = false → num bs 0xC0 8 = 0 →
      ∃ u g, exec (.launch k) s = .next u ∧ amGet u.grids s1.fresh = some g ∧ g.ctx = n ∧ g.queue = k ∧ g.tag = c.tag ∧
        g.teamCount = num bs 8 4 ∧ g.roles = i.roles ∧ g.dies = maskDies (num bs 4 1) ∧ g.argp = BitVec.ofNat 64 (num bs 0x18 8) ∧
        g.nextTeam = 0 ∧ g.done = false ∧ g.ljoin = none ∧ ∃ q1, amGet u.queues k = some q1 ∧ q1.cmds = [] ∧ q1.done = q.done) ∧
    (∀ a bs, headCmd s k 2 = some c → freeAsid s = some a → plainRecord s c.arg0.toNat 64 = some bs →
      ∃ u n x, exec (.contextCreate k) s = .next u ∧ amGet s.ctxs n = none ∧ amGet u.ctxs n = some x ∧ x.alive = true ∧
        x.asid = BitVec.ofNat 12 a ∧ x.ptbase = BitVec.ofNat 64 (num bs 0 8) ∧ x.trapbase = BitVec.ofNat 64 (num bs 8 8) ∧
        amGet u.roots a = some x.ptbase ∧ answered u 0 0 (BitVec.ofNat 64 n) ∧ (amGet u.queues k).map Queue.ctx = some (some n)) ∧
    (headCmd s k 3 = some c → ∃ u, exec (.contextAttach k) s = .next u ∧ answered u 0 0 0 ∧
      (amGet u.queues k).map Queue.ctx = some (some c.arg0.toNat)) ∧
    ∀ n x, headCmd s k 4 = some c → queueCtx s k = some (n, x) → (∀ t ∈ s.teams, t.2.ctx ≠ n) → (∀ i ∈ s.invs, i.2.ctx ≠ n) →
      (∀ f ∈ s.frames, f.2.ctx ≠ n) →
      ∃ u, exec (.contextDestroy k) s = .next u ∧ answered u 0 0 0 ∧ (amGet u.ctxs n).map Ctx.alive = some false ∧
        (amGet u.queues k).map Queue.ctx = some none

/-- R416, R417, R436, R439, R475: EXPORT gives the peer its window; a checkpoint of a device without resident teams or outstanding
work writes main memory to the second tier, and a restore takes the latest bytes back; DIE_RESET of a die in service starts its warm
reset: its cores stop, its teams end, and the command waits for the die; of a die that resets already, the command waits for it. (Readings
of the model's own: log entries 16, 18 and 150.) -/
def Obligations.DeviceCommands : Prop :=
  ∀ (s : State) (k : Nat) (q : Queue) (c : Cmd), amGet s.queues k = some q → q.cmds = [c] → 3 ≤ s.sys.stage →
    (∀ n x, headCmd s k 8 = some c → queueCtx s k = some (n, x) →
      ∃ u, exec (.exportWindow k) s = .next u ∧
        (amGet u.sys.peers c.arg0.toNat).bind Peer.entry = some (n, c.arg1 >>> 16 <<< 16, 2 ^ (c.arg1.toNat % 64))) ∧
    (headCmd s k 5 = some c → s.sys.admitting = true → (∀ t ∈ s.teams, t.2.resident = false) →
      ∃ u, exec (.checkpoint k) s = .next u ∧ u.sys.admitting = false ∧ u.mem = s.mem) ∧
    (headCmd s k 5 = some c → s.sys.admitting = false → (∀ t ∈ s.teams, t.2.resident = false) → workEnded s = true →
      ∃ u q1, exec (.checkpoint k) s = .next u ∧
        (q.ring = none → u.msc = [] ∧ (∀ sec, u.l2Sec sec = none) ∧
          u.mem = memWrite (copyOut s.mem c.arg0.toNat) (memKey 8 (c.arg0.toNat + 2 ^ 40)) (blockBytes s.fresh)) ∧
        amGet u.sys.checkpoints s.fresh = some (deviceBlock s) ∧ u.sys.admitting = c.arg1.getLsbD 0 ∧
        amGet u.queues k = some q1 ∧ q1.done = q.done ++ [(c.tag, 0, 0, 0)]) ∧
    (headCmd s k 6 = some c → s.sys.admitting = false → (∀ t ∈ s.teams, t.2.kind ≠ .merge) → workEnded s = true →
      ∃ u, exec (.restore k) s = .next u ∧ (q.ring = none → u.mem = copyIn s.mem c.arg0.toNat ∧ u.l2 = [] ∧ u.msc = []) ∧
        u.tlb = [] ∧ u.sys.admitting = true ∧
        ∀ b, blockAt s (c.arg0.toNat + 2 ^ 40) = some b → u.frames = b.frames ∧ u.ctxs = b.ctxs) ∧
    (headCmd s k 7 = some c → s.dieUp c.arg0.toNat = true →
      let d := c.arg0.toNat
      ∃ u, exec (.dieReset k) s = .next u ∧ (u.die d).st = .resetting ∧ (u.die d).waiters = (s.die d).waiters ++ [(k, c.tag)] ∧
        (u.die d).pool = [] ∧ (∀ n, n / 32 = d → n % 32 < (s.die d).built.length → (u.core n).running = false) ∧
        ∀ i m, s.team? i = some m → m.resident = true → m.core / 32 = d → m.work = none →
          u.team? i = none ∨ ∃ m1, u.team? i = some m1 ∧ m1.phase = .ended) ∧
    (headCmd s k 7 = some c → (s.die c.arg0.toNat).st = .resetting →
      ∃ u, exec (.dieReset k) s = .next u ∧ (u.die c.arg0.toNat).waiters = (s.die c.arg0.toNat).waiters ++ [(k, c.tag)] ∧ u.mem = s.mem)

/-- R426, R449, R450, R452, R465, R471: a core reset stops the cores of a die in service; a failed router or a fabric error takes
the die out of service, and the end of its reset admits it again with every slice horizon at DATUM, or leaves it lost; module reset
returns to stage A with the host's memory as it was; training leads to stage C, which admits each die in its turn. (Readings of the
model's own: log entries 98, 102 and 150; that memory below home 9 reads 0 after module reset is log entry 1, and that a core reset leaves
the cores stopped with empty caches log entry 89.) -/
def Obligations.ResetEvents : Prop :=
  (∀ (s : State) (die : Nat), die < 8 → s.dieUp die = true →
    (∀ c, (∀ t ∈ s.teams, t.2.resident = false) → coresStopped s die = false → c / 32 = die → c % 32 < (s.die die).built.length →
      ∃ u, exec (.coreReset die) s = .next u ∧ (u.core c).running = false ∧ (u.core c).l1 = [] ∧ (u.core c).icache = [] ∧ u.mem = s.mem) ∧
    (∃ u, exec (.fabricError die) s = .next u ∧ (u.die die).st = .resetting) ∧
    ∀ r, r < 48 → ∃ u, exec (.routerFailure die r) s = .next u ∧ (u.die die).st = .resetting) ∧
  (∀ (s : State) (die : Nat), die < 8 → (s.die die).st = .resetting → (s.die die).waiters = [] →
    (∃ u, exec (.dieReadmission die true) s = .next u ∧ u.dieUp die = true ∧ u.mem = s.mem ∧
      ∀ k, k < 16 → ((u.die die).slice k).h = stampNext s.datum48 ((s.die die).slice k).h ∧
        ((u.die die).slice k).u = stampNext s.datum48 ((s.die die).slice k).u) ∧
    ∃ u, exec (.dieReadmission die false) s = .next u ∧ (u.die die).st = .lost ∧ u.mem = s.mem) ∧
  (∀ (s : State), ∃ u, exec .moduleReset s = .next u ∧ u.sys.stage = 0 ∧ u.teams = [] ∧ u.dies = [] ∧ u.time = ⟨0, 0, 0⟩ ∧
    u.sys.rollback = s.sys.rollback ∧
    (∀ a, 9 * 2 ^ 60 ≤ a → memGet u.mem a = memGet s.mem a) ∧ ∀ a, a < 9 * 2 ^ 60 → memGet u.mem a = 0) ∧
  (∀ (s : State), s.sys.stage = 1 → s.sys.fail = false →
    (∃ u, exec (.trainingComplete true) s = .next u ∧ u.sys.stage = 2 ∧ u.mem = s.mem) ∧
    ∃ u, exec (.trainingComplete false) s = .next u ∧ u.sys.stage = 1 ∧ u.sys.fail = true ∧ u.sys.failcode = 4) ∧
  ∀ (s : State) (die : Nat) (ok : Bool), s.sys.stage = 2 → s.sys.fail = false → die = s.sys.nextDie → die < 8 →
    ∃ u, exec (.dieAdmission die ok) s = .next u ∧ u.sys.nextDie = die + 1 ∧ (ok = true → u.dieUp die = true) ∧
      (ok = false → u.dieUp die = s.dieUp die) ∧
      (die = 7 → if (List.range 8).any u.dieUp then u.sys.stage = 3 else u.sys.fail = true ∧ u.sys.failcode = 3)

/-- R439, R453 to R458, R462, R464, R465: the mailbox's commands answer with status 0 and their effect where their stage and their
argument allow it; SPDM requests are answered, with version 1.3, SHA3-512 and ML-DSA-87 alone, and the measurements, of which the
firmware's is zeros before stage B; records leave an error log from its oldest end; the core clock steps by 50 MHz within
its limits; a thermal trip holds every group until the release; a host's request to a target that its function may touch is
performed, and function 0 reads STARTSTAT at offset 0 of BAR0. (Readings of the model's own: log entries 13, 15, 19, 100 and 101.) -/
def Obligations.Services : Prop :=
  ∀ (s : State),
    let mail (u : State) (cmd status : Nat) : Prop := u.sys.mailbox.1 = cmd ∧ u.sys.mailbox.2.1 = status
    let answers (i : Instr) (xs : List SpdmPart) : Prop := exec i s = .next (s.setSys { s.sys with spdm := xs })
    (∀ addr len, s.sys.stage = 0 →
      let image := memRead s.mem (memKey 9 (addr.toNat % 2 ^ 60)) len
      ∃ u, exec (.loadFirmware addr len) s = .next u ∧ u.mem = s.mem ∧
        (firmwareFault s image = none → mail u 0x01 0 ∧ u.sys.stage = 1 ∧ u.sys.fail = false) ∧
        ∀ n, firmwareFault s image = some n → u.sys.stage = 0 ∧ u.sys.fail = true ∧ u.sys.failcode = n) ∧
    (∀ n c, 3 ≤ s.sys.stage → amGet s.ctxs n = some c → c.alive = true →
      (∃ u, exec (.setPriv n) s = .next u ∧ mail u 0x10 0 ∧ amGet u.ctxs n = some { c with priv := true }) ∧
      ∃ u, exec (.clearPriv n) s = .next u ∧ mail u 0x11 0 ∧ amGet u.ctxs n = some { c with priv := false }) ∧
    (∃ u, exec .readSensors s = .next u ∧ mail u 0x20 0 ∧ u.sys.mailbox.2.2 = (s.sys.sensors.flatMap (toBytes 4)).take 248 ∧
      u.mem = s.mem ∧ u.teams = s.teams) ∧
    (∀ watts, 3 ≤ s.sys.stage → 1800 ≤ watts → watts ≤ 3600 →
      ∃ u, exec (.setPowerLimit watts) s = .next u ∧ mail u 0x21 0 ∧ u.sys.powerLimit = watts) ∧
    (∀ target master rights, 1 ≤ s.sys.stage → target ≤ 131 → master ≤ 0x110F → rights.toNat < 8 →
      ∃ u, exec (.setAccess target master rights) s = .next u ∧ mail u 0x30 0 ∧
        accessRights u target master = rights.toNat ∧
        ∀ (t m : Nat), m < 65536 → (t, m) ≠ (target, master) → accessRights u t m = accessRights s t m) ∧
    ((∃ x, answers .getVersion [.version 1 3, x]) ∧ (∃ x, answers .getCapabilities [x]) ∧
      (∃ x, answers .negotiateAlgorithms [.offers .sha3_512, .offers .mlDsa87, x]) ∧
      (∃ c, answers .getCertificate [.data c] ∧ answers .getDigests [.data (sha3 c)]) ∧
      (∀ nonce, ∃ sig, answers (.challenge nonce) [.data nonce, .data sig]) ∧
      ∃ a fw c, answers .getMeasurements [.data a, .data fw, .data c, .data (toBytes 4 s.sys.rollback)] ∧
        (s.sys.stage = 0 → fw = List.replicate 64 0) ∧
        ∀ v image, s.sys.stage ≠ 0 → s.sys.firmware = some (v, image) → fw = sha3 image) ∧
    (∀ log n g, log < 10 → amGet s.sys.logs log = some g →
      (∃ u g1, exec (.pop log n) s = .next u ∧ amGet u.sys.logs log = some g1 ∧ g1.recs = g.recs.drop n ∧
        g1.head = (g.head + min n g.recs.length) % 64) ∧
      ∃ u, exec (.ovfClear log) s = .next u ∧ amGet u.sys.logs log = some { g with ovf := false, discarded := 0 }) ∧
    (950 ≤ s.sys.mhz → s.sys.mhz ≤ 1900 →
      (∃ u, exec (.throttle true) s = .next u ∧ u.sys.mhz = (if s.sys.mhz ≤ 1850 then s.sys.mhz + 50 else s.sys.mhz)) ∧
      ∃ u, exec (.throttle false) s = .next u ∧ u.sys.mhz = (if 1000 ≤ s.sys.mhz then s.sys.mhz - 50 else s.sys.mhz)) ∧
    (s.sys.tripped = false → ∃ u, exec .thermalTrip s = .next u ∧ u.sys.tripped = true ∧ ∀ g, canIssue u g = false) ∧
    (∃ u, exec .thermalRelease s = .next u ∧ u.sys.tripped = false ∧
      ∀ c, c / 32 < 8 → s.dieUp (c / 32) = true → c % 32 < (s.die (c / 32)).built.length → (u.core c).running = true) ∧
    (bit (accessRights s 130 0x1100) 0 = true → ∃ u, exec (.pciExpressRequest 0 (.barRead 0 8)) s = .next u ∧
      u.sys.pcie = s.sys.pcie ++ [(true, toBytes 8 (startstat s).toNat)]) ∧
    ∀ fn a, fn < 16 → a < 2 ^ 64 → s.sys.admitting = true → s.errs.sectors = [] →
      (∀ n, (pieces a n).any (fun p => heldUp s p.1 0) = false → pcieDenied s fn .read (pieces a n) = none →
        ∃ u, exec (.pciExpressRequest fn (.read (BitVec.ofNat 64 a) n)) s = .next u ∧ u.mem = s.mem ∧
          u.sys.pcie = s.sys.pcie ++ [(true, (List.range n).map fun i => memGet s.mem (a + i))]) ∧
      ∀ bs, (pieces a bs.length).any (fun p => heldUp s p.1 0) = false → pcieDenied s fn .write (pieces a bs.length) = none →
        ∃ u, exec (.pciExpressRequest fn (.write (BitVec.ofNat 64 a) bs)) s = .next u ∧
          u.sys.pcie.length = s.sys.pcie.length + 1 ∧
          ∀ k, memGet u.mem k = if a ≤ k ∧ k < a + bs.length then bs.getD (k - a) 0 else memGet s.mem k

/-! The machine: reset, the issue, decoding, and laws over whole families. -/

/-- R18, R187, R232, R315, R452, R453, R462, R464: after module reset the start is at stage 0 without a failure, no die is
admitted, no command is accepted, DATUM is 0, every horizon is 0, every stake and domain generation is 1 with no slot in use, the
core clock and the power limit are at their highest; memory has the form that every step keeps; and the error logs are empty, which is
the model's choice, log entry 24, since R462 gives no reset value of them. (That memory which nothing has written reads 0 is the model's
choice too, log entry 1, and no part of this.) -/
def Obligations.ResetState : Prop :=
  let s := State.reset
  s.sys.stage = 0 ∧ s.sys.fail = false ∧ s.sys.failcode = 0 ∧ s.time.datum = 0 ∧ s.sys.mhz = 1900 ∧ s.sys.powerLimit = 3600 ∧
  s.teams = [] ∧ s.grids = [] ∧ (∀ q c, headCmd s q c = none) ∧ (∀ g, canIssue s g = false) ∧
  (∀ d, s.dieUp d = false ∧ (s.die d).pool = [] ∧ ∀ k, ((s.die d).slice k).h = 0) ∧
  (∀ c k, stakeSlot s c k = ⟨1, none⟩) ∧ (∀ h, domainLive s h = false) ∧ Domain.init.gen = 1 ∧ s.sys.logs = [] ∧
  Memory.wf s.mem = true

/-- R22, R230, R416, R417, R452: whatever the state, a step that goes on keeps memory in the one form that its bytes have: addresses
strictly rising, each listed once, and none listed that reads as an unlisted one (the form is the model's own, log entry 1). No
store, engine, commit, peer, command or reset leaves two entries for one byte. -/
def Obligations.MemoryFormKept : Prop :=
  ∀ (s u : State), Memory.wf s.mem = true → step s = .next u → Memory.wf u.mem = true

/-- R24, R27, R31, R154 to R156, R327: a word issues whenever a group issues it and nothing it must wait for is outstanding, its
mode and budget allow it, no active lane is in a transaction, and some lane acts. Per lane, the acting lanes are the active lanes
whose guard holds; in the scalar unit, all active lanes where the lowest one's guard holds. -/
def Obligations.IssueConditions : Prop :=
  ∀ (i : Instr) (s : State) (c : Issue) (t : Team) (gr : Group),
    let lanes := lanesOf c.lanes
    let holds (l : Nat) : Bool := ((gr.lane? l).map fun u => u.getP (Instr.guard i).p.toNat != (Instr.guard i).neg).getD false
    let acting := if Instr.scalar i then (if holds (lanes.headD 32) then lanes else []) else lanes.filter holds
    s.cur = some c → s.team? c.g.team = some t → s.group? c.g = some gr → stalls s c.g i = false →
    (∀ l ∈ lanes, ∀ u, gr.lane? l = some u → u.tx = none) → (Instr.privileged i = true → gr.ctl.priv = true) →
    overBudget i gr.budget = false → acting ≠ [] →
    Ready i s c t gr ∧ issueOf i s c t gr = ⟨s.setCur none, s.setCur none, c.g, t, gr, lanes, acting, c.pc, c.defer⟩ ∧
    Issues i s (issueOf i s c t gr)

/-- R305, R314, R325: the issue of a word itself leaves as they were memory, the scratchpads, the other groups, the group's
s-registers and control registers, and the registers, PC, mode and flags of each of its threads that is in no transaction and not
held at the start of one. -/
def Obligations.IssueFrame : Prop :=
  ∀ (i : Instr) (s : State) (w : Wd), Issues i s w →
    w.s.mem = s.mem ∧ w.s.cur = none ∧ w.s.group? w.g = some w.gr ∧ w.s.team? w.g.team = some w.t ∧
    (∀ h, h ≠ w.g → w.s.group? h = s.group? h) ∧
    (∀ n, (w.s.team? n).map Team.scratch = (s.team? n).map Team.scratch) ∧
    (scalarMem i = false → w.active ≠ [] ∧ ∀ l ∈ w.acting, l ∈ w.active) ∧
    ∃ gr, s.group? w.g = some gr ∧ w.gr.s = gr.s ∧ w.gr.ctl = gr.ctl ∧ w.gr.budget = gr.budget ∧
      ∀ l u, gr.lane? l = some u → u.tx = none → (∀ m d, u.park ≠ some (.hold m d)) →
        ∃ v, w.gr.lane? l = some v ∧ v.tx = none ∧ v.pc = u.pc ∧ v.v = u.v ∧ v.p = u.p ∧
          v.fpctl = u.fpctl ∧ v.fpflags = u.fpflags ∧ v.exited = u.exited ∧ v.park = u.park

/-- R16, R31, R33, R394, R399: where nothing of the group is outstanding and no issuing lane is in a transaction, a privileged word
in user mode takes PRIVILEGED_OP, a word that names a register at or above its group's budget takes REG_BUDGET, and a word that the
fetch or the decoder turns down takes the trap of the first check that fails: misaligned PC or translation, then opcode, encoding
and pair. (Readings of the model's own: log entry 29.) -/
def Obligations.IssueTraps : Prop :=
  (∀ (i : Instr) (s : State) (c : Issue) (t : Team) (gr : Group) (u : State),
    let lanes := lanesOf c.lanes
    let trap (cause : Nat) : TrapInfo := ⟨cause, 0, 0, false, c.pc, 0, maskOf lanes ++ 0#32, 0, none⟩
    i.isWord = true → s.cur = some c → s.team? c.g.team = some t → s.group? c.g = some gr → stalls s c.g i = false →
    (∀ l ∈ lanes, ∀ u, gr.lane? l = some u → u.tx = none) → lanes ≠ [] →
    (Instr.privileged i = true → gr.ctl.priv = false → Takes (s.setCur none) c.g (trap 0x05) u → exec i s = .next u) ∧
    ((Instr.privileged i = true → gr.ctl.priv = true) → overBudget i gr.budget = true → Takes (s.setCur none) c.g (trap 0x06) u →
      exec i s = .next u)) ∧
  ∀ (s s0 s1 : State) (core pipe : Nat) (busy : List GRef) (d : Bool) (time : After) (g : GRef) (t : Team) (gr : Group) (pc : W64)
      (lanes : List Nat) (f : Fetched) (u : State),
    let issued := holdUntil (s1.modGroup g fun x => { x.countWaits (runnableLanes s0 g t gr) lanes with yielded := false })
      g t.core (gr.slot / 16) s0.time.clk
    let trap (cause sub : Nat) (addr : W64) : TrapInfo := ⟨cause, sub, 0, false, pc, addr, maskOf lanes ++ 0#32, 0, none⟩
    nextTurn s = (.issue core pipe busy d time, s0) → pickIssue s0 core pipe busy = some g →
    s0.team? g.team = some t → s0.group? g = some gr → canIssue s0 g = true →
    chooseIssue s0 g t gr = some (pc, lanes) → fetchWord s0 t.core gr.ctl.asid.toNat gr.ctl.priv pc = (f, s1) → lanes ≠ [] →
    (∀ l ∈ lanes, ∀ x, issued.lane? g l = some x → x.tx = none) →
    (∀ c sub a, f = .trap c sub a → c ≠ 0 → Takes issued g (trap c sub a) u → step s = .next (passed time u)) ∧
    (∀ w, f = .word w → decode w = .error .illegalOpcode → Takes issued g (trap 0x01 0 0) u → step s = .next (passed time u)) ∧
    (∀ w, f = .word w → decode w = .error .illegalEncoding → Takes issued g (trap 0x02 0 0) u → step s = .next (passed time u)) ∧
    (∀ w, f = .word w → decode w = .error .illegalPair → Takes issued g (trap 0x03 0 0) u → step s = .next (passed time u))

/-- R15, R23, R154: where the next turn is the issue of a pipe, and the group that the pipe picks has lanes that stand at a word
that decodes to an instruction, the step is that instruction's meaning in the state of the issue, followed by the time that the turn
takes; the word is the eight bytes at the PC's place in memory where the core's instruction cache does not hold their line. A turn
that names an event of the opcode table is that event. (Readings of the model's own: log entry 4.) -/
def Obligations.StepRunsDecoded : Prop :=
  (∀ (s s0 s1 : State) (core pipe : Nat) (busy : List GRef) (d : Bool) (time : After) (g : GRef) (t : Team) (gr : Group) (pc : W64)
      (lanes : List Nat) (w : W64) (i : Instr),
    nextTurn s = (.issue core pipe busy d time, s0) → pickIssue s0 core pipe busy = some g → s0.team? g.team = some t →
    s0.group? g = some gr → canIssue s0 g = true → chooseIssue s0 g t gr = some (pc, lanes) →
    fetchWord s0 t.core gr.ctl.asid.toNat gr.ctl.priv pc = (.word w, s1) →
    decode w = .ok i → stalls s0 g i = false →
    let issued := holdUntil (s1.modGroup g fun x => { x.countWaits (runnableLanes s0 g t gr) lanes with yielded := false })
      g t.core (gr.slot / 16) s0.time.clk
    step s = timed time (exec i ((countBanks (countIssued (holdPipe issued g t.core (gr.slot / 16) i) t.core i) g t gr i lanes).setCur
      (some ⟨g, maskOf lanes, pc, d⟩)))) ∧
  (∀ (s s1 : State) (core asid key e : Nat) (priv : Bool) (pc : W64), pc.toNat % 8 = 0 → key % 8 = 0 →
    xlate s core asid priv .fetch pc.toNat = (.ok key e, s1) → amGet (s1.core core).icache (lineOf key) = none →
    heldUp s1 key e = false → heldUp s1 ((sectorOf key ^^^ 1) * 64) e = false → inError s1 key = false →
    ∃ w, (fetchWord s core asid priv pc).1 = .word w ∧
      decodeBytes (memRead s1.mem key 8) = some (decode w)) ∧
  ∀ (s s0 : State) (i : Instr) (time : After), nextTurn s = (.event i time, s0) → i.isWord = false → step s = timed time (exec i s0)

/-- R23, R30, R31, R69 to R91, R293, R342, R376: every well-formed instruction's word decodes to the instruction, with every operand
at every value the encoding admits, from a word and from bytes of memory; and a word that decodes is that instruction's one word. -/
def Obligations.DecodeEncode : Prop :=
  (∀ i : Instr, i.isWord = true → WellFormed i →
    decode (encode i) = .ok i ∧ ∀ rest, decodeBytes (wordBytes (encode i) ++ rest) = some (.ok i)) ∧
  ∀ (w : W64) (i : Instr), decode w = .ok i → encode i = w ∧ WellFormed i

/-- R13, R92, R155, R156: the frame of the compute words: memory, the scratchpads, the other groups, the control registers,
counters and transactions stand; lanes that do not act keep every register; and a per-lane word writes no s-register and, of the
v-registers, only the run of its destination. -/
def Obligations.ComputeFrame : Prop :=
  ∀ (fm : AluForm) (op : AluIn → AluOut) (w : Wd),
    let u := computed fm op w
    u.mem = w.s.mem ∧ u.pend = w.s.pend ∧ u.sys = w.s.sys ∧ (∀ h, h ≠ w.g → u.group? h = w.s.group? h) ∧
    (∀ n, (u.team? n).map Team.scratch = (w.s.team? n).map Team.scratch) ∧
    ∀ gr, w.s.group? w.g = some gr → ∃ gr1, u.group? w.g = some gr1 ∧ gr1.ctl = gr.ctl ∧ gr1.cpy = gr.cpy ∧ gr1.mtx = gr.mtx ∧
      gr1.net = gr.net ∧ gr1.rem = gr.rem ∧ gr1.shape = gr.shape ∧ (fm.x = false → gr1.s = gr.s) ∧
      (∀ d w n, fm.d = .s d w n → ∀ r, r ≠ d → gr1.getS r = gr.getS r) ∧
      ∀ l t, gr.lane? l = some t → ∃ t1, gr1.lane? l = some t1 ∧ t1.tx = t.tx ∧ t1.fpctl = t.fpctl ∧ t1.exited = t.exited ∧
        t1.park = t.park ∧ t1.pc = (if w.active.contains l then w.pc + 8 else t.pc) ∧
        (w.acting.contains l = false → t1.v = t.v ∧ t1.p = t.p ∧ t1.fpflags = t.fpflags) ∧
        ((fm.x = true ∨ fm.d = .none) → t1.v = t.v) ∧
        ∀ d wd n, fm.d = .v d wd n → ∀ r, (r < d ∨ d + (wd + 31) / 32 ≤ r) → t1.getV r = t.getV r

/-- R92 to R95: at 32 and 64 bits the integer formulas are two's-complement arithmetic modulo 2^w, and signed comparison and
division are those of two's-complement numbers. -/
def Obligations.IntegerArithmetic : Prop :=
  ∀ w, w = 32 ∨ w = 64 → ∀ a b : BitVec w,
    let v (sg : Bool) (x : BitVec w) : Int := valueOf sg w x.toNat
    (∀ sg, wrap w (v sg a + v sg b) = (a + b).toNat ∧ wrap w (v sg a - v sg b) = (a - b).toNat ∧
      wrap w (v sg a * v sg b) = (a * b).toNat ∧ wrap w (-v sg a) = (-a).toNat) ∧
    (v true a < v true b ↔ a.slt b = true) ∧ (v false a < v false b ↔ a.ult b = true) ∧
    wrap w (v true a * v true b / Int.ofNat (2 ^ w)) = ((a.signExtend (2 * w) * b.signExtend (2 * w)) >>> w).toNat % 2 ^ w ∧
    (b ≠ 0 → wrap w (Int.tdiv (v true a) (v true b)) = (a.sdiv b).toNat ∧ wrap w (Int.tdiv (v false a) (v false b)) = (a / b).toNat)

/-- R435: whatever the data, decompression gives back what compression took, and a block of 256 bytes is sent as at most 257. -/
def Obligations.Compression : Prop :=
  (∀ bs : List Byte, decompress bs.length (compress bs) = some bs) ∧
  ∀ bs : List Byte, bs.length = 256 → (sendBlock bs).length ≤ 257

/-- R252, R253, R261, R263 to R265, R457: every interleave scheme maps the frame addresses of a die one to one onto its memory. An
access is refused for the first of: a home that does not exist, a home out of service, no translation, privilege, a missing right,
a missing access right; else it reaches the byte that its page's frame and scheme give, or finds its page not resident. (That a
fetch from home 10 is denied before every other check of that home is the model's choice, log entry 137.) -/
def Obligations.Translation : Prop :=
  (∀ sch f, sch < 8 → f < 2 ^ 37 → interleave sch f < 2 ^ 37 ∧ deinterleave sch (interleave sch f) = f) ∧
  ∀ (s : State) (core asid va : Nat) (priv : Bool) (n : AccessNeed),
    let home := va / 2 ^ 60
    let out := (xlate s core asid priv n va).1
    (11 ≤ home → out = .fault ⟨0x17, 0⟩) ∧ (home = 10 → n = .fetch → out = .fault ⟨0x13, 0⟩) ∧
    (home ≤ 7 → s.dieUp home = false → out = .fault ⟨0x19, 0⟩) ∧
    (home ≤ 9 → (home ≤ 7 → s.dieUp home = true) →
      (∀ c, (findLeaf s core asid home va).1 = .error c → out = .fault c) ∧
      ∀ l, (findLeaf s core asid home va).1 = .ok l →
        let key := memKey home (if home ≤ 7 then interleave (pteSch l.e) (frameAddr l va) else frameAddr l va)
        (pteP l.e = true → priv = false → out = .fault ⟨0x15, 0⟩) ∧
        ((pteP l.e = true → priv = true) →
          (∀ c, missingRight n home l.e = some c → out = .fault ⟨c, 0⟩) ∧
          (missingRight n home l.e = none →
            (pteRes l.e = true → (∀ t, targetOf key = some t → missingAccess s n t (if core = cmdCore then 0x1110 else asid) = none) →
              out = .ok key l.e) ∧
            (pteRes l.e = true → ∀ t c, targetOf key = some t →
              missingAccess s n t (if core = cmdCore then 0x1110 else asid) = some c → out = .fault ⟨c, 0x40⟩) ∧
            (pteRes l.e = false → missingAccess s n (if pteFrame l.e < 2 ^ 25 then 128 else 129)
              (if core = cmdCore then 0x1110 else asid) = none → out = .absent))))

/-- R15, R23 to R26, R30, R69 to R91: words of the spec's worked cases decode to the instructions they stand for, one or more of each
family; and the first checks of the decoder refuse an unassigned major, a reserved bit and a pair that reads a bank too often. -/
def Obligations.DecodesWords : Prop :=
  let u : Guard := ⟨false, 7⟩
  let reg (d a b c : Reg) (ty : Ty) : RegF := ⟨u, false, d, a, b, c, false, ty, .ctl, false, 0, 0⟩
  decode 0x010807FFFFFFE400 = .ok (.bra ⟨⟨false, 1⟩, 0, 0xFFFFFFFC, true⟩) ∧
  decode 0x0838000001500000 = .ok (.bpt ⟨u, 0x2A⟩) ∧
  decode 0x8102048019060003 = .ok (.pair ⟨.iadd, 4, .reg 9⟩ ⟨.shl, 6, .imm 3⟩) ∧
  decode 0x123840406000C002 = .ok (.iaddc { reg 8 8 12 0 .n32 with aux := 2 }) ∧
  decode 0x253808101821412C = .ok (.lop3 { reg 1 2 3 4 .b32 with op := 9, aux := 12 }) ∧
  decode 0x3050505828062800 = .ok (.fadd { reg 10 11 5 0 .f32 with g := ⟨true, 2⟩, bs := true, rnd := .rz }) ∧
  decode 0x59B8180000000800 = .ok (.movi ⟨u, true, 3, 1, false⟩) ∧
  decode 0x5E38200040016000 = .ok (.mfs (reg 4 0 8 0 .b64)) ∧
  decode 0x6038381028020460 = .ok (.ld ⟨u, false, 7, 2, 5, 0x40⟩ ⟨.n32, .acq, .die, .dflt, false⟩) ∧
  decode 0x68384017F8008307 = .ok (.atom ⟨u, false, 8, 2, 0xFF, 16⟩ ⟨.n64, .rlx, .thread, .cas⟩) ∧
  decode 0x6C380000200C0040 = .ok (.txbeginO { reg 0 0 4 1 .i8 with bs := true, op := 2 }) ∧
  decode 0x70384048203D4083 = .ok (.shfl { reg 8 9 4 7 .b32 with bs := true, op := 4, aux := 3 }) ∧
  decode 0x7638A01020400004 = .ok (.invokeCore { reg 20 2 4 8 .i8 with aux := 4 }) ∧
  decode 0x78BFF85040600000 = .ok (.copy ⟨u, true, 0xFF, 10, 8, 12, 0⟩) ∧
  decode 0x7AB8000010300129 = .ok (.mma ⟨u, true, 0, 0, 2, 6, 0x129⟩) ∧
  decode 0x7E38000000000000 = .ok (.eret ⟨u, false, 0, 0, 0⟩) ∧
  decode 0x7EB8280001002000 = .ok (.mfc ⟨u, true, 5, 0, 2⟩) ∧
  decode 0x7F38000000000000 = .error .illegalOpcode ∧ decode 0x0738000000000001 = .error .illegalEncoding ∧
  decode 0x81020400020C0000 = .error .illegalPair

end
end

