-- ==== Sys2Proof/Laws/State.lean ====
section
/-! SUPPORT. What each named update of the state leaves in each field. -/

namespace Sys2Proof.Machine

@[simp] theorem State.setTime_time (s : State) (x : Time) : (s.setTime x).time = x := rfl
@[simp] theorem State.setTime_agenda (s : State) (x : Time) : (s.setTime x).agenda = s.agenda := rfl
@[simp] theorem State.setTime_cur (s : State) (x : Time) : (s.setTime x).cur = s.cur := rfl
@[simp] theorem State.setTime_free (s : State) (x : Time) : (s.setTime x).free = s.free := rfl
@[simp] theorem State.setTime_fresh (s : State) (x : Time) : (s.setTime x).fresh = s.fresh := rfl
@[simp] theorem State.setTime_teams (s : State) (x : Time) : (s.setTime x).teams = s.teams := rfl
@[simp] theorem State.setTime_cores (s : State) (x : Time) : (s.setTime x).cores = s.cores := rfl
@[simp] theorem State.setTime_dies (s : State) (x : Time) : (s.setTime x).dies = s.dies := rfl
@[simp] theorem State.setTime_mem (s : State) (x : Time) : (s.setTime x).mem = s.mem := rfl
@[simp] theorem State.setTime_l2 (s : State) (x : Time) : (s.setTime x).l2 = s.l2 := rfl
@[simp] theorem State.setTime_msc (s : State) (x : Time) : (s.setTime x).msc = s.msc := rfl
@[simp] theorem State.setTime_foot (s : State) (x : Time) : (s.setTime x).foot = s.foot := rfl
@[simp] theorem State.setTime_locks (s : State) (x : Time) : (s.setTime x).locks = s.locks := rfl
@[simp] theorem State.setTime_errs (s : State) (x : Time) : (s.setTime x).errs = s.errs := rfl
@[simp] theorem State.setTime_roots (s : State) (x : Time) : (s.setTime x).roots = s.roots := rfl
@[simp] theorem State.setTime_tlb (s : State) (x : Time) : (s.setTime x).tlb = s.tlb := rfl
@[simp] theorem State.setTime_ctxs (s : State) (x : Time) : (s.setTime x).ctxs = s.ctxs := rfl
@[simp] theorem State.setTime_grids (s : State) (x : Time) : (s.setTime x).grids = s.grids := rfl
@[simp] theorem State.setTime_queues (s : State) (x : Time) : (s.setTime x).queues = s.queues := rfl
@[simp] theorem State.setTime_frames (s : State) (x : Time) : (s.setTime x).frames = s.frames := rfl
@[simp] theorem State.setTime_ops (s : State) (x : Time) : (s.setTime x).ops = s.ops := rfl
@[simp] theorem State.setTime_pend (s : State) (x : Time) : (s.setTime x).pend = s.pend := rfl
@[simp] theorem State.setTime_msgs (s : State) (x : Time) : (s.setTime x).msgs = s.msgs := rfl
@[simp] theorem State.setTime_invs (s : State) (x : Time) : (s.setTime x).invs = s.invs := rfl
@[simp] theorem State.setTime_cairns (s : State) (x : Time) : (s.setTime x).cairns = s.cairns := rfl
@[simp] theorem State.setTime_rounds (s : State) (x : Time) : (s.setTime x).rounds = s.rounds := rfl
@[simp] theorem State.setTime_mons (s : State) (x : Time) : (s.setTime x).mons = s.mons := rfl
@[simp] theorem State.setTime_sys (s : State) (x : Time) : (s.setTime x).sys = s.sys := rfl
@[simp] theorem State.setAgenda_time (s : State) (x : List Turn) : (s.setAgenda x).time = s.time := rfl
@[simp] theorem State.setAgenda_agenda (s : State) (x : List Turn) : (s.setAgenda x).agenda = x := rfl
@[simp] theorem State.setAgenda_cur (s : State) (x : List Turn) : (s.setAgenda x).cur = s.cur := rfl
@[simp] theorem State.setAgenda_free (s : State) (x : List Turn) : (s.setAgenda x).free = s.free := rfl
@[simp] theorem State.setAgenda_fresh (s : State) (x : List Turn) : (s.setAgenda x).fresh = s.fresh := rfl
@[simp] theorem State.setAgenda_teams (s : State) (x : List Turn) : (s.setAgenda x).teams = s.teams := rfl
@[simp] theorem State.setAgenda_cores (s : State) (x : List Turn) : (s.setAgenda x).cores = s.cores := rfl
@[simp] theorem State.setAgenda_dies (s : State) (x : List Turn) : (s.setAgenda x).dies = s.dies := rfl
@[simp] theorem State.setAgenda_mem (s : State) (x : List Turn) : (s.setAgenda x).mem = s.mem := rfl
@[simp] theorem State.setAgenda_l2 (s : State) (x : List Turn) : (s.setAgenda x).l2 = s.l2 := rfl
@[simp] theorem State.setAgenda_msc (s : State) (x : List Turn) : (s.setAgenda x).msc = s.msc := rfl
@[simp] theorem State.setAgenda_foot (s : State) (x : List Turn) : (s.setAgenda x).foot = s.foot := rfl
@[simp] theorem State.setAgenda_locks (s : State) (x : List Turn) : (s.setAgenda x).locks = s.locks := rfl
@[simp] theorem State.setAgenda_errs (s : State) (x : List Turn) : (s.setAgenda x).errs = s.errs := rfl
@[simp] theorem State.setAgenda_roots (s : State) (x : List Turn) : (s.setAgenda x).roots = s.roots := rfl
@[simp] theorem State.setAgenda_tlb (s : State) (x : List Turn) : (s.setAgenda x).tlb = s.tlb := rfl
@[simp] theorem State.setAgenda_ctxs (s : State) (x : List Turn) : (s.setAgenda x).ctxs = s.ctxs := rfl
@[simp] theorem State.setAgenda_grids (s : State) (x : List Turn) : (s.setAgenda x).grids = s.grids := rfl
@[simp] theorem State.setAgenda_queues (s : State) (x : List Turn) : (s.setAgenda x).queues = s.queues := rfl
@[simp] theorem State.setAgenda_frames (s : State) (x : List Turn) : (s.setAgenda x).frames = s.frames := rfl
@[simp] theorem State.setAgenda_ops (s : State) (x : List Turn) : (s.setAgenda x).ops = s.ops := rfl
@[simp] theorem State.setAgenda_pend (s : State) (x : List Turn) : (s.setAgenda x).pend = s.pend := rfl
@[simp] theorem State.setAgenda_msgs (s : State) (x : List Turn) : (s.setAgenda x).msgs = s.msgs := rfl
@[simp] theorem State.setAgenda_invs (s : State) (x : List Turn) : (s.setAgenda x).invs = s.invs := rfl
@[simp] theorem State.setAgenda_cairns (s : State) (x : List Turn) : (s.setAgenda x).cairns = s.cairns := rfl
@[simp] theorem State.setAgenda_rounds (s : State) (x : List Turn) : (s.setAgenda x).rounds = s.rounds := rfl
@[simp] theorem State.setAgenda_mons (s : State) (x : List Turn) : (s.setAgenda x).mons = s.mons := rfl
@[simp] theorem State.setAgenda_sys (s : State) (x : List Turn) : (s.setAgenda x).sys = s.sys := rfl
@[simp] theorem State.setCur_time (s : State) (x : Option Issue) : (s.setCur x).time = s.time := rfl
@[simp] theorem State.setCur_agenda (s : State) (x : Option Issue) : (s.setCur x).agenda = s.agenda := rfl
@[simp] theorem State.setCur_cur (s : State) (x : Option Issue) : (s.setCur x).cur = x := rfl
@[simp] theorem State.setCur_free (s : State) (x : Option Issue) : (s.setCur x).free = s.free := rfl
@[simp] theorem State.setCur_fresh (s : State) (x : Option Issue) : (s.setCur x).fresh = s.fresh := rfl
@[simp] theorem State.setCur_teams (s : State) (x : Option Issue) : (s.setCur x).teams = s.teams := rfl
@[simp] theorem State.setCur_cores (s : State) (x : Option Issue) : (s.setCur x).cores = s.cores := rfl
@[simp] theorem State.setCur_dies (s : State) (x : Option Issue) : (s.setCur x).dies = s.dies := rfl
@[simp] theorem State.setCur_mem (s : State) (x : Option Issue) : (s.setCur x).mem = s.mem := rfl
@[simp] theorem State.setCur_l2 (s : State) (x : Option Issue) : (s.setCur x).l2 = s.l2 := rfl
@[simp] theorem State.setCur_msc (s : State) (x : Option Issue) : (s.setCur x).msc = s.msc := rfl
@[simp] theorem State.setCur_foot (s : State) (x : Option Issue) : (s.setCur x).foot = s.foot := rfl
@[simp] theorem State.setCur_locks (s : State) (x : Option Issue) : (s.setCur x).locks = s.locks := rfl
@[simp] theorem State.setCur_errs (s : State) (x : Option Issue) : (s.setCur x).errs = s.errs := rfl
@[simp] theorem State.setCur_roots (s : State) (x : Option Issue) : (s.setCur x).roots = s.roots := rfl
@[simp] theorem State.setCur_tlb (s : State) (x : Option Issue) : (s.setCur x).tlb = s.tlb := rfl
@[simp] theorem State.setCur_ctxs (s : State) (x : Option Issue) : (s.setCur x).ctxs = s.ctxs := rfl
@[simp] theorem State.setCur_grids (s : State) (x : Option Issue) : (s.setCur x).grids = s.grids := rfl
@[simp] theorem State.setCur_queues (s : State) (x : Option Issue) : (s.setCur x).queues = s.queues := rfl
@[simp] theorem State.setCur_frames (s : State) (x : Option Issue) : (s.setCur x).frames = s.frames := rfl
@[simp] theorem State.setCur_ops (s : State) (x : Option Issue) : (s.setCur x).ops = s.ops := rfl
@[simp] theorem State.setCur_pend (s : State) (x : Option Issue) : (s.setCur x).pend = s.pend := rfl
@[simp] theorem State.setCur_msgs (s : State) (x : Option Issue) : (s.setCur x).msgs = s.msgs := rfl
@[simp] theorem State.setCur_invs (s : State) (x : Option Issue) : (s.setCur x).invs = s.invs := rfl
@[simp] theorem State.setCur_cairns (s : State) (x : Option Issue) : (s.setCur x).cairns = s.cairns := rfl
@[simp] theorem State.setCur_rounds (s : State) (x : Option Issue) : (s.setCur x).rounds = s.rounds := rfl
@[simp] theorem State.setCur_mons (s : State) (x : Option Issue) : (s.setCur x).mons = s.mons := rfl
@[simp] theorem State.setCur_sys (s : State) (x : Option Issue) : (s.setCur x).sys = s.sys := rfl
@[simp] theorem State.setFree_time (s : State) (x : Nat) : (s.setFree x).time = s.time := rfl
@[simp] theorem State.setFree_agenda (s : State) (x : Nat) : (s.setFree x).agenda = s.agenda := rfl
@[simp] theorem State.setFree_cur (s : State) (x : Nat) : (s.setFree x).cur = s.cur := rfl
@[simp] theorem State.setFree_free (s : State) (x : Nat) : (s.setFree x).free = x := rfl
@[simp] theorem State.setFree_fresh (s : State) (x : Nat) : (s.setFree x).fresh = s.fresh := rfl
@[simp] theorem State.setFree_teams (s : State) (x : Nat) : (s.setFree x).teams = s.teams := rfl
@[simp] theorem State.setFree_cores (s : State) (x : Nat) : (s.setFree x).cores = s.cores := rfl
@[simp] theorem State.setFree_dies (s : State) (x : Nat) : (s.setFree x).dies = s.dies := rfl
@[simp] theorem State.setFree_mem (s : State) (x : Nat) : (s.setFree x).mem = s.mem := rfl
@[simp] theorem State.setFree_l2 (s : State) (x : Nat) : (s.setFree x).l2 = s.l2 := rfl
@[simp] theorem State.setFree_msc (s : State) (x : Nat) : (s.setFree x).msc = s.msc := rfl
@[simp] theorem State.setFree_foot (s : State) (x : Nat) : (s.setFree x).foot = s.foot := rfl
@[simp] theorem State.setFree_locks (s : State) (x : Nat) : (s.setFree x).locks = s.locks := rfl
@[simp] theorem State.setFree_errs (s : State) (x : Nat) : (s.setFree x).errs = s.errs := rfl
@[simp] theorem State.setFree_roots (s : State) (x : Nat) : (s.setFree x).roots = s.roots := rfl
@[simp] theorem State.setFree_tlb (s : State) (x : Nat) : (s.setFree x).tlb = s.tlb := rfl
@[simp] theorem State.setFree_ctxs (s : State) (x : Nat) : (s.setFree x).ctxs = s.ctxs := rfl
@[simp] theorem State.setFree_grids (s : State) (x : Nat) : (s.setFree x).grids = s.grids := rfl
@[simp] theorem State.setFree_queues (s : State) (x : Nat) : (s.setFree x).queues = s.queues := rfl
@[simp] theorem State.setFree_frames (s : State) (x : Nat) : (s.setFree x).frames = s.frames := rfl
@[simp] theorem State.setFree_ops (s : State) (x : Nat) : (s.setFree x).ops = s.ops := rfl
@[simp] theorem State.setFree_pend (s : State) (x : Nat) : (s.setFree x).pend = s.pend := rfl
@[simp] theorem State.setFree_msgs (s : State) (x : Nat) : (s.setFree x).msgs = s.msgs := rfl
@[simp] theorem State.setFree_invs (s : State) (x : Nat) : (s.setFree x).invs = s.invs := rfl
@[simp] theorem State.setFree_cairns (s : State) (x : Nat) : (s.setFree x).cairns = s.cairns := rfl
@[simp] theorem State.setFree_rounds (s : State) (x : Nat) : (s.setFree x).rounds = s.rounds := rfl
@[simp] theorem State.setFree_mons (s : State) (x : Nat) : (s.setFree x).mons = s.mons := rfl
@[simp] theorem State.setFree_sys (s : State) (x : Nat) : (s.setFree x).sys = s.sys := rfl
@[simp] theorem State.setFresh_time (s : State) (x : Nat) : (s.setFresh x).time = s.time := rfl
@[simp] theorem State.setFresh_agenda (s : State) (x : Nat) : (s.setFresh x).agenda = s.agenda := rfl
@[simp] theorem State.setFresh_cur (s : State) (x : Nat) : (s.setFresh x).cur = s.cur := rfl
@[simp] theorem State.setFresh_free (s : State) (x : Nat) : (s.setFresh x).free = s.free := rfl
@[simp] theorem State.setFresh_fresh (s : State) (x : Nat) : (s.setFresh x).fresh = x := rfl
@[simp] theorem State.setFresh_teams (s : State) (x : Nat) : (s.setFresh x).teams = s.teams := rfl
@[simp] theorem State.setFresh_cores (s : State) (x : Nat) : (s.setFresh x).cores = s.cores := rfl
@[simp] theorem State.setFresh_dies (s : State) (x : Nat) : (s.setFresh x).dies = s.dies := rfl
@[simp] theorem State.setFresh_mem (s : State) (x : Nat) : (s.setFresh x).mem = s.mem := rfl
@[simp] theorem State.setFresh_l2 (s : State) (x : Nat) : (s.setFresh x).l2 = s.l2 := rfl
@[simp] theorem State.setFresh_msc (s : State) (x : Nat) : (s.setFresh x).msc = s.msc := rfl
@[simp] theorem State.setFresh_foot (s : State) (x : Nat) : (s.setFresh x).foot = s.foot := rfl
@[simp] theorem State.setFresh_locks (s : State) (x : Nat) : (s.setFresh x).locks = s.locks := rfl
@[simp] theorem State.setFresh_errs (s : State) (x : Nat) : (s.setFresh x).errs = s.errs := rfl
@[simp] theorem State.setFresh_roots (s : State) (x : Nat) : (s.setFresh x).roots = s.roots := rfl
@[simp] theorem State.setFresh_tlb (s : State) (x : Nat) : (s.setFresh x).tlb = s.tlb := rfl
@[simp] theorem State.setFresh_ctxs (s : State) (x : Nat) : (s.setFresh x).ctxs = s.ctxs := rfl
@[simp] theorem State.setFresh_grids (s : State) (x : Nat) : (s.setFresh x).grids = s.grids := rfl
@[simp] theorem State.setFresh_queues (s : State) (x : Nat) : (s.setFresh x).queues = s.queues := rfl
@[simp] theorem State.setFresh_frames (s : State) (x : Nat) : (s.setFresh x).frames = s.frames := rfl
@[simp] theorem State.setFresh_ops (s : State) (x : Nat) : (s.setFresh x).ops = s.ops := rfl
@[simp] theorem State.setFresh_pend (s : State) (x : Nat) : (s.setFresh x).pend = s.pend := rfl
@[simp] theorem State.setFresh_msgs (s : State) (x : Nat) : (s.setFresh x).msgs = s.msgs := rfl
@[simp] theorem State.setFresh_invs (s : State) (x : Nat) : (s.setFresh x).invs = s.invs := rfl
@[simp] theorem State.setFresh_cairns (s : State) (x : Nat) : (s.setFresh x).cairns = s.cairns := rfl
@[simp] theorem State.setFresh_rounds (s : State) (x : Nat) : (s.setFresh x).rounds = s.rounds := rfl
@[simp] theorem State.setFresh_mons (s : State) (x : Nat) : (s.setFresh x).mons = s.mons := rfl
@[simp] theorem State.setFresh_sys (s : State) (x : Nat) : (s.setFresh x).sys = s.sys := rfl
@[simp] theorem State.setTeams_time (s : State) (x : AMap Team) : (s.setTeams x).time = s.time := rfl
@[simp] theorem State.setTeams_agenda (s : State) (x : AMap Team) : (s.setTeams x).agenda = s.agenda := rfl
@[simp] theorem State.setTeams_cur (s : State) (x : AMap Team) : (s.setTeams x).cur = s.cur := rfl
@[simp] theorem State.setTeams_free (s : State) (x : AMap Team) : (s.setTeams x).free = s.free := rfl
@[simp] theorem State.setTeams_fresh (s : State) (x : AMap Team) : (s.setTeams x).fresh = s.fresh := rfl
@[simp] theorem State.setTeams_teams (s : State) (x : AMap Team) : (s.setTeams x).teams = x := rfl
@[simp] theorem State.setTeams_cores (s : State) (x : AMap Team) : (s.setTeams x).cores = s.cores := rfl
@[simp] theorem State.setTeams_dies (s : State) (x : AMap Team) : (s.setTeams x).dies = s.dies := rfl
@[simp] theorem State.setTeams_mem (s : State) (x : AMap Team) : (s.setTeams x).mem = s.mem := rfl
@[simp] theorem State.setTeams_l2 (s : State) (x : AMap Team) : (s.setTeams x).l2 = s.l2 := rfl
@[simp] theorem State.setTeams_msc (s : State) (x : AMap Team) : (s.setTeams x).msc = s.msc := rfl
@[simp] theorem State.setTeams_foot (s : State) (x : AMap Team) : (s.setTeams x).foot = s.foot := rfl
@[simp] theorem State.setTeams_locks (s : State) (x : AMap Team) : (s.setTeams x).locks = s.locks := rfl
@[simp] theorem State.setTeams_errs (s : State) (x : AMap Team) : (s.setTeams x).errs = s.errs := rfl
@[simp] theorem State.setTeams_roots (s : State) (x : AMap Team) : (s.setTeams x).roots = s.roots := rfl
@[simp] theorem State.setTeams_tlb (s : State) (x : AMap Team) : (s.setTeams x).tlb = s.tlb := rfl
@[simp] theorem State.setTeams_ctxs (s : State) (x : AMap Team) : (s.setTeams x).ctxs = s.ctxs := rfl
@[simp] theorem State.setTeams_grids (s : State) (x : AMap Team) : (s.setTeams x).grids = s.grids := rfl
@[simp] theorem State.setTeams_queues (s : State) (x : AMap Team) : (s.setTeams x).queues = s.queues := rfl
@[simp] theorem State.setTeams_frames (s : State) (x : AMap Team) : (s.setTeams x).frames = s.frames := rfl
@[simp] theorem State.setTeams_ops (s : State) (x : AMap Team) : (s.setTeams x).ops = s.ops := rfl
@[simp] theorem State.setTeams_pend (s : State) (x : AMap Team) : (s.setTeams x).pend = s.pend := rfl
@[simp] theorem State.setTeams_msgs (s : State) (x : AMap Team) : (s.setTeams x).msgs = s.msgs := rfl
@[simp] theorem State.setTeams_invs (s : State) (x : AMap Team) : (s.setTeams x).invs = s.invs := rfl
@[simp] theorem State.setTeams_cairns (s : State) (x : AMap Team) : (s.setTeams x).cairns = s.cairns := rfl
@[simp] theorem State.setTeams_rounds (s : State) (x : AMap Team) : (s.setTeams x).rounds = s.rounds := rfl
@[simp] theorem State.setTeams_mons (s : State) (x : AMap Team) : (s.setTeams x).mons = s.mons := rfl
@[simp] theorem State.setTeams_sys (s : State) (x : AMap Team) : (s.setTeams x).sys = s.sys := rfl
@[simp] theorem State.setCores_time (s : State) (x : AMap Core) : (s.setCores x).time = s.time := rfl
@[simp] theorem State.setCores_agenda (s : State) (x : AMap Core) : (s.setCores x).agenda = s.agenda := rfl
@[simp] theorem State.setCores_cur (s : State) (x : AMap Core) : (s.setCores x).cur = s.cur := rfl
@[simp] theorem State.setCores_free (s : State) (x : AMap Core) : (s.setCores x).free = s.free := rfl
@[simp] theorem State.setCores_fresh (s : State) (x : AMap Core) : (s.setCores x).fresh = s.fresh := rfl
@[simp] theorem State.setCores_teams (s : State) (x : AMap Core) : (s.setCores x).teams = s.teams := rfl
@[simp] theorem State.setCores_cores (s : State) (x : AMap Core) : (s.setCores x).cores = x := rfl
@[simp] theorem State.setCores_dies (s : State) (x : AMap Core) : (s.setCores x).dies = s.dies := rfl
@[simp] theorem State.setCores_mem (s : State) (x : AMap Core) : (s.setCores x).mem = s.mem := rfl
@[simp] theorem State.setCores_l2 (s : State) (x : AMap Core) : (s.setCores x).l2 = s.l2 := rfl
@[simp] theorem State.setCores_msc (s : State) (x : AMap Core) : (s.setCores x).msc = s.msc := rfl
@[simp] theorem State.setCores_foot (s : State) (x : AMap Core) : (s.setCores x).foot = s.foot := rfl
@[simp] theorem State.setCores_locks (s : State) (x : AMap Core) : (s.setCores x).locks = s.locks := rfl
@[simp] theorem State.setCores_errs (s : State) (x : AMap Core) : (s.setCores x).errs = s.errs := rfl
@[simp] theorem State.setCores_roots (s : State) (x : AMap Core) : (s.setCores x).roots = s.roots := rfl
@[simp] theorem State.setCores_tlb (s : State) (x : AMap Core) : (s.setCores x).tlb = s.tlb := rfl
@[simp] theorem State.setCores_ctxs (s : State) (x : AMap Core) : (s.setCores x).ctxs = s.ctxs := rfl
@[simp] theorem State.setCores_grids (s : State) (x : AMap Core) : (s.setCores x).grids = s.grids := rfl
@[simp] theorem State.setCores_queues (s : State) (x : AMap Core) : (s.setCores x).queues = s.queues := rfl
@[simp] theorem State.setCores_frames (s : State) (x : AMap Core) : (s.setCores x).frames = s.frames := rfl
@[simp] theorem State.setCores_ops (s : State) (x : AMap Core) : (s.setCores x).ops = s.ops := rfl
@[simp] theorem State.setCores_pend (s : State) (x : AMap Core) : (s.setCores x).pend = s.pend := rfl
@[simp] theorem State.setCores_msgs (s : State) (x : AMap Core) : (s.setCores x).msgs = s.msgs := rfl
@[simp] theorem State.setCores_invs (s : State) (x : AMap Core) : (s.setCores x).invs = s.invs := rfl
@[simp] theorem State.setCores_cairns (s : State) (x : AMap Core) : (s.setCores x).cairns = s.cairns := rfl
@[simp] theorem State.setCores_rounds (s : State) (x : AMap Core) : (s.setCores x).rounds = s.rounds := rfl
@[simp] theorem State.setCores_mons (s : State) (x : AMap Core) : (s.setCores x).mons = s.mons := rfl
@[simp] theorem State.setCores_sys (s : State) (x : AMap Core) : (s.setCores x).sys = s.sys := rfl
@[simp] theorem State.setDies_time (s : State) (x : AMap Die) : (s.setDies x).time = s.time := rfl
@[simp] theorem State.setDies_agenda (s : State) (x : AMap Die) : (s.setDies x).agenda = s.agenda := rfl
@[simp] theorem State.setDies_cur (s : State) (x : AMap Die) : (s.setDies x).cur = s.cur := rfl
@[simp] theorem State.setDies_free (s : State) (x : AMap Die) : (s.setDies x).free = s.free := rfl
@[simp] theorem State.setDies_fresh (s : State) (x : AMap Die) : (s.setDies x).fresh = s.fresh := rfl
@[simp] theorem State.setDies_teams (s : State) (x : AMap Die) : (s.setDies x).teams = s.teams := rfl
@[simp] theorem State.setDies_cores (s : State) (x : AMap Die) : (s.setDies x).cores = s.cores := rfl
@[simp] theorem State.setDies_dies (s : State) (x : AMap Die) : (s.setDies x).dies = x := rfl
@[simp] theorem State.setDies_mem (s : State) (x : AMap Die) : (s.setDies x).mem = s.mem := rfl
@[simp] theorem State.setDies_l2 (s : State) (x : AMap Die) : (s.setDies x).l2 = s.l2 := rfl
@[simp] theorem State.setDies_msc (s : State) (x : AMap Die) : (s.setDies x).msc = s.msc := rfl
@[simp] theorem State.setDies_foot (s : State) (x : AMap Die) : (s.setDies x).foot = s.foot := rfl
@[simp] theorem State.setDies_locks (s : State) (x : AMap Die) : (s.setDies x).locks = s.locks := rfl
@[simp] theorem State.setDies_errs (s : State) (x : AMap Die) : (s.setDies x).errs = s.errs := rfl
@[simp] theorem State.setDies_roots (s : State) (x : AMap Die) : (s.setDies x).roots = s.roots := rfl
@[simp] theorem State.setDies_tlb (s : State) (x : AMap Die) : (s.setDies x).tlb = s.tlb := rfl
@[simp] theorem State.setDies_ctxs (s : State) (x : AMap Die) : (s.setDies x).ctxs = s.ctxs := rfl
@[simp] theorem State.setDies_grids (s : State) (x : AMap Die) : (s.setDies x).grids = s.grids := rfl
@[simp] theorem State.setDies_queues (s : State) (x : AMap Die) : (s.setDies x).queues = s.queues := rfl
@[simp] theorem State.setDies_frames (s : State) (x : AMap Die) : (s.setDies x).frames = s.frames := rfl
@[simp] theorem State.setDies_ops (s : State) (x : AMap Die) : (s.setDies x).ops = s.ops := rfl
@[simp] theorem State.setDies_pend (s : State) (x : AMap Die) : (s.setDies x).pend = s.pend := rfl
@[simp] theorem State.setDies_msgs (s : State) (x : AMap Die) : (s.setDies x).msgs = s.msgs := rfl
@[simp] theorem State.setDies_invs (s : State) (x : AMap Die) : (s.setDies x).invs = s.invs := rfl
@[simp] theorem State.setDies_cairns (s : State) (x : AMap Die) : (s.setDies x).cairns = s.cairns := rfl
@[simp] theorem State.setDies_rounds (s : State) (x : AMap Die) : (s.setDies x).rounds = s.rounds := rfl
@[simp] theorem State.setDies_mons (s : State) (x : AMap Die) : (s.setDies x).mons = s.mons := rfl
@[simp] theorem State.setDies_sys (s : State) (x : AMap Die) : (s.setDies x).sys = s.sys := rfl
@[simp] theorem State.setMem_time (s : State) (x : Mem) : (s.setMem x).time = s.time := rfl
@[simp] theorem State.setMem_agenda (s : State) (x : Mem) : (s.setMem x).agenda = s.agenda := rfl
@[simp] theorem State.setMem_cur (s : State) (x : Mem) : (s.setMem x).cur = s.cur := rfl
@[simp] theorem State.setMem_free (s : State) (x : Mem) : (s.setMem x).free = s.free := rfl
@[simp] theorem State.setMem_fresh (s : State) (x : Mem) : (s.setMem x).fresh = s.fresh := rfl
@[simp] theorem State.setMem_teams (s : State) (x : Mem) : (s.setMem x).teams = s.teams := rfl
@[simp] theorem State.setMem_cores (s : State) (x : Mem) : (s.setMem x).cores = s.cores := rfl
@[simp] theorem State.setMem_dies (s : State) (x : Mem) : (s.setMem x).dies = s.dies := rfl
@[simp] theorem State.setMem_mem (s : State) (x : Mem) : (s.setMem x).mem = x := rfl
@[simp] theorem State.setMem_l2 (s : State) (x : Mem) : (s.setMem x).l2 = s.l2 := rfl
@[simp] theorem State.setMem_msc (s : State) (x : Mem) : (s.setMem x).msc = s.msc := rfl
@[simp] theorem State.setMem_foot (s : State) (x : Mem) : (s.setMem x).foot = s.foot := rfl
@[simp] theorem State.setMem_locks (s : State) (x : Mem) : (s.setMem x).locks = s.locks := rfl
@[simp] theorem State.setMem_errs (s : State) (x : Mem) : (s.setMem x).errs = s.errs := rfl
@[simp] theorem State.setMem_roots (s : State) (x : Mem) : (s.setMem x).roots = s.roots := rfl
@[simp] theorem State.setMem_tlb (s : State) (x : Mem) : (s.setMem x).tlb = s.tlb := rfl
@[simp] theorem State.setMem_ctxs (s : State) (x : Mem) : (s.setMem x).ctxs = s.ctxs := rfl
@[simp] theorem State.setMem_grids (s : State) (x : Mem) : (s.setMem x).grids = s.grids := rfl
@[simp] theorem State.setMem_queues (s : State) (x : Mem) : (s.setMem x).queues = s.queues := rfl
@[simp] theorem State.setMem_frames (s : State) (x : Mem) : (s.setMem x).frames = s.frames := rfl
@[simp] theorem State.setMem_ops (s : State) (x : Mem) : (s.setMem x).ops = s.ops := rfl
@[simp] theorem State.setMem_pend (s : State) (x : Mem) : (s.setMem x).pend = s.pend := rfl
@[simp] theorem State.setMem_msgs (s : State) (x : Mem) : (s.setMem x).msgs = s.msgs := rfl
@[simp] theorem State.setMem_invs (s : State) (x : Mem) : (s.setMem x).invs = s.invs := rfl
@[simp] theorem State.setMem_cairns (s : State) (x : Mem) : (s.setMem x).cairns = s.cairns := rfl
@[simp] theorem State.setMem_rounds (s : State) (x : Mem) : (s.setMem x).rounds = s.rounds := rfl
@[simp] theorem State.setMem_mons (s : State) (x : Mem) : (s.setMem x).mons = s.mons := rfl
@[simp] theorem State.setMem_sys (s : State) (x : Mem) : (s.setMem x).sys = s.sys := rfl
@[simp] theorem State.setL2_time (s : State) (x : AMap L2Line) : (s.setL2 x).time = s.time := rfl
@[simp] theorem State.setL2_agenda (s : State) (x : AMap L2Line) : (s.setL2 x).agenda = s.agenda := rfl
@[simp] theorem State.setL2_cur (s : State) (x : AMap L2Line) : (s.setL2 x).cur = s.cur := rfl
@[simp] theorem State.setL2_free (s : State) (x : AMap L2Line) : (s.setL2 x).free = s.free := rfl
@[simp] theorem State.setL2_fresh (s : State) (x : AMap L2Line) : (s.setL2 x).fresh = s.fresh := rfl
@[simp] theorem State.setL2_teams (s : State) (x : AMap L2Line) : (s.setL2 x).teams = s.teams := rfl
@[simp] theorem State.setL2_cores (s : State) (x : AMap L2Line) : (s.setL2 x).cores = s.cores := rfl
@[simp] theorem State.setL2_dies (s : State) (x : AMap L2Line) : (s.setL2 x).dies = s.dies := rfl
@[simp] theorem State.setL2_mem (s : State) (x : AMap L2Line) : (s.setL2 x).mem = s.mem := rfl
@[simp] theorem State.setL2_l2 (s : State) (x : AMap L2Line) : (s.setL2 x).l2 = x := rfl
@[simp] theorem State.setL2_msc (s : State) (x : AMap L2Line) : (s.setL2 x).msc = s.msc := rfl
@[simp] theorem State.setL2_foot (s : State) (x : AMap L2Line) : (s.setL2 x).foot = s.foot := rfl
@[simp] theorem State.setL2_locks (s : State) (x : AMap L2Line) : (s.setL2 x).locks = s.locks := rfl
@[simp] theorem State.setL2_errs (s : State) (x : AMap L2Line) : (s.setL2 x).errs = s.errs := rfl
@[simp] theorem State.setL2_roots (s : State) (x : AMap L2Line) : (s.setL2 x).roots = s.roots := rfl
@[simp] theorem State.setL2_tlb (s : State) (x : AMap L2Line) : (s.setL2 x).tlb = s.tlb := rfl
@[simp] theorem State.setL2_ctxs (s : State) (x : AMap L2Line) : (s.setL2 x).ctxs = s.ctxs := rfl
@[simp] theorem State.setL2_grids (s : State) (x : AMap L2Line) : (s.setL2 x).grids = s.grids := rfl
@[simp] theorem State.setL2_queues (s : State) (x : AMap L2Line) : (s.setL2 x).queues = s.queues := rfl
@[simp] theorem State.setL2_frames (s : State) (x : AMap L2Line) : (s.setL2 x).frames = s.frames := rfl
@[simp] theorem State.setL2_ops (s : State) (x : AMap L2Line) : (s.setL2 x).ops = s.ops := rfl
@[simp] theorem State.setL2_pend (s : State) (x : AMap L2Line) : (s.setL2 x).pend = s.pend := rfl
@[simp] theorem State.setL2_msgs (s : State) (x : AMap L2Line) : (s.setL2 x).msgs = s.msgs := rfl
@[simp] theorem State.setL2_invs (s : State) (x : AMap L2Line) : (s.setL2 x).invs = s.invs := rfl
@[simp] theorem State.setL2_cairns (s : State) (x : AMap L2Line) : (s.setL2 x).cairns = s.cairns := rfl
@[simp] theorem State.setL2_rounds (s : State) (x : AMap L2Line) : (s.setL2 x).rounds = s.rounds := rfl
@[simp] theorem State.setL2_mons (s : State) (x : AMap L2Line) : (s.setL2 x).mons = s.mons := rfl
@[simp] theorem State.setL2_sys (s : State) (x : AMap L2Line) : (s.setL2 x).sys = s.sys := rfl
@[simp] theorem State.setMsc_time (s : State) (x : AMap MscLine) : (s.setMsc x).time = s.time := rfl
@[simp] theorem State.setMsc_agenda (s : State) (x : AMap MscLine) : (s.setMsc x).agenda = s.agenda := rfl
@[simp] theorem State.setMsc_cur (s : State) (x : AMap MscLine) : (s.setMsc x).cur = s.cur := rfl
@[simp] theorem State.setMsc_free (s : State) (x : AMap MscLine) : (s.setMsc x).free = s.free := rfl
@[simp] theorem State.setMsc_fresh (s : State) (x : AMap MscLine) : (s.setMsc x).fresh = s.fresh := rfl
@[simp] theorem State.setMsc_teams (s : State) (x : AMap MscLine) : (s.setMsc x).teams = s.teams := rfl
@[simp] theorem State.setMsc_cores (s : State) (x : AMap MscLine) : (s.setMsc x).cores = s.cores := rfl
@[simp] theorem State.setMsc_dies (s : State) (x : AMap MscLine) : (s.setMsc x).dies = s.dies := rfl
@[simp] theorem State.setMsc_mem (s : State) (x : AMap MscLine) : (s.setMsc x).mem = s.mem := rfl
@[simp] theorem State.setMsc_l2 (s : State) (x : AMap MscLine) : (s.setMsc x).l2 = s.l2 := rfl
@[simp] theorem State.setMsc_msc (s : State) (x : AMap MscLine) : (s.setMsc x).msc = x := rfl
@[simp] theorem State.setMsc_foot (s : State) (x : AMap MscLine) : (s.setMsc x).foot = s.foot := rfl
@[simp] theorem State.setMsc_locks (s : State) (x : AMap MscLine) : (s.setMsc x).locks = s.locks := rfl
@[simp] theorem State.setMsc_errs (s : State) (x : AMap MscLine) : (s.setMsc x).errs = s.errs := rfl
@[simp] theorem State.setMsc_roots (s : State) (x : AMap MscLine) : (s.setMsc x).roots = s.roots := rfl
@[simp] theorem State.setMsc_tlb (s : State) (x : AMap MscLine) : (s.setMsc x).tlb = s.tlb := rfl
@[simp] theorem State.setMsc_ctxs (s : State) (x : AMap MscLine) : (s.setMsc x).ctxs = s.ctxs := rfl
@[simp] theorem State.setMsc_grids (s : State) (x : AMap MscLine) : (s.setMsc x).grids = s.grids := rfl
@[simp] theorem State.setMsc_queues (s : State) (x : AMap MscLine) : (s.setMsc x).queues = s.queues := rfl
@[simp] theorem State.setMsc_frames (s : State) (x : AMap MscLine) : (s.setMsc x).frames = s.frames := rfl
@[simp] theorem State.setMsc_ops (s : State) (x : AMap MscLine) : (s.setMsc x).ops = s.ops := rfl
@[simp] theorem State.setMsc_pend (s : State) (x : AMap MscLine) : (s.setMsc x).pend = s.pend := rfl
@[simp] theorem State.setMsc_msgs (s : State) (x : AMap MscLine) : (s.setMsc x).msgs = s.msgs := rfl
@[simp] theorem State.setMsc_invs (s : State) (x : AMap MscLine) : (s.setMsc x).invs = s.invs := rfl
@[simp] theorem State.setMsc_cairns (s : State) (x : AMap MscLine) : (s.setMsc x).cairns = s.cairns := rfl
@[simp] theorem State.setMsc_rounds (s : State) (x : AMap MscLine) : (s.setMsc x).rounds = s.rounds := rfl
@[simp] theorem State.setMsc_mons (s : State) (x : AMap MscLine) : (s.setMsc x).mons = s.mons := rfl
@[simp] theorem State.setMsc_sys (s : State) (x : AMap MscLine) : (s.setMsc x).sys = s.sys := rfl
@[simp] theorem State.setFoot_time (s : State) (x : AMap (List Nat)) : (s.setFoot x).time = s.time := rfl
@[simp] theorem State.setFoot_agenda (s : State) (x : AMap (List Nat)) : (s.setFoot x).agenda = s.agenda := rfl
@[simp] theorem State.setFoot_cur (s : State) (x : AMap (List Nat)) : (s.setFoot x).cur = s.cur := rfl
@[simp] theorem State.setFoot_free (s : State) (x : AMap (List Nat)) : (s.setFoot x).free = s.free := rfl
@[simp] theorem State.setFoot_fresh (s : State) (x : AMap (List Nat)) : (s.setFoot x).fresh = s.fresh := rfl
@[simp] theorem State.setFoot_teams (s : State) (x : AMap (List Nat)) : (s.setFoot x).teams = s.teams := rfl
@[simp] theorem State.setFoot_cores (s : State) (x : AMap (List Nat)) : (s.setFoot x).cores = s.cores := rfl
@[simp] theorem State.setFoot_dies (s : State) (x : AMap (List Nat)) : (s.setFoot x).dies = s.dies := rfl
@[simp] theorem State.setFoot_mem (s : State) (x : AMap (List Nat)) : (s.setFoot x).mem = s.mem := rfl
@[simp] theorem State.setFoot_l2 (s : State) (x : AMap (List Nat)) : (s.setFoot x).l2 = s.l2 := rfl
@[simp] theorem State.setFoot_msc (s : State) (x : AMap (List Nat)) : (s.setFoot x).msc = s.msc := rfl
@[simp] theorem State.setFoot_foot (s : State) (x : AMap (List Nat)) : (s.setFoot x).foot = x := rfl
@[simp] theorem State.setFoot_locks (s : State) (x : AMap (List Nat)) : (s.setFoot x).locks = s.locks := rfl
@[simp] theorem State.setFoot_errs (s : State) (x : AMap (List Nat)) : (s.setFoot x).errs = s.errs := rfl
@[simp] theorem State.setFoot_roots (s : State) (x : AMap (List Nat)) : (s.setFoot x).roots = s.roots := rfl
@[simp] theorem State.setFoot_tlb (s : State) (x : AMap (List Nat)) : (s.setFoot x).tlb = s.tlb := rfl
@[simp] theorem State.setFoot_ctxs (s : State) (x : AMap (List Nat)) : (s.setFoot x).ctxs = s.ctxs := rfl
@[simp] theorem State.setFoot_grids (s : State) (x : AMap (List Nat)) : (s.setFoot x).grids = s.grids := rfl
@[simp] theorem State.setFoot_queues (s : State) (x : AMap (List Nat)) : (s.setFoot x).queues = s.queues := rfl
@[simp] theorem State.setFoot_frames (s : State) (x : AMap (List Nat)) : (s.setFoot x).frames = s.frames := rfl
@[simp] theorem State.setFoot_ops (s : State) (x : AMap (List Nat)) : (s.setFoot x).ops = s.ops := rfl
@[simp] theorem State.setFoot_pend (s : State) (x : AMap (List Nat)) : (s.setFoot x).pend = s.pend := rfl
@[simp] theorem State.setFoot_msgs (s : State) (x : AMap (List Nat)) : (s.setFoot x).msgs = s.msgs := rfl
@[simp] theorem State.setFoot_invs (s : State) (x : AMap (List Nat)) : (s.setFoot x).invs = s.invs := rfl
@[simp] theorem State.setFoot_cairns (s : State) (x : AMap (List Nat)) : (s.setFoot x).cairns = s.cairns := rfl
@[simp] theorem State.setFoot_rounds (s : State) (x : AMap (List Nat)) : (s.setFoot x).rounds = s.rounds := rfl
@[simp] theorem State.setFoot_mons (s : State) (x : AMap (List Nat)) : (s.setFoot x).mons = s.mons := rfl
@[simp] theorem State.setFoot_sys (s : State) (x : AMap (List Nat)) : (s.setFoot x).sys = s.sys := rfl
@[simp] theorem State.setLocks_time (s : State) (x : AMap Nat) : (s.setLocks x).time = s.time := rfl
@[simp] theorem State.setLocks_agenda (s : State) (x : AMap Nat) : (s.setLocks x).agenda = s.agenda := rfl
@[simp] theorem State.setLocks_cur (s : State) (x : AMap Nat) : (s.setLocks x).cur = s.cur := rfl
@[simp] theorem State.setLocks_free (s : State) (x : AMap Nat) : (s.setLocks x).free = s.free := rfl
@[simp] theorem State.setLocks_fresh (s : State) (x : AMap Nat) : (s.setLocks x).fresh = s.fresh := rfl
@[simp] theorem State.setLocks_teams (s : State) (x : AMap Nat) : (s.setLocks x).teams = s.teams := rfl
@[simp] theorem State.setLocks_cores (s : State) (x : AMap Nat) : (s.setLocks x).cores = s.cores := rfl
@[simp] theorem State.setLocks_dies (s : State) (x : AMap Nat) : (s.setLocks x).dies = s.dies := rfl
@[simp] theorem State.setLocks_mem (s : State) (x : AMap Nat) : (s.setLocks x).mem = s.mem := rfl
@[simp] theorem State.setLocks_l2 (s : State) (x : AMap Nat) : (s.setLocks x).l2 = s.l2 := rfl
@[simp] theorem State.setLocks_msc (s : State) (x : AMap Nat) : (s.setLocks x).msc = s.msc := rfl
@[simp] theorem State.setLocks_foot (s : State) (x : AMap Nat) : (s.setLocks x).foot = s.foot := rfl
@[simp] theorem State.setLocks_locks (s : State) (x : AMap Nat) : (s.setLocks x).locks = x := rfl
@[simp] theorem State.setLocks_errs (s : State) (x : AMap Nat) : (s.setLocks x).errs = s.errs := rfl
@[simp] theorem State.setLocks_roots (s : State) (x : AMap Nat) : (s.setLocks x).roots = s.roots := rfl
@[simp] theorem State.setLocks_tlb (s : State) (x : AMap Nat) : (s.setLocks x).tlb = s.tlb := rfl
@[simp] theorem State.setLocks_ctxs (s : State) (x : AMap Nat) : (s.setLocks x).ctxs = s.ctxs := rfl
@[simp] theorem State.setLocks_grids (s : State) (x : AMap Nat) : (s.setLocks x).grids = s.grids := rfl
@[simp] theorem State.setLocks_queues (s : State) (x : AMap Nat) : (s.setLocks x).queues = s.queues := rfl
@[simp] theorem State.setLocks_frames (s : State) (x : AMap Nat) : (s.setLocks x).frames = s.frames := rfl
@[simp] theorem State.setLocks_ops (s : State) (x : AMap Nat) : (s.setLocks x).ops = s.ops := rfl
@[simp] theorem State.setLocks_pend (s : State) (x : AMap Nat) : (s.setLocks x).pend = s.pend := rfl
@[simp] theorem State.setLocks_msgs (s : State) (x : AMap Nat) : (s.setLocks x).msgs = s.msgs := rfl
@[simp] theorem State.setLocks_invs (s : State) (x : AMap Nat) : (s.setLocks x).invs = s.invs := rfl
@[simp] theorem State.setLocks_cairns (s : State) (x : AMap Nat) : (s.setLocks x).cairns = s.cairns := rfl
@[simp] theorem State.setLocks_rounds (s : State) (x : AMap Nat) : (s.setLocks x).rounds = s.rounds := rfl
@[simp] theorem State.setLocks_mons (s : State) (x : AMap Nat) : (s.setLocks x).mons = s.mons := rfl
@[simp] theorem State.setLocks_sys (s : State) (x : AMap Nat) : (s.setLocks x).sys = s.sys := rfl
@[simp] theorem State.setErrs_time (s : State) (x : Errs) : (s.setErrs x).time = s.time := rfl
@[simp] theorem State.setErrs_agenda (s : State) (x : Errs) : (s.setErrs x).agenda = s.agenda := rfl
@[simp] theorem State.setErrs_cur (s : State) (x : Errs) : (s.setErrs x).cur = s.cur := rfl
@[simp] theorem State.setErrs_free (s : State) (x : Errs) : (s.setErrs x).free = s.free := rfl
@[simp] theorem State.setErrs_fresh (s : State) (x : Errs) : (s.setErrs x).fresh = s.fresh := rfl
@[simp] theorem State.setErrs_teams (s : State) (x : Errs) : (s.setErrs x).teams = s.teams := rfl
@[simp] theorem State.setErrs_cores (s : State) (x : Errs) : (s.setErrs x).cores = s.cores := rfl
@[simp] theorem State.setErrs_dies (s : State) (x : Errs) : (s.setErrs x).dies = s.dies := rfl
@[simp] theorem State.setErrs_mem (s : State) (x : Errs) : (s.setErrs x).mem = s.mem := rfl
@[simp] theorem State.setErrs_l2 (s : State) (x : Errs) : (s.setErrs x).l2 = s.l2 := rfl
@[simp] theorem State.setErrs_msc (s : State) (x : Errs) : (s.setErrs x).msc = s.msc := rfl
@[simp] theorem State.setErrs_foot (s : State) (x : Errs) : (s.setErrs x).foot = s.foot := rfl
@[simp] theorem State.setErrs_locks (s : State) (x : Errs) : (s.setErrs x).locks = s.locks := rfl
@[simp] theorem State.setErrs_errs (s : State) (x : Errs) : (s.setErrs x).errs = x := rfl
@[simp] theorem State.setErrs_roots (s : State) (x : Errs) : (s.setErrs x).roots = s.roots := rfl
@[simp] theorem State.setErrs_tlb (s : State) (x : Errs) : (s.setErrs x).tlb = s.tlb := rfl
@[simp] theorem State.setErrs_ctxs (s : State) (x : Errs) : (s.setErrs x).ctxs = s.ctxs := rfl
@[simp] theorem State.setErrs_grids (s : State) (x : Errs) : (s.setErrs x).grids = s.grids := rfl
@[simp] theorem State.setErrs_queues (s : State) (x : Errs) : (s.setErrs x).queues = s.queues := rfl
@[simp] theorem State.setErrs_frames (s : State) (x : Errs) : (s.setErrs x).frames = s.frames := rfl
@[simp] theorem State.setErrs_ops (s : State) (x : Errs) : (s.setErrs x).ops = s.ops := rfl
@[simp] theorem State.setErrs_pend (s : State) (x : Errs) : (s.setErrs x).pend = s.pend := rfl
@[simp] theorem State.setErrs_msgs (s : State) (x : Errs) : (s.setErrs x).msgs = s.msgs := rfl
@[simp] theorem State.setErrs_invs (s : State) (x : Errs) : (s.setErrs x).invs = s.invs := rfl
@[simp] theorem State.setErrs_cairns (s : State) (x : Errs) : (s.setErrs x).cairns = s.cairns := rfl
@[simp] theorem State.setErrs_rounds (s : State) (x : Errs) : (s.setErrs x).rounds = s.rounds := rfl
@[simp] theorem State.setErrs_mons (s : State) (x : Errs) : (s.setErrs x).mons = s.mons := rfl
@[simp] theorem State.setErrs_sys (s : State) (x : Errs) : (s.setErrs x).sys = s.sys := rfl
@[simp] theorem State.setRoots_time (s : State) (x : AMap W64) : (s.setRoots x).time = s.time := rfl
@[simp] theorem State.setRoots_agenda (s : State) (x : AMap W64) : (s.setRoots x).agenda = s.agenda := rfl
@[simp] theorem State.setRoots_cur (s : State) (x : AMap W64) : (s.setRoots x).cur = s.cur := rfl
@[simp] theorem State.setRoots_free (s : State) (x : AMap W64) : (s.setRoots x).free = s.free := rfl
@[simp] theorem State.setRoots_fresh (s : State) (x : AMap W64) : (s.setRoots x).fresh = s.fresh := rfl
@[simp] theorem State.setRoots_teams (s : State) (x : AMap W64) : (s.setRoots x).teams = s.teams := rfl
@[simp] theorem State.setRoots_cores (s : State) (x : AMap W64) : (s.setRoots x).cores = s.cores := rfl
@[simp] theorem State.setRoots_dies (s : State) (x : AMap W64) : (s.setRoots x).dies = s.dies := rfl
@[simp] theorem State.setRoots_mem (s : State) (x : AMap W64) : (s.setRoots x).mem = s.mem := rfl
@[simp] theorem State.setRoots_l2 (s : State) (x : AMap W64) : (s.setRoots x).l2 = s.l2 := rfl
@[simp] theorem State.setRoots_msc (s : State) (x : AMap W64) : (s.setRoots x).msc = s.msc := rfl
@[simp] theorem State.setRoots_foot (s : State) (x : AMap W64) : (s.setRoots x).foot = s.foot := rfl
@[simp] theorem State.setRoots_locks (s : State) (x : AMap W64) : (s.setRoots x).locks = s.locks := rfl
@[simp] theorem State.setRoots_errs (s : State) (x : AMap W64) : (s.setRoots x).errs = s.errs := rfl
@[simp] theorem State.setRoots_roots (s : State) (x : AMap W64) : (s.setRoots x).roots = x := rfl
@[simp] theorem State.setRoots_tlb (s : State) (x : AMap W64) : (s.setRoots x).tlb = s.tlb := rfl
@[simp] theorem State.setRoots_ctxs (s : State) (x : AMap W64) : (s.setRoots x).ctxs = s.ctxs := rfl
@[simp] theorem State.setRoots_grids (s : State) (x : AMap W64) : (s.setRoots x).grids = s.grids := rfl
@[simp] theorem State.setRoots_queues (s : State) (x : AMap W64) : (s.setRoots x).queues = s.queues := rfl
@[simp] theorem State.setRoots_frames (s : State) (x : AMap W64) : (s.setRoots x).frames = s.frames := rfl
@[simp] theorem State.setRoots_ops (s : State) (x : AMap W64) : (s.setRoots x).ops = s.ops := rfl
@[simp] theorem State.setRoots_pend (s : State) (x : AMap W64) : (s.setRoots x).pend = s.pend := rfl
@[simp] theorem State.setRoots_msgs (s : State) (x : AMap W64) : (s.setRoots x).msgs = s.msgs := rfl
@[simp] theorem State.setRoots_invs (s : State) (x : AMap W64) : (s.setRoots x).invs = s.invs := rfl
@[simp] theorem State.setRoots_cairns (s : State) (x : AMap W64) : (s.setRoots x).cairns = s.cairns := rfl
@[simp] theorem State.setRoots_rounds (s : State) (x : AMap W64) : (s.setRoots x).rounds = s.rounds := rfl
@[simp] theorem State.setRoots_mons (s : State) (x : AMap W64) : (s.setRoots x).mons = s.mons := rfl
@[simp] theorem State.setRoots_sys (s : State) (x : AMap W64) : (s.setRoots x).sys = s.sys := rfl
@[simp] theorem State.setTlb_time (s : State) (x : AMap W64) : (s.setTlb x).time = s.time := rfl
@[simp] theorem State.setTlb_agenda (s : State) (x : AMap W64) : (s.setTlb x).agenda = s.agenda := rfl
@[simp] theorem State.setTlb_cur (s : State) (x : AMap W64) : (s.setTlb x).cur = s.cur := rfl
@[simp] theorem State.setTlb_free (s : State) (x : AMap W64) : (s.setTlb x).free = s.free := rfl
@[simp] theorem State.setTlb_fresh (s : State) (x : AMap W64) : (s.setTlb x).fresh = s.fresh := rfl
@[simp] theorem State.setTlb_teams (s : State) (x : AMap W64) : (s.setTlb x).teams = s.teams := rfl
@[simp] theorem State.setTlb_cores (s : State) (x : AMap W64) : (s.setTlb x).cores = s.cores := rfl
@[simp] theorem State.setTlb_dies (s : State) (x : AMap W64) : (s.setTlb x).dies = s.dies := rfl
@[simp] theorem State.setTlb_mem (s : State) (x : AMap W64) : (s.setTlb x).mem = s.mem := rfl
@[simp] theorem State.setTlb_l2 (s : State) (x : AMap W64) : (s.setTlb x).l2 = s.l2 := rfl
@[simp] theorem State.setTlb_msc (s : State) (x : AMap W64) : (s.setTlb x).msc = s.msc := rfl
@[simp] theorem State.setTlb_foot (s : State) (x : AMap W64) : (s.setTlb x).foot = s.foot := rfl
@[simp] theorem State.setTlb_locks (s : State) (x : AMap W64) : (s.setTlb x).locks = s.locks := rfl
@[simp] theorem State.setTlb_errs (s : State) (x : AMap W64) : (s.setTlb x).errs = s.errs := rfl
@[simp] theorem State.setTlb_roots (s : State) (x : AMap W64) : (s.setTlb x).roots = s.roots := rfl
@[simp] theorem State.setTlb_tlb (s : State) (x : AMap W64) : (s.setTlb x).tlb = x := rfl
@[simp] theorem State.setTlb_ctxs (s : State) (x : AMap W64) : (s.setTlb x).ctxs = s.ctxs := rfl
@[simp] theorem State.setTlb_grids (s : State) (x : AMap W64) : (s.setTlb x).grids = s.grids := rfl
@[simp] theorem State.setTlb_queues (s : State) (x : AMap W64) : (s.setTlb x).queues = s.queues := rfl
@[simp] theorem State.setTlb_frames (s : State) (x : AMap W64) : (s.setTlb x).frames = s.frames := rfl
@[simp] theorem State.setTlb_ops (s : State) (x : AMap W64) : (s.setTlb x).ops = s.ops := rfl
@[simp] theorem State.setTlb_pend (s : State) (x : AMap W64) : (s.setTlb x).pend = s.pend := rfl
@[simp] theorem State.setTlb_msgs (s : State) (x : AMap W64) : (s.setTlb x).msgs = s.msgs := rfl
@[simp] theorem State.setTlb_invs (s : State) (x : AMap W64) : (s.setTlb x).invs = s.invs := rfl
@[simp] theorem State.setTlb_cairns (s : State) (x : AMap W64) : (s.setTlb x).cairns = s.cairns := rfl
@[simp] theorem State.setTlb_rounds (s : State) (x : AMap W64) : (s.setTlb x).rounds = s.rounds := rfl
@[simp] theorem State.setTlb_mons (s : State) (x : AMap W64) : (s.setTlb x).mons = s.mons := rfl
@[simp] theorem State.setTlb_sys (s : State) (x : AMap W64) : (s.setTlb x).sys = s.sys := rfl
@[simp] theorem State.setCtxs_time (s : State) (x : AMap Ctx) : (s.setCtxs x).time = s.time := rfl
@[simp] theorem State.setCtxs_agenda (s : State) (x : AMap Ctx) : (s.setCtxs x).agenda = s.agenda := rfl
@[simp] theorem State.setCtxs_cur (s : State) (x : AMap Ctx) : (s.setCtxs x).cur = s.cur := rfl
@[simp] theorem State.setCtxs_free (s : State) (x : AMap Ctx) : (s.setCtxs x).free = s.free := rfl
@[simp] theorem State.setCtxs_fresh (s : State) (x : AMap Ctx) : (s.setCtxs x).fresh = s.fresh := rfl
@[simp] theorem State.setCtxs_teams (s : State) (x : AMap Ctx) : (s.setCtxs x).teams = s.teams := rfl
@[simp] theorem State.setCtxs_cores (s : State) (x : AMap Ctx) : (s.setCtxs x).cores = s.cores := rfl
@[simp] theorem State.setCtxs_dies (s : State) (x : AMap Ctx) : (s.setCtxs x).dies = s.dies := rfl
@[simp] theorem State.setCtxs_mem (s : State) (x : AMap Ctx) : (s.setCtxs x).mem = s.mem := rfl
@[simp] theorem State.setCtxs_l2 (s : State) (x : AMap Ctx) : (s.setCtxs x).l2 = s.l2 := rfl
@[simp] theorem State.setCtxs_msc (s : State) (x : AMap Ctx) : (s.setCtxs x).msc = s.msc := rfl
@[simp] theorem State.setCtxs_foot (s : State) (x : AMap Ctx) : (s.setCtxs x).foot = s.foot := rfl
@[simp] theorem State.setCtxs_locks (s : State) (x : AMap Ctx) : (s.setCtxs x).locks = s.locks := rfl
@[simp] theorem State.setCtxs_errs (s : State) (x : AMap Ctx) : (s.setCtxs x).errs = s.errs := rfl
@[simp] theorem State.setCtxs_roots (s : State) (x : AMap Ctx) : (s.setCtxs x).roots = s.roots := rfl
@[simp] theorem State.setCtxs_tlb (s : State) (x : AMap Ctx) : (s.setCtxs x).tlb = s.tlb := rfl
@[simp] theorem State.setCtxs_ctxs (s : State) (x : AMap Ctx) : (s.setCtxs x).ctxs = x := rfl
@[simp] theorem State.setCtxs_grids (s : State) (x : AMap Ctx) : (s.setCtxs x).grids = s.grids := rfl
@[simp] theorem State.setCtxs_queues (s : State) (x : AMap Ctx) : (s.setCtxs x).queues = s.queues := rfl
@[simp] theorem State.setCtxs_frames (s : State) (x : AMap Ctx) : (s.setCtxs x).frames = s.frames := rfl
@[simp] theorem State.setCtxs_ops (s : State) (x : AMap Ctx) : (s.setCtxs x).ops = s.ops := rfl
@[simp] theorem State.setCtxs_pend (s : State) (x : AMap Ctx) : (s.setCtxs x).pend = s.pend := rfl
@[simp] theorem State.setCtxs_msgs (s : State) (x : AMap Ctx) : (s.setCtxs x).msgs = s.msgs := rfl
@[simp] theorem State.setCtxs_invs (s : State) (x : AMap Ctx) : (s.setCtxs x).invs = s.invs := rfl
@[simp] theorem State.setCtxs_cairns (s : State) (x : AMap Ctx) : (s.setCtxs x).cairns = s.cairns := rfl
@[simp] theorem State.setCtxs_rounds (s : State) (x : AMap Ctx) : (s.setCtxs x).rounds = s.rounds := rfl
@[simp] theorem State.setCtxs_mons (s : State) (x : AMap Ctx) : (s.setCtxs x).mons = s.mons := rfl
@[simp] theorem State.setCtxs_sys (s : State) (x : AMap Ctx) : (s.setCtxs x).sys = s.sys := rfl
@[simp] theorem State.setGrids_time (s : State) (x : AMap Grid) : (s.setGrids x).time = s.time := rfl
@[simp] theorem State.setGrids_agenda (s : State) (x : AMap Grid) : (s.setGrids x).agenda = s.agenda := rfl
@[simp] theorem State.setGrids_cur (s : State) (x : AMap Grid) : (s.setGrids x).cur = s.cur := rfl
@[simp] theorem State.setGrids_free (s : State) (x : AMap Grid) : (s.setGrids x).free = s.free := rfl
@[simp] theorem State.setGrids_fresh (s : State) (x : AMap Grid) : (s.setGrids x).fresh = s.fresh := rfl
@[simp] theorem State.setGrids_teams (s : State) (x : AMap Grid) : (s.setGrids x).teams = s.teams := rfl
@[simp] theorem State.setGrids_cores (s : State) (x : AMap Grid) : (s.setGrids x).cores = s.cores := rfl
@[simp] theorem State.setGrids_dies (s : State) (x : AMap Grid) : (s.setGrids x).dies = s.dies := rfl
@[simp] theorem State.setGrids_mem (s : State) (x : AMap Grid) : (s.setGrids x).mem = s.mem := rfl
@[simp] theorem State.setGrids_l2 (s : State) (x : AMap Grid) : (s.setGrids x).l2 = s.l2 := rfl
@[simp] theorem State.setGrids_msc (s : State) (x : AMap Grid) : (s.setGrids x).msc = s.msc := rfl
@[simp] theorem State.setGrids_foot (s : State) (x : AMap Grid) : (s.setGrids x).foot = s.foot := rfl
@[simp] theorem State.setGrids_locks (s : State) (x : AMap Grid) : (s.setGrids x).locks = s.locks := rfl
@[simp] theorem State.setGrids_errs (s : State) (x : AMap Grid) : (s.setGrids x).errs = s.errs := rfl
@[simp] theorem State.setGrids_roots (s : State) (x : AMap Grid) : (s.setGrids x).roots = s.roots := rfl
@[simp] theorem State.setGrids_tlb (s : State) (x : AMap Grid) : (s.setGrids x).tlb = s.tlb := rfl
@[simp] theorem State.setGrids_ctxs (s : State) (x : AMap Grid) : (s.setGrids x).ctxs = s.ctxs := rfl
@[simp] theorem State.setGrids_grids (s : State) (x : AMap Grid) : (s.setGrids x).grids = x := rfl
@[simp] theorem State.setGrids_queues (s : State) (x : AMap Grid) : (s.setGrids x).queues = s.queues := rfl
@[simp] theorem State.setGrids_frames (s : State) (x : AMap Grid) : (s.setGrids x).frames = s.frames := rfl
@[simp] theorem State.setGrids_ops (s : State) (x : AMap Grid) : (s.setGrids x).ops = s.ops := rfl
@[simp] theorem State.setGrids_pend (s : State) (x : AMap Grid) : (s.setGrids x).pend = s.pend := rfl
@[simp] theorem State.setGrids_msgs (s : State) (x : AMap Grid) : (s.setGrids x).msgs = s.msgs := rfl
@[simp] theorem State.setGrids_invs (s : State) (x : AMap Grid) : (s.setGrids x).invs = s.invs := rfl
@[simp] theorem State.setGrids_cairns (s : State) (x : AMap Grid) : (s.setGrids x).cairns = s.cairns := rfl
@[simp] theorem State.setGrids_rounds (s : State) (x : AMap Grid) : (s.setGrids x).rounds = s.rounds := rfl
@[simp] theorem State.setGrids_mons (s : State) (x : AMap Grid) : (s.setGrids x).mons = s.mons := rfl
@[simp] theorem State.setGrids_sys (s : State) (x : AMap Grid) : (s.setGrids x).sys = s.sys := rfl
@[simp] theorem State.setQueues_time (s : State) (x : AMap Queue) : (s.setQueues x).time = s.time := rfl
@[simp] theorem State.setQueues_agenda (s : State) (x : AMap Queue) : (s.setQueues x).agenda = s.agenda := rfl
@[simp] theorem State.setQueues_cur (s : State) (x : AMap Queue) : (s.setQueues x).cur = s.cur := rfl
@[simp] theorem State.setQueues_free (s : State) (x : AMap Queue) : (s.setQueues x).free = s.free := rfl
@[simp] theorem State.setQueues_fresh (s : State) (x : AMap Queue) : (s.setQueues x).fresh = s.fresh := rfl
@[simp] theorem State.setQueues_teams (s : State) (x : AMap Queue) : (s.setQueues x).teams = s.teams := rfl
@[simp] theorem State.setQueues_cores (s : State) (x : AMap Queue) : (s.setQueues x).cores = s.cores := rfl
@[simp] theorem State.setQueues_dies (s : State) (x : AMap Queue) : (s.setQueues x).dies = s.dies := rfl
@[simp] theorem State.setQueues_mem (s : State) (x : AMap Queue) : (s.setQueues x).mem = s.mem := rfl
@[simp] theorem State.setQueues_l2 (s : State) (x : AMap Queue) : (s.setQueues x).l2 = s.l2 := rfl
@[simp] theorem State.setQueues_msc (s : State) (x : AMap Queue) : (s.setQueues x).msc = s.msc := rfl
@[simp] theorem State.setQueues_foot (s : State) (x : AMap Queue) : (s.setQueues x).foot = s.foot := rfl
@[simp] theorem State.setQueues_locks (s : State) (x : AMap Queue) : (s.setQueues x).locks = s.locks := rfl
@[simp] theorem State.setQueues_errs (s : State) (x : AMap Queue) : (s.setQueues x).errs = s.errs := rfl
@[simp] theorem State.setQueues_roots (s : State) (x : AMap Queue) : (s.setQueues x).roots = s.roots := rfl
@[simp] theorem State.setQueues_tlb (s : State) (x : AMap Queue) : (s.setQueues x).tlb = s.tlb := rfl
@[simp] theorem State.setQueues_ctxs (s : State) (x : AMap Queue) : (s.setQueues x).ctxs = s.ctxs := rfl
@[simp] theorem State.setQueues_grids (s : State) (x : AMap Queue) : (s.setQueues x).grids = s.grids := rfl
@[simp] theorem State.setQueues_queues (s : State) (x : AMap Queue) : (s.setQueues x).queues = x := rfl
@[simp] theorem State.setQueues_frames (s : State) (x : AMap Queue) : (s.setQueues x).frames = s.frames := rfl
@[simp] theorem State.setQueues_ops (s : State) (x : AMap Queue) : (s.setQueues x).ops = s.ops := rfl
@[simp] theorem State.setQueues_pend (s : State) (x : AMap Queue) : (s.setQueues x).pend = s.pend := rfl
@[simp] theorem State.setQueues_msgs (s : State) (x : AMap Queue) : (s.setQueues x).msgs = s.msgs := rfl
@[simp] theorem State.setQueues_invs (s : State) (x : AMap Queue) : (s.setQueues x).invs = s.invs := rfl
@[simp] theorem State.setQueues_cairns (s : State) (x : AMap Queue) : (s.setQueues x).cairns = s.cairns := rfl
@[simp] theorem State.setQueues_rounds (s : State) (x : AMap Queue) : (s.setQueues x).rounds = s.rounds := rfl
@[simp] theorem State.setQueues_mons (s : State) (x : AMap Queue) : (s.setQueues x).mons = s.mons := rfl
@[simp] theorem State.setQueues_sys (s : State) (x : AMap Queue) : (s.setQueues x).sys = s.sys := rfl
@[simp] theorem State.setFrames_time (s : State) (x : AMap Frame) : (s.setFrames x).time = s.time := rfl
@[simp] theorem State.setFrames_agenda (s : State) (x : AMap Frame) : (s.setFrames x).agenda = s.agenda := rfl
@[simp] theorem State.setFrames_cur (s : State) (x : AMap Frame) : (s.setFrames x).cur = s.cur := rfl
@[simp] theorem State.setFrames_free (s : State) (x : AMap Frame) : (s.setFrames x).free = s.free := rfl
@[simp] theorem State.setFrames_fresh (s : State) (x : AMap Frame) : (s.setFrames x).fresh = s.fresh := rfl
@[simp] theorem State.setFrames_teams (s : State) (x : AMap Frame) : (s.setFrames x).teams = s.teams := rfl
@[simp] theorem State.setFrames_cores (s : State) (x : AMap Frame) : (s.setFrames x).cores = s.cores := rfl
@[simp] theorem State.setFrames_dies (s : State) (x : AMap Frame) : (s.setFrames x).dies = s.dies := rfl
@[simp] theorem State.setFrames_mem (s : State) (x : AMap Frame) : (s.setFrames x).mem = s.mem := rfl
@[simp] theorem State.setFrames_l2 (s : State) (x : AMap Frame) : (s.setFrames x).l2 = s.l2 := rfl
@[simp] theorem State.setFrames_msc (s : State) (x : AMap Frame) : (s.setFrames x).msc = s.msc := rfl
@[simp] theorem State.setFrames_foot (s : State) (x : AMap Frame) : (s.setFrames x).foot = s.foot := rfl
@[simp] theorem State.setFrames_locks (s : State) (x : AMap Frame) : (s.setFrames x).locks = s.locks := rfl
@[simp] theorem State.setFrames_errs (s : State) (x : AMap Frame) : (s.setFrames x).errs = s.errs := rfl
@[simp] theorem State.setFrames_roots (s : State) (x : AMap Frame) : (s.setFrames x).roots = s.roots := rfl
@[simp] theorem State.setFrames_tlb (s : State) (x : AMap Frame) : (s.setFrames x).tlb = s.tlb := rfl
@[simp] theorem State.setFrames_ctxs (s : State) (x : AMap Frame) : (s.setFrames x).ctxs = s.ctxs := rfl
@[simp] theorem State.setFrames_grids (s : State) (x : AMap Frame) : (s.setFrames x).grids = s.grids := rfl
@[simp] theorem State.setFrames_queues (s : State) (x : AMap Frame) : (s.setFrames x).queues = s.queues := rfl
@[simp] theorem State.setFrames_frames (s : State) (x : AMap Frame) : (s.setFrames x).frames = x := rfl
@[simp] theorem State.setFrames_ops (s : State) (x : AMap Frame) : (s.setFrames x).ops = s.ops := rfl
@[simp] theorem State.setFrames_pend (s : State) (x : AMap Frame) : (s.setFrames x).pend = s.pend := rfl
@[simp] theorem State.setFrames_msgs (s : State) (x : AMap Frame) : (s.setFrames x).msgs = s.msgs := rfl
@[simp] theorem State.setFrames_invs (s : State) (x : AMap Frame) : (s.setFrames x).invs = s.invs := rfl
@[simp] theorem State.setFrames_cairns (s : State) (x : AMap Frame) : (s.setFrames x).cairns = s.cairns := rfl
@[simp] theorem State.setFrames_rounds (s : State) (x : AMap Frame) : (s.setFrames x).rounds = s.rounds := rfl
@[simp] theorem State.setFrames_mons (s : State) (x : AMap Frame) : (s.setFrames x).mons = s.mons := rfl
@[simp] theorem State.setFrames_sys (s : State) (x : AMap Frame) : (s.setFrames x).sys = s.sys := rfl
@[simp] theorem State.setOps_time (s : State) (x : AMap Op) : (s.setOps x).time = s.time := rfl
@[simp] theorem State.setOps_agenda (s : State) (x : AMap Op) : (s.setOps x).agenda = s.agenda := rfl
@[simp] theorem State.setOps_cur (s : State) (x : AMap Op) : (s.setOps x).cur = s.cur := rfl
@[simp] theorem State.setOps_free (s : State) (x : AMap Op) : (s.setOps x).free = s.free := rfl
@[simp] theorem State.setOps_fresh (s : State) (x : AMap Op) : (s.setOps x).fresh = s.fresh := rfl
@[simp] theorem State.setOps_teams (s : State) (x : AMap Op) : (s.setOps x).teams = s.teams := rfl
@[simp] theorem State.setOps_cores (s : State) (x : AMap Op) : (s.setOps x).cores = s.cores := rfl
@[simp] theorem State.setOps_dies (s : State) (x : AMap Op) : (s.setOps x).dies = s.dies := rfl
@[simp] theorem State.setOps_mem (s : State) (x : AMap Op) : (s.setOps x).mem = s.mem := rfl
@[simp] theorem State.setOps_l2 (s : State) (x : AMap Op) : (s.setOps x).l2 = s.l2 := rfl
@[simp] theorem State.setOps_msc (s : State) (x : AMap Op) : (s.setOps x).msc = s.msc := rfl
@[simp] theorem State.setOps_foot (s : State) (x : AMap Op) : (s.setOps x).foot = s.foot := rfl
@[simp] theorem State.setOps_locks (s : State) (x : AMap Op) : (s.setOps x).locks = s.locks := rfl
@[simp] theorem State.setOps_errs (s : State) (x : AMap Op) : (s.setOps x).errs = s.errs := rfl
@[simp] theorem State.setOps_roots (s : State) (x : AMap Op) : (s.setOps x).roots = s.roots := rfl
@[simp] theorem State.setOps_tlb (s : State) (x : AMap Op) : (s.setOps x).tlb = s.tlb := rfl
@[simp] theorem State.setOps_ctxs (s : State) (x : AMap Op) : (s.setOps x).ctxs = s.ctxs := rfl
@[simp] theorem State.setOps_grids (s : State) (x : AMap Op) : (s.setOps x).grids = s.grids := rfl
@[simp] theorem State.setOps_queues (s : State) (x : AMap Op) : (s.setOps x).queues = s.queues := rfl
@[simp] theorem State.setOps_frames (s : State) (x : AMap Op) : (s.setOps x).frames = s.frames := rfl
@[simp] theorem State.setOps_ops (s : State) (x : AMap Op) : (s.setOps x).ops = x := rfl
@[simp] theorem State.setOps_pend (s : State) (x : AMap Op) : (s.setOps x).pend = s.pend := rfl
@[simp] theorem State.setOps_msgs (s : State) (x : AMap Op) : (s.setOps x).msgs = s.msgs := rfl
@[simp] theorem State.setOps_invs (s : State) (x : AMap Op) : (s.setOps x).invs = s.invs := rfl
@[simp] theorem State.setOps_cairns (s : State) (x : AMap Op) : (s.setOps x).cairns = s.cairns := rfl
@[simp] theorem State.setOps_rounds (s : State) (x : AMap Op) : (s.setOps x).rounds = s.rounds := rfl
@[simp] theorem State.setOps_mons (s : State) (x : AMap Op) : (s.setOps x).mons = s.mons := rfl
@[simp] theorem State.setOps_sys (s : State) (x : AMap Op) : (s.setOps x).sys = s.sys := rfl
@[simp] theorem State.setPend_time (s : State) (x : AMap Access) : (s.setPend x).time = s.time := rfl
@[simp] theorem State.setPend_agenda (s : State) (x : AMap Access) : (s.setPend x).agenda = s.agenda := rfl
@[simp] theorem State.setPend_cur (s : State) (x : AMap Access) : (s.setPend x).cur = s.cur := rfl
@[simp] theorem State.setPend_free (s : State) (x : AMap Access) : (s.setPend x).free = s.free := rfl
@[simp] theorem State.setPend_fresh (s : State) (x : AMap Access) : (s.setPend x).fresh = s.fresh := rfl
@[simp] theorem State.setPend_teams (s : State) (x : AMap Access) : (s.setPend x).teams = s.teams := rfl
@[simp] theorem State.setPend_cores (s : State) (x : AMap Access) : (s.setPend x).cores = s.cores := rfl
@[simp] theorem State.setPend_dies (s : State) (x : AMap Access) : (s.setPend x).dies = s.dies := rfl
@[simp] theorem State.setPend_mem (s : State) (x : AMap Access) : (s.setPend x).mem = s.mem := rfl
@[simp] theorem State.setPend_l2 (s : State) (x : AMap Access) : (s.setPend x).l2 = s.l2 := rfl
@[simp] theorem State.setPend_msc (s : State) (x : AMap Access) : (s.setPend x).msc = s.msc := rfl
@[simp] theorem State.setPend_foot (s : State) (x : AMap Access) : (s.setPend x).foot = s.foot := rfl
@[simp] theorem State.setPend_locks (s : State) (x : AMap Access) : (s.setPend x).locks = s.locks := rfl
@[simp] theorem State.setPend_errs (s : State) (x : AMap Access) : (s.setPend x).errs = s.errs := rfl
@[simp] theorem State.setPend_roots (s : State) (x : AMap Access) : (s.setPend x).roots = s.roots := rfl
@[simp] theorem State.setPend_tlb (s : State) (x : AMap Access) : (s.setPend x).tlb = s.tlb := rfl
@[simp] theorem State.setPend_ctxs (s : State) (x : AMap Access) : (s.setPend x).ctxs = s.ctxs := rfl
@[simp] theorem State.setPend_grids (s : State) (x : AMap Access) : (s.setPend x).grids = s.grids := rfl
@[simp] theorem State.setPend_queues (s : State) (x : AMap Access) : (s.setPend x).queues = s.queues := rfl
@[simp] theorem State.setPend_frames (s : State) (x : AMap Access) : (s.setPend x).frames = s.frames := rfl
@[simp] theorem State.setPend_ops (s : State) (x : AMap Access) : (s.setPend x).ops = s.ops := rfl
@[simp] theorem State.setPend_pend (s : State) (x : AMap Access) : (s.setPend x).pend = x := rfl
@[simp] theorem State.setPend_msgs (s : State) (x : AMap Access) : (s.setPend x).msgs = s.msgs := rfl
@[simp] theorem State.setPend_invs (s : State) (x : AMap Access) : (s.setPend x).invs = s.invs := rfl
@[simp] theorem State.setPend_cairns (s : State) (x : AMap Access) : (s.setPend x).cairns = s.cairns := rfl
@[simp] theorem State.setPend_rounds (s : State) (x : AMap Access) : (s.setPend x).rounds = s.rounds := rfl
@[simp] theorem State.setPend_mons (s : State) (x : AMap Access) : (s.setPend x).mons = s.mons := rfl
@[simp] theorem State.setPend_sys (s : State) (x : AMap Access) : (s.setPend x).sys = s.sys := rfl
@[simp] theorem State.setMsgs_time (s : State) (x : AMap StakeMsg) : (s.setMsgs x).time = s.time := rfl
@[simp] theorem State.setMsgs_agenda (s : State) (x : AMap StakeMsg) : (s.setMsgs x).agenda = s.agenda := rfl
@[simp] theorem State.setMsgs_cur (s : State) (x : AMap StakeMsg) : (s.setMsgs x).cur = s.cur := rfl
@[simp] theorem State.setMsgs_free (s : State) (x : AMap StakeMsg) : (s.setMsgs x).free = s.free := rfl
@[simp] theorem State.setMsgs_fresh (s : State) (x : AMap StakeMsg) : (s.setMsgs x).fresh = s.fresh := rfl
@[simp] theorem State.setMsgs_teams (s : State) (x : AMap StakeMsg) : (s.setMsgs x).teams = s.teams := rfl
@[simp] theorem State.setMsgs_cores (s : State) (x : AMap StakeMsg) : (s.setMsgs x).cores = s.cores := rfl
@[simp] theorem State.setMsgs_dies (s : State) (x : AMap StakeMsg) : (s.setMsgs x).dies = s.dies := rfl
@[simp] theorem State.setMsgs_mem (s : State) (x : AMap StakeMsg) : (s.setMsgs x).mem = s.mem := rfl
@[simp] theorem State.setMsgs_l2 (s : State) (x : AMap StakeMsg) : (s.setMsgs x).l2 = s.l2 := rfl
@[simp] theorem State.setMsgs_msc (s : State) (x : AMap StakeMsg) : (s.setMsgs x).msc = s.msc := rfl
@[simp] theorem State.setMsgs_foot (s : State) (x : AMap StakeMsg) : (s.setMsgs x).foot = s.foot := rfl
@[simp] theorem State.setMsgs_locks (s : State) (x : AMap StakeMsg) : (s.setMsgs x).locks = s.locks := rfl
@[simp] theorem State.setMsgs_errs (s : State) (x : AMap StakeMsg) : (s.setMsgs x).errs = s.errs := rfl
@[simp] theorem State.setMsgs_roots (s : State) (x : AMap StakeMsg) : (s.setMsgs x).roots = s.roots := rfl
@[simp] theorem State.setMsgs_tlb (s : State) (x : AMap StakeMsg) : (s.setMsgs x).tlb = s.tlb := rfl
@[simp] theorem State.setMsgs_ctxs (s : State) (x : AMap StakeMsg) : (s.setMsgs x).ctxs = s.ctxs := rfl
@[simp] theorem State.setMsgs_grids (s : State) (x : AMap StakeMsg) : (s.setMsgs x).grids = s.grids := rfl
@[simp] theorem State.setMsgs_queues (s : State) (x : AMap StakeMsg) : (s.setMsgs x).queues = s.queues := rfl
@[simp] theorem State.setMsgs_frames (s : State) (x : AMap StakeMsg) : (s.setMsgs x).frames = s.frames := rfl
@[simp] theorem State.setMsgs_ops (s : State) (x : AMap StakeMsg) : (s.setMsgs x).ops = s.ops := rfl
@[simp] theorem State.setMsgs_pend (s : State) (x : AMap StakeMsg) : (s.setMsgs x).pend = s.pend := rfl
@[simp] theorem State.setMsgs_msgs (s : State) (x : AMap StakeMsg) : (s.setMsgs x).msgs = x := rfl
@[simp] theorem State.setMsgs_invs (s : State) (x : AMap StakeMsg) : (s.setMsgs x).invs = s.invs := rfl
@[simp] theorem State.setMsgs_cairns (s : State) (x : AMap StakeMsg) : (s.setMsgs x).cairns = s.cairns := rfl
@[simp] theorem State.setMsgs_rounds (s : State) (x : AMap StakeMsg) : (s.setMsgs x).rounds = s.rounds := rfl
@[simp] theorem State.setMsgs_mons (s : State) (x : AMap StakeMsg) : (s.setMsgs x).mons = s.mons := rfl
@[simp] theorem State.setMsgs_sys (s : State) (x : AMap StakeMsg) : (s.setMsgs x).sys = s.sys := rfl
@[simp] theorem State.setInvs_time (s : State) (x : AMap Invocation) : (s.setInvs x).time = s.time := rfl
@[simp] theorem State.setInvs_agenda (s : State) (x : AMap Invocation) : (s.setInvs x).agenda = s.agenda := rfl
@[simp] theorem State.setInvs_cur (s : State) (x : AMap Invocation) : (s.setInvs x).cur = s.cur := rfl
@[simp] theorem State.setInvs_free (s : State) (x : AMap Invocation) : (s.setInvs x).free = s.free := rfl
@[simp] theorem State.setInvs_fresh (s : State) (x : AMap Invocation) : (s.setInvs x).fresh = s.fresh := rfl
@[simp] theorem State.setInvs_teams (s : State) (x : AMap Invocation) : (s.setInvs x).teams = s.teams := rfl
@[simp] theorem State.setInvs_cores (s : State) (x : AMap Invocation) : (s.setInvs x).cores = s.cores := rfl
@[simp] theorem State.setInvs_dies (s : State) (x : AMap Invocation) : (s.setInvs x).dies = s.dies := rfl
@[simp] theorem State.setInvs_mem (s : State) (x : AMap Invocation) : (s.setInvs x).mem = s.mem := rfl
@[simp] theorem State.setInvs_l2 (s : State) (x : AMap Invocation) : (s.setInvs x).l2 = s.l2 := rfl
@[simp] theorem State.setInvs_msc (s : State) (x : AMap Invocation) : (s.setInvs x).msc = s.msc := rfl
@[simp] theorem State.setInvs_foot (s : State) (x : AMap Invocation) : (s.setInvs x).foot = s.foot := rfl
@[simp] theorem State.setInvs_locks (s : State) (x : AMap Invocation) : (s.setInvs x).locks = s.locks := rfl
@[simp] theorem State.setInvs_errs (s : State) (x : AMap Invocation) : (s.setInvs x).errs = s.errs := rfl
@[simp] theorem State.setInvs_roots (s : State) (x : AMap Invocation) : (s.setInvs x).roots = s.roots := rfl
@[simp] theorem State.setInvs_tlb (s : State) (x : AMap Invocation) : (s.setInvs x).tlb = s.tlb := rfl
@[simp] theorem State.setInvs_ctxs (s : State) (x : AMap Invocation) : (s.setInvs x).ctxs = s.ctxs := rfl
@[simp] theorem State.setInvs_grids (s : State) (x : AMap Invocation) : (s.setInvs x).grids = s.grids := rfl
@[simp] theorem State.setInvs_queues (s : State) (x : AMap Invocation) : (s.setInvs x).queues = s.queues := rfl
@[simp] theorem State.setInvs_frames (s : State) (x : AMap Invocation) : (s.setInvs x).frames = s.frames := rfl
@[simp] theorem State.setInvs_ops (s : State) (x : AMap Invocation) : (s.setInvs x).ops = s.ops := rfl
@[simp] theorem State.setInvs_pend (s : State) (x : AMap Invocation) : (s.setInvs x).pend = s.pend := rfl
@[simp] theorem State.setInvs_msgs (s : State) (x : AMap Invocation) : (s.setInvs x).msgs = s.msgs := rfl
@[simp] theorem State.setInvs_invs (s : State) (x : AMap Invocation) : (s.setInvs x).invs = x := rfl
@[simp] theorem State.setInvs_cairns (s : State) (x : AMap Invocation) : (s.setInvs x).cairns = s.cairns := rfl
@[simp] theorem State.setInvs_rounds (s : State) (x : AMap Invocation) : (s.setInvs x).rounds = s.rounds := rfl
@[simp] theorem State.setInvs_mons (s : State) (x : AMap Invocation) : (s.setInvs x).mons = s.mons := rfl
@[simp] theorem State.setInvs_sys (s : State) (x : AMap Invocation) : (s.setInvs x).sys = s.sys := rfl
@[simp] theorem State.setCairns_time (s : State) (x : AMap Cairn) : (s.setCairns x).time = s.time := rfl
@[simp] theorem State.setCairns_agenda (s : State) (x : AMap Cairn) : (s.setCairns x).agenda = s.agenda := rfl
@[simp] theorem State.setCairns_cur (s : State) (x : AMap Cairn) : (s.setCairns x).cur = s.cur := rfl
@[simp] theorem State.setCairns_free (s : State) (x : AMap Cairn) : (s.setCairns x).free = s.free := rfl
@[simp] theorem State.setCairns_fresh (s : State) (x : AMap Cairn) : (s.setCairns x).fresh = s.fresh := rfl
@[simp] theorem State.setCairns_teams (s : State) (x : AMap Cairn) : (s.setCairns x).teams = s.teams := rfl
@[simp] theorem State.setCairns_cores (s : State) (x : AMap Cairn) : (s.setCairns x).cores = s.cores := rfl
@[simp] theorem State.setCairns_dies (s : State) (x : AMap Cairn) : (s.setCairns x).dies = s.dies := rfl
@[simp] theorem State.setCairns_mem (s : State) (x : AMap Cairn) : (s.setCairns x).mem = s.mem := rfl
@[simp] theorem State.setCairns_l2 (s : State) (x : AMap Cairn) : (s.setCairns x).l2 = s.l2 := rfl
@[simp] theorem State.setCairns_msc (s : State) (x : AMap Cairn) : (s.setCairns x).msc = s.msc := rfl
@[simp] theorem State.setCairns_foot (s : State) (x : AMap Cairn) : (s.setCairns x).foot = s.foot := rfl
@[simp] theorem State.setCairns_locks (s : State) (x : AMap Cairn) : (s.setCairns x).locks = s.locks := rfl
@[simp] theorem State.setCairns_errs (s : State) (x : AMap Cairn) : (s.setCairns x).errs = s.errs := rfl
@[simp] theorem State.setCairns_roots (s : State) (x : AMap Cairn) : (s.setCairns x).roots = s.roots := rfl
@[simp] theorem State.setCairns_tlb (s : State) (x : AMap Cairn) : (s.setCairns x).tlb = s.tlb := rfl
@[simp] theorem State.setCairns_ctxs (s : State) (x : AMap Cairn) : (s.setCairns x).ctxs = s.ctxs := rfl
@[simp] theorem State.setCairns_grids (s : State) (x : AMap Cairn) : (s.setCairns x).grids = s.grids := rfl
@[simp] theorem State.setCairns_queues (s : State) (x : AMap Cairn) : (s.setCairns x).queues = s.queues := rfl
@[simp] theorem State.setCairns_frames (s : State) (x : AMap Cairn) : (s.setCairns x).frames = s.frames := rfl
@[simp] theorem State.setCairns_ops (s : State) (x : AMap Cairn) : (s.setCairns x).ops = s.ops := rfl
@[simp] theorem State.setCairns_pend (s : State) (x : AMap Cairn) : (s.setCairns x).pend = s.pend := rfl
@[simp] theorem State.setCairns_msgs (s : State) (x : AMap Cairn) : (s.setCairns x).msgs = s.msgs := rfl
@[simp] theorem State.setCairns_invs (s : State) (x : AMap Cairn) : (s.setCairns x).invs = s.invs := rfl
@[simp] theorem State.setCairns_cairns (s : State) (x : AMap Cairn) : (s.setCairns x).cairns = x := rfl
@[simp] theorem State.setCairns_rounds (s : State) (x : AMap Cairn) : (s.setCairns x).rounds = s.rounds := rfl
@[simp] theorem State.setCairns_mons (s : State) (x : AMap Cairn) : (s.setCairns x).mons = s.mons := rfl
@[simp] theorem State.setCairns_sys (s : State) (x : AMap Cairn) : (s.setCairns x).sys = s.sys := rfl
@[simp] theorem State.setRounds_time (s : State) (x : AMap CollRound) : (s.setRounds x).time = s.time := rfl
@[simp] theorem State.setRounds_agenda (s : State) (x : AMap CollRound) : (s.setRounds x).agenda = s.agenda := rfl
@[simp] theorem State.setRounds_cur (s : State) (x : AMap CollRound) : (s.setRounds x).cur = s.cur := rfl
@[simp] theorem State.setRounds_free (s : State) (x : AMap CollRound) : (s.setRounds x).free = s.free := rfl
@[simp] theorem State.setRounds_fresh (s : State) (x : AMap CollRound) : (s.setRounds x).fresh = s.fresh := rfl
@[simp] theorem State.setRounds_teams (s : State) (x : AMap CollRound) : (s.setRounds x).teams = s.teams := rfl
@[simp] theorem State.setRounds_cores (s : State) (x : AMap CollRound) : (s.setRounds x).cores = s.cores := rfl
@[simp] theorem State.setRounds_dies (s : State) (x : AMap CollRound) : (s.setRounds x).dies = s.dies := rfl
@[simp] theorem State.setRounds_mem (s : State) (x : AMap CollRound) : (s.setRounds x).mem = s.mem := rfl
@[simp] theorem State.setRounds_l2 (s : State) (x : AMap CollRound) : (s.setRounds x).l2 = s.l2 := rfl
@[simp] theorem State.setRounds_msc (s : State) (x : AMap CollRound) : (s.setRounds x).msc = s.msc := rfl
@[simp] theorem State.setRounds_foot (s : State) (x : AMap CollRound) : (s.setRounds x).foot = s.foot := rfl
@[simp] theorem State.setRounds_locks (s : State) (x : AMap CollRound) : (s.setRounds x).locks = s.locks := rfl
@[simp] theorem State.setRounds_errs (s : State) (x : AMap CollRound) : (s.setRounds x).errs = s.errs := rfl
@[simp] theorem State.setRounds_roots (s : State) (x : AMap CollRound) : (s.setRounds x).roots = s.roots := rfl
@[simp] theorem State.setRounds_tlb (s : State) (x : AMap CollRound) : (s.setRounds x).tlb = s.tlb := rfl
@[simp] theorem State.setRounds_ctxs (s : State) (x : AMap CollRound) : (s.setRounds x).ctxs = s.ctxs := rfl
@[simp] theorem State.setRounds_grids (s : State) (x : AMap CollRound) : (s.setRounds x).grids = s.grids := rfl
@[simp] theorem State.setRounds_queues (s : State) (x : AMap CollRound) : (s.setRounds x).queues = s.queues := rfl
@[simp] theorem State.setRounds_frames (s : State) (x : AMap CollRound) : (s.setRounds x).frames = s.frames := rfl
@[simp] theorem State.setRounds_ops (s : State) (x : AMap CollRound) : (s.setRounds x).ops = s.ops := rfl
@[simp] theorem State.setRounds_pend (s : State) (x : AMap CollRound) : (s.setRounds x).pend = s.pend := rfl
@[simp] theorem State.setRounds_msgs (s : State) (x : AMap CollRound) : (s.setRounds x).msgs = s.msgs := rfl
@[simp] theorem State.setRounds_invs (s : State) (x : AMap CollRound) : (s.setRounds x).invs = s.invs := rfl
@[simp] theorem State.setRounds_cairns (s : State) (x : AMap CollRound) : (s.setRounds x).cairns = s.cairns := rfl
@[simp] theorem State.setRounds_rounds (s : State) (x : AMap CollRound) : (s.setRounds x).rounds = x := rfl
@[simp] theorem State.setRounds_mons (s : State) (x : AMap CollRound) : (s.setRounds x).mons = s.mons := rfl
@[simp] theorem State.setRounds_sys (s : State) (x : AMap CollRound) : (s.setRounds x).sys = s.sys := rfl
@[simp] theorem State.setMons_time (s : State) (x : AMap Mon) : (s.setMons x).time = s.time := rfl
@[simp] theorem State.setMons_agenda (s : State) (x : AMap Mon) : (s.setMons x).agenda = s.agenda := rfl
@[simp] theorem State.setMons_cur (s : State) (x : AMap Mon) : (s.setMons x).cur = s.cur := rfl
@[simp] theorem State.setMons_free (s : State) (x : AMap Mon) : (s.setMons x).free = s.free := rfl
@[simp] theorem State.setMons_fresh (s : State) (x : AMap Mon) : (s.setMons x).fresh = s.fresh := rfl
@[simp] theorem State.setMons_teams (s : State) (x : AMap Mon) : (s.setMons x).teams = s.teams := rfl
@[simp] theorem State.setMons_cores (s : State) (x : AMap Mon) : (s.setMons x).cores = s.cores := rfl
@[simp] theorem State.setMons_dies (s : State) (x : AMap Mon) : (s.setMons x).dies = s.dies := rfl
@[simp] theorem State.setMons_mem (s : State) (x : AMap Mon) : (s.setMons x).mem = s.mem := rfl
@[simp] theorem State.setMons_l2 (s : State) (x : AMap Mon) : (s.setMons x).l2 = s.l2 := rfl
@[simp] theorem State.setMons_msc (s : State) (x : AMap Mon) : (s.setMons x).msc = s.msc := rfl
@[simp] theorem State.setMons_foot (s : State) (x : AMap Mon) : (s.setMons x).foot = s.foot := rfl
@[simp] theorem State.setMons_locks (s : State) (x : AMap Mon) : (s.setMons x).locks = s.locks := rfl
@[simp] theorem State.setMons_errs (s : State) (x : AMap Mon) : (s.setMons x).errs = s.errs := rfl
@[simp] theorem State.setMons_roots (s : State) (x : AMap Mon) : (s.setMons x).roots = s.roots := rfl
@[simp] theorem State.setMons_tlb (s : State) (x : AMap Mon) : (s.setMons x).tlb = s.tlb := rfl
@[simp] theorem State.setMons_ctxs (s : State) (x : AMap Mon) : (s.setMons x).ctxs = s.ctxs := rfl
@[simp] theorem State.setMons_grids (s : State) (x : AMap Mon) : (s.setMons x).grids = s.grids := rfl
@[simp] theorem State.setMons_queues (s : State) (x : AMap Mon) : (s.setMons x).queues = s.queues := rfl
@[simp] theorem State.setMons_frames (s : State) (x : AMap Mon) : (s.setMons x).frames = s.frames := rfl
@[simp] theorem State.setMons_ops (s : State) (x : AMap Mon) : (s.setMons x).ops = s.ops := rfl
@[simp] theorem State.setMons_pend (s : State) (x : AMap Mon) : (s.setMons x).pend = s.pend := rfl
@[simp] theorem State.setMons_msgs (s : State) (x : AMap Mon) : (s.setMons x).msgs = s.msgs := rfl
@[simp] theorem State.setMons_invs (s : State) (x : AMap Mon) : (s.setMons x).invs = s.invs := rfl
@[simp] theorem State.setMons_cairns (s : State) (x : AMap Mon) : (s.setMons x).cairns = s.cairns := rfl
@[simp] theorem State.setMons_rounds (s : State) (x : AMap Mon) : (s.setMons x).rounds = s.rounds := rfl
@[simp] theorem State.setMons_mons (s : State) (x : AMap Mon) : (s.setMons x).mons = x := rfl
@[simp] theorem State.setMons_sys (s : State) (x : AMap Mon) : (s.setMons x).sys = s.sys := rfl
@[simp] theorem State.setSys_time (s : State) (x : Sys) : (s.setSys x).time = s.time := rfl
@[simp] theorem State.setSys_agenda (s : State) (x : Sys) : (s.setSys x).agenda = s.agenda := rfl
@[simp] theorem State.setSys_cur (s : State) (x : Sys) : (s.setSys x).cur = s.cur := rfl
@[simp] theorem State.setSys_free (s : State) (x : Sys) : (s.setSys x).free = s.free := rfl
@[simp] theorem State.setSys_fresh (s : State) (x : Sys) : (s.setSys x).fresh = s.fresh := rfl
@[simp] theorem State.setSys_teams (s : State) (x : Sys) : (s.setSys x).teams = s.teams := rfl
@[simp] theorem State.setSys_cores (s : State) (x : Sys) : (s.setSys x).cores = s.cores := rfl
@[simp] theorem State.setSys_dies (s : State) (x : Sys) : (s.setSys x).dies = s.dies := rfl
@[simp] theorem State.setSys_mem (s : State) (x : Sys) : (s.setSys x).mem = s.mem := rfl
@[simp] theorem State.setSys_l2 (s : State) (x : Sys) : (s.setSys x).l2 = s.l2 := rfl
@[simp] theorem State.setSys_msc (s : State) (x : Sys) : (s.setSys x).msc = s.msc := rfl
@[simp] theorem State.setSys_foot (s : State) (x : Sys) : (s.setSys x).foot = s.foot := rfl
@[simp] theorem State.setSys_locks (s : State) (x : Sys) : (s.setSys x).locks = s.locks := rfl
@[simp] theorem State.setSys_errs (s : State) (x : Sys) : (s.setSys x).errs = s.errs := rfl
@[simp] theorem State.setSys_roots (s : State) (x : Sys) : (s.setSys x).roots = s.roots := rfl
@[simp] theorem State.setSys_tlb (s : State) (x : Sys) : (s.setSys x).tlb = s.tlb := rfl
@[simp] theorem State.setSys_ctxs (s : State) (x : Sys) : (s.setSys x).ctxs = s.ctxs := rfl
@[simp] theorem State.setSys_grids (s : State) (x : Sys) : (s.setSys x).grids = s.grids := rfl
@[simp] theorem State.setSys_queues (s : State) (x : Sys) : (s.setSys x).queues = s.queues := rfl
@[simp] theorem State.setSys_frames (s : State) (x : Sys) : (s.setSys x).frames = s.frames := rfl
@[simp] theorem State.setSys_ops (s : State) (x : Sys) : (s.setSys x).ops = s.ops := rfl
@[simp] theorem State.setSys_pend (s : State) (x : Sys) : (s.setSys x).pend = s.pend := rfl
@[simp] theorem State.setSys_msgs (s : State) (x : Sys) : (s.setSys x).msgs = s.msgs := rfl
@[simp] theorem State.setSys_invs (s : State) (x : Sys) : (s.setSys x).invs = s.invs := rfl
@[simp] theorem State.setSys_cairns (s : State) (x : Sys) : (s.setSys x).cairns = s.cairns := rfl
@[simp] theorem State.setSys_rounds (s : State) (x : Sys) : (s.setSys x).rounds = s.rounds := rfl
@[simp] theorem State.setSys_mons (s : State) (x : Sys) : (s.setSys x).mons = s.mons := rfl
@[simp] theorem State.setSys_sys (s : State) (x : Sys) : (s.setSys x).sys = x := rfl

end Sys2Proof.Machine
end

