-- ==== Sys2Proof/Laws/Word.lean ====
section
/-! SUPPORT. What the issue and the end of a word leave. -/

namespace Sys2Proof.Machine

theorem modNth_modNth {β : Type} (l : List β) (i : Nat) (f g : β → β) :
    modNth (modNth l i f) i g = modNth l i fun x => g (f x) := by
  induction l generalizing i with
  | nil => rfl
  | cons h t ih => cases i with
    | zero => rfl
    | succ n => simp [modNth, ih]

theorem amMod_amMod {β : Type} (m : AMap β) (k : Nat) (f g : β → β) :
    amMod (amMod m k f) k g = amMod m k fun x => g (f x) := by
  simp only [amMod, List.map_map]
  apply List.map_congr_left
  intro e _
  by_cases h : e.1 = k <;> simp [h]

/-- Two changes of one group are one. -/
theorem modGroup_modGroup (s : State) (g : GRef) (f h : Group → Group) :
    (s.modGroup g f).modGroup g h = s.modGroup g fun x => h (f x) := by
  simp only [State.modGroup, State.modTeam, State.setTeams_teams, amMod_amMod, modNth_modNth]
  rfl

/-- A body that raises nothing: every active lane's PC advances. -/
theorem finish_done (w : Wd) (t : State) : finish w (Res.done t) = afterWord w t := by
  simp [finish, Res.done, advance, afterWord, stepped, amGet]

/-- A word whose issue runs its body. -/
theorem runWord_run {i : Instr} {body : Wd → Res} {s : State} {w : Wd} (h : Issues i s w) :
    runWord i body s = .next (finish w (body w)) := by
  simp only [Issues] at h
  simp [runWord, h]

/-- A word that does `f` in each acting lane. -/
theorem finish_lanes (w : Wd) (f : Nat → Thread → Thread) :
    finish w (Res.done (w.s.modLanes w.g w.acting f)) = afterLanes w f := by
  rw [finish_done, afterWord, State.modLanes, State.modLanes, modGroup_modGroup, afterLanes]
  congr 1
  funext gr
  simp only [Group.modLanes, afterGroup, List.mapIdx_mapIdx]
  rfl

/-- A compute word of either form. -/
theorem finish_alu (w : Wd) (fm : AluForm) (op : AluIn → AluOut) (h : w.acting ≠ []) :
    finish w (aluBody fm op w) = computed fm op w := by
  unfold aluBody computed
  split
  · split
    · contradiction
    · rename_i l ls hl
      rw [finish_done, afterWord, State.modLanes, State.modLanes, modGroup_modGroup, modGroup_modGroup]
      simp only [leader, hl, List.head?_cons, Option.bind_some]
      congr 1
      funext gr
      simp only [Group.modLanes, afterGroup, List.mapIdx_mapIdx, hl]
      rfl
  · rw [finish_lanes]
    rfl

/-- A word that issues has a lane that acts. -/
theorem Issues.acting {i : Instr} {s : State} {w : Wd} (h : Issues i s w) : w.acting ≠ [] := by
  unfold Issues prepare at h
  split at h
  · cases h
  · split at h
    · dsimp only at h
      repeat' (split at h)
      all_goals first
        | (cases h; assumption)
        | cases h
    · cases h

/-- A register-layout compute word. -/
theorem runAlu_computes {i : Instr} {sp : RegSpec} {f : RegF} (hi : regInfo i = some (sp, f)) (op : AluIn → AluOut) {s : State} {w : Wd}
    (h : Issues i s w) : runAlu i op s = .next (computed (formOf i) op w) := by
  simp only [runAlu, hi, formOf]
  rw [runWord_run h, finish_alu _ _ _ h.acting]

/-- An immediate-layout compute word. -/
theorem runAluImm_computes {i : Instr} (f : ImmF) (imm : Nat) (op : AluIn → AluOut) {s : State} {w : Wd} (h : Issues i s w) :
    runAluImm i f imm op s = .next (computed (immForm f imm) op w) := by
  rw [runAluImm, runWord_run h, finish_alu _ _ _ h.acting]

/-- The threads of a word park at it. -/
theorem finish_parked (w : Wd) (s : State) (p : Park) :
    finish w { Res.done (s.modLanes w.g w.acting fun _ t => { t with park := some p }) with stay := w.acting } = parked w p s := by
  simp only [finish, Res.done, advance, parked, Option.map_none, Option.getD_none, List.any_nil, Bool.or_self, Bool.false_eq_true,
    if_false, amGet, Bool.not_false, Bool.and_true]
  rw [State.modLanes, State.modLanes, modGroup_modGroup]
  congr 1
  funext gr
  simp only [Group.modLanes, eachLane, List.mapIdx_mapIdx]
  congr 1
  apply List.ext_getElem?
  intro n
  simp only [List.getElem?_mapIdx]
  congr 1
  funext t
  by_cases h : w.acting.contains n <;> by_cases k : w.active.contains n <;>
    simp_all [List.contains_eq_mem, List.mem_filter, stepped]

/-- A whole-word trap, no lane that raises it being in a logged transaction. -/
theorem finish_trap (w : Wd) (s : State) (cause sub : Nat) (addr : W64) (ls : List Nat) (hc : cause ≠ 0)
    (h : ls = [] ∨ ∃ l ∈ ls, w.s.inLogged w.g l = false) :
    finish w (Res.trap s cause sub addr ls) = raiseTrap s w.g ⟨cause, sub, addr, w.pc, maskOf w.active, 0⟩ := by
  have : ¬(ls ≠ [] ∧ ls.all (fun l => w.s.inLogged w.g l) = true) := by
    rintro ⟨h1, h2⟩
    rcases h with rfl | ⟨l, hl, hf⟩
    · exact h1 rfl
    · rw [List.all_eq_true] at h2
      have := h2 l hl
      simp [hf] at this
  unfold finish Res.trap
  simp only [Option.map_some, Option.getD_some, List.any_nil, Bool.or_false, beq_iff_eq, hc, if_false]
  exact if_neg this

/-- A precise trap taken at once. -/
theorem raiseTrap_takes {s t : State} {g : GRef} {r : TrapRec} (h : Takes s g r.info t) : raiseTrap s g r = t := by
  obtain ⟨team, gr, c, s1, h1, h2, h3, h4, h5, h6, h7, h8, h9, rfl⟩ := h
  have ready : entryReady s g = true := by simp [entryReady, h1, h4, h5, h6]
  simp [raiseTrap, takeTrap, ready, h1, h2, h3, h7, h8, h9]

end Sys2Proof.Machine
end

