-- ==== Sys2Proof/Laws/Access.lean ====
section
/-! SUPPORT. What an access of a word leaves when it neither traps, aborts nor waits. -/

namespace Sys2Proof.Machine

/-- A lane outside logged transactions holds at most an irrevocable one. -/
theorem tx_irrevocable {s : State} {g : GRef} {l : Nat} (h : s.inLogged g l = false) :
    ∀ x, (s.lane? g l).bind Thread.tx = some x → x.mode = .irrevocable := by
  intro x hx
  simp only [State.inLogged] at h
  cases hl : s.lane? g l with
  | none => simp [hl] at hx
  | some t =>
    simp only [hl, Option.bind_some] at hx
    simp only [hl, Option.map_some, Option.getD_some, Thread.logged, Thread.inTx, Thread.irrev, hx] at h
    simpa using h

/-- Outside logged transactions a word's access is the plain access (R301). -/
theorem anyAccess_plain {w : Wd} {q : Req} {s : State} (h : s.inLogged w.g q.lane = false) : anyAccess w q s = memAccess w q s := by
  unfold anyAccess
  split
  · rename_i x hx
    rw [if_pos (tx_irrevocable h x hx)]
  · rfl

/-- An access that is no store or atomic to the host or a peer is not sent there. -/
theorem not_sent {va : Nat} {k : AccKind} (h : va / 2 ^ 60 ≤ 8 ∨ isLoad k = true) :
    ¬((va / 2 ^ 60 = 9 ∨ va / 2 ^ 60 = 10) ∧ (!isLoad k) = true) := by
  rintro ⟨a, b⟩
  rcases h with h | h
  · omega
  · simp [h] at b

/-- An access in a view, its lines present and sound (R174, R224, R329). -/
theorem memAccess_view {w : Wd} {q : Req} {s : State} {t : Team} {off : Nat} (h1 : q.va.toNat % q.n = 0)
    (h2 : viewOf w.t q.va.toNat = some off) (h3 : (acquired w q s).team? w.g.team = some t) (h4 : linesPresent t off q.n = true)
    (h5 : (acquired w q s).errs.scratch.contains (w.g.team, off / 128) = false) :
    memAccess w q s = .ok (performAt (.view w.g.team off) (acquired w q s) w.g q.lane q.kind) := by
  have e : (if Order.acqs q.order && wide q.scope then l1Clear s w.t.core else s) = acquired w q s := rfl
  simp only [memAccess, e, h1, h2, ne_eq, not_true, if_false, viewAccess, h3, h4, h5, Bool.not_true, Bool.false_eq_true]

/-- An access that reaches its home or the L1, once its page is found (R226, R264, R274). -/
theorem memAccess_found {w : Wd} {q : Req} {s s1 : State} {key e : Nat} (h1 : q.va.toNat % q.n = 0)
    (h2 : viewOf w.t q.va.toNat = none) (h3 : q.va.toNat / 2 ^ 60 ≤ 8 ∨ isLoad q.kind = true) (h4 : olderThere w q s = none)
    (h5 : xlate (acquired w q s) w.t.core w.gr.ctl.asid.toNat w.gr.ctl.priv (needOf q.kind) q.va.toNat = (.ok key e, s1)) :
    memAccess w q s = match amGet (s1.core w.t.core).l1 (sectorOf key) with
      | some line => if (accessOf w q key e).l1 && !olderTo s1 (accessOf w q key e) then
            if line.bad then .bad (logCoreError s1 w.t.core (accessOf w q key e).asid.toNat) cDATA_ERROR 0 q.va
            else .ok (l1Hit s1 (accessOf w q key e) line.data)
          else submit (w.defer && q.va.toNat / 2 ^ 60 ≤ 8) s1 (accessOf w q key e)
      | none => submit (w.defer && q.va.toNat / 2 ^ 60 ≤ 8) s1 (accessOf w q key e) := by
  have a : (if Order.acqs q.order && wide q.scope then l1Clear s w.t.core else s) = acquired w q s := rfl
  simp only [memAccess, a, h1, h2, ne_eq, not_true, if_false]
  rw [if_neg (not_sent h3)]
  rw [olderThere] at h4
  rw [h4]
  dsimp only
  rw [h5]
  all_goals rfl

/-- An access that does not use what the L1 holds goes to its home. -/
theorem memAccess_submits {w : Wd} {q : Req} {s s1 : State} {key e : Nat} (h1 : q.va.toNat % q.n = 0)
    (h2 : viewOf w.t q.va.toNat = none) (h3 : q.va.toNat / 2 ^ 60 ≤ 8 ∨ isLoad q.kind = true) (h4 : olderThere w q s = none)
    (h5 : xlate (acquired w q s) w.t.core w.gr.ctl.asid.toNat w.gr.ctl.priv (needOf q.kind) q.va.toNat = (.ok key e, s1))
    (h6 : amGet (s1.core w.t.core).l1 (sectorOf key) = none ∨ ((accessOf w q key e).l1 && !olderTo s1 (accessOf w q key e)) = false) :
    memAccess w q s = submit (w.defer && q.va.toNat / 2 ^ 60 ≤ 8) s1 (accessOf w q key e) := by
  rw [memAccess_found h1 h2 h3 h4 h5]
  rcases h6 with h | h
  · rw [h]
  · split
    · rw [if_neg (by simp [h])]
    · rfl

/-- An access of a home performed at once (R264, R274). -/
theorem memAccess_home {w : Wd} {q : Req} {s s1 u : State} {key e : Nat} (h1 : q.va.toNat % q.n = 0)
    (h2 : viewOf w.t q.va.toNat = none) (h3 : q.va.toNat / 2 ^ 60 ≤ 8 ∨ isLoad q.kind = true) (h4 : olderThere w q s = none)
    (h5 : xlate (acquired w q s) w.t.core w.gr.ctl.asid.toNat w.gr.ctl.priv (needOf q.kind) q.va.toNat = (.ok key e, s1))
    (h6 : amGet (s1.core w.t.core).l1 (sectorOf key) = none ∨ (accessOf w q key e).l1 = false)
    (h7 : w.defer = false ∨ 8 < q.va.toNat / 2 ^ 60)
    (h8 : olderTo s1 (accessOf w q key e) = false) (h9 : heldUp s1 key e = false) (h10 : inError s1 key = false)
    (h11 : performAccess s1 (accessOf w q key e) = some u) : memAccess w q s = .ok u := by
  rw [memAccess_submits h1 h2 h3 h4 h5 (h6.imp_right fun h => by simp [h])]
  have late : (w.defer && decide (q.va.toNat / 2 ^ 60 ≤ 8)) = false := by
    rcases h7 with h | h
    · simp [h]
    · rw [decide_eq_false (Nat.not_le.2 h)]; simp
  have k1 : (accessOf w q key e).key = key := rfl
  have k2 : (accessOf w q key e).e = e := rfl
  simp only [submit, k1, k2, h8, h9, h10, late, h11, Bool.false_and, Bool.or_false, Bool.false_eq_true, if_false]

/-- An access left outstanding (R243, R289, R294, R327). -/
theorem memAccess_queued {w : Wd} {q : Req} {s u : State} (h : Queued w q s u) : memAccess w q s = .ok u := by
  obtain ⟨-, ⟨h1, h2, h3⟩, h4, key, e, s1, h5, h6, h7, rfl⟩ := h
  have k1 : (accessOf w q key e).key = key := rfl
  have k2 : (accessOf w q key e).e = e := rfl
  have k3 : (accessOf w q key e).kind = q.kind := rfl
  have out : (olderTo s1 (accessOf w q key e) || heldUp s1 key e ||
      (w.defer && decide (q.va.toNat / 2 ^ 60 ≤ 8))) = true := by
    rcases h7 with h | ⟨-, h | ⟨a, b⟩⟩
    · simp [h]
    · simp [h]
    · rw [a, decide_eq_true b]; simp
  rw [memAccess_submits h1 h2 h4 h3 h5]
  · simp only [submit, k1, k2, k3, h6, Bool.false_eq_true, if_false]
    rw [if_pos out]
    rfl
  · rcases h7 with h | ⟨h | h, -⟩
    · right; simp [h]
    · left; exact h
    · right; simp [h]

/-- A load of a page that is not resident (R265). -/
theorem memAccess_absent {w : Wd} {q : Req} {s u : State} (h : DoesAbsent w q s u) : memAccess w q s = .ok u := by
  obtain ⟨-, ⟨h1, h2, h3⟩, d, x, sz, pd, s1, h4, h5, rfl⟩ := h
  have a : (if Order.acqs q.order && wide q.scope then l1Clear s w.t.core else s) = acquired w q s := rfl
  rw [olderThere] at h3
  simp only [memAccess, a, h1, h2, ne_eq, not_true, if_false, h4, isLoad, Bool.not_true, Bool.false_eq_true, and_false, h3, needOf, h5]

/-- A store, or an atomic without a reply, sent to the host or a peer (R437). -/
theorem memAccess_sent {w : Wd} {q : Req} {s u : State} (h : Sent w q s u) : memAccess w q s = .ok u := by
  obtain ⟨-, h1, h2, h3, h4, h5, h6, gr, h7, h8, rfl⟩ := h
  have away : (q.va.toNat / 2 ^ 60 = 9 ∨ q.va.toNat / 2 ^ 60 = 10) ∧ (!isLoad q.kind) = true :=
    ⟨h3.imp And.left And.left, by simp [h4]⟩
  have n1 : ¬(q.va.toNat / 2 ^ 60 = 10 ∧ s.sys.stage < 4) := by rcases h3 with h | h <;> omega
  have n2 : ¬(q.va.toNat / 2 ^ 60 = 10 ∧ peerOf q.va.toNat = s.sys.device) := by
    rcases h3 with h | h
    · omega
    · exact fun x => h.2.2 x.2
  have n3 : ¬(q.va.toNat / 2 ^ 60 = 9 ∧ (!hostAtomic q.kind) = true) := by
    rcases h3 with h | h
    · simp [h.2]
    · omega
  have n4 : ¬(gr.rem.seq = w.gr.rem.seq ∧ 63 ≤ gr.rem.n) := fun x => by have := h8 x.1; omega
  have iss : (if gr.rem.seq = w.gr.rem.seq then (issueOp w s .remote 3 none).2 else s) = remIssued w gr.rem s := by
    rw [remIssued]
    split
    · simp only [issueOp, h7, Option.getD_some, State.newId]; rfl
    · rfl
  simp only [memAccess, h1, h2, ne_eq, not_true, if_false]
  rw [if_pos away, remoteAccess]
  simp only [h7, Option.map_some, Option.getD_some]
  rw [if_neg n1, if_neg n2, if_neg n3, if_neg n4]
  cases hk : q.kind with
  | load => simp [hk, isLoad] at h4
  | unit ps => exact absurd hk (h6 ps)
  | store bs => rw [if_neg (by simp), iss]; rfl
  | atom a b c d e f =>
    have hd : d = false := by simpa [hk, returnsData] using h5
    subst hd
    rw [if_neg (by simp), iss]; rfl

/-- What an access does that neither traps, aborts nor waits (R227, R264, R274, R301, R437). -/
theorem anyAccess_passes {w : Wd} {q : Req} {s u : State} (h : Passes w q s u) : anyAccess w q s = .ok u := by
  rcases h with ⟨p, seen, h⟩ | h | h | h | h
  · cases h with
    | view t off h1 h2 h3 h4 h5 h6 h7 h8 => rw [anyAccess_plain h2, memAccess_view h1 h3 h4 h5 h6, h7]
    | hit key e line s1 h1 h2 h3 h4 h5 h6 h7 h8 h9 h10 h11 =>
      rw [anyAccess_plain h2, memAccess_found h1 h3 (.inr h4) h5 h6, h7]
      simp [h8, h9]
    | home key e s1 _ h1 h2 h3 h4 h5 h6 h7 h8 h9 h10 h11 h12 h13 h14 =>
      rw [anyAccess_plain h2, memAccess_home h1 h3 h4 h5 h6 h7 h8 h9 h10 h11 h14]
  · rw [anyAccess_plain h.1, memAccess_absent h]
  · rw [anyAccess_plain h.1, memAccess_queued h]
  · rw [anyAccess_plain h.1, memAccess_sent h]
  · obtain ⟨t, x, key, e, s1, h1, h2, h3, h4, h5, h6, h7, h8⟩ := h
    unfold anyAccess
    simp only [h1, Option.bind_some, h2, h3, if_false, txAccess, h4, h6]
    rw [if_neg (by simp; omega), if_neg (by simp), h7]
    exact h8

/-- A lane's access that passes leaves the word to go on. -/
theorem laneStep_ok (w : Wd) (s u : State) (l : Nat) : laneStep w (Res.done s) l (.ok u) = Res.done u := rfl

/-- Accesses that all pass, in lane order. -/
theorem lanes_run {f : Nat → State → LaneOut} {w : Wd} : ∀ (ls : List Nat) (s t : State),
    Runs (fun l s u => f l s = .ok u) ls s t →
    ls.foldl (fun (x : Res × Option Park × Bool) l =>
      (laneStep w x.1 l (f l x.1.st), x.2.1 <|> (f l x.1.st).absentLine, x.2.2 || (f l x.1.st).waits)) (Res.done s, none, false) =
      (Res.done t, none, false) := by
  intro ls
  induction ls with
  | nil => intro s t h; simp only [Runs] at h; subst h; rfl
  | cons a ls ih =>
    intro s t h
    obtain ⟨u, h1, h2⟩ := h
    have e : (Res.done s).st = s := rfl
    simp only [List.foldl_cons, e, h1, laneStep_ok, LaneOut.absentLine, LaneOut.waits]
    exact ih u t h2

/-- A word's lanes, when the accesses of all of them pass, leave the last one's state (R224). -/
theorem laneLoop_runs {f : Nat → State → LaneOut} {w : Wd} {t : State} (h : Runs (fun l s u => f l s = .ok u) w.acting w.s t) :
    laneLoop f w = Res.done t := by
  simp only [laneLoop, lanes_run _ _ _ h, Bool.false_and, Bool.false_eq_true, if_false]

/-- A chain of steps under a weaker relation. -/
theorem runs_mono {p q : Nat → State → State → Prop} (h : ∀ l s u, p l s u → q l s u) : ∀ ls s t, Runs p ls s t → Runs q ls s t := by
  intro ls
  induction ls with
  | nil => intro s t x; exact x
  | cons a ls ih => rintro s t ⟨u, a, b⟩; exact ⟨u, h _ _ _ a, ih _ _ b⟩

/-- A word's accesses, when all of them pass, leave the last one's state (R224). -/
theorem accesses_runs {m : MemF} {f : Nat → State → LaneOut} {w : Wd} {t : State} (h : Runs (fun l s u => f l s = .ok u) (unitsOf m w) w.s t) :
    accesses m f w = Res.done t := by
  unfold accesses unitsOf at *
  split
  · rename_i hx
    rw [if_pos hx] at h
    obtain ⟨u, h1, h2⟩ := h
    simp only [Runs] at h2
    subst h2
    simp only [scalarOnce, h1]
  · rename_i hx
    rw [if_neg hx] at h
    exact laneLoop_runs h

end Sys2Proof.Machine
end

