-- ==== Sys2Proof/Laws/Encode.lean ====
section
/-! SUPPORT. What the decoder reads back from an encoded word, layout by layout. -/

set_option linter.unusedSimpArgs false

namespace Sys2Proof

/-- Bits above the lower part of a concatenation come from its upper part. -/
theorem bits_append_hi {m n : Nat} (x : BitVec m) (y : BitVec n) (lo len : Nat) (h : n ≤ lo) :
    (x ++ y).extractLsb' lo len = x.extractLsb' (lo - n) len := by
  ext i hi
  have h1 : ¬ lo + i < n := by omega
  have h2 : lo + i - n = lo - n + i := by omega
  simp [BitVec.getLsbD_append, h1, h2]

/-- Bits within the lower part of a concatenation come from it. -/
theorem bits_append_lo {m n : Nat} (x : BitVec m) (y : BitVec n) (lo len : Nat) (h : lo + len ≤ n) :
    (x ++ y).extractLsb' lo len = y.extractLsb' lo len := by
  ext i hi
  have h1 : lo + i < n := by omega
  simp [BitVec.getLsbD_append, h1]

/-- All the bits of a word are the word. -/
theorem bits_all {n : Nat} (x : BitVec n) : x.extractLsb' 0 n = x := by
  ext i hi
  simp

/-- The truth value that one bit holds. -/
theorem b1_test (b : Bool) : (b1 b == 1#1) = b := by cases b <;> rfl

theorem ty_code (t : Ty) : Ty.ofCode t.code.toNat = some t := by cases t <;> rfl
theorem rnd_code (t : Rnd) : Rnd.ofCode t.code.toNat = some t := by cases t <;> rfl
theorem order_code (t : Order) : Order.ofCode t.code.toNat = t := by cases t <;> rfl
theorem scope_code (t : Scope) : Scope.ofCode t.code.toNat = some t := by cases t <;> rfl
theorem sz_code (t : Sz) : Sz.ofCode t.code.toNat = t := by cases t <;> rfl
theorem evp_code (t : Evp) : Evp.ofCode t.code.toNat = t := by cases t <;> rfl
theorem etype_code (t : EType) : EType.ofCode t.code.toNat = some t := by cases t <;> rfl
theorem atype_code (t : AType) : AType.ofCode t.code.toNat = t := by cases t <;> rfl
theorem aop_code (t : AOp) : AOp.ofCode t.code.toNat = t := by cases t <;> rfl
theorem hop_code (t : Hop) : Hop.ofCode t.code.toNat = some t := by cases t <;> rfl

/-! Any full-form word: its P bit and its major. -/

theorem full_p (major : BitVec 7) (x : Bool) (g : Guard) (r : BitVec 51) : bitOf (full major x g r) 63 = false := by
  simp (disch := decide) only [full, Guard.enc, bitOf, bits_append_hi, bits_append_lo, bits_all]
  simp only [Nat.reduceSub, Nat.reduceAdd, bits_all, b1_test, ty_code, rnd_code, order_code, scope_code, sz_code, evp_code,
    etype_code, atype_code, aop_code, Option.map_some]
  rfl

theorem full_major (major : BitVec 7) (x : Bool) (g : Guard) (r : BitVec 51) : bitsOf (full major x g r) 56 7 = major := by
  simp (disch := decide) only [full, Guard.enc, bitsOf, bits_append_hi, bits_append_lo, bits_all]
  simp only [Nat.reduceSub, Nat.reduceAdd, bits_all, b1_test, ty_code, rnd_code, order_code, scope_code, sz_code, evp_code,
    etype_code, atype_code, aop_code, Option.map_some]

/-! The fields of each layout. -/

theorem reg_read (major : BitVec 7) (f : RegF) : regOfWord (encReg major f) = some f := by
  simp (disch := decide) only [regOfWord, encReg, full, guardOf, Guard.enc, bitsOf, bitOf, bits_append_hi, bits_append_lo, bits_all, b1_test, ty_code, rnd_code]
  simp only [Nat.reduceSub, Nat.reduceAdd, bits_all, b1_test, ty_code, rnd_code, order_code, scope_code, sz_code, evp_code,
    etype_code, atype_code, aop_code, Option.map_some]

theorem imm_read (major : BitVec 7) (sub : BitVec 4) (f : ImmF) : immOfWord (encImm major sub f) = some f := by
  simp (disch := decide) only [immOfWord, encImm, full, guardOf, Guard.enc, bitsOf, bitOf, bits_append_hi, bits_append_lo, bits_all, b1_test, ty_code]
  simp only [Nat.reduceSub, Nat.reduceAdd, bits_all, b1_test, ty_code, rnd_code, order_code, scope_code, sz_code, evp_code,
    etype_code, atype_code, aop_code, Option.map_some]

theorem imm_sub (major : BitVec 7) (sub : BitVec 4) (f : ImmF) : bitsOf (encImm major sub f) 2 4 = sub := by
  simp (disch := decide) only [encImm, full, Guard.enc, bitsOf, bits_append_hi, bits_append_lo,
    bits_all]
  simp only [Nat.reduceSub, Nat.reduceAdd, bits_all, b1_test, ty_code, rnd_code, order_code, scope_code, sz_code, evp_code,
    etype_code, atype_code, aop_code, Option.map_some]

theorem wide_read (major : BitVec 7) (f : WideF) : wideOfWord (encWide major f) = f := by
  simp (disch := decide) only [wideOfWord, encWide, full, guardOf, Guard.enc, bitsOf, bitOf, bits_append_hi, bits_append_lo, bits_all, b1_test]
  simp only [Nat.reduceSub, Nat.reduceAdd, bits_all, b1_test, ty_code, rnd_code, order_code, scope_code, sz_code, evp_code,
    etype_code, atype_code, aop_code, Option.map_some]

theorem br_read (major : BitVec 7) (f : BrF) : brOfWord (encBr major f) = f := by
  simp (disch := decide) only [brOfWord, encBr, full, guardOf, Guard.enc, bitsOf, bitOf, bits_append_hi, bits_append_lo, bits_all, b1_test]
  simp only [Nat.reduceSub, Nat.reduceAdd, bits_all, b1_test, ty_code, rnd_code, order_code, scope_code, sz_code, evp_code,
    etype_code, atype_code, aop_code, Option.map_some]

theorem tgt_read (major : BitVec 7) (f : TgtF) : tgtOfWord (encTgt major f) = f := by
  simp (disch := decide) only [tgtOfWord, encTgt, full, guardOf, Guard.enc, bitsOf, bitOf, bits_append_hi, bits_append_lo, bits_all, b1_test]
  simp only [Nat.reduceSub, Nat.reduceAdd, bits_all, b1_test, ty_code, rnd_code, order_code, scope_code, sz_code, evp_code,
    etype_code, atype_code, aop_code, Option.map_some]

theorem guard_read (major : BitVec 7) (g : Guard) : guardOf (encPlain major g) = g := by
  simp (disch := decide) only [encPlain, full, guardOf, Guard.enc, bitsOf, bitOf, bits_append_hi, bits_append_lo, bits_all, b1_test]
  simp only [Nat.reduceSub, Nat.reduceAdd, bits_all, b1_test, ty_code, rnd_code, order_code, scope_code, sz_code, evp_code,
    etype_code, atype_code, aop_code, Option.map_some]

theorem code_read (major : BitVec 7) (f : CodeF) : codeOfWord (encCode major f) = f := by
  simp (disch := decide) only [codeOfWord, encCode, full, guardOf, Guard.enc, bitsOf, bitOf, bits_append_hi, bits_append_lo, bits_all, b1_test]
  simp only [Nat.reduceSub, Nat.reduceAdd, bits_all, b1_test, ty_code, rnd_code, order_code, scope_code, sz_code, evp_code,
    etype_code, atype_code, aop_code, Option.map_some]

theorem mem_read (major : BitVec 7) (m : MemF) (k : BitVec 11) : memOfWord (encMem major m k) = m := by
  simp (disch := decide) only [memOfWord, encMem, full, guardOf, Guard.enc, bitsOf, bitOf, bits_append_hi, bits_append_lo, bits_all, b1_test]
  simp only [Nat.reduceSub, Nat.reduceAdd, bits_all, b1_test, ty_code, rnd_code, order_code, scope_code, sz_code, evp_code,
    etype_code, atype_code, aop_code, Option.map_some]

theorem ls_read (major : BitVec 7) (m : MemF) (k : LsMod) : lsOfWord (encMem major m k.enc) = some k := by
  simp (disch := decide) only [lsOfWord, LsMod.enc, encMem, full, Guard.enc, bitsOf, bitOf, bits_append_hi, bits_append_lo, bits_all, b1_test, order_code, scope_code, sz_code, evp_code, Option.map_some]
  simp only [Nat.reduceSub, Nat.reduceAdd, bits_all, b1_test, ty_code, rnd_code, order_code, scope_code, sz_code, evp_code,
    etype_code, atype_code, aop_code, Option.map_some]

theorem ldr_read (major : BitVec 7) (m : MemF) (k : LdrMod) : ldrOfWord (encMem major m k.enc) = some k := by
  simp (disch := decide) only [ldrOfWord, LdrMod.enc, encMem, full, Guard.enc, bitsOf, bitOf, bits_append_hi, bits_append_lo, bits_all, b1_test, order_code, scope_code, sz_code, Option.map_some]
  simp only [Nat.reduceSub, Nat.reduceAdd, bits_all, b1_test, ty_code, rnd_code, order_code, scope_code, sz_code, evp_code,
    etype_code, atype_code, aop_code, Option.map_some]

theorem mx_read (major : BitVec 7) (m : MemF) (k : MxMod) : mxOfWord (encMem major m k.enc) = some k := by
  simp (disch := decide) only [mxOfWord, MxMod.enc, encMem, full, Guard.enc, bitsOf, bitOf, bits_append_hi, bits_append_lo, bits_all, b1_test, order_code, scope_code, etype_code]
  simp only [Nat.reduceSub, Nat.reduceAdd, bits_all, b1_test, ty_code, rnd_code, order_code, scope_code, sz_code, evp_code,
    etype_code, atype_code, aop_code, Option.map_some]

theorem at_read (major : BitVec 7) (m : MemF) (k : AtMod) : atOfWord (encMem major m k.enc) = some k := by
  simp (disch := decide) only [atOfWord, AtMod.enc, encMem, full, Guard.enc, bitsOf, bitOf, bits_append_hi, bits_append_lo, bits_all, b1_test, order_code, scope_code, atype_code, aop_code, Option.map_some]
  simp only [Nat.reduceSub, Nat.reduceAdd, bits_all, b1_test, ty_code, rnd_code, order_code, scope_code, sz_code, evp_code,
    etype_code, atype_code, aop_code, Option.map_some]

theorem fence_sub (major : BitVec 7) (m : MemF) (o : Order) (sc : Scope) : bitsOf (encMem major m (fenceMods o sc)) 9 2 = 0#2 := by
  simp (disch := decide) only [encMem, fenceMods, full, bitsOf, bits_append_hi, bits_append_lo]
  simp only [Nat.reduceSub, Nat.reduceAdd, bits_all, b1_test, ty_code, rnd_code, order_code, scope_code, sz_code, evp_code,
    etype_code, atype_code, aop_code, Option.map_some]
  rfl

theorem fence_order (major : BitVec 7) (m : MemF) (o : Order) (sc : Scope) : bitsOf (encMem major m (fenceMods o sc)) 6 2 = o.code := by
  simp (disch := decide) only [encMem, fenceMods, full, bitsOf, bits_append_hi, bits_append_lo,
    bits_all]
  simp only [Nat.reduceSub, Nat.reduceAdd, bits_all, b1_test, ty_code, rnd_code, order_code, scope_code, sz_code, evp_code,
    etype_code, atype_code, aop_code, Option.map_some]

theorem fence_scope (major : BitVec 7) (m : MemF) (o : Order) (sc : Scope) : bitsOf (encMem major m (fenceMods o sc)) 3 3 = sc.code := by
  simp (disch := decide) only [encMem, fenceMods, full, bitsOf, bits_append_hi, bits_append_lo,
    bits_all]
  simp only [Nat.reduceSub, Nat.reduceAdd, bits_all, b1_test, ty_code, rnd_code, order_code, scope_code, sz_code, evp_code,
    etype_code, atype_code, aop_code, Option.map_some]

theorem op_sub (major : BitVec 7) (m : MemF) (sub : BitVec 2) (op : BitVec 3) : bitsOf (encMem major m (opMods sub op)) 9 2 = sub := by
  simp (disch := decide) only [encMem, opMods, full, bitsOf, bits_append_hi, bits_append_lo,
    bits_all]
  simp only [Nat.reduceSub, Nat.reduceAdd, bits_all, b1_test, ty_code, rnd_code, order_code, scope_code, sz_code, evp_code,
    etype_code, atype_code, aop_code, Option.map_some]

theorem op_op (major : BitVec 7) (m : MemF) (sub : BitVec 2) (op : BitVec 3) : bitsOf (encMem major m (opMods sub op)) 0 3 = op := by
  simp (disch := decide) only [encMem, opMods, full, bitsOf, bits_append_hi, bits_append_lo,
    bits_all]

theorem eng_read (major : BitVec 7) (sub : BitVec 3) (f : EngF) : engOfWord (encEng major sub f) = f := by
  simp (disch := decide) only [engOfWord, encEng, full, guardOf, Guard.enc, bitsOf, bitOf, bits_append_hi, bits_append_lo, bits_all, b1_test]
  simp only [Nat.reduceSub, Nat.reduceAdd, bits_all, b1_test, ty_code, rnd_code, order_code, scope_code, sz_code, evp_code,
    etype_code, atype_code, aop_code, Option.map_some]

theorem eng_sub (major : BitVec 7) (sub : BitVec 3) (f : EngF) : bitsOf (encEng major sub f) 16 3 = sub := by
  simp (disch := decide) only [encEng, full, bitsOf, bits_append_hi, bits_append_lo, bits_all]
  simp only [Nat.reduceSub, Nat.reduceAdd, bits_all, b1_test, ty_code, rnd_code, order_code, scope_code, sz_code, evp_code,
    etype_code, atype_code, aop_code, Option.map_some]

theorem sys_read (sub : BitVec 3) (f : SysF) : sysOfWord (encSys sub f) = f := by
  simp (disch := decide) only [sysOfWord, encSys, full, guardOf, Guard.enc, bitsOf, bitOf, bits_append_hi, bits_append_lo, bits_all, b1_test]
  simp only [Nat.reduceSub, Nat.reduceAdd, bits_all, b1_test, ty_code, rnd_code, order_code, scope_code, sz_code, evp_code,
    etype_code, atype_code, aop_code, Option.map_some]

theorem sys_sub (sub : BitVec 3) (f : SysF) : bitsOf (encSys sub f) 24 3 = sub := by
  simp (disch := decide) only [encSys, full, bitsOf, bits_append_hi, bits_append_lo, bits_all]
  simp only [Nat.reduceSub, Nat.reduceAdd, bits_all, b1_test, ty_code, rnd_code, order_code, scope_code, sz_code, evp_code,
    etype_code, atype_code, aop_code, Option.map_some]

/-- A half-op is read back (R28). -/
theorem half_read (h : Half) : halfOfBits h.enc = some h := by
  obtain ⟨hop, d, src⟩ := h
  cases src
  all_goals simp (disch := decide) only [halfOfBits, Half.enc, bits_append_hi, bits_append_lo, hop_code, Option.map_some]
  all_goals simp only [Nat.reduceSub, Nat.reduceAdd, bits_all, hop_code, Option.map_some]
  all_goals rfl

theorem pair_p (u l : Half) : bitOf (encode (.pair u l)) 63 = true := by
  simp (disch := decide) only [encode, bitOf, bits_append_hi, bits_append_lo]
  simp only [Nat.reduceSub, Nat.reduceAdd, bits_all, b1_test, ty_code, rnd_code, order_code, scope_code, sz_code, evp_code,
    etype_code, atype_code, aop_code, Option.map_some]
  rfl

theorem pair_upper (u l : Half) : bitsOf (encode (.pair u l)) 31 31 = u.enc := by
  simp (disch := decide) only [encode, bitsOf, bits_append_hi, bits_append_lo, bits_all]
  simp only [Nat.reduceSub, Nat.reduceAdd, bits_all, b1_test, ty_code, rnd_code, order_code, scope_code, sz_code, evp_code,
    etype_code, atype_code, aop_code, Option.map_some]

theorem pair_lower (u l : Half) : bitsOf (encode (.pair u l)) 0 31 = l.enc := by
  simp (disch := decide) only [encode, bitsOf, bits_append_hi, bits_append_lo, bits_all]

/-! From the fields to the instruction. -/

/-- A full-form word whose raw instruction is well-formed decodes to it. -/
theorem decode_full {i : Instr} {major : BitVec 7} {x : Bool} {g : Guard} {r : BitVec 51} (he : encode i = full major x g r)
    (ha : majorAssigned major.toNat = true) (hr : rawFull (full major x g r) = some i) (hw : i.wf = true) :
    decode (encode i) = .ok i := by
  rw [he]
  simp [decode, full_p, full_major, ha, hr, hw, he]

/-- The raw instruction of a register-layout word. -/
theorem raw_reg (major : BitVec 7) (f : RegF) (h : 9 < major.toNat ∧ major.toNat ≠ 0x2E ∧ major.toNat ≠ 0x45 ∧ major.toNat ≠ 0x59 ∧
    major.toNat ≠ 0x5A ∧ major.toNat ≠ 0x7E ∧ ¬(0x60 ≤ major.toNat ∧ major.toNat ≤ 0x6B) ∧
    ¬(0x78 ≤ major.toNat ∧ major.toNat ≤ 0x7D)) : rawFull (encReg major f) = regInstr major.toNat f := by
  have hm : bitsOf (encReg major f) 56 7 = major := full_major ..
  obtain ⟨h0, h1, h2, h3, h4, h5, h6, h7⟩ := h
  unfold rawFull
  simp only [hm]
  split
  all_goals first
    | (exfalso; omega)
    | simp [h1, h2, h6, h7, reg_read]

/-- The raw instruction of an immediate-layout word. -/
theorem raw_imm (major : BitVec 7) (sub : BitVec 4) (f : ImmF) (h : major = 0x2E ∨ major = 0x45) :
    rawFull (encImm major sub f) = immInstr major.toNat sub.toNat f := by
  have hm : bitsOf (encImm major sub f) 56 7 = major := full_major ..
  have h' : major.toNat = 0x2E ∨ major.toNat = 0x45 := by rcases h with rfl | rfl <;> simp
  unfold rawFull
  simp only [hm]
  split
  all_goals first
    | (exfalso; omega)
    | simp [h', imm_read, imm_sub]

/-- The raw instruction of a memory-layout word. -/
theorem raw_mem (major : BitVec 7) (m : MemF) (k : BitVec 11) (h : 0x60 ≤ major.toNat ∧ major.toNat ≤ 0x6B) :
    rawFull (encMem major m k) = memInstr major.toNat (encMem major m k) := by
  have hm : bitsOf (encMem major m k) 56 7 = major := full_major ..
  unfold rawFull
  simp only [hm]
  split
  all_goals first
    | (exfalso; omega)
    | simp [h, show ¬(major.toNat = 0x2E ∨ major.toNat = 0x45) by omega]

/-- The raw instruction of an engine-layout word. -/
theorem raw_eng (major : BitVec 7) (sub : BitVec 3) (f : EngF) (h : 0x78 ≤ major.toNat ∧ major.toNat ≤ 0x7D) :
    rawFull (encEng major sub f) = engInstr major.toNat sub.toNat f := by
  have hm : bitsOf (encEng major sub f) 56 7 = major := full_major ..
  unfold rawFull
  simp only [hm]
  split
  all_goals first
    | (exfalso; omega)
    | simp [h, show ¬(major.toNat = 0x2E ∨ major.toNat = 0x45) by omega,
        show ¬(0x60 ≤ major.toNat ∧ major.toNat ≤ 0x6B) by omega, eng_read, eng_sub]

/-- The raw instruction of a system-layout word. -/
theorem raw_sys (sub : BitVec 3) (f : SysF) : rawFull (encSys sub f) = sysInstr sub.toNat f := by
  have hm : bitsOf (encSys sub f) 56 7 = 0x7E := full_major ..
  simp [rawFull, hm, sys_read, sys_sub]

/-- A register-layout word whose instruction passes the checks decodes to it. -/
theorem decode_reg {i : Instr} (major : BitVec 7) (f : RegF) (he : encode i = encReg major f)
    (ha : majorAssigned major.toNat = true)
    (hm : 9 < major.toNat ∧ major.toNat ≠ 0x2E ∧ major.toNat ≠ 0x45 ∧ major.toNat ≠ 0x59 ∧ major.toNat ≠ 0x5A ∧
      major.toNat ≠ 0x7E ∧ ¬(0x60 ≤ major.toNat ∧ major.toNat ≤ 0x6B) ∧ ¬(0x78 ≤ major.toNat ∧ major.toNat ≤ 0x7D))
    (hr : regInstr major.toNat f = some i) (hw : i.wf = true) : decode (encode i) = .ok i :=
  decode_full he ha ((raw_reg major f hm).trans hr) hw

/-- OP is among those of a well-formed register-layout word's form. -/
theorem regOk_op {s : RegSpec} {f : RegF} (h : regOk s f = true) : s.ops.contains f.op.toNat = true := by
  simp only [regOk, Bool.and_eq_true] at h
  tauto

/-- SAT is as a well-formed register-layout word's form asks. -/
theorem regOk_sat {s : RegSpec} {f : RegF} (h : regOk s f = true) : useOk s.sat f.sat = true := by
  simp only [regOk, Bool.and_eq_true] at h
  tauto

end Sys2Proof
end

