-- ==== Sys2Proof/Laws/Memory.lean ====
section
/-! SUPPORT. Laws of sparse maps and of byte memory: what a read finds after a write, and that every operation keeps the canonical form. -/

namespace Sys2Proof.Machine

/-! ### Sparse maps -/

@[simp] theorem amGet_nil {β : Type} (k : Nat) : amGet ([] : AMap β) k = none := rfl

theorem amGet_amPut {β : Type} (m : AMap β) (k q : Nat) (x : β) : amGet (amPut m k x) q = if q = k then some x else amGet m q := by
  induction m with
  | nil => rfl
  | cons e t ih =>
    obtain ⟨j, v⟩ := e
    simp only [amPut]
    split
    · subst_vars
      simp only [amGet]
      split <;> simp_all
    · split
      · rfl
      · simp only [amGet]
        rw [ih]
        split
        · subst_vars
          rw [if_neg (by omega)]
        · rfl

@[simp] theorem amGet_amPut_same {β : Type} (m : AMap β) (k : Nat) (x : β) : amGet (amPut m k x) k = some x := by
  simp [amGet_amPut]

theorem amGet_amPut_other {β : Type} (m : AMap β) (k q : Nat) (x : β) (h : q ≠ k) : amGet (amPut m k x) q = amGet m q := by
  simp [amGet_amPut, h]

/-- A filter that looks at keys only. -/
theorem amGet_filter {β : Type} (m : AMap β) (p : Nat → Bool) (q : Nat) :
    amGet (m.filter fun e => p e.1) q = if p q = true then amGet m q else none := by
  induction m with
  | nil => simp
  | cons e t ih =>
    obtain ⟨j, v⟩ := e
    simp only [List.filter_cons, amGet]
    by_cases hj : p j = true
    · simp only [hj, if_true, amGet, ih]
      by_cases hq : q = j
      · simp [hq, hj]
      · simp [hq]
    · simp only [hj, Bool.false_eq_true, if_false, ih]
      by_cases hq : q = j
      · simp [hq, hj]
      · simp [hq]

@[simp] theorem amGet_amDel_same {β : Type} (m : AMap β) (k : Nat) : amGet (amDel m k) k = none := by
  have := amGet_filter m (fun j => j != k) k
  simpa [amDel] using this

theorem amGet_amDel_other {β : Type} (m : AMap β) (k q : Nat) (h : q ≠ k) : amGet (amDel m k) q = amGet m q := by
  have := amGet_filter m (fun j => j != k) q
  simpa [amDel, h] using this

theorem amGet_amMod {β : Type} (m : AMap β) (k q : Nat) (f : β → β) :
    amGet (amMod m k f) q = if q = k then (amGet m q).map f else amGet m q := by
  induction m with
  | nil => simp [amMod]
  | cons e t ih =>
    obtain ⟨j, v⟩ := e
    simp only [amMod, List.map_cons] at ih ⊢
    by_cases hj : j = k
    · subst hj
      simp only [if_true, amGet]
      by_cases hq : q = j
      · simp [hq]
      · simp [hq, ih]
    · simp only [hj, if_false, amGet]
      by_cases hq : q = j
      · simp [hq, hj]
      · simp [hq, ih]

theorem amGet_append {β : Type} (a b : AMap β) (q : Nat) : amGet (a ++ b) q = (amGet a q).or (amGet b q) := by
  induction a with
  | nil => simp
  | cons e t ih =>
    obtain ⟨j, v⟩ := e
    simp only [List.cons_append, amGet]
    split <;> simp [ih]

/-! ### Rising keys -/

theorem risingFrom_mono {β : Type} {lo hi : Nat} {m : AMap β} (h : lo ≤ hi) (r : risingFrom hi m = true) : risingFrom lo m = true := by
  cases m with
  | nil => rfl
  | cons e t =>
    obtain ⟨j, v⟩ := e
    simp only [risingFrom, Bool.and_eq_true, decide_eq_true_eq] at r ⊢
    exact ⟨by omega, r.2⟩

theorem risingFrom_ge {β : Type} {lo : Nat} {m : AMap β} (r : risingFrom lo m = true) : ∀ e ∈ m, lo ≤ e.1 := by
  induction m generalizing lo with
  | nil => intro e he; cases he
  | cons x t ih =>
    obtain ⟨j, v⟩ := x
    simp only [risingFrom, Bool.and_eq_true, decide_eq_true_eq] at r
    intro e he
    rcases List.mem_cons.1 he with rfl | he
    · exact r.1
    · have := ih r.2 e he
      omega

/-- A filter keeps the order, and every key that is left may bound it. -/
theorem risingFrom_filter {β : Type} (p : Nat × β → Bool) {lo hi : Nat} {m : AMap β} (r : risingFrom lo m = true)
    (h : ∀ e ∈ m, p e = true → hi ≤ e.1) : risingFrom hi (m.filter p) = true := by
  induction m generalizing lo hi with
  | nil => rfl
  | cons e t ih =>
    obtain ⟨j, v⟩ := e
    simp only [risingFrom, Bool.and_eq_true, decide_eq_true_eq] at r
    simp only [List.filter_cons]
    split
    · rename_i hp
      simp only [risingFrom, Bool.and_eq_true, decide_eq_true_eq]
      refine ⟨h _ (List.mem_cons_self ..) hp, ?_⟩
      exact ih r.2 fun e he _ => by
        exact risingFrom_ge r.2 e he
    · exact ih r.2 fun e he hp => h e (List.mem_cons_of_mem _ he) hp

theorem risingFrom_append {β : Type} {lo hi : Nat} {a b : AMap β} (ha : risingFrom lo a = true) (h : ∀ e ∈ a, e.1 < hi)
    (hb : risingFrom hi b = true) (hl : lo ≤ hi) : risingFrom lo (a ++ b) = true := by
  induction a generalizing lo with
  | nil => exact risingFrom_mono hl hb
  | cons e t ih =>
    obtain ⟨j, v⟩ := e
    simp only [List.cons_append, risingFrom, Bool.and_eq_true, decide_eq_true_eq] at ha ⊢
    have hj := h _ (List.mem_cons_self ..)
    exact ⟨ha.1, ih ha.2 (fun e he => h e (List.mem_cons_of_mem _ he)) hj⟩

/-- Keys moved by a function that keeps their order. -/
theorem risingFrom_map {β : Type} (f : Nat → Nat) {lo hi : Nat} {m : AMap β} (r : risingFrom lo m = true)
    (hf : ∀ e ∈ m, hi ≤ f e.1) (mono : ∀ e ∈ m, ∀ d ∈ m, e.1 < d.1 → f e.1 < f d.1) :
    risingFrom hi (m.map fun e => (f e.1, e.2)) = true := by
  induction m generalizing lo hi with
  | nil => rfl
  | cons e t ih =>
    obtain ⟨j, v⟩ := e
    simp only [List.map_cons, risingFrom, Bool.and_eq_true, decide_eq_true_eq] at r ⊢
    refine ⟨hf _ (List.mem_cons_self ..), ih r.2 (fun d hd => ?_) fun e he d hd => mono e (List.mem_cons_of_mem _ he) d (List.mem_cons_of_mem _ hd)⟩
    have hlt : j < d.1 := by
      exact risingFrom_ge r.2 d hd
    exact mono _ (List.mem_cons_self ..) d (List.mem_cons_of_mem _ hd) hlt

/-- A map with rising keys keeps them when an entry is set. -/
theorem risingFrom_amPut {β : Type} {lo : Nat} {m : AMap β} (k : Nat) (x : β) (r : risingFrom lo m = true) (h : lo ≤ k) :
    risingFrom lo (amPut m k x) = true := by
  induction m generalizing lo with
  | nil => simp [amPut, risingFrom, h]
  | cons e t ih =>
    obtain ⟨j, v⟩ := e
    simp only [risingFrom, Bool.and_eq_true, decide_eq_true_eq] at r
    simp only [amPut]
    split
    · subst_vars
      simp [risingFrom, r.1, r.2]
    · split
      · simp only [risingFrom, Bool.and_eq_true, decide_eq_true_eq]
        exact ⟨h, by omega, r.2⟩
      · simp only [risingFrom, Bool.and_eq_true, decide_eq_true_eq]
        exact ⟨r.1, ih r.2 (by omega)⟩

/-! ### Byte memory -/

theorem cells_lt (a : Nat) (bs : List Byte) : ∀ e ∈ cells a bs, a ≤ e.1 ∧ e.1 < a + bs.length ∧ e.2 ≠ 0#8 := by
  induction bs generalizing a with
  | nil => intro e he; cases he
  | cons b bs ih =>
    intro e he
    simp only [cells] at he
    split at he
    · have := ih (a + 1) e he
      simp only [List.length_cons]
      exact ⟨by omega, by omega, this.2.2⟩
    · rename_i hb
      rcases List.mem_cons.1 he with rfl | he
      · exact ⟨le_refl _, by simp, hb⟩
      · have := ih (a + 1) e he
        simp only [List.length_cons]
        exact ⟨by omega, by omega, this.2.2⟩

theorem risingFrom_cells (a : Nat) (bs : List Byte) : risingFrom a (cells a bs) = true := by
  induction bs generalizing a with
  | nil => rfl
  | cons b bs ih =>
    simp only [cells]
    split
    · exact risingFrom_mono (Nat.le_succ a) (ih (a + 1))
    · simp [risingFrom, ih]

/-- A write keeps memory in its canonical form. -/
theorem memWrite_wf (m : Mem) (a : Nat) (bs : List Byte) (h : Memory.wf m = true) : Memory.wf (memWrite m a bs) = true := by
  simp only [Memory.wf, Bool.and_eq_true, List.all_eq_true, bne_iff_ne] at h ⊢
  obtain ⟨h1, h2⟩ := h
  refine ⟨?_, fun e he => ?_⟩
  · refine risingFrom_append (hi := a) (risingFrom_filter _ h1 fun _ _ _ => Nat.zero_le _) (fun e he => by simpa using (List.mem_filter.1 he).2) ?_ (Nat.zero_le _)
    refine risingFrom_append (hi := a + bs.length) (risingFrom_cells a bs) (fun e he => (cells_lt a bs e he).2.1) ?_ (Nat.le_add_right _ _)
    exact risingFrom_filter _ h1 fun e _ hp => by simpa using hp
  · simp only [memWrite, List.mem_append, List.mem_filter] at he
    rcases he with he | he | he
    · exact h2 _ he.1
    · exact (cells_lt a bs e he).2.2
    · exact h2 _ he.1

theorem amGet_cells (a : Nat) (bs : List Byte) (q : Nat) :
    (amGet (cells a bs) q).getD 0#8 = if a ≤ q ∧ q < a + bs.length then bs.getD (q - a) 0#8 else 0#8 := by
  induction bs generalizing a with
  | nil => simp [cells]
  | cons b bs ih =>
    have hih := ih (a + 1)
    simp only [cells, List.length_cons]
    by_cases hq : q = a
    · subst hq
      have hz : amGet (cells (q + 1) bs) q = none := by
        have hm := cells_lt (q + 1) bs
        have : ∀ (l : Mem), (∀ e ∈ l, q < e.1) → amGet l q = none := by
          intro l
          induction l with
          | nil => intro _; rfl
          | cons e l ih =>
            intro h
            obtain ⟨j, v⟩ := e
            have hj := h _ (List.mem_cons_self ..)
            simp only [amGet]
            rw [if_neg (by simp only at hj; omega)]
            exact ih fun e he => h e (List.mem_cons_of_mem _ he)
        exact this _ fun e he => by have := hm e he; omega
      split
      · rename_i hb
        simp [hz, hb]
      · simp [amGet]
    · have hidx : a < q → (b :: bs).getD (q - a) 0#8 = bs.getD (q - (a + 1)) 0#8 := by
        intro hl
        have : q - a = (q - (a + 1)) + 1 := by omega
        rw [this]
        rfl
      have goal : (amGet (cells (a + 1) bs) q).getD 0#8 =
          if a ≤ q ∧ q < a + (bs.length + 1) then (b :: bs).getD (q - a) 0#8 else 0#8 := by
        rw [hih]
        by_cases hc : a + 1 ≤ q ∧ q < a + 1 + bs.length
        · rw [if_pos hc, if_pos (by omega), hidx (by omega)]
        · rw [if_neg hc, if_neg (by omega)]
      split
      · exact goal
      · simp only [amGet, if_neg hq]
        exact goal

/-- A read of one byte after a write (R22). -/
theorem memGet_memWrite (m : Mem) (a : Nat) (bs : List Byte) (q : Nat) :
    memGet (memWrite m a bs) q = if a ≤ q ∧ q < a + bs.length then bs.getD (q - a) 0#8 else memGet m q := by
  have f1 := amGet_filter m (fun j => decide (j < a)) q
  have f2 := amGet_filter m (fun j => decide (a + bs.length ≤ j)) q
  have hc := amGet_cells a bs q
  simp only [memGet, amGetD, memWrite, amGet_append]
  rw [f1, f2]
  simp only [decide_eq_true_eq]
  by_cases h1 : q < a
  · rw [if_pos h1, if_neg (by omega), if_neg (by omega)]
    cases amGet m q with
    | some v => simp
    | none =>
      rw [if_neg (by omega)] at hc
      cases hx : amGet (cells a bs) q with
      | some v => simpa [hx] using hc
      | none => simp
  · rw [if_neg h1]
    by_cases h2 : q < a + bs.length
    · rw [if_neg (by omega), if_pos ⟨by omega, h2⟩]
      rw [if_pos ⟨by omega, h2⟩] at hc
      simpa [amGet_nil] using hc
    · rw [if_pos (by omega), if_neg (by omega)]
      rw [if_neg (by omega)] at hc
      cases hx : amGet (cells a bs) q with
      | some v =>
        have hm : ∀ (l : Mem), amGet l q = some v → (q, v) ∈ l := by
          intro l
          induction l with
          | nil => intro h; cases h
          | cons e l ih =>
            intro h
            obtain ⟨j, w⟩ := e
            simp only [amGet] at h
            split at h
            · rename_i hj
              cases h
              rw [hj]
              exact List.mem_cons_self ..
            · exact List.mem_cons_of_mem _ (ih h)
        exact absurd (cells_lt a bs _ (hm _ hx)).2.1 (by simp only; omega)
      | none => simp

/-- Bytes that a write does not reach read as before. -/
theorem memGet_memWrite_other {m : Mem} {a : Nat} {bs : List Byte} {q : Nat} (h : q < a ∨ a + bs.length ≤ q) :
    memGet (memWrite m a bs) q = memGet m q := by
  rw [memGet_memWrite, if_neg (by omega)]

theorem memRead_get (m : Mem) (a n : Nat) : memRead m a n = (List.range n).map fun i => memGet m (a + i) := by
  simp only [memRead]
  apply List.map_congr_left
  intro i hi
  have := amGet_filter m (fun j => decide (a ≤ j) && decide (j < a + n)) (a + i)
  simp only [memGet, amGetD]
  rw [this, if_pos (by simp [List.mem_range.1 hi])]

/-- A read of what was just written. -/
theorem memRead_memWrite_same (m : Mem) (a : Nat) (bs : List Byte) : memRead (memWrite m a bs) a bs.length = bs := by
  rw [memRead_get]
  apply List.ext_getElem
  · simp
  · intro i h1 h2
    simp only [List.getElem_map, List.getElem_range, memGet_memWrite]
    rw [if_pos ⟨Nat.le_add_right _ _, by omega⟩]
    simp [List.getD_eq_getElem?_getD, h2]

/-- A read that meets no written byte. -/
theorem memRead_memWrite_other {m : Mem} {a b n : Nat} {bs : List Byte} (h : b + n ≤ a ∨ a + bs.length ≤ b) :
    memRead (memWrite m a bs) b n = memRead m b n := by
  rw [memRead_get, memRead_get]
  apply List.map_congr_left
  intro i hi
  have := List.mem_range.1 hi
  exact memGet_memWrite_other (by omega)

/-! ### The other operations on memory -/

/-- A filter of memory by address keeps the canonical form: module reset (R452) and the parts of a copy. -/
theorem filter_wf (m : Mem) (p : Nat → Bool) (h : Memory.wf m = true) : Memory.wf (m.filter fun c => p c.1) = true := by
  simp only [Memory.wf, Bool.and_eq_true, List.all_eq_true] at h ⊢
  exact ⟨risingFrom_filter _ h.1 fun _ _ _ => Nat.zero_le _, fun e he => h.2 e (List.mem_filter.1 he).1⟩

/-- What `mainKey` says of a key. -/
theorem mainKey_spec {k : Nat} (h : mainKey k = true) : k / 2 ^ 60 ≤ 7 ∧ k % 2 ^ 60 < 2 ^ 37 := by
  unfold mainKey keyHome keyAddr at h
  rcases Bool.and_eq_true_iff.1 h with ⟨h1, h2⟩
  exact ⟨of_decide_eq_true h1, of_decide_eq_true h2⟩

/-- A checkpoint's copy keeps the order of addresses (R416). -/
theorem savedKey_lt {tb j k : Nat} (hj : mainKey j = true) (hk : mainKey k = true) (h : j < k) :
    savedKey tb j < savedKey tb k := by
  have a := mainKey_spec hj
  have b := mainKey_spec hk
  have : j / 2 ^ 60 ≤ k / 2 ^ 60 := Nat.div_le_div_right h.le
  simp only [savedKey, memKey, keyHome, keyAddr]
  rcases this.lt_or_eq with g | g <;> omega

/-- A checkpoint ends one TiB above its base (R416). -/
theorem savedKey_lt_end {tb k : Nat} (hk : mainKey k = true) : savedKey tb k < memKey 8 (tb + 2 ^ 40) := by
  have b := mainKey_spec hk
  simp only [savedKey, memKey, keyHome, keyAddr]
  omega

/-- Where a byte of a checkpoint goes back (R417). -/
theorem backKey_lt {tb j k : Nat} (h : j < k) (hj : memKey 8 tb ≤ j) :
    memKey ((j - memKey 8 tb) / 2 ^ 37) ((j - memKey 8 tb) % 2 ^ 37) <
      memKey ((k - memKey 8 tb) / 2 ^ 37) ((k - memKey 8 tb) % 2 ^ 37) := by
  generalize hx : j - memKey 8 tb = x
  generalize hy : k - memKey 8 tb = y
  have hxy : x < y := by omega
  have : x / 2 ^ 37 ≤ y / 2 ^ 37 := Nat.div_le_div_right hxy.le
  simp only [memKey]
  rcases this.lt_or_eq with g | g <;> omega

/-- What comes back is main memory (R417). -/
theorem backKey_lt_end {tb k : Nat} (h1 : memKey 8 tb ≤ k) (h : k < memKey 8 (tb + 2 ^ 40)) :
    memKey ((k - memKey 8 tb) / 2 ^ 37) ((k - memKey 8 tb) % 2 ^ 37) < memKey 8 0 := by
  generalize hx : k - memKey 8 tb = x
  have : x < 2 ^ 40 := by simp only [memKey] at h h1 hx; omega
  simp only [memKey]
  omega

/-- A checkpoint's copy of main memory (R416) keeps the canonical form. -/
theorem copyOut_wf (m : Mem) (tb : Nat) (h : Memory.wf m = true) : Memory.wf (copyOut m tb) = true := by
  simp only [Memory.wf, Bool.and_eq_true, List.all_eq_true] at h ⊢
  obtain ⟨h1, h2⟩ := h
  refine ⟨?_, fun e he => ?_⟩
  · unfold copyOut
    refine risingFrom_append (hi := memKey 8 tb) (risingFrom_filter _ h1 fun _ _ _ => Nat.zero_le _) (fun e he => by simpa using (List.mem_filter.1 he).2) ?_
      (Nat.zero_le _)
    refine risingFrom_append (hi := memKey 8 (tb + 2 ^ 40)) ?_ ?_ (risingFrom_filter _ h1 fun e _ hp => by simpa using hp) (by simp [memKey])
    · refine risingFrom_map (savedKey tb) (risingFrom_filter (hi := 0) _ h1 fun _ _ _ => Nat.zero_le _) (fun e _ => by simp only [savedKey, memKey]; omega) ?_
      intro e he d hd hlt
      exact savedKey_lt (by simpa using (List.mem_filter.1 he).2) (by simpa using (List.mem_filter.1 hd).2) hlt
    · intro e he
      obtain ⟨c, hc, rfl⟩ := List.mem_map.1 he
      exact savedKey_lt_end (by simpa using (List.mem_filter.1 hc).2)
  · simp only [copyOut, List.mem_append, List.mem_filter, List.mem_map] at he
    rcases he with he | ⟨c, hc, rfl⟩ | he
    · exact h2 _ he.1
    · exact (h2 c hc.1 :)
    · exact h2 _ he.1

/-- The copy back (R417) keeps the canonical form. -/
theorem copyIn_wf (m : Mem) (tb : Nat) (h : Memory.wf m = true) : Memory.wf (copyIn m tb) = true := by
  simp only [Memory.wf, Bool.and_eq_true, List.all_eq_true] at h ⊢
  obtain ⟨h1, h2⟩ := h
  refine ⟨?_, fun e he => ?_⟩
  · unfold copyIn
    refine risingFrom_append (hi := memKey 8 0) ?_ ?_ (risingFrom_filter _ h1 fun e _ hp => by simpa using hp) (Nat.zero_le _)
    · refine risingFrom_map (fun k => memKey ((k - memKey 8 tb) / 2 ^ 37) ((k - memKey 8 tb) % 2 ^ 37))
        (risingFrom_filter (hi := 0) _ h1 fun _ _ _ => Nat.zero_le _) (fun _ _ => Nat.zero_le _) ?_
      intro e he d hd hlt
      have ha := (List.mem_filter.1 he).2
      simp only [Bool.and_eq_true, decide_eq_true_eq] at ha
      exact backKey_lt hlt ha.1
    · intro e he
      obtain ⟨c, hc, rfl⟩ := List.mem_map.1 he
      have ha := (List.mem_filter.1 hc).2
      simp only [Bool.and_eq_true, decide_eq_true_eq] at ha
      exact backKey_lt_end ha.1 ha.2
  · simp only [copyIn, List.mem_append, List.mem_filter, List.mem_map] at he
    rcases he with ⟨c, hc, rfl⟩ | he
    · exact (h2 c hc.1 :)
    · exact h2 _ he.1

/-- Memory after reset has the canonical form. -/
theorem reset_mem_wf : Memory.wf State.reset.mem = true := by decide

end Sys2Proof.Machine
end

