-- ==== Sys2Proof/Laws/PerInstr.lean ====
section
/-! SUPPORT. The round trip of the encoding, instruction by instruction: what a well-formed instruction's word decodes to. -/

namespace Sys2Proof.Laws.RoundTrip

/-- The word of a well-formed instruction decodes to the instruction, every operand included. An event has no word. -/
def Statement (i : Instr) : Prop := i.isWord = true → WellFormed i → decode (encode i) = .ok i

/-- An instruction that has no word. -/
theorem noWord {i : Instr} (h : encode i = 0) : Statement i := fun hw => by simp [Instr.isWord, h] at hw

/-- OP of a form that allows one value. -/
theorem opOf {s : RegSpec} {f : RegF} {e : Bool} {k : Nat} (h : (regOk s f && e) = true) (hs : s.ops = [k]) :
    f.op.toNat = k := by
  have h1 := regOk_op ((Bool.and_eq_true _ _).mp h).1
  rw [hs] at h1
  simpa using h1

theorem raw_br01 (f : BrF) : rawFull (encBr 0x01 f) = some (.bra f) := by
  have hm : bitsOf (encBr 0x01 f) 56 7 = 0x01 := full_major ..
  unfold rawFull
  rw [hm]
  exact congrArg (fun x => some (Instr.bra x)) (br_read _ f)
theorem raw_br03 (f : BrF) : rawFull (encBr 0x03 f) = some (.call f) := by
  have hm : bitsOf (encBr 0x03 f) 56 7 = 0x03 := full_major ..
  unfold rawFull
  rw [hm]
  exact congrArg (fun x => some (Instr.call x)) (br_read _ f)
theorem raw_tgt02 (f : TgtF) : rawFull (encTgt 0x02 f) = some (.brx f) := by
  have hm : bitsOf (encTgt 0x02 f) 56 7 = 0x02 := full_major ..
  unfold rawFull
  rw [hm]
  exact congrArg (fun x => some (Instr.brx x)) (tgt_read _ f)
theorem raw_tgt04 (f : TgtF) : rawFull (encTgt 0x04 f) = some (.ret f) := by
  have hm : bitsOf (encTgt 0x04 f) 56 7 = 0x04 := full_major ..
  unfold rawFull
  rw [hm]
  exact congrArg (fun x => some (Instr.ret x)) (tgt_read _ f)
theorem raw_plain05 (g : Guard) : rawFull (encPlain 0x05 g) = some (.exit g) := by
  have hm : bitsOf (encPlain 0x05 g) 56 7 = 0x05 := full_major ..
  unfold rawFull
  rw [hm]
  exact congrArg (fun x => some (Instr.exit x)) (guard_read _ g)
theorem raw_plain06 (g : Guard) : rawFull (encPlain 0x06 g) = some (.yield g) := by
  have hm : bitsOf (encPlain 0x06 g) 56 7 = 0x06 := full_major ..
  unfold rawFull
  rw [hm]
  exact congrArg (fun x => some (Instr.yield x)) (guard_read _ g)
theorem raw_plain07 (g : Guard) : rawFull (encPlain 0x07 g) = some (.nop g) := by
  have hm : bitsOf (encPlain 0x07 g) 56 7 = 0x07 := full_major ..
  unfold rawFull
  rw [hm]
  exact congrArg (fun x => some (Instr.nop x)) (guard_read _ g)
theorem raw_code08 (f : CodeF) : rawFull (encCode 0x08 f) = some (.bpt f) := by
  have hm : bitsOf (encCode 0x08 f) 56 7 = 0x08 := full_major ..
  unfold rawFull
  rw [hm]
  exact congrArg (fun x => some (Instr.bpt x)) (code_read _ f)
theorem raw_code09 (f : CodeF) : rawFull (encCode 0x09 f) = some (.trap f) := by
  have hm : bitsOf (encCode 0x09 f) 56 7 = 0x09 := full_major ..
  unfold rawFull
  rw [hm]
  exact congrArg (fun x => some (Instr.trap x)) (code_read _ f)
theorem raw_wide59 (f : WideF) : rawFull (encWide 0x59 f) = some (.movi f) := by
  have hm : bitsOf (encWide 0x59 f) 56 7 = 0x59 := full_major ..
  unfold rawFull
  rw [hm]
  exact congrArg (fun x => some (Instr.movi x)) (wide_read _ f)
theorem raw_wide5A (f : WideF) : rawFull (encWide 0x5A f) = some (.movh f) := by
  have hm : bitsOf (encWide 0x5A f) 56 7 = 0x5A := full_major ..
  unfold rawFull
  rw [hm]
  exact congrArg (fun x => some (Instr.movh x)) (wide_read _ f)

theorem pair (u l : Half) : Statement (.pair u l) := fun _ h => by
  have h1 : (halfOk u && halfOk l && pairing u l) = true := h
  simp only [Bool.and_eq_true] at h1
  simp [decode, pair_p, pair_upper, pair_lower, half_read, Instr.fieldsOk, h1.1.1, h1.1.2, h1.2]
theorem bra (f : BrF) : Statement (.bra f) := fun _ h =>
  decode_full (major := 0x01) rfl rfl (raw_br01 f) h
theorem brx (f : TgtF) : Statement (.brx f) := fun _ h =>
  decode_full (major := 0x02) rfl rfl (raw_tgt02 f) h
theorem call (f : BrF) : Statement (.call f) := fun _ h =>
  decode_full (major := 0x03) rfl rfl (raw_br03 f) h
theorem ret (f : TgtF) : Statement (.ret f) := fun _ h =>
  decode_full (major := 0x04) rfl rfl (raw_tgt04 f) h
theorem exit (g : Guard) : Statement (.exit g) := fun _ h =>
  decode_full (major := 0x05) rfl rfl (raw_plain05 g) h
theorem yield (g : Guard) : Statement (.yield g) := fun _ h =>
  decode_full (major := 0x06) rfl rfl (raw_plain06 g) h
theorem nop (g : Guard) : Statement (.nop g) := fun _ h =>
  decode_full (major := 0x07) rfl rfl (raw_plain07 g) h
theorem bpt (f : CodeF) : Statement (.bpt f) := fun _ h =>
  decode_full (major := 0x08) rfl rfl (raw_code08 f) h
theorem trap (f : CodeF) : Statement (.trap f) := fun _ h =>
  decode_full (major := 0x09) rfl rfl (raw_code09 f) h
theorem iadd (f : RegF) : Statement (.iadd f) := fun _ h => decode_reg 0x10 f rfl rfl (by decide) rfl h
theorem isub (f : RegF) : Statement (.isub f) := fun _ h => decode_reg 0x11 f rfl rfl (by decide) rfl h
theorem iaddc (f : RegF) : Statement (.iaddc f) := fun _ h => decode_reg 0x12 f rfl rfl (by decide) rfl h
theorem isubb (f : RegF) : Statement (.isubb f) := fun _ h => decode_reg 0x13 f rfl rfl (by decide) rfl h
theorem imul (f : RegF) : Statement (.imul f) := fun _ h => decode_reg 0x14 f rfl rfl (by decide) rfl h
theorem imulh (f : RegF) : Statement (.imulh f) := fun _ h => decode_reg 0x15 f rfl rfl (by decide) rfl h
theorem imad (f : RegF) : Statement (.imad f) := fun _ h => decode_reg 0x16 f rfl rfl (by decide) rfl h
theorem imadw (f : RegF) : Statement (.imadw f) := fun _ h => decode_reg 0x17 f rfl rfl (by decide) rfl h
theorem idiv (f : RegF) : Statement (.idiv f) := fun _ h => decode_reg 0x18 f rfl rfl (by decide) rfl h
theorem irem (f : RegF) : Statement (.irem f) := fun _ h => decode_reg 0x19 f rfl rfl (by decide) rfl h
theorem ineg (f : RegF) : Statement (.ineg f) := fun _ h => decode_reg 0x1A f rfl rfl (by decide) rfl h
theorem iabs (f : RegF) : Statement (.iabs f) := fun _ h => decode_reg 0x1B f rfl rfl (by decide) rfl h
theorem imin (f : RegF) : Statement (.imin f) := fun _ h => decode_reg 0x1C f rfl rfl (by decide) rfl h
theorem imax (f : RegF) : Statement (.imax f) := fun _ h => decode_reg 0x1D f rfl rfl (by decide) rfl h
theorem isad (f : RegF) : Statement (.isad f) := fun _ h => decode_reg 0x1E f rfl rfl (by decide) rfl h
theorem idot4 (f : RegF) : Statement (.idot4 f) := fun _ h => decode_reg 0x1F f rfl rfl (by decide) rfl h
theorem icmp (f : RegF) : Statement (.icmp f) := fun _ h => decode_reg 0x20 f rfl rfl (by decide) rfl h
theorem and (f : RegF) : Statement (.and f) := fun _ h => decode_reg 0x21 f rfl rfl (by decide) rfl h
theorem or (f : RegF) : Statement (.or f) := fun _ h => decode_reg 0x22 f rfl rfl (by decide) rfl h
theorem xor (f : RegF) : Statement (.xor f) := fun _ h => decode_reg 0x23 f rfl rfl (by decide) rfl h
theorem not (f : RegF) : Statement (.not f) := fun _ h => decode_reg 0x24 f rfl rfl (by decide) rfl h
theorem lop3 (f : RegF) : Statement (.lop3 f) := fun _ h => decode_reg 0x25 f rfl rfl (by decide) rfl h
theorem shl (f : RegF) : Statement (.shl f) := fun _ h => decode_reg 0x26 f rfl rfl (by decide) rfl h
theorem shr (f : RegF) : Statement (.shr f) := fun _ h => decode_reg 0x27 f rfl rfl (by decide) rfl h
theorem sar (f : RegF) : Statement (.sar f) := fun _ h => decode_reg 0x28 f rfl rfl (by decide) rfl h
theorem rot (f : RegF) : Statement (.rot f) := fun _ h => decode_reg 0x29 f rfl rfl (by decide) rfl h
theorem fshfL (f : RegF) : Statement (.fshfL f) := fun _ h =>
  decode_reg 0x2A f rfl rfl (by decide) (by simp [regInstr, opOf (k := 0) h rfl]) h
theorem fshfR (f : RegF) : Statement (.fshfR f) := fun _ h =>
  decode_reg 0x2A f rfl rfl (by decide) (by simp [regInstr, opOf (k := 1) h rfl]) h
theorem bfe (f : RegF) : Statement (.bfe f) := fun _ h => decode_reg 0x2B f rfl rfl (by decide) rfl h
theorem bfi (f : RegF) : Statement (.bfi f) := fun _ h => decode_reg 0x2C f rfl rfl (by decide) rfl h
theorem popc (f : RegF) : Statement (.popc f) := fun _ h =>
  decode_reg 0x2D f rfl rfl (by decide) (by simp [regInstr, opOf (k := 0) h rfl]) h
theorem clz (f : RegF) : Statement (.clz f) := fun _ h =>
  decode_reg 0x2D f rfl rfl (by decide) (by simp [regInstr, opOf (k := 1) h rfl]) h
theorem ctz (f : RegF) : Statement (.ctz f) := fun _ h =>
  decode_reg 0x2D f rfl rfl (by decide) (by simp [regInstr, opOf (k := 2) h rfl]) h
theorem brev (f : RegF) : Statement (.brev f) := fun _ h =>
  decode_reg 0x2D f rfl rfl (by decide) (by simp [regInstr, opOf (k := 3) h rfl]) h
theorem prmt (f : RegF) : Statement (.prmt f) := fun _ h => decode_reg 0x2F f rfl rfl (by decide) rfl h
theorem iaddImm (f : ImmF) : Statement (.iaddImm f) := fun _ h => decode_full (major := 0x2E) rfl rfl ((raw_imm 0x2E 0 f (by decide)).trans rfl) h
theorem isubImm (f : ImmF) : Statement (.isubImm f) := fun _ h => decode_full (major := 0x2E) rfl rfl ((raw_imm 0x2E 1 f (by decide)).trans rfl) h
theorem imulImm (f : ImmF) : Statement (.imulImm f) := fun _ h => decode_full (major := 0x2E) rfl rfl ((raw_imm 0x2E 2 f (by decide)).trans rfl) h
theorem iminImm (f : ImmF) : Statement (.iminImm f) := fun _ h => decode_full (major := 0x2E) rfl rfl ((raw_imm 0x2E 3 f (by decide)).trans rfl) h
theorem imaxImm (f : ImmF) : Statement (.imaxImm f) := fun _ h => decode_full (major := 0x2E) rfl rfl ((raw_imm 0x2E 4 f (by decide)).trans rfl) h
theorem andImm (f : ImmF) : Statement (.andImm f) := fun _ h => decode_full (major := 0x2E) rfl rfl ((raw_imm 0x2E 5 f (by decide)).trans rfl) h
theorem orImm (f : ImmF) : Statement (.orImm f) := fun _ h => decode_full (major := 0x2E) rfl rfl ((raw_imm 0x2E 6 f (by decide)).trans rfl) h
theorem xorImm (f : ImmF) : Statement (.xorImm f) := fun _ h => decode_full (major := 0x2E) rfl rfl ((raw_imm 0x2E 7 f (by decide)).trans rfl) h
theorem shlImm (f : ImmF) : Statement (.shlImm f) := fun _ h => decode_full (major := 0x2E) rfl rfl ((raw_imm 0x2E 8 f (by decide)).trans rfl) h
theorem shrImm (f : ImmF) : Statement (.shrImm f) := fun _ h => decode_full (major := 0x2E) rfl rfl ((raw_imm 0x2E 9 f (by decide)).trans rfl) h
theorem sarImm (f : ImmF) : Statement (.sarImm f) := fun _ h => decode_full (major := 0x2E) rfl rfl ((raw_imm 0x2E 10 f (by decide)).trans rfl) h
theorem rotImm (f : ImmF) : Statement (.rotImm f) := fun _ h => decode_full (major := 0x2E) rfl rfl ((raw_imm 0x2E 11 f (by decide)).trans rfl) h
theorem fadd (f : RegF) : Statement (.fadd f) := fun _ h => decode_reg 0x30 f rfl rfl (by decide) rfl h
theorem fsub (f : RegF) : Statement (.fsub f) := fun _ h => decode_reg 0x31 f rfl rfl (by decide) rfl h
theorem fmul (f : RegF) : Statement (.fmul f) := fun _ h => decode_reg 0x32 f rfl rfl (by decide) rfl h
theorem ffma (f : RegF) : Statement (.ffma f) := fun _ h => decode_reg 0x33 f rfl rfl (by decide) rfl h
theorem fmin (f : RegF) : Statement (.fmin f) := fun _ h => decode_reg 0x34 f rfl rfl (by decide) rfl h
theorem fmax (f : RegF) : Statement (.fmax f) := fun _ h => decode_reg 0x35 f rfl rfl (by decide) rfl h
theorem fminn (f : RegF) : Statement (.fminn f) := fun _ h => decode_reg 0x36 f rfl rfl (by decide) rfl h
theorem fmaxn (f : RegF) : Statement (.fmaxn f) := fun _ h => decode_reg 0x37 f rfl rfl (by decide) rfl h
theorem fcmp (f : RegF) : Statement (.fcmp f) := fun _ h => decode_reg 0x38 f rfl rfl (by decide) rfl h
theorem fclass (f : RegF) : Statement (.fclass f) := fun _ h => decode_reg 0x39 f rfl rfl (by decide) rfl h
theorem frnd (f : RegF) : Statement (.frnd f) := fun _ h => decode_reg 0x3A f rfl rfl (by decide) rfl h
theorem fscale (f : RegF) : Statement (.fscale f) := fun _ h => decode_reg 0x3B f rfl rfl (by decide) rfl h
theorem fdiv (f : RegF) : Statement (.fdiv f) := fun _ h => decode_reg 0x3C f rfl rfl (by decide) rfl h
theorem fsqrt (f : RegF) : Statement (.fsqrt f) := fun _ h => decode_reg 0x3D f rfl rfl (by decide) rfl h
theorem frcp (f : RegF) : Statement (.frcp f) := fun _ h => decode_reg 0x3E f rfl rfl (by decide) rfl h
theorem frsq (f : RegF) : Statement (.frsq f) := fun _ h => decode_reg 0x3F f rfl rfl (by decide) rfl h
theorem fexp2 (f : RegF) : Statement (.fexp2 f) := fun _ h => decode_reg 0x40 f rfl rfl (by decide) rfl h
theorem flog2 (f : RegF) : Statement (.flog2 f) := fun _ h => decode_reg 0x41 f rfl rfl (by decide) rfl h
theorem fsin (f : RegF) : Statement (.fsin f) := fun _ h => decode_reg 0x42 f rfl rfl (by decide) rfl h
theorem fcos (f : RegF) : Statement (.fcos f) := fun _ h => decode_reg 0x43 f rfl rfl (by decide) rfl h
theorem ftanh (f : RegF) : Statement (.ftanh f) := fun _ h => decode_reg 0x44 f rfl rfl (by decide) rfl h
theorem faddImm (f : ImmF) : Statement (.faddImm f) := fun _ h => decode_full (major := 0x45) rfl rfl ((raw_imm 0x45 0 f (by decide)).trans rfl) h
theorem fsubImm (f : ImmF) : Statement (.fsubImm f) := fun _ h => decode_full (major := 0x45) rfl rfl ((raw_imm 0x45 1 f (by decide)).trans rfl) h
theorem fmulImm (f : ImmF) : Statement (.fmulImm f) := fun _ h => decode_full (major := 0x45) rfl rfl ((raw_imm 0x45 2 f (by decide)).trans rfl) h
theorem fminImm (f : ImmF) : Statement (.fminImm f) := fun _ h => decode_full (major := 0x45) rfl rfl ((raw_imm 0x45 3 f (by decide)).trans rfl) h
theorem fmaxImm (f : ImmF) : Statement (.fmaxImm f) := fun _ h => decode_full (major := 0x45) rfl rfl ((raw_imm 0x45 4 f (by decide)).trans rfl) h
theorem fminnImm (f : ImmF) : Statement (.fminnImm f) := fun _ h => decode_full (major := 0x45) rfl rfl ((raw_imm 0x45 5 f (by decide)).trans rfl) h
theorem fmaxnImm (f : ImmF) : Statement (.fmaxnImm f) := fun _ h => decode_full (major := 0x45) rfl rfl ((raw_imm 0x45 6 f (by decide)).trans rfl) h
theorem cvt (f : RegF) : Statement (.cvt f) := fun _ h => decode_reg 0x50 f rfl rfl (by decide) rfl h
theorem qpack (f : RegF) : Statement (.qpack f) := fun _ h => decode_reg 0x51 f rfl rfl (by decide) rfl h
theorem qunpk (f : RegF) : Statement (.qunpk f) := fun _ h => decode_reg 0x52 f rfl rfl (by decide) rfl h
theorem mxq (f : RegF) : Statement (.mxq f) := fun _ h => decode_reg 0x53 f rfl rfl (by decide) rfl h
theorem mov (f : RegF) : Statement (.mov f) := fun _ h => decode_reg 0x58 f rfl rfl (by decide) rfl h
theorem movi (f : WideF) : Statement (.movi f) := fun _ h =>
  decode_full (major := 0x59) rfl rfl (raw_wide59 f) h
theorem movh (f : WideF) : Statement (.movh f) := fun _ h =>
  decode_full (major := 0x5A) rfl rfl (raw_wide5A f) h
theorem sel (f : RegF) : Statement (.sel f) := fun _ h => decode_reg 0x5B f rfl rfl (by decide) rfl h
theorem pset (f : RegF) : Statement (.pset f) := fun _ h => decode_reg 0x5C f rfl rfl (by decide) rfl h
theorem pmovV (f : RegF) : Statement (.pmovV f) := fun _ h =>
  decode_reg 0x5D f rfl rfl (by decide) (by simp [regInstr, opOf (k := 0) h rfl]) h
theorem pmovP (f : RegF) : Statement (.pmovP f) := fun _ h =>
  decode_reg 0x5D f rfl rfl (by decide) (by simp [regInstr, opOf (k := 1) h rfl]) h
theorem mfs (f : RegF) : Statement (.mfs f) := fun _ h => decode_reg 0x5E f rfl rfl (by decide) rfl h
theorem mts (f : RegF) : Statement (.mts f) := fun _ h => decode_reg 0x5F f rfl rfl (by decide) rfl h
theorem ld (m : MemF) (k : LsMod) : Statement (.ld m k) := fun _ h =>
  decode_full (major := 0x60) rfl rfl ((raw_mem 0x60 m k.enc (by decide)).trans (by simp [memInstr, mem_read, ls_read])) h
theorem st (m : MemF) (k : LsMod) : Statement (.st m k) := fun _ h =>
  decode_full (major := 0x61) rfl rfl ((raw_mem 0x61 m k.enc (by decide)).trans (by simp [memInstr, mem_read, ls_read])) h
theorem lds (m : MemF) (k : LsMod) : Statement (.lds m k) := fun _ h =>
  decode_full (major := 0x62) rfl rfl ((raw_mem 0x62 m k.enc (by decide)).trans (by simp [memInstr, mem_read, ls_read])) h
theorem sts (m : MemF) (k : LsMod) : Statement (.sts m k) := fun _ h =>
  decode_full (major := 0x63) rfl rfl ((raw_mem 0x63 m k.enc (by decide)).trans (by simp [memInstr, mem_read, ls_read])) h
theorem ldr (m : MemF) (k : LdrMod) : Statement (.ldr m k) := fun _ h =>
  decode_full (major := 0x64) rfl rfl ((raw_mem 0x64 m k.enc (by decide)).trans (by simp [memInstr, mem_read, ldr_read])) h
theorem preq (m : MemF) : Statement (.preq m) := fun _ h =>
  decode_full (major := 0x65) rfl rfl ((raw_mem 0x65 m 0 (by decide)).trans (by simp [memInstr, mem_read])) h
theorem ldMx (m : MemF) (k : MxMod) : Statement (.ldMx m k) := fun _ h =>
  decode_full (major := 0x66) rfl rfl ((raw_mem 0x66 m k.enc (by decide)).trans (by simp [memInstr, mem_read, mx_read])) h
theorem stMx (m : MemF) (k : MxMod) : Statement (.stMx m k) := fun _ h =>
  decode_full (major := 0x67) rfl rfl ((raw_mem 0x67 m k.enc (by decide)).trans (by simp [memInstr, mem_read, mx_read])) h
theorem atom (m : MemF) (k : AtMod) : Statement (.atom m k) := fun _ h =>
  decode_full (major := 0x68) rfl rfl ((raw_mem 0x68 m k.enc (by decide)).trans (by simp [memInstr, mem_read, at_read])) h
theorem atomv (m : MemF) (k : AtMod) : Statement (.atomv m k) := fun _ h =>
  decode_full (major := 0x69) rfl rfl ((raw_mem 0x69 m k.enc (by decide)).trans (by simp [memInstr, mem_read, at_read])) h
theorem red (m : MemF) (k : AtMod) : Statement (.red m k) := fun _ h =>
  decode_full (major := 0x6A) rfl rfl ((raw_mem 0x6A m k.enc (by decide)).trans (by simp [memInstr, mem_read, at_read])) h
theorem fence (m : MemF) (o : Order) (sc : Scope) : Statement (.fence m o sc) := fun _ h =>
  decode_full (major := 0x6B) rfl rfl ((raw_mem 0x6B m (fenceMods o sc) (by decide)).trans
    (by simp [memInstr, mem_read, fence_sub, fence_order, fence_scope, order_code, scope_code])) h
theorem cctlLine (m : MemF) : Statement (.cctlLine m) := fun _ h =>
  decode_full (major := 0x6B) rfl rfl ((raw_mem 0x6B m (opMods 1 0) (by decide)).trans (by simp [memInstr, mem_read, op_sub, op_op])) h
theorem cctlAll (m : MemF) : Statement (.cctlAll m) := fun _ h =>
  decode_full (major := 0x6B) rfl rfl ((raw_mem 0x6B m (opMods 1 1) (by decide)).trans (by simp [memInstr, mem_read, op_sub, op_op])) h
theorem cctlIfetch (m : MemF) : Statement (.cctlIfetch m) := fun _ h =>
  decode_full (major := 0x6B) rfl rfl ((raw_mem 0x6B m (opMods 1 2) (by decide)).trans (by simp [memInstr, mem_read, op_sub, op_op])) h
theorem tlbiPage (m : MemF) : Statement (.tlbiPage m) := fun _ h =>
  decode_full (major := 0x6B) rfl rfl ((raw_mem 0x6B m (opMods 2 0) (by decide)).trans (by simp [memInstr, mem_read, op_sub, op_op])) h
theorem tlbiAsid (m : MemF) : Statement (.tlbiAsid m) := fun _ h =>
  decode_full (major := 0x6B) rfl rfl ((raw_mem 0x6B m (opMods 2 1) (by decide)).trans (by simp [memInstr, mem_read, op_sub, op_op])) h
theorem tlbiAll (m : MemF) : Statement (.tlbiAll m) := fun _ h =>
  decode_full (major := 0x6B) rfl rfl ((raw_mem 0x6B m (opMods 2 2) (by decide)).trans (by simp [memInstr, mem_read, op_sub, op_op])) h
theorem txbegin (f : RegF) : Statement (.txbegin f) := fun _ h =>
  decode_reg 0x6C f rfl rfl (by decide) (by simp [regInstr, opOf (k := 0) h rfl]) h
theorem txbeginTs (f : RegF) : Statement (.txbeginTs f) := fun _ h =>
  decode_reg 0x6C f rfl rfl (by decide) (by simp [regInstr, opOf (k := 1) h rfl]) h
theorem txbeginO (f : RegF) : Statement (.txbeginO f) := fun _ h =>
  decode_reg 0x6C f rfl rfl (by decide) (by simp [regInstr, opOf (k := 2) h rfl]) h
theorem txcommit (f : RegF) : Statement (.txcommit f) := fun _ h => decode_reg 0x6D f rfl rfl (by decide) rfl h
theorem txabort (f : RegF) : Statement (.txabort f) := fun _ h =>
  decode_reg 0x6E f rfl rfl (by decide) (by simp [regInstr, opOf (k := 0) h rfl]) h
theorem txstat (f : RegF) : Statement (.txstat f) := fun _ h =>
  decode_reg 0x6E f rfl rfl (by decide) (by simp [regInstr, opOf (k := 1) h rfl]) h
theorem sdopen (f : RegF) : Statement (.sdopen f) := fun _ h => decode_reg 0x6F f rfl rfl (by decide) rfl h
theorem shfl (f : RegF) : Statement (.shfl f) := fun _ h => decode_reg 0x70 f rfl rfl (by decide) rfl h
theorem voteEvery (f : RegF) : Statement (.voteEvery f) := fun _ h =>
  decode_reg 0x71 f rfl rfl (by decide) (by simp [regInstr, opOf (k := 0) h rfl]) h
theorem voteSome (f : RegF) : Statement (.voteSome f) := fun _ h =>
  decode_reg 0x71 f rfl rfl (by decide) (by simp [regInstr, opOf (k := 1) h rfl]) h
theorem voteSame (f : RegF) : Statement (.voteSame f) := fun _ h =>
  decode_reg 0x71 f rfl rfl (by decide) (by simp [regInstr, opOf (k := 2) h rfl]) h
theorem voteMask (f : RegF) : Statement (.voteMask f) := fun _ h =>
  decode_reg 0x71 f rfl rfl (by decide) (by simp [regInstr, opOf (k := 3) h rfl]) h
theorem matchPeers (f : RegF) : Statement (.matchPeers f) := fun _ h =>
  decode_reg 0x71 f rfl rfl (by decide) (by simp [regInstr, opOf (k := 4) h rfl]) h
theorem matchUniform (f : RegF) : Statement (.matchUniform f) := fun _ h =>
  decode_reg 0x71 f rfl rfl (by decide) (by simp [regInstr, opOf (k := 5) h rfl]) h
theorem elect (f : RegF) : Statement (.elect f) := fun _ h =>
  decode_reg 0x71 f rfl rfl (by decide) (by simp [regInstr, opOf (k := 6) h rfl]) h
theorem voteCount (f : RegF) : Statement (.voteCount f) := fun _ h =>
  decode_reg 0x71 f rfl rfl (by decide) (by simp [regInstr, opOf (k := 7) h rfl]) h
theorem gred (f : RegF) : Statement (.gred f) := fun _ h => decode_reg 0x72 f rfl rfl (by decide) rfl h
theorem barInit (f : RegF) : Statement (.barInit f) := fun _ h =>
  decode_reg 0x73 f rfl rfl (by decide) (by simp [regInstr, opOf (k := 0) h rfl]) h
theorem barArr (f : RegF) : Statement (.barArr f) := fun _ h => by
  have hw := (Bool.and_eq_true _ _).mp (show (regOk _ _ && _) = true from h)
  have ho : f.op.toNat = 1 := by simpa [spBar] using regOk_op hw.1
  have hs : f.sat = false := by simpa [useOk, spBar] using regOk_sat hw.1
  exact decode_reg 0x73 f rfl rfl (by decide) (by simp [regInstr, ho, hs]) h
theorem barArrRmt (f : RegF) : Statement (.barArrRmt f) := fun _ h => by
  have hw := (Bool.and_eq_true _ _).mp (show (regOk _ _ && _) = true from h)
  have ho : f.op.toNat = 1 := by simpa [spBar] using regOk_op hw.1
  have hs : f.sat = true := by simpa [useOk, spBar] using regOk_sat hw.1
  exact decode_reg 0x73 f rfl rfl (by decide) (by simp [regInstr, ho, hs]) h
theorem barWait (f : RegF) : Statement (.barWait f) := fun _ h =>
  decode_reg 0x73 f rfl rfl (by decide) (by simp [regInstr, opOf (k := 2) h rfl]) h
theorem barSync (f : RegF) : Statement (.barSync f) := fun _ h =>
  decode_reg 0x73 f rfl rfl (by decide) (by simp [regInstr, opOf (k := 3) h rfl]) h
theorem spawn (f : RegF) : Statement (.spawn f) := fun _ h => decode_reg 0x74 f rfl rfl (by decide) rfl h
theorem sync (f : RegF) : Statement (.sync f) := fun _ h =>
  decode_reg 0x75 f rfl rfl (by decide) (by simp [regInstr, opOf (k := 0) h rfl]) h
theorem endt (f : RegF) : Statement (.endt f) := fun _ h =>
  decode_reg 0x75 f rfl rfl (by decide) (by simp [regInstr, opOf (k := 1) h rfl]) h
theorem invokeCore (f : RegF) : Statement (.invokeCore f) := fun _ h =>
  decode_reg 0x76 f rfl rfl (by decide) (by simp [regInstr, opOf (k := 0) h rfl]) h
theorem invokeAny (f : RegF) : Statement (.invokeAny f) := fun _ h =>
  decode_reg 0x76 f rfl rfl (by decide) (by simp [regInstr, opOf (k := 1) h rfl]) h
theorem invokeStake (f : RegF) : Statement (.invokeStake f) := fun _ h =>
  decode_reg 0x76 f rfl rfl (by decide) (by simp [regInstr, opOf (k := 2) h rfl]) h
theorem invokeDie (f : RegF) : Statement (.invokeDie f) := fun _ h =>
  decode_reg 0x76 f rfl rfl (by decide) (by simp [regInstr, opOf (k := 3) h rfl]) h
theorem await (f : RegF) : Statement (.await f) := fun _ h =>
  decode_reg 0x77 f rfl rfl (by decide) (by simp [regInstr, opOf (k := 0) h rfl]) h
theorem poll (f : RegF) : Statement (.poll f) := fun _ h =>
  decode_reg 0x77 f rfl rfl (by decide) (by simp [regInstr, opOf (k := 1) h rfl]) h
theorem fulfil (f : RegF) : Statement (.fulfil f) := fun _ h =>
  decode_reg 0x77 f rfl rfl (by decide) (by simp [regInstr, opOf (k := 2) h rfl]) h
theorem brk (f : RegF) : Statement (.brk f) := fun _ h =>
  decode_reg 0x77 f rfl rfl (by decide) (by simp [regInstr, opOf (k := 3) h rfl]) h
theorem drop (f : RegF) : Statement (.drop f) := fun _ h =>
  decode_reg 0x77 f rfl rfl (by decide) (by simp [regInstr, opOf (k := 4) h rfl]) h
theorem copy (f : EngF) : Statement (.copy f) := fun _ h => decode_full (major := 0x78) rfl rfl ((raw_eng 0x78 0 f (by decide)).trans rfl) h
theorem copyMc (f : EngF) : Statement (.copyMc f) := fun _ h => decode_full (major := 0x78) rfl rfl ((raw_eng 0x78 1 f (by decide)).trans rfl) h
theorem fill (f : EngF) : Statement (.fill f) := fun _ h => decode_full (major := 0x78) rfl rfl ((raw_eng 0x78 2 f (by decide)).trans rfl) h
theorem mshape (f : EngF) : Statement (.mshape f) := fun _ h => decode_full (major := 0x79) rfl rfl ((raw_eng 0x79 0 f (by decide)).trans rfl) h
theorem mma (f : EngF) : Statement (.mma f) := fun _ h => decode_full (major := 0x7A) rfl rfl ((raw_eng 0x7A 0 f (by decide)).trans rfl) h
theorem accld (f : EngF) : Statement (.accld f) := fun _ h => decode_full (major := 0x7B) rfl rfl ((raw_eng 0x7B 0 f (by decide)).trans rfl) h
theorem accst (f : EngF) : Statement (.accst f) := fun _ h => decode_full (major := 0x7B) rfl rfl ((raw_eng 0x7B 1 f (by decide)).trans rfl) h
theorem accz (f : EngF) : Statement (.accz f) := fun _ h => decode_full (major := 0x7B) rfl rfl ((raw_eng 0x7B 2 f (by decide)).trans rfl) h
theorem waitc (f : EngF) : Statement (.waitc f) := fun _ h => decode_full (major := 0x7C) rfl rfl ((raw_eng 0x7C 0 f (by decide)).trans rfl) h
theorem monw (f : EngF) : Statement (.monw f) := fun _ h => decode_full (major := 0x7C) rfl rfl ((raw_eng 0x7C 1 f (by decide)).trans rfl) h
theorem nred (f : EngF) : Statement (.nred f) := fun _ h => decode_full (major := 0x7D) rfl rfl ((raw_eng 0x7D 0 f (by decide)).trans rfl) h
theorem nbar (f : EngF) : Statement (.nbar f) := fun _ h => decode_full (major := 0x7D) rfl rfl ((raw_eng 0x7D 1 f (by decide)).trans rfl) h
theorem eret (f : SysF) : Statement (.eret f) := fun _ h => decode_full (major := 0x7E) rfl rfl ((raw_sys 0 f).trans rfl) h
theorem mfc (f : SysF) : Statement (.mfc f) := fun _ h => decode_full (major := 0x7E) rfl rfl ((raw_sys 1 f).trans rfl) h
theorem mtc (f : SysF) : Statement (.mtc f) := fun _ h => by
  have hc : crWritable f.crx.toNat = true := by
    have h1 : (crWritable f.crx.toNat && f.d == 0 && sysOk f f.a) = true := h
    simp only [Bool.and_eq_true] at h1
    exact h1.1.1
  have h0 : f.crx ≠ 0x010 := fun e => by rw [e] at hc; exact absurd hc (by decide)
  have h1 : f.crx ≠ 0x011 := fun e => by rw [e] at hc; exact absurd hc (by decide)
  exact decode_full (major := 0x7E) rfl rfl ((raw_sys 2 f).trans (by
    show some (if f.crx = 0x010 then _ else if f.crx = 0x011 then _ else _) = _
    rw [if_neg h0, if_neg h1])) h
theorem mtcPtbase (f : SysF) : Statement (.mtcPtbase f) := fun _ h => by
  have h1 : (f.crx == 0x011 && f.d == 0 && sysOk f f.a) = true := h
  have hc : f.crx = 0x011 := by simp only [Bool.and_eq_true, beq_iff_eq] at h1; exact h1.1.1
  exact decode_full (major := 0x7E) rfl rfl ((raw_sys 2 f).trans (by simp [sysInstr, hc])) h
theorem mtcAsid (f : SysF) : Statement (.mtcAsid f) := fun _ h => by
  have h1 : (f.crx == 0x010 && f.d == 0 && sysOk f f.a) = true := h
  have hc : f.crx = 0x010 := by simp only [Bool.and_eq_true, beq_iff_eq] at h1; exact h1.1.1
  exact decode_full (major := 0x7E) rfl rfl ((raw_sys 2 f).trans (by simp [sysInstr, hc])) h
theorem halt (f : SysF) : Statement (.halt f) := fun _ h => decode_full (major := 0x7E) rfl rfl ((raw_sys 3 f).trans rfl) h
theorem teamAdmission : Statement (.teamAdmission) := noWord rfl
theorem taskAdmission (die : Nat) : Statement (.taskAdmission die) := noWord rfl
theorem placement (core : Nat) : Statement (.placement core) := noWord rfl
theorem preemption : Statement (.preemption) := noWord rfl
theorem preemptionSave (team : Nat) : Statement (.preemptionSave team) := noWord rfl
theorem teamResume (team : Nat) : Statement (.teamResume team) := noWord rfl
theorem fold (frame : Nat) : Statement (.fold frame) := noWord rfl
theorem mergeGroupRetire (g : GRef) : Statement (.mergeGroupRetire g) := noWord rfl
theorem syncApplication (frame : Nat) : Statement (.syncApplication frame) := noWord rfl
theorem gridCompletion (grid : Nat) : Statement (.gridCompletion grid) := noWord rfl
theorem launchCompletion (grid : Nat) : Statement (.launchCompletion grid) := noWord rfl
theorem stakeMessage (index : Nat) : Statement (.stakeMessage index) := noWord rfl
theorem lineDelivered (op team line : Nat) : Statement (.lineDelivered op team line) := noWord rfl
theorem engineOpComplete (op : Nat) : Statement (.engineOpComplete op) := noWord rfl
theorem mcDrain (op team : Nat) : Statement (.mcDrain op team) := noWord rfl
theorem matrixOpStart (core : Nat) : Statement (.matrixOpStart core) := noWord rfl
theorem monitorReread (mon : Nat) : Statement (.monitorReread mon) := noWord rfl
theorem monitorPoll (mon : Nat) : Statement (.monitorPoll mon) := noWord rfl
theorem monitorTimeout (mon : Nat) : Statement (.monitorTimeout mon) := noWord rfl
theorem commitRound (g : GRef) : Statement (.commitRound g) := noWord rfl
theorem cairn (g : GRef) : Statement (.cairn g) := noWord rfl
theorem orderedCommit (g : GRef) : Statement (.orderedCommit g) := noWord rfl
theorem irrevocableBegin (g : GRef) (lane : Nat) : Statement (.irrevocableBegin g lane) := noWord rfl
theorem watchdog (g : GRef) (lane : Nat) : Statement (.watchdog g lane) := noWord rfl
theorem accessPerform (acc : Nat) : Statement (.accessPerform acc) := noWord rfl
theorem eviction (l : CacheLine) : Statement (.eviction l) := noWord rfl
theorem spontaneousWriteback (sector : Nat) (toDram : Bool) : Statement (.spontaneousWriteback sector toDram) := noWord rfl
theorem refresh (bank : Nat) : Statement (.refresh bank) := noWord rfl
theorem contextFatalReport (e : ErrAt) : Statement (.contextFatalReport e) := noWord rfl
theorem trapEntry (g : GRef) : Statement (.trapEntry g) := noWord rfl
theorem asyncFaultDelivery (g : GRef) : Statement (.asyncFaultDelivery g) := noWord rfl
theorem handlerWatchdog (g : GRef) : Statement (.handlerWatchdog g) := noWord rfl
theorem remoteArrival (index : Nat) : Statement (.remoteArrival index) := noWord rfl
theorem remoteAck (acc : Nat) : Statement (.remoteAck acc) := noWord rfl
theorem peerAccess (dev off : Nat) (r : PeerReq) : Statement (.peerAccess dev off r) := noWord rfl
theorem flitReceive (port dev len : Nat) (ok : Bool) (payload : List Byte) : Statement (.flitReceive port dev len ok payload) := noWord rfl
theorem portDown (port : Nat) : Statement (.portDown port) := noWord rfl
theorem peerLost (dev : Nat) : Statement (.peerLost dev) := noWord rfl
theorem routerInput (round : Nat) (src : NetSrc) : Statement (.routerInput round src) := noWord rfl
theorem roundTimeout (round node : Nat) : Statement (.roundTimeout round node) := noWord rfl
theorem roundComplete (round core : Nat) : Statement (.roundComplete round core) := noWord rfl
theorem doorbell (queue index : Nat) : Statement (.doorbell queue index) := noWord rfl
theorem launch (queue : Nat) : Statement (.launch queue) := noWord rfl
theorem contextCreate (queue : Nat) : Statement (.contextCreate queue) := noWord rfl
theorem contextAttach (queue : Nat) : Statement (.contextAttach queue) := noWord rfl
theorem contextDestroy (queue : Nat) : Statement (.contextDestroy queue) := noWord rfl
theorem checkpoint (queue : Nat) : Statement (.checkpoint queue) := noWord rfl
theorem restore (queue : Nat) : Statement (.restore queue) := noWord rfl
theorem dieReset (queue : Nat) : Statement (.dieReset queue) := noWord rfl
theorem exportWindow (queue : Nat) : Statement (.exportWindow queue) := noWord rfl
theorem dieReadmission (die : Nat) (ok : Bool) : Statement (.dieReadmission die ok) := noWord rfl
theorem routerFailure (die router : Nat) : Statement (.routerFailure die router) := noWord rfl
theorem fabricError (die : Nat) : Statement (.fabricError die) := noWord rfl
theorem proxyAnswer (index : Nat) : Statement (.proxyAnswer index) := noWord rfl
theorem coreReset (die : Nat) : Statement (.coreReset die) := noWord rfl
theorem moduleReset : Statement (.moduleReset) := noWord rfl
theorem trainingComplete (iod1 : Bool) : Statement (.trainingComplete iod1) := noWord rfl
theorem dieAdmission (die : Nat) (ok : Bool) : Statement (.dieAdmission die ok) := noWord rfl
theorem jiathTraining (dev : Nat) (ports : List Nat) (peers : List Nat) : Statement (.jiathTraining dev ports peers) := noWord rfl
theorem jiathTrainingTimeout : Statement (.jiathTrainingTimeout) := noWord rfl
theorem loadFirmware (addr : W64) (len : Nat) : Statement (.loadFirmware addr len) := noWord rfl
theorem setPriv (ctx : Nat) : Statement (.setPriv ctx) := noWord rfl
theorem clearPriv (ctx : Nat) : Statement (.clearPriv ctx) := noWord rfl
theorem readSensors : Statement (.readSensors) := noWord rfl
theorem setPowerLimit (watts : Nat) : Statement (.setPowerLimit watts) := noWord rfl
theorem setAccess (target master : Nat) (rights : BitVec 8) : Statement (.setAccess target master rights) := noWord rfl
theorem getVersion : Statement (.getVersion) := noWord rfl
theorem getCapabilities : Statement (.getCapabilities) := noWord rfl
theorem negotiateAlgorithms : Statement (.negotiateAlgorithms) := noWord rfl
theorem getDigests : Statement (.getDigests) := noWord rfl
theorem getCertificate : Statement (.getCertificate) := noWord rfl
theorem challenge (nonce : List Byte) : Statement (.challenge nonce) := noWord rfl
theorem getMeasurements : Statement (.getMeasurements) := noWord rfl
theorem pop (log n : Nat) : Statement (.pop log n) := noWord rfl
theorem ovfClear (log : Nat) : Statement (.ovfClear log) := noWord rfl
theorem throttle (up : Bool) : Statement (.throttle up) := noWord rfl
theorem thermalTrip : Statement (.thermalTrip) := noWord rfl
theorem thermalRelease : Statement (.thermalRelease) := noWord rfl
theorem pciExpressRequest (fn : Nat) (r : PcieReq) : Statement (.pciExpressRequest fn r) := noWord rfl

end Sys2Proof.Laws.RoundTrip
end

