-- ==== Sys2Proof/Tests/Slice0.lean ====
section
/-! SUPPORT. Tests: words from the spec's worked cases, ill-formed terms, single steps, and for each statement a state that meets its
hypotheses. Every expected value comes from the spec, by its rule or its worked case. -/

set_option Elab.async false

namespace Sys2Proof.Tests

open Sys2Proof Sys2Proof.Machine

/-! ### The decoder on the words of the spec's worked cases -/

/-- An unguarded word's guard. -/
def ug : Guard := ⟨false, 7⟩
/-- A register-layout word with every optional field absent. -/
def rf (d a b c : Reg) (ty : Ty) : RegF := ⟨ug, false, d, a, b, c, false, ty, .ctl, false, 0, 0⟩
def mf (d a b : Reg) (off : BitVec 16) : MemF := ⟨ug, false, d, a, b, off⟩
def ls (sz : Sz) : LsMod := ⟨sz, .rlx, .thread, .dflt, false⟩
def ef (d a b c : Reg) (opf : BitVec 16) : EngF := ⟨ug, true, d, a, b, c, opf⟩

/-- Words that decode, each with its instruction. -/
def Reads (l : List (W64 × Instr)) : Bool := l.all fun x => decode x.1 == .ok x.2
/-- Words that the decoder refuses, with the error. -/
def Refuses (e : DecodeError) (l : List W64) : Bool := l.all fun w => decode w == .error e

/-- Sections 1 and 5: control words and the pair. -/
theorem test_decode_control : Reads [
    (0x0738000000000000, .nop ug), (0x0778000000000000, .nop ⟨true, 7⟩), (0x0538000000000000, .exit ug), (0x0638000000000000, .yield ug),
    (0x0838000001500000, .bpt ⟨ug, 0x2A⟩), (0x0338700000003000, .call ⟨ug, 14, 6, false⟩),
    (0x010807FFFFFFE000, .bra ⟨⟨false, 1⟩, 0, 0xFFFFFFFC, false⟩), (0x010807FFFFFFE400, .bra ⟨⟨false, 1⟩, 0, 0xFFFFFFFC, true⟩),
    (0x0438000070000000, .ret ⟨ug, 14, false, false⟩), (0x0148000000002000, .bra ⟨⟨true, 1⟩, 0, 4, false⟩),
    (0x8102048019060003, .pair ⟨.iadd, 4, .reg 9⟩ ⟨.shl, 6, .imm 3⟩)] = true := by decide +kernel

/-- Sections 3, 4 and 15: compute words. -/
theorem test_decode_compute : Reads [
    (0x3050505828062800, .fadd { rf 10 11 5 0 .f32 with g := ⟨true, 2⟩, bs := true, rnd := .rz }),
    (0x123840406000C002, .iaddc { rf 8 8 12 0 .n32 with aux := 2 }), (0x253808101821412C, .lop3 { rf 1 2 3 4 .b32 with op := 9, aux := 12 }),
    (0x5E38200040016000, .mfs (rf 4 0 8 0 .b64)), (0x59B8180000000800, .movi ⟨ug, true, 3, 1, false⟩),
    (0x20B818202800E000, .icmp { rf 3 4 5 0 .n64 with x := true }), (0x5E38100038014000, .mfs (rf 2 0 7 0 .b32)),
    (0x3038505048022000, .fadd (rf 10 10 9 0 .f32))] = true := by decide +kernel

/-- Sections 3, 5, 11, 13 and 14: memory words. -/
theorem test_decode_memory : Reads [
    (0x6038381028020460, .ld (mf 7 2 5 0x40) ⟨.n32, .acq, .die, .dflt, false⟩), (0x60383817F8020400, .ld (mf 7 2 0xFF 0x40) (ls .n32)),
    (0x61380017F8002400, .st (mf 0 2 0xFF 4) (ls .n32)), (0x6038201008080700, .ld (mf 4 2 1 0x100) (ls .b128)),
    (0x6B380000000000E0, .fence (mf 0 0 0 0) .ar .die), (0x6B38000000000098, .fence (mf 0 0 0 0) .rel .core),
    (0x6B380020000000E8, .fence (mf 0 4 0 0) .ar .pkg), (0x68382010280000E0, .atom (mf 4 2 5 0) ⟨.i32, .ar, .die, .add⟩),
    (0x68384017F8008307, .atom (mf 8 2 0xFF 16) ⟨.n64, .rlx, .thread, .cas⟩),
    (0x6438181028000402, .ldr (mf 3 2 5 0) ⟨.n32, .rlx, .thread, 2⟩), (0x6639401028000000, .ldMx (mf 40 2 5 0) ⟨.e4m3, .rlx, .thread⟩),
    (0x6B380037F8000202, .cctlIfetch (mf 0 6 0xFF 0)), (0x6B38000000000402, .tlbiAll (mf 0 0 0 0))] = true := by decide +kernel

/-- Sections 8, 12 and 20: transactions, group-wide words, tasks and stakes. -/
theorem test_decode_parallel : Reads [
    (0x6C38000000000000, .txbegin (rf 0 0 0 0 .i8)), (0x6C38000000000020, .txbeginTs { rf 0 0 0 0 .i8 with op := 1 }),
    (0x6C380000200C0040, .txbeginO { rf 0 0 4 1 .i8 with bs := true, op := 2 }), (0x6D38080000000000, .txcommit (rf 1 0 0 0 .i8)),
    (0x6E38000001500000, .txabort (rf 0 0 0 0x2A .i8)), (0x6E38180000000020, .txstat { rf 3 0 0 0 .i8 with op := 1 }),
    (0x6FB8283038000000, .sdopen { rf 5 6 7 0 .i8 with x := true }),
    (0x70384048203D4060, .shfl { rf 8 9 4 7 .b32 with bs := true, op := 3 }),
    (0x70384048203D4083, .shfl { rf 8 9 4 7 .b32 with bs := true, op := 4, aux := 3 }), (0x7238302800022000, .gred (rf 6 5 0 0 .f32)),
    (0x73B8000000000061, .barSync { rf 0 0 0 0 .i8 with x := true, op := 3, aux := 1 }),
    (0x73B8003800000001, .barInit { rf 0 7 0 0 .i8 with x := true, aux := 1 }),
    (0x73B8280000000021, .barArr { rf 5 0 0 0 .i8 with x := true, op := 1, aux := 1 }),
    (0x7438300010000000, .spawn (rf 6 0 2 0 .i8)), (0x7538000028040000, .sync { rf 0 0 5 0 .i8 with bs := true }),
    (0x7638A01020400004, .invokeCore { rf 20 2 4 8 .i8 with aux := 4 }), (0x7638605000800022, .invokeAny { rf 12 10 0 16 .i8 with op := 1, aux := 2 }),
    (0x7638605048040040, .invokeStake { rf 12 10 9 0 .i8 with bs := true, op := 2 }),
    (0x77386000A0800004, .await { rf 12 0 20 16 .i8 with aux := 4 }), (0x7738002000000044, .fulfil { rf 0 4 0 0 .i8 with op := 2, aux := 4 }),
    (0x7738000008040080, .drop { rf 0 0 1 0 .i8 with bs := true, op := 4 })] = true := by decide +kernel

/-- Sections 17 to 21: engine and system words. -/
theorem test_decode_engine : Reads [
    (0x78BFF85040600000, .copy (ef 0xFF 10 8 12 0)), (0x78B8282017FA0000, .fill (ef 5 4 2 0xFF 0)),
    (0x78BFF85047F80002, .copy (ef 0xFF 10 8 0xFF 2)), (0x79B8282000000000, .mshape (ef 5 4 0 0 0)),
    (0x7AB8000010300129, .mma (ef 0 0 2 6 0x129)), (0x7BB80030380104E5, .accst (ef 0 6 7 0 0x4E5)),
    (0x7CB8000000000004, .waitc (ef 0 0 0 0 4)), (0x7CB8481018210002, .monw (ef 9 2 3 4 2)), (0x7CB848101821000A, .monw (ef 9 2 3 4 10)),
    (0x7D38404800200011, .nred { ef 8 9 0 4 0x11 with x := false }), (0x7DB8280000011000, .nbar (ef 5 0 0 0 0x1000)),
    (0x7E38000000000000, .eret ⟨ug, false, 0, 0, 0⟩), (0x7EB8280001002000, .mfc ⟨ug, true, 5, 0, 2⟩),
    (0x7EB8003002001000, .mtc ⟨ug, true, 0, 6, 1⟩), (0x7E38000003000000, .halt ⟨ug, false, 0, 0, 0⟩),
    (0x7E38200001005000, .mfc ⟨ug, false, 4, 0, 5⟩), (0x7EB8003002011000, .mtcPtbase ⟨ug, true, 0, 6, 0x11⟩)] = true := by decide +kernel

/-- Sections 1, 3, 5 and 13: words that the decoder refuses, with the row of R31 that turns them down. -/
theorem test_decode_refused :
    Refuses .illegalOpcode [0, 0x7F38000000000000, 0xFFFFFFFFFFFFFFFF, 0x0A38000000000000] = true ∧
    Refuses .illegalEncoding [0x0738000000000001, 0x60383810280204A0, 0x6038381028020478, 0x6B38000000000020,
      0x7A38000010300129] = true ∧
    -- IADD v4, v4, v8 beside IADD v12, v12, v0: four reads of bank 0
    decode (0x8000000000000000 ||| (0x02040800 <<< 31) ||| 0x020C0000) = .error .illegalPair := by decide +kernel

/-! ### Ill-formed terms: one for each check of a well-formed instruction -/

/-- None of these is well-formed. -/
def Ill (l : List Instr) : Bool := l.all fun i => !i.wf

/-- Register layout: OP, TYPE, X, RND, SAT, AUX, BS and the fields D, A, B, C (R26, R68 to R74, R90). -/
theorem test_ill_register : Ill [
    .iadd { rf 0 0 0 0 .i32 with op := 1 }, .iadd (rf 0 0 0 0 .f32), .idot4 { rf 0 0 0 0 .i8 with x := true },
    .barInit { rf 0 0 0 0 .i8 with aux := 1 }, .fadd { rf 0 0 0 0 .f16x2 with x := true }, .iadd { rf 0 0 0 0 .i32 with rnd := .rz },
    .fadd { rf 0 0 0 0 .f32 with sat := true }, .iadd { rf 0 0 0 0 .i32 with aux := 1 }, .iaddc { rf 0 0 0 0 .n32 with aux := 8 },
    .lop3 { rf 0 0 0 0 .b32 with aux := 1 }, .cvt { rf 0 0 0 0 .f32 with aux := 13 }, .invokeAny { rf 0 0 0 0 .i8 with op := 1, aux := 17 },
    .barArr { rf 0 0 0 0 .i8 with x := true, op := 1, aux := 16 }, .shfl { rf 0 0 0 0 .b32 with aux := 6 },
    .not { rf 0 0 0 0 .b32 with bs := true }, .txbeginO { rf 0 0 4 1 .i8 with op := 2 }, .iadd (rf 1 0 0 0 .i64), .iadd (rf 0 1 0 0 .i64),
    .iadd (rf 0 0 3 0 .i64), .iadd { rf 64 0 0 0 .i32 with x := true }, .iadd { rf 0 0 64 0 .i32 with bs := true }, .iadd (rf 0 0 0 1 .i32),
    .icmp (rf 8 0 0 0 .i32), .icmp { rf 0 0 0 0 .i32 with op := 6 }, .fcmp { rf 0 0 0 0 .f32 with op := 13 }, .fulfil { rf 0 6 0 0 .i8 with op := 2, aux := 4 },
    .mxq (rf 4 0 0 8 .e4m3), .mxq (rf 0 16 0 8 .e4m3), .spawn (rf 6 0 3 0 .i8)] = true := by decide +kernel

/-- What single instructions ask beyond the general checks: CVT's SAT, the elements of QPACK and QUNPK, the registers of MFS and MTS,
the types and rounding of GRED (R17, R122 to R124, R198). -/
theorem test_ill_extra : Ill [
    .cvt { rf 0 0 0 0 .f32 with sat := true, aux := 18 }, .qpack { rf 0 0 0 0 .f16 with op := 1 }, .qunpk { rf 0 0 0 0 .e4m3 with op := 2 },
    .mfs (rf 0 0 0x0F 0 .b32), .mts (rf 0 0 8 0 .b32), .gred (rf 0 0 0 0 .b32), .gred { rf 0 0 0 0 .i32 with op := 3 },
    .gred { rf 0 0 0 0 .i32 with rnd := .rz }, .gred { rf 0 0 0 0 .f32 with op := 1, rnd := .rz }] = true := by decide +kernel

/-- Immediate and wide layouts (R75, R76). -/
theorem test_ill_immediate : Ill [
    .iaddImm ⟨ug, false, 0, 0, 0, .b32, false⟩, .andImm ⟨ug, false, 0, 0, 0, .i32, false⟩, .imulImm ⟨ug, false, 0, 0, 0, .i32, true⟩,
    .iaddImm ⟨ug, false, 1, 0, 0, .i64, false⟩, .iaddImm ⟨ug, true, 64, 0, 0, .i32, false⟩, .shlImm ⟨ug, false, 0, 0, 64, .b32, false⟩,
    .sarImm ⟨ug, false, 0, 0, 0, .b32, false⟩, .faddImm ⟨ug, false, 0, 0, 0, .f16, false⟩, .movi ⟨ug, false, 0, 0, true⟩,
    .movi ⟨ug, true, 64, 0, false⟩, .movh ⟨ug, false, 3, 0, false⟩, .movh ⟨ug, true, 0, 0, true⟩] = true := by decide +kernel

/-- Control words and pairs (R29, R30, R77, R127 to R129). -/
theorem test_ill_control : Ill [
    .bra ⟨ug, 2, 0, false⟩, .call ⟨ug, 15, 0, false⟩, .brx ⟨ug, 7, false, false⟩, .ret ⟨ug, 64, true, false⟩,
    .pair ⟨.shl, 0, .imm 32⟩ ⟨.iadd, 1, .reg 2⟩, .pair ⟨.iadd, 4, .reg 9⟩ ⟨.iadd, 4, .imm 0⟩,
    .pair ⟨.iadd, 4, .reg 8⟩ ⟨.iadd, 12, .reg 0⟩, .pair ⟨.fadd, 0, .reg 1⟩ ⟨.fmul, 2, .reg 3⟩] = true := by decide +kernel

/-- Memory words (R69, R78 to R82, R136). -/
theorem test_ill_memory : Ill [
    .ld (mf 0 64 0xFF 0) (ls .n32), .ld { mf 0 2 64 0 with x := true } (ls .n32), .ld { mf 0 2 0xFF 0 with x := true } (ls .b128),
    .ld (mf 1 2 0xFF 0) (ls .b64), .ld (mf 2 2 0xFF 0) (ls .b128), .ld (mf 0 2 0xFF 0) { ls .n32 with order := .rel },
    .ld (mf 0 63 0xFF 0) { ls .n32 with scope := .pkg }, .st (mf 0 2 0xFF 0) (ls .i32), .st (mf 0 2 0xFF 0) { ls .n32 with order := .acq },
    .lds (mf 0 2 0xFF 0) { ls .n32 with scope := .die }, .lds (mf 0 2 0xFF 0) { ls .n32 with lu := true },
    .sts (mf 0 2 0xFF 0) { ls .n32 with evp := .keep }, .ldr { mf 0 2 0xFF 0 with x := true } ⟨.n32, .rlx, .thread, 0⟩,
    .preq (mf 1 2 0xFF 0), .ldMx (mf 42 2 0xFF 0) ⟨.e2m3, .rlx, .thread⟩, .stMx (mf 40 63 0xFF 0) ⟨.e4m3, .rlx, .thread⟩,
    .ldMx (mf 40 2 0xFF 0) ⟨.e4m3, .rlx, .pkg⟩, .atom (mf 0 2 0xFF 0) ⟨.f32, .rlx, .thread, .and⟩,
    .atom (mf 0 2 0xFF 0) ⟨.b32, .rlx, .thread, .add⟩, .atom (mf 2 2 0xFF 0) ⟨.n64, .rlx, .thread, .cas⟩,
    .atomv (mf 16 2 0xFF 0) ⟨.n32, .rlx, .thread, .cas⟩, .atomv (mf 4 2 0xFF 0) ⟨.n32, .rlx, .thread, .add⟩,
    .red (mf 0 2 0xFF 0) ⟨.n32, .rlx, .thread, .exch⟩, .fence (mf 0 0 0xFF 0) .ar .die, .fence (mf 0 0 0 0) .rlx .die,
    .fence (mf 0 1 0 0) .ar .die, .cctlAll (mf 0 0 0xFF 0), .cctlLine (mf 1 2 0xFF 0), .tlbiAsid (mf 0 0 0xFF 0)] = true := by decide +kernel

/-- Engine and system words (R69, R83, R84, R376 to R388, R408, R445). -/
theorem test_ill_engine : Ill [
    .copy { ef 0xFF 10 8 0xFF 0 with x := false }, .copy (ef 64 10 8 0xFF 0), .copy (ef 0xFF 10 8 63 0), .copy (ef 0xFF 10 8 0xFF 0x200),
    .copyMc (ef 63 10 8 0xFF 0x200), .fill (ef 5 4 2 0xFF 1), .mshape (ef 5 4 1 0 0), .mma (ef 1 0 2 6 0), .mma (ef 0 0 2 6 0x200),
    .accld (ef 0 6 7 0 0x24E5), .accst (ef 0 6 7 0 0xC0), .accst (ef 0 6 7 1 0x4C0), .accz (ef 0 0 0 0 0x40), .waitc (ef 0 0 0 0 0x100),
    .monw (ef 9 2 3 64 2), .monw (ef 9 2 3 4 0x10), .nred (ef 8 9 0 4 0x11), .nred { ef 8 9 0 4 0x19 with x := false },
    .nbar (ef 5 0 0 0 1), .eret ⟨⟨false, 1⟩, false, 0, 0, 0⟩, .halt ⟨ug, false, 1, 0, 0⟩, .mfc ⟨ug, true, 5, 0, 7⟩,
    .mfc ⟨ug, false, 5, 0, 2⟩, .mtc ⟨ug, true, 0, 6, 2⟩, .mtcPtbase ⟨ug, true, 0, 6, 0x10⟩, .mtcAsid ⟨ug, true, 0, 64, 0x10⟩] = true := by
  decide +kernel

/-! ### Small machines, and the issue of a word on them -/

/-- The loaded program's team with a unit of scratchpad, an accumulator and a barrier; lanes 0 and 1 issue at its first word. -/
def lab : State :=
  ((loadProgram State.reset).modTeam 0 fun t => { t with units := 1, scratchUnits := 1, accs := 1, bars := [⟨32, 0, 0⟩] }).setCur
    (some ⟨⟨0, 0⟩, 3, bootPc, false⟩)
/-- The group of the lab. -/
def g0 : GRef := ⟨0, 0⟩
/-- A lab whose group is changed. -/
def withGroup (f : Group → Group) (s : State) : State := s.modGroup g0 f
/-- A lab whose team is changed. -/
def withTeam (f : Team → Team) (s : State) : State := s.modTeam 0 f
/-- A lab in which lanes 0 and 1 are changed. -/
def withLanes (f : Thread → Thread) (s : State) : State := s.modLanes g0 [0, 1] fun _ t => f t
/-- s-registers set. -/
def withS (l : List (Nat × W64)) (s : State) : State := withGroup (fun g => l.foldl (fun x e => x.setS e.1 e.2) g) s

/-- The word issues. -/
def issues (i : Instr) (s : State) : Bool :=
  match prepare i s with
  | .run _ => true
  | .stop _ => false
/-- What its body may use. -/
def wd (i : Instr) (s : State) : Wd :=
  match prepare i s with
  | .run w => w
  | .stop _ => ⟨s, s, g0, bootTeam, Group.start 0 0 0 0 (Ctl.start 0 0 0), [], [], 0, false⟩
theorem issues_run {i : Instr} {s : State} (h : issues i s = true) : Issues i s (wd i s) := by
  unfold issues at h
  unfold Issues wd
  split at h
  · rename_i w hw
    rw [hw]
  · cases h
/-- Every word of a list issues in a state. -/
def Issue_all (l : List Instr) (s : State) : Bool := l.all fun i => i.wf && issues i s

/-! ### Witnesses: states that meet the hypotheses of the statements -/

theorem wit_IntegerWords : Issue_all [
    .iadd (rf 4 0 2 0 .i64), .isub (rf 4 0 2 0 .n32), .iaddc (rf 4 0 2 0 .n32), .isubb (rf 4 0 2 0 .n32), .imul (rf 4 0 2 0 .i32),
    .imulh (rf 4 0 2 0 .i64), .imad (rf 4 0 2 0 .i32), .imadw (rf 4 0 2 0 .i32), .idiv (rf 4 0 2 0 .i32), .irem (rf 4 0 2 0 .n64),
    .ineg (rf 4 0 0 0 .i32), .iabs (rf 4 0 0 0 .i32), .imin (rf 4 0 2 0 .i32), .imax (rf 4 0 2 0 .i32), .isad (rf 4 0 2 0 .i32),
    .idot4 (rf 4 0 2 0 .i8), .icmp { rf 4 0 2 0 .i32 with op := 5 }, .iadd { rf 4 0 2 0 .i32 with x := true, sat := true },
    .iaddImm ⟨ug, false, 4, 0, 0x800000, .i64, true⟩, .isubImm ⟨ug, true, 4, 0, 1, .n32, false⟩, .imulImm ⟨ug, false, 4, 0, 1, .i32, false⟩,
    .iminImm ⟨ug, false, 4, 0, 1, .n64, false⟩, .imaxImm ⟨ug, false, 4, 0, 1, .i32, false⟩] lab = true := by decide +kernel

theorem wit_LogicWords : Issue_all [
    .and (rf 4 0 2 0 .b64), .or (rf 4 0 2 0 .b32), .xor { rf 4 0 2 0 .b32 with bs := true }, .not (rf 4 0 0 0 .b32),
    .lop3 { rf 4 0 2 6 .b32 with op := 9, aux := 12 }, .shl (rf 4 0 2 0 .b32), .shr (rf 4 0 2 0 .b32), .sar (rf 4 0 2 0 .i32),
    .rot (rf 4 0 2 0 .b64), .fshfL (rf 4 0 2 6 .b32), .fshfR { rf 4 0 2 6 .b32 with op := 1 }, .bfe (rf 4 0 2 0 .i32),
    .bfi (rf 4 0 2 6 .b32), .popc (rf 4 0 0 0 .b64), .clz { rf 4 0 0 0 .b32 with op := 1 }, .ctz { rf 4 0 0 0 .b32 with op := 2 },
    .brev { rf 4 0 0 0 .b32 with op := 3 }, .prmt (rf 4 0 2 6 .b32), .andImm ⟨ug, false, 4, 0, 1, .b32, false⟩,
    .orImm ⟨ug, false, 4, 0, 1, .b64, false⟩, .xorImm ⟨ug, true, 4, 0, 1, .b32, false⟩, .shlImm ⟨ug, false, 4, 0, 63, .b32, false⟩,
    .shrImm ⟨ug, false, 4, 0, 1, .b32, false⟩, .sarImm ⟨ug, false, 4, 0, 1, .i64, false⟩, .rotImm ⟨ug, false, 4, 0, 1, .b32, false⟩]
    lab = true := by decide +kernel

theorem wit_FloatWords : Issue_all [
    .fadd (rf 4 0 2 0 .f16x2), .fsub { rf 4 0 2 0 .f32 with rnd := .rd }, .fmul (rf 4 0 2 0 .f64), .ffma (rf 4 0 2 6 .f32), .fmin (rf 4 0 2 0 .f32),
    .fmax (rf 4 0 2 0 .f32), .fminn (rf 4 0 2 0 .f32), .fmaxn (rf 4 0 2 0 .bf16x2), .fcmp { rf 4 0 2 0 .f32 with op := 12 }, .fclass (rf 4 0 0 0 .f32),
    .frnd (rf 4 0 0 0 .f32), .fscale (rf 4 0 2 0 .f32), .fdiv (rf 4 0 2 0 .f32), .fsqrt (rf 4 0 0 0 .f64),
    .faddImm ⟨ug, false, 4, 0, 0x3F8000, .f64, false⟩, .fsubImm ⟨ug, false, 4, 0, 1, .f32, false⟩, .fmulImm ⟨ug, false, 4, 0, 1, .f32, false⟩,
    .fminImm ⟨ug, false, 4, 0, 1, .f32, false⟩, .fmaxImm ⟨ug, true, 4, 0, 1, .f32, false⟩, .fminnImm ⟨ug, false, 4, 0, 1, .f32, false⟩,
    .fmaxnImm ⟨ug, false, 4, 0, 1, .f32, false⟩] lab = true ∧ Ty.packed .f32 = false := by decide +kernel

theorem wit_ApproximationWords : Issue_all [
    .frcp (rf 4 0 0 0 .f32), .frsq (rf 4 0 0 0 .f32), .fexp2 (rf 4 0 0 0 .f32), .flog2 (rf 4 0 0 0 .f32), .fsin (rf 4 0 0 0 .f32),
    .fcos (rf 4 0 0 0 .f32), .ftanh (rf 4 0 0 0 .f32)] lab = true := by decide +kernel

theorem wit_ConversionWords : Issue_all [
    .cvt { rf 4 0 0 0 .f64 with aux := 2 }, .qpack { rf 4 0 2 0 .e4m3 with op := 1 }, .qunpk { rf 4 0 0 0 .e4m3 with op := 1 },
    .mxq (rf 8 32 0 16 .e4m3)] lab = true := by decide +kernel

theorem wit_MoveWords : Issue_all [
    .mov (rf 4 0 2 0 .b64), .sel (rf 4 0 2 6 .b32), .pset { rf 4 0 2 6 .i8 with op := 9 }, .pmovV (rf 4 0 0 0 .i8), .pmovP { rf 0 0 0 0 .i8 with op := 1 },
    .movi ⟨ug, true, 4, 0x80000000, true⟩, .movh ⟨ug, false, 4, 1, false⟩] lab = true := by decide +kernel

/-- The trap of a state is taken at once: what `Takes` asks. -/
def takesNow (s : State) (g : GRef) (i : TrapInfo) : Bool :=
  match s.team? g.team, s.group? g with
  | some t, some gr =>
    gr.handler.isNone && drained s g && t.resident && !frameLocked s g && (loggedLanes s g).isEmpty && match s.ctxOf t with
      | some c => match writeVa s t.core gr.ctl.asid.toNat true (frameAddrOf c t gr).toNat
          (trapFrame gr (causeWord i.async i.sub2 i.sub i.cause) i.pc i.addr i.fin i.seq) with
        | .ok _ => true
        | .error _ => false
      | none => false
  | _, _ => false
theorem takes_now {s : State} {g : GRef} {i : TrapInfo} (h : takesNow s g i = true) : Takes s g i (takeTrap s g i) := by
  unfold takesNow at h
  split at h
  · rename_i t gr ht hg
    simp only [Bool.and_eq_true, Option.isNone_iff_eq_none, List.isEmpty_iff, Bool.not_eq_true'] at h
    obtain ⟨⟨⟨⟨⟨h1, h2⟩, hr⟩, hf⟩, h3⟩, h4⟩ := h
    split at h4
    · rename_i c hc
      split at h4
      · rename_i s1 hw
        exact ⟨t, gr, c, s1, ht, hg, h1, h2, hr, hf, h3, hc, hw, by simp [takeTrap, h3, ht, hg, hc, hw]⟩
      · cases h4
    · cases h4
  · cases h

/-- The lab with its trap area where its program stands. -/
def trapLab : State := lab.setCtxs (amMod lab.ctxs 0 fun c => { c with traparea := 0x10000 })
/-- Lanes 0 and 1 in a logged transaction. -/
def inTx (m : TxMode) (s : State) : State :=
  withLanes (fun t => { t with tx := some ⟨m, [], [], 0x10100, 9, 5, 3, 1⟩ }) s
/-- No active lane of a word is parked. -/
def awake (w : Wd) : Bool := w.active.all fun l => ((w.gr.lane? l).map fun t => t.park.isNone).getD true
theorem awake_is {w : Wd} (h : awake w = true) : Awake w := by
  intro l hl t ht
  have := List.all_eq_true.mp h l hl
  simpa [ht] using this
/-- The word issues, its trap is taken at once in a state, and its active lanes are awake. -/
def trapsNow (i : Instr) (s b : State) (x : TrapInfo) : Bool := issues i s && awake (wd i s) && takesNow b g0 x

theorem wit_SpecialRegisters :
    Issue_all [.mfs { rf 4 0 14 0 .b64 with x := true }, .mfs (rf 4 0 0 0 .b32)] lab = true ∧
    -- the greatest values that set no reserved bit
    (let s := withLanes (fun t => t.setV 4 15) lab
     Issues (.mts (rf 0 4 0x0A 0 .b32)) s (wd (.mts (rf 0 4 0x0A 0 .b32)) s) ∧ (s.lane? g0 1).map (fun t => t.getRun 4 1) = some 15) ∧
    (let s := withS [(4, 63)] lab
     Issues (.mts { rf 0 4 0x0B 0 .b32 with x := true }) s (wd (.mts { rf 0 4 0x0B 0 .b32 with x := true }) s) ∧
       (s.group? g0).map (fun g => g.getS 4) = some 63) ∧
    -- the least values that set a reserved bit: of the scalar form, and of one lane
    (let s := withS [(4, 64)] trapLab
     let i : Instr := .mts { rf 0 4 0x0B 0 .b32 with x := true }
     trapsNow i s (wd i s).s (wordTrap (wd i s) 0x02 0 0) = true) ∧
    (let s := trapLab.modLanes g0 [1] fun _ t => t.setV 4 16
     let i : Instr := .mts (rf 0 4 0x0A 0 .b32)
     trapsNow i s (beyond (wd i s) [1] ((wd i s).s.modLanes g0 [0] fun _ t => { t with fpctl := 0 })) (laneTrap (wd i s) [1] 0x02 0 0) = true) :=
  ⟨by decide +kernel, ⟨issues_run (by decide +kernel), by decide +kernel⟩, ⟨issues_run (by decide +kernel), by decide +kernel⟩,
   by decide +kernel⟩

theorem wit_PairWord : Issue_all [.pair ⟨.iadd, 4, .reg 9⟩ ⟨.shl, 6, .imm 31⟩, .pair ⟨.fadd, 4, .imm 0x3F80⟩ ⟨.imin, 6, .reg 1⟩] lab = true := by
  decide +kernel

/-- The lab with no thread but those at the word, and with a second group. -/
def lastLab : State := lab.modLanes g0 ((List.range 32).drop 2) fun _ t => { t with exited := true }
def last2Lab : State := lastLab.modTeam 0 fun t => { t with groups := t.groups ++ [Group.start 0 1 0 0 (Ctl.start 0 0 0)] }
/-- The lab in the handler of a trap of lanes 0 and 1, which stand at its ERET; the others at `p`. -/
def eretLab (p : Option Park) : State :=
  withGroup (fun g => { g with lanes := g.lanes.mapIdx fun l t => if l < 2 then t else { t with park := p } })
    ((takeTrap trapLab g0 ⟨7, 0x2A, 0, false, bootPc, 0, 0xFFFFFFFF00000000, 0, none⟩).setCur (some ⟨g0, 3, 0, false⟩))

/-- A word whose acting lanes go to aligned targets, without and with U; and an EXIT that leaves a thread. -/
theorem wit_Transfers :
    (∀ i ∈ [Instr.bra ⟨ug, 0, 4, true⟩, .call ⟨⟨false, 1⟩, 14, 6, false⟩, .brx ⟨ug, 6, false, true⟩, .ret ⟨ug, 8, true, false⟩, .nop ug, .yield ug],
      issues i (withLanes (fun t => (t.setRun 6 2 0x10040).setP 1 true) (withS [(8, 0x20000)] lab)) = true) ∧
    (let w := wd (.brx ⟨ug, 6, false, true⟩) (withLanes (fun t => t.setRun 6 2 0x10040) lab)
     w.acting = w.active ∧ w.acting = [0, 1] ∧ ∀ l ∈ w.acting, ((w.gr.lane? l).map fun t => t.getRun 6 2) = some 0x10040) ∧
    (let w := wd (.exit ug) lab
     Issues (.exit ug) lab w ∧ w.gr.handler = none ∧ (∃ t, w.s.team? 0 = some t ∧ t.groups.length = 1 ∧ t.phase = .running) ∧ 2 ∉ w.acting ∧
     (w.gr.lane? 2).map Thread.exited = some false ∧ w.gr.retired = false) :=
  ⟨by decide +kernel, by decide +kernel,
   ⟨issues_run (by decide +kernel), by decide +kernel, ⟨((wd (.exit ug) lab).s.team? 0).getD bootTeam, by decide +kernel⟩, by decide +kernel⟩⟩

/-- UNIFORMITY, and MISALIGNED_PC of the group's target and of one lane's. -/
theorem wit_TransferTraps :
    (let s := trapLab.modLanes g0 [0, 1] fun l t => t.setRun 6 2 (0x10040 + 8 * l)
     let i : Instr := .brx ⟨ug, 6, false, true⟩
     trapsNow i s (wd i s).s (wordTrap (wd i s) 0x04 0 0) = true) ∧
    (let s := withS [(8, 0x10044)] trapLab
     let i : Instr := .ret ⟨ug, 8, true, false⟩
     trapsNow i s (wd i s).s (wordTrap (wd i s) 0x09 0 0x10044) = true) ∧
    (let s := trapLab.modLanes g0 [0, 1] fun l t => t.setRun 6 2 (0x10040 + 4 * l)
     let i : Instr := .brx ⟨ug, 6, false, false⟩
     trapsNow i s ((wd i s).s.modGroup g0 (eachLane fun l t => if l = 0 then { t with pc := 0x10040 } else t))
       (laneTrap (wd i s) [1] 0x09 0 0x10044) = true) := by decide +kernel

/-- EXIT of the last threads of a group and of a team, and in a handler. -/
theorem wit_Exits :
    (∀ s ∈ [lastLab, last2Lab], let w := wd (.exit ug) s
     issues (.exit ug) s = true ∧ w.acting = [0, 1] ∧ ((w.gr.lanes.drop 2).all Thread.exited && w.gr.handler.isNone && w.gr.held.isEmpty &&
       w.gr.pendTrap.isNone && drained w.s g0 && (ownedFrames w.s 0).isEmpty &&
       [w.gr.cpy.n, w.gr.mtx.n, w.gr.net.n, w.gr.rem.n] == [0, 0, 0, 0]) = true) ∧
    (∀ s ∈ [lastLab, last2Lab], ((wd (.exit ug) s).s.team? 0).map (fun t => (t.phase, t.kind, t.parent, t.inv.isNone)) =
      some (.running, .grid, none, true)) ∧
    ((wd (.exit ug) lastLab).s.team? 0).map (fun t => t.groups == [(wd (.exit ug) lastLab).gr]) = some true ∧
    ((wd (.exit ug) last2Lab).s.team? 0).map (fun t => t.groups.mapIdx fun i x =>
      (x.retired, groupQuiet (wd (.exit ug) last2Lab).s ⟨0, i⟩ x)) = some [(false, false), (false, false)] ∧
    (let w := wd (.exit ug) (eretLab none)
     issues (.exit ug) (eretLab none) = true ∧ w.gr.handler.isSome = true ∧ w.acting = [0, 1] ∧ w.s.inLogged g0 0 = false) :=
  ⟨by decide +kernel, by decide +kernel, by decide +kernel, by decide +kernel, by decide +kernel⟩

theorem wit_TrapWords :
    (let w := wd (.bpt ⟨ug, 0x2A⟩) trapLab
     Issues (.bpt ⟨ug, 0x2A⟩) trapLab w ∧ (∃ l ∈ w.acting, w.s.inLogged w.g l = false) ∧
     Takes w.s w.g (wordTrap w 0x07 0x2A 0) (takeTrap w.s w.g (wordTrap w 0x07 0x2A 0))) ∧
    (let w := wd (.trap ⟨ug, 0xFF⟩) trapLab
     Issues (.trap ⟨ug, 0xFF⟩) trapLab w ∧ (∃ l ∈ w.acting, w.s.inLogged w.g l = false) ∧
     Takes w.s w.g (wordTrap w 0x08 0xFF 0) (takeTrap w.s w.g (wordTrap w 0x08 0xFF 0))) ∧
    ∀ i ∈ [Instr.bpt ⟨ug, 0⟩, .trap ⟨ug, 0⟩], let w := wd i (inTx .value lab)
      issues i (inTx .value lab) = true ∧ ∀ l ∈ w.acting, w.s.inLogged w.g l = true :=
  ⟨⟨issues_run (by decide +kernel), by decide +kernel, takes_now (by decide +kernel)⟩,
   ⟨issues_run (by decide +kernel), by decide +kernel, takes_now (by decide +kernel)⟩, by decide +kernel⟩

theorem wit_TrapEntryState : Takes trapLab g0 ⟨7, 1, 2, true, 8, 9, 3, 4, none⟩ (takeTrap trapLab g0 ⟨7, 1, 2, true, 8, 9, 3, 4, none⟩) ∧
    (trapLab.team? 0).isSome = true ∧ (trapLab.group? g0).isSome = true ∧ ((trapLab.team? 0).bind trapLab.ctxOf).isSome = true :=
  ⟨takes_now (by decide +kernel), by decide +kernel⟩

theorem wit_GroupWideWords : Issue_all [
    .voteEvery (rf 1 0 0 0 .i8), .voteSome { rf 1 0 0 0 .i8 with op := 1 }, .voteSame { rf 1 0 0 0 .i8 with op := 2 },
    .voteMask { rf 1 0 0 0 .i8 with op := 3 }, .matchPeers { rf 4 0 0 0 .b64 with op := 4 }, .matchUniform { rf 4 0 0 1 .b32 with op := 5 },
    .elect { rf 1 0 0 0 .i8 with op := 6 }, .voteCount { rf 4 0 0 0 .i8 with op := 7 },
    .shfl { rf 8 9 4 7 .b32 with bs := true, op := 4, aux := 3 }, .gred (rf 6 5 0 0 .f32)] lab = true := by decide +kernel

theorem wit_BarrierWords :
    (∀ n ∈ [1, 1024], let s := withS [(7, BitVec.ofNat 64 n)] lab
      ∀ i ∈ [Instr.barInit { rf 0 7 0 0 .i8 with x := true }, .barArr { rf 5 0 0 0 .i8 with x := true, op := 1 },
          .barSync { rf 0 0 0 0 .i8 with x := true, op := 3 }, .barWait { rf 0 7 0 0 .i8 with x := true, op := 2 }],
        i.wf = true ∧ issues i s = true ∧ (wd i s).acting = (wd i s).active ∧ barrierOf (wd i s).s 0 0 = some ⟨32, 0, 0⟩ ∧
        someoneAt (wd i s).s 0 0 = false) ∧
    -- a second team of the grid on the cluster, for BAR.ARR.RMT
    (let s := withS [(4, 0x100000001)] ((lab.putTeam 1 { bootTeam with teamid := 1, core := 1, bars := [⟨32, 0, 0⟩] }).setGrids
        (amMod lab.grids 0 fun g => { g with nextTeam := 2 }))
     let i : Instr := .barArrRmt { rf 0 0 4 0 .i8 with x := true, op := 1, sat := true }
     let w := wd i s
     Issues i s w ∧ w.acting = w.active ∧ w.t.kind = .grid ∧ ((remoteTeam w 0x100000001).map fun t => (t.1, t.2.bars.length)) = some (1, 1)) ∧
    -- the first arrival of its team, one of another team waiting before it
    (let m : StakeMsg := ⟨32, 5, 0, .arrival g0 0 0 2, none, false⟩
     let s := lab.setMsgs [(4, ⟨2144, 4, 0, .arrival ⟨1, 0⟩ 0 0 2, none, false⟩), (5, m)]
     amGet s.msgs 5 = some m ∧ ((wakeGroup (s.setMsgs (amDel s.msgs 5)) g0 (fun p => p == .accept 5) ⟨[], none, none⟩).team? 0).isSome = true ∧
       (s.msgs.filter fun x => x.1 < 5 && (match x.2.kind with
         | .arrival h _ _ _ => h.team == g0.team
         | _ => false)) = []) :=
  ⟨by decide +kernel, ⟨issues_run (by decide +kernel), by decide +kernel⟩, by decide +kernel⟩

theorem wit_BarrierArrival : barrierOf lab 0 0 = some ⟨32, 0, 0⟩ := by decide +kernel

/-! Memory words. VA 0x10000 is key 0x100000; s2 names it. -/

/-- The lab with s2 at the page, a lane's v0 at 5, and one lane at the word. -/
def memLab : State := (withLanes (fun t => (t.setV 0 5).setV 1 7) (withS [(2, 0x10000), (3, 0x10100)] lab)).setCur (some ⟨g0, 1, bootPc, false⟩)
/-- The same with accesses left outstanding. -/
def deferLab : State := memLab.setCur (some ⟨g0, 1, bootPc, true⟩)
/-- The state after the translation of an access, and after it is performed. -/
def xs (w : Wd) (q : Req) (s : State) : State :=
  (xlate (acquired w q s) w.t.core w.gr.ctl.asid.toNat w.gr.ctl.priv (needOf q.kind) q.va.toNat).2
def pf (w : Wd) (q : Req) (s : State) (key : Nat) : State := (performAccess (xs w q s) (accessOf w q key 0x10187D)).getD s

def ldR : Req := ⟨0x60, 0, 0x10040, 4, .load 4 false .i16 none, .rlx, .thread, .dflt, false⟩
def stR : Req := ⟨0x61, 0, 0x10040, 4, .store (toBytes 4 5), .rlx, .thread, .dflt, false⟩
def atR : Req := ⟨0x68, 0, 0x10040, 4, .atom .n32 .cas [(0, 7)] true 4 false, .rlx, .thread, .dflt, false⟩

/-- LD of a halfword, at its home. -/
theorem does_ld : Does (wd (.nop ug) memLab) { ldR with n := 2 } (.mem 0x100040 0x10187D 0) [0, 0] (wd (.nop ug) memLab).s
    (pf (wd (.nop ug) memLab) { ldR with n := 2 } (wd (.nop ug) memLab).s 0x100040) := by
  apply Does.home 0x100040 0x10187D (xs (wd (.nop ug) memLab) ldR (wd (.nop ug) memLab).s) <;> first | decide +kernel | rfl

/-- ST of a word, at its home. -/
theorem does_st : Does (wd (.nop ug) memLab) stR (.mem 0x100040 0x10187D 0) [0, 0, 0, 0] (wd (.nop ug) memLab).s
    (pf (wd (.nop ug) memLab) stR (wd (.nop ug) memLab).s 0x100040) := by
  apply Does.home 0x100040 0x10187D (xs (wd (.nop ug) memLab) stR (wd (.nop ug) memLab).s) <;> first | decide +kernel | rfl

/-- ATOM.CAS, at its home. -/
theorem does_atom : Does (wd (.nop ug) memLab) atR (.mem 0x100040 0x10187D 0) [0, 0, 0, 0] (wd (.nop ug) memLab).s
    (pf (wd (.nop ug) memLab) atR (wd (.nop ug) memLab).s 0x100040) := by
  apply Does.home 0x100040 0x10187D (xs (wd (.nop ug) memLab) atR (wd (.nop ug) memLab).s) <;> first | decide +kernel | rfl

/-- The first 256 bytes of the page are a view at scratchpad 0. -/
def viewLab : State := withTeam (fun t => { t with tiles := [⟨0x10000, 256, 0, 6, 0, 0, 0⟩] }) memLab
theorem does_view : Does (wd (.nop ug) viewLab) stR (.view 0 0x40) [0, 0, 0, 0] (wd (.nop ug) viewLab).s
    (performAt (.view 0 0x40) (wd (.nop ug) viewLab).s g0 0 stR.kind) := by
  apply Does.view (((wd (.nop ug) viewLab).s.team? 0).getD bootTeam) 0x40 <;> first | decide +kernel | rfl

/-- The core's L1 holds the sector. -/
def hitLab : State := memLab.modCore 0 fun c => { c with l1 := [(0x100040 / 64, ⟨List.replicate 64 9#8, false⟩)] }
theorem does_hit : Does (wd (.nop ug) hitLab) { ldR with n := 2 } (.mem 0x100040 0x10187D 0) [9, 9] (wd (.nop ug) hitLab).s
    (l1Hit (xs (wd (.nop ug) hitLab) ldR (wd (.nop ug) hitLab).s) (accessOf (wd (.nop ug) hitLab) { ldR with n := 2 } 0x100040 0x10187D)
      (List.replicate 64 9#8)) := by
  apply Does.hit 0x100040 0x10187D (List.replicate 64 9#8) (xs (wd (.nop ug) hitLab) ldR (wd (.nop ug) hitLab).s) <;>
    first | decide +kernel | rfl

/-- A page that is not resident at VA 0x20000. -/
def absentLab : State := memLab.setMem (putNode memLab.mem 0xB010 0x50009)
def ldrR : Req := ⟨0x64, 0, 0x20000, 4, .load 4 false .n32 (some 2), .rlx, .thread, .dflt, false⟩
theorem absent_ldr : DoesAbsent (wd (.nop ug) absentLab) ldrR (wd (.nop ug) absentLab).s
    (putLoad (xs (wd (.nop ug) absentLab) ldrR (wd (.nop ug) absentLab).s) g0 0 4 false .n32 (some 2) true 0) :=
  ⟨by decide +kernel, ⟨by decide +kernel, by decide +kernel, by decide +kernel⟩, 4, false, .n32, some 2,
    xs (wd (.nop ug) absentLab) ldrR (wd (.nop ug) absentLab).s, rfl, by decide +kernel, rfl⟩

theorem queued_ld : ∃ u, Queued (wd (.nop ug) deferLab) { ldR with n := 2 } (wd (.nop ug) deferLab).s u :=
  ⟨_, by decide +kernel, ⟨by decide +kernel, by decide +kernel, by decide +kernel⟩, by decide +kernel, 0x100040, 0x10187D,
    xs (wd (.nop ug) deferLab) ldR (wd (.nop ug) deferLab).s, by decide +kernel, by decide +kernel, by decide +kernel, rfl⟩

/-- A store to the host, the class's counter at its last value that has room. -/
def hostLab : State := withGroup (fun g => { g with rem := ⟨62, 0xFFFFFFFF⟩ }) memLab
def hostR : Req := { stR with va := 0x9000000000000000 }
theorem sent_st : ∃ u, Sent (wd (.nop ug) hostLab) hostR (wd (.nop ug) hostLab).s u := by
  have store : ∀ ps, hostR.kind ≠ .unit ps := fun ps h => AccKind.noConfusion h
  refine ⟨_, ?_, ?_, ?_, ?_, ?_, ?_, store, ((wd (.nop ug) hostLab).s.group? g0).getD (wd (.nop ug) hostLab).gr, ?_, ?_, rfl⟩ <;>
    decide +kernel

/-- A load of a buffered word in a logged transaction. -/
def txLab : State := withLanes (fun t => { t with tx := some ⟨.value, [], [⟨0x100040, 0x10187D, 1, 0xAABBCCDD, 0x0F, 0, false⟩], 0x10100, 9, 5, 3, 1⟩ }) memLab
def txR : Req := ⟨0x60, 0, 0x10040, 8, .load 4 false .b64 none, .rlx, .thread, .dflt, false⟩
/-- What `txAt` leaves where it neither traps nor aborts. -/
def okOf (o : LaneOut) : Option State :=
  match o with
  | .ok s => some s
  | _ => none
theorem okOf_some {o : LaneOut} {s : State} (h : (okOf o).isSome = true) (hs : s = (okOf o).getD s) : o = .ok s := by
  cases o <;> simp_all [okOf]

theorem wit_Logged : ∃ w q s u t x, Logged w q s u ∧ s.lane? w.g q.lane = some t ∧ t.tx = some x ∧ q.kind = .load 4 false .b64 none := by
  let w := wd (.nop ug) txLab
  let t := (w.s.lane? g0 0).getD (Thread.start 0)
  let x := t.tx.getD ⟨.value, [], [], 0, 0, 0, 0, 0⟩
  have h : (okOf (txAt w txR (xs w txR w.s) x 0x100040 0x10187D)).isSome = true := by decide +kernel
  have run : txAt w txR (xs w txR w.s) x 0x100040 0x10187D = .ok ((okOf (txAt w txR (xs w txR w.s) x 0x100040 0x10187D)).get h) := by
    revert h
    cases txAt w txR (xs w txR w.s) x 0x100040 0x10187D <;> simp [okOf]
  refine ⟨w, txR, w.s, (okOf (txAt w txR (xs w txR w.s) x 0x100040 0x10187D)).get h, t, x,
    ⟨t, x, 0x100040, 0x10187D, xs w txR w.s, ?_, ?_, ?_, ?_, ?_, ?_, ?_, run⟩, ?_, ?_, rfl⟩ <;> decide +kernel

/-- A store and an atomic of the buffered word, and one byte on, where nothing is buffered. -/
theorem wit_LoggedWrites : ∀ q ∈ [{ stR with va := 0x10046, n := 2, kind := .store [0x34, 0x12] },
      { atR with kind := .atom .n32 .add [(3, 0)] true 4 false }],
    let w := wd (.nop ug) txLab
    let x := (((w.s.lane? g0 0).getD (Thread.start 0)).tx).getD ⟨.value, [], [], 0, 0, 0, 0, 0⟩
    q.va.toNat % q.n = 0 ∧ x.mode ≠ .irrevocable ∧ (okOf (txAt w q (xs w q w.s) x (0x100000 + q.va.toNat % 65536) 0x10187D)).isSome = true ∧
    (xlate w.s w.t.core w.gr.ctl.asid.toNat w.gr.ctl.priv (needOf q.kind) q.va.toNat).1 = .ok (0x100000 + q.va.toNat % 65536) 0x10187D ∧
    x.buffered 0x100043 = some 0xAA ∧ x.buffered 0x100046 = none := by decide +kernel

/-- Lane 0's halfword passes and lane 1's is misaligned; the scalar unit's word has no page. -/
def tryLab : State := (withLanes (fun t => (t.setV 0 5).setV 1 7) (withS [(2, 0x10000), (3, 0x10100)] trapLab)).modLanes g0 [1] fun _ t => t.setV 5 1
theorem wit_MemoryTraps :
    (let i : Instr := .ld (mf 4 2 5 0x40) (ls .i16)
     let q (l : Nat) : Req := ⟨0x60, l, if l = 1 then 0x10041 else 0x10040, 2, .load 4 false .i16 none, .rlx, .thread, .dflt, false⟩
     let w := wd i tryLab
     let u := pf w (q 0) w.s 0x100040
     Tries w q w.acting [(1, 0x16, 0)] w.s u ∧ trapsNow i tryLab (beyond w [1] u) (laneTrap w [1] 0x16 0 0x10041) = true ∧
       ∀ k ∈ w.acting, w.s.inLogged g0 k = false) ∧
    (let i : Instr := .ld { mf 4 2 0xFF 0 with x := true } (ls .n32)
     let s := withS [(2, 0x30000)] trapLab
     let q : Req := ⟨0x60, 32, 0x30000, 4, .load 4 true .n32 none, .rlx, .thread, .dflt, false⟩
     let w := wd i s
     Fails w q w.s 0x10 0 (xs w q w.s) ∧ trapsNow i s (xs w q w.s) (wordTrap w 0x10 0 0x30000) = true ∧ w.s.inLogged g0 32 = false) := by
  refine ⟨⟨?_, by decide +kernel, by decide +kernel⟩, ?_, by decide +kernel, by decide +kernel⟩
  · refine .inl ⟨_, .inl ⟨.mem 0x100040 0x10187D 0, [0, 0], ?_⟩, .inr ⟨0x16, 0, _, [], .misaligned (by decide +kernel), rfl, rfl, rfl⟩⟩
    apply Does.home 0x100040 0x10187D (xs (wd (.ld (mf 4 2 5 0x40) (ls .i16)) tryLab)
      ⟨0x60, 0, 0x10040, 2, .load 4 false .i16 none, .rlx, .thread, .dflt, false⟩ (wd (.ld (mf 4 2 5 0x40) (ls .i16)) tryLab).s) <;>
      first | decide +kernel | rfl
  · exact Fails.refused ⟨0x10, 0⟩ _ ⟨by decide +kernel, by decide +kernel, by decide +kernel⟩ (.inr rfl) (by decide +kernel) (by decide)

/-- The five ways in which an access of a memory word passes, and a word whose one access is performed. -/
theorem wit_MemoryWords :
    (let i : Instr := .ld (mf 4 2 0xFF 0x40) (ls .i16)
     ∃ t, i.wf = true ∧ Issues i memLab (wd i memLab) ∧
      Runs (fun l => Passes (wd i memLab) ⟨0x60, l, 0x10040, 2, .load 4 false .i16 none, .rlx, .thread, .dflt, false⟩)
        (unitsOf (mf 4 2 0xFF 0x40) (wd i memLab)) (wd i memLab).s t) ∧
    Passes (wd (.nop ug) absentLab) ldrR (wd (.nop ug) absentLab).s
      (putLoad (xs (wd (.nop ug) absentLab) ldrR (wd (.nop ug) absentLab).s) g0 0 4 false .n32 (some 2) true 0) ∧
    (∃ u, Passes (wd (.nop ug) deferLab) { ldR with n := 2 } (wd (.nop ug) deferLab).s u) ∧
    (∃ u, Passes (wd (.nop ug) hostLab) hostR (wd (.nop ug) hostLab).s u) ∧
    (∃ w q s u, Passes w q s u ∧ s.inLogged w.g q.lane = true) ∧
    Issue_all [.st (mf 0 2 0xFF 0) (ls .n32), .ldr (mf 4 2 0xFF 0) ⟨.n32, .rlx, .thread, 2⟩, .atom (mf 8 2 0xFF 16) ⟨.n64, .rlx, .thread, .cas⟩,
      .atomv (mf 16 2 0xFF 0) ⟨.n32, .rlx, .thread, .add⟩, .red { mf 0 2 0xFF 0 with x := true } ⟨.n32, .rlx, .thread, .add⟩,
      .lds (mf 4 2 0xFF 0) (ls .n32), .sts (mf 4 2 0xFF 0) (ls .n32)] memLab = true := by
  refine ⟨⟨_, by decide +kernel, issues_run (by decide +kernel), _, .inl ⟨_, _, does_ld⟩, rfl⟩, .inr (.inl absent_ldr), ?_, ?_, ?_,
    by decide +kernel⟩
  · obtain ⟨u, h⟩ := queued_ld
    exact ⟨u, .inr (.inr (.inl h))⟩
  · obtain ⟨u, h⟩ := sent_st
    exact ⟨u, .inr (.inr (.inr (.inl h)))⟩
  · obtain ⟨w, q, s, u, t, x, h, ht, hx, hk⟩ := wit_Logged
    obtain ⟨t1, x1, k, e, s1, h1, h2, h3, _⟩ := id h
    refine ⟨w, q, s, u, .inr (.inr (.inr (.inr h))), ?_⟩
    simp [State.inLogged, h1, Thread.logged, Thread.inTx, Thread.irrev, h2, h3]

/-- A scratchpad access at the last word of the team's unit. -/
theorem wit_Scratchpad : ∃ p u, DoesLocal (wd (.nop ug) memLab) { ldR with va := 0xFFFC, n := 4, kind := .load 4 false .n32 none } p
    (wd (.nop ug) memLab).s u :=
  ⟨.view (scratchOwner (wd (.nop ug) memLab).s (wd (.nop ug) memLab).g.team) 0xFFFC, _, by decide +kernel,
    ((wd (.nop ug) memLab).s.team? 0).getD bootTeam, 0xFFFC, by decide +kernel, by decide +kernel, by decide +kernel, by decide +kernel, rfl, rfl⟩

/-- The hypotheses of LoadResult, StoreResult and AtomicResult: `does_ld`, `does_hit`, `absent_ldr`, `does_st`, `does_view`,
`does_atom`, and the operands of the integer operations at their bounds. -/
theorem wit_Results : (Sz.bytes .i16 = 2) ∧ (toBytes 4 5).length = 4 ∧ AType.width .n32 / 8 * 1 = 4 ∧ AType.float .n64 = false ∧
    (2 ^ 64 - 1 < 2 ^ AType.width .n64) ∧ (∀ g, memLab.group? g0 = some g → g.lanes.length = 32) :=
  ⟨rfl, rfl, rfl, rfl, by decide, fun g h => by
    have : (memLab.group? g0).map (fun g => g.lanes.length) = some 32 := by decide +kernel
    rw [h] at this
    simpa using this⟩

/-- What a read of memory, a list of views or the entry of a child leaves. -/
def okD {α ε : Type} (d : α) (e : Except ε α) : α :=
  match e with
  | .ok a => a
  | .error _ => d
def isOk {α ε : Type} (e : Except ε α) : Bool :=
  match e with
  | .ok _ => true
  | .error _ => false
theorem isOk_some {α ε : Type} {d : α} {e : Except ε α} (h : isOk e = true) : e = .ok (okD d e) := by
  cases e <;> simp_all [isOk, okD]

/-- What a part of an MX unit leaves where its checks let it pass. -/
def partOf (r : Except LaneOut (List MxPiece × State)) (s : State) : List MxPiece × State := okD ([], s) r

/-- An MX block in memory, element bytes and scale in pieces of their own: the parts of a load and of a store by one lane. -/
theorem wit_BlockWords :
    let m := mf 8 2 0xFF 0x40
    let k : MxMod := ⟨.e4m3, .acq, .die⟩
    let u := wd (.ldMx m k) memLab
    let v := wd (.stMx m ⟨.e4m3, .rlx, .thread⟩) memLab
    let a := partOf (mxPart u false 0x10040 32 (l1Clear u.s 0)) u.s
    let b := partOf (mxPart u false 0x10102 1 a.2) u.s
    let c := partOf (mxPart v true 0x10040 32 v.s) v.s
    let d := partOf (mxPart v true 0x10102 1 c.2) v.s
    (Instr.ldMx m k).wf = true ∧ issues (.ldMx m k) memLab = true ∧ issues (.stMx m ⟨.e4m3, .rlx, .thread⟩) memLab = true ∧ u.acting = [0] ∧
    (isOk (mxPart u false 0x10040 32 (l1Clear u.s 0)) && isOk (mxPart u false 0x10102 1 a.2)) = true ∧
    (mxError u (a.1 ++ b.1) b.2).isNone = true ∧
    (isOk (mxPart v true 0x10040 32 v.s) && isOk (mxPart v true 0x10102 1 c.2)) = true ∧
    (c.1 ++ d.1).map MxPiece.at_ = [.mem 0x100040 0x10187D, .mem 0x100102 0x10187D] ∧
    -- a unit whose elements go to the host
    (let s := withS [(2, 0x9000000000000000), (3, 0x10100)] memLab
     let i : Instr := .stMx (mf 8 2 0xFF 0) ⟨.e4m3, .rlx, .thread⟩
     let w := wd i s
     let e := partOf (mxPart w true 0x9000000000000000 32 w.s) w.s
     issues i s = true ∧ (e.1.map MxPiece.at_) = [.remote] ∧
       (okOf (mxSend w ⟨.e4m3, .rlx, .thread⟩ 0 (e.1 ++ (partOf (mxPart w true 0x10100 1 e.2) w.s).1) (toBytes 33 7)
         [(0x9000000000000000, toBytes 32 7), (0x10100, toBytes 1 0)] w.s)).isSome = true) := by decide +kernel

theorem wit_CacheWords :
    Issue_all [.fence (mf 0 0 0 0) .ar .die, .fence (mf 0 4 0 0) .rel .pkg, .cctlAll (mf 0 0 0 0), .cctlLine (mf 0 2 0xFF 0), .cctlIfetch (mf 0 2 0xFF 0),
      .preq (mf 0 2 0xFF 0)] memLab = true ∧
    (∀ i ∈ [Instr.cctlLine (mf 0 2 0xFF 0), .cctlIfetch (mf 0 2 0xFF 0), .preq (mf 0 2 0xFF 0)],
      (addrsOf (mf 0 2 0xFF 0) (wd i memLab)).any (walkWaits (wd i memLab)) = false) ∧
    (memLab.group? g0).map (fun g => field (g.getS 4).toNat 8 8) = some 0 ∧
    (let w := wd (.preq (mf 0 2 0xFF 0)) memLab
     unitsOf (mf 0 2 0xFF 0) w = [0] ∧ (postResidency w.s w.t.core w.gr.ctl.asid.toNat w.t.ctx w.gr.ctl.priv 0x10000).isSome = true) ∧
    -- TLBI is privileged
    (let s := withGroup (fun g => { g with ctl := { g.ctl with priv := true } }) memLab
     Issue_all [.tlbiPage (mf 0 2 0xFF 0), .tlbiAsid (mf 0 0 0 0), .tlbiAll (mf 0 0 0 0)] s = true ∧
       (let w := wd (.tlbiAll (mf 0 0 0 0)) s
        moduleQuiet w.s none = true ∧ moduleQuiet w.s (some w.gr.ctl.asid) = true ∧ ∀ l ∈ w.active, w.s.inLogged w.g l = false)) := by
  decide +kernel

/-- A handle of register 0 of the slice 0, generation 1, and the register open there. -/
def domLab (next limit : Nat) : State :=
  withS [(4, 0x100000000), (6, 0xFFFFFFFE), (7, 0x100000000)]
    (lab.modSlice 0 0 fun x => { x with domains := [(0, ⟨1, true, limit, next, next, g0, some 0⟩)] })

theorem wit_TransactionBegin :
    (∀ i ∈ [Instr.txbegin (rf 8 0 0 0 .i8), .txbeginTs { rf 8 0 0 0 .i8 with op := 1 }],
      let w := wd i lab
      i.wf = true ∧ issues i lab = true ∧ w.s.group? w.g = some w.gr ∧ w.acting = [0, 1] ∧ w.acting = w.active ∧ roundOut w.s w.g = false ∧
        (w.gr.lane? 0).map (fun u => u.txlog.hold) = some 0) ∧
    -- a held lane beside one that begins, and lanes of which none may
    (let w := wd (.txbegin (rf 8 0 0 0 .i8)) (lab.modLanes g0 [1] fun _ t => { t with txlog := { t.txlog with hold := 7 } })
     w.s.group? w.g = some w.gr ∧ w.acting = [0, 1] ∧ (w.gr.lane? 1).map (fun u => u.txlog.hold) = some 7 ∧
       (w.gr.lane? 0).map (fun u => u.txlog.hold) = some 0 ∧ roundOut w.s w.g = false) ∧
    (let w := wd (.txbegin (rf 8 0 0 0 .i8)) (withLanes (fun t => { t with txlog := { t.txlog with hold := 7 } }) lab)
     w.s.group? w.g = some w.gr ∧ w.s.team? w.g.team = some w.t ∧ w.t.resident = true ∧ w.t.saving = false ∧ w.gr.handler = none ∧
       w.acting = [0, 1] ∧ (List.range 32).all (fun l => ((w.gr.lane? l).map fun u => u.tx.isNone).getD false) = true ∧
       (w.gr.lane? 0).map (fun u => u.txlog.hold) = some 7 ∧ (w.gr.lane? 1).map (fun u => u.txlog.hold) = some 7) ∧
    -- two lanes take the last two indices; and a domain that is used up, or closed
    (∀ s ∈ [domLab 7 9, domLab 9 9, withS [(4, 0x200000000)] (domLab 0 0)],
      let i : Instr := .txbeginO { rf 8 0 4 1 .i8 with bs := true, op := 2 }
      let w := wd i s
      i.wf = true ∧ issues i s = true ∧ handleBad (w.gr.getS 4) = false ∧ w.acting = [0, 1] ∧ w.acting = w.active ∧
        ∀ l ∈ w.acting, (w.s.lane? g0 l).map (fun u => u.txlog.owed) = some none) ∧
    domainLive (domLab 7 9) 0x100000000 = true ∧ (getDomain (domLab 7 9) 0x100000000).next + 2 = 9 ∧
    domainLive (withS [(4, 0x200000000)] (domLab 0 0)) 0x200000000 = false ∧
    (let i : Instr := .sdopen { rf 5 6 7 0 .i8 with x := true }
     let w := wd i (domLab 0 0)
     i.wf = true ∧ issues i (domLab 0 0) = true ∧ (w.gr.getS 7).toNat = 2 ^ 32 ∧ (w.gr.getS 6).toNat = 0xFFFFFFFE ∧
       leastSlice (w.s.die 0) = 1 ∧ freeDomain ((w.s.die 0).slice 1) = some 0) := by decide +kernel

/-- Lane 0 alone, in an irrevocable transaction that owes the first index of a domain. -/
def irrLab : State :=
  ((inTx .irrevocable (domLab 9 9)).modLanes g0 [0] fun _ t => { t with txlog := { t.txlog with owed := some 0x100000000 } }).setCur
    (some ⟨g0, 1, bootPc, false⟩)

theorem wit_TransactionEnd :
    (∀ m ∈ [TxMode.value, .stamp, .ordered],
      let s := inTx m lab
      let w := wd (.txcommit (rf 1 0 0 0 .i8)) s
      issues (.txcommit (rf 1 0 0 0 .i8)) s = true ∧ w.s.group? w.g = some w.gr ∧ w.acting = [0, 1] ∧
        ∀ l ∈ w.acting, w.s.inLogged w.g l = true) ∧
    (let s := inTx .irrevocable lab
     let w := wd (.txcommit (rf 1 0 0 0 .i8)) s
     issues (.txcommit (rf 1 0 0 0 .i8)) s = true ∧ w.s.group? w.g = some w.gr ∧ w.gr.handler = none ∧ w.acting = [0, 1] ∧
       w.acting = w.active ∧ ∀ l ∈ w.acting, w.s.isIrrev w.g l = true) ∧
    (let w := wd (.txcommit (rf 1 0 0 0 .i8)) irrLab
     issues (.txcommit (rf 1 0 0 0 .i8)) irrLab = true ∧ w.s.group? w.g = some w.gr ∧ w.gr.handler = none ∧ w.acting = [0] ∧ w.active = [0] ∧
       w.s.isIrrev w.g 0 = true ∧ (w.gr.lane? 0).map (fun u => u.txlog.owed) = some (some 0x100000000) ∧ domainLive w.s 0x100000000 = true) ∧
    (∀ s ∈ [lab, inTx .value lab], Issue_all [.txabort (rf 0 0 0 0x2A .i8), .txstat { rf 3 0 0 0 .i8 with op := 1 }] s = true) ∧
    -- a thread whose abort count is the last that an abort still raises
    (let t : Thread := { Thread.start 0 with tx := some ⟨.value, [], [], 0x10100, 9, 5, 3, 1⟩, txlog := { (Thread.start 0).txlog with aborts := 254 } }
     t.tx.isSome = true ∧ t.txlog.aborts < 255) := by decide +kernel

/-- Bytes stored at an address of the lab's page. -/
def poke (va : Nat) (bs : List Byte) (s : State) : State :=
  match writeVa s 0 1 false va bs with
  | .ok t => t
  | .error _ => s
/-- A join frame at 0x10800 with a count of children, owned by the lab's group. -/
def joinFrame (n cur : Nat) : Frame :=
  ⟨0x10800, 0, 1, n, cur, false, 0, true, some g0, 0, 0, [], 0, 0, [], [], none, [], none, none⟩

/-- A descriptor of R168: entry, argument, join frame 0x10800, no views, budget 16, one group. -/
def descBytes : List Byte :=
  toBytes 8 0x10000 ++ toBytes 8 0x77 ++ toBytes 8 0x10800 ++ toBytes 8 0 ++ toBytes 2 16 ++ toBytes 1 1 ++ toBytes 29 0
/-- The descriptor at 0x10400, and the frame bound with room for one child more. -/
def spawnLab (n : Nat) : State :=
  withS [(2, 0x10400), (3, 0x10800)] ((poke 0x10400 descBytes memLab).setFrames [(1, joinFrame n 0)])

/-- One lane's child, up to the last index of a frame; and a group whose pool has room for it. -/
theorem wit_SpawnWord :
    let i : Instr := .spawn (rf 6 0 2 0 .i8)
    let s := withLanes (fun t => t.setRun 2 2 0x10400) (spawnLab 0xFFFFFFFE)
    let w := wd i s
    let r := okD ([], w.s) (readVa w.s 0 1 false 0x10400 64)
    let v := okD (some [], r.2) (readTiles r.2 0 1 false 0)
    let f := frameAt v.2 1 0x10800
    i.wf = true ∧ Issues i s w ∧ (w.t.kind = .grid ∧ w.acting = [0] ∧ w.t.core = 0 ∧ w.gr.ctl.asid = 1 ∧ w.gr.ctl.priv = false) ∧
    readVa w.s 0 1 false 0x10400 64 = .ok r ∧ (taskDesc r.1 = ⟨0x10000, 0x77, 0x10800, 0, 16, 1, 0, 0, 0, 0⟩ ∧ (taskDesc r.1).ok = true) ∧
    readTiles r.2 0 1 false 0 = .ok v ∧ v.1 = some [] ∧ fitsEmpty (taskNeed 1 16 0 0 0 []) = true ∧
    f.1 = some (1, joinFrame 0xFFFFFFFE 0) ∧ isOk (spawnLane w 0x10400 w.s) = true ∧ (w.s.die 0).pool.length + w.acting.length ≤ 4096 :=
  ⟨by decide +kernel, issues_run (by decide +kernel), by decide +kernel, isOk_some (by decide +kernel), by decide +kernel,
   isOk_some (by decide +kernel), by decide +kernel⟩

theorem wit_SyncAndEnd :
    (let i : Instr := .sync { rf 0 0 3 0 .i8 with bs := true }
     let s := withS [(3, 0x10800)] lab
     let w := wd i s
     issues i s = true ∧ w.t.kind = .grid ∧ frameFind w.s w.gr.ctl.asid 0x10800 = none) ∧
    (let i : Instr := .sync { rf 0 0 3 0 .i8 with bs := true }
     let w := wd i (spawnLab 2)
     issues i (spawnLab 2) = true ∧ frameFind w.s w.gr.ctl.asid 0x10800 = some (1, joinFrame 2 0) ∧ (joinFrame 2 0).owner = some w.g ∧
       (joinFrame 2 0).broken = false ∧ w.acting.Nodup) ∧
    (let i : Instr := .endt (rf 0 0 0 0 .i8)
     let w := wd i lab
     issues i lab = true ∧ (w.s.team? 0).isSome = true ∧ w.s.cairns = [] ∧ w.s.locks = [] ∧
       ((w.s.team? 0).map fun t => t.groups.map Group.handler) = some [none] ∧ w.acting = w.active) := by decide +kernel

/-- Handler word, payload pair, target and stake registers of lanes 0 and 1; the stake that the core issues first. -/
def invLab : State := withS [(9, stakeWord 0 0 0 1)]
  (withLanes (fun t => ((t.setRun 2 2 0x10040).setRun 8 4 0x11223344556677889900AABBCCDDEEFF).setV 4 0) lab)

theorem wit_InvokeWords :
    let ic : Instr := .invokeCore { rf 20 2 4 8 .i8 with aux := 4 }
    let id : Instr := .invokeDie { rf 20 2 4 8 .i8 with op := 3, aux := 4 }
    let ia : Instr := .invokeAny { rf 20 2 0 8 .i8 with op := 1, aux := 2 }
    let ik : Instr := .invokeStake { rf 20 2 9 0 .i8 with bs := true, op := 2 }
    (∀ i ∈ [ic, id, ia, ik], i.wf = true ∧ issues i invLab = true ∧ (wd i invLab).t.kind = .grid ∧
      stakesUsed (wd i invLab).s 0 + (wd i invLab).acting.length ≤ 4096) ∧
    targetWord (wd ic invLab).s 0 0 false = .core 0 ∧ targetWord (wd id invLab).s 0 0 true = .die 0 ∧
    (InvTarget.die 0 ≠ .bad) ∧
    -- a stake of a peer, and one of this device with room, by one lane
    stakeDevice (2 ^ 56) ≠ (wd ik invLab).s.sys.device ∧
    (let s := memLab.setCur (some ⟨g0, 1, bootPc, false⟩)
     stakeDevice (stakeWord 0 0 0 1) = (wd ik s).s.sys.device ∧ stakeFull (wd ik s).s (stakeWord 0 0 0 1) = false ∧ (wd ik s).acting.length = 1) ∧
    -- a die in service, a free slot and a lane
    lab.dieUp 0 = true ∧ freeStake lab 0 = some 0 ∧ (lab.lane? g0 0).isSome = true := by decide +kernel

/-- The first stake of core 0, pending; and the team as the handler of it. -/
def stakeLab : State :=
  putStake (invLab.modTeam 0 fun t => { t with inv := some ⟨stakeWord 0 0 0 1, 0, 0, 1, 0, false, false⟩ }) 0 0
    ⟨1, some (.resolution none .pending [] false)⟩

theorem wit_StakeWords :
    let f : RegF := { rf 12 0 9 16 .i8 with bs := true, aux := 4 }
    let g : RegF := { rf 0 4 0 0 .i8 with op := 2, aux := 4 }
    let d : Instr := .drop { rf 0 0 9 0 .i8 with bs := true, op := 4 }
    -- a stake of a core that does not exist; of this device; with an unsettled handler; by one lane
    (∀ i ∈ [Instr.await f, .poll { f with op := 1 }],
      (let s := withS [(9, 0x80000000000001)] invLab
       i.wf = true ∧ issues i s = true ∧ (wd i s).acting = [0, 1] ∧ stakeNowhere (wd i s).s 0x80000000000001 = true) ∧
      issues i invLab = true ∧ stakeNowhere (wd i invLab).s (stakeWord 0 0 0 1) = false ∧
        stakeDevice (stakeWord 0 0 0 1) = (wd i invLab).s.sys.device) ∧
    (∀ i ∈ [Instr.fulfil g, .brk { rf 0 0 0 0 .i8 with op := 3 }],
      i.wf = true ∧ issues i stakeLab = true ∧ (wd i stakeLab).t.inv.map HandlerInfo.settled = some false) ∧
    (let s := stakeLab.setCur (some ⟨g0, 1, bootPc, false⟩)
     d.wf = true ∧ issues d s = true ∧ (wd d s).acting.length = 1 ∧ stakeNowhere (wd d s).s (stakeWord 0 0 0 1) = false ∧
       stakeFull (wd d s).s (stakeWord 0 0 0 1) = false) := by decide +kernel

/-- A pending stake with no handler, and one whose handler is placed on core 1 with result slot 4095. -/
theorem wit_StakeSettles :
    stakeSlot stakeLab 0 0 = ⟨1, some (.resolution none .pending [] false)⟩ ∧
    (let s := putStake (putStake stakeLab 0 0 ⟨1, some (.resolution (some (1, 4095)) .pending [] false)⟩) 1 4095 ⟨1, some (.result 0 0 [])⟩
     stakeSlot s 0 0 = ⟨1, some (.resolution (some (1, 4095)) .pending [] false)⟩ ∧ (1, 4095) ≠ (0, 0) ∧
       (stakeSlot s 1 4095).use = some (.result 0 0 [])) := by decide +kernel

/-- A copy of 64 words from memory to the scratchpad. -/
def tmpl : Template :=
  { sspace := false, dspace := true, sty := 2, dty := 2, smx := false, dmx := false, rnd := 0, sat := false, mul := 0, pad := 0, idram := false
    ndim := 1, nops := 0, cast := 0, axes := [⟨64, 4, 4, 0, 0, 64, false⟩], order := [0], gathers := false }
/-- A tree of core 0 alone, rooted at its router. -/
def tree0 : Tree := ⟨[0], 0, 0, true, [], 1000, 5, [(0, 0, 0)], [], false, false⟩
/-- The lab's grid with a template, a format of 16-bit sides and a tree; its class counters one below the last; bases in s-registers. -/
def engLab : State :=
  withGroup (fun g => { g with cpy := ⟨62, 0xFFFFFFFF⟩, mtx := ⟨62, 5⟩, net := ⟨62, 7⟩, shape := some ⟨0, 64, 64, 64⟩ })
    (withS [(6, 0x80), (7, 0x2080), (8, 0x100), (10, 0x10200), (12, 0x10300), (13, 0x99), (20, 0), (24, 64), (25, 0x10000000100)]
      (lab.setGrids (amMod lab.grids 0 fun g => { g with templates := [tmpl], fmts := [0x80001212], trees := [tree0], hasTrees := true })))

theorem wit_CopyWords :
    let c : Instr := .copy (ef 0xFF 10 8 12 0)
    let m : Instr := .copyMc (ef 20 10 8 12 0)
    let f : Instr := .fill (ef 7 24 6 12 0x200)
    let w := wd c engLab
    let own := (w.s.team? 0).getD w.t
    (∀ i ∈ [c, m, f], i.wf = true ∧ issues i engLab = true ∧ (wd i engLab).s.group? g0 = some (wd i engLab).gr ∧ (wd i engLab).gr.cpy.n < 63) ∧
    (gridOf w).map Grid.templates = some [tmpl] ∧ (sval w 10).toNat % sideAlign 2 false = 0 ∧ (sval w 8).toNat % sideAlign 2 false = 0 ∧
    (sval w 12).toNat % 8 = 0 ∧ sideSpans tmpl false (sval w 8) (svalNext w 8) ≠ [] ∧ tmpl.smx = false ∧ tmpl.dmx = false ∧
    (∀ x ∈ sideSpans tmpl false (sval w 8) (svalNext w 8), spanOk own x.2 = true) ∧
    scratchOwner w.s w.g.team = 0 ∧ linesFree w.s [0] (partLines own true (copyDest tmpl (sval w 8) (svalNext w 8))) = true ∧
    linesFree w.s [0] (partLines (wd m engLab).t true (copyDest tmpl (sval w 8) (svalNext w 8))) = true ∧
    receivers (wd m engLab) (ef 20 10 8 12 0) 1 = some [0] ∧ holdingUsed (wd m engLab).s 0 < 16 ∧
    -- FILL: 64 bytes at 0x80, and the last bytes of the scratchpad
    (sval w 24).toNat % 8 = 0 ∧ (sval w 6).toNat % 8 = 0 ∧ spanOk own (0x80, 64) = true ∧ spanOk own (0xFFC0, 64) = true ∧
    spanOk own (0xFFC8, 64) = false ∧ linesFree w.s [0] (partLines own true [(0x80, 64)]) = true := by decide +kernel

theorem wit_MatrixWords :
    let sh : Shape := ⟨0, 64, 64, 64⟩
    let s := withTeam (fun t => { t with accs := 4 }) engLab
    let ms : MmaArgs := ⟨0x80001212, sh, 3, 192, 192, 0x80, 0x2080, 0, 0⟩
    (∀ i ∈ [Instr.mshape (ef 5 4 0 0 0), .mma (ef 0 6 7 0xFF 0x1F8), .accld (ef 0 6 8 0 0x40BF), .accst (ef 0 6 8 0 0x40BF), .accz (ef 0 0 0 0 0x3F)],
      i.wf = true ∧ issues i s = true ∧ (wd i s).s.group? g0 = some (wd i s).gr ∧ (wd i s).gr.mtx.n < 63 ∧ (wd i s).gr.shape = some sh ∧
      fmtSlot (wd i s) 0 = 0x80001212 ∧ (sval (wd i s) 6).toNat = 0x80 ∧ (sval (wd i s) 7).toNat = 0x2080 ∧ (sval (wd i s) 8).toNat = 0x100) ∧
    fmtEn 0x80001212 = true ∧ fmtMode 0x80001212 = 0 ∧ sh.k % granule 0x80001212 = 0 ∧ 3 < 4 ∧ 192 + sh.m ≤ 256 ∧
    (let own := ((wd (.accz (ef 0 0 0 0 0x3F)) s).s.team? 0).getD bootTeam
     mmaSpans ms ≠ [] ∧ (∀ y ∈ mmaSpans ms, spanOk own y.2 = true) ∧ etyWidth (field 0x40BF 6 5) / 8 = 4 ∧
       -- ACCLD and ACCST: rows of 64 words, 0x100 apart
       spanOk own (accSpan sh 0x80 0x100 4) = true ∧ own.accs = 4) := by decide +kernel

theorem wit_WaitWords :
    (∀ i ∈ [Instr.waitc (ef 0 0 0 0 0xF8), .waitc (ef 0 0 0 0 0), .waitc (ef 0 0 0 0 0xFA)], i.wf = true ∧ issues i engLab = true) ∧
    (let i : Instr := .monw (ef 9 6 20 24 10)
     let w := wd i engLab
     let own := (w.s.team? 0).getD w.t
     i.wf = true ∧ issues i engLab = true ∧ (sval w 6).toNat % 8 = 0 ∧ spanOk own (0x80, 8) = true ∧ linesPresent own 0x80 8 = true ∧
       w.s.team? 0 = some own ∧ (sval w 20).toNat ≤ memNat own.scratch 0x80 8 ∧ memNat own.scratch 0x80 8 < (sval w 24).toNat) ∧
    (let i : Instr := .monw (ef 9 10 20 0xFF 2)
     let w := wd i engLab
     let r := xlate w.s 0 1 false .read 0x10200
     let r2 := xlate r.2 0 1 false .read 0x10200
     i.wf = true ∧ issues i engLab = true ∧ viewOf w.t 0x10200 = none ∧ w.s.team? 0 = some w.t ∧ remoteOlder w.s g0 0 1 0x10200 = none ∧
       r.1 = .ok 0x100200 0x10187D ∧ heldUp r.2 0x100200 0x10187D = false ∧ olderAcc r.2 g0 (sectorOf 0x100200) = none ∧
       inError r.2 0x100200 = false ∧ r2 = (r.1, r.2) ∧ r.2.teams = w.s.teams ∧
       (sval w 20).toNat ≤ memNat r.2.mem 0x100200 8) := by decide +kernel

theorem wit_CollectiveWords :
    ∀ i ∈ [Instr.nred { ef 8 9 0 4 0x11 with x := false }, .nbar (ef 5 0 0 0 0)],
      i.wf = true ∧ issues i engLab = true ∧ (wd i engLab).s.group? g0 = some (wd i engLab).gr ∧ (wd i engLab).gr.net.n < 63 ∧
      (treeOf (wd i engLab) 0).map Tree.broken = some false ∧ (wd i engLab).s.rounds = [] := by decide +kernel

theorem wit_ControlRegisters :
    let s := withGroup (fun g => { g with ctl := { g.ctl with priv := true } })
      (withS [(6, 0x7FFF800000001), (7, 0xFFFFFFFFFFF8), (8, 0xC00D), (9, 4095), (10, 1)] (withLanes (fun t => t.setRun 6 2 0x20000) lab))
    Issue_all [.mfc ⟨ug, true, 5, 0, 2⟩, .mfc ⟨ug, false, 4, 0, 0x113⟩, .mfc ⟨ug, false, 4, 0, 0x107⟩, .mfc ⟨ug, true, 5, 0, 0x12F⟩] s = true ∧
    Issue_all [.mtcPtbase ⟨ug, true, 0, 10, 0x11⟩, .mtcAsid ⟨ug, true, 0, 9, 0x10⟩, .mtc ⟨ug, false, 0, 6, 1⟩, .mtc ⟨ug, true, 0, 7, 0x100⟩,
      .mtc ⟨ug, true, 0, 7, 0x11F⟩, .mtc ⟨ug, true, 0, 8, 0x10F⟩, .mtc ⟨ug, true, 0, 8, 0x120⟩] s = true ∧
    -- the greatest values that set no reserved bit
    (let v (n : Nat) : Nat := ((s.group? g0).map fun g => (g.getS n).toNat).getD 0
     v 10 / 2 ^ 51 = 0 ∧ v 10 / 2 ^ 37 % 2 ^ 11 = 0 ∧ v 10 / 2 % 2 ^ 14 = 0 ∧ v 9 = 4095 ∧ v 7 < 2 ^ 48 ∧ v 7 % 8 = 0 ∧ v 8 < 2 ^ 16 ∧
       v 8 / 2 ^ 8 % 2 ^ 6 = 0 ∧ v 8 % 2 ^ 8 = 0x0D) := by decide +kernel

theorem wit_ReturnAndHalt :
    let i : Instr := .eret ⟨ug, false, 0, 0, 0⟩
    let one := eretLab none
    let all := eretLab (some .eret)
    (issues i one = true ∧ (wd i one).acting = [0, 1] ∧ (wd i one).acting = (wd i one).active ∧
      ((wd i one).s.group? g0).map (fun g => (g.lane? 2).map Thread.park) = some (some none)) ∧
    (let w := wd i all
     let s1 := w.s.modLanes w.g w.acting fun _ t => { t with park := some .eret }
     issues i all = true ∧ w.acting = [0, 1] ∧ w.acting = w.active ∧
       (w.s.group? g0).map (fun g => (List.range 32).map fun l => (g.lane? l).map Thread.park) =
         some ((List.range 32).map fun l => some (if l < 2 then none else some .eret)) ∧
       (w.s.group? g0).map (fun g => (g.handler.map fun h => (h.merge, h.parks), g.held)) = some (some (none, List.replicate 32 none), []) ∧
       (w.s.group? g0).map (fun g => g.handler.map HandlerCtx.frame) = some (some 0x10000) ∧
       isOk (readVa s1 0 1 true 0x10000 2048) = true) ∧
    (let h : Instr := .halt ⟨ug, false, 0, 0, 0⟩
     issues h one = true ∧ (wd h one).t.kind = .grid ∧ (wd h one).s.team? 0 = some (wd h one).t ∧ (wd h one).t.work = none ∧
       (wd h one).acting = (wd h one).active) := by decide +kernel

/-- Lanes 0 and 31 were neither parked nor ended when the handler was entered. -/
theorem wit_ReturnLane : ((eretLab none).group? g0).map (fun g => g.handler.map fun h =>
    (h.parks.getD 0 none).isNone && (h.parks.getD 31 none).isNone && h.exited == 0 && (wakeScalars h).isEmpty && (h.txs.getD 31 none).isNone) =
      some (some true) ∧
    -- a lane that had exited with registers of its own
    (let s := takeTrap (trapLab.modLanes g0 [5] fun _ t => { t.setV 1 7 with exited := true, p := 5, fpctl := 3 }) g0
       ⟨7, 0x2A, 0, false, bootPc, 0, 0, 0, none⟩
     (s.group? g0).map (fun g => g.handler.map fun h => (bit h.exited.toNat 5, (h.left[5]?).map fun k => (k.p, k.fpctl, k.v))) =
       some (some (true, some (5, 3, 7 * 2 ^ 32)))) ∧
    num (trapFrame ((trapLab.group? g0).getD (Group.start 0 0 0 0 (Ctl.start 0 0 0))) 0 0 0 0 0) (0x80 + 48 * 31 + 8) 1 ≠ 2 := by decide +kernel

/-- The loaded program's machine between issues, at datum 1,000,000, with a second team of its grid still to come. -/
def evLab : State :=
  let s := (lab.setCur none).setTime { lab.time with datum := 1000000, clk := 2000 }
  s.setGrids (amMod s.grids 0 fun g => { g with teamCount := 2, templates := [tmpl], fmts := [0x80001212], trees := [tree0], hasTrees := true })
/-- A task of frame 1, child 7. -/
def task0 : TaskRec := ⟨0, 0, 1, 0, 0x10000, 0x77, 16, 2, 0, 0, 1, [], 1, 7, 0, 0⟩
/-- An invocation on its way to core 0, or arrived. -/
def inv0 (arrived : Option Nat) : Invocation :=
  ⟨0x10047, toBytes 8 0xAB, none, stakeWord 0 0 0 1, 0, 0, 0, 0, 1, 0, some 0, 0, none, 0, arrived, 0⟩
/-- The lab with the first stake of core 0 pending and its invocation, number 9, arrived. -/
def arrLab : State := (putStake evLab 0 0 ⟨1, some (.resolution none .pending [] false)⟩).setInvs [(9, inv0 (some 3))]

theorem wit_Admissions :
    (nextHead evLab).map (fun x => (x.1, x.2.2)) = some (0, 1) ∧
    (let s := evLab.modDie 0 fun d => { d with pool := [task0] }
     (nextTask s 0).map (fun x => (x.1, x.2.1 == task0)) = some (0, true)) ∧
    (nextPlacement arrLab 0).map (fun x => (x.1, x.2.2)) = some (9, 0) := by decide +kernel

/-- Its context has a save pool, in the program's page. -/
def saveLab (f : Team → Team) : State := (withTeam f evLab).setCtxs (amMod evLab.ctxs 0 fun c => { c with savepool := 0x10000, savesize := 2 ^ 30 })

/-- A team chosen for pre-emption that holds nothing but 16 registers a thread. -/
def smallLab : State := saveLab fun t => { t with
  saving := true, scratchUnits := 0, units := 0, accs := 0, groups := t.groups.map fun g => { g with budget := 16 } }

theorem wit_Preemptions :
    -- the grid's next team fits nowhere beside 64 groups that have run for a slice, on a die of one core
    (let s := (saveLab fun t => { t with groups := List.replicate 64 (t.groups.headD (Group.start 0 0 0 0 (Ctl.start 0 0 0))) }).modDie 0 fun d => { d with built := d.built.take 1 }
     (∀ t ∈ s.teams, t.2.saving = false) ∧
       ((waitingWork s).filter fun w => w.since + sliceTicks s w.grid ≤ s.time.datum && !(w.cores.any (w.fits s))).findSome? (chosenFor s) = some [0]) ∧
    (∃ m c, smallLab.team? 0 = some m ∧ m.saving = true ∧ saveReady smallLab 0 m = true ∧ smallLab.ctxOf m = some c ∧
       poolPlace c (imageBytes m) = some 0 ∧ isOk (keepFrames smallLab m m.groups) = true ∧
       (let k := okD ([], smallLab) (keepFrames smallLab m m.groups)
        isOk (writeVa k.2.takeFree.2 m.core m.asid.toNat true c.savepool.toNat (imageOf k.2.takeFree.1 (imageBytes m))) = true ∧
          ({ m with resident := false, saving := false, groups := k.1 } : Team).wantsCore = true) ∧
       m.kind = .grid ∧ (amGet smallLab.grids m.grid).isSome = true) ∧
    (let s := (saveLab fun t => { t with resident := false }).setGrids (amMod evLab.grids 0 fun g => { g with nextTeam := 2, tail := [0] })
     ∃ m, s.team? 0 = some m ∧ canResume s 0 m = true ∧ m.heldIn = [] ∧ isOk (putFrames m m.groups s) = true) :=
  ⟨by decide +kernel, ⟨(smallLab.team? 0).getD bootTeam, ((smallLab.team? 0).bind smallLab.ctxOf).getD bootCtx, by decide +kernel⟩,
   ⟨((saveLab fun t => { t with resident := false }).team? 0).getD bootTeam, by decide +kernel⟩⟩

/-- A join frame whose child 0, team 1, waits with one tile of ADD over 16 words of type i32. -/
def tile0 : Tile := ⟨0x10C00, 64, 0, 2, 0, 0, 0⟩
def foldFrame : Frame := { joinFrame 1 0 with tiles := [tile0], waiting := [(0, 1)] }
def childTeam : Team :=
  { bootTeam with
    kind := .task, core := 1, phase := .folding, parent := some (1, 0), tiles := [tile0], units := 1, scratch := [(0, 5), (63, 1)]
    groups := [] }
def foldLab (f : Frame) : State := (evLab.putTeam 1 childTeam).setFrames [(1, f)]
/-- The elements of the tile merged. -/
def mergeOf (s : State) (f : Frame) : State × Option MergeStop :=
  mergeElems 1 tile0 false (.mem (f.va.toNat + 0x40)) (childSpot s 1 0) 16 0
    (s.setFrames (amPut s.frames 1 { f with job := some ⟨.child 1, 0, 0, false, none, none⟩ }))
/-- The grid with all its teams admitted and gone. -/
def gridLab (applied : Bool) : State :=
  ((evLab.setTeams []).setQueues [(0, ⟨some 0, none, 0, 0, [], []⟩)]).setGrids (amMod evLab.grids 0 fun g => { g with teamCount := 1, applied := applied })

theorem wit_JoinEvents :
    (let f := foldFrame
     amGet (foldLab f).frames 1 = some f ∧ f.waiting = (0, 1) :: [] ∧ f.broken = false ∧ nextPark f = none ∧ f.job = none ∧ f.runner = none ∧ f.slots = [] ∧
       applyDue (foldLab f) 1 f = false ∧ amGet f.waiting f.cursor = some 1 ∧ tile0.oper ≠ 15 ∧ etyWidth tile0.ety = 32 ∧
       (mergeOf (foldLab f) f).2 = none) ∧
    -- the owner's lanes stand at a SYNC that all children have reached
    (let f := { foldFrame with cursor := 1, waiting := [] }
     let s := withLanes (fun t => { t with park := some (.sync 1 1 3) }) (foldLab f)
     f.owner = some g0 ∧ f.sync = none ∧ applyDue s 1 f = true ∧ ∀ x ∈ f.tiles, (applyTarget s f x).isSome = true) ∧
    -- a custom merge group that has retired
    (let f := { foldFrame with job := some ⟨.child 1, 0, 3, false, some 2, some 5⟩ }
     let t : Team := { childTeam with kind := .merge, parent := none, work := some ⟨1, some 1⟩ }
     let s := (foldLab f).putTeam 5 t
     s.team? 5 = some t ∧ t.resident = true ∧ t.phase ≠ .ended ∧ t.groups.all Group.retired = true ∧ amGet s.frames 1 = some f ∧
       f.job.map MergeJob.group = some (some 5)) ∧
    (let x (b : Bool) : Grid := (amGet (gridLab b).grids 0).getD bootGrid
     gridEmpty (gridLab false) 0 (x false) = true ∧ (x false).applied = false ∧ (x false).ljoin = none ∧
       gridEmpty (gridLab true) 0 (x true) = true ∧ (x true).applied = true ∧ (x true).done = false ∧
       (x true).deps.contains 0 = false ∧ completeWaits (gridLab true) 0 1 = false ∧ (amGet (gridLab true).queues (x true).queue).isSome = true) ∧
    -- a broken frame with a child that waits
    (let f := { foldFrame with broken := true }
     amGet (foldLab f).frames 1 = some f ∧ f.told = true ∧ f.waiting = [(0, 1)]) := by decide +kernel

/-- What a word or an event leaves. -/
def after (i : Instr) (s : State) : State :=
  match exec i s with
  | .next t => t
  | _ => s

/-- Answers of an entry of this device; placements at a die in service and out of service. -/
theorem wit_StakeMessages :
    (let x := stakeWord 0 0 0 1
     let s (st : StakeSt) := (putStake evLab 0 0 ⟨1, some (.resolution none st [] false)⟩).setMsgs [(4, ⟨3, 7, x, .await g0 0, none, false⟩)]
     ∀ st ∈ [StakeSt.fulfilled [1, 2], .broken 0x61 0 0],
       amGet (s st).msgs 4 = some ⟨3, 7, x, .await g0 0, none, false⟩ ∧ stakeDevice x = (s st).sys.device ∧ stakeCore x = 0 ∧ stakeSlotNo x = 0 ∧
         stakeGen x = 1 ∧ overtakes (s st) 4 ⟨3, 7, x, .await g0 0, none, false⟩ = false ∧ (s st).dieUp (stakeCore x / 32) = true ∧
         stakeSlot (s st) 0 0 = ⟨1, some (.resolution none st [] false)⟩ ∧ st ≠ .pending) ∧
    -- a POLL of a pending entry that holds seven
    (let s := (putStake evLab 0 0 ⟨1, some (.resolution none .pending (List.range 7) false)⟩).setMsgs
        [(4, ⟨3, 7, stakeWord 0 0 0 1, .poll g0 0, none, false⟩)]
     overtakes s 4 ⟨3, 7, stakeWord 0 0 0 1, .poll g0 0, none, false⟩ = false ∧ (List.range 7).length < 8) ∧
    (let s := (evLab.setMsgs [(4, ⟨3, 7, 0, .place 9, some (g0, 1), false⟩)]).setInvs [(9, inv0 none)]
     amGet s.msgs 4 = some ⟨3, 7, 0, .place 9, some (g0, 1), false⟩ ∧ amGet s.invs 9 = some (inv0 none) ∧ s.dieUp (inv0 none).die = true ∧
       (s.modDie 0 fun d => { d with st := .lost }).dieUp (inv0 none).die = false ∧ (inv0 none).die < 8) ∧
    -- a stake of the last die, which is not in service
    (let x := stakeWord 0 (7 * 32) 0 1
     let s := evLab.setMsgs [(4, ⟨3, 7, x, .poll g0 0, none, false⟩)]
     stakeDevice x = s.sys.device ∧ stakeDie x = 7 ∧ s.dieUp (stakeDie x) = false ∧ overtakes s 4 ⟨3, 7, x, .poll g0 0, none, false⟩ = false) := by
  decide +kernel

/-- No operation, where a list of them has none. -/
def noOp : Op := ⟨.remote, g0, 0, 0, 0, 0, false, none, .issued, [], [], false, false, none, none, 0, 0⟩
/-- The next clock: what was issued before may start. -/
def later (s : State) : State := s.setTime { s.time with clk := s.time.clk + 1 }
/-- A copy with a stamp, one without, and a fill, as they were issued. -/
def copyLab : State := later (after (.copy (ef 0xFF 10 8 12 0)) engLab)
def mcLab : State :=
  (after (.copyMc (ef 20 10 8 12 0)) engLab).setOps (amMod (after (.copyMc (ef 20 10 8 12 0)) engLab).ops 1 fun o =>
    { o with kind := .copy tmpl 0x10200 0x100 none 0 0 [0, 1], image := some [(0x100, 7), (0x1FF, 9)] })
def mmaLab : State := later (after (.mma (ef 0 6 7 0xFF 0)) (withTeam (fun t => { t with accs := 1 }) engLab))

theorem wit_EngineEvents :
    (∀ s ∈ [copyLab, later (after (.fill (ef 7 24 6 0xFF 0x200)) engLab)], ∃ o, amGet s.ops 1 = some o ∧ o.st = .issued ∧ o.cls = 0 ∧
      o.cancelled = false ∧ o.delivered = [] ∧ o.given = [] ∧ sourceInError s o = false ∧ sourceReady s 1 o = true ∧ Op.multicast o = false ∧
      inDram s o = none ∧ (Op.evaluate s o).2.fault = none ∧
      (let r := Op.evaluate s o
       let s1 := writeAll r.2.st o r.1 r.2.writes
       let mine := instantWrites o (lineInstants s o r.1 3 r.2.writes) r.2.writes
       errorSpots r.2.st (Op.eng r.2.st o) r.1 r.2.writes = [] ∧ stampFault s1 o = none ∧ inDram s1 o = none ∧
         (o.stamp.all fun a => errorSpots s1 (Op.eng s1 o) a.2.2 [(a.1.toNat, toBytes 8 a.2.1.toNat)] == []) = true ∧
         errorSpots s (Op.eng s o) r.1 mine = [] ∧ errorSpots r.2.st (Op.eng r.2.st o) r.1 mine = []) ∧ o.image = none) ∧
    scratchOwner copyLab 0 = 0 ∧ ((copyLab.team? 0).map fun t => (amGetD t.absent 3 []).contains 1) = some true := by
  refine ⟨fun s hs => ?_, by decide +kernel⟩
  refine ⟨(amGet s.ops 1).getD noOp, ?_⟩
  revert s
  decide +kernel

theorem wit_EngineEvents2 :
    (∃ o t, amGet mcLab.ops 1 = some o ∧ mcLab.team? 0 = some t ∧ o.image = some [(0x100, 7), (0x1FF, 9)] ∧ 0 ∈ Op.receivers o ∧
      1 ∈ Op.receivers o ∧ o.delivered = [] ∧ t.resident = true ∧ mcLab.errs.scratch = [] ∧ t.units = 1 ∧ ∀ b ∈ [(0x100, 7), (0x1FF, 9)], b.1 < t.units * 65536) ∧
    (∃ id o x sh a b sa sb t, (mmaLab.ops.filter fun p => Op.matrix p.2 && !p.2.cancelled && p.2.st != .complete && coreOf mmaLab p.2.g == 0) =
        [(id, o)] ∧ o.kind = .mma x sh 0 0 0 a b sa sb ∧ o.st = .issued ∧ sourceReady mmaLab id o = true ∧
        sourceInError mmaLab o = false ∧ mmaLab.team? o.g.team = some t ∧ scratchOwner mmaLab o.g.team = o.g.team) ∧
    (let s := mmaLab.setOps (amMod mmaLab.ops 1 fun o => { o with st := .started })
     (amGet s.ops 1).map (fun o => (o.cls, o.st)) = some (1, .started)) := by
  refine ⟨⟨(amGet mcLab.ops 1).getD noOp, (mcLab.team? 0).getD bootTeam, by decide +kernel⟩, ⟨1, (amGet mmaLab.ops 1).getD noOp, 0x80001212,
    ⟨0, 64, 64, 64⟩, 0x80, 0x2080, 0, 0, (mmaLab.team? 0).getD bootTeam, by decide +kernel⟩, by decide +kernel⟩

/-- A monitor of the scratchpad word at 0x80, which holds 5. -/
def mon0 (target : W64) (polling : Bool) : Mon := ⟨g0, 3, bootPc, 0x80, true, target, some 999999, 9, 2, polling, 976, 4, true, false, 1, false⟩
def monLab (target : W64) (polling : Bool) : State :=
  (withTeam (fun t => { t with scratch := [(0x80, 5)] }) evLab).setMons [(6, mon0 target polling)]

theorem wit_MonitorEvents :
    -- the time-out of one whose word has been read since it was last written
    (let m : Mon := { mon0 9 false with dirty := false }
     let s := (monLab 9 false).setMons [(6, m)]
     amGet s.mons 6 = some m ∧ m.deadline = some 999999 ∧ 999999 < s.time.datum ∧ m.resumed = false ∧
       (s.team? 0).map Team.resident = some true) ∧
    -- a polling monitor whose team is back on its core
    (let m : Mon := { mon0 5 true with dirty := false, resumed := true }
     let s := (monLab 5 true).setMons [(6, m)]
     amGet s.mons 6 = some m ∧ monBlocked s m = false ∧ (5 : W64).toNat ≤ (monRead s 0 m).1.toNat) ∧
    (∀ p ∈ [true, false], let s := monLab 5 p
      amGet s.mons 6 = some (mon0 5 p) ∧ (s.team? 0).map Team.resident = some true ∧ monBlocked s (mon0 5 p) = false ∧
        (5 : W64).toNat ≤ (monRead s 0 (mon0 5 p)).1.toNat ∧ (mon0 5 p).since + 1024 ≤ s.time.clk ∧ 999999 < s.time.datum) := by decide +kernel

/-- Lane 1 alone stands at TXCOMMIT, in a mode, its logs holding one word; the group's cairns and ordered participants. -/
def commitLab (mode : TxMode) (cs : List (Nat × Cairn)) (ordered : W32) : State :=
  (withGroup (fun g => { g with
      ordered := ordered
      lanes := g.lanes.mapIdx fun l t => if l = 1 then { t with
          park := some (.commit 9), txlog := { t.txlog with owed := some 0x100000000, iter := 7 }
          tx := some ⟨mode, [⟨0x100100, 0x10187D, 1, 0, 0, 0⟩], [⟨0x100040, 0x10187D, 1, 0xAABBCCDD, 0x0F, 0, false⟩], 0x10100, 9, 5, 3, 1⟩ } else t })
    (evLab.modSlice 0 0 fun x => { x with domains := [(0, ⟨1, true, 9, 8, 7, g0, some 0⟩)] })).setCairns cs
def cairn0 (lines todo : List Nat) (passed : Bool) : Cairn := ⟨g0, [1], false, lines, todo, passed⟩
def irrBeginLab : State := (commitLab .ordered [] 0).modLanes g0 [1] fun _ t => { t with park := some (.irrevocable 9 3), tx := none }
def watchLab : State :=
  (commitLab .value [] 0).modLanes g0 [1] fun _ t => { t with park := none, tx := t.tx.map fun x => { x with issues := 65535 } }

theorem wit_CommitEvents :
    (∀ m ∈ [TxMode.value, .stamp], let s := commitLab m [] 0
      ∃ gr t x, s.group? g0 = some gr ∧ mayRound s g0 gr = true ∧
        (List.range 32).filter (fun k => ((gr.lane? k).map Thread.logged).getD false) = [1] ∧ gr.lane? 1 = some t ∧ t.tx = some x ∧
        t.park = some (.commit 9) ∧ x.mode = m ∧ gr.ordered = 0) ∧
    (∀ c ∈ [cairn0 [] [0x100040 / 128, 0x100100 / 128] false, cairn0 [0x100040 / 128] [] false, cairn0 [] [0x100040 / 128] true, cairn0 [] [] true],
      let s := commitLab .value [(3, c)] 0
      (s.group? g0).isSome = true ∧ s.cairns.find? (fun p => p.2.g == g0) = some (3, c) ∧ c.lanes.Nodup ∧ keyHome (0x100040 / 128 * 128) = 0 ∧
        cairnRoom s ((s.group? g0).getD (Group.start 0 0 0 0 (Ctl.start 0 0 0))) c (0x100040 / 128) = true ∧
        s.dieUp 0 = true ∧ s.locks = [] ∧ validates s .value ⟨0x100100, 0x10187D, 1, 0, 0, 0⟩ = true ∧ ((s.lane? g0 1).map Thread.park) = some (some (.commit 9))) ∧
    (let s := commitLab .ordered [] 2
     ∃ gr t, s.group? g0 = some gr ∧ nextOrdered gr = some 1 ∧ gr.lane? 1 = some t ∧ cursorAt s t = true ∧ atCommit gr 1 = true ∧
       mayRound s g0 gr = true) ∧
    (let s := irrBeginLab
     ∃ t m, s.lane? g0 1 = some t ∧ s.team? 0 = some m ∧ m.resident = true ∧ t.park = some (.irrevocable 9 3) ∧ cursorAt s t = true) ∧
    (let s := watchLab
     ∃ t x, s.lane? g0 1 = some t ∧ t.tx = some x ∧ x.mode ≠ .irrevocable ∧ 65535 ≤ x.issues ∧ t.park = none) := by
  refine ⟨fun m hm => ?_, by decide +kernel, ?_, ?_, ?_⟩
  · refine ⟨((commitLab m [] 0).group? g0).getD (Group.start 0 0 0 0 (Ctl.start 0 0 0)), ((commitLab m [] 0).lane? g0 1).getD (Thread.start 0),
      ⟨m, [⟨0x100100, 0x10187D, 1, 0, 0, 0⟩], [⟨0x100040, 0x10187D, 1, 0xAABBCCDD, 0x0F, 0, false⟩], 0x10100, 9, 5, 3, 1⟩, ?_⟩
    revert m
    decide +kernel
  · exact ⟨((commitLab .ordered [] 2).group? g0).getD (Group.start 0 0 0 0 (Ctl.start 0 0 0)), ((commitLab .ordered [] 2).lane? g0 1).getD (Thread.start 0),
      by decide +kernel⟩
  · exact ⟨(irrBeginLab.lane? g0 1).getD (Thread.start 0),
      (irrBeginLab.team? 0).getD bootTeam, by decide +kernel⟩
  · exact ⟨(watchLab.lane? g0 1).getD
      (Thread.start 0), ⟨.value, [⟨0x100100, 0x10187D, 1, 0, 0, 0⟩], [⟨0x100040, 0x10187D, 1, 0xAABBCCDD, 0x0F, 0, false⟩], 0x10100, 9, 5, 3, 65535⟩, by decide +kernel⟩

/-- A load left outstanding, and a store to the host whose page the home's cache of translations holds. -/
def pendLab : State := after (.ld (mf 4 2 0xFF 0x40) (ls .i16)) deferLab
def remoteLab : State :=
  let s := after (.st (mf 0 2 0xFF 0) (ls .n32)) (withS [(2, 0x9000000000000000)] hostLab)
  s.setTlb (amPut s.tlb (tlbKey (homeLoc 9 0x9000000000000000) 1 0 0x9000000000000000) 0x10187D)

/-- Whatever the free set index, some set of some place has 16 lines. -/
theorem crowd (place set : Nat → Nat) (h : ∀ k, k < 2 ^ 19 → place k < 16) :
    ∃ ls : List Nat, ls.length = 16 ∧ ls.Nodup ∧ ∀ x ∈ ls, ∀ y ∈ ls, place x = place y ∧ set x % 2048 = set y % 2048 := by
  have maps : ∀ a ∈ Finset.range (2 ^ 19), (place a, set a % 2048) ∈ Finset.range 16 ×ˢ Finset.range 2048 := fun a ha => by
    simp only [Finset.mem_product, Finset.mem_range] at ha ⊢
    exact ⟨h a ha, Nat.mod_lt _ (by decide)⟩
  obtain ⟨v, -, hv⟩ := Finset.exists_lt_card_fiber_of_mul_lt_card_of_maps_to (n := 15) maps (by simp)
  obtain ⟨t, ht, hc⟩ := Finset.exists_subset_card_eq hv
  refine ⟨t.toList, by simpa using hc, t.nodup_toList, fun x hx y hy => ?_⟩
  have hx := (Finset.mem_filter.mp (ht (Finset.mem_toList.mp hx))).2
  have hy := (Finset.mem_filter.mp (ht (Finset.mem_toList.mp hy))).2
  exact ⟨congrArg Prod.fst (hx.trans hy.symm), congrArg Prod.snd (hx.trans hy.symm)⟩

/-- The first line of a full set of idle lines that are alike is the set's victim. -/
theorem first_goes (ls : List Nat) (idle : Nat → Bool) (x : Nat) (h : ∀ k ∈ x :: ls, idle k = true) :
    Room.of ((x :: ls).map fun k => (k, 0, 0)) idle = .evict x := by
  have all : ((x :: ls).map fun k => (k, 0, 0)).filter (fun y : Nat × Nat × Nat => idle y.1) = (x :: ls).map fun k => (k, 0, 0) := by
    rw [List.filter_eq_self]
    intro y hy
    obtain ⟨k, hk, rfl⟩ := List.mem_map.mp hy
    exact h k hk
  have stays : ∀ l : List Nat, victim ((x :: l).map fun k => (k, 0, 0)) = some x := fun l => by
    simp only [victim, List.map_cons, List.foldl_cons]
    induction l with
    | nil => rfl
    | cons y l ih => simpa [evictOrder] using ih
  simp only [Room.of, all, stays]
  simp

/-- Sixteen lines of one place and set, all that a cache holds, are a full set. -/
theorem crowd_full {β : Type} (b : β) (tag : β → Nat × Nat) (place set : Nat → Nat) (ls : List Nat) (x : Nat) (hx : x ∈ ls)
    (hn : ls.length = 16) (h : ∀ y ∈ ls, ∀ z ∈ ls, place y = place z ∧ set y % 2048 = set z % 2048) :
    let held : AMap β := ls.map fun k => (k, b)
    ((held.filter fun y => (fullSet ((amKeys held).filter fun k => place k == place x) 16
      fun k => set k % 2048 == set x % 2048).contains y.1).map fun y => (y.1, tag y.2)) = ls.map fun k => (k, tag b) := by
  have keys : amKeys (ls.map fun k => (k, b)) = ls := by simp [amKeys, Function.comp_def]
  have near : (ls.filter fun k => place k == place x) = ls := List.filter_eq_self.mpr fun y hy => by simpa using (h y hy x hx).1
  have same : (ls.filter fun k => set k % 2048 == set x % 2048) = ls := List.filter_eq_self.mpr fun y hy => by
    simpa using (h y hy x hx).2
  have full : fullSet ls 16 (fun k => set k % 2048 == set x % 2048) = ls := by simp [fullSet, same, hn]
  simp only [keys, near, full]
  rw [List.filter_eq_self.mpr fun y hy => ?_, List.map_map]
  · rfl
  · obtain ⟨k, hk, rfl⟩ := List.mem_map.mp hy
    simpa using hk

/-- A full set of the L2 and one of a memory-side cache, and the line that each gives up next. -/
theorem wit_Victims : (∃ s line, l2Victim s line = true ∧ backReady s line = true) ∧ ∃ s line, mscVictim s line = true := by
  have slice : ∀ p, sliceOf p < 16 := fun p => by
    have four : ∀ a b, a < 2 ^ 4 → b < 2 ^ 4 → a ^^^ b < 2 ^ 4 := fun a b => Nat.xor_lt_two_pow
    have part : ∀ i w, w ≤ 4 → field p i w < 2 ^ 4 := fun i w hw =>
      (Nat.mod_lt _ (Nat.two_pow_pos w)).trans_le (Nat.pow_le_pow_right (by decide) hw)
    simp only [sliceOf]
    refine four _ _ (four _ _ (four _ _ (four _ _ (four _ _ (four _ _ (four _ _ ?_ ?_) ?_) ?_) ?_) ?_) ?_) ?_ <;> exact part _ _ (by decide)
  have head : ∀ ls : List Nat, ls.length = 16 → ∃ x l, ls = x :: l := fun ls h => by
    cases ls with
    | nil => cases h
    | cons x l => exact ⟨x, l, rfl⟩
  constructor
  · obtain ⟨ls, hn, hd, hs⟩ := crowd l2Place Config.l2Set fun k hk => by
      have : keyHome (k * 128) = 0 := by simp only [keyHome]; omega
      simpa [l2Place, homeId, this] using slice _
    obtain ⟨x, l, rfl⟩ := head ls hn
    refine ⟨State.reset.setL2 ((x :: l).map fun k => (k, ⟨0, 0, []⟩)), x, ?_, by simp [backReady, State.setL2, amGet]⟩
    unfold l2Victim l2Set
    rw [show (State.reset.setL2 ((x :: l).map fun k => (k, ⟨0, 0, []⟩))).l2 = (x :: l).map fun k => (k, ⟨0, 0, []⟩) from rfl,
      crowd_full (⟨0, 0, []⟩ : L2Line) (fun y => (y.cls, y.used)) l2Place Config.l2Set (x :: l) x List.mem_cons_self hn hs,
      first_goes]
    · simp
    · intro k _
      simp [busyLine, busySector, State.setL2, State.reset]
  · obtain ⟨ls, hn, hd, hs⟩ := crowd stackOf Config.mscSet fun k hk => by
      have : keyHome (k * 2048) = 0 := by simp only [keyHome]; omega
      simp only [stackOf, this, field]
      omega
    obtain ⟨x, l, rfl⟩ := head ls hn
    refine ⟨State.reset.setMsc ((x :: l).map fun k => (k, ⟨0, 0, [], []⟩)), x, ?_⟩
    unfold mscVictim mscSet
    rw [show (State.reset.setMsc ((x :: l).map fun k => (k, ⟨0, 0, [], []⟩))).msc = (x :: l).map fun k => (k, ⟨0, 0, [], []⟩) from rfl,
      crowd_full (⟨0, 0, [], []⟩ : MscLine) (fun y => (y.cls, y.used)) stackOf Config.mscSet (x :: l) x List.mem_cons_self hn hs,
      first_goes]
    · simp
    · intro k _
      simp [busyLine, busySector, State.setMsc, State.reset]

theorem wit_MemoryEvents :
    (let a := (amGet pendLab.pend (pendLab.fresh - 1)).getD (accessOf (wd (.nop ug) memLab) ldR 0 0)
     let s := pendLab
     amGet s.pend (s.fresh - 1) = some a ∧ a.remote = false ∧ heldUp s a.key a.e = false ∧ olderPend s (s.fresh - 1) a = false ∧
       (performAccess (s.setPend (amDel s.pend (s.fresh - 1))) a).isSome = true) ∧
    -- a dirty sector of the L2, and one of the memory-side cache
    (let s := (evLab.setL2 [(3, ⟨0, 0, [(6, ⟨0, some (List.replicate 64 0)⟩)]⟩)]).setMsc [(0, ⟨0, 0, [6], [(6, ⟨some (List.replicate 64 0)⟩)]⟩)]
     (s.l2Sec 6).isSome = true ∧ (s.mscSec 6).isSome = true ∧ backReady s 3 = true) ∧
    -- a report that meets no context, and one whose sector the context maps, which has a team, a task, an invocation, a launch and frames
    (let r : Report := ⟨.scratch 99 0, 0, none⟩
     let s := evLab.setErrs { evLab.errs with reports := [r] }
     s.errs.reports.find? (fun x => x.err == .scratch 99 0) = some r ∧ reportCtxs s r = []) ∧
    (let r : Report := ⟨.sector (0x100040 / 64), 0, none⟩
     let f : Frame := joinFrame 1 0
     let s := ((((evLab.setFrames [(1, f), (2, { f with owner := none })]).modDie 0 fun d => { d with pool := [task0] }).setInvs
       [(9, inv0 (some 3))]).setErrs { evLab.errs with reports := [r] }).setSys { evLab.sys with logs := [(0, ErrLog.init)] }
     s.errs.reports.find? (fun x => x.err == r.err) = some r ∧ reportCtxs s r = [0] ∧ (reportPlace s r).1 = 0 ∧
       (s.team? 0).map (fun t => (t.ctx, t.work)) = some (0, none) ∧ (amGet s.grids 0).map (fun g => (g.ctx, g.done)) = some (0, false) ∧
       task0.ctx = 0 ∧ (inv0 (some 3)).ctx = 0 ∧ ∀ x ∈ s.frames, x.2.waiting = [] ∧ x.2.runner = none ∧ x.2.ctx = 0) ∧
    (let s := remoteLab
     let id := (amKeys s.pend).headD 0
     let a := (amGet s.pend id).getD (accessOf (wd (.nop ug) memLab) ldR 0 0)
     let r := xlate (s.setPend (amDel s.pend id)) (coreOf s a.g) a.asid.toNat a.priv (needOf a.kind) a.va.toNat
     amGet s.pend id = some a ∧ a.remote = true ∧ olderRemote s id a = false ∧ returnsData a.kind = false ∧
       r.1 = .ok (memKey 9 0x100000) 0x10187D ∧
       (let done := l1Own (performAt (.mem (memKey 9 0x100000) 0x10187D a.cls) r.2 a.g a.lane a.kind) (coreOf s a.g) (memKey 9 0x100000) a.kind
        let u := if a.acq && a.wide then l1Clear done (coreOf s a.g) else done
        sameOp u a = false ∧ (remoteOp u a).isSome = true)) := by
  decide +kernel

theorem wit_TrapEvents :
    (let s := (evLab.setCtxs (amMod evLab.ctxs 0 fun c => { c with traparea := 0x10000 })).modGroup g0 fun g =>
        { g with pendTrap := some ⟨0x11, 0, 0x10044, bootPc, 3, 2⟩ }
     ∃ r, (s.team? 0).map Team.resident = some true ∧ (s.team? 0).map Team.phase = some .running ∧
       (s.group? g0).map Group.pendTrap = some (some r) ∧ takesNow s g0 r.info = true) ∧
    (let f : AFault := ⟨0x13, 0, 0, 5, 0, 9, bootPc, none⟩
     let s := (evLab.setCtxs (amMod evLab.ctxs 0 fun c => { c with traparea := 0x10000 })).modGroup g0 fun g => { g with held := [f] }
     (s.team? 0).map Team.saving = some false ∧ (s.group? g0).map (fun g => (g.pendTrap, g.handler, g.held)) = some (none, none, [f]) ∧
       drained s g0 = true ∧ takesNow (s.modGroup g0 fun x => { x with held := [] }) g0 (AFault.info f) = true) ∧
    (let s := (eretLab none).setTime { (eretLab none).time with datum := 10000001 }
     ((s.group? g0).bind Group.handler).map (fun h => decide (h.since + 10000000 < s.time.datum)) = some true) :=
  ⟨⟨⟨0x11, 0, 0x10044, bootPc, 3, 2⟩, by decide +kernel⟩, by decide +kernel, by decide +kernel⟩

/-- A peer with a window of 64 KiB on the program's page, with the access right; a port in service; and the start at stage D. -/
def peerLab : State :=
  evLab.setSys { evLab.sys with
    peers := [(5, ⟨true, false, 0, some (0, 0x10000, 65536)⟩)], jports := [(17, ⟨true, false, []⟩)], logs := [(9, ErrLog.init)]
    access := amPut evLab.sys.access (131 * 65536 + 0x1005) 7 }

theorem wit_PeerEvents :
    (∀ r ∈ [PeerReq.write [1, 2, 3, 4], .read 4],
      let x := xlate peerLab unitCore 1 false (peerNeed r) (0x10000 + 65532)
      (amGet peerLab.sys.peers 5).map Peer.entry = some (some (0, 0x10000, 65536)) ∧ 4 ≤ peerLab.sys.stage ∧ peerLab.sys.admitting = true ∧
        (amGet peerLab.ctxs 0).map Ctx.asid = some 1 ∧ peerLab.locks = [] ∧ missingAccess peerLab (peerNeed r) 131 0x1005 = none ∧
        peerWaits peerLab 5 65532 r = false ∧ x.1 = .ok 0x10FFFC 0x10187D ∧ inError x.2 0x10FFFC = false) ∧
    (amGet peerLab.sys.jports 17).map (fun p => (p.trained, p.down)) = some (true, false) ∧ (amGet peerLab.sys.logs (8 + 17 / 9)).isSome = true ∧
    (amGet peerLab.sys.peers 5).map (fun p => (p.present, p.lost, decide (p.lastFlit + 1000000 ≤ peerLab.time.datum))) = some (true, false, true) ∧
    (peerLab.setSys { peerLab.sys with stage := 3 }).sys.fail = false := by decide +kernel

/-- A round of the tree of core 0, with its contribution, as NBAR left it. -/
def roundLab : State := after (.nbar (ef 5 0 0 0 0)) engLab
def roundOf (s : State) : CollRound := (amGet s.rounds 1).getD ⟨0, 0, 0, [], [], [], [], [], none⟩
/-- A tree of two cores, the second still to come. -/
def tree2 : Tree := { tree0 with cores := [0, 1], links := [(0, 0, 0), (1, 0, 4)] }

theorem wit_CollectiveEvents :
    amGet roundLab.rounds 1 = some (roundOf roundLab) ∧ roundTree roundLab (roundOf roundLab) = some tree0 ∧ tree0.broken = false ∧
    ((roundOf roundLab).contribs.find? fun x => x.core == 0).isSome = true ∧ (roundOf roundLab).sent = [] ∧ (roundOf roundLab).inputs = [] ∧
    -- the router's timer has run for LIMIT
    (let s := (after (.routerInput 1 (.core 0)) (roundLab.setGrids (amMod roundLab.grids 0 fun g => { g with trees := [tree2] }))).setTime
       { roundLab.time with datum := 1000 }
     roundTree s (roundOf s) = some tree2 ∧ amGet (roundOf s).timers 0 = some 0 ∧ (roundOf s).sent = [] ∧ tree2.limit ≤ s.time.datum ∧
       (0, 0) ∈ tree2.links.map (fun l => (l.1, l.2.1)) ∧ tree2.home = true ∧ (roundOf s).result = none) ∧
    (let s := roundLab.setRounds (amMod roundLab.rounds 1 fun r => { r with result := some (0, []) })
     (roundOf s).result = some (0, []) ∧ (((roundOf s).contribs.find? fun x => x.core == 0).bind (contribOp s)).isSome = true) := by decide +kernel

/-- A launch record of R146 for one team of one group on die 0. -/
def recBytes : List Byte :=
  toBytes 4 1 ++ toBytes 4 0x00010001 ++ toBytes 4 1 ++ toBytes 20 0 ++ toBytes 8 0x10000 ++ toBytes 2 16 ++ toBytes 1 1 ++ toBytes 213 0
/-- The first queue, with one command, of a bound context that may use the privileged commands. -/
def cmdLab (op : Nat) (a0 a1 : W64) : State :=
  ((poke 0x10D00 recBytes evLab).setQueues [(0, ⟨some 0, none, 0, 0, [⟨op, 0x55, a0, a1, false⟩], []⟩)]).setCtxs
    (amMod evLab.ctxs 0 fun c => { c with priv := true })

theorem wit_ContextCommands :
    (∀ op ∈ [1, 2, 3, 4], (headCmd (cmdLab op (if op = 1 then 0x10D00 else if op = 2 then 0x40000 else 0) 0) 0 op).isSome = true) ∧
    cmdBad (cmdLab 1 0x10D00 0) 0 ⟨1, 0x55, 0x10D00, 0, false⟩ = none ∧ (queueCtx (cmdLab 1 0x10D00 0) 0).map Prod.fst = some 0 ∧
    (match readLaunch (cmdLab 1 0x10D01 0) 1 0x10D01 with
      | .ok _ => none
      | .error x => x.1) = some 1 ∧
    (match readLaunch (cmdLab 1 0x10D00 0) 1 0x10D00 with
      | .ok ((bs, i), _) => num bs 0xC0 8 == 0 && num bs 8 4 == 1 && !(match queueCtx (cmdLab 1 0x10D00 0) 0 with
        | some (_, x) => launchWaits (cmdLab 1 0x10D00 0) x (maskDies (num bs 4 1)) i
        | none => true)
      | .error _ => false) = true ∧
    freeAsid (cmdLab 2 0x40000 0) = some 0 ∧ (plainRecord (cmdLab 2 0x40000 0) 0x40000 64).isSome = true ∧
    -- a queue whose ring in host memory holds one command more
    (let q : Queue := ⟨some 0, some ⟨9 <<< 60, 16, (9 <<< 60) + 0x10000, 16⟩, 0, 0, [⟨4, 0x55, 0, 0, false⟩], []⟩
     let s := (cmdLab 4 0 0).setQueues [(0, q)]
     cmdBad s 0 ⟨4, 0x55, 0, 0, false⟩ = none ∧ ({ q with rung := 1 } : Queue).unread = [9 * 2 ^ 60] ∧ plainWaits s (9 * 2 ^ 60) 64 = false) ∧
    (let s := (cmdLab 4 0 0).setTeams []
     (headCmd s 0 4).isSome = true ∧ (queueCtx s 0).isSome = true ∧ s.teams = [] ∧ s.invs = [] ∧ s.frames = []) := by decide +kernel

theorem wit_DeviceCommands :
    (∀ c ∈ [(5, 0x40000000, 1), (6, 0x40000000, 0), (7, 7, 0), (8, 255, 0x123456780034)],
      (headCmd (cmdLab c.1 (BitVec.ofNat 64 c.2.1) (BitVec.ofNat 64 c.2.2)) 0 c.1).isSome = true) ∧
    (cmdLab 5 0x40000000 1).sys.admitting = true ∧
    -- no team is resident
    (let s := (cmdLab 5 0x40000000 1).setTeams [(0, { bootTeam with resident := false })]
     (∀ t ∈ s.teams, t.2.resident = false) ∧ (∀ t ∈ s.teams, t.2.kind ≠ .merge) ∧ workEnded s = true ∧
       (headCmd (s.setSys { s.sys with admitting := false }) 0 5).isSome = true) ∧
    (headCmd ((cmdLab 6 0x40000000 0).setSys { (cmdLab 6 0x40000000 0).sys with admitting := false }) 0 6).isSome = true ∧
    -- a reset of a die in service, and of one that resets already
    (headCmd (cmdLab 7 0 0) 0 7).isSome = true ∧ (cmdLab 7 0 0).dieUp 0 = true ∧ 0 < ((cmdLab 7 0 0).die 0).built.length ∧
    ((cmdLab 7 0 0).team? 0).map (fun t => (t.resident, t.core / 32, t.work)) = some (true, 0, none) ∧
    ((cmdLab 7 7 0).modDie 7 fun d => { d with st := .resetting }).die 7 = { (cmdLab 7 7 0).die 7 with st := .resetting } := by decide +kernel

/-- The bytes of a device state block where a restore looks for them. -/
theorem wit_BlockAt (s : State) (n addr : Nat) (hn : n < 2 ^ 64) (h : s.mem = memWrite s.mem (memKey 8 addr) (blockBytes n)) :
    blockAt s addr = amGet s.sys.checkpoints n := by
  have len : (blockBytes n).length = 64 := by simp [blockBytes, toBytes]
  have read : memRead s.mem (memKey 8 addr) 64 = blockBytes n := by
    rw [h, ← len]
    exact memRead_memWrite_same ..
  have number : ofBytes ((blockBytes n).take 8) = n := by
    simp only [blockBytes, toBytes, ofBytes, List.cons_append, List.take_succ_cons, List.take_zero, BitVec.toNat_ofNat]
    omega
  simp only [blockAt, read, number, if_true]

theorem wit_ResetEvents :
    evLab.dieUp 0 = true ∧ coresStopped evLab 0 = false ∧ 0 < (evLab.die 0).built.length ∧
    (let s := evLab.modDie 7 fun d => { d with st := .resetting }
     (s.die 7).st = .resetting ∧ (s.die 7).waiters = []) ∧
    (let s := State.reset.setSys { State.reset.sys with stage := 1 }
     s.sys.stage = 1 ∧ s.sys.fail = false) ∧
    (∀ d ∈ [0, 7], let s := State.reset.setSys { State.reset.sys with stage := 2, nextDie := d }
      s.sys.stage = 2 ∧ s.sys.fail = false ∧ d = s.sys.nextDie) := by decide +kernel

theorem wit_Services :
    State.reset.sys.stage = 0 ∧ bit (accessRights State.reset 130 0x1100) 0 = true ∧ 3 ≤ evLab.sys.stage ∧ (amGet evLab.ctxs 0).map Ctx.alive = some true ∧ (1 : BitVec 3).toNat < 8 ∧
    (amGet peerLab.sys.logs 9).isSome = true ∧ 950 ≤ evLab.sys.mhz ∧ evLab.sys.mhz ≤ 1900 ∧ evLab.sys.tripped = false ∧
    evLab.sys.admitting = true ∧ evLab.locks = [] ∧ evLab.errs.sectors = [] ∧
    (let y := { State.reset.sys with stage := 1, firmware := some (1, [1, 2, 3]) }
     (State.reset.setSys y).sys.stage ≠ 0 ∧ (State.reset.setSys y).sys.firmware = some (1, [1, 2, 3])) ∧
    -- a host's function with the rights, at the program's page
    (let s := evLab.setSys { evLab.sys with access := (List.range 132).foldl (fun m t => amPut m (t * 65536 + 0x1100) 7) evLab.sys.access }
     (pieces 0x100000 8).any (fun p => heldUp s p.1 0) = false ∧ pcieDenied s 0 .read (pieces 0x100000 8) = none ∧ pcieDenied s 0 .write (pieces 0x100000 8) = none) := by decide +kernel

/-! The issue, the fetch and the decoder. -/

/-- A word placed for the group that a step issues next, its trap area in its page. -/
def fetchLab (w : Nat) : State :=
  let s := State.reset.withFetchWord 64 w
  s.setCtxs (amMod s.ctxs 0 fun c => { c with traparea := 0x10000 })
/-- The state once the turn is taken, the word fetched, and the state of the issue. -/
def turned (s : State) : State := (nextTurn s).2
def fetched (s : State) (pc : W64) : Fetched × State := fetchWord (turned s) 0 1 false pc
def issuedAt (s : State) (pc : W64) (lanes : List Nat) : State :=
  let gr := ((turned s).group? g0).getD (Group.start 0 0 0 0 (Ctl.start 0 0 0))
  holdUntil ((fetched s pc).2.modGroup g0 fun x => { x.countWaits (runnableLanes (turned s) g0 (((turned s).team? 0).getD bootTeam) gr) lanes with
    yielded := false }) g0 0 (gr.slot / 16) (turned s).time.clk
/-- The next turn is the issue of core 0's pipe 0, which picks the group. -/
def picks (s : State) : Bool := (nextTurn s).1 == .issue 0 0 [] false .tick && pickIssue (turned s) 0 0 [] == some g0

theorem wit_IssueConditions :
    ∃ c t gr, lab.cur = some c ∧ lab.team? c.g.team = some t ∧ lab.group? c.g = some gr ∧
      (∀ i ∈ [Instr.iadd (rf 4 0 2 0 .i64), .iadd { rf 4 0 2 0 .i32 with x := true }, .nop ug, .eret ⟨ug, false, 0, 0, 0⟩],
        stalls lab c.g i = false ∧ lanesOf c.lanes = [0, 1]) ∧
      (∀ l ∈ lanesOf c.lanes, (gr.lane? l).map Thread.tx = some none) ∧ Instr.privileged (.iadd (rf 4 0 2 0 .i64)) = false ∧
      overBudget (.iadd (rf 254 0 2 0 .i64)) 256 = false ∧ gr.budget = 256 :=
  ⟨⟨g0, 3, bootPc, false⟩, (lab.team? 0).getD bootTeam, (lab.group? g0).getD (Group.start 0 0 0 0 (Ctl.start 0 0 0)), by decide +kernel⟩

theorem wit_IssueFrame : Issues (.iadd (rf 4 0 2 0 .i64)) (inTx .value lab) (wd (.iadd (rf 4 0 2 0 .i64)) (inTx .value lab)) ∧
    Issues (.ld (mf 4 2 0xFF 0) (ls .n32)) memLab (wd (.ld (mf 4 2 0xFF 0) (ls .n32)) memLab) :=
  ⟨issues_run (by decide +kernel), issues_run (by decide +kernel)⟩

theorem wit_IssueTraps :
    -- a privileged word in user mode, and a word one register above the budget
    (let i : Instr := .eret ⟨ug, false, 0, 0, 0⟩
     Instr.isWord i = true ∧ Instr.privileged i = true ∧ stalls trapLab g0 i = false ∧ (trapLab.group? g0).map (fun g => g.ctl.priv) = some false ∧
       takesNow (trapLab.setCur none) g0 ⟨0x05, 0, 0, false, bootPc, 0, 0x300000000, 0, none⟩ = true ∧ maskOf [0, 1] ++ 0#32 = 0x300000000#64) ∧
    (let i : Instr := .iadd (rf 14 0 2 0 .i32)
     let s := trapLab.modGroup g0 fun g => { g with budget := 14 }
     overBudget i 14 = true ∧ overBudget i 15 = false ∧ stalls s g0 i = false ∧ Instr.privileged i = false ∧
       takesNow (s.setCur none) g0 ⟨0x06, 0, 0, false, bootPc, 0, 0x300000000, 0, none⟩ = true) ∧
    -- the three refusals of the decoder, and a PC that is not aligned
    (∀ w ∈ [0, 0x0738000000000001, 0x81020400020C0000],
      let s := fetchLab w
      picks s = true ∧ (turned s).team? 0 ≠ none ∧ canIssue (turned s) g0 = true ∧
        takesNow (issuedAt s bootPc (List.range 32)) g0 ⟨0x01, 0, 0, false, bootPc, 0, 0xFFFFFFFF00000000, 0, none⟩ = true ∧
        (match (fetched s bootPc).1 with
          | .word x => (decode x).toOption.isNone
          | _ => false) = true) ∧
    (let s := (fetchLab 0).modLanes g0 (List.range 32) fun _ t => { t with pc := 0x10004 }
     (match (fetched s 0x10004).1 with
       | .trap c _ _ => c != 0
       | _ => false) = true ∧ picks s = true ∧ canIssue (turned s) g0 = true) := by decide +kernel

theorem wit_StepRunsDecoded :
    (let s := fetchLab 0x3038505048022000
     ∃ s0 t gr pc lanes, nextTurn s = (.issue 0 0 [] false .tick, s0) ∧ pickIssue s0 0 0 [] = some g0 ∧ s0.team? 0 = some t ∧ s0.group? g0 = some gr ∧ canIssue s0 g0 = true ∧
       chooseIssue s0 g0 t gr = some (pc, lanes) ∧ pc = bootPc ∧ lanes = List.range 32 ∧
       (match (fetchWord s0 t.core gr.ctl.asid.toNat gr.ctl.priv pc).1 with
         | .word w => decode w == .ok (.fadd (rf 10 10 9 0 .f32))
         | _ => false) = true ∧ stalls s0 g0 (.fadd (rf 10 10 9 0 .f32)) = false) ∧
    (let s := evLab.setAgenda [.event .thermalTrip .tick]
     ∃ s0, nextTurn s = (.event .thermalTrip .tick, s0) ∧ Instr.isWord .thermalTrip = false) :=
  ⟨⟨turned (fetchLab 0x3038505048022000), ((turned (fetchLab 0x3038505048022000)).team? 0).getD bootTeam,
    ((turned (fetchLab 0x3038505048022000)).group? g0).getD (Group.start 0 0 0 0 (Ctl.start 0 0 0)), bootPc, List.range 32, by decide +kernel⟩,
   ⟨turned (evLab.setAgenda [.event .thermalTrip .tick]), by decide +kernel⟩⟩

/-- R453, R462: function 0 reads STARTSTAT, and NREC of a log with one record; function 1 is turned down at STARTSTAT. -/
theorem test_bar0 :
    let ans (i : PcieReq) (fn : Nat) (s : State) : Option (Bool × List Byte) := match exec (.pciExpressRequest fn i) s with
      | .next u => u.sys.pcie.getLast?
      | _ => none
    let s := logEvent (State.reset.setSys { State.reset.sys with stage := 1, fail := true, failcode := 4 }) 9 32 5 0xFFFF 0 0
    ans (.barRead 0 8) 0 s = some (true, [0x81, 0, 4, 0, 0, 0, 0, 0]) ∧ ans (.barRead 0 8) 1 s = some (false, []) ∧
      ans (.barRead 0x19804 4) 0 s = some (true, [1, 0, 0, 0]) ∧ ans (.barRead 0x19010 2) 0 s = some (true, [32, 5]) ∧
      ans (.barRead 0x1FFFD 4) 0 s = some (false, []) := by decide +kernel

/-- R463, worked case: CD1's log holds 62 records; in one clock channels 70, 5 and 17 log, with LE before of 3, 0 and 8. -/
theorem test_log_order :
    let old : ErrLog := { ErrLog.init with
      recs := (List.range 62).map fun i => ⟨1, 0, 100, 5, 0xFFFF, i + 1, 0⟩, le := [(17, 8), (70, 3)], clk := 3, newest := 1 }
    let s : State := { State.reset with time := ⟨9, 4, 0⟩, sys := { Sys.init with logs := [(1, old)] } }
    let g := amGetD (logEvent (logEvent (logEvent s 1 70 5 0xFFFF 0 0) 1 5 5 0xFFFF 0 0) 1 17 5 0xFFFF 0 0).sys.logs 1 ErrLog.init
    (g.recs.drop 62).map (fun r => (r.chan, r.count)) = [(5, 1), (17, 9)] ∧ g.recs.length = 64 ∧ g.ovf = true ∧ g.discarded = 1 ∧
      amGetD g.le 70 0 = 4 := by decide +kernel

theorem wit_MemoryFormKept : let s := evLab.setAgenda [.outside (memKey 9 4) [7, 0, 9]]
    Memory.wf s.mem = true ∧ (match step s with
      | .next u => memRead u.mem (memKey 9 4) 3 == [7, 0, 9] && Memory.wf u.mem
      | _ => false) = true := by decide +kernel

theorem wit_DecodeEncode : (Instr.nop ug).isWord = true ∧ (Instr.nop ug).wf = true ∧ decode 0x0738000000000000 = .ok (.nop ug) := by decide +kernel

/-- Every form of destination that a compute word has: none, an s-register, v-registers and a predicate. -/
theorem wit_ComputeFrame : (formOf (.iadd { rf 4 0 2 0 .i32 with x := true })).x = true ∧ (formOf (.iadd (rf 4 0 2 0 .i64))).d = .v 4 64 true ∧
    (memLab.group? g0).isSome = true := by decide +kernel

/-- A byte for each outcome of R263 to R265 and R457 at an access of the lab's page. -/
theorem wit_Translation :
    (findLeaf memLab 0 1 0 0x10000).1.toOption.isSome = true ∧ (findLeaf memLab 0 1 0 0x30000).1.toOption.isNone = true ∧
    pteP 0x10187D = false ∧ pteRes 0x10187D = true ∧ missingRight .read 0 0x10187D = none ∧ missingRight .fetch 8 0x10187D = some 0x13 ∧
    (xlate absentLab 0 1 false .read 0x20000).1 = .absent ∧ (xlate memLab 0 1 false .read 0xB000000000000000).1 = .fault ⟨0x17, 0⟩ ∧
    (xlate memLab 0 1 false .read 0x7000000000000000).1 = .fault ⟨0x19, 0⟩ ∧ (xlate memLab 0 1 false .fetch 0xA000000000000000).1 = .fault ⟨0x13, 0⟩ ∧
    (xlate memLab 0 1 false .fetch 0x8000000000000000).1 = .fault ⟨0x10, 4⟩ := by
  decide +kernel

/-! ### Single steps, with the results of the spec's worked cases -/

/-- A lane after one word that lanes 0 and 1 issue with given v-registers. -/
def ran (vs : List (Nat × W32)) (i : Instr) : Option Thread :=
  (after i (withLanes (fun t => vs.foldl (fun u v => u.setV v.1 v.2) t) lab)).lane? g0 1
/-- Its registers and its flags: NV, DZ, OF, UF, NX and SAT from bit 0. -/
def Leaves (vs : List (Nat × W32)) (i : Instr) (rs : List (Nat × W32)) (flags : BitVec 6) : Bool :=
  match ran vs i with
  | some t => i.wf && rs.all (fun r => t.getV r.1 == r.2) && t.fpflags == flags && t.pc == bootPc + 8
  | none => false

/-- Section 4: IADDC, LOP3, PRMT. -/
theorem test_integer_and_logic :
    ((after (.iaddc { rf 8 8 12 0 .n32 with aux := 2 }) (withLanes (fun t => ((t.setV 8 0xFFFFFFF0).setV 12 0x20).setP 2 true) lab)).lane? g0 0).map
      (fun t => (t.getV 8, t.getP 2)) = some (0x11, true) ∧
    Leaves [(2, 0xFF00FF00), (3, 0x0F0F0F0F), (4, 0x33333333)] (.lop3 { rf 1 2 3 4 .b32 with op := 9, aux := 12 }) [(1, 0xC33CC33C)] 0 = true ∧
    Leaves [(2, 0x44332211), (3, 0x88776655), (4, 0x1F1B0400)] (.prmt (rf 1 2 3 4 .b32)) [(1, 0xFF005511)] 0 = true ∧
    Leaves [(2, 0x44332211), (3, 0x88776655), (4, 0x07100803)] (.prmt (rf 1 2 3 4 .b32)) [(1, 0x88FF0044)] 0 = true := by decide +kernel

/-- Section 4: FFMA, FMUL and FADD. -/
theorem test_float :
    Leaves [(1, 0x3F800001), (2, 0x3F800001), (3, 0xBF800002)] (.ffma (rf 0 1 2 3 .f32)) [(0, 0x28800000)] 0 = true ∧
    Leaves [(1, 0x3F800001), (2, 0x3F800001)] (.fmul (rf 0 1 2 0 .f32)) [(0, 0x3F800002)] 0x10 = true ∧
    Leaves [(0, 0x3F800002), (3, 0xBF800002)] (.fadd (rf 0 0 3 0 .f32)) [(0, 0)] 0 = true := by decide +kernel

/-- A CVT of v4 to v3. -/
def cvt (ts : BitVec 5) (td : Ty) (sat : Bool) : Instr := .cvt { rf 3 4 0 0 td with aux := ts, sat := sat }

/-- Sections 2 and 4: conversions. -/
theorem test_conversions :
    Leaves [(4, 0x43960000)] (cvt 17 .e4m3 true) [(3, 0x79)] 0x10 = true ∧ Leaves [(4, 0x43E80000)] (cvt 17 .e4m3 true) [(3, 0x7E)] 0x10 = true ∧
    Leaves [(4, 0x43FA0000)] (cvt 17 .e4m3 true) [(3, 0x7E)] 0x34 = true ∧ Leaves [(4, 0x43FA0000)] (cvt 17 .e4m3 false) [(3, 0x7F)] 0x14 = true ∧
    Leaves [(4, 0x477FF000)] (cvt 17 .f16 false) [(3, 0x7C00)] 0x14 = true ∧ Leaves [(4, 0x477FF000)] (cvt 17 .f16 true) [(3, 0x7BFF)] 0x34 = true ∧
    Leaves [(4, 0x3DCCCCCD)] (cvt 17 .bf16 false) [(3, 0x3DCD)] 0x10 = true ∧ Leaves [(4, 0x402CCCCD)] (cvt 17 .e2m1 true) [(3, 5)] 0x10 = true ∧
    Leaves [(4, 0x40A00000)] (cvt 17 .e2m1 true) [(3, 6)] 0x10 = true ∧ Leaves [(4, 0x3CA3D70A)] (cvt 17 .e2m1 true) [(3, 0)] 0x18 = true ∧
    Leaves [(4, 0xB4A10FB0)] (cvt 17 .e5m2 false) [(3, 0x80)] 0x18 = true ∧ Leaves [(4, 0x7FC00000)] (cvt 17 .e2m1 true) [(3, 0)] 0x01 = true ∧
    Leaves [(4, 0x3E99999A)] (cvt 17 .e8m0 false) [(3, 0x7D)] 0x10 = true ∧ Leaves [(4, 0x40200000)] (cvt 17 .i32 false) [(3, 2)] 0x10 = true ∧
    Leaves [(4, 0xCF32D05E)] (cvt 17 .i32 false) [(3, 0x80000000)] 0x01 = true ∧ Leaves [(4, 300)] (cvt 2 .i8 true) [(3, 0x7F)] 0x20 = true := by
  decide +kernel

/-- Section 4: QPACK. -/
theorem test_pack :
    Leaves [(0, 0x402CCCCD), (1, 0xBF800000)] (.qpack { rf 6 0 1 0 .e2m1 with op := 1 }) [(6, 0xA500)] 0x10 = true := by decide +kernel

/-- Section 8: SHFL.MIRROR and SHFL.SPIN over lanes 0 to 5, and GRED over lanes 0 to 3. -/
theorem test_group_wide :
    let six := (withS [(4, 1)] (lab.modLanes g0 (List.range 6) fun l t => t.setV 9 (BitVec.ofNat 32 (10 * l)))).setCur (some ⟨g0, 63, bootPc, false⟩)
    let four := (lab.modLanes g0 (List.range 4) fun l t => t.setV 5 (if l = 0 then 0x4B800000 else 0x3F800000)).setCur (some ⟨g0, 15, bootPc, false⟩)
    (List.range 6).map (fun l => ((after (.shfl { rf 8 9 4 7 .b32 with bs := true, op := 3 }) six).lane? g0 l).map fun t => t.getV 8) =
      [some 10, some 0, some 30, some 20, some 50, some 40] ∧
    (List.range 6).map (fun l => ((after (.shfl { rf 8 9 4 7 .b32 with bs := true, op := 4, aux := 3 }) six).lane? g0 l).map fun t => t.getV 8) =
      [some 10, some 20, some 30, some 0, some 50, some 50] ∧
    ((after (.gred (rf 6 5 0 0 .f32)) four).lane? g0 3).map (fun t => (t.getV 6, t.fpflags)) = some (0x4B800001, 0x10) := by decide +kernel

/-- Section 10: interleave schemes 3 and 7; section 16: granted shapes; section 6: a team's registers. -/
theorem test_tables :
    interleave 3 0x01236780 = 0x01236780 ∧ interleave 7 0x01236780 = 0x91B000780 ∧
    (nearestSide 100, nearestSide 200, nearestK 128 300, nearestK 256 300, nearestK 64 300) = (128, 256, 256, 256, 320) ∧
    regSum (List.replicate 4 64 ++ List.replicate 8 168) = 51200 := by decide +kernel

/-- Section 24: while CD2 is out, what CD1 sends to CD3 goes by CD5, CD6 and CD7, and by CD2 once it is back (R470). -/
theorem test_around :
    let dies (s : State) : List Nat :=
      ((messageRoute s (routerAt 1 4 0) (routerAt 3 4 0)).map fun h => routerDie h.2.1).foldl (fun l d => if l.getLast? == some d then l else l ++ [d]) []
    let all := (List.range 8).foldl (fun s d => s.modDie d fun x => { x with st := (evLab.die 0).st }) evLab
    dies (all.modDie 2 fun d => { d with st := .resetting }) = [1, 5, 6, 7, 3] ∧ dies all = [1, 2, 3] := by decide +kernel

/-- The digests of the empty message and of "abc" that FIPS 202's examples give, their first eight bytes. -/
theorem test_digest : (sha3 []).take 8 = [0xA6, 0x9F, 0x73, 0xCC, 0xA2, 0x3A, 0x9A, 0xC5] ∧
    (sha3 [0x61, 0x62, 0x63]).take 8 = [0xB7, 0x51, 0x85, 0x0B, 0x1A, 0x57, 0x16, 0x8A] := by decide +kernel

end Sys2Proof.Tests
end

section
/-! SUPPORT. A word that is ready issues (R24 to R31, R154 to R156), and a word whose meaning is a compute operation completes
with that operation. -/

namespace Sys2Proof.Machine

/-- A fold that keeps its state at every element, and only collects the elements. -/
theorem foldl_collects {σ α : Type} {f : σ × List α → α → σ × List α} {s : σ} (ls : List α) :
    ∀ done, (∀ l ∈ ls, ∀ d, f (s, d) l = (s, d ++ [l])) → ls.foldl f (s, done) = (s, done ++ ls) := by
  induction ls with
  | nil => simp
  | cons l ls ih =>
    intro done h
    rw [List.foldl_cons, h l (by simp), ih _ fun k hk => h k (by simp [hk]), List.append_assoc, List.singleton_append]

/-- Lanes outside transactions are neither counted nor aborted at an issue (R305). -/
theorem countIssue_plain {s : State} {g : GRef} {active : List Nat} (h : ∀ l ∈ active, ∀ u, s.lane? g l = some u → u.tx = none) :
    countIssue s g active = (s, active) := by
  refine foldl_collects active [] fun l hl d => ?_
  cases hu : s.lane? g l with
  | none => simp
  | some u => simp [h l hl u hu]

/-- A lane outside transactions is in no logged one. -/
theorem inLogged_plain {s : State} {g : GRef} {l : Nat} (h : ∀ u, s.lane? g l = some u → u.tx = none) : s.inLogged g l = false := by
  cases hu : s.lane? g l with
  | none => simp [State.inLogged, hu]
  | some u => simp [State.inLogged, hu, Thread.logged, Thread.inTx, h u hu]

/-- A lane outside transactions does not run irrevocably. -/
theorem isIrrev_plain {s : State} {g : GRef} {l : Nat} (h : ∀ u, s.lane? g l = some u → u.tx = none) : s.isIrrev g l = false := by
  cases hu : s.lane? g l with
  | none => simp [State.isIrrev, hu]
  | some u => simp [State.isIrrev, hu, Thread.irrev, h u hu]

/-- A word aborts no lane where none of its lanes is in a logged transaction (R304). -/
theorem victimsOf_plain {s : State} {g : GRef} {i : Instr} {active acting : List Nat} (h : ∀ l ∈ active, s.inLogged g l = false)
    (sub : acting ⊆ active) : victimsOf s g i active acting = [] := by
  have none_in {ls : List Nat} (hls : ls ⊆ active) : ls.filter (fun l => s.inLogged g l) = [] := by
    simpa using fun l hl => h l (hls hl)
  unfold victimsOf
  rw [none_in sub, none_in (List.Subset.refl active)]
  split
  · rfl
  · split
    · rfl
    · split <;> rfl

/-- The acting lanes are the guarded ones (R27, R155, R156). -/
theorem actingLanes_eq_guarded (gr : Group) (i : Instr) (active : List Nat) : actingLanes gr i active = guarded i gr active := by
  unfold actingLanes guarded
  split
  · cases active with
    | nil => simp
    | cons l ls => rfl
  · rfl

/-- Only issuing lanes act. -/
theorem guarded_subset (i : Instr) (gr : Group) (lanes : List Nat) : guarded i gr lanes ⊆ lanes := by
  dsimp only [guarded]
  split
  · split
    · exact List.Subset.refl lanes
    · exact List.nil_subset lanes
  · exact List.filter_subset_self lanes

section

variable {i : Instr} {s : State} {c : Issue} {t : Team} {gr : Group}

/-- No issuing lane of a ready word is in a transaction, in the state that the issue starts from. -/
theorem Ready.lanes_plain (h : Ready i s c t gr) : ∀ l ∈ lanesOf c.lanes, ∀ u, (s.setCur none).lane? c.g l = some u → u.tx = none := by
  intro l hl u hu
  have look : (s.setCur none).lane? c.g l = (s.group? c.g).bind fun x => x.lane? l := rfl
  rw [look, h.group] at hu
  exact h.plain l hl u hu

/-- A ready word issues, in the state and the lanes that it was taken with (R24, R27, R31, R154 to R156). -/
theorem Ready.issues (h : Ready i s c t gr) : Issues i s (issueOf i s c t gr) := by
  have team : (s.setCur none).team? c.g.team = some t := h.team
  have group : (s.setCur none).group? c.g = some gr := h.group
  have sub : guarded i gr (lanesOf c.lanes) ⊆ lanesOf c.lanes := guarded_subset i gr _
  have lanes : lanesOf c.lanes ≠ [] := fun e => h.acts (List.subset_nil.1 (e ▸ sub))
  have mode : (Instr.privileged i && !gr.ctl.priv) = false := by simpa using h.mode
  have victims : victimsOf (s.setCur none) c.g i (lanesOf c.lanes) (guarded i gr (lanesOf c.lanes)) = [] :=
    victimsOf_plain (fun l hl => inLogged_plain (h.lanes_plain l hl)) sub
  have stuck : (guarded i gr (lanesOf c.lanes)).filter (fun l => (s.setCur none).isIrrev c.g l && gr.handler.isNone) = [] := by
    rw [List.filter_eq_nil_iff]
    intro l hl
    simp [isIrrev_plain (h.lanes_plain l (sub hl))]
  unfold Issues prepare
  simp [h.issued, h.team, h.group, h.free, countIssue_plain h.lanes_plain, group, team, lanes, mode, h.budget,
    actingLanes_eq_guarded, victims, stuck, h.acts, issueOf]

/-- What a word does at every issue of it, it does whenever it is ready. -/
theorem completes_of_issues {out : Wd → State} (h : ∀ s w, Issues i s w → exec i s = .next (out w)) : Completes i out :=
  ⟨h, fun _ _ _ _ hr => h _ _ hr.issues⟩

/-- A register-layout word whose meaning is the operation `op`. -/
theorem computes_reg {sp : RegSpec} {f : RegF} {op : AluIn → AluOut} (hi : regInfo i = some (sp, f)) (meaning : exec i = runAlu i op) :
    Computes i (formOf i) op :=
  completes_of_issues fun s _ hw => (congrFun meaning s).trans (runAlu_computes hi op hw)

/-- An immediate-layout word whose meaning is the operation `op`. -/
theorem computes_imm {f : ImmF} {imm : Nat} {op : AluIn → AluOut} (meaning : exec i = runAluImm i f imm op) :
    Computes i (immForm f imm) op :=
  completes_of_issues fun s _ hw => (congrFun meaning s).trans (runAluImm_computes f imm op hw)

end

end Sys2Proof.Machine
end

section
/-! SUPPORT. The integer, the logic and the bit-manipulation words (R92 to R105). -/

namespace Sys2Proof.Machine

/-- Settles O1: every word's arm of `exec` runs, in the word's own form, the operation that the statement writes out. -/
theorem integerWords : Obligations.IntegerWords := by
  constructor
  case left =>
    intro f
    refine ⟨?iadd, ?isub, ?iaddc, ?isubb, ?imul, ?imulh, ?imad, ?imadw, ?idiv, ?irem, ?ineg, ?iabs, ?imin, ?imax, ?isad, ?idot4,
      ?icmp⟩ <;>
      exact computes_reg rfl rfl
  case right =>
    intro f
    refine ⟨?iaddImm, ?isubImm, ?imulImm, ?iminImm, ?imaxImm⟩ <;> exact computes_imm rfl

/-- Settles O2: every word's arm of `exec` runs, in the word's own form, the operation that the statement writes out; the immediate
reaches the logic words sign-extended and the shifts as its low six bits. -/
theorem logicWords : Obligations.LogicWords := by
  constructor
  case left =>
    intro f
    refine ⟨?and, ?or, ?xor, ?not, ?lop3, ?shl, ?shr, ?sar, ?rot, ?fshfL, ?fshfR, ?bfe, ?bfi, ?popc, ?clz, ?ctz, ?brev, ?prmt⟩ <;>
      exact computes_reg rfl rfl
  case right =>
    intro f
    refine ⟨?andImm, ?orImm, ?xorImm, ?shlImm, ?shrImm, ?sarImm, ?rotImm⟩ <;> exact computes_imm rfl

end Sys2Proof.Machine
end

section
/-! SUPPORT. What EXIT leaves where the teams of the state stand in the order of their numbers: the changes of one group, the retirement
of groups, and the two cases of EXIT in which the team keeps a group (R132, R165, R166). -/

namespace Sys2Proof.Machine

/-! ### One team or group changed, where the teams stand in order -/

/-- An entry's key is at least the bound that the keys rise from. -/
theorem risingFrom_le {β : Type} {lo k : Nat} {m : AMap β} {x : β} (r : risingFrom lo m = true) (hx : amGet m k = some x) : lo ≤ k := by
  induction m generalizing lo with
  | nil => cases hx
  | cons e rest ih =>
    simp only [risingFrom, Bool.and_eq_true, decide_eq_true_eq] at r
    simp only [amGet] at hx
    split at hx
    · omega
    · have := ih r.2 hx
      omega

/-- Where the keys rise, an entry changed is that entry replaced. -/
theorem amMod_eq_amPut {β : Type} {lo k : Nat} {m : AMap β} {x : β} (f : β → β) (r : risingFrom lo m = true) (hx : amGet m k = some x) :
    amMod m k f = amPut m k (f x) := by
  induction m generalizing lo with
  | nil => cases hx
  | cons e rest ih =>
    obtain ⟨j, v⟩ := e
    simp only [risingFrom, Bool.and_eq_true] at r
    obtain ⟨-, r⟩ := r
    simp only [amGet] at hx
    split at hx
    · subst_vars
      cases hx
      have others : ∀ e ∈ rest, (if e.1 = j then (e.1, f e.2) else e) = e := fun e he =>
        if_neg (by have := risingFrom_ge r e he; omega)
      simp [amPut, amMod, List.map_congr_left others]
    · rename_i ne
      have le := risingFrom_le r hx
      have step := ih r hx
      simp only [amMod] at step
      simp [amPut, ne, Ne.symm ne, amMod, step, show ¬ k < j by omega]

theorem amPut_amPut {β : Type} (m : AMap β) (k : Nat) (x y : β) : amPut (amPut m k x) k y = amPut m k y := by
  induction m with
  | nil => simp [amPut]
  | cons e rest ih =>
    simp only [amPut]
    split
    · simp [amPut]
    · split
      · simp [amPut]
      · simp [amPut, *]

theorem getElem?_modNth {β : Type} (l : List β) (i j : Nat) (f : β → β) :
    (modNth l i f)[j]? = if j = i then l[j]?.map f else l[j]? := by
  induction l generalizing i j with
  | nil => simp [modNth]
  | cons x xs ih => cases i <;> cases j <;> simp [modNth, ih]

/-- A team with other groups. -/
def withGroups (t : Team) (gs : List Group) : Team := { t with groups := gs }

/-- A group changed is its team replaced. -/
theorem modGroup_eq_putTeam {s : State} {g : GRef} {t : Team} (f : Group → Group) (order : risingFrom 0 s.teams = true)
    (team : s.team? g.team = some t) : s.modGroup g f = s.putTeam g.team (withGroups t (modNth t.groups g.ix f)) :=
  congrArg s.setTeams (amMod_eq_amPut _ order team)

/-- A group changed in a team that has been replaced. -/
theorem modGroup_putTeam {s : State} {g : GRef} (t : Team) (f : Group → Group) (order : risingFrom 0 s.teams = true) :
    (s.putTeam g.team t).modGroup g f = s.putTeam g.team (withGroups t (modNth t.groups g.ix f)) := by
  rw [modGroup_eq_putTeam (s := s.putTeam g.team t) f (risingFrom_amPut g.team t order (Nat.zero_le _))
    (amGet_amPut_same s.teams g.team t)]
  exact congrArg s.setTeams (amPut_amPut s.teams g.team t _)

/-! ### Retirement -/

/-- A group that retires where `b` says so. -/
def retireIf (b : Bool) (x : Group) : Group := if b then { x with retired := true } else x

/-- A team each of whose groups has retired that can (R165). -/
def quietRetired (s : State) (k : Nat) (t : Team) : Team :=
  withGroups t (t.groups.mapIdx fun i x => retireIf (groupQuiet s ⟨k, i⟩ x) x)

/-- Where no other group of a team can retire, the one that is changed retires alone, if it can. -/
theorem quietRetired_modNth {s : State} {g : GRef} {t : Team} {gr : Group} (f : Group → Group) (group : t.groups[g.ix]? = some gr)
    (others : ∀ i x, t.groups[i]? = some x → i ≠ g.ix → groupQuiet s ⟨g.team, i⟩ x = false) :
    quietRetired s g.team (withGroups t (modNth t.groups g.ix f)) =
      withGroups t (modNth t.groups g.ix fun x => retireIf (groupQuiet s g (f gr)) (f x)) := by
  simp only [quietRetired, withGroups]
  congr 1
  refine List.ext_getElem? fun i => ?_
  simp only [List.getElem?_mapIdx, getElem?_modNth]
  by_cases same : i = g.ix
  · subst same
    simp [group]
  · cases at_i : t.groups[i]? with
    | none => simp [same]
    | some x => simp [same, others i x at_i same, retireIf]

/-- A group that has not retired keeps its team (R165). -/
theorem not_quiet {t : Team} {i : Nat} {x : Group} (at_i : t.groups[i]? = some x) (unretired : x.retired = false) : t.quiet = false := by
  simp only [Team.quiet, List.all_eq_false]
  exact ⟨x, List.mem_of_getElem? at_i, by simp [unretired]⟩

/-- Retirement in a team that keeps a group: the groups retire that can, and nothing else changes (R165, R166). -/
theorem retire_keeps {s : State} {k : Nat} {t : Team} (alive : t.phase ≠ .ended) (left : t.phase = .leaving → t.parent = none)
    (kept : (quietRetired s k t).quiet = false) : retire (s.putTeam k t) k = s.putTeam k (quietRetired s k t) := by
  have found (x : Team) : (s.putTeam k x).team? k = some x := amGet_amPut_same s.teams k x
  have twice (x y : Team) : (s.putTeam k x).putTeam k y = s.putTeam k y := congrArg s.setTeams (amPut_amPut s.teams k x y)
  have groups : retireGroups (s.putTeam k t) k = s.putTeam k (quietRetired s k t) := by
    simp only [retireGroups, found, twice]
    rfl
  have phase : (quietRetired s k t).phase = t.phase := rfl
  simp only [retire, found, alive, if_false, groups, teamRetired, kept, phase, Bool.false_eq_true, and_false]
  split
  · rename_i leaving
    have same : { quietRetired s k t with parent := none, phase := .leaving } = quietRetired s k t := by
      simp [quietRetired, withGroups, left leaving, leaving]
    simp only [letGo, found, phase, alive, if_false, kept, Bool.false_eq_true, same, twice]
  · rfl

/-! ### EXIT -/

/-- A group whose acting threads have ended. -/
def ended (w : Wd) (x : Group) : Group := x.modLanes w.acting fun _ u => { u with exited := true }

/-- A group after an EXIT (R132): the acting threads have ended where they stand, the other active ones go on. -/
def exited (w : Wd) : Group → Group := eachLane fun l u =>
  if w.acting.contains l then { u with exited := true } else if w.active.contains l then stepped w u else u

/-- The active lanes that do not act in an EXIT go on. -/
theorem modLanes_ended (w : Wd) (x : Group) :
    (ended w x).modLanes (w.active.filter fun l => !w.acting.contains l) (fun _ u => stepped w u) = exited w x := by
  simp only [ended, exited, Group.modLanes, eachLane, List.mapIdx_mapIdx]
  congr 2
  funext l u
  by_cases acts : l ∈ w.acting <;> by_cases active : l ∈ w.active <;> simp [acts, active]

/-- Whether a group can retire does not depend on its PCs (R165). -/
theorem groupQuiet_exited (s : State) (g : GRef) (w : Wd) (x : Group) : groupQuiet s g (exited w x) = groupQuiet s g (ended w x) := by
  rw [← modLanes_ended]
  have lanes (y : Group) (ls : List Nat) : ((y.modLanes ls fun _ u => stepped w u).lanes.all fun u => u.exited) =
      y.lanes.all fun u => u.exited := by
    have same (l : Nat) (u : Thread) : (if ls.contains l then stepped w u else u).exited = u.exited := by split <;> rfl
    rw [Bool.eq_iff_iff, List.all_eq_true, List.all_eq_true, List.forall_mem_iff_getElem, List.forall_mem_iff_getElem]
    simp only [Group.modLanes, List.length_mapIdx, List.getElem_mapIdx, same]
  simp only [groupQuiet, lanes]
  rfl

/-- The end of a word whose acting lanes keep their PC. -/
theorem finish_stay (w : Wd) (u : State) (ls : List Nat) : finish w { Res.done u with stay := ls } =
    u.modLanes w.g (w.active.filter fun l => !ls.contains l) fun _ t => stepped w t := by
  simp [finish, Res.done, advance, stepped]

section

variable {s : State} {w : Wd} {t : Team} {gr : Group} {gd : Guard} (issues : Issues (.exit gd) s w) (plain : w.gr.handler = none)

include issues plain

/-- An EXIT outside a trap handler: the acting threads end, what of the team can retire does, and the other active lanes go on. -/
theorem exec_exit : exec (.exit gd) s =
    .next ((retire (w.s.modGroup w.g (ended w)) w.g.team).modLanes w.g (w.active.filter fun l => !w.acting.contains l)
      fun _ u => stepped w u) := by
  have body : exitBody w = { Res.done (retire (w.s.modGroup w.g (ended w)) w.g.team) with stay := w.acting } := by
    rw [exitBody, plain]
    rfl
  rw [show exec (.exit gd) s = runWord (.exit gd) exitBody s from rfl, runWord_run issues, body, finish_stay]

variable (order : risingFrom 0 w.s.teams = true) (team : w.s.team? w.g.team = some t) (group : t.groups[w.g.ix]? = some gr)
  (others : ∀ i x, t.groups[i]? = some x → i ≠ w.g.ix → groupQuiet w.s ⟨w.g.team, i⟩ x = false)

include order team group others

/-- Where the teams stand in order, an EXIT after which its team keeps a group ends the acting threads and retires their group if that
can retire, and changes nothing else (R132, R165). -/
theorem exit_keeps (alive : t.phase ≠ .ended) (left : t.phase = .leaving → t.parent = none)
    (kept : (∃ i x, t.groups[i]? = some x ∧ i ≠ w.g.ix ∧ x.retired = false) ∨
      groupQuiet w.s w.g (exited w gr) = false ∧ gr.retired = false) :
    exec (.exit gd) s = .next (w.s.modGroup w.g fun x => retireIf (groupQuiet w.s w.g (exited w gr)) (exited w x)) := by
  have retired := quietRetired_modNth (s := w.s) (g := w.g) (ended w) group others
  have stays : (quietRetired w.s w.g.team (withGroups t (modNth t.groups w.g.ix (ended w)))).quiet = false := by
    rw [retired]
    obtain ⟨i, x, at_i, other, unretired⟩ | ⟨busy, unretired⟩ := kept
    · exact not_quiet (i := i) (by simp [withGroups, getElem?_modNth, other, at_i]) unretired
    · exact not_quiet (i := w.g.ix) (by simp [withGroups, getElem?_modNth, group]; rfl) (by rwa [← groupQuiet_exited, busy])
  have steps (b : Bool) (x : Group) : (retireIf b (ended w x)).modLanes (w.active.filter fun l => !w.acting.contains l)
      (fun _ u => stepped w u) = retireIf b (exited w x) := by
    rw [← modLanes_ended]
    cases b <;> rfl
  rw [exec_exit issues plain, modGroup_eq_putTeam _ order team,
    retire_keeps (t := withGroups t (modNth t.groups w.g.ix (ended w))) alive left stays, retired, State.modLanes,
    modGroup_putTeam _ _ order, modGroup_eq_putTeam _ order team]
  simp only [withGroups, modNth_modNth, steps, groupQuiet_exited]

/-- Where the teams stand in order, an EXIT that leaves a thread of its group changes nothing but the group's threads (R132). -/
theorem exit_leaves (alive : t.phase ≠ .ended) (left : t.phase = .leaving → t.parent = none) (unretired : gr.retired = false)
    (thread : ∃ l th, gr.lane? l = some th ∧ th.exited = false ∧ l ∉ w.acting) :
    exec (.exit gd) s = .next (w.s.modGroup w.g (exited w)) := by
  obtain ⟨l, th, at_l, stands, idle⟩ := thread
  have lane : (exited w gr).lanes[l]? = some (if w.active.contains l then stepped w th else th) := by
    simp only [Group.lane?] at at_l
    simp [exited, eachLane, idle, at_l]
  have running : (if w.active.contains l then stepped w th else th).exited = false := by split <;> exact stands
  have busy : groupQuiet w.s w.g (exited w gr) = false := by
    have : ((exited w gr).lanes.all fun u => u.exited) = false :=
      List.all_eq_false.2 ⟨_, List.mem_of_getElem? lane, ne_true_of_eq_false running⟩
    simp [groupQuiet, this]
  rw [exit_keeps issues plain order team group others alive left (.inr ⟨busy, unretired⟩), busy]
  rfl

/-- Where the teams stand in order, an EXIT of the last threads of a group that is not its team's last retires the group (R165). -/
theorem exit_retires (running : t.phase = .running) (other : ∃ i x, t.groups[i]? = some x ∧ i ≠ w.g.ix ∧ x.retired = false)
    (last : groupQuiet w.s w.g (exited w gr) = true) :
    exec (.exit gd) s = .next (w.s.modGroup w.g fun x => { exited w x with retired := true }) := by
  rw [exit_keeps issues plain order team group others (by simp [running]) (by simp [running]) (.inl other), last]
  rfl

end

end Sys2Proof.Machine
end

section
/-! SUPPORT. The refutation of O9 (R127 to R133, R165): EXIT in a state whose teams do not stand in order. -/

namespace Sys2Proof.Machine

/-- A machine whose list of teams is not in the order of their numbers: team 1 stands before team 0, whose one group issues a word in
its lanes 0 and 1. -/
def teamsOutOfOrder : State :=
  (State.reset.setTeams [(1, bootTeam), (0, bootTeam)]).setCur (some ⟨⟨0, 0⟩, 3, bootPc, false⟩)

/-- An unguarded EXIT is ready there: nothing is outstanding, no lane is in a transaction, and the issuing lanes act. -/
theorem exit_ready_teamsOutOfOrder : Ready (.exit ⟨false, 7⟩) teamsOutOfOrder ⟨⟨0, 0⟩, 3, bootPc, false⟩ bootTeam
    (Group.start 0 256 0 bootPc (Ctl.start bootPc 1 bootAsid)) where
  issued := rfl
  team := rfl
  group := rfl
  free := by decide
  plain := by decide +kernel
  mode := by decide
  budget := by decide
  acts := by decide +kernel

/-- How many entries the list of teams has in the state that a word leaves. -/
def teamsAfter : Host.Outcome State Fault Refusal → Nat
  | .next u => u.teams.length
  | _ => 0

/-- Refutes O9: the statement takes every state, also one whose list of teams is not in the order of their numbers. There the EXIT of
lanes 0 and 1 leaves thirty threads of its group, after which the statement changes nothing but that group. The model's retirement puts
the team back with `amPut`, which looks for its place by the order of the keys: the list then has a third entry, before the two old ones.
Where the teams stand in order, the two clauses of EXIT that this concerns hold (`exit_leaves`, `exit_retires`). -/
theorem not_transfers : ¬ Obligations.Transfers := by
  unfold Obligations.Transfers
  rintro ⟨-, -, exits, -⟩
  obtain ⟨leaves, -, -⟩ := exits _ _ _ _ _ exit_ready_teamsOutOfOrder.issues rfl rfl rfl (by decide) (by decide) rfl
  have thread : ∃ l th, (Group.start 0 256 0 bootPc (Ctl.start bootPc 1 bootAsid)).lane? l = some th ∧ th.exited = false ∧
      l ∉ (issueOf (.exit ⟨false, 7⟩) teamsOutOfOrder ⟨⟨0, 0⟩, 3, bootPc, false⟩ bootTeam
        (Group.start 0 256 0 bootPc (Ctl.start bootPc 1 bootAsid))).acting :=
    ⟨2, Thread.start bootPc, rfl, rfl, by decide +kernel⟩
  have only_group (i : Nat) (x : Group) (at_i : bootTeam.groups[i]? = some x) (other : i ≠ 0) :
      groupQuiet (teamsOutOfOrder.setCur none) ⟨0, i⟩ x = false := by
    obtain ⟨n, rfl⟩ := Nat.exists_eq_succ_of_ne_zero other
    simp [bootTeam] at at_i
  have entries := congrArg teamsAfter (leaves thread only_group)
  exact absurd entries (by decide +kernel)

end Sys2Proof.Machine
end

section
/-! SUPPORT. The votes, matches and ELECT, SHFL, and GRED (R194 to R198): what each body does in its acting lanes, and the tree of GRED
as five rounds of joining neighbours. -/

namespace Sys2Proof.Machine

/-- A word whose body only changes its acting lanes. -/
theorem runWord_lanes {i : Instr} {body : Wd → Res} {s : State} {w : Wd} {f : Nat → Thread → Thread} (issues : Issues i s w)
    (lanes : body w = Res.done (w.s.modLanes w.g w.acting f)) : runWord i body s = .next (afterLanes w f) := by
  rw [runWord_run issues, lanes, finish_lanes]

/-! ### Votes and matches (R196) -/

/-- VOTE.SAME in each acting lane: the predicate has one value where all acting lanes have 1 or all have 0. -/
theorem voteSame_lanes (f : RegF) (w : Wd) :
    allPred f (fun _ => w.acting.all (lanePred w f.a) || !(w.acting.any (lanePred w f.a))) w =
      Res.done (w.s.modLanes w.g w.acting fun _ t =>
        t.setP (f.d.toNat % 8) (w.acting.all (lanePred w f.a) || w.acting.all fun l => !lanePred w f.a l)) := by
  rw [List.not_any_eq_all_not]
  rfl

/-- Every acting lane is a peer of a lane where their values all equal its own. -/
theorem peersOf_all (f : RegF) (w : Wd) (l : Nat) : ((peersOf f w l).length == w.acting.length) =
    w.acting.all fun k => laneVal w f.a f.ty.width k == laneVal w f.a f.ty.width l := by
  rw [Bool.eq_iff_iff, beq_iff_eq, peersOf, List.length_filter_eq_length_iff, List.all_eq_true]

/-- MATCH.UNIFORM in each acting lane. -/
theorem matchUniformBody_lanes (f : RegF) (w : Wd) :
    let same := w.acting.all fun l => w.acting.all fun k => laneVal w f.a f.ty.width k == laneVal w f.a f.ty.width l
    matchUniformBody f w = Res.done (w.s.modLanes w.g w.acting fun _ t =>
      (t.setV f.d.toNat (if same then maskOf w.acting else 0)).setP (f.c.toNat % 8) same) := by
  simp only [matchUniformBody, peersOf_all]

/-! ### SHFL (R195) -/

/-- SHFL in each acting lane: the value of its source lane where there is one, else its own. -/
theorem shflBody_lanes (f : RegF) (w : Wd) : shflBody f w = Res.done (w.s.modLanes w.g w.acting fun l t =>
    (t.setRun f.d.toNat (f.ty.width / 32) (laneVal w f.a f.ty.width ((shflSource f w l).getD l))).setP (f.c.toNat % 8)
      (shflSource f w l).isSome) := by
  unfold shflBody
  congr 2
  funext l t
  cases shflSource f w l <;> rfl

/-! ### The tree of GRED (R198) -/

section

variable (f : Nat → Nat → Nat × Fl)

/-- Two partial results combined, with the flags of both and of the step that combines them. -/
def joinTwo (a b : Nat × Fl) : Nat × Fl := ((f a.1 b.1).1, a.2 ||| b.2 ||| (f a.1 b.1).2)

/-- Neighbours joined, the lower lane on the left. -/
def joinNeighbours (v : Nat → Nat × Fl) (l : Nat) : Nat × Fl := joinTwo f (v (2 * l)) (v (2 * l + 1))

/-- The values of the first `n` partial results. -/
def valuesOf (v : Nat → Nat × Fl) (n : Nat) : List Nat := (List.range n).map fun l => (v l).1

/-- The flags of the first `n` partial results. -/
def flagsOf (v : Nat → Nat × Fl) : Nat → Fl
  | 0 => flNone
  | n + 1 => (v 0).2 ||| flagsOf (fun l => v (l + 1)) n

theorem valuesOf_succ (v : Nat → Nat × Fl) (n : Nat) : valuesOf v (n + 1) = (v 0).1 :: valuesOf (fun l => v (l + 1)) n := by
  simp [valuesOf, List.range_succ_eq_map, Function.comp_def]

theorem flagsOf_flagless (x : Nat → Nat) (n : Nat) : flagsOf (fun l => (x l, flNone)) n = flNone := by
  induction n generalizing x with
  | zero => rfl
  | succ n ih => rw [flagsOf, ih fun l => x (l + 1), BitVec.or_self]

/-- The partial results from lane 2 on are joined as the others are. -/
theorem joinNeighbours_add_two (v : Nat → Nat × Fl) :
    joinNeighbours f (fun l => v (l + 2)) = fun l => joinNeighbours f v (l + 1) := rfl

/-- One level of the tree joins the neighbours, and raises the flags that they did not have before. -/
theorem treeLevel_valuesOf (v : Nat → Nat × Fl) (n : Nat) :
    (treeLevel f (valuesOf v (2 * n))).1 = valuesOf (joinNeighbours f v) n ∧
      flagsOf v (2 * n) ||| (treeLevel f (valuesOf v (2 * n))).2 = flagsOf (joinNeighbours f v) n := by
  induction n generalizing v with
  | zero => exact ⟨rfl, BitVec.or_self⟩
  | succ n ih =>
    obtain ⟨values, flags⟩ := ih fun l => v (l + 2)
    rw [joinNeighbours_add_two] at values flags
    simp only [Nat.mul_succ, valuesOf_succ, treeLevel, flagsOf, values, ← flags]
    refine ⟨rfl, ?_⟩
    simp only [joinNeighbours, joinTwo, Nat.mul_zero, Nat.zero_add]
    ac_rfl

/-- The tree over 2^n lanes is `n` rounds of joining neighbours; beside its own flags stand those that the lanes came with. -/
theorem treeFold_valuesOf (v : Nat → Nat × Fl) (n : Nat) :
    (treeFold f n (valuesOf v (2 ^ n))).1 = ((joinNeighbours f)^[n] v 0).1 ∧
      flagsOf v (2 ^ n) ||| (treeFold f n (valuesOf v (2 ^ n))).2 = ((joinNeighbours f)^[n] v 0).2 := by
  induction n generalizing v with
  | zero => exact ⟨rfl, by simp [flagsOf, treeFold, flNone]⟩
  | succ n ih =>
    obtain ⟨values, flags⟩ := ih (joinNeighbours f v)
    obtain ⟨level_values, level_flags⟩ := treeLevel_valuesOf f v (2 ^ n)
    rw [Function.iterate_succ_apply, ← values, ← flags, ← level_flags, Nat.pow_succ', treeFold, level_values, BitVec.or_assoc]
    exact ⟨rfl, rfl⟩

/-- The tree over the values of 32 lanes, which bring no flags: five rounds of joining neighbours. -/
theorem treeFold_lanes (x : Nat → Nat) :
    treeFold f 5 ((List.range 32).map x) = (joinNeighbours f)^[5] (fun l => (x l, flNone)) 0 := by
  obtain ⟨values, flags⟩ := treeFold_valuesOf f (fun l => (x l, flNone)) 5
  rw [flagsOf_flagless, flNone, BitVec.zero_or] at flags
  exact Prod.ext values flags

end

/-- Settles O12: each word's body is one change of its acting lanes, written out for the votes and matches, for SHFL by its source lane,
and for GRED by the tree as five rounds of joining neighbours. -/
theorem groupWideWords : Obligations.GroupWideWords := by
  refine ⟨fun f s w => ⟨?every, ?some, ?same, ?mask, ?count, ?peers, ?uniform, ?elect⟩, ?shfl, ?gred⟩
  case every | some | mask | count | peers | elect => exact fun issues => runWord_lanes issues rfl
  case same => exact fun issues => runWord_lanes issues (voteSame_lanes f w)
  case uniform => exact fun issues => runWord_lanes issues (matchUniformBody_lanes f w)
  case shfl => exact fun f s w issues => runWord_lanes issues (shflBody_lanes f w)
  case gred =>
    intro f s w issues
    refine runWord_lanes issues ?_
    rw [gredBody, treeFold_lanes]
    rfl

end Sys2Proof.Machine
end

section
/-! SUPPORT. The floating-point, approximation, conversion, move and pair words (R28, R29, R51 to R62, R106 to R125). -/

namespace Sys2Proof.Machine

/-- An operation on a type that is not packed takes its operands whole (R51). -/
theorem elementwise_whole {ty : Ty} (unpacked : ty.packed = false) (op : Nat → Nat → Nat → FRes) :
    elementwise ty op = fun x => outF (op x.a x.b x.c) := by
  funext x
  simp [elementwise, unpacked]

/-- An immediate-layout word with a rounded operation, its type not packed: the operation on the whole operands (R119). -/
theorem computes_imm_rounded {i : Instr} {f : ImmF} {op : Fmt → Mode → Bool → FVal → FVal → FRes} (unpacked : f.ty.packed = false)
    (meaning : exec i = runAluImm i f (immFloat f) (fpBin f.ty .ctl op)) :
    Computes i (immForm f (immFloat f)) fun x => outF (op (fmtD f.ty) (modeOf .ctl x.ctl) (flushOf x.ctl (fmtD f.ty))
      (fin f.ty x.ctl x.a) (fin f.ty x.ctl x.b)) :=
  computes_imm (meaning.trans (congrArg _ (funext fun x => by simp only [fpBin, elementwise_whole unpacked])))

/-- An immediate-layout minimum or maximum, its type not packed. -/
theorem computes_imm_minMax {i : Instr} {f : ImmF} {isMax number : Bool} (unpacked : f.ty.packed = false)
    (meaning : exec i = runAluImm i f (immFloat f) (fpMinMax f.ty isMax number)) :
    Computes i (immForm f (immFloat f)) fun x => outF (fminmax (fmtD f.ty) isMax number (fin f.ty x.ctl x.a) (fin f.ty x.ctl x.b)) :=
  computes_imm (meaning.trans (congrArg _ (funext fun x => by simp only [fpMinMax, elementwise_whole unpacked])))

/-- Settles O3: every word's arm of `exec` runs, in the word's own form, the operation that the statement writes out, whose flushed reads
and modes are those of FPCTL; the immediate words' types are not packed. -/
theorem floatWords : Obligations.FloatWords := by
  constructor
  case left =>
    intro f
    refine ⟨?fadd, ?fsub, ?fmul, ?ffma, ?fmin, ?fmax, ?fminn, ?fmaxn, ?fcmp, ?fclass, ?frnd, ?fscale, ?fdiv, ?fsqrt⟩ <;>
      exact computes_reg rfl rfl
  case right =>
    intro f mode ftz num imm unpacked
    exact ⟨computes_imm_rounded unpacked rfl, computes_imm_rounded (op := fsub) unpacked rfl, computes_imm_rounded unpacked rfl,
      computes_imm_minMax unpacked rfl, computes_imm_minMax unpacked rfl, computes_imm_minMax unpacked rfl, computes_imm_minMax unpacked rfl⟩

/-- Settles O4: every word's arm of `exec` applies `approxElem` to each element of its operand. -/
theorem approximationWords : Obligations.ApproximationWords := by
  intro f
  refine ⟨?frcp, ?frsq, ?fexp2, ?flog2, ?fsin, ?fcos, ?ftanh⟩ <;> exact computes_reg rfl rfl

/-- Settles O5: CVT, QPACK and QUNPK run the operation that the statement writes out, and MXQ changes its acting lanes as it says. -/
theorem conversionWords : Obligations.ConversionWords := by
  intro f
  refine ⟨?cvt, ?qpack, ?qunpk, ?mxq⟩
  case cvt | qpack | qunpk => exact computes_reg rfl rfl
  case mxq => exact completes_of_issues fun s w issues => runWord_lanes issues rfl

/-- Settles O6: every word's arm of `exec` runs, in the word's own form, the operation that the statement writes out. -/
theorem moveWords : Obligations.MoveWords := by
  constructor
  case left =>
    intro f
    refine ⟨?mov, ?sel, ?pset, ?pmovV, ?pmovP⟩ <;> exact computes_reg rfl rfl
  case right =>
    intro f
    refine ⟨?movi, ?movh⟩ <;>
      exact completes_of_issues fun s w issues => (runWord_run issues).trans (congrArg _ (finish_alu _ _ _ issues.acting))

/-- Settles O8: a pair changes its acting lanes by both halves' values, which it takes from the registers that it found. -/
theorem pairWord : Obligations.PairWord := by
  intro u l imm val
  exact completes_of_issues fun s w issues => runWord_lanes issues rfl

end Sys2Proof.Machine
end

section
/-! SUPPORT. The decoder and the encoder over every word (R23, R30, R31, R69 to R91). -/

namespace Sys2Proof.Laws.RoundTrip

/-- The round trip holds for every instruction. -/
theorem all : (i : Instr) → Statement i
  | .pair u l => pair u l | .bra f => bra f | .brx f => brx f | .call f => call f | .ret f => ret f | .exit g => exit g
  | .yield g => yield g | .nop g => nop g | .bpt f => bpt f | .trap f => trap f | .iadd f => iadd f | .isub f => isub f
  | .iaddc f => iaddc f | .isubb f => isubb f | .imul f => imul f | .imulh f => imulh f | .imad f => imad f | .imadw f => imadw f
  | .idiv f => idiv f | .irem f => irem f | .ineg f => ineg f | .iabs f => iabs f | .imin f => imin f | .imax f => imax f
  | .isad f => isad f | .idot4 f => idot4 f | .icmp f => icmp f | .and f => and f | .or f => or f | .xor f => xor f | .not f => not f
  | .lop3 f => lop3 f | .shl f => shl f | .shr f => shr f | .sar f => sar f | .rot f => rot f | .fshfL f => fshfL f | .fshfR f => fshfR f
  | .bfe f => bfe f | .bfi f => bfi f | .popc f => popc f | .clz f => clz f | .ctz f => ctz f | .brev f => brev f | .prmt f => prmt f
  | .iaddImm f => iaddImm f | .isubImm f => isubImm f | .imulImm f => imulImm f | .iminImm f => iminImm f | .imaxImm f => imaxImm f
  | .andImm f => andImm f | .orImm f => orImm f | .xorImm f => xorImm f | .shlImm f => shlImm f | .shrImm f => shrImm f
  | .sarImm f => sarImm f | .rotImm f => rotImm f | .fadd f => fadd f | .fsub f => fsub f | .fmul f => fmul f | .ffma f => ffma f
  | .fmin f => fmin f | .fmax f => fmax f | .fminn f => fminn f | .fmaxn f => fmaxn f | .fcmp f => fcmp f | .fclass f => fclass f
  | .frnd f => frnd f | .fscale f => fscale f | .fdiv f => fdiv f | .fsqrt f => fsqrt f | .frcp f => frcp f | .frsq f => frsq f
  | .fexp2 f => fexp2 f | .flog2 f => flog2 f | .fsin f => fsin f | .fcos f => fcos f | .ftanh f => ftanh f | .faddImm f => faddImm f
  | .fsubImm f => fsubImm f | .fmulImm f => fmulImm f | .fminImm f => fminImm f | .fmaxImm f => fmaxImm f | .fminnImm f => fminnImm f
  | .fmaxnImm f => fmaxnImm f | .cvt f => cvt f | .qpack f => qpack f | .qunpk f => qunpk f | .mxq f => mxq f | .mov f => mov f
  | .movi f => movi f | .movh f => movh f | .sel f => sel f | .pset f => pset f | .pmovV f => pmovV f | .pmovP f => pmovP f
  | .mfs f => mfs f | .mts f => mts f | .ld m k => ld m k | .st m k => st m k | .lds m k => lds m k | .sts m k => sts m k
  | .ldr m k => ldr m k | .preq m => preq m | .ldMx m k => ldMx m k | .stMx m k => stMx m k | .atom m k => atom m k
  | .atomv m k => atomv m k | .red m k => red m k | .fence m o sc => fence m o sc | .cctlLine m => cctlLine m | .cctlAll m => cctlAll m
  | .cctlIfetch m => cctlIfetch m | .tlbiPage m => tlbiPage m | .tlbiAsid m => tlbiAsid m | .tlbiAll m => tlbiAll m
  | .txbegin f => txbegin f | .txbeginTs f => txbeginTs f | .txbeginO f => txbeginO f | .txcommit f => txcommit f
  | .txabort f => txabort f | .txstat f => txstat f | .sdopen f => sdopen f | .shfl f => shfl f | .voteEvery f => voteEvery f
  | .voteSome f => voteSome f | .voteSame f => voteSame f | .voteMask f => voteMask f | .matchPeers f => matchPeers f
  | .matchUniform f => matchUniform f | .elect f => elect f | .voteCount f => voteCount f | .gred f => gred f | .barInit f => barInit f
  | .barArr f => barArr f | .barArrRmt f => barArrRmt f | .barWait f => barWait f | .barSync f => barSync f | .spawn f => spawn f
  | .sync f => sync f | .endt f => endt f | .invokeCore f => invokeCore f | .invokeAny f => invokeAny f | .invokeStake f => invokeStake f
  | .invokeDie f => invokeDie f | .await f => await f | .poll f => poll f | .fulfil f => fulfil f | .brk f => brk f | .drop f => drop f
  | .copy f => copy f | .copyMc f => copyMc f | .fill f => fill f | .mshape f => mshape f | .mma f => mma f | .accld f => accld f
  | .accst f => accst f | .accz f => accz f | .waitc f => waitc f | .monw f => monw f | .nred f => nred f | .nbar f => nbar f
  | .eret f => eret f | .mfc f => mfc f | .mtc f => mtc f | .mtcPtbase f => mtcPtbase f | .mtcAsid f => mtcAsid f | .halt f => halt f
  | .teamAdmission => teamAdmission | .taskAdmission die => taskAdmission die | .placement core => placement core
  | .preemption => preemption | .preemptionSave team => preemptionSave team | .teamResume team => teamResume team
  | .fold frame => fold frame | .mergeGroupRetire g => mergeGroupRetire g | .syncApplication frame => syncApplication frame
  | .gridCompletion grid => gridCompletion grid | .launchCompletion grid => launchCompletion grid
  | .stakeMessage index => stakeMessage index | .lineDelivered op team line => lineDelivered op team line
  | .engineOpComplete op => engineOpComplete op | .mcDrain op team => mcDrain op team | .matrixOpStart core => matrixOpStart core
  | .monitorReread mon => monitorReread mon | .monitorPoll mon => monitorPoll mon | .monitorTimeout mon => monitorTimeout mon
  | .commitRound g => commitRound g | .cairn g => cairn g | .orderedCommit g => orderedCommit g
  | .irrevocableBegin g lane => irrevocableBegin g lane | .watchdog g lane => watchdog g lane | .accessPerform acc => accessPerform acc
  | .eviction l => eviction l | .spontaneousWriteback sector toDram => spontaneousWriteback sector toDram | .refresh bank => refresh bank
  | .contextFatalReport e => contextFatalReport e | .trapEntry g => trapEntry g | .asyncFaultDelivery g => asyncFaultDelivery g
  | .handlerWatchdog g => handlerWatchdog g | .remoteArrival index => remoteArrival index | .remoteAck acc => remoteAck acc
  | .peerAccess dev off r => peerAccess dev off r | .flitReceive port dev len ok payload => flitReceive port dev len ok payload
  | .portDown port => portDown port | .peerLost dev => peerLost dev | .routerInput round src => routerInput round src
  | .roundTimeout round node => roundTimeout round node | .roundComplete round core => roundComplete round core
  | .doorbell queue index => doorbell queue index | .launch queue => launch queue | .contextCreate queue => contextCreate queue
  | .contextAttach queue => contextAttach queue | .contextDestroy queue => contextDestroy queue | .checkpoint queue => checkpoint queue
  | .restore queue => restore queue | .dieReset queue => dieReset queue | .exportWindow queue => exportWindow queue
  | .dieReadmission die ok => dieReadmission die ok | .routerFailure die router => routerFailure die router
  | .fabricError die => fabricError die | .proxyAnswer index => proxyAnswer index | .coreReset die => coreReset die
  | .moduleReset => moduleReset | .trainingComplete iod1 => trainingComplete iod1 | .dieAdmission die ok => dieAdmission die ok
  | .jiathTraining dev ports peers => jiathTraining dev ports peers | .jiathTrainingTimeout => jiathTrainingTimeout
  | .loadFirmware addr len => loadFirmware addr len | .setPriv ctx => setPriv ctx | .clearPriv ctx => clearPriv ctx
  | .readSensors => readSensors | .setPowerLimit watts => setPowerLimit watts
  | .setAccess target master rights => setAccess target master rights | .getVersion => getVersion | .getCapabilities => getCapabilities
  | .negotiateAlgorithms => negotiateAlgorithms | .getDigests => getDigests | .getCertificate => getCertificate
  | .challenge nonce => challenge nonce | .pop log n => pop log n | .ovfClear log => ovfClear log | .throttle up => throttle up
  | .pciExpressRequest fn r => pciExpressRequest fn r | .getMeasurements => getMeasurements | .thermalTrip => thermalTrip
  | .thermalRelease => thermalRelease

end Sys2Proof.Laws.RoundTrip

namespace Sys2Proof

/-- A word that decodes is its instruction's one word, and the instruction passes the checks (R31). -/
theorem encode_of_decode {w : W64} {i : Instr} (h : decode w = .ok i) : encode i = w ∧ WellFormed i := by
  unfold decode at h
  split at h
  case isTrue =>
    split at h
    next u l _ _ =>
      split at h
      next fields =>
        split at h
        next paired =>
          cases h
          obtain ⟨halves, word⟩ := (Bool.and_eq_true _ _).mp fields
          exact ⟨eq_of_beq word, (Bool.and_eq_true _ _).mpr ⟨halves, paired⟩⟩
        next => cases h
      next => cases h
    next => cases h
  case isFalse =>
    split at h
    next =>
      split at h
      next i _ =>
        split at h
        next checked =>
          cases h
          obtain ⟨wf, word⟩ := (Bool.and_eq_true _ _).mp checked
          exact ⟨eq_of_beq word, wf⟩
        next => cases h
      next => cases h
    next => cases h

/-- The eight bytes of a word, put together again, are the word (R6). -/
theorem decodeBytes_wordBytes (w : W64) (rest : List Byte) : decodeBytes (wordBytes w ++ rest) = some (decode w) := by
  have joined : w.extractLsb' 56 8 ++ w.extractLsb' 48 8 ++ w.extractLsb' 40 8 ++ w.extractLsb' 32 8 ++ w.extractLsb' 24 8 ++
      w.extractLsb' 16 8 ++ w.extractLsb' 8 8 ++ w.extractLsb' 0 8 = w := by
    repeat rw [BitVec.extractLsb'_append_extractLsb'_eq_extractLsb' (by rfl)]
    exact bits_all w
  exact congrArg (fun x => some (decode x)) joined

/-- Settles O55: the round trip of each instruction, its word's bytes put together again, and the last check of the decoder, which is
that the word is the instruction's. -/
theorem decodeEncode : Obligations.DecodeEncode := by
  constructor
  case left =>
    intro i word wf
    have decoded := Laws.RoundTrip.all i word wf
    exact ⟨decoded, fun rest => (decodeBytes_wordBytes _ rest).trans (congrArg some decoded)⟩
  case right => exact fun w i => encode_of_decode

end Sys2Proof
end

section
/-! SUPPORT. The integer formulas as two's-complement arithmetic (R44, R45, R92 to R95). -/

namespace Sys2Proof.Machine

/-- An integer modulo 2^w is the word that it makes (R45). -/
theorem wrap_eq_ofInt (w : Nat) (x : Int) : wrap w x = (BitVec.ofInt w x).toNat := by
  simp [wrap]

/-- The signed value of a word (R44). -/
theorem valueOf_signed {w : Nat} (a : BitVec w) : valueOf true w a.toNat = a.toInt := by
  simp [valueOf, toSigned, BitVec.toInt_eq_toNat_cond, Nat.mod_eq_of_lt a.isLt]

/-- The unsigned value of a word. -/
theorem valueOf_unsigned {w : Nat} (a : BitVec w) : valueOf false w a.toNat = (a.toNat : Int) := by
  simp [valueOf, Nat.mod_eq_of_lt a.isLt]

/-- Of either signedness, a word is made by its value. -/
theorem ofInt_valueOf {w : Nat} (sgn : Bool) (a : BitVec w) : BitVec.ofInt w (valueOf sgn w a.toNat) = a := by
  cases sgn
  case false => rw [valueOf_unsigned, BitVec.ofInt_natCast, BitVec.ofNat_toNat, BitVec.setWidth_eq]
  case true => rw [valueOf_signed, BitVec.ofInt_toInt]

/-- The digit above the lowest, to the base `n`. -/
theorem ediv_emod_eq_emod_mul_ediv (x : Int) {n : Int} (h : 0 < n) : x / n % n = x % (n * n) / n := by
  have split : x / n = x % (n * n) / n + n * (x / (n * n)) := by
    rw [← Int.add_mul_ediv_left _ _ h.ne', ← Int.mul_assoc, Int.emod_add_mul_ediv]
  have below : x % (n * n) / n < n := Int.ediv_lt_of_lt_mul h (Int.emod_lt_of_pos x (Int.mul_pos h h))
  have above : 0 ≤ x % (n * n) / n := Int.ediv_nonneg (Int.emod_nonneg x (Int.mul_pos h h).ne') h.le
  rw [split, Int.add_mul_emod_self_left, Int.emod_eq_of_lt above below]

/-- The high half of a product of words is that of the product at twice the width (R94). -/
theorem wrap_high_product {w : Nat} (a b : BitVec w) : wrap w (a.toInt * b.toInt / Int.ofNat (2 ^ w)) =
    ((a.signExtend (2 * w) * b.signExtend (2 * w)) >>> w).toNat % 2 ^ w := by
  have extended (x : BitVec w) : x.signExtend (2 * w) = BitVec.ofInt (2 * w) x.toInt :=
    rfl
  have square : ((2 ^ (2 * w) : Nat) : Int) = Int.ofNat (2 ^ w) * Int.ofNat (2 ^ w) := by
    rw [two_mul, pow_add]; rfl
  have positive : (0 : Int) < Int.ofNat (2 ^ w) := by simp
  rw [extended, extended, ← BitVec.ofInt_mul, BitVec.toNat_ushiftRight, BitVec.toNat_ofInt, square, wrap,
    ediv_emod_eq_emod_mul_ediv _ positive]
  have below := Int.emod_lt_of_pos (a.toInt * b.toInt) (Int.mul_pos positive positive)
  obtain ⟨r, rest⟩ := Int.eq_ofNat_of_zero_le (Int.emod_nonneg (a.toInt * b.toInt) (Int.mul_pos positive positive).ne')
  rw [rest] at below ⊢
  have small : r / 2 ^ w < 2 ^ w := Nat.div_lt_of_lt_mul (Int.ofNat_lt.mp below)
  rw [Int.toNat_natCast, Nat.shiftRight_eq_div_pow, Nat.mod_eq_of_lt small]
  rfl

/-- Settles O57: a word is what its value makes, whichever the signedness, and the making of words respects the operations. -/
theorem integerArithmetic : Obligations.IntegerArithmetic := by
  intro w width a b v
  have signed (x : BitVec w) : v true x = x.toInt := valueOf_signed x
  have unsigned (x : BitVec w) : v false x = x.toNat := valueOf_unsigned x
  have made (sg : Bool) (x : BitVec w) : BitVec.ofInt w (v sg x) = x := ofInt_valueOf sg x
  refine ⟨fun sg => ⟨?sum, ?difference, ?product, ?negative⟩, ?slt, ?ult, ?high, fun nonzero => ⟨?sdiv, ?udiv⟩⟩
  case sum => rw [wrap_eq_ofInt, BitVec.ofInt_add, made, made]
  case difference => rw [wrap_eq_ofInt, Int.sub_eq_add_neg, BitVec.ofInt_add, BitVec.ofInt_neg, made, made, ← BitVec.sub_eq_add_neg]
  case product => rw [wrap_eq_ofInt, BitVec.ofInt_mul, made, made]
  case negative => rw [wrap_eq_ofInt, BitVec.ofInt_neg, made]
  case slt => rw [signed, signed, BitVec.slt_iff_toInt_lt]
  case ult => rw [unsigned, unsigned, BitVec.ult_iff_toNat_lt, Int.ofNat_lt]
  case high => rw [signed, signed, wrap_high_product]
  case sdiv =>
    have quotient : BitVec.ofInt w (a.toInt.tdiv b.toInt) = a.sdiv b :=
      BitVec.eq_of_toInt_eq (by rw [BitVec.toInt_ofInt, BitVec.toInt_sdiv])
    rw [signed, signed, wrap_eq_ofInt, quotient]
  case udiv =>
    rw [unsigned, unsigned, wrap, ← Int.ofNat_tdiv, BitVec.toNat_udiv]
    have small : a.toNat / b.toNat < 2 ^ w := Nat.lt_of_le_of_lt (Nat.div_le_self _ _) a.isLt
    exact congrArg Int.toNat (Int.emod_eq_of_lt (Int.natCast_nonneg _) (Int.ofNat_lt.mpr small))

end Sys2Proof.Machine
end

section
/-! SUPPORT. The rules of the state: what a team, a group, a thread and a register are after a change of one of them (R11, R12). -/

namespace Sys2Proof.Machine

/-! ### Registers of a thread and of a group -/

/-- An entry that is removed where its value is the default reads as written. -/
theorem amGetD_put_or_del {β : Type} {m : AMap β} {k q : Nat} {x d : β} [DecidableEq β] :
    amGetD (if x = d then amDel m k else amPut m k x) q d = if q = k then x else amGetD m q d := by
  by_cases zero : x = d <;> by_cases here : q = k <;>
    simp_all [amGetD, amGet_amPut, amGet_amDel_other]

theorem Thread.getV_setV (t : Thread) (r q : Nat) (x : W32) : (t.setV r x).getV q = if q = r then x else t.getV q :=
  amGetD_put_or_del

theorem Group.getS_setS (g : Group) (r q : Nat) (x : W64) : (g.setS r x).getS q = if q = r then x else g.getS q :=
  amGetD_put_or_del

/-- A run of v-registers written leaves the registers outside it (R12). -/
theorem Thread.getV_setRun_other {q : Nat} : ∀ {n : Nat} (t : Thread) {r : Nat} (x : Nat), q < r ∨ r + n ≤ q → (t.setRun r n x).getV q = t.getV q
  | 0, _, _, _, _ => rfl
  | n + 1, t, r, x, outside => by
    rw [Thread.setRun, Thread.getV_setRun_other _ _ (by omega), Thread.getV_setV, if_neg (by omega)]

section
variable (t : Thread) (r n x : Nat) (y : W32) (f : Fl) (b : Bool)

/-- A thread in which nothing but v-registers has changed. -/
def Thread.sameButV (t u : Thread) : Prop := ∃ v, u = { t with v := v }

/-- A thread in which nothing but predicates and flags has changed. -/
def Thread.sameButPreds (t u : Thread) : Prop := ∃ p fl, u = { t with p := p, fpflags := fl }

theorem Thread.setV_sameButV : t.sameButV (t.setV r y) := ⟨_, rfl⟩

theorem Thread.setRun_sameButV : t.sameButV (t.setRun r n x) := by
  induction n generalizing t r x with
  | zero => exact ⟨t.v, rfl⟩
  | succ n ih =>
    obtain ⟨v, same⟩ := ih (t.setV r (BitVec.ofNat 32 x)) (r + 1) (x / 2 ^ 32)
    exact ⟨v, same⟩

theorem Thread.setP_sameButPreds : t.sameButPreds (t.setP r b) := by
  unfold Thread.setP
  split
  · exact ⟨_, _, rfl⟩
  · exact ⟨_, _, rfl⟩

theorem Thread.sideEffects_sameButPreds (o : AluOut) : t.sameButPreds (t.sideEffects o) := by
  have written (l : List (Nat × Bool)) : ∀ u : Thread, t.sameButPreds u → t.sameButPreds (l.foldl (fun y e => y.setP e.1 e.2) u) := by
    induction l with
    | nil => exact fun u same => same
    | cons e rest ih =>
      rintro _ ⟨p, fl, rfl⟩
      obtain ⟨p1, fl1, same⟩ := Thread.setP_sameButPreds { t with p := p, fpflags := fl } e.1 e.2
      exact ih _ ⟨p1, fl1, same⟩
  obtain ⟨p, fl, same⟩ := written o.p t ⟨_, _, rfl⟩
  exact ⟨p, fl ||| o.fl, by rw [Thread.sideEffects, same]; rfl⟩

end

/-! ### Teams, groups and lanes -/

theorem State.team?_modTeam (s : State) (n k : Nat) (f : Team → Team) :
    (s.modTeam n f).team? k = if k = n then (s.team? k).map f else s.team? k :=
  amGet_amMod s.teams n k f

theorem State.team?_putTeam (s : State) (n k : Nat) (x : Team) : (s.putTeam n x).team? k = if k = n then some x else s.team? k :=
  amGet_amPut s.teams n k x

theorem State.team?_modGroup (s : State) (g : GRef) (f : Group → Group) (k : Nat) : (s.modGroup g f).team? k =
    if k = g.team then (s.team? k).map fun t => { t with groups := modNth t.groups g.ix f } else s.team? k :=
  State.team?_modTeam ..

/-- A group changed is the group as it was, changed. -/
theorem State.group?_modGroup (s : State) (g : GRef) (f : Group → Group) : (s.modGroup g f).group? g = (s.group? g).map f := by
  simp only [State.group?, State.team?_modGroup, if_true]
  cases s.team? g.team with
  | none => rfl
  | some t => simp [getElem?_modNth]

/-- No other group changes. -/
theorem State.group?_modGroup_other (s : State) {g h : GRef} (f : Group → Group) (other : h ≠ g) :
    (s.modGroup g f).group? h = s.group? h := by
  simp only [State.group?, State.team?_modGroup]
  split
  case isFalse => rfl
  case isTrue team =>
    cases s.team? h.team with
    | none => rfl
    | some t =>
      have ix : h.ix ≠ g.ix := fun same => other (by cases h; cases g; simp_all)
      simp [getElem?_modNth, ix]

/-- What no group holds stands when a group changes. -/
theorem State.team?_map_modGroup {β : Type} (s : State) (g : GRef) (f : Group → Group) (n : Nat) (part : Team → β)
    (apart : ∀ t gs, part { t with groups := gs } = part t) : ((s.modGroup g f).team? n).map part = (s.team? n).map part := by
  rw [State.team?_modGroup]
  split
  case isFalse => rfl
  case isTrue => cases s.team? n <;> simp [apart]

theorem State.lane?_modGroup (s : State) (g : GRef) (f : Group → Group) (l : Nat) :
    (s.modGroup g f).lane? g l = (s.group? g).bind fun x => (f x).lane? l := by
  rw [State.lane?, State.group?_modGroup, Option.bind_map]
  rfl

theorem Group.lane?_modLanes (g : Group) (ls : List Nat) (f : Nat → Thread → Thread) (l : Nat) :
    (g.modLanes ls f).lane? l = (g.lane? l).map fun t => if ls.contains l then f l t else t := by
  simp [Group.lane?, Group.modLanes]

theorem Group.lane?_modLane (g : Group) (k : Nat) (f : Thread → Thread) (l : Nat) :
    (g.modLane k f).lane? l = if l = k then (g.lane? l).map f else g.lane? l :=
  getElem?_modNth ..

theorem State.lane?_modLane (s : State) (g : GRef) (l : Nat) (f : Thread → Thread) : (s.modLane g l f).lane? g l = (s.lane? g l).map f := by
  rw [State.modLane, State.lane?_modGroup, State.lane?]
  cases s.group? g <;> simp [Group.lane?_modLane]

section
variable (s : State) (g : GRef) (n : Nat) (f : Group → Group) (ft : Team → Team) (x : Team)

@[simp] theorem State.modTeam_mem : (s.modTeam n ft).mem = s.mem := rfl
@[simp] theorem State.modGroup_mem : (s.modGroup g f).mem = s.mem := rfl
@[simp] theorem State.modGroup_pend : (s.modGroup g f).pend = s.pend := rfl
@[simp] theorem State.modGroup_sys : (s.modGroup g f).sys = s.sys := rfl

end

/-- A lane of a group after a word. -/
theorem afterGroup_lane? (w : Wd) (f : Nat → Thread → Thread) (gr : Group) (l : Nat) : (afterGroup w f gr).lane? l =
    (gr.lane? l).map fun t =>
      let u := if w.acting.contains l then f l t else t
      if w.active.contains l then stepped w u else u := by
  simp [Group.lane?, afterGroup]

end Sys2Proof.Machine
end

section
/-! SUPPORT. The frame of the compute words (R13, R92, R155, R156). -/

namespace Sys2Proof.Machine

/-- What a compute word does to its group. -/
def computedGroup (fm : AluForm) (op : AluIn → AluOut) (w : Wd) (gr : Group) : Group :=
  if fm.x then afterGroup w (fun _ t => t.sideEffects (op (fm.input w.gr (leader w)))) (fm.d.writeS (op (fm.input w.gr (leader w))).d gr)
  else afterGroup w (fun _ t => computeLane fm op w t) gr

/-- A compute word changes its group alone. -/
theorem computed_eq_modGroup (fm : AluForm) (op : AluIn → AluOut) (w : Wd) :
    computed fm op w = w.s.modGroup w.g (computedGroup fm op w) := by
  unfold computed
  split
  case isTrue x => exact congrArg (w.s.modGroup w.g) (funext fun gr => (if_pos x).symm)
  case isFalse x => exact congrArg (w.s.modGroup w.g) (funext fun gr => (if_neg x).symm)

/-- The s-registers and threads of a group aside, it is as it was. -/
def Group.sameButRegs (g h : Group) : Prop := ∃ s lanes, h = { g with s := s, lanes := lanes }

theorem Dst.writeS_sameButRegs (d : Dst) (n : Nat) (g : Group) : g.sameButRegs (d.writeS n g) := by
  cases d <;> exact ⟨_, _, rfl⟩

theorem Dst.writeS_lane? (d : Dst) (n l : Nat) (g : Group) : (d.writeS n g).lane? l = g.lane? l := by
  cases d <;> rfl

theorem computedGroup_sameButRegs (fm : AluForm) (op : AluIn → AluOut) (w : Wd) (gr : Group) :
    gr.sameButRegs (computedGroup fm op w gr) := by
  unfold computedGroup
  split
  · obtain ⟨s, lanes, same⟩ := Dst.writeS_sameButRegs fm.d (op (fm.input w.gr (leader w))).d gr
    rw [same]
    exact ⟨_, _, rfl⟩
  · exact ⟨_, _, rfl⟩

/-- The s-registers after a compute word: the destination's, if it is one, is written. -/
theorem computedGroup_s (fm : AluForm) (op : AluIn → AluOut) (w : Wd) (gr : Group) : (computedGroup fm op w gr).s =
    if fm.x then (fm.d.writeS (op (fm.input w.gr (leader w))).d gr).s else gr.s := by
  unfold computedGroup
  split <;> rfl

/-- A lane's result and side effects are all that a compute word does in it. -/
def computedLane (fm : AluForm) (op : AluIn → AluOut) (w : Wd) (t : Thread) : Thread :=
  if fm.x then t.sideEffects (op (fm.input w.gr (leader w))) else computeLane fm op w t

theorem computedGroup_lane? (fm : AluForm) (op : AluIn → AluOut) (w : Wd) (gr : Group) (l : Nat) : (computedGroup fm op w gr).lane? l =
    (gr.lane? l).map fun t =>
      let u := if w.acting.contains l then computedLane fm op w t else t
      if w.active.contains l then stepped w u else u := by
  unfold computedGroup
  split
  · rename_i x
    simp [afterGroup_lane?, Dst.writeS_lane?, computedLane, x]
  · rename_i x
    simp [afterGroup_lane?, computedLane, x]

theorem Dst.writeV_sameButV (d : Dst) (n : Nat) (t : Thread) : t.sameButV (d.writeV n t) := by
  cases d with
  | v r w sgn => exact Thread.setRun_sameButV ..
  | none => exact ⟨t.v, rfl⟩
  | s r w sgn => exact ⟨t.v, rfl⟩

/-- A compute word in a lane changes v-registers, predicates and flags only, and the v-registers as its destination says. -/
theorem computedLane_same (fm : AluForm) (op : AluIn → AluOut) (w : Wd) (t : Thread) : ∃ o p fl,
    computedLane fm op w t = { t with v := (if fm.x then t else fm.d.writeV o t).v, p := p, fpflags := fl } := by
  unfold computedLane
  split
  · obtain ⟨p, fl, same⟩ := Thread.sideEffects_sameButPreds t (op (fm.input w.gr (leader w)))
    exact ⟨0, p, fl, same⟩
  · obtain ⟨v, wrote⟩ := Dst.writeV_sameButV fm.d (op (fm.input w.gr t)).d t
    obtain ⟨p, fl, same⟩ := Thread.sideEffects_sameButPreds (fm.d.writeV (op (fm.input w.gr t)).d t) (op (fm.input w.gr t))
    refine ⟨(op (fm.input w.gr t)).d, p, fl, ?_⟩
    rw [computeLane, same, wrote]

/-- A destination that is a run of v-registers leaves the others. -/
theorem Dst.getV_writeV_other {d wd n r : Nat} {sgn : Bool} (t : Thread) (outside : r < d ∨ d + (wd + 31) / 32 ≤ r) :
    ((Dst.v d wd sgn).writeV n t).getV r = t.getV r :=
  Thread.getV_setRun_other t _ outside

/-- Settles O56: a compute word changes its group alone, there the destination and the threads, and in each thread the PC, the run of its
destination, predicates and flags. -/
theorem computeFrame : Obligations.ComputeFrame := by
  intro fm op w u
  have only : u = w.s.modGroup w.g (computedGroup fm op w) := computed_eq_modGroup fm op w
  rw [only]
  refine ⟨rfl, rfl, rfl, fun h other => State.group?_modGroup_other _ _ other,
    fun n => State.team?_map_modGroup _ _ _ n Team.scratch fun _ _ => rfl, fun gr group => ?_⟩
  obtain ⟨regs, lanes, same⟩ := computedGroup_sameButRegs fm op w gr
  refine ⟨computedGroup fm op w gr, by rw [State.group?_modGroup, group]; rfl, ?ctl, ?cpy, ?mtx, ?net, ?rem, ?shape, ?perLane, ?scalar,
    fun l t lane => ?threads⟩
  case ctl | cpy | mtx | net | rem | shape => rw [same]
  case perLane => exact fun x => by rw [computedGroup_s, x]; rfl
  case scalar =>
    intro d wd n form r other
    rw [Group.getS, computedGroup_s, form]
    split
    · exact (Group.getS_setS gr d r _).trans (if_neg other)
    · rfl
  case threads =>
    obtain ⟨o, p, fl, wrote⟩ := computedLane_same fm op w t
    refine ⟨_, by rw [computedGroup_lane?, lane]; rfl, ?_⟩
    have advanced (x : Thread) : (if w.active.contains l then stepped w x else x) =
        { x with pc := if w.active.contains l then w.pc + 8 else x.pc } := by
      split <;> rfl
    dsimp only
    rw [advanced]
    by_cases acts : w.acting.contains l = true
    · rw [if_pos acts, wrote]
      refine ⟨rfl, rfl, rfl, rfl, rfl, fun idle => absurd (acts.symm.trans idle) (by decide), ?unwritten, ?run⟩
      case unwritten => rintro (x | none) <;> simp [*, Dst.writeV]
      case run =>
        intro d wd n form r outside
        show (if fm.x then t else fm.d.writeV o t).getV r = t.getV r
        rw [form]
        split
        · rfl
        · exact Dst.getV_writeV_other t outside
    · rw [if_neg acts]
      exact ⟨rfl, rfl, rfl, rfl, rfl, fun _ => ⟨rfl, rfl, rfl⟩, fun _ => rfl, fun _ _ _ _ _ _ => rfl⟩

end Sys2Proof.Machine
end

section
/-! SUPPORT. Bytes as numbers (R6), and the round trip of compression (R435). -/

namespace Sys2Proof.Machine

/-! ### Bytes and numbers -/

@[simp] theorem length_toBytes (k n : Nat) : (toBytes k n).length = k := by
  induction k generalizing n with
  | zero => rfl
  | succ k ih => rw [toBytes, List.length_cons, ih]

theorem ofBytes_toBytes (k n : Nat) : ofBytes (toBytes k n) = n % 256 ^ k := by
  induction k generalizing n with
  | zero => rw [toBytes, ofBytes, Nat.pow_zero, Nat.mod_one]
  | succ k ih => rw [toBytes, ofBytes, ih, BitVec.toNat_ofNat, Nat.pow_succ' (n := k), Nat.mod_mul]

theorem ofBytes_lt (bs : List Byte) : ofBytes bs < 256 ^ bs.length := by
  induction bs with
  | nil => exact Nat.one_pos
  | cons b rest ih =>
    have low := b.isLt
    rw [ofBytes, List.length_cons, Nat.pow_succ']
    omega

theorem toBytes_ofBytes (bs : List Byte) : toBytes bs.length (ofBytes bs) = bs := by
  induction bs with
  | nil => rfl
  | cons b rest ih =>
    have low := b.isLt
    have first : BitVec.ofNat 8 (b.toNat + 256 * ofBytes rest) = b :=
      BitVec.eq_of_toNat_eq (by rw [BitVec.toNat_ofNat]; omega)
    have others : (b.toNat + 256 * ofBytes rest) / 256 = ofBytes rest := by omega
    rw [List.length_cons, ofBytes, toBytes, first, others, ih]

theorem packElems_lt (w : Nat) (xs : List Nat) : packElems w xs < 2 ^ (w * xs.length) := by
  induction xs with
  | nil => exact Nat.two_pow_pos _
  | cons x rest ih =>
    have low := Nat.mod_lt x (Nat.two_pow_pos w)
    have carried := Nat.mul_le_mul_left (2 ^ w) (Nat.succ_le_of_lt ih)
    rw [packElems, List.length_cons, Nat.mul_add, Nat.mul_one, Nat.add_comm (w * _), Nat.pow_add]
    rw [Nat.mul_succ] at carried
    omega

/-! ### One block -/

/-- The words of a block spell it. -/
theorem blockWords_bytes {bs : List Byte} (block : bs.length = 256) : (blockWords bs).flatMap (toBytes 8) = bs := by
  have prefixes (n : Nat) : 8 * n ≤ bs.length →
      ((List.range n).map fun i => ofBytes ((bs.drop (8 * i)).take 8)).flatMap (toBytes 8) = bs.take (8 * n) := by
    induction n with
    | zero => exact fun _ => rfl
    | succ n ih =>
      intro fits
      have whole : ((bs.drop (8 * n)).take 8).length = 8 := by simp; omega
      have spelled := toBytes_ofBytes ((bs.drop (8 * n)).take 8)
      rw [whole] at spelled
      rw [List.range_succ, List.map_append, List.flatMap_append, ih (by omega), List.map_singleton, List.flatMap_singleton, spelled,
        Nat.mul_succ, List.take_add]
  rw [blockWords, prefixes 32 (by omega), List.take_of_length_le (by omega)]

theorem blockWords_lt (bs : List Byte) : ∀ w ∈ blockWords bs, w < 256 ^ 8 := by
  intro w mem
  obtain ⟨i, -, rfl⟩ := List.mem_map.mp mem
  exact (ofBytes_lt _).trans_le (Nat.pow_le_pow_right (by decide) (by simp))

@[simp] theorem length_wordCodes (ws : List Nat) (p q : Option Nat) : (wordCodes ws p q).length = ws.length := by
  induction ws generalizing p q with
  | nil => rfl
  | cons w rest ih => rw [wordCodes, List.length_cons, List.length_cons, ih]

theorem wordCode_lt (w : Nat) (p q : Option Nat) : wordCode w p q < 4 := by
  unfold wordCode
  split_ifs <;> decide

/-- The bytes of the words whose code is 0. -/
def literalBytes (ws cs : List Nat) : List Byte := ((List.zip ws cs).filter fun x => x.2 == 0).flatMap fun x => toBytes 8 x.1

/-- The words of a coded block are read back, and what follows it is left. -/
theorem readWords_wordCodes (rest : List Byte) : ∀ (ws : List Nat) (p q : Option Nat), (∀ w ∈ ws, w < 256 ^ 8) →
    readWords ws.length (packElems 2 (wordCodes ws p q)) p q (literalBytes ws (wordCodes ws p q) ++ rest) = some (ws, rest)
  | [], _, _, _ => rfl
  | w :: ws, p, q, small => by
    obtain ⟨wSmall, wsSmall⟩ := List.forall_mem_cons.mp small
    have following := readWords_wordCodes rest ws (some w) p wsSmall
    have code := wordCode_lt w p q
    have low : packElems 2 (wordCodes (w :: ws) p q) % 4 = wordCode w p q := by rw [wordCodes, packElems]; omega
    have high : packElems 2 (wordCodes (w :: ws) p q) / 4 = packElems 2 (wordCodes ws (some w) p) := by rw [wordCodes, packElems]; omega
    have bytes : literalBytes (w :: ws) (wordCodes (w :: ws) p q) =
        (if wordCode w p q = 0 then toBytes 8 w else []) ++ literalBytes ws (wordCodes ws (some w) p) := by
      rw [literalBytes, wordCodes, List.zip_cons_cons, List.filter_cons]
      by_cases literal : wordCode w p q = 0 <;> simp [literal, literalBytes]
    rw [List.length_cons, readWords, low, high, bytes]
    by_cases zero : w = 0
    · subst zero
      simp [wordCode, following]
    by_cases before : p = some w
    · subst before
      simp [wordCode, zero, following]
    by_cases earlier : q = some w
    · subst earlier
      simp [wordCode, zero, before, following]
    have spelled : ofBytes (toBytes 8 w) = w := (ofBytes_toBytes 8 w).trans (Nat.mod_eq_of_lt wSmall)
    have literal : wordCode w p q = 0 := by simp [wordCode, zero, before, earlier]
    simp [literal, List.take_left', List.drop_left', spelled, following]

/-- A block as it is sent is read back, and what follows it is left. -/
theorem readBlock_sendBlock {bs : List Byte} (block : bs.length = 256) (rest : List Byte) :
    readBlock (sendBlock bs ++ rest) = some (bs, rest) := by
  unfold sendBlock
  split
  case isTrue =>
    have count : (blockWords bs).length = 32 := by simp [blockWords]
    have read := readWords_wordCodes rest (blockWords bs) none none (blockWords_lt bs)
    have map : ofBytes (toBytes 8 (packElems 2 (wordCodes (blockWords bs) none none))) = packElems 2 (wordCodes (blockWords bs) none none) := by
      have small := packElems_lt 2 (wordCodes (blockWords bs) none none)
      rw [length_wordCodes, count] at small
      rw [ofBytes_toBytes, Nat.mod_eq_of_lt (by simpa using small)]
    rw [count] at read
    have coded : codedBlock bs ++ rest = 1#8 :: (toBytes 8 (packElems 2 (wordCodes (blockWords bs) none none)) ++
        (literalBytes (blockWords bs) (wordCodes (blockWords bs) none none) ++ rest)) := by
      simp [codedBlock, literalBytes]
    rw [coded]
    simp [readBlock, List.take_left', List.drop_left', map, read, blockWords_bytes block]
  case isFalse => simp [readBlock, block]

/-- A block is sent as at most 257 bytes: more than 30 literals go uncoded. -/
theorem length_sendBlock_le {bs : List Byte} (block : bs.length = 256) : (sendBlock bs).length ≤ 257 := by
  unfold sendBlock
  split
  case isTrue few =>
    have words (ws cs : List Nat) : (literalBytes ws cs).length ≤ 8 * (cs.filter fun c => c == 0).length := by
      induction ws generalizing cs with
      | nil => exact Nat.zero_le _
      | cons w ws ih =>
        cases cs with
        | nil => exact Nat.zero_le _
        | cons c cs =>
          have others := ih cs
          simp only [literalBytes] at others ⊢
          by_cases literal : c = 0
          · simp only [List.zip_cons_cons, List.filter_cons, literal, beq_self_eq_true, if_true, List.flatMap_cons, List.length_append,
              length_toBytes, List.length_cons]
            omega
          · simpa [literal] using others
    have bound := words (blockWords bs) (wordCodes (blockWords bs) none none)
    have length : (codedBlock bs).length = 9 + (literalBytes (blockWords bs) (wordCodes (blockWords bs) none none)).length := by
      simp only [codedBlock, literalBytes, List.length_cons, List.length_append, List.cons_append, length_toBytes]
      omega
    rw [literals] at few
    omega
  case isFalse => simp [block]

/-! ### A message -/

theorem readBlocks_sendBlocks (tail : Nat) : ∀ (n : Nat) (bs : List Byte), bs.length = 256 * n + tail →
    readBlocks n tail (sendBlocks n bs) = some bs
  | 0, bs, length => by simp_all [readBlocks, sendBlocks]
  | n + 1, bs, length => by
    have first : (bs.take 256).length = 256 := by simp; omega
    have others := readBlocks_sendBlocks tail n (bs.drop 256) (by simp; omega)
    rw [sendBlocks, readBlocks, readBlock_sendBlock first, Option.bind_some, others, Option.map_some, List.take_append_drop]

/-- Settles O58: block by block, the words of a coded block being read back from their codes. -/
theorem compression : Obligations.Compression :=
  ⟨fun bs => readBlocks_sendBlocks _ _ bs (Nat.div_add_mod bs.length 256).symm, fun _ block => length_sendBlock_le block⟩

end Sys2Proof.Machine
end

section
/-! SUPPORT. Interleaving and the order of the checks of a translation (R252, R253, R261, R263 to R265, R457); the words of the worked
cases (R31). -/

namespace Sys2Proof.Machine

section
variable {col chan pch bank row : Nat} (hcol : col < 2 ^ 11) (hchan : chan < 2 ^ 6) (hpch : pch < 2) (hbank : bank < 2 ^ 4) (hrow : row < 2 ^ 15)
include hcol hchan hpch hbank hrow

/-- The fields of a die-local address that is put together from them (R261). -/
theorem fields_of_packed : let p := col + chan * 2 ^ 11 + pch * 2 ^ 17 + bank * 2 ^ 18 + row * 2 ^ 22
    p < 2 ^ 37 ∧ field p 0 11 = col ∧ field p 11 6 = chan ∧ field p 17 1 = pch ∧ field p 18 4 = bank ∧ field p 22 15 = row := by
  simp only [field]
  omega

end

theorem field_lt (n lo len : Nat) : field n lo len < 2 ^ len := Nat.mod_lt _ (Nat.two_pow_pos len)

/-- Schemes 0 to 3 keep the low `g` bits in place and take the channel from above them. -/
theorem interleave_low {k : Nat} (low : k < 4) (f : Nat) (frame : f < 2 ^ 37) :
    interleave k f < 2 ^ 37 ∧ deinterleave k (interleave k f) = f := by
  have column : field f 0 (8 + k % 4) + field f (8 + k % 4 + 6) (11 - (8 + k % 4)) * 2 ^ (8 + k % 4) < 2 ^ 11 := by
    interval_cases k <;> simp only [field, Nat.reduceMod, Nat.reduceAdd, Nat.reduceSub, Nat.reducePow] <;> omega
  obtain ⟨below, hcol, hchan, hpch, hbank, hrow⟩ := fields_of_packed column (field_lt f (8 + k % 4) 6) (field_lt f 17 1) (field_lt f 18 4)
    (field_lt f 22 15)
  interval_cases k <;> refine ⟨below, ?_⟩ <;> simp only [interleave, deinterleave, hcol, hchan, hpch, hbank, hrow] <;>
    simp only [field, Nat.reduceMod, Nat.reduceAdd, Nat.reduceSub, Nat.reducePow] <;> omega

/-- Schemes 4 to 7 move whole fields. -/
theorem interleave_high {k : Nat} (high : 4 ≤ k) (scheme : k < 8) (f : Nat) (frame : f < 2 ^ 37) :
    interleave k f < 2 ^ 37 ∧ deinterleave k (interleave k f) = f := by
  have channel : field f 36 1 * 32 + field f 11 5 < 2 ^ 6 := by simp only [field]; omega
  have channel' : field f 36 1 * 32 + field f 12 5 < 2 ^ 6 := by simp only [field]; omega
  have four := fields_of_packed (field_lt f 0 11) channel (field_lt f 16 1) (field_lt f 17 4) (field_lt f 21 15)
  have five := fields_of_packed (field_lt f 0 11) channel' (field_lt f 11 1) (field_lt f 17 4) (field_lt f 21 15)
  have six := fields_of_packed (field_lt f 0 11) (field_lt f 31 6) (field_lt f 11 1) (field_lt f 12 4) (field_lt f 16 15)
  have seven := fields_of_packed (field_lt f 0 11) (field_lt f 31 6) (field_lt f 30 1) (field_lt f 26 4) (field_lt f 11 15)
  interval_cases k
  · obtain ⟨below, hcol, hchan, hpch, hbank, hrow⟩ := four
    exact ⟨below, by simp only [interleave, deinterleave, hcol, hchan, hpch, hbank, hrow]; simp only [field]; omega⟩
  · obtain ⟨below, hcol, hchan, hpch, hbank, hrow⟩ := five
    exact ⟨below, by simp only [interleave, deinterleave, hcol, hchan, hpch, hbank, hrow]; simp only [field]; omega⟩
  · obtain ⟨below, hcol, hchan, hpch, hbank, hrow⟩ := six
    exact ⟨below, by simp only [interleave, deinterleave, hcol, hchan, hpch, hbank, hrow]; simp only [field]; omega⟩
  · obtain ⟨below, hcol, hchan, hpch, hbank, hrow⟩ := seven
    exact ⟨below, by simp only [interleave, deinterleave, hcol, hchan, hpch, hbank, hrow]; simp only [field]; omega⟩

/-- Counting an answer does not change it (R460). -/
theorem countGone_fst (core : Nat) (r : XOut × State) : (countGone core r).1 = r.1 := by
  unfold countGone
  split
  · split <;> rfl
  · rfl

/-- The outcome of a translation of homes 0 to 9 is that of the device's own checks (R263). -/
theorem xlate_local {s : State} {core asid va : Nat} {priv : Bool} {n : AccessNeed} (home : va / 2 ^ 60 ≤ 9) :
    (xlate s core asid priv n va).1 = (xlateLocal s core asid priv n va).1 := by
  rw [xlate, countGone_fst, if_neg (by omega), if_neg (by omega)]

section
variable {s : State} {core asid va : Nat} {priv : Bool} {n : AccessNeed}

theorem xlateLocal_down (home : va / 2 ^ 60 ≤ 7) (down : s.dieUp (va / 2 ^ 60) = false) :
    (xlateLocal s core asid priv n va).1 = .fault ⟨0x19, 0⟩ := by
  simp only [xlateLocal]
  rw [if_pos (by rw [decide_eq_true home, down]; rfl)]
  rfl

variable (up : va / 2 ^ 60 ≤ 7 → s.dieUp (va / 2 ^ 60) = true)

/-- The answer once a leaf is found: privilege, the page's rights, the master's rights, residency (R263 to R265, R457). -/
def leafAnswer (s : State) (core asid va : Nat) (priv : Bool) (n : AccessNeed) (l : Leaf) : XOut :=
  if pteP l.e && !priv then .fault ⟨cPRIV_DENIED, 0⟩
  else match missingRight n (va / 2 ^ 60) l.e with
    | some c => .fault ⟨c, 0⟩
    | none =>
      let tgt := if pteRes l.e then targetOf (leafKey l (va / 2 ^ 60) va) else some (if pteFrame l.e < 2 ^ 25 then 128 else 129)
      match tgt.bind fun t => missingAccess s n t (if core = cmdCore then 0x1110 else asid) with
      | some c => .fault ⟨c, 0x40⟩
      | none => if pteRes l.e then .ok (leafKey l (va / 2 ^ 60) va) l.e else .absent

include up

/-- A home in service is not turned down for its die. -/
theorem serves : (decide (va / 2 ^ 60 ≤ 7) && !s.dieUp (va / 2 ^ 60)) = false := by
  by_cases home : va / 2 ^ 60 ≤ 7
  · rw [up home, Bool.not_true, Bool.and_false]
  · rw [decide_eq_false home, Bool.false_and]

theorem xlateLocal_error {c : Cause} (missing : (findLeaf s core asid (va / 2 ^ 60) va).1 = .error c) :
    (xlateLocal s core asid priv n va).1 = .fault c := by
  simp only [xlateLocal, serves up, missing, Bool.false_eq_true, if_false]

theorem xlateLocal_leaf {l : Leaf} (found : (findLeaf s core asid (va / 2 ^ 60) va).1 = .ok l) :
    (xlateLocal s core asid priv n va).1 = leafAnswer s core asid va priv n l := by
  simp only [xlateLocal, serves up, found, leafAnswer, Bool.false_eq_true, if_false]
  split
  · rfl
  cases missingRight n (va / 2 ^ 60) l.e with
  | some c => rfl
  | none =>
    dsimp only
    cases ((if pteRes l.e then targetOf (leafKey l (va / 2 ^ 60) va) else some (if pteFrame l.e < 2 ^ 25 then 128 else 129)).bind
      fun t => missingAccess s n t (if core = cmdCore then 0x1110 else asid)) with
    | some c => rfl
    | none => cases pteRes l.e <;> rfl

end

/-- Settles O59: scheme by scheme, and then the checks of a translation in their order. -/
theorem translation : Obligations.Translation := by
  constructor
  case left =>
    intro sch f scheme frame
    rcases Nat.lt_or_ge sch 4 with low | high
    · exact interleave_low low f frame
    · exact interleave_high high scheme f frame
  case right =>
    intro s core asid va priv n home out
    refine ⟨?badHome, ?fetch, ?down, fun within up => ⟨?untranslated, fun l found => ?leaf⟩⟩
    case badHome => exact fun beyond => by rw [show out = _ from countGone_fst .., if_pos beyond]; rfl
    case fetch => exact fun peer fetch => by rw [show out = _ from countGone_fst .., if_neg (by omega), if_pos peer, if_pos fetch]; rfl
    case down => exact fun die down => (xlate_local (by omega)).trans (xlateLocal_down die down)
    case untranslated => exact fun c missing => (xlate_local within).trans (xlateLocal_error up missing)
    case leaf =>
      have answer : out = leafAnswer s core asid va priv n l := (xlate_local within).trans (xlateLocal_leaf up found)
      intro key
      rw [answer, leafAnswer]
      refine ⟨fun page user => by simp [page, user, cPRIV_DENIED], fun allowed => ?rights⟩
      rw [if_neg (by cases page : pteP l.e <;> simp_all)]
      refine ⟨fun c missing => by rw [missing], fun rights => ?master⟩
      rw [rights]
      refine ⟨fun resident served => ?ok, fun resident t c target refused => ?denied, fun absent served => ?absent⟩
      case ok =>
        have open_ : ((targetOf (leafKey l (va / 2 ^ 60) va)).bind fun t => missingAccess s n t (if core = cmdCore then 0x1110 else asid)) = none :=
          Option.bind_eq_none_iff.mpr served
        simp only [resident, if_true, open_]
        rfl
      case denied =>
        have target' : targetOf (leafKey l (va / 2 ^ 60) va) = some t := target
        simp only [resident, if_true, target', Option.bind_some, refused]
      case absent => simp only [absent, Bool.false_eq_true, if_false, Option.bind_some, served]

/-- Settles O60: the decoder run on each word. -/
theorem decodesWords : Obligations.DecodesWords := by
  unfold Obligations.DecodesWords
  decide +kernel

end Sys2Proof.Machine
end

section
/-! SUPPORT. What the issue of a word comes to, and what it leaves (R27, R31, R154, R304, R305, R314). -/

namespace Sys2Proof.Machine

/-- A word's meaning is a body that runs once the word has issued. -/
theorem exec_eq_runWord {i : Instr} (word : i.isWord = true) : ∃ body, exec i = runWord i body := by
  cases i
  all_goals try exact absurd word Bool.false_ne_true
  all_goals exact ⟨_, rfl⟩

/-- What `prepare` answers without running the body, the word answers. -/
theorem exec_of_stop {i : Instr} {s : State} {o : Host.Outcome State Fault Refusal} (word : i.isWord = true)
    (stops : prepare i s = .stop o) : exec i s = o := by
  obtain ⟨body, meaning⟩ := exec_eq_runWord word
  rw [meaning, runWord, stops]

/-! ### What issues, and what traps at the issue -/

section
variable {i : Instr} {s : State} {c : Issue} {t : Team} {gr : Group} (cur : s.cur = some c) (team : s.team? c.g.team = some t)
  (group : s.group? c.g = some gr) (free : stalls s c.g i = false)
  (plain : ∀ l ∈ lanesOf c.lanes, ∀ u, gr.lane? l = some u → u.tx = none)

/-- Settles O51: the statement's conditions are those of a ready word. -/
theorem issueConditions : Obligations.IssueConditions := by
  intro i s c t gr lanes holds acting issued team group free plain mode budget acts
  have ready : Ready i s c t gr := ⟨issued, team, group, free, plain, mode, budget, acts⟩
  exact ⟨ready, rfl, ready.issues⟩

include group plain

theorem lanes_plain_issued : ∀ l ∈ lanesOf c.lanes, ∀ u, (s.setCur none).lane? c.g l = some u → u.tx = none := by
  intro l mem u lane
  have look : (s.setCur none).lane? c.g l = (s.group? c.g).bind fun x => x.lane? l := rfl
  rw [look, group] at lane
  exact plain l mem u lane

/-- A trap of all the lanes that issue, none of them in a transaction, is the trap that the state takes (R394, R399). -/
theorem finish_issue_trap {cause : Nat} {u : State} (some_ : lanesOf c.lanes ≠ []) (real : cause ≠ 0)
    (takes : Takes (s.setCur none) c.g ⟨cause, 0, 0, false, c.pc, 0, maskOf (lanesOf c.lanes) ++ 0#32, 0, none⟩ u) :
    finish ⟨s.setCur none, s.setCur none, c.g, t, gr, lanesOf c.lanes, [], c.pc, c.defer⟩
      (.trap (s.setCur none) cause 0 0 (lanesOf c.lanes)) = u := by
  obtain ⟨l, mem⟩ := List.exists_mem_of_ne_nil _ some_
  rw [finish_trap _ _ _ _ _ _ real (.inr ⟨l, mem, inLogged_plain (lanes_plain_issued group plain l mem)⟩)]
  exact raiseTrap_takes takes

include cur team free

/-- A privileged word in user mode traps before its body runs (R16, R31). -/
theorem prepare_privileged {u : State} (some_ : lanesOf c.lanes ≠ []) (privileged : Instr.privileged i = true) (user : gr.ctl.priv = false)
    (takes : Takes (s.setCur none) c.g ⟨0x05, 0, 0, false, c.pc, 0, maskOf (lanesOf c.lanes) ++ 0#32, 0, none⟩ u) :
    prepare i s = .stop (.next u) := by
  have here : (s.setCur none).group? c.g = some gr := group
  have trap := finish_issue_trap (t := t) group plain some_ (by decide) takes
  simp only [prepare, cur, team, group, free, countIssue_plain (lanes_plain_issued group plain), here, some_, privileged, user, cPRIVILEGED_OP,
    trap, Bool.false_eq_true, if_false, Bool.not_false, Bool.and_self, if_true]

/-- A word beyond its group's budget traps before its body runs (R31). -/
theorem prepare_overBudget {u : State} (some_ : lanesOf c.lanes ≠ []) (mode : Instr.privileged i = true → gr.ctl.priv = true)
    (beyondIt : overBudget i gr.budget = true)
    (takes : Takes (s.setCur none) c.g ⟨0x06, 0, 0, false, c.pc, 0, maskOf (lanesOf c.lanes) ++ 0#32, 0, none⟩ u) :
    prepare i s = .stop (.next u) := by
  have here : (s.setCur none).group? c.g = some gr := group
  have trap := finish_issue_trap (t := t) group plain some_ (by decide) takes
  have allowed : (Instr.privileged i && !gr.ctl.priv) = false := by simpa using mode
  simp only [prepare, cur, team, group, free, countIssue_plain (lanes_plain_issued group plain), here, some_, allowed, beyondIt, cREG_BUDGET, trap,
    Bool.false_eq_true, if_false, if_true]

end

/-! ### The step of an issue -/

section
variable {s s0 s1 : State} {core pipe : Nat} {busy : List GRef} {d : Bool} {time : After} {g : GRef} {t : Team} {gr : Group} {pc : W64}
  {lanes : List Nat} {f : Fetched} (turn : nextTurn s = (.issue core pipe busy d time, s0)) (picked : pickIssue s0 core pipe busy = some g)
  (team : s0.team? g.team = some t) (group : s0.group? g = some gr) (free : canIssue s0 g = true)
  (chosen : chooseIssue s0 g t gr = some (pc, lanes)) (fetched : fetchWord s0 t.core gr.ctl.asid.toNat gr.ctl.priv pc = (f, s1))

/-- The state of an issue once the wait counts and the pipe are set (R154, R158). -/
def issuedState (s0 s1 : State) (g : GRef) (t : Team) (gr : Group) (lanes : List Nat) : State :=
  holdUntil (s1.modGroup g fun x => { x.countWaits (runnableLanes s0 g t gr) lanes with yielded := false }) g t.core (gr.slot / 16) s0.time.clk

/-- A trap of the fetch or the decoder in lanes outside transactions is the trap that the state takes. -/
theorem issueTrap_takes {s u : State} {cause sub : Nat} {addr : W64} (some_ : lanes ≠ [])
    (plain : ∀ l ∈ lanes, ∀ x, s.lane? g l = some x → x.tx = none) (real : cause ≠ 0)
    (takes : Takes s g ⟨cause, sub, 0, false, pc, addr, maskOf lanes ++ 0#32, 0, none⟩ u) : issueTrap s g t lanes pc cause sub addr = u := by
  obtain ⟨l, mem⟩ := List.exists_mem_of_ne_nil _ some_
  simp only [issueTrap, countIssue_plain plain, if_neg some_]
  rw [finish_trap _ _ _ _ _ _ real (.inr ⟨l, mem, inLogged_plain (plain l mem)⟩)]
  exact raiseTrap_takes takes

/-- What the issue of a group comes to, by what its fetch gives. -/
def issueOutcome (s0 s1 : State) (g : GRef) (t : Team) (gr : Group) (pc : W64) (lanes : List Nat) (d : Bool) : Fetched → IssueOut
  | .wait => .idle
  | .trap c sub a => .trapped (issueTrap (issuedState s0 s1 g t gr lanes) g t lanes pc c sub a)
  | .word w => match decode w with
    | .error e => .trapped (issueTrap (issuedState s0 s1 g t gr lanes) g t lanes pc (decodeCause e) 0 0)
    | .ok i => if stalls s0 g i then .idle
        else .run i ((countBanks (countIssued (holdPipe (issuedState s0 s1 g t gr lanes) g t.core (gr.slot / 16) i) t.core i) g t gr i
          lanes).setCur (some ⟨g, maskOf lanes, pc, d⟩))

include team group free chosen fetched in
theorem beginIssue_fetched : beginIssue s0 g d = issueOutcome s0 s1 g t gr pc lanes d f := by
  simp only [beginIssue, team, group, free, chosen, fetched, Bool.not_true, Bool.false_eq_true, if_false]
  cases f <;> rfl

include turn picked

/-- A turn of a pipe is what the issue of the group that it picks comes to. -/
theorem step_issue : step s = timed time (match beginIssue s0 g d with
    | .trapped s1 => .next s1
    | .run i s1 => exec i s1
    | .idle => .next s0) := by
  simp only [step, turn, runTurn, picked, Option.map_some, afterOf]
  cases beginIssue s0 g d <;> rfl

include team group free chosen fetched

/-- A trap at the fetch is the step. -/
theorem step_fetch_trap {c sub : Nat} {a : W64} {u : State} (stops : f = .trap c sub a) (some_ : lanes ≠ []) (real : c ≠ 0)
    (plain : ∀ l ∈ lanes, ∀ x, (issuedState s0 s1 g t gr lanes).lane? g l = some x → x.tx = none)
    (takes : Takes (issuedState s0 s1 g t gr lanes) g ⟨c, sub, 0, false, pc, a, maskOf lanes ++ 0#32, 0, none⟩ u) :
    step s = .next (passed time u) := by
  rw [step_issue turn picked, beginIssue_fetched team group free chosen fetched, stops]
  simp only [issueOutcome, issueTrap_takes some_ plain real takes]
  rfl

/-- A trap at the decoder is the step. -/
theorem step_decode_trap {w : W64} {e : DecodeError} {u : State} (word : f = .word w) (error : decode w = .error e) (some_ : lanes ≠ [])
    (plain : ∀ l ∈ lanes, ∀ x, (issuedState s0 s1 g t gr lanes).lane? g l = some x → x.tx = none)
    (takes : Takes (issuedState s0 s1 g t gr lanes) g ⟨decodeCause e, 0, 0, false, pc, 0, maskOf lanes ++ 0#32, 0, none⟩ u) :
    step s = .next (passed time u) := by
  have real : decodeCause e ≠ 0 := by cases e <;> decide
  rw [step_issue turn picked, beginIssue_fetched team group free chosen fetched, word]
  simp only [issueOutcome, error, issueTrap_takes some_ plain real takes]
  rfl

/-- A word that decodes runs (R154). -/
theorem step_runs_decoded {w : W64} {i : Instr} (word : f = .word w) (decoded : decode w = .ok i) (ready : stalls s0 g i = false) :
    step s = timed time (exec i ((countBanks (countIssued (holdPipe (issuedState s0 s1 g t gr lanes) g t.core (gr.slot / 16) i) t.core i) g t gr
      i lanes).setCur (some ⟨g, maskOf lanes, pc, d⟩))) := by
  rw [step_issue turn picked, beginIssue_fetched team group free chosen fetched, word]
  simp only [issueOutcome, decoded, ready, Bool.false_eq_true, if_false]

end

/-- Settles O53: the checks of the issue in their order, and the traps of the fetch and the decoder. -/
theorem issueTraps : Obligations.IssueTraps := by
  constructor
  case left =>
    intro i s c t gr u lanes trap word cur team group free plain some_
    exact ⟨fun privileged user takes => exec_of_stop word (prepare_privileged cur team group free plain some_ privileged user takes),
      fun mode beyondIt takes => exec_of_stop word (prepare_overBudget cur team group free plain some_ mode beyondIt takes)⟩
  case right =>
    intro s s0 s1 core pipe busy d time g t gr pc lanes f u issued trap turn picked team group free chosen fetched some_ plain
    refine ⟨fun c sub a stops real takes => ?fetch, fun w word error takes => ?opcode, fun w word error takes => ?encoding,
      fun w word error takes => ?pair⟩
    case fetch => exact step_fetch_trap turn picked team group free chosen fetched stops some_ real plain takes
    case opcode | encoding | pair => exact step_decode_trap turn picked team group free chosen fetched word error some_ plain takes

/-! ### The word that is fetched -/

/-- A word with a byte below it. -/
theorem toNat_append_byte {n : Nat} (x : BitVec n) (b : Byte) : (x ++ b).toNat = x.toNat * 256 + b.toNat := by
  rw [BitVec.toNat_append, ← Nat.shiftLeft_add_eq_or_of_lt b.isLt, Nat.shiftLeft_eq]

/-- Eight bytes decode as the word that they spell (R6, R23). -/
theorem decodeBytes_ofBytes {bs : List Byte} (eight : bs.length = 8) : decodeBytes bs = some (decode (BitVec.ofNat 64 (ofBytes bs))) := by
  obtain ⟨b0, b1, b2, b3, b4, b5, b6, b7, rfl⟩ : ∃ b0 b1 b2 b3 b4 b5 b6 b7, bs = [b0, b1, b2, b3, b4, b5, b6, b7] := by
    match bs, eight with
    | [b0, b1, b2, b3, b4, b5, b6, b7], _ => exact ⟨b0, b1, b2, b3, b4, b5, b6, b7, rfl⟩
  refine congrArg (fun x => some (decode x)) (BitVec.eq_of_toNat_eq ?_)
  have spelled := ofBytes_lt [b0, b1, b2, b3, b4, b5, b6, b7]
  rw [BitVec.toNat_ofNat, Nat.mod_eq_of_lt (by simpa using spelled)]
  simp only [toNat_append_byte, ofBytes]
  omega

/-- A word of a line in memory is the word at its own place there (R23). -/
theorem wordOf_line {m : Mem} {key : Nat} (aligned : key % 8 = 0) :
    wordOf (memRead m (key / 128 * 128) 128) key = BitVec.ofNat 64 (ofBytes (memRead m key 8)) := by
  have slice : ((memRead m (key / 128 * 128) 128).drop (key % 128)).take 8 = memRead m key 8 := by
    rw [memRead_get, memRead_get]
    apply List.ext_getElem
    · simp; omega
    · intro n _ _
      simp only [List.getElem_take, List.getElem_drop, List.getElem_map, List.getElem_range]
      congr 1
      omega
  rw [wordOf, slice]

/-- Settles O54: the step of an issue, the word's bytes in its line, and a turn that names an event. -/
theorem stepRunsDecoded : Obligations.StepRunsDecoded := by
  refine ⟨?decoded, ?bytes, ?event⟩
  case decoded =>
    intro s s0 s1 core pipe busy d time g t gr pc lanes w i turn picked team group free chosen fetched decoded ready issued
    exact step_runs_decoded turn picked team group free chosen fetched rfl decoded ready
  case bytes =>
    intro s s1 core asid key e priv pc alignedPc aligned found miss free freeOther sound
    refine ⟨wordOf (memRead s1.mem (key / 128 * 128) 128) key, ?_, ?_⟩
    · simp only [fetchWord, alignedPc, found, miss, free, freeOther, sound, ne_eq, not_true, if_false, Bool.or_self, Bool.false_eq_true]
    · rw [wordOf_line aligned]
      exact decodeBytes_ofBytes (by simp [memRead])
  case event =>
    intro s s0 i time turn event
    simp only [step, turn, runTurn, event, Bool.false_eq_true, if_false, afterOf]

end Sys2Proof.Machine
end

section
/-! SUPPORT. The frame of the issue (R305, R314, R325). -/

namespace Sys2Proof.Machine

section
variable (s : State) (c code n : Nat)

@[simp] theorem State.countCore_teams : (s.countCore c code n).teams = s.teams := by
  unfold State.countCore
  split <;> rfl

@[simp] theorem State.countCore_mem : (s.countCore c code n).mem = s.mem := by
  unfold State.countCore
  split <;> rfl

@[simp] theorem State.countCore_cur : (s.countCore c code n).cur = s.cur := by
  unfold State.countCore
  split <;> rfl

@[simp] theorem State.team?_countCore (k : Nat) : (s.countCore c code n).team? k = s.team? k := by
  rw [State.team?, State.countCore_teams, State.team?]

@[simp] theorem State.group?_countCore (g : GRef) : (s.countCore c code n).group? g = s.group? g := by
  rw [State.group?, State.team?_countCore, State.group?]

end

/-- A thread that the issue of a word leaves alone: in no transaction and not held at the start of one. -/
def Thread.bystander (t : Thread) : Prop := t.tx = none ∧ ∀ m d, t.park ≠ some (.hold m d)

/-- What of a group the issue of a word keeps. -/
def Group.KeptAtIssue (gr x : Group) : Prop :=
  x.s = gr.s ∧ x.ctl = gr.ctl ∧ x.budget = gr.budget ∧ ∀ l t, gr.lane? l = some t → t.bystander → x.lane? l = some t

/-- What the issue of a word of group `g` keeps. -/
structure KeptAtIssue (g : GRef) (s u : State) : Prop where
  mem : u.mem = s.mem
  cur : u.cur = s.cur
  others : ∀ h, h ≠ g → u.group? h = s.group? h
  scratch : ∀ n, (u.team? n).map Team.scratch = (s.team? n).map Team.scratch
  group : ∀ gr, s.group? g = some gr → ∃ x, u.group? g = some x ∧ gr.KeptAtIssue x

section
variable {g : GRef} {s u : State}

theorem KeptAtIssue.refl (g : GRef) (s : State) : KeptAtIssue g s s :=
  ⟨rfl, rfl, fun _ _ => rfl, fun _ => rfl, fun gr group => ⟨gr, group, rfl, rfl, rfl, fun _ _ lane _ => lane⟩⟩

/-- A change of the group that keeps it keeps the state. -/
theorem KeptAtIssue.modGroup (kept : KeptAtIssue g s u) {f : Group → Group}
    (keeps : ∀ gr x, s.group? g = some gr → gr.KeptAtIssue x → gr.KeptAtIssue (f x)) : KeptAtIssue g s (u.modGroup g f) where
  mem := kept.mem
  cur := kept.cur
  others h other := (State.group?_modGroup_other u f other).trans (kept.others h other)
  scratch n := (State.team?_map_modGroup u g f n Team.scratch fun _ _ => rfl).trans (kept.scratch n)
  group gr group := by
    obtain ⟨x, there, keptGroup⟩ := kept.group gr group
    exact ⟨f x, by rw [State.group?_modGroup, there]; rfl, keeps gr x group keptGroup⟩

theorem KeptAtIssue.countCore (kept : KeptAtIssue g s u) (c code n : Nat) : KeptAtIssue g s (u.countCore c code n) where
  mem := by rw [State.countCore_mem, kept.mem]
  cur := by rw [State.countCore_cur, kept.cur]
  others h other := by rw [State.group?_countCore, kept.others h other]
  scratch k := by rw [State.team?_countCore, kept.scratch k]
  group gr group := by rw [State.group?_countCore]; exact kept.group gr group

/-- A change of one lane that is no bystander keeps the group. -/
theorem Group.KeptAtIssue.modLane {gr x : Group} (kept : gr.KeptAtIssue x) {l : Nat} (f : Thread → Thread)
    (busy : ∀ t, gr.lane? l = some t → ¬ t.bystander) : gr.KeptAtIssue (x.modLane l f) := by
  obtain ⟨regs, ctl, budget, lanes⟩ := kept
  refine ⟨regs, ctl, budget, fun k t lane idle => ?_⟩
  have other : k ≠ l := fun same => busy t (by rw [← same]; exact lane) idle
  rw [Group.lane?_modLane, if_neg other]
  exact lanes k t lane idle

/-- Empty rounds change held lanes only (R314). -/
theorem Group.KeptAtIssue.emptyRounds {gr x : Group} (kept : gr.KeptAtIssue x) : gr.KeptAtIssue x.emptyRounds := by
  obtain ⟨regs, ctl, budget, lanes⟩ := kept
  unfold Group.emptyRounds
  split
  case isFalse => exact ⟨regs, ctl, budget, lanes⟩
  case isTrue =>
    refine ⟨regs, ctl, budget, fun l t lane idle => ?_⟩
    have unheld : t.held = false := by
      unfold Thread.held
      split
      · rename_i m d held
        exact absurd held (idle.2 m d)
      · rfl
    have there : x.lanes[l]? = some t := lanes l t lane idle
    simp [Group.lane?, there, unheld]

/-- One lane's abort keeps what the issue keeps where that lane is no bystander (R306, R314). -/
theorem KeptAtIssue.abortLane (kept : KeptAtIssue g s u) {l : Nat} (code sub : Nat)
    (busy : ∀ t, s.lane? g l = some t → ¬ t.bystander) : KeptAtIssue g s (abortLane u g l code sub) := by
  have dropped : KeptAtIssue g s (dropLane u g l code sub) := by
    refine KeptAtIssue.countCore (kept.modGroup fun gr x group keptGroup => ?_) _ _ _
    obtain ⟨regs, ctl, budget, lanes⟩ := keptGroup.modLane (l := l) (fun t => t.abort code sub) fun t lane =>
      busy t (by rw [State.lane?, group]; exact lane)
    exact ⟨regs, ctl, budget, lanes⟩
  unfold Machine.abortLane whileRunning
  split
  · exact dropped.modGroup fun gr x group keptGroup => keptGroup.emptyRounds
  · exact dropped

/-- A lane that is in a transaction now is no bystander of the state before. -/
theorem KeptAtIssue.busy_of_tx (kept : KeptAtIssue g s u) {l : Nat} {x : Thread} {tx : Tx} (now : u.lane? g l = some x) (inTx : x.tx = some tx) :
    ∀ t, s.lane? g l = some t → ¬ t.bystander := by
  intro t before idle
  cases group : s.group? g with
  | none => rw [State.lane?, group] at before; cases before
  | some gr =>
    rw [State.lane?, group] at before
    obtain ⟨gr1, there, -, -, -, lanes⟩ := kept.group gr group
    have same := lanes l t before idle
    rw [State.lane?, there] at now
    rw [show gr1.lane? l = some x from now] at same
    cases same
    rw [idle.1] at inTx
    cases inTx

theorem KeptAtIssue.team?_some (kept : KeptAtIssue g s u) {n : Nat} {t : Team} (before : s.team? n = some t) : ∃ t1, u.team? n = some t1 := by
  have same := kept.scratch n
  rw [before] at same
  cases after : u.team? n with
  | none => rw [after] at same; cases same
  | some t1 => exact ⟨t1, rfl⟩

/-- Counting the issue keeps what the issue keeps (R305). -/
theorem KeptAtIssue.countIssue (s : State) (g : GRef) (active : List Nat) : KeptAtIssue g s (countIssue s g active).1 := by
  unfold Machine.countIssue
  refine List.foldlRecOn (motive := fun acc : State × List Nat => KeptAtIssue g s acc.1) active _ (KeptAtIssue.refl g s) fun acc kept l _ => ?_
  split
  next t lane =>
    split
    next x inTx =>
      have busy := kept.busy_of_tx lane inTx
      split_ifs
      · exact kept
      · exact kept.abortLane _ _ busy
      · exact kept.modGroup fun gr x group keptGroup => keptGroup.modLane _ fun t lane => busy t (by rw [State.lane?, group]; exact lane)
    next => exact kept
  next => exact kept

/-- The aborts of lanes in logged transactions keep what the issue keeps (R304). -/
theorem KeptAtIssue.aborts (kept : KeptAtIssue g s u) (code : Nat) (vs : List (Nat × Nat))
    (busy : ∀ v ∈ vs, ∀ t, s.lane? g v.1 = some t → ¬ t.bystander) :
    KeptAtIssue g s (vs.foldl (fun st v => Machine.abortLane st g v.1 code v.2) u) :=
  List.foldlRecOn (motive := KeptAtIssue g s) vs _ kept fun _ kept v mem => kept.abortLane code v.2 (busy v mem)

end

/-- A word aborts lanes in logged transactions only (R304). -/
theorem victimsOf_logged {s : State} {g : GRef} {i : Instr} {active acting : List Nat} {v : Nat × Nat}
    (mem : v ∈ victimsOf s g i active acting) : s.inLogged g v.1 = true := by
  have of_filter {ls : List Nat} {m : Nat} (mem : v ∈ (ls.filter fun l => s.inLogged g l).map fun l => (l, m)) : s.inLogged g v.1 = true := by
    obtain ⟨l, inside, rfl⟩ := List.mem_map.mp mem
    exact (List.mem_filter.mp inside).2
  unfold victimsOf at mem
  split at mem
  · cases mem
  · split at mem
    · exact of_filter mem
    · split at mem
      · exact of_filter mem
      · cases mem

/-- A lane in a logged transaction is in a transaction. -/
theorem tx_of_inLogged {s : State} {g : GRef} {l : Nat} (logged : s.inLogged g l = true) : ∃ t x, s.lane? g l = some t ∧ t.tx = some x := by
  unfold State.inLogged at logged
  cases lane : s.lane? g l with
  | none => rw [lane] at logged; cases logged
  | some t =>
    rw [lane] at logged
    cases tx : t.tx with
    | none => simp [Thread.logged, Thread.inTx, tx] at logged
    | some x => exact ⟨t, x, rfl, tx⟩

/-- What a word's body is given: the state that the counted issue and the aborts leave, and the lanes that are left (R304, R305). -/
theorem Issues.parts {i : Instr} {s : State} {w : Wd} (issues : Issues i s w) : ∃ c t gr0 gr, s.cur = some c ∧ s.team? c.g.team = some t ∧ s.group? c.g = some gr0 ∧
    let q := countIssue (s.setCur none) c.g (lanesOf c.lanes)
    q.1.group? c.g = some gr ∧
    let victims := victimsOf q.1 c.g i q.2 (actingLanes gr i q.2)
    let hit (l : Nat) : Bool := victims.any fun v => v.1 = l
    let s1 := victims.foldl (fun st v => abortLane st c.g v.1 9 v.2) q.1
    let acting := if scalarMem i then actingLanes gr i q.2 else (actingLanes gr i q.2).filter fun l => !hit l
    acting ≠ [] ∧ w = ⟨s.setCur none, s1, c.g, (s1.team? c.g.team).getD t, (s1.group? c.g).getD gr, q.2.filter fun l => !hit l, acting,
      c.pc, c.defer⟩ := by
  unfold Issues prepare at issues
  split at issues
  · cases issues
  next c cur =>
    split at issues
    next t gr0 team group =>
      dsimp only at issues
      split at issues
      · cases issues
      · split at issues
        · cases issues
        next gr there =>
          split_ifs at issues <;> cases issues
          case neg.refl scalar _ acts => exact ⟨c, t, gr0, gr, cur, team, group, there, by rw [if_pos scalar]; exact acts, by rw [if_pos scalar]⟩
          case neg.refl other _ acts => exact ⟨c, t, gr0, gr, cur, team, group, there, by rw [if_neg other]; exact acts, by rw [if_neg other]⟩
    next => cases issues

/-- Settles O52: the counted issue and the aborts keep all but the lanes in transactions and those held at the start of one. -/
theorem issueFrame : Obligations.IssueFrame := by
  intro i s w issues
  obtain ⟨c, t, gr0, gr, cur, team, group, there, acts, rfl⟩ := issues.parts
  have counted := KeptAtIssue.countIssue (s.setCur none) c.g (lanesOf c.lanes)
  have kept := counted.aborts 9 (victimsOf (countIssue (s.setCur none) c.g (lanesOf c.lanes)).1 c.g i
    (countIssue (s.setCur none) c.g (lanesOf c.lanes)).2 (actingLanes gr i (countIssue (s.setCur none) c.g (lanesOf c.lanes)).2))
    fun v mem => by
      obtain ⟨x, tx, lane, inTx⟩ := tx_of_inLogged (victimsOf_logged mem)
      exact counted.busy_of_tx lane inTx
  obtain ⟨x, after, regs, ctl, budget, lanes⟩ := kept.group gr0 group
  obtain ⟨t1, teamAfter⟩ := kept.team?_some (show (s.setCur none).team? c.g.team = some t from team)
  refine ⟨kept.mem, kept.cur, by rw [after]; rfl, by rw [teamAfter]; rfl, kept.others, kept.scratch, ?plain, gr0, group, ?_⟩
  case plain =>
    intro perLane
    rw [perLane] at acts
    have within (p : Nat → Bool) (ls : List Nat) : ∀ l ∈ (actingLanes gr i ls).filter p, l ∈ ls.filter p := fun l mem =>
      List.mem_filter.mpr ⟨guarded_subset i gr ls (actingLanes_eq_guarded gr i ls ▸ (List.mem_filter.mp mem).1), (List.mem_filter.mp mem).2⟩
    rw [if_neg Bool.false_ne_true] at acts
    obtain ⟨l, mem⟩ := List.exists_mem_of_ne_nil _ acts
    refine ⟨List.ne_nil_of_mem (within _ _ l mem), fun k mem => ?_⟩
    rw [if_neg (by rw [perLane]; exact Bool.false_ne_true)] at mem
    exact within _ _ k mem
  rw [after]
  exact ⟨regs, ctl, budget, fun l u lane tx unheld => ⟨u, lanes l u lane ⟨tx, unheld⟩, tx, rfl, rfl, rfl, rfl, rfl, rfl, rfl⟩⟩

end Sys2Proof.Machine
end

section
/-! SUPPORT. What the caches, the counters and translation leave of the teams and of memory (R226 to R272). -/

namespace Sys2Proof.Machine

/-- A state without what an access touches beside memory: the caches, counters, error records, error logs, monitors and free values. -/
def State.outer (s : State) : State :=
  { s with free := 0, mem := [], l2 := [], msc := [], foot := [], tlb := [], mons := [], cores := [], dies := [], errs := ⟨[], [], []⟩
           sys := { s.sys with ioU := [], logs := [] } }

/-- `t` has the teams, the memory and the sectors in error of `s`, and all else that is no cache, counter, report or monitor. -/
@[simp] abbrev Beside (s t : State) : Prop :=
  t.teams = s.teams ∧ t.mem = s.mem ∧ t.outer = s.outer ∧ t.errs.sectors = s.errs.sectors

theorem Beside.refl (s : State) : Beside s s := ⟨rfl, rfl, rfl, rfl⟩

theorem Beside.trans {s t u : State} (st : Beside s t) (tu : Beside t u) : Beside s u :=
  ⟨tu.1.trans st.1, tu.2.1.trans st.2.1, tu.2.2.1.trans st.2.2.1, tu.2.2.2.trans st.2.2.2⟩

section
variable {s t : State} (same : t.teams = s.teams)
include same

theorem State.team?_congr (n : Nat) : t.team? n = s.team? n := congrArg (amGet · n) same

theorem State.group?_congr (g : GRef) : t.group? g = s.group? g := by
  rw [State.group?, State.team?_congr same, State.group?]

theorem State.lane?_congr (g : GRef) (l : Nat) : t.lane? g l = s.lane? g l := by
  rw [State.lane?, State.group?_congr same, State.lane?]

end

/-- What every step of a fold keeps, the fold keeps. -/
theorem foldl_keeps {α β γ : Type*} (p : α → γ) (f : α → β → α) (h : ∀ a b, p (f a b) = p a) (l : List β) (a : α) :
    p (l.foldl f a) = p a :=
  List.foldlRecOn (motive := fun x => p x = p a) l f rfl fun x hx b _ => (h x b).trans hx

theorem beside_foldl {β : Type*} (f : State → β → State) (h : ∀ s b, Beside s (f s b)) (l : List β) (s : State) :
    Beside s (l.foldl f s) :=
  ⟨foldl_keeps State.teams f (fun s b => (h s b).1) l s, foldl_keeps State.mem f (fun s b => (h s b).2.1) l s,
    foldl_keeps State.outer f (fun s b => (h s b).2.2.1) l s, foldl_keeps (fun s => s.errs.sectors) f (fun s b => (h s b).2.2.2) l s⟩

theorem outer_part {β : Type*} (part : State → β) (kept : ∀ s, part s.outer = part s) {s t : State} (same : t.outer = s.outer) :
    part t = part s :=
  (kept t).symm.trans ((congrArg part same).trans (kept s))

section
variable (s : State)

@[simp] theorem State.setMem_outer (m : Mem) : (s.setMem m).outer = s.outer := rfl
@[simp] theorem State.setL2_outer (m : AMap L2Line) : (s.setL2 m).outer = s.outer := rfl
@[simp] theorem State.setMsc_outer (m : AMap MscLine) : (s.setMsc m).outer = s.outer := rfl
@[simp] theorem State.setFoot_outer (m : AMap (List Nat)) : (s.setFoot m).outer = s.outer := rfl
@[simp] theorem State.setTlb_outer (m : AMap W64) : (s.setTlb m).outer = s.outer := rfl
@[simp] theorem State.setMons_outer (m : AMap Mon) : (s.setMons m).outer = s.outer := rfl
@[simp] theorem State.setErrs_outer (e : Errs) : (s.setErrs e).outer = s.outer := rfl
@[simp] theorem State.setCores_outer (m : AMap Core) : (s.setCores m).outer = s.outer := rfl
@[simp] theorem State.setDies_outer (m : AMap Die) : (s.setDies m).outer = s.outer := rfl
@[simp] theorem State.setIoU_outer (m : AMap Nat) : (s.setSys { s.sys with ioU := m }).outer = s.outer := rfl
@[simp] theorem State.setLogs_outer (m : AMap ErrLog) : (s.setSys { s.sys with logs := m }).outer = s.outer := rfl

end

/-! The state's own updates, counters and error logs. -/

@[simp] theorem State.modCore_beside (s : State) (c : Nat) (f : Core → Core) : Beside s (s.modCore c f) := ⟨rfl, rfl, rfl, rfl⟩
@[simp] theorem State.modDie_beside (s : State) (d : Nat) (f : Die → Die) : Beside s (s.modDie d f) := ⟨rfl, rfl, rfl, rfl⟩
@[simp] theorem State.modSlice_beside (s : State) (d k : Nat) (f : Slice → Slice) : Beside s (s.modSlice d k f) := ⟨rfl, rfl, rfl, rfl⟩
@[simp] theorem State.takeFree_beside (s : State) : Beside s s.takeFree.2 := ⟨rfl, rfl, rfl, rfl⟩

@[simp] theorem State.countDie_beside (s : State) (d code n : Nat) : Beside s (s.countDie d code n) := by
  unfold State.countDie
  split <;> simp

@[simp] theorem logEvent_beside (s : State) (log chan kind asid cause addr : Nat) :
    Beside s (logEvent s log chan kind asid cause addr) := by
  simp [logEvent, modLog]

@[simp] theorem logConsumed_beside (s : State) (key asid : Nat) : Beside s (logConsumed s key asid) := by
  simp [logConsumed]

@[simp] theorem logCoreError_beside (s : State) (core asid : Nat) : Beside s (logCoreError s core asid) := by
  simp [logCoreError]

@[simp] theorem logDenial_beside (s : State) (target asid cause key : Nat) : Beside s (logDenial s target asid cause key) := by
  unfold logDenial
  split <;> simp

@[simp] theorem report_beside (s : State) (e : ErrAt) : Beside s (report s e) := by
  unfold report
  split <;> simp

@[simp] theorem reportLeaving_beside (s : State) (secs : List Nat) : Beside s (reportLeaving s secs) :=
  beside_foldl _ (fun st k => report_beside st (.sector k)) _ s

/-! The memory-side cache and the L2. -/

@[simp] theorem raiseHorizon_beside (s : State) (key st : Nat) : Beside s (raiseHorizon s key st) := by
  simp [raiseHorizon]

@[simp] theorem recordFootprint_beside (s : State) (line : Nat) (touched : List Nat) :
    Beside s (recordFootprint s line touched) := by
  unfold recordFootprint
  dsimp only
  split
  · simp
  · split <;> simp

@[simp] theorem dropMsc_beside (s : State) (line : Nat) : Beside s (dropMsc s line) := by
  unfold dropMsc
  split <;> simp

@[simp] theorem allocMsc_beside (s : State) (line : Nat) : Beside s (allocMsc s line) := by
  unfold allocMsc
  dsimp only
  split
  · simp
  · split <;> simp

@[simp] theorem touchMsc_beside (s : State) (key cls : Nat) : Beside s (touchMsc s key cls) := by
  unfold touchMsc
  split <;> simp

@[simp] theorem dirtyMsc_beside (s : State) (sec : Nat) (dram : List Byte) : Beside s (dirtyMsc s sec dram) := by
  simp [dirtyMsc]

@[simp] theorem writebackL2_beside (s : State) (sec : Nat) : Beside s (writebackL2 s sec) := by
  unfold writebackL2
  split
  · split <;> simp
  · simp

@[simp] theorem writebackMsc_beside (s : State) (sec : Nat) : Beside s (writebackMsc s sec) := by
  unfold writebackMsc
  split <;> simp

@[simp] theorem invalidL2_beside (s : State) (sec : Nat) : Beside s (invalidL2 s sec) := by
  unfold invalidL2
  split
  · split <;> simp
  · simp

@[simp] theorem invalidMsc_beside (s : State) (sec : Nat) : Beside s (invalidMsc s sec) := by
  simp [invalidMsc]

@[simp] theorem dropL2_beside (s : State) (line : Nat) : Beside s (dropL2 s line) := by
  unfold dropL2
  split
  · exact beside_foldl _ (fun st k => by simp) _ s
  · simp

@[simp] theorem makeRoom_beside (s : State) (line : Nat) : Beside s (makeRoom s line) := by
  unfold makeRoom
  split <;> simp

@[simp] theorem putL2_beside (s : State) (sec cls : Nat) (x : L2Sec) : Beside s (putL2 s sec cls x) := by
  simp [putL2]

@[simp] theorem touchRead_beside (s : State) (key e cls : Nat) : Beside s (touchRead s key e cls) := by
  unfold touchRead
  dsimp only
  split
  · simp
  · split
    · simp
    · split
      · simp
      · split <;> simp

@[simp] theorem noteWhere_beside (s : State) (hit : Mon → Bool) : Beside s (noteWhere s hit) := by
  simp [noteWhere]

@[simp] theorem noteWrite_beside (s : State) (sec : Nat) : Beside s (noteWrite s sec) := by
  simp [noteWrite]

@[simp] theorem noteScratch_beside (s : State) (team : Nat) : Beside s (noteScratch s team) := by
  simp [noteScratch]

@[simp] theorem touchWrite_beside (s : State) (key e cls n : Nat) : Beside s (touchWrite s key e cls n) := by
  unfold touchWrite
  dsimp only
  split
  · simp
  · split
    · simp
    · split
      · simp
      · split
        · simp
        · split
          · simp
          · split <;> simp

@[simp] theorem markFirst_beside (s : State) (key : Nat) : Beside s (markFirst s key) := by
  simp [markFirst]

/-! Writes and last uses at a home. -/

@[simp] theorem writeCover_teams (s : State) (key e cls n : Nat) (bs : List Byte) :
    (writeCover s key e cls n bs).teams = s.teams := by
  simp [writeCover]

@[simp] theorem writeCover_mem (s : State) (key e cls n : Nat) (bs : List Byte) :
    (writeCover s key e cls n bs).mem = memWrite s.mem key bs := by
  simp [writeCover]

@[simp] theorem writeAt_teams (s : State) (key e cls : Nat) (bs : List Byte) : (writeAt s key e cls bs).teams = s.teams := by
  simp [writeAt]

@[simp] theorem writeAt_mem (s : State) (key e cls : Nat) (bs : List Byte) :
    (writeAt s key e cls bs).mem = memWrite s.mem key bs := by
  simp [writeAt]

@[simp] theorem writeCover_outer (s : State) (key e cls n : Nat) (bs : List Byte) :
    (writeCover s key e cls n bs).outer = s.outer := by
  simp [writeCover]

@[simp] theorem writeAt_outer (s : State) (key e cls : Nat) (bs : List Byte) : (writeAt s key e cls bs).outer = s.outer := by
  simp [writeAt]

@[simp] theorem lastUse_teams (s : State) (key : Nat) : (lastUse s key).teams = s.teams := by
  unfold lastUse
  dsimp only
  split
  · rfl
  · split <;> simp

@[simp] theorem lastUse_outer (s : State) (key : Nat) : (lastUse s key).outer = s.outer := by
  unfold lastUse
  dsimp only
  split
  · rfl
  · split <;> simp

@[simp] theorem lastUse_sectors (s : State) (key : Nat) : (lastUse s key).errs.sectors = s.errs.sectors := by
  unfold lastUse
  dsimp only
  split
  · rfl
  · split <;> simp

/-! The caches of a core, and translation. -/

@[simp] theorem State.countCore_beside (s : State) (c code n : Nat) : Beside s (s.countCore c code n) := by
  unfold State.countCore
  split <;> simp

@[simp] theorem l1Put_beside (s : State) (core sec : Nat) (bs : List Byte) : Beside s (l1Put s core sec bs) := by
  unfold l1Put
  split <;> simp

@[simp] theorem icachePut_beside (s : State) (core line : Nat) (bs : List Byte) : Beside s (icachePut s core line bs) := by
  unfold icachePut
  split <;> simp

@[simp] theorem l1Drop_beside (s : State) (core sec : Nat) : Beside s (l1Drop s core sec) := by
  unfold l1Drop
  split <;> simp

@[simp] theorem l1Clear_beside (s : State) (core : Nat) : Beside s (l1Clear s core) := by
  unfold l1Clear
  split <;> simp

@[simp] theorem l1Update_beside (s : State) (core key : Nat) (bs : List Byte) : Beside s (l1Update s core key bs) := by
  unfold l1Update
  split <;> simp

@[simp] theorem l1Fill_beside (s : State) (core key : Nat) : Beside s (l1Fill s core key) := by
  simp [l1Fill]

@[simp] theorem l1Own_beside (s : State) (core key : Nat) (k : AccKind) : Beside s (l1Own s core key k) := by
  unfold l1Own
  split <;> simp

@[simp] theorem l1Sent_beside (s : State) (core : Nat) (a : Access) : Beside s (l1Sent s core a) := by
  unfold l1Sent
  split <;> simp

@[simp] theorem enqueue_teams (s : State) (a : Access) : (enqueue s a).teams = s.teams := rfl

@[simp] theorem tlbPut_beside (s : State) (loc k : Nat) (e : W64) : Beside s (tlbPut s loc k e) := by
  unfold tlbPut
  dsimp only
  split <;> simp

@[simp] theorem findLeaf_beside (s : State) (core asid home va : Nat) : Beside s (findLeaf s core asid home va).2 := by
  have walked (rs : List Nat) (xs : List (Nat × W64)) : Beside s
      (xs.foldl (fun st x => tlbPut st (homeLoc home va) x.1 x.2) (rs.foldl (fun st k => touchRead st k 0 0) s)) :=
    (beside_foldl _ (fun st k => touchRead_beside st k 0 0) rs s).trans
      (beside_foldl _ (fun st x => tlbPut_beside st _ x.1 x.2) xs _)
  unfold findLeaf
  dsimp only
  split
  · exact walked _ _
  · split
    · exact (walked _ _).trans (tlbPut_beside _ _ _ _)
    · exact walked _ _

@[simp] theorem xlateLocal_beside (s : State) (core asid : Nat) (priv : Bool) (n : AccessNeed) (va : Nat) :
    Beside s (xlateLocal s core asid priv n va).2 := by
  unfold xlateLocal
  dsimp only
  split
  · simp
  · split
    · simp
    · split
      · simp
      · split
        · simp
        · split
          · simp
          · split <;> simp

@[simp] theorem countGone_beside (core : Nat) (r : XOut × State) : Beside r.2 (countGone core r).2 := by
  unfold countGone
  split
  · split <;> simp
  · simp

@[simp] theorem xlate_beside (s : State) (core asid : Nat) (priv : Bool) (n : AccessNeed) (va : Nat) :
    Beside s (xlate s core asid priv n va).2 := by
  refine Beside.trans ?_ (countGone_beside _ _)
  split
  · simp
  · split
    · split
      · simp
      · split
        · simp
        · split
          · simp
          · split
            · split <;> simp
            · simp
    · simp

end Sys2Proof.Machine
end

section
/-! SUPPORT. What a performed access does at its place and to its thread (R12, R136, R230, R335). -/

namespace Sys2Proof.Machine

/-! Values written to registers. -/

theorem Thread.setRun_mod (t : Thread) (r n x : Nat) : t.setRun r n (x % 2 ^ (32 * n)) = t.setRun r n x := by
  induction n generalizing t r x with
  | zero => rfl
  | succ n ih =>
    have low : BitVec.ofNat 32 (x % 2 ^ (32 * (n + 1))) = BitVec.ofNat 32 x := by
      apply BitVec.eq_of_toNat_eq
      simp only [BitVec.toNat_ofNat]
      exact Nat.mod_mod_of_dvd _ (Nat.pow_dvd_pow 2 (by omega))
    have high : x % 2 ^ (32 * (n + 1)) / 2 ^ 32 = x / 2 ^ 32 % 2 ^ (32 * n) := by
      rw [Nat.mul_succ, Nat.add_comm, Nat.pow_add, Nat.mod_mul_right_div_self]
    rw [Thread.setRun, Thread.setRun, low, high, ih]

theorem wrap_toSigned (w n : Nat) : wrap w (toSigned w n) = n % 2 ^ w := by
  have cast : ((n % 2 ^ w : Nat) : Int).toNat = n % 2 ^ w := Int.toNat_natCast _
  unfold wrap toSigned
  dsimp only
  split <;> simpa using cast

/-- A result of whole registers needs no extension. -/
theorem Thread.setRun_whole (t : Thread) (r k : Nat) (sgn : Bool) (n : Nat) :
    t.setRun r ((32 * k + 31) / 32) (extend (32 * k) (runWidth (32 * k)) sgn n) = t.setRun r ((32 * k + 31) / 32) n := by
  have regs : (32 * k + 31) / 32 = k := by omega
  have plain : extend (32 * k) (32 * k) sgn n = n % 2 ^ (32 * k) := by
    cases sgn
    · rfl
    · exact wrap_toSigned _ n
  rw [runWidth, regs, plain, Thread.setRun_mod]

theorem extend_zero (w v : Nat) (sgn : Bool) : extend w v sgn 0 = 0 := by
  cases sgn
  · exact Nat.zero_mod _
  · simp [extend, sextNat, toSigned, wrap]

/-! A value of memory written to a destination. -/

section
variable (s : State) (g : GRef) (lane : Nat) (d : Reg)

@[simp] theorem putData_mem (x : Bool) (w : Nat) (sgn : Bool) (n : Nat) : (putData s g lane d x w sgn n).mem = s.mem := by
  unfold putData
  split
  · simp
  · simp [State.modLane]

@[simp] theorem putLoad_mem (x : Bool) (sz : Sz) (pd : Option (BitVec 3)) (absent : Bool) (n : Nat) :
    (putLoad s g lane d x sz pd absent n).mem = s.mem := by
  unfold putLoad
  dsimp only
  split
  · simp [State.modLane]
  · simp

/-- What a lane's load writes: the run of D, and LDR's report (R136, R331). -/
def loadedLane (d : Reg) (sz : Sz) (pd : Option (BitVec 3)) (absent : Bool) (n : Nat) (t : Thread) : Thread :=
  let t1 := t.setRun d.toNat ((8 * sz.bytes + 31) / 32) (extend (8 * sz.bytes) (runWidth (8 * sz.bytes)) (szSigned sz) n)
  match pd with
  | some r => t1.setP r.toNat absent
  | none => t1

theorem putLoad_lane? (sz : Sz) (pd : Option (BitVec 3)) (absent : Bool) (n : Nat) :
    (putLoad s g lane d false sz pd absent n).lane? g lane = (s.lane? g lane).map (loadedLane d sz pd absent n) := by
  cases pd with
  | none => exact State.lane?_modLane ..
  | some p =>
    rw [putLoad, State.lane?_modLane]
    rw [putData, if_neg Bool.false_ne_true, State.lane?_modLane, Option.map_map]
    rfl

theorem putData_others (x : Bool) (w : Nat) (sgn : Bool) (n : Nat) (h : GRef) (other : h ≠ g) :
    (putData s g lane d x w sgn n).group? h = s.group? h := by
  unfold putData
  split
  · exact State.group?_modGroup_other _ _ other
  · exact State.group?_modGroup_other _ _ other

theorem putLoad_others (x : Bool) (sz : Sz) (pd : Option (BitVec 3)) (absent : Bool) (n : Nat) (h : GRef) (other : h ≠ g) :
    (putLoad s g lane d x sz pd absent n).group? h = s.group? h := by
  have data := putData_others s g lane d x (8 * sz.bytes) (szSigned sz) n h other
  cases pd with
  | none => exact data
  | some p => exact (State.group?_modGroup_other _ _ other).trans data

/-- The scalar unit's load writes the s-register alone, there being no lane 32. -/
theorem putLoad_scalar (sz : Sz) (pd : Option (BitVec 3)) (absent : Bool) (n : Nat) (outside : 32 ≤ lane)
    (lanes : ∀ x, s.group? g = some x → x.lanes.length = 32) :
    (putLoad s g lane d true sz pd absent n).group? g =
      (s.group? g).map fun x => x.setS d.toNat (BitVec.ofNat 64 (extend (8 * sz.bytes) 64 (szSigned sz) n)) := by
  cases pd with
  | none => exact State.group?_modGroup ..
  | some p =>
    have untouched (x : Group) (there : x.lanes.length = 32) (f : Thread → Thread) : x.modLane lane f = x := by
      have same : modNth x.lanes lane f = x.lanes := by
        apply List.ext_getElem?
        intro i
        rw [getElem?_modNth]
        split
        · rw [List.getElem?_eq_none (by omega), Option.map_none]
        · rfl
      rw [Group.modLane, same]
    rw [putLoad, State.modLane, State.group?_modGroup]
    rw [putData, if_pos rfl, State.group?_modGroup, Option.map_map]
    cases group : s.group? g with
    | none => rfl
    | some x => exact congrArg some (untouched (x.setS d.toNat _) (lanes x group) _)

theorem putLoad_teams {t : State} (same : t.teams = s.teams) (x : Bool) (sz : Sz) (pd : Option (BitVec 3)) (absent : Bool) (n : Nat) :
    (putLoad t g lane d x sz pd absent n).teams = (putLoad s g lane d x sz pd absent n).teams := by
  cases x <;> cases pd <;> simp [putLoad, putData, State.modLane, State.modGroup, State.modTeam, same]

theorem putData_teams {t : State} (same : t.teams = s.teams) (x : Bool) (w : Nat) (sgn : Bool) (n : Nat) :
    (putData t g lane d x w sgn n).teams = (putData s g lane d x w sgn n).teams := by
  cases x <;> simp [putData, State.modLane, State.modGroup, State.modTeam, same]

end

/-! Bytes at a place. -/

section
variable (p : Place) (s : State)

theorem Place.touch_beside : Beside s (p.touch s) := by
  cases p with
  | mem key e cls => exact touchRead_beside s key e cls
  | view team o => exact Beside.refl s

theorem Place.read_beside {t : State} (same : Beside s t) (off n : Nat) : p.read t off n = p.read s off n := by
  cases p with
  | mem key e cls => exact congrArg (memRead · _ _) same.2.1
  | view team o => rw [Place.read, State.team?_congr same.1, Place.read]

/-- The team whose scratchpad a place is in is there. -/
def Place.there : Prop :=
  match p with
  | .mem _ _ _ => True
  | .view team _ => (s.team? team).isSome

theorem Place.write_team? (off : Nat) (bs : List Byte) (n : Nat) : (p.write s off bs).team? n =
    match p with
    | .mem _ _ _ => s.team? n
    | .view team o => if n = team then (s.team? n).map fun t => { t with scratch := memWrite t.scratch (o + off) bs }
        else s.team? n := by
  cases p with
  | mem key e cls => exact State.team?_congr (writeAt_teams ..) n
  | view team o => exact (State.team?_congr (noteScratch_beside ..).1 n).trans (State.team?_modTeam ..)

theorem Place.write_group? (off : Nat) (bs : List Byte) (h : GRef) : (p.write s off bs).group? h = s.group? h := by
  rw [State.group?, Place.write_team?, State.group?]
  cases p with
  | mem key e cls => rfl
  | view team o =>
    dsimp only
    split
    · cases s.team? h.team <;> rfl
    · rfl

theorem Place.write_mem (off : Nat) (bs : List Byte) : (p.write s off bs).mem =
    match p with
    | .mem key _ _ => memWrite s.mem (key + off) bs
    | .view _ _ => s.mem := by
  cases p with
  | mem key e cls => exact writeAt_mem ..
  | view team o => exact (noteScratch_beside ..).2.1

theorem Place.there_write (off : Nat) (bs : List Byte) (there : p.there s) : p.there (p.write s off bs) := by
  cases p with
  | mem key e cls => trivial
  | view team o =>
    rw [Place.there, Place.write_team?]
    dsimp only
    rw [if_pos rfl, Option.isSome_map]
    exact there

theorem Place.there_touch (there : p.there s) : p.there (p.touch s) := by
  cases p with
  | mem key e cls => trivial
  | view team o => exact there

theorem length_memRead (m : Mem) (a n : Nat) : (memRead m a n).length = n := by simp [memRead]

/-- Some of the bytes read are the bytes read there. -/
theorem memRead_part (m : Mem) (a : Nat) {i k n : Nat} (inside : i + k ≤ n) :
    ((memRead m a n).drop i).take k = memRead m (a + i) k := by
  rw [memRead_get, memRead_get]
  apply List.ext_getElem
  · simp only [List.length_take, List.length_drop, List.length_map, List.length_range]
    omega
  · intro j h1 h2
    simp [Nat.add_assoc]

theorem Place.length_read (off n : Nat) : (p.read s off n).length = n := by
  cases p <;> exact length_memRead ..

theorem Place.read_part {i k n : Nat} (inside : i + k ≤ n) : ((p.read s 0 n).drop i).take k = p.read s i k := by
  cases p with
  | mem key e cls => exact memRead_part s.mem key inside
  | view team o => exact memRead_part _ o inside

theorem Place.read_write_same (off : Nat) (bs : List Byte) (there : p.there s) : p.read (p.write s off bs) off bs.length = bs := by
  cases p with
  | mem key e cls => rw [Place.read, Place.write_mem, memRead_memWrite_same]
  | view team o =>
    obtain ⟨t, team_t⟩ := Option.isSome_iff_exists.1 there
    rw [Place.read, Place.write_team?]
    simp only [if_true, team_t, Option.map_some, Option.getD_some]
    exact memRead_memWrite_same ..

theorem Place.read_write_outside {off a n : Nat} {bs : List Byte} (outside : a + n ≤ off ∨ off + bs.length ≤ a) :
    p.read (p.write s off bs) a n = p.read s a n := by
  cases p with
  | mem key e cls =>
    rw [Place.read, Place.write_mem]
    exact memRead_memWrite_other (by omega)
  | view team o =>
    rw [Place.read, Place.write_team?, Place.read]
    simp only [if_true]
    cases s.team? team with
    | none => rfl
    | some t => exact memRead_memWrite_other (by omega)

end

/-! Atomic elements. -/

section
variable (p : Place) (aty : AType) (aop : AOp)

/-- The old value of an element. -/
def oldElem (s : State) (off : Nat) : Nat := ofBytes (p.read s off (aty.width / 8))

/-- One element of an atomic performed (R336). -/
def elemStep (x : Nat × Nat) (off : Nat) (s : State) : State :=
  match atomNew aty aop (oldElem p aty s off) x with
  | some n => p.write s off (toBytes (aty.width / 8) n)
  | none => p.touch s

theorem atomAt_cons (x : Nat × Nat) (xs : List (Nat × Nat)) (off : Nat) (s : State) :
    (atomAt p aty aop (x :: xs) off s).1 =
      oldElem p aty s off :: (atomAt p aty aop xs (off + aty.width / 8) (elemStep p aty aop x off s)).1 ∧
    (atomAt p aty aop (x :: xs) off s).2 = (atomAt p aty aop xs (off + aty.width / 8) (elemStep p aty aop x off s)).2 :=
  ⟨rfl, rfl⟩

section
variable (x : Nat × Nat) (off : Nat) (s : State)

theorem elemStep_there (there : p.there s) : p.there (elemStep p aty aop x off s) := by
  unfold elemStep
  split
  · exact p.there_write s _ _ there
  · exact p.there_touch s there

theorem elemStep_group? (h : GRef) : (elemStep p aty aop x off s).group? h = s.group? h := by
  unfold elemStep
  split
  · exact p.write_group? s _ _ h
  · exact State.group?_congr (p.touch_beside s).1 h

theorem elemStep_read_outside {a n : Nat} (outside : a + n ≤ off ∨ off + aty.width / 8 ≤ a) :
    p.read (elemStep p aty aop x off s) a n = p.read s a n := by
  unfold elemStep
  split
  · exact p.read_write_outside s (by rwa [length_toBytes])
  · exact p.read_beside s (p.touch_beside s) a n

theorem elemStep_read_same (there : p.there s) : p.read (elemStep p aty aop x off s) off (aty.width / 8) =
    toBytes (aty.width / 8) ((atomNew aty aop (oldElem p aty s off) x).getD (oldElem p aty s off)) := by
  unfold elemStep
  split
  next n new =>
    have whole := p.read_write_same s off (toBytes (aty.width / 8) n) there
    rw [length_toBytes] at whole
    rw [whole, new, Option.getD_some]
  next new =>
    have back := toBytes_ofBytes (p.read s off (aty.width / 8))
    rw [Place.length_read] at back
    rw [p.read_beside s (p.touch_beside s), new, Option.getD_none, oldElem, back]

/-- The memory of the homes, where the place is a scratchpad. -/
theorem elemStep_mem {team o : Nat} : (elemStep (.view team o) aty aop x off s).mem = s.mem := by
  unfold elemStep
  split
  · exact Place.write_mem ..
  · rfl

end

section
variable (xs : List (Nat × Nat)) (off : Nat) (s : State)

theorem atomAt_group? (h : GRef) : (atomAt p aty aop xs off s).2.group? h = s.group? h := by
  induction xs generalizing off s with
  | nil => rfl
  | cons x xs ih => rw [(atomAt_cons ..).2, ih, elemStep_group?]

theorem atomAt_mem {team o : Nat} : (atomAt (.view team o) aty aop xs off s).2.mem = s.mem := by
  induction xs generalizing off s with
  | nil => rfl
  | cons x xs ih => rw [(atomAt_cons ..).2, ih, elemStep_mem]

theorem atomAt_read_outside {a n : Nat} (outside : a + n ≤ off ∨ off + aty.width / 8 * xs.length ≤ a) :
    p.read (atomAt p aty aop xs off s).2 a n = p.read s a n := by
  induction xs generalizing off s with
  | nil => rfl
  | cons x xs ih =>
    rw [List.length_cons, Nat.mul_succ] at outside
    rw [(atomAt_cons ..).2, ih _ _ (by omega), elemStep_read_outside _ _ _ _ _ _ (by omega)]

theorem atomAt_old : (atomAt p aty aop xs off s).1 =
    (List.range xs.length).map fun j => oldElem p aty s (off + aty.width / 8 * j) := by
  induction xs generalizing off s with
  | nil => rfl
  | cons x xs ih =>
    have shifted (j : Nat) : oldElem p aty (elemStep p aty aop x off s) (off + aty.width / 8 + aty.width / 8 * j) =
        oldElem p aty s (off + aty.width / 8 * (j + 1)) := by
      rw [oldElem, elemStep_read_outside _ _ _ _ _ _ (by omega), Nat.mul_succ, oldElem]
      congr 2
      omega
    rw [(atomAt_cons ..).1, ih, List.length_cons, List.range_succ_eq_map, List.map_cons, List.map_map]
    exact congrArg₂ _ rfl (List.map_congr_left fun j _ => shifted j)

theorem atomAt_read (there : p.there s) {j : Nat} {v : Nat × Nat} (elem : xs[j]? = some v) :
    p.read (atomAt p aty aop xs off s).2 (off + aty.width / 8 * j) (aty.width / 8) =
      toBytes (aty.width / 8) ((atomNew aty aop (oldElem p aty s (off + aty.width / 8 * j)) v).getD
        (oldElem p aty s (off + aty.width / 8 * j))) := by
  induction xs generalizing off s j with
  | nil => simp at elem
  | cons x xs ih =>
    rw [(atomAt_cons ..).2]
    cases j with
    | zero =>
      obtain rfl : x = v := by simpa using elem
      rw [atomAt_read_outside _ _ _ _ _ _ (by omega)]
      exact elemStep_read_same p aty aop x off s there
    | succ j =>
      have place : off + aty.width / 8 * (j + 1) = off + aty.width / 8 + aty.width / 8 * j := by
        rw [Nat.mul_succ]
        omega
      rw [place, ih _ _ (elemStep_there p aty aop x off s there) elem, oldElem, oldElem,
        elemStep_read_outside _ _ _ _ _ _ (by omega)]

end

end

end Sys2Proof.Machine
end

section
/-! PROOFS. What a performed load, store and atomic write and return, and what they leave (R12, R136, R230, R331, R335 to R338). -/

namespace Sys2Proof.Machine

theorem acquired_beside (w : Wd) (q : Req) (s : State) : Beside s (acquired w q s) := by
  unfold acquired
  split <;> simp

/-- The translation of an access leaves the teams and memory. -/
theorem beside_of_xlate {w : Wd} {q : Req} {s s1 : State} {n : AccessNeed} {out : XOut}
    (looked : xlate (acquired w q s) w.t.core w.gr.ctl.asid.toNat w.gr.ctl.priv n q.va.toNat = (out, s1)) : Beside s s1 := by
  have same := xlate_beside (acquired w q s) w.t.core w.gr.ctl.asid.toNat w.gr.ctl.priv n q.va.toNat
  rw [looked] at same
  exact (acquired_beside w q s).trans same

/-- An access performed at its home without an error: beside what it does there, only a load's last use changes memory. -/
theorem performAccess_effect {s t : State} {a : Access} (sound : inError s a.key = false) (performed : performAccess s a = some t) :
    t.teams = (performAt (.mem a.key a.e a.cls) s a.g a.lane a.kind).teams ∧
    (t.outer = (performAt (.mem a.key a.e a.cls) s a.g a.lane a.kind).outer ∧
      t.errs.sectors = (performAt (.mem a.key a.e a.cls) s a.g a.lane a.kind).errs.sectors) ∧
    (isLoad a.kind = false ∨ a.lu = false → t.mem = (performAt (.mem a.key a.e a.cls) s a.g a.lane a.kind).mem) := by
  rw [performAccess, sound, if_neg Bool.false_ne_true, Option.some.injEq] at performed
  subst performed
  generalize performAt (.mem a.key a.e a.cls) s a.g a.lane a.kind = v
  have cleared (x : State) : Beside x (if (a.acq && a.wide) = true then l1Clear x (coreOf s a.g) else x) := by
    split <;> simp
  have own (k : AccKind) : Beside v (if a.lu = true then markFirst (l1Own v (coreOf s a.g) a.key k) a.key
      else l1Own v (coreOf s a.g) a.key k) := by
    split <;> simp
  cases kind : a.kind with
  | load d x sz pd =>
    have filled : Beside v (if a.l1 = true then l1Fill v (coreOf s a.g) a.key else v) := by
      split <;> simp
    cases last : a.lu with
    | true => exact ⟨(cleared _).1.trans (lastUse_teams ..), 
        ⟨(cleared _).2.2.1.trans (lastUse_outer ..), (cleared _).2.2.2.trans (lastUse_sectors ..)⟩, fun quiet => by simp [isLoad] at quiet⟩
    | false =>
      have after := filled.trans (cleared _)
      exact ⟨after.1, after.2.2, fun _ => after.2.1⟩
  | store bs =>
    have after := (own (.store bs)).trans (cleared _)
    exact ⟨after.1, after.2.2, fun _ => after.2.1⟩
  | unit ps =>
    have after := (own (.unit ps)).trans (cleared _)
    exact ⟨after.1, after.2.2, fun _ => after.2.1⟩
  | atom aty aop xs ret d x =>
    have after := (own (.atom aty aop xs ret d x)).trans (cleared _)
    exact ⟨after.1, after.2.2, fun _ => after.2.1⟩

/-- A load performed: its thread's registers, and memory but for a last use. -/
theorem Does.loads {w : Wd} {q : Req} {p : Place} {seen : List Byte} {s u : State} {d : Reg} {x : Bool} {sz : Sz}
    {pd : Option (BitVec 3)} (kind : q.kind = .load d x sz pd) (bytes : q.n = sz.bytes) (does : Does w q p seen s u) :
    u.teams = (putLoad s w.g q.lane d x sz pd false (ofBytes seen)).teams ∧ (q.lu = false → u.mem = s.mem) := by
  cases does with
  | view t off _ _ _ team _ _ place found =>
    have from_s := acquired_beside w q s
    have read : p.read (acquired w q s) 0 sz.bytes = seen := by
      rw [place, found, Place.read, team, bytes]
      rfl
    have touched := from_s.trans (p.touch_beside (acquired w q s))
    rw [kind]
    refine ⟨?_, fun _ => ?_⟩
    · rw [performAt, read]
      exact putLoad_teams s w.g q.lane d touched.1 ..
    · rw [performAt, putLoad_mem]
      exact touched.2.1
  | hit key e line s1 _ _ _ _ _ looked _ _ _ _ found =>
    have from_s := beside_of_xlate looked
    have hits : l1Hit s1 (accessOf w q key e) line =
        putLoad (if q.lu then lastUse (l1Drop (s1.countCore (coreOf s1 w.g) 0x04 1) (coreOf s1 w.g) (sectorOf key)) key
          else s1.countCore (coreOf s1 w.g) 0x04 1) w.g q.lane d x sz pd false (ofBytes seen) := by
      simp only [l1Hit, accessOf, kind, found, bytes]
    rw [hits]
    refine ⟨putLoad_teams s w.g q.lane d ?_ .., fun unused => ?_⟩
    · split <;> simp [from_s.1]
    · rw [putLoad_mem, unused]
      simp [from_s.2.1]
  | home key e s1 s2 _ _ _ _ _ looked _ _ _ _ sound place found performed =>
    have from_s := beside_of_xlate looked
    have effect := performAccess_effect sound performed
    have read : memRead s1.mem (key + 0) sz.bytes = seen := by rw [found, bytes, Nat.add_zero]
    have touched := from_s.trans (touchRead_beside s1 key e (accessOf w q key e).cls)
    have does : performAt (.mem key e (accessOf w q key e).cls) s1 w.g q.lane (accessOf w q key e).kind =
        putLoad (touchRead s1 key e (accessOf w q key e).cls) w.g q.lane d x sz pd false (ofBytes seen) := by
      rw [← read, show (accessOf w q key e).kind = .load d x sz pd from kind]
      rfl
    refine ⟨(effect.1.trans (congrArg State.teams does)).trans (putLoad_teams s w.g q.lane d touched.1 ..), fun unused => ?_⟩
    rw [effect.2.2 (.inr unused)]
    exact ((congrArg State.mem does).trans (putLoad_mem ..)).trans touched.2.1

/-- Any other access performed: what it does at its place, from a state beside that of the issue. -/
theorem Does.writes {w : Wd} {q : Req} {p : Place} {seen : List Byte} {s u : State} (kind : isLoad q.kind = false)
    (does : Does w q p seen s u) : ∃ base, Beside s base ∧ p.there base ∧ seen = p.read base 0 q.n ∧
      Beside (performAt p base w.g q.lane q.kind) u := by
  cases does with
  | view t off _ _ _ team _ _ place found =>
    refine ⟨acquired w q s, acquired_beside w q s, ?_, ?_, Beside.refl _⟩
    · rw [place, Place.there, team]
      rfl
    · rw [place, Place.read, team, found]
      rfl
  | hit key e line s1 _ _ _ load => simp [kind] at load
  | home key e s1 s2 _ _ _ _ _ looked _ _ _ _ sound place found performed =>
    obtain ⟨teams, rest, mem⟩ := performAccess_effect sound performed
    refine ⟨s1, beside_of_xlate looked, ?_, ?_, ?_⟩
    · rw [place]
      trivial
    · rw [place, Place.read, found, Nat.add_zero]
    · rw [place]
      exact ⟨teams, mem (.inl kind), rest⟩

/-- A load of a page that is not resident: its thread's registers alone (R265, R331). -/
theorem DoesAbsent.loads {w : Wd} {q : Req} {s u : State} {d : Reg} {x : Bool} {sz : Sz} {pd : Option (BitVec 3)}
    (kind : q.kind = .load d x sz pd) (does : DoesAbsent w q s u) :
    u.teams = (putLoad s w.g q.lane d x sz pd true 0).teams ∧ u.mem = s.mem := by
  obtain ⟨_, _, d1, x1, sz1, pd1, s1, kind1, looked, rfl⟩ := does
  obtain ⟨rfl, rfl, rfl, rfl⟩ := AccKind.load.inj (kind.symm.trans kind1)
  have from_s := beside_of_xlate looked
  exact ⟨putLoad_teams s w.g q.lane d from_s.1 .., (putLoad_mem ..).trans from_s.2.1⟩

/-- Settles O15: a load that is performed, and one of an absent page, leave the teams that the load's writing to its thread leaves. -/
theorem loadResult : Obligations.LoadResult := by
  unfold Obligations.LoadResult
  refine ⟨fun w q p seen s u d x sz pd kind bytes does => ?_, fun w q s u d sz pd kind does => ?_⟩
  · obtain ⟨teams, mem⟩ := does.loads kind bytes
    refine ⟨fun lanes => ?_, fun scalar outside full => ?_, fun h other => ?_, fun unused a => by rw [mem unused]⟩
    · rw [State.lane?_congr teams, lanes, putLoad_lane?]
      rfl
    · rw [State.group?_congr teams, scalar, putLoad_scalar _ _ _ _ _ _ _ _ outside full]
    · rw [State.group?_congr teams, putLoad_others _ _ _ _ _ _ _ _ _ _ other]
  · obtain ⟨teams, mem⟩ := does.loads kind
    refine ⟨?_, fun h other => ?_, fun a => by rw [mem]⟩
    · rw [State.lane?_congr teams, putLoad_lane?]
      refine congrArg (Option.map · _) (funext fun t => ?_)
      cases pd <;> simp only [loadedLane, extend_zero]
    · rw [State.group?_congr teams, putLoad_others _ _ _ _ _ _ _ _ _ _ other]

/-- Settles O16: a store is a write at its place, whose bytes are read back there and leave every other byte. -/
theorem storeResult : Obligations.StoreResult := by
  unfold Obligations.StoreResult
  intro w q p seen s u bs kind bytes does
  obtain ⟨base, same, there, -, after⟩ := does.writes (by rw [kind]; rfl)
  rw [kind] at after
  have team (n : Nat) : u.team? n = (p.write base 0 bs).team? n := State.team?_congr after.1 n
  have mem : u.mem = (p.write base 0 bs).mem := after.2.1
  refine ⟨fun h => ?_, ?_⟩
  · rw [State.group?_congr after.1, performAt, Place.write_group?, State.group?_congr same.1]
  · cases p with
    | mem key e cls =>
      refine ⟨fun a => ?_, fun i => ?_⟩
      · rw [mem, Place.write_mem, memGet_memWrite, same.2.1]
        rfl
      · rw [team, Place.write_team?, State.team?_congr same.1]
    | view t off =>
      refine ⟨fun a => ?_, fun i v held => ?_⟩
      · rw [mem, Place.write_mem, same.2.1]
      · rw [team, Place.write_team?, State.team?_congr same.1, held]
        dsimp only
        split
        next own =>
          refine ⟨_, rfl, fun a => ?_⟩
          rw [memGet_memWrite]
          simp [own]
        next apart => exact ⟨v, rfl, fun a => by simp [apart]⟩

/-! Atomics. -/

/-- A word is the number of its value, of either signedness. -/
theorem wrap_valueOf (sgn : Bool) (w : Nat) {n : Nat} (fits : n < 2 ^ w) : wrap w (valueOf sgn w n) = n := by
  have back := congrArg BitVec.toNat (ofInt_valueOf sgn (BitVec.ofNat w n))
  rwa [BitVec.toNat_ofNat, Nat.mod_eq_of_lt fits, ← wrap_eq_ofInt] at back

/-- The sum of two values is that of the words modulo 2^w. -/
theorem wrap_valueOf_add (sgn : Bool) (w : Nat) {m n : Nat} (fitsM : m < 2 ^ w) (fitsN : n < 2 ^ w) :
    wrap w (valueOf sgn w m + valueOf sgn w n) = (m + n) % 2 ^ w := by
  have valueM := ofInt_valueOf sgn (BitVec.ofNat w m)
  have valueN := ofInt_valueOf sgn (BitVec.ofNat w n)
  rw [BitVec.toNat_ofNat, Nat.mod_eq_of_lt fitsM] at valueM
  rw [BitVec.toNat_ofNat, Nat.mod_eq_of_lt fitsN] at valueN
  rw [wrap_eq_ofInt, BitVec.ofInt_add, valueM, valueN]
  simp

/-- The integer operations of atomics are modulo 2^w (R336). -/
theorem atomNew_integer (aty : AType) (old x c : Nat) (int : aty.float = false) (fits : old < 2 ^ aty.width)
    (fitsX : x < 2 ^ aty.width) :
    let v (n : Nat) : Int := valueOf (atypeSigned aty) aty.width n
    atomNew aty .add old (x, c) = some ((old + x) % 2 ^ aty.width) ∧
    atomNew aty .min old (x, c) = some (if v old ≤ v x then old else x) ∧
    atomNew aty .max old (x, c) = some (if v old ≤ v x then x else old) := by
  have back := wrap_valueOf (atypeSigned aty) aty.width fits
  have backX := wrap_valueOf (atypeSigned aty) aty.width fitsX
  refine ⟨?_, ?_, ?_⟩
  · simp only [atomNew, int, if_neg Bool.false_ne_true, fAdd, wrap_valueOf_add _ _ fits fitsX]
  · simp only [atomNew, int, if_neg Bool.false_ne_true, fMin, apply_ite (wrap aty.width), back, backX]
  · simp only [atomNew, int, if_neg Bool.false_ne_true, fMax, apply_ite (wrap aty.width), back, backX]

theorem atype_width (aty : AType) : aty.width = 32 * (aty.width / 32) := by
  cases aty <;> rfl

/-- What an atomic returns to its lane is the run of its old values (R335). -/
theorem putData_lane? (s : State) (g : GRef) (lane : Nat) (d : Reg) (aty : AType) (len : Nat) (sgn : Bool) (n : Nat) :
    (putData s g lane d false (aty.width * len) sgn n).lane? g lane =
      (s.lane? g lane).map fun t => t.setRun d.toNat ((aty.width * len + 31) / 32) n := by
  rw [putData, if_neg Bool.false_ne_true, State.lane?_modLane, atype_width aty, Nat.mul_assoc]
  simp only [Thread.setRun_whole]

/-- What is written to registers leaves the bytes of every place. -/
theorem Place.read_putData (p : Place) (s : State) (g : GRef) (lane : Nat) (d : Reg) (x : Bool) (w : Nat) (sgn : Bool) (v off n : Nat) :
    p.read (putData s g lane d x w sgn v) off n = p.read s off n := by
  cases p with
  | mem key e cls => exact congrArg (memRead · _ _) (putData_mem ..)
  | view team o =>
    have scratch : ((putData s g lane d x w sgn v).team? team).map Team.scratch = (s.team? team).map Team.scratch := by
      unfold putData
      split
      · exact State.team?_map_modGroup s g _ team Team.scratch fun _ _ => rfl
      · exact State.team?_map_modGroup s g _ team Team.scratch fun _ _ => rfl
    rw [Place.read, scratch, Place.read]

/-- An atomic at a home leaves every byte of memory outside its elements. -/
theorem atomAt_memGet (key e cls : Nat) (aty : AType) (aop : AOp) (xs : List (Nat × Nat)) (off : Nat) (s : State) (a : Nat)
    (outside : a < key + off ∨ key + off + aty.width / 8 * xs.length ≤ a) :
    memGet (atomAt (.mem key e cls) aty aop xs off s).2.mem a = memGet s.mem a := by
  induction xs generalizing off s with
  | nil => rfl
  | cons x xs ih =>
    rw [List.length_cons, Nat.mul_succ] at outside
    rw [(atomAt_cons ..).2, ih _ _ (by omega), elemStep]
    split
    · rw [Place.write_mem]
      exact memGet_memWrite_other (by rw [length_toBytes]; omega)
    · rw [((Place.mem key e cls).touch_beside s).2.1]

/-- Settles O17: an atomic is its elements one after the other, each of which reads what stood before at its place. -/
theorem atomicResult : Obligations.AtomicResult := by
  unfold Obligations.AtomicResult
  refine ⟨fun w q p seen s u aty aop xs ret x d => ?_, fun aty old x c int fits fitsX => ?_⟩
  · intro k old kind bytes does
    obtain ⟨base, same, there, found, after⟩ := does.writes (by rw [kind]; rfl)
    rw [kind] at after
    have old_eq (j : Nat) (inside : j < xs.length) : oldElem p aty base (0 + aty.width / 8 * j) = old j := by
      have part : k * j + k ≤ q.n := by
        rw [bytes, ← Nat.mul_succ]
        exact Nat.mul_le_mul_left k inside
      rw [oldElem, Nat.zero_add, ← p.read_part base part, ← found]
    have done : performAt p base w.g q.lane (.atom aty aop xs ret d x) = if ret then
        putData (atomAt p aty aop xs 0 base).2 w.g q.lane d x (aty.width * xs.length) (atypeSigned aty)
          (packElems aty.width (atomAt p aty aop xs 0 base).1) else (atomAt p aty aop xs 0 base).2 := rfl
    have read (off n : Nat) : p.read u off n = p.read (atomAt p aty aop xs 0 base).2 off n := by
      rw [p.read_beside _ after, done]
      split
      · exact p.read_putData ..
      · rfl
    have mem : u.mem = (atomAt p aty aop xs 0 base).2.mem := by
      rw [after.2.1, done]
      split
      · exact putData_mem ..
      · rfl
    refine ⟨fun j v elem => ?_, fun returns lanes => ?_, fun silent => ?_, fun h other => ?_, ?_⟩
    · have inside := (List.getElem?_eq_some_iff.1 elem).1
      have new := atomAt_read p aty aop xs 0 base there elem
      rw [old_eq j inside, Nat.zero_add] at new
      rw [read]
      exact new
    · have olds : (atomAt p aty aop xs 0 base).1 = (List.range xs.length).map old := by
        rw [atomAt_old]
        exact List.map_congr_left fun j inside => old_eq j (List.mem_range.1 inside)
      rw [State.lane?_congr after.1, done, if_pos returns, lanes, putData_lane?, olds, State.lane?, atomAt_group?,
        State.group?_congr same.1, State.lane?]
    · rw [State.group?_congr after.1, done, if_neg (by simp [silent]), atomAt_group?, State.group?_congr same.1]
    · rw [State.group?_congr after.1, done]
      split
      · rw [putData_others _ _ _ _ _ _ _ _ _ other, atomAt_group?, State.group?_congr same.1]
      · rw [atomAt_group?, State.group?_congr same.1]
    · cases p with
      | mem key e cls =>
        intro a outside
        rw [mem, atomAt_memGet _ _ _ _ _ _ _ _ _ (by rw [bytes] at outside; omega), same.2.1]
      | view team o =>
        intro a
        rw [mem, atomAt_mem, same.2.1]
  · obtain ⟨add, min, max⟩ := atomNew_integer aty old x c int fits fitsX
    exact ⟨add, min, max, rfl, rfl, rfl, rfl, rfl⟩

end Sys2Proof.Machine
end

section
/-! SUPPORT. The write log of a transaction, and the bytes of a run of registers (R12, R301, R303). -/

namespace Sys2Proof.Machine

/-! Bytes of numbers. -/

theorem bit_eq_testBit (n i : Nat) : bit n i = n.testBit i := by
  rw [bit, Nat.testBit_eq_decide_div_mod_eq]
  rfl

/-- A byte of a number replaced. -/
def splice (n p b : Nat) : Nat := n - n / 2 ^ p % 256 * 2 ^ p + b * 2 ^ p

theorem splice_eq (n p b : Nat) : splice n p b = n % 2 ^ p + 2 ^ p * (b + 256 * (n / 2 ^ (p + 8))) := by
  have parts : n = n % 2 ^ p + 2 ^ p * (n / 2 ^ p % 256 + 256 * (n / 2 ^ (p + 8))) := by
    rw [Nat.pow_add, ← Nat.div_div_eq_div_mul, Nat.mod_add_div, Nat.mod_add_div]
  unfold splice
  generalize n / 2 ^ p % 256 = f at parts ⊢
  generalize n / 2 ^ (p + 8) = h at parts ⊢
  generalize n % 2 ^ p = r at parts ⊢
  rw [parts, Nat.mul_add, Nat.mul_add, Nat.mul_comm f]
  have : b * 2 ^ p = 2 ^ p * b := Nat.mul_comm ..
  omega

theorem splice_same (n p : Nat) {b : Nat} (byte : b < 256) : splice n p b / 2 ^ p % 2 ^ 8 = b := by
  rw [splice_eq, Nat.add_mul_div_left _ _ (Nat.two_pow_pos p), Nat.div_eq_of_lt (Nat.mod_lt _ (Nat.two_pow_pos p))]
  omega

theorem splice_above (n : Nat) {p q b : Nat} (byte : b < 256) (apart : p + 8 ≤ q) : splice n p b / 2 ^ q = n / 2 ^ q := by
  have next : splice n p b / 2 ^ (p + 8) = n / 2 ^ (p + 8) := by
    rw [splice_eq, Nat.pow_add 2 p, ← Nat.div_div_eq_div_mul, Nat.add_mul_div_left _ _ (Nat.two_pow_pos p),
      Nat.div_eq_of_lt (Nat.mod_lt _ (Nat.two_pow_pos p))]
    omega
  obtain ⟨k, rfl⟩ := Nat.exists_eq_add_of_le apart
  rw [Nat.pow_add, ← Nat.div_div_eq_div_mul, next, Nat.div_div_eq_div_mul]

/-- The bits below `q` are those of the number modulo 2^q. -/
theorem mod_div_mod (n : Nat) {p k q : Nat} (below : p + k ≤ q) : n % 2 ^ q / 2 ^ p % 2 ^ k = n / 2 ^ p % 2 ^ k := by
  obtain ⟨r, rfl⟩ := Nat.exists_eq_add_of_le below
  rw [Nat.add_assoc, Nat.pow_add, Nat.mod_mul_right_div_self, Nat.mod_mod_of_dvd _ (Nat.pow_dvd_pow 2 (Nat.le_add_right k r))]

theorem splice_below (n : Nat) {p q b : Nat} (apart : q + 8 ≤ p) : splice n p b / 2 ^ q % 2 ^ 8 = n / 2 ^ q % 2 ^ 8 := by
  have low : splice n p b % 2 ^ p = n % 2 ^ p := by
    rw [splice_eq, Nat.add_mul_mod_self_left, Nat.mod_mod]
  rw [← mod_div_mod _ apart, low, mod_div_mod _ apart]

theorem splice_lt {n p b w : Nat} (byte : b < 256) (fits : n < 2 ^ w) (inside : p + 8 ≤ w) : splice n p b < 2 ^ w := by
  have above := splice_above n byte inside
  rw [Nat.div_eq_of_lt fits] at above
  exact (Nat.div_eq_zero_iff_lt (Nat.two_pow_pos w)).1 above

/-! The write log. -/

/-- A byte that an entry holds. -/
def WrEnt.byte (e : WrEnt) (i : Nat) : Option Byte :=
  if bit e.mask.toNat i then some (BitVec.ofNat 8 (field e.data.toNat (8 * i) 8)) else none

/-- A byte that a write log holds. -/
def heldByte (wr : List WrEnt) (k : Nat) : Option Byte := (wr.find? fun e => e.key == k / 8 * 8).bind fun e => e.byte (k % 8)

theorem buffered_eq (x : Tx) (k : Nat) : x.buffered k = heldByte x.wr k := by
  unfold Tx.buffered Tx.wrOf heldByte
  cases x.wr.find? _ <;> rfl

theorem WrEnt.byte_put (e : WrEnt) {i j : Nat} (b : Byte) (hi : i < 8) :
    (e.put i b).byte j = if j = i then some b else e.byte j := by
  have data : (e.put i b).data.toNat = splice e.data.toNat (8 * i) b.toNat :=
    Nat.mod_eq_of_lt (splice_lt b.isLt e.data.isLt (by omega))
  have mask : bit (e.put i b).mask.toNat j = (bit e.mask.toNat j || decide (i = j)) := by
    have : 2 ^ i < 2 ^ 8 := Nat.pow_lt_pow_right (by decide) hi
    simp only [WrEnt.put, bit_eq_testBit, BitVec.toNat_or, BitVec.toNat_ofNat, Nat.mod_eq_of_lt this, Nat.testBit_or,
      Nat.testBit_two_pow]
  unfold WrEnt.byte field
  rw [data, mask]
  by_cases same : j = i
  · subst same
    rw [splice_same _ _ b.isLt]
    simp
  · rw [if_neg same, decide_eq_false (Ne.symm same), Bool.or_false]
    rcases Nat.lt_or_gt_of_ne same with below | above
    · rw [splice_below _ (by omega)]
    · rw [splice_above _ b.isLt (by omega)]

theorem WrEnt.byte_fresh (w e : Nat) (asid : BitVec 12) (cls : Nat) (lu : Bool) (j : Nat) :
    (⟨w, e, asid, 0, 0, cls, lu⟩ : WrEnt).byte j = none := by
  simp [WrEnt.byte, bit]

theorem heldByte_bufferByte (wr : List WrEnt) (k e : Nat) (asid : BitVec 12) (cls : Nat) (lu : Bool) (b : Byte) (a : Nat) :
    heldByte (bufferByte wr k e asid cls lu b) a = if a = k then some b else heldByte wr a := by
  have lanes (i : Nat) : i % 8 < 8 := Nat.mod_lt _ (by decide)
  unfold bufferByte heldByte
  dsimp only
  split
  next present =>
    rw [List.find?_map]
    have keys : ((fun x : WrEnt => x.key == a / 8 * 8) ∘
        fun x : WrEnt => if x.key = k / 8 * 8 then { x.put (k % 8) b with cls := cls, lu := lu } else x) =
        fun x => x.key == a / 8 * 8 := by
      funext x
      dsimp only [Function.comp]
      split <;> rfl
    rw [keys]
    cases found : wr.find? fun x => x.key == a / 8 * 8 with
    | none =>
      have apart : a ≠ k := by
        rintro rfl
        have none_of := List.find?_eq_none.1 found
        obtain ⟨x, mem, is⟩ := List.any_eq_true.1 present
        exact none_of x mem is
      rw [if_neg apart]
      rfl
    | some x =>
      have word : x.key = a / 8 * 8 := by simpa using List.find?_some found
      simp only [Option.map_some, Option.bind_some, word]
      split
      next same =>
        refine (WrEnt.byte_put x b (lanes k)).trans ?_
        exact if_congr (by omega) rfl rfl
      next apart => rw [if_neg (fun same => apart (by rw [same]))]
  next absent =>
    have none_of : ∀ x ∈ wr, ¬(x.key == k / 8 * 8) = true := by simpa using absent
    have one (y : WrEnt) (p : WrEnt → Bool) : [y].find? p = if p y then some y else none := by
      rw [List.find?_singleton]
    rw [List.find?_append, one, show ∀ (y : WrEnt), (y.put (k % 8) b).key = y.key from fun _ => rfl]
    by_cases same : k / 8 * 8 = a / 8 * 8
    · have missing : (wr.find? fun x => x.key == a / 8 * 8) = none := List.find?_eq_none.2 (same ▸ none_of)
      simp only [missing, same, BEq.rfl, if_true, Option.none_or, Option.bind_some, Option.bind_none]
      rw [WrEnt.byte_put _ b (lanes k), WrEnt.byte_fresh]
      exact if_congr (by omega) rfl rfl
    · have apart : a ≠ k := fun eq => same (by rw [eq])
      simp only [beq_eq_false_iff_ne.2 same, if_neg Bool.false_ne_true, Option.or_none, if_neg apart]

/-- Bytes buffered stand in the log, over which every other byte stands as before (R301). -/
theorem heldByte_bufferBytes (wr : List WrEnt) (key e : Nat) (asid : BitVec 12) (cls : Nat) (lu : Bool) (bs : List Byte) (a : Nat) :
    heldByte (bufferBytes wr key e asid cls lu bs) a =
      if key ≤ a ∧ a < key + bs.length then some (bs.getD (a - key) 0) else heldByte wr a := by
  have upTo (n : Nat) : heldByte ((List.range n).foldl (fun x i => bufferByte x (key + i) e asid cls lu (bs.getD i 0#8)) wr) a =
      if key ≤ a ∧ a < key + n then some (bs.getD (a - key) 0) else heldByte wr a := by
    induction n with
    | zero => rw [if_neg (by omega)]; rfl
    | succ n ih =>
      rw [List.range_succ, List.foldl_append, List.foldl_cons, List.foldl_nil, heldByte_bufferByte, ih]
      by_cases here : a = key + n
      · rw [if_pos here, if_pos (by omega), here, Nat.add_sub_cancel_left]
        rfl
      · rw [if_neg here]
        exact if_congr (by omega) rfl rfl
  exact upTo bs.length

/-! Runs of registers. -/

theorem Thread.getV_setRun (t : Thread) (r n x : Nat) {j : Nat} (inside : j < n) :
    (t.setRun r n x).getV (r + j) = BitVec.ofNat 32 (x / 2 ^ (32 * j)) := by
  induction n generalizing t r x j with
  | zero => omega
  | succ n ih =>
    rw [Thread.setRun]
    cases j with
    | zero =>
      rw [Thread.getV_setRun_other _ _ (by omega), Nat.add_zero, Thread.getV_setV, if_pos rfl]
      simp
    | succ j =>
      rw [← Nat.add_assoc, Nat.add_right_comm, ih _ _ _ (by omega), Nat.div_div_eq_div_mul, ← Nat.pow_add]
      congr 3
      omega

theorem Thread.getV_setP (t : Thread) (r : Nat) (b : Bool) (q : Nat) : (t.setP r b).getV q = t.getV q := by
  unfold Thread.setP
  split <;> rfl

theorem Thread.setRun_tx (t : Thread) (y : Option Tx) (r n x : Nat) :
    ({ t with tx := y } : Thread).setRun r n x = { t.setRun r n x with tx := y } := by
  induction n generalizing t r x with
  | zero => rfl
  | succ n ih => exact ih (t.setV r (BitVec.ofNat 32 x)) (r + 1) (x / 2 ^ 32)

theorem byte_ofBytes (bs : List Byte) (i : Nat) : BitVec.ofNat 8 (ofBytes bs / 2 ^ (8 * i)) = bs.getD i 0 := by
  induction bs generalizing i with
  | nil => simp [ofBytes]
  | cons b rest ih =>
    have here := b.isLt
    cases i with
    | zero =>
      apply BitVec.eq_of_toNat_eq
      simp only [ofBytes, BitVec.toNat_ofNat, List.getD_cons_zero]
      omega
    | succ i =>
      have below : (b.toNat + 256 * ofBytes rest) / 2 ^ 8 = ofBytes rest := by omega
      rw [ofBytes, Nat.mul_succ, Nat.add_comm (8 * i), Nat.pow_add, ← Nat.div_div_eq_div_mul, below, ih, List.getD_cons_succ]

/-- An extended number has the bits that it had. -/
theorem extend_mod {w v : Nat} (wider : w ≤ v) (sgn : Bool) (n : Nat) : extend w v sgn n % 2 ^ w = n % 2 ^ w := by
  cases sgn with
  | false => exact Nat.mod_mod ..
  | true =>
    have signed : ((wrap v (toSigned w n) : Nat) : Int) % ((2 ^ w : Nat) : Int) = toSigned w n % ((2 ^ w : Nat) : Int) := by
      rw [wrap, Int.toNat_of_nonneg (Int.emod_nonneg _ (by simp)), Int.ofNat_eq_natCast,
        Int.emod_emod_of_dvd _ (Int.natCast_dvd_natCast.2 (Nat.pow_dvd_pow 2 wider))]
    have back : toSigned w n % ((2 ^ w : Nat) : Int) = ((n % 2 ^ w : Nat) : Int) := by
      rw [← wrap_toSigned w n, wrap, Int.toNat_of_nonneg (Int.emod_nonneg _ (by simp)), Int.ofNat_eq_natCast]
    exact_mod_cast signed.trans back

end Sys2Proof.Machine
end

section
/-! PROOFS. The accesses of a lane in a logged transaction (R301 to R303). -/

namespace Sys2Proof.Machine

/-- A byte that a transactional read returns (R301). -/
def Tx.sees (x : Tx) (s : State) (a : Nat) : Byte := (x.buffered a).getD (memGet s.mem a)

/-- The old value of an element of a transactional atomic. -/
def Tx.oldElem (x : Tx) (s : State) (aty : AType) (key : Nat) : Nat :=
  ofBytes ((List.range (aty.width / 8)).map fun i => x.sees s (key + i))

/-- The transaction after an element (R303). -/
def Tx.elemStep (x : Tx) (s : State) (asid : BitVec 12) (aty : AType) (aop : AOp) (v : Nat × Nat) (key e : Nat) : Tx :=
  match atomNew aty aop (x.oldElem s aty key) v with
  | some n => { x with wr := bufferBytes x.wr key e asid (pteEvp e) false (toBytes (aty.width / 8) n) }
  | none => x

section
variable (s : State) (asid : BitVec 12) (aty : AType) (aop : AOp)

theorem txElems_cons (v : Nat × Nat) (vs : List (Nat × Nat)) (key e : Nat) (x : Tx) :
    txElems s asid aty aop (v :: vs) key e x =
      (x.oldElem s aty key :: (txElems s asid aty aop vs (key + aty.width / 8) e (x.elemStep s asid aty aop v key e)).1,
        (txElems s asid aty aop vs (key + aty.width / 8) e (x.elemStep s asid aty aop v key e)).2) := rfl

theorem Tx.buffered_elemStep (v : Nat × Nat) (key e : Nat) (x : Tx) (a : Nat) :
    (x.elemStep s asid aty aop v key e).buffered a =
      if key ≤ a ∧ a < key + aty.width / 8 then
        match atomNew aty aop (x.oldElem s aty key) v with
        | some n => some ((toBytes (aty.width / 8) n).getD (a - key) 0)
        | none => x.buffered a
      else x.buffered a := by
  unfold Tx.elemStep
  cases atomNew aty aop (x.oldElem s aty key) v with
  | some n =>
    rw [buffered_eq, heldByte_bufferBytes, length_toBytes, buffered_eq]
  | none => exact (ite_self _).symm

/-- An element leaves what a later one reads. -/
theorem Tx.oldElem_elemStep (v : Nat × Nat) (key e : Nat) (x : Tx) {later : Nat} (apart : key + aty.width / 8 ≤ later) :
    (x.elemStep s asid aty aop v key e).oldElem s aty later = x.oldElem s aty later := by
  unfold Tx.oldElem Tx.sees
  refine congrArg ofBytes (List.map_congr_left fun i _ => ?_)
  rw [Tx.buffered_elemStep, if_neg (by omega)]

theorem txElems_old (vs : List (Nat × Nat)) (key e : Nat) (x : Tx) : (txElems s asid aty aop vs key e x).1 =
    (List.range vs.length).map fun j => x.oldElem s aty (key + aty.width / 8 * j) := by
  induction vs generalizing key x with
  | nil => rfl
  | cons v vs ih =>
    rw [txElems_cons, ih, List.length_cons, List.range_succ_eq_map, List.map_cons, List.map_map]
    refine congrArg₂ _ rfl (List.map_congr_left fun j _ => ?_)
    rw [Tx.oldElem_elemStep _ _ _ _ _ _ _ _ (by omega), Function.comp, Nat.mul_succ]
    congr 1
    omega

theorem txElems_outside (vs : List (Nat × Nat)) (key e : Nat) (x : Tx) {a : Nat}
    (outside : a < key ∨ key + aty.width / 8 * vs.length ≤ a) :
    heldByte (txElems s asid aty aop vs key e x).2 a = x.buffered a := by
  induction vs generalizing key x with
  | nil => exact (buffered_eq x a).symm
  | cons v vs ih =>
    rw [List.length_cons, Nat.mul_succ] at outside
    rw [txElems_cons]
    exact (ih _ _ (by omega)).trans ((Tx.buffered_elemStep ..).trans (if_neg (by omega)))

theorem txElems_inside (vs : List (Nat × Nat)) (key e : Nat) (x : Tx) {j : Nat} {v : Nat × Nat} (elem : vs[j]? = some v) {i : Nat}
    (inside : i < aty.width / 8) : heldByte (txElems s asid aty aop vs key e x).2 (key + aty.width / 8 * j + i) =
      match atomNew aty aop (x.oldElem s aty (key + aty.width / 8 * j)) v with
      | some n => some ((toBytes (aty.width / 8) n).getD i 0)
      | none => x.buffered (key + aty.width / 8 * j + i) := by
  induction vs generalizing key x j with
  | nil => simp at elem
  | cons y vs ih =>
    rw [txElems_cons]
    cases j with
    | zero =>
      obtain rfl : y = v := by simpa using elem
      refine (txElems_outside _ _ _ _ _ _ _ _ (by omega)).trans ?_
      rw [Tx.buffered_elemStep, if_pos (by omega), Nat.mul_zero, Nat.add_zero, Nat.add_sub_cancel_left]
    | succ j =>
      have place : key + aty.width / 8 * (j + 1) = key + aty.width / 8 + aty.width / 8 * j := by
        rw [Nat.mul_succ]
        omega
      have later := ih (key + aty.width / 8) (x.elemStep s asid aty aop y key e) elem
      rw [Tx.oldElem_elemStep _ _ _ _ _ _ _ _ (by omega), Tx.buffered_elemStep, if_neg (by omega)] at later
      rw [place]
      exact later

end

/-- A thread whose logs are as an access leaves them. -/
def Thread.relog (x : Tx) (rd : List RdEnt) (wr : List WrEnt) (t : Thread) : Thread :=
  { t with tx := some { x with rd := x.rd ++ rd, wr := wr } }

/-- The old values of an access and the write log after it (R303). -/
def txWrites (w : Wd) (q : Req) (s : State) (x : Tx) (key e : Nat) : List Nat × List WrEnt :=
  match q.kind with
  | .load _ _ _ _ => ([], x.wr)
  | .store bs => ([], bufferBytes x.wr key e w.gr.ctl.asid (if q.lu && !isLoad q.kind then 1 else classOf q.evp e) q.lu bs)
  | .unit _ => ([], x.wr)
  | .atom aty aop es _ _ _ => txElems s w.gr.ctl.asid aty aop es key e x

/-- What an access returns to its lane (R301, R303). -/
def txReturns (w : Wd) (q : Req) (s : State) (x : Tx) (key e : Nat) (t : State) : State :=
  match q.kind with
  | .load d _ sz pd => putLoad t w.g q.lane d false sz pd false (ofBytes (x.bytes s key q.n))
  | .store _ => t
  | .unit _ => t
  | .atom aty _ es ret d _ =>
    if ret then putData t w.g q.lane d false (aty.width * es.length) (atypeSigned aty)
      (packElems aty.width (txWrites w q s x key e).1) else t

/-- An access that reads. -/
def Req.reads (q : Req) : Bool :=
  match q.kind with
  | .store _ => false
  | _ => true

/-- The words of which a transactional access takes some byte from memory, and those that it logs (R301). -/
def txFetched (q : Req) (x : Tx) (key : Nat) : List Nat := if q.reads then x.fromMemory key q.n else []
def txLogged (q : Req) (x : Tx) (key : Nat) : List Nat := if q.reads then x.newReads key q.n else []

/-- The state in which the logs of an access are written: its reads have touched the caches (R232, R239). -/
def txBase (q : Req) (s : State) (x : Tx) (key e : Nat) : State :=
  let s0 := if txFetched q x key = [] then s
    else touchRead s key e (if q.lu && !isLoad q.kind then 1 else classOf q.evp e)
  if isLoad q.kind && q.lu && txFetched q x key != [] then lastUse s0 key else s0

/-- The read entries that an access adds. -/
def txEntries (w : Wd) (q : Req) (s : State) (x : Tx) (key e : Nat) : List RdEnt :=
  readEntries (if txFetched q x key = [] then s else touchRead s key e (if q.lu && !isLoad q.kind then 1 else classOf q.evp e))
    e w.gr.ctl.asid (txLogged q x key)

theorem txAt_eq (w : Wd) (q : Req) (s : State) (x : Tx) (key e : Nat) : txAt w q s x key e =
    if txFetched q x key ≠ [] ∧ isLocked s key then .wait s (.locked (lineOf key))
    else if txFetched q x key ≠ [] ∧ !hasRoom s key e then .bad s 0 0 q.va
    else if txFetched q x key ≠ [] ∧ (olderAcc s w.g (sectorOf key)).isSome then
      .wait s (.access ((olderAcc s w.g (sectorOf key)).getD 0))
    else if txFetched q x key ≠ [] ∧ inError s key then .bad (logConsumed s key w.gr.ctl.asid.toNat) cDATA_ERROR 0 q.va
    else if 16 < x.rd.length + (txLogged q x key).length then .abort s 4 0
    else if 8 < (txWrites w q s x key e).2.length then .abort s 5 0
    else .ok (txReturns w q s x key e ((txBase q s x key e).modLane w.g q.lane
      (Thread.relog x (txEntries w q s x key e) (txWrites w q s x key e).2))) := rfl

/-- A transactional access that passes: the logs have room, its thread has them, and its lane has what it returns. -/
theorem txAt_ok {w : Wd} {q : Req} {s u : State} {x : Tx} {key e : Nat} (passes : txAt w q s x key e = .ok u) :
    x.rd.length + (txLogged q x key).length ≤ 16 ∧ (txWrites w q s x key e).2.length ≤ 8 ∧
    u = txReturns w q s x key e ((txBase q s x key e).modLane w.g q.lane
      (Thread.relog x (txEntries w q s x key e) (txWrites w q s x key e).2)) := by
  rw [txAt_eq] at passes
  split_ifs at passes with _ _ _ _ roomR roomW
  exact ⟨Nat.le_of_not_lt roomR, Nat.le_of_not_lt roomW, (LaneOut.ok.inj passes).symm⟩

theorem txBase_teams (q : Req) (s : State) (x : Tx) (key e : Nat) : (txBase q s x key e).teams = s.teams := by
  unfold txBase
  dsimp only
  split
  · rw [lastUse_teams]
    split <;> simp
  · split <;> simp

theorem txBase_mem (q : Req) (s : State) (x : Tx) (key e : Nat) (plain : q.lu = false ∨ isLoad q.kind = false) :
    (txBase q s x key e).mem = s.mem := by
  have unused : (isLoad q.kind && q.lu) = false := by
    rcases plain with h | h <;> simp [h]
  unfold txBase
  dsimp only
  rw [unused, Bool.false_and, if_neg Bool.false_ne_true]
  split <;> simp

theorem txReturns_mem (w : Wd) (q : Req) (s : State) (x : Tx) (key e : Nat) (t : State) : (txReturns w q s x key e t).mem = t.mem := by
  unfold txReturns
  split
  · simp
  · rfl
  · rfl
  · split <;> simp

/-- What an access returns goes to its lane. -/
def Thread.txReturns (w : Wd) (q : Req) (s : State) (x : Tx) (key e : Nat) (t : Thread) : Thread :=
  match q.kind with
  | .load d _ sz pd => loadedLane d sz pd false (ofBytes (x.bytes s key q.n)) t
  | .store _ => t
  | .unit _ => t
  | .atom aty _ es ret d _ =>
    if ret then t.setRun d.toNat ((aty.width * es.length + 31) / 32) (packElems aty.width (txWrites w q s x key e).1) else t

theorem State.modLane_modLane (s : State) (g : GRef) (l : Nat) (f h : Thread → Thread) :
    (s.modLane g l f).modLane g l h = s.modLane g l fun t => h (f t) := by
  simp only [State.modLane, modGroup_modGroup, Group.modLane, modNth_modNth]

theorem putLoad_eq_modLane (s : State) (g : GRef) (l : Nat) (d : Reg) (sz : Sz) (pd : Option (BitVec 3)) (absent : Bool) (n : Nat) :
    putLoad s g l d false sz pd absent n = s.modLane g l (loadedLane d sz pd absent n) := by
  cases pd with
  | none => rfl
  | some p => exact State.modLane_modLane ..

theorem txReturns_eq (w : Wd) (q : Req) (s : State) (x : Tx) (key e : Nat) (t : State) (f : Thread → Thread) :
    txReturns w q s x key e (t.modLane w.g q.lane f) =
      t.modLane w.g q.lane fun u => Thread.txReturns w q s x key e (f u) := by
  unfold txReturns Thread.txReturns
  cases q.kind with
  | load d _ sz pd => exact (putLoad_eq_modLane ..).trans (State.modLane_modLane ..)
  | store bs => rfl
  | unit ps => rfl
  | atom aty aop es ret d _ =>
    cases ret with
    | false => rfl
    | true =>
      simp only [if_true, putData, if_neg Bool.false_ne_true, State.modLane_modLane]
      rw [atype_width aty, Nat.mul_assoc]
      simp only [Thread.setRun_whole]

theorem loadedLane_tx (d : Reg) (sz : Sz) (pd : Option (BitVec 3)) (absent : Bool) (n : Nat) (t : Thread) :
    (loadedLane d sz pd absent n t).tx = t.tx := by
  have run (r k v : Nat) : (t.setRun r k v).tx = t.tx := by
    obtain ⟨v, same⟩ := Thread.setRun_sameButV t r k v
    rw [same]
  cases pd with
  | none => exact run ..
  | some p =>
    obtain ⟨_, _, same⟩ := Thread.setP_sameButPreds (t.setRun d.toNat ((8 * sz.bytes + 31) / 32)
      (extend (8 * sz.bytes) (runWidth (8 * sz.bytes)) (szSigned sz) n)) p.toNat absent
    exact (congrArg Thread.tx same).trans (run ..)

theorem Thread.txReturns_tx (w : Wd) (q : Req) (s : State) (x : Tx) (key e : Nat) (t : Thread) :
    (Thread.txReturns w q s x key e t).tx = t.tx := by
  unfold Thread.txReturns
  split
  · exact loadedLane_tx ..
  · rfl
  · rfl
  · split
    · obtain ⟨v, same⟩ := Thread.setRun_sameButV t _ _ _
      rw [same]
    · rfl

theorem loadedLane_getV (d : Reg) (sz : Sz) (pd : Option (BitVec 3)) (absent : Bool) (n : Nat) (t : Thread) {i : Nat}
    (inside : i < sz.bytes) :
    BitVec.ofNat 8 (((loadedLane d sz pd absent n t).getV (d.toNat + i / 4)).toNat / 2 ^ (8 * (i % 4))) =
      BitVec.ofNat 8 (n / 2 ^ (8 * i)) := by
  have reg : (loadedLane d sz pd absent n t).getV (d.toNat + i / 4) =
      BitVec.ofNat 32 (extend (8 * sz.bytes) (runWidth (8 * sz.bytes)) (szSigned sz) n / 2 ^ (32 * (i / 4))) := by
    have run := Thread.getV_setRun t d.toNat ((8 * sz.bytes + 31) / 32)
      (extend (8 * sz.bytes) (runWidth (8 * sz.bytes)) (szSigned sz) n) (j := i / 4) (by omega)
    cases pd with
    | none => exact run
    | some p => exact (Thread.getV_setP ..).trans run
  have low := extend_mod (w := 8 * sz.bytes) (v := runWidth (8 * sz.bytes)) (by rw [runWidth]; omega) (szSigned sz) n
  have same_byte : extend (8 * sz.bytes) (runWidth (8 * sz.bytes)) (szSigned sz) n / 2 ^ (8 * i) % 2 ^ 8 = n / 2 ^ (8 * i) % 2 ^ 8 := by
    rw [← mod_div_mod _ (show 8 * i + 8 ≤ 8 * sz.bytes by omega), low, mod_div_mod _ (by omega)]
  have place : 8 * i = 32 * (i / 4) + 8 * (i % 4) := by omega
  apply BitVec.eq_of_toNat_eq
  rw [reg, BitVec.toNat_ofNat, BitVec.toNat_ofNat, BitVec.toNat_ofNat, mod_div_mod _ (by omega), Nat.div_div_eq_div_mul, ← Nat.pow_add,
    ← place, same_byte]

/-- Settles O18: the logs and the returned value of an access that `txAt` lets through. -/
theorem transactionalAccess : Obligations.TransactionalAccess := by
  unfold Obligations.TransactionalAccess
  intro w q s u t x logged lane tx
  obtain ⟨t', x', key, e, s1, lane', tx', -, -, -, -, looked, passes⟩ := logged
  obtain rfl := Option.some.inj (lane.symm.trans lane')
  obtain rfl := Option.some.inj (tx.symm.trans tx')
  have same := xlate_beside s w.t.core w.gr.ctl.asid.toNat w.gr.ctl.priv (needOf q.kind) q.va.toNat
  rw [looked] at same
  obtain ⟨roomR, roomW, rfl⟩ := txAt_ok passes
  rw [txReturns_eq]
  have teams : (txBase q s1 x key e).teams = s.teams := (txBase_teams ..).trans same.1
  have seen (a : Nat) : x.sees s1 a = (x.buffered a).getD (memGet s.mem a) := by rw [Tx.sees, same.2.1]
  refine ⟨fun plain => ?_, fun h other => ?_, fun l other => ?_,
    Thread.txReturns w q s1 x key e (t.relog x (txEntries w q s1 x key e) (txWrites w q s1 x key e).2), _, ?_,
    Thread.txReturns_tx .., rfl, rfl, ?_, roomW, key, e, s1, looked, fun d sz pd kind bytes => ?_, fun bs kind bytes => ?_,
    fun aty aop xs ret d kind bytes => ?_⟩
  · rw [State.modLane, State.modGroup_mem, txBase_mem q s1 x key e plain, same.2.1]
  · rw [State.modLane, State.group?_modGroup_other _ _ other, State.group?_congr teams]
  · rw [State.modLane, State.lane?_modGroup, State.group?_congr teams, State.lane?]
    cases s.group? w.g with
    | none => rfl
    | some gr => exact (Group.lane?_modLane ..).trans (if_neg other)
  · rw [State.lane?_modLane, State.lane?_congr teams, lane]
    rfl
  · simpa [txEntries, readEntries] using roomR
  · have read : (ofBytes (x.bytes s1 key q.n)) = ofBytes ((List.range sz.bytes).map fun i => x.sees s1 (key + i)) := by
      rw [bytes]
      rfl
    simp only [Thread.txReturns, txWrites, kind]
    refine ⟨trivial, fun i inside => ?_⟩
    rw [loadedLane_getV _ _ _ _ _ _ inside, read, byte_ofBytes, ← seen]
    simp [inside]
  · simp only [Thread.txReturns, txWrites, kind]
    refine ⟨?_, ?_, fun a => ?_⟩
    · simp [txEntries, txLogged, Req.reads, kind, readEntries]
    · rfl
    · rw [buffered_eq, heldByte_bufferBytes, buffered_eq]
  · simp only [Thread.txReturns, txWrites, kind]
    have old (j : Nat) : x.oldElem s1 aty (key + aty.width / 8 * j) = ofBytes ((List.range (aty.width / 8)).map fun i =>
        (x.buffered (key + aty.width / 8 * j + i)).getD (memGet s.mem (key + aty.width / 8 * j + i))) := by
      simp only [Tx.oldElem, seen]
    refine ⟨fun j v i elem inside => ?_, fun a outside => ?_, ?_⟩
    · rw [buffered_eq, txElems_inside _ _ _ _ _ _ _ _ elem inside, old] <;> rfl
    · rw [buffered_eq]
      exact txElems_outside _ _ _ _ _ _ _ _ (by rwa [bytes] at outside)
    · cases ret with
      | false => rfl
      | true =>
        rw [txElems_old]
        simp only [old, if_true]
        exact Thread.setRun_tx ..

end Sys2Proof.Machine
end

section
/-! PROOFS. The settlement of a stake (R188, R191). -/

namespace Sys2Proof.Machine

section
variable (s : State) (core slot : Nat)

theorem State.core_modCore (c k : Nat) (f : Core → Core) : (s.modCore c f).core k = if k = c then f (s.core k) else s.core k := by
  rw [State.core, State.modCore, State.setCores_cores, amGetD, amGet_amPut]
  split
  next same => rw [same]; rfl
  next apart => rfl

theorem stakeSlot_putStake (x : StakeSlot) (c k : Nat) :
    stakeSlot (putStake s core slot x) c k = if c = core ∧ k = slot then x else stakeSlot s c k := by
  rw [stakeSlot, putStake, State.core_modCore]
  by_cases same : c = core
  · subst same
    rw [if_pos rfl, amGetD, amGet_amPut]
    by_cases here : k = slot
    · rw [if_pos here, if_pos ⟨rfl, here⟩]
      rfl
    · rw [if_neg here, if_neg (fun both => here both.2)]
      rfl
  · rw [if_neg same, if_neg (fun both => same both.1), stakeSlot]

@[simp] theorem stakeSlot_announce (st : StakeSt) (c k : Nat) : stakeSlot (announce s core slot st) c k = stakeSlot s c k := by
  unfold announce
  split <;> rfl

@[simp] theorem announce_teams (st : StakeSt) : (announce s core slot st).teams = s.teams := by
  unfold announce
  split <;> rfl

@[simp] theorem announce_mem (st : StakeSt) : (announce s core slot st).mem = s.mem := by
  unfold announce
  split <;> rfl

@[simp] theorem putStake_beside (x : StakeSlot) : Beside s (putStake s core slot x) := ⟨rfl, rfl, rfl, rfl⟩

/-- Without waiters a settlement writes the entry, and the result core's as it was, and tells the peer. -/
theorem settle_alone {gen : Nat} {placed : Option (Nat × Nat)} {st : StakeSt}
    (pending : stakeSlot s core slot = ⟨gen, some (.resolution placed .pending [] false)⟩)
    (alone : ∀ rc rs, placed = some (rc, rs) → (stakeSlot s rc rs).use = some (.result core slot [])) :
    settle s core slot st =
      let s1 := putStake s core slot ⟨gen, some (.resolution placed st [] false)⟩
      announce (match placed with
        | some (rc, rs) => putStake s1 rc rs { stakeSlot s1 rc rs with use := some (.result core slot []) }
        | none => s1) core slot st := by
  cases placed with
  | none => simp [settle, settleStake, pending]
  | some at_ =>
    obtain ⟨rc, rs⟩ := at_
    simp [settle, settleStake, pending, alone rc rs rfl]

end

/-- Settles O27: the entry is written in place, and the result core's entry as it stood. -/
theorem stakeSettles : Obligations.StakeSettles := by
  unfold Obligations.StakeSettles
  intro s core slot gen placed st pending result
  rw [settle_alone s core slot pending fun rc rs at_ => (result rc rs at_).2]
  cases placed with
  | none =>
    refine ⟨?_, fun c k apart => ?_, ?_, ?_⟩
    · rw [stakeSlot_announce, stakeSlot_putStake, if_pos ⟨rfl, rfl⟩]
    · rw [stakeSlot_announce, stakeSlot_putStake, if_neg (by omega)]
    · simp
    · simp
  | some at_ =>
    obtain ⟨rc, rs⟩ := at_
    obtain ⟨elsewhere, use⟩ := result rc rs rfl
    have apart : ¬(rc = core ∧ rs = slot) := by simpa using elsewhere
    have kept : stakeSlot (putStake s core slot ⟨gen, some (.resolution (some (rc, rs)) st [] false)⟩) rc rs = stakeSlot s rc rs := by
      rw [stakeSlot_putStake, if_neg apart]
    refine ⟨?_, fun c k other => ?_, ?_, ?_⟩
    · rw [stakeSlot_announce, stakeSlot_putStake, if_neg (by omega), stakeSlot_putStake, if_pos ⟨rfl, rfl⟩]
    · rw [stakeSlot_announce, stakeSlot_putStake]
      split
      next here =>
        obtain ⟨rfl, rfl, rfl⟩ := here
        rw [kept, ← use]
      next there => rw [stakeSlot_putStake, if_neg (by omega)]
    · simp
    · simp

end Sys2Proof.Machine
end

section
/-! SUPPORT. The lanes of an issue, and the traps of words (R305, R325, R394). -/

namespace Sys2Proof.Machine

/-! The lanes of an issue. -/

section
variable {i : Instr} {s : State} {w : Wd}

theorem Issues.group (issues : Issues i s w) : w.s.group? w.g = some w.gr := (issueFrame i s w issues).2.2.1

theorem Issues.team (issues : Issues i s w) : w.s.team? w.g.team = some w.t := (issueFrame i s w issues).2.2.2.1

theorem Issues.acting_active (issues : Issues i s w) (plain : scalarMem i = false) : ∀ l ∈ w.acting, l ∈ w.active :=
  ((issueFrame i s w issues).2.2.2.2.2.2.1 plain).2

/-- The lanes that a counted issue leaves are lanes of the issue. -/
theorem countIssue_subset (s : State) (g : GRef) (active : List Nat) : ∀ l ∈ (countIssue s g active).2, l ∈ active := by
  unfold countIssue
  refine List.foldlRecOn (motive := fun acc : State × List Nat => ∀ l ∈ acc.2, l ∈ active) active _ (fun l mem => nomatch mem)
    fun acc within l inside => ?_
  have more : ∀ k ∈ acc.2 ++ [l], k ∈ active := fun k mem => by
    rcases List.mem_append.1 mem with old | new
    · exact within k old
    · exact List.mem_singleton.1 new ▸ inside
  split
  · split
    · split_ifs
      · exact more
      · exact within
      · exact more
    · exact more
  · exact more

theorem Issues.acting_lt (issues : Issues i s w) : ∀ l ∈ w.acting, l < 32 := by
  obtain ⟨c, t, gr0, gr, -, -, -, -, -, rfl⟩ := issues.parts
  intro l mem
  have among : l ∈ actingLanes gr i (countIssue (s.setCur none) c.g (lanesOf c.lanes)).2 := by
    dsimp only at mem
    split at mem
    · exact mem
    · exact (List.mem_filter.1 mem).1
  rw [actingLanes_eq_guarded] at among
  exact List.mem_range.1 (List.mem_filter.1 (countIssue_subset _ _ _ l (guarded_subset _ _ _ among))).1

end

/-! Traps. -/

/-- A trap is taken at once only where no lane is in a logged transaction. -/
theorem Takes.unlogged {s t : State} {g : GRef} {i : TrapInfo} (takes : Takes s g i t) {l : Nat} (lane : l < 32) :
    s.inLogged g l = false := by
  obtain ⟨_, _, _, _, _, _, _, _, _, _, none_, _⟩ := takes
  have not_in : l ∉ loggedLanes s g := by simp [none_]
  simpa [loggedLanes, lane] using not_in

/-- A whole-word trap that is taken at once. -/
theorem finish_trap_takes {w : Wd} {cause sub : Nat} {addr : W64} {t : State} (real : cause ≠ 0)
    (raiser : ∃ l ∈ w.acting, w.s.inLogged w.g l = false) (takes : Takes w.s w.g (wordTrap w cause sub addr) t) :
    finish w (Res.trap w.s cause sub addr w.acting) = t := by
  rw [finish_trap w w.s cause sub addr w.acting real (.inr raiser)]
  exact raiseTrap_takes takes

/-- A whole-word trap of lanes in logged transactions alone aborts them (R305). -/
theorem finish_trap_aborts {w : Wd} {cause sub : Nat} {addr : W64} (real : cause ≠ 0) (some_ : w.acting ≠ [])
    (logged : ∀ l ∈ w.acting, w.s.inLogged w.g l = true) : finish w (Res.trap w.s cause sub addr w.acting) =
      w.acting.foldl (fun st l => abortLane st w.g l 7 cause)
        (w.s.modLanes w.g (w.active.filter fun l => !w.acting.contains l) fun _ u => stepped w u) := by
  have all : w.acting ≠ [] ∧ w.acting.all (fun l => w.s.inLogged w.g l) = true := ⟨some_, List.all_eq_true.2 logged⟩
  unfold finish Res.trap
  simp only [Option.map_some, Option.getD_some, List.any_nil, Bool.or_false, beq_iff_eq, real, if_false]
  rw [if_pos all]
  simp [advance, stepped, amGet]

section
variable (s : State) (g : GRef) (ls : List Nat) (f : Nat → Thread → Thread) (l : Nat)

theorem State.lane?_modLanes : (s.modLanes g ls f).lane? g l = (s.lane? g l).map fun t => if ls.contains l then f l t else t := by
  rw [State.modLanes, State.lane?_modGroup, State.lane?]
  cases s.group? g with
  | none => rfl
  | some gr => exact Group.lane?_modLanes ..

theorem inLogged_modLanes (keeps : ∀ k t, (f k t).tx = t.tx) : (s.modLanes g ls f).inLogged g l = s.inLogged g l := by
  have same (t : Thread) : Thread.logged (if ls.contains l then f l t else t) = t.logged := by
    split
    · simp only [Thread.logged, Thread.inTx, Thread.irrev, keeps]
    · rfl
  rw [State.inLogged, State.lane?_modLanes, Option.map_map, State.inLogged]
  exact congrArg (fun p => (Option.map p (s.lane? g l)).getD false) (funext same)

theorem parkedIn_modLanes (keeps : ∀ k t, (f k t).park = t.park) : parkedIn (s.modLanes g ls f) g l = parkedIn s g l := by
  have same (t : Thread) : (if ls.contains l then f l t else t).park.isSome = t.park.isSome := by
    split
    · rw [keeps]
    · rfl
  rw [parkedIn, State.lane?_modLanes, Option.map_map, parkedIn]
  exact congrArg (fun p => (Option.map p (s.lane? g l)).getD false) (funext same)

end

theorem inLogged_beyond (w : Wd) (ls : List Nat) (s : State) (l : Nat) : (beyond w ls s).inLogged w.g l = s.inLogged w.g l :=
  inLogged_modLanes s w.g _ (fun _ t => stepped w t) l fun _ _ => rfl

theorem parkedIn_beyond (w : Wd) (ls : List Nat) (s : State) (l : Nat) : parkedIn (beyond w ls s) w.g l = parkedIn s w.g l :=
  parkedIn_modLanes s w.g _ (fun _ t => stepped w t) l fun _ _ => rfl

/-- A trap of single lanes of a word that is taken at once (R325, R394). -/
theorem finish_bad_takes {w : Wd} {r : Res} {t : State} {b : Bad} {rest : List Bad} (whole : r.whole = none) (jump : r.jump = [])
    (stay : r.stay = []) (bad : r.bad = b :: rest) (real : ∀ x ∈ r.bad, x.cause ≠ 0)
    (raiser : ∃ x ∈ r.bad, w.s.inLogged w.g x.lane = false) (awake : ∀ l ∈ w.active, parkedIn r.st w.g l = false)
    (takes : Takes (beyond w (r.bad.map Bad.lane) r.st) w.g (laneTrap w (r.bad.map Bad.lane) b.cause b.sub b.addr) t) :
    finish w r = t := by
  have failed (l : Nat) : (r.bad.any fun x => x.lane = l) = (r.bad.map Bad.lane).contains l := by
    rw [List.contains_eq_any_beq, List.any_map]
    congr 1
    funext x
    rw [Bool.eq_iff_iff, decide_eq_true_iff, Function.comp, beq_iff_eq, eq_comm]
  have moved : advance r.st w.g w.pc r w.active = beyond w (r.bad.map Bad.lane) r.st := by
    simp only [advance, jump, stay, failed, beyond, stepped, amGet, Option.getD_none, List.contains_nil, Bool.not_false, Bool.true_and]
  have done : (w.active.filter fun l => !(r.bad.map Bad.lane).contains l && !parkedIn (beyond w (r.bad.map Bad.lane) r.st) w.g l) =
      w.active.filter fun l => !(r.bad.map Bad.lane).contains l := by
    refine List.filter_congr fun l mem => ?_
    rw [parkedIn_beyond, awake l mem, Bool.not_false, Bool.and_true]
  have none_waits : (r.bad.any fun x => x.cause == 0) = false := by
    simpa [List.any_eq_false] using real
  have not_all : (r.bad.all fun x => w.s.inLogged w.g x.lane) = false := by
    obtain ⟨x, mem, unlogged⟩ := raiser
    exact List.all_eq_false.2 ⟨x, mem, by simp [unlogged]⟩
  have outcome : finish w r = raiseTrap (beyond w (r.bad.map Bad.lane) r.st) w.g ⟨b.cause, b.sub, b.addr, w.pc, maskOf w.active,
      maskOf (w.active.filter fun l => !(r.bad.map Bad.lane).contains l)⟩ := by
    unfold finish
    simp only [whole, Option.map_none, Option.getD_none, Bool.false_or, none_waits, Bool.false_eq_true, if_false, moved, not_all, failed, done]
    rw [bad]
  rw [outcome]
  exact raiseTrap_takes takes

/-! Writes through translation. -/

/-- The state that a computation leaves, whether it faults or not. -/
def leftState {α : Type} (r : Except (Cause × State) (α × State)) : State :=
  match r with
  | .error x => x.2
  | .ok x => x.2

theorem xlateAll_beside (core asid : Nat) (priv : Bool) (need : AccessNeed) (ps : List (Nat × Nat)) (s : State) :
    Beside s (leftState (xlateAll core asid priv need ps s)) := by
  induction ps generalizing s with
  | nil => exact Beside.refl s
  | cons p rest ih =>
    obtain ⟨va, n⟩ := p
    have looked := xlate_beside s core asid priv need va
    rw [xlateAll]
    split
    next out => rw [out] at looked; exact looked
    next out => rw [out] at looked; exact looked
    next key e s1 out =>
      rw [out] at looked
      split
      · exact looked
      · refine looked.trans ?_
        have later := ih s1
        cases result : xlateAll core asid priv need rest s1 with
        | error x => rw [result] at later; exact later
        | ok x => rw [result] at later; exact later

theorem storeAt_teams (s : State) (key e cls : Nat) (bs : List Byte) : (storeAt s key e cls bs).teams = s.teams := by
  unfold storeAt
  split
  · simp
  · split <;> simp

theorem storeAt_outer (s : State) (key e cls : Nat) (bs : List Byte) : (storeAt s key e cls bs).outer = s.outer := by
  unfold storeAt
  split
  · simp
  · split <;> simp

theorem writeKeys_teams (core : Nat) (ks : List (Nat × Nat × Nat)) (bs : List Byte) (s : State) :
    (writeKeys core ks bs s).teams = s.teams := by
  induction ks generalizing bs s with
  | nil => rfl
  | cons k rest ih =>
    rw [writeKeys, ih]
    split
    · exact storeAt_teams ..
    · exact (l1Update_beside ..).1.trans (storeAt_teams ..)

theorem writeKeys_outer (core : Nat) (ks : List (Nat × Nat × Nat)) (bs : List Byte) (s : State) :
    (writeKeys core ks bs s).outer = s.outer := by
  induction ks generalizing bs s with
  | nil => rfl
  | cons k rest ih =>
    rw [writeKeys, ih]
    split
    · exact storeAt_outer ..
    · exact (l1Update_beside ..).2.2.1.trans (storeAt_outer ..)

theorem writeVa_eq {s t : State} {core asid : Nat} {priv : Bool} {va : Nat} {bs : List Byte}
    (written : writeVa s core asid priv va bs = .ok t) : ∃ ks s1, Beside s s1 ∧ t = writeKeys core ks bs s1 := by
  have looked := xlateAll_beside core asid priv .write (pieces va bs.length) s
  unfold writeVa at written
  cases result : xlateAll core asid priv .write (pieces va bs.length) s with
  | error x => rw [result] at written; cases written
  | ok x =>
    rw [result] at written looked
    cases written
    exact ⟨x.1, x.2, looked, rfl⟩

theorem writeVa_teams {s t : State} {core asid : Nat} {priv : Bool} {va : Nat} {bs : List Byte}
    (written : writeVa s core asid priv va bs = .ok t) : t.teams = s.teams := by
  obtain ⟨ks, s1, before, rfl⟩ := writeVa_eq written
  exact (writeKeys_teams ..).trans before.1

theorem writeVa_outer {s t : State} {core asid : Nat} {priv : Bool} {va : Nat} {bs : List Byte}
    (written : writeVa s core asid priv va bs = .ok t) : t.outer = s.outer := by
  obtain ⟨ks, s1, before, rfl⟩ := writeVa_eq written
  exact (writeKeys_outer ..).trans before.2.2.1

end Sys2Proof.Machine
end

section
/-! PROOFS. Trap words, trap entry and the special registers (R17, R111 to R113, R134, R395 to R399). -/

namespace Sys2Proof.Machine

/-- Settles O10: each of the two words is one whole-word trap of its acting lanes. -/
theorem trapWords : Obligations.TrapWords := by
  unfold Obligations.TrapWords
  intro f s w t
  refine ⟨fun issues raiser takes => ?_, fun issues raiser takes => ?_, fun issues logged => ?_, fun issues logged => ?_⟩
  · exact (runWord_run issues).trans (congrArg Host.Outcome.next (finish_trap_takes (by decide) raiser takes))
  · exact (runWord_run issues).trans (congrArg Host.Outcome.next (finish_trap_takes (by decide) raiser takes))
  · exact (runWord_run issues).trans (congrArg Host.Outcome.next (finish_trap_aborts (by decide) issues.acting logged))
  · exact (runWord_run issues).trans (congrArg Host.Outcome.next (finish_trap_aborts (by decide) issues.acting logged))

/-- The s-registers that trap entry writes: s56 the frame, s57 to s63 zero (R398). -/
theorem Group.getS_enter (gr : Group) (frame : W64) (now : Nat) (i : TrapInfo) (k : Nat) : (gr.enter frame now i).getS k =
    if k = 56 then frame else if 57 ≤ k ∧ k < 64 then 0 else gr.getS k := by
  have regs : (gr.enter frame now i).getS k =
      ((List.range 8).foldl (fun x j => x.setS (56 + j) (if j = 0 then frame else 0)) gr).getS k := rfl
  rw [regs, show List.range 8 = [0, 1, 2, 3, 4, 5, 6, 7] from rfl]
  simp only [List.foldl_cons, List.foldl_nil, Group.getS_setS, Nat.reduceAdd, if_true, if_false, OfNat.ofNat_ne_zero,
    one_ne_zero]
  by_cases frame_ : k = 56
  · subst frame_
    rfl
  · by_cases inside : 57 ≤ k ∧ k < 64
    · obtain ⟨low, high⟩ := inside
      interval_cases k <;> rfl
    · repeat rw [if_neg (by omega)]

/-- Settles O11: trap entry is `Group.enter` of the group, after a write of the frame that leaves the teams. -/
theorem trapEntryState : Obligations.TrapEntryState := by
  unfold Obligations.TrapEntryState
  intro s g i t team gr c takes isTeam isGroup isCtx
  obtain ⟨team', gr', c', s1, isTeam', isGroup', -, -, -, -, -, isCtx', written, rfl⟩ := takes
  obtain rfl := Option.some.inj (isTeam.symm.trans isTeam')
  obtain rfl := Option.some.inj (isGroup.symm.trans isGroup')
  obtain rfl := Option.some.inj (isCtx.symm.trans isCtx')
  have teams := writeVa_teams written
  refine ⟨gr.enter (frameAddrOf c team gr) s.time.datum i, ?_, rfl, ?_, rfl, rfl, rfl, rfl, ?_, fun k low high => ?_, fun k low => ?_, rfl,
    fun h other => ?_⟩
  · rw [State.group?_countCore, State.group?_modGroup, State.group?_congr teams, isGroup]
    rfl
  · refine Nat.mod_eq_of_lt ?_
    split <;> omega
  · exact Group.getS_enter ..
  · rw [Group.getS_enter, if_neg (by omega), if_pos ⟨low, high⟩]
  · rw [Group.getS_enter, if_neg (by omega), if_neg (by omega)]
  · rw [State.group?_countCore, State.group?_modGroup_other _ _ other, State.group?_congr teams]

/-! Special registers. -/

theorem mtsLegal_eq (ix v : Nat) : mtsLegal ix v = !decide (2 ^ (if ix = 0x0A then 4 else 6) ≤ v) := by
  unfold mtsLegal
  split <;> rw [Bool.eq_iff_iff] <;> simp

/-- The two special registers that MTS writes leave the transaction and the park of a thread. -/
theorem Thread.writeSpecial_keeps (t : Thread) (ix v : Nat) : (t.writeSpecial ix v).tx = t.tx ∧ (t.writeSpecial ix v).park = t.park := by
  unfold Thread.writeSpecial
  split <;> exact ⟨rfl, rfl⟩

/-- MFS, per lane or in the scalar unit (R111, R156). -/
theorem finish_mfs (f : RegF) (w : Wd) (some_ : w.acting ≠ []) :
    finish w (mfsBody f w) =
      if f.x then afterWord w (w.s.modGroup w.g fun g =>
        g.setS f.d.toNat (BitVec.ofNat 64 (specialReg w (w.acting.headD 0) f.b.toNat (leader w) % 2 ^ f.ty.width)))
      else afterLanes w fun l t => t.setRun f.d.toNat (f.ty.width / 32) (specialReg w l f.b.toNat t % 2 ^ f.ty.width) := by
  unfold mfsBody
  dsimp only
  split
  · cases acting : w.acting with
    | nil => exact absurd acting some_
    | cons l ls =>
      have lead : leader w = (w.gr.lane? l).getD (Thread.start 0) := by rw [leader, acting]; rfl
      rw [finish_done, lead]
      rfl
  · exact finish_lanes ..

/-- MTS of the scalar unit checks its one value (R474). -/
theorem mtsBody_scalar {f : RegF} (w : Wd) (scalar : f.x = true) : mtsBody f w =
    if mtsLegal f.b.toNat ((w.gr.getS f.a.toNat).toNat % 2 ^ f.ty.width) then
      Res.done (w.s.modLanes w.g w.acting fun _ t => t.writeSpecial f.b.toNat ((w.gr.getS f.a.toNat).toNat % 2 ^ f.ty.width))
    else Res.trap w.s cILLEGAL_ENCODING 0 0 w.acting := if_pos scalar

/-- MTS per lane writes where the lane's value is legal and fails in the other lanes. -/
theorem mtsBody_lanes {f : RegF} (w : Wd) (val : Nat → Nat) (perLane : f.x = false)
    (values : ∀ l, val l = ((w.gr.lane? l).map fun t => t.getRun f.a.toNat (f.ty.width / 32)).getD 0) : mtsBody f w =
    { Res.done (w.s.modLanes w.g (w.acting.filter fun l => mtsLegal f.b.toNat (val l)) fun l t => t.writeSpecial f.b.toNat (val l)) with
      bad := (w.acting.filter fun l => !mtsLegal f.b.toNat (val l)).map fun l => ⟨l, cILLEGAL_ENCODING, 0, 0⟩ } := by
  obtain rfl : val = _ := funext values
  exact if_neg (by rw [perLane]; exact Bool.false_ne_true)

theorem parkedIn_awake {i : Instr} {s : State} {w : Wd} (issues : Issues i s w) (awake : Awake w) :
    ∀ l ∈ w.active, parkedIn w.s w.g l = false := by
  intro l mem
  rw [parkedIn, State.lane?, issues.group, Option.bind_some]
  cases lane : w.gr.lane? l with
  | none => rfl
  | some t => simp [awake l mem t lane]

/-- Settles O7: MTS completes where every acting lane's value is legal, and else traps as the scalar unit's word or in its lanes. -/
theorem specialRegisters : Obligations.SpecialRegisters := by
  unfold Obligations.SpecialRegisters
  refine ⟨fun f s w issues => ?_, fun f s w issues => ?_⟩
  · exact (runWord_run issues).trans (congrArg Host.Outcome.next (finish_mfs f w issues.acting))
  · intro val put failing
    have means : exec (.mts f) s = .next (finish w (mtsBody f w)) := runWord_run issues
    have legal (l : Nat) : mtsLegal f.b.toNat (val l) = !decide (2 ^ (if f.b.toNat = 0x0A then 4 else 6) ≤ val l) := mtsLegal_eq ..
    have fails : failing = w.acting.filter fun l => !mtsLegal f.b.toNat (val l) := by
      simp only [legal, Bool.not_not, failing]
    rw [means]
    cases scalar : f.x with
    | true =>
      have one (l : Nat) : (w.gr.getS f.a.toNat).toNat % 2 ^ f.ty.width = val l := (if_pos scalar).symm
      rw [mtsBody_scalar w scalar]
      refine ⟨fun none_ => ?_, fun u some_ => ⟨fun _ takes => ?_, nofun⟩⟩
      · obtain ⟨l, mem⟩ := List.exists_mem_of_ne_nil _ issues.acting
        have good : mtsLegal f.b.toNat (val l) = true := by
          rw [none_] at fails
          simpa using List.filter_eq_nil_iff.1 fails.symm l mem
        rw [one l, if_pos good, finish_lanes]
        congr 3
        funext k t
        rw [← one l, one k]
        rfl
      · obtain ⟨l, mem⟩ := List.exists_mem_of_ne_nil _ some_
        rw [fails] at mem
        obtain ⟨acts, bad⟩ := List.mem_filter.1 mem
        rw [one l, if_neg (by simpa using bad)]
        exact congrArg Host.Outcome.next (finish_trap_takes (by decide) ⟨l, acts, takes.unlogged (issues.acting_lt l acts)⟩ takes)
    | false =>
      rw [mtsBody_lanes w val scalar fun l => if_neg (by rw [scalar]; exact Bool.false_ne_true), ← fails]
      have good : (w.acting.filter fun l => mtsLegal f.b.toNat (val l)) = w.acting.filter fun l => !failing.contains l := by
        refine List.filter_congr fun l mem => ?_
        rw [Bool.eq_iff_iff]
        simp [fails, mem]
      refine ⟨fun none_ => ?_, fun u some_ => ⟨nofun, fun _ awake takes => ?_⟩⟩
      · rw [good, none_]
        refine congrArg Host.Outcome.next (Eq.trans ?_ (finish_lanes w put))
        congr 1
        simp only [List.contains_nil, Bool.not_false, List.filter_true, List.map_nil]
        rfl
      · refine congrArg Host.Outcome.next ?_
        rw [good]
        obtain ⟨l, rest, cons⟩ := List.exists_cons_of_ne_nil some_
        have lanes : (failing.map fun l => (⟨l, cILLEGAL_ENCODING, 0, 0⟩ : Bad)).map Bad.lane = failing := by
          rw [List.map_map]
          exact List.map_id' _
        have first_ : l ∈ failing := by simp [cons]
        have kept (k : Nat) (t : Thread) := Thread.writeSpecial_keeps t f.b.toNat (val k)
        have acts : l ∈ w.acting := (List.mem_filter.1 (fails ▸ first_)).1
        have unlogged := takes.unlogged (issues.acting_lt l acts)
        rw [inLogged_beyond, inLogged_modLanes _ _ _ put _ fun k t => (kept k t).1] at unlogged
        refine finish_bad_takes rfl rfl rfl (b := ⟨l, cILLEGAL_ENCODING, 0, 0⟩) (rest := rest.map fun l => ⟨l, cILLEGAL_ENCODING, 0, 0⟩)
          (by rw [cons]; rfl) (fun x mem => ?_) ⟨⟨l, cILLEGAL_ENCODING, 0, 0⟩, List.mem_map.2 ⟨l, first_, rfl⟩, unlogged⟩
          (fun k active => ?_) (by rw [lanes]; exact takes)
        · obtain ⟨_, _, rfl⟩ := List.mem_map.1 mem
          exact two_ne_zero
        · exact (parkedIn_modLanes _ _ _ _ _ fun k t => (kept k t).2).trans (parkedIn_awake issues awake k active)

end Sys2Proof.Machine
end

section
/-! PROOFS. The machine after module reset (R452). -/

namespace Sys2Proof.Machine

/-- Settles O49: nothing is listed after module reset, so every look-up gives the initial value of what it looks up. -/
theorem resetState : Obligations.ResetState := by
  refine ⟨rfl, rfl, rfl, rfl, rfl, rfl, rfl, rfl, fun _ _ => rfl, fun _ => rfl, fun _ => ⟨rfl, rfl, fun _ => rfl⟩, fun _ _ => rfl, fun _ => rfl,
    rfl, rfl, reset_mem_wf⟩

end Sys2Proof.Machine
end

section
/-! PROOFS. The barriers of a team (R200 to R203). -/

namespace Sys2Proof.Machine

theorem getElem?_setNth {β : Type} (l : List β) (i j : Nat) (x : β) :
    (setNth l i x)[j]? = if j = i then l[j]?.map fun _ => x else l[j]? := by
  induction l generalizing i j with
  | nil => simp [setNth]
  | cons h t ih => cases i <;> cases j <;> simp [setNth, ih]

/-! What waking threads leaves: every part of a team but its groups. -/

section
variable {β : Type} (part : Team → β) (apart : ∀ t gs, part { t with groups := gs } = part t) (n : Nat) (g : GRef)
include apart

theorem map_wakeLane (s : State) (l : Nat) (kept : Bool) (wk : Wake) :
    ((wakeLane s g l kept wk).team? n).map part = (s.team? n).map part :=
  State.team?_map_modGroup s g _ n part apart

theorem map_wakeGroup (s : State) (p : Park → Bool) (wk : Wake) : ((wakeGroup s g p wk).team? n).map part = (s.team? n).map part := by
  unfold wakeGroup
  split
  · rfl
  · refine foldl_keeps (fun st => (st.team? n).map part) _ (fun st l => ?_) _ s
    refine foldl_keeps (fun st => (st.team? n).map part) _ (fun st k => ?_) _ st
    split
    · exact map_wakeLane part apart n g st l k.1 wk
    · rfl

theorem map_wakeWhere (s : State) (p : GRef → Park → Bool) (wk : Wake) : ((wakeWhere s p wk).team? n).map part = (s.team? n).map part :=
  foldl_keeps (fun st => (st.team? n).map part) _ (fun st g => map_wakeGroup part apart n g st (p g) wk) _ s

end

theorem barrierOf_eq (s : State) (team b : Nat) : barrierOf s team b = ((s.team? team).map Team.bars).bind fun l => l[b]? := by
  rw [barrierOf]
  cases s.team? team <;> rfl

theorem barrierOf_wakeWhere (s : State) (p : GRef → Park → Bool) (wk : Wake) (team b : Nat) :
    barrierOf (wakeWhere s p wk) team b = barrierOf s team b := by
  rw [barrierOf_eq, map_wakeWhere Team.bars (fun _ _ => rfl), barrierOf_eq]

/-- The law of arrivals (R201). -/
theorem barrierOf_arriveAt {s : State} {team k : Nat} {b : Barrier} (there : barrierOf s team k = some b) (n t j : Nat) :
    barrierOf (arriveAt s team k n) t j = if t = team ∧ j = k then some (b.arrive n).1 else barrierOf s t j := by
  have moved : barrierOf (s.modTeam team fun t => { t with bars := setNth t.bars k (b.arrive n).1 }) t j =
      if t = team ∧ j = k then some (b.arrive n).1 else barrierOf s t j := by
    rw [barrierOf, State.team?_modTeam]
    by_cases same : t = team
    · subst same
      rw [if_pos rfl, Option.bind_map]
      cases held : s.team? t with
      | none => simp [barrierOf, held] at there
      | some x =>
        simp only [barrierOf, held, Option.bind_some] at there ⊢
        simp only [Function.comp, getElem?_setNth, true_and]
        split
        next here => rw [here, there, Option.map_some]
        next => rfl
    · rw [if_neg same, if_neg (fun both => same both.1), barrierOf]
  unfold arriveAt
  rw [there]
  dsimp only
  split
  · rw [barrierOf_wakeWhere, moved]
  · exact moved

/-- The parking of all the threads that issue a barrier word. -/
theorem finish_parkAtBarrier (w : Wd) (s : State) (b : Nat) (all : w.acting = w.active) :
    finish w (parkAtBarrier w s b) = parked w (.barrier b) s := by
  rw [← finish_parked, parkAtBarrier, all]

theorem withBarrier_some {f : RegF} {body : Barrier → Wd → Res} {w : Wd} {b : Barrier}
    (there : barrierOf w.s w.g.team f.aux.toNat = some b) : withBarrier f body w = body b w := by
  rw [withBarrier, there]

/-- Settles O13: the bodies of the barrier words where their barrier exists, and the law of arrivals. -/
theorem barrierWords : Obligations.BarrierWords := by
  unfold Obligations.BarrierWords
  refine ⟨fun f s w b => ?_, fun f s w t => ?_, fun s msg m team k n g t => ?_, fun s team k n b there => ⟨?_, fun t j other => ?_⟩⟩
  · intro v n k all there
    refine ⟨fun issues low high idle nobody => ?_, fun issues => ?_, fun issues => ?_, fun issues => ?_⟩
    · refine (runWord_run issues).trans (congrArg Host.Outcome.next ?_)
      rw [withBarrier_some there, barInitBody]
      rw [if_neg, finish_done]
      rintro (zero | big | busy | some_)
      · exact absurd zero (Nat.ne_of_gt low)
      · exact absurd big (Nat.not_lt.2 high)
      · exact busy idle
      · rw [nobody] at some_
        cases some_
    · refine (runWord_run issues).trans (congrArg Host.Outcome.next ?_)
      rw [withBarrier_some there, barArrBody, finish_done]
    · refine (runWord_run issues).trans (congrArg Host.Outcome.next ?_)
      have completes : 1 ≤ (b.arrive n).2 ↔ b.expect ≤ b.count + n ∧ b.expect ≠ 0 := by
        rw [Nat.one_le_iff_ne_zero, Barrier.arrive, Nat.div_ne_zero_iff]
        exact and_comm
      rw [withBarrier_some there, barSyncBody]
      simp only [show w.active.length = n from rfl, completes, show f.aux.toNat = k from rfl]
      split
      · exact finish_done ..
      · exact finish_parkAtBarrier w _ k all
    · refine (runWord_run issues).trans (congrArg Host.Outcome.next ?_)
      rw [withBarrier_some there, barWaitBody]
      split
      · exact finish_parkAtBarrier w w.s k all
      · exact finish_done ..
  · intro x issues all grid plain there inside
    refine (runWord_run issues).trans (congrArg Host.Outcome.next ?_)
    rw [← finish_parked, all, barRmtBody]
    simp only [grid, show (w.gr.getS f.b.toNat).toNat = x from rfl, plain, there]
    rw [if_neg (by decide), if_neg (by simp), if_neg (Nat.not_le.2 inside)]
    rfl
  · intro s1 at_ kind target first_
    have alone : arrivalBefore s msg g team k = false := by
      refine List.any_eq_false.2 fun x mem => ?_
      cases of : x.2.kind with
      | arrival h t k' n1 =>
        have apart := first_ x mem h n1
        simp only [Bool.and_eq_true, decide_eq_true_eq, beq_iff_eq]
        rintro ⟨before, ⟨sender, rfl⟩, rfl⟩
        exact apart before of sender
      | _ => simp
    obtain ⟨sender, word, stake, _, waiter, sent⟩ := m
    obtain rfl : _ = _ := kind
    show Host.Outcome.next (remoteArrivalOf msg s) = _
    unfold remoteArrivalOf
    rw [at_]
    simp only [alone, if_neg Bool.false_ne_true]
    rw [target]
  · rw [barrierOf_arriveAt there, if_pos ⟨rfl, rfl⟩]
    rfl
  · rw [barrierOf_arriveAt there, if_neg (by omega)]

end Sys2Proof.Machine
end

section
/-! SUPPORT. Words that change their lanes one after the other, and groups whose hold rules act (R155, R314). -/

namespace Sys2Proof.Machine

/-- A change of nothing. -/
theorem State.modGroup_id (s : State) (g : GRef) (f : Group → Group) (same : ∀ x, f x = x) : s.modGroup g f = s := by
  have nth (l : List Group) (i : Nat) : modNth l i f = l := by
    induction l generalizing i with
    | nil => rfl
    | cons h t ih => cases i with
      | zero => rw [modNth, same]
      | succ i => rw [modNth, ih]
  have team : amMod s.teams g.team (fun t => { t with groups := modNth t.groups g.ix f }) = s.teams := by
    rw [amMod]
    refine (List.map_congr_left fun e _ => ?_).trans (List.map_id _)
    split
    · simp only [nth]
      rfl
    · rfl
  rw [State.modGroup, State.modTeam, team]
  rfl

/-- The lanes changed one after the other, each once, are changed together. -/
theorem foldl_modLane (g : GRef) (f : Nat → Thread → Thread) (ls : List Nat) (once : ls.Nodup) (s : State) :
    ls.foldl (fun st l => st.modLane g l (f l)) s = s.modLanes g ls f := by
  induction ls generalizing s with
  | nil =>
    refine (State.modGroup_id s g _ fun x => ?_).symm
    have lanes : x.lanes.mapIdx (fun _ t => t) = x.lanes := by
      apply List.ext_getElem <;> simp
    simp [Group.modLanes, lanes]
  | cons l ls ih =>
    obtain ⟨fresh, once⟩ := List.nodup_cons.1 once
    rw [List.foldl_cons, ih once, State.modLane, State.modLanes, modGroup_modGroup, State.modLanes]
    congr 1
    funext x
    simp only [Group.modLanes, Group.modLane]
    congr 1
    apply List.ext_getElem?
    intro k
    rw [List.getElem?_mapIdx, getElem?_modNth, List.getElem?_mapIdx]
    by_cases same : k = l
    · subst same
      simp [fresh, Function.comp_def]
    · rw [if_neg same]
      simp [same]

theorem group?_whileRunning (s : State) (g : GRef) (f : Group → Group) : (whileRunning s g f).group? g =
    if ((s.team? g.team).map fun t => t.resident && !t.saving).getD false then (s.group? g).map f else s.group? g := by
  unfold whileRunning
  split
  · exact State.group?_modGroup ..
  · rfl

@[simp] theorem whileRunning_mem (s : State) (g : GRef) (f : Group → Group) : (whileRunning s g f).mem = s.mem := by
  unfold whileRunning
  split <;> simp

/-- No empty rounds pass while a lane is in a transaction (R314). -/
theorem Group.emptyRounds_busy {gr : Group} {l : Nat} {t : Thread} (lane : gr.lane? l = some t) (busy : t.tx.isSome = true) :
    gr.emptyRounds = gr := by
  have mem : t ∈ gr.lanes := List.mem_of_getElem? lane
  have some_in : (gr.lanes.all fun t => t.tx.isNone) = false := by
    refine List.all_eq_false.2 ⟨t, mem, ?_⟩
    rw [Option.isNone_iff_eq_none]
    rintro none_
    rw [none_] at busy
    cases busy
  rw [Group.emptyRounds, some_in, Bool.false_and, Bool.false_and, if_neg Bool.false_ne_true]

/-- The hold count of a held lane is at most the greatest (R314). -/
theorem le_heldMax {ls : List Thread} {t : Thread} (mem : t ∈ ls) (held : t.held = true) : t.txlog.hold ≤ heldMax ls := by
  have grows (ls : List Thread) (m : Nat) :
      m ≤ ls.foldl (fun m t => if t.held ∧ m < t.txlog.hold then t.txlog.hold else m) m := by
    refine List.foldlRecOn (motive := fun n => m ≤ n) ls _ (Nat.le_refl m) fun n le t _ => ?_
    split
    next more => omega
    next => exact le
  unfold heldMax
  generalize 0 = m
  induction ls generalizing m with
  | nil => cases mem
  | cons x ls ih =>
    rw [List.foldl_cons]
    rcases List.mem_cons.1 mem with rfl | later
    · refine Nat.le_trans ?_ (grows ls _)
      split
      · exact Nat.le_refl _
      next no => exact Nat.le_of_not_lt fun more => no ⟨held, more⟩
    · exact ih later _

end Sys2Proof.Machine
end

section
/-! PROOFS. The beginning of transactions and of speculation domains (R300, R314 to R316). -/

namespace Sys2Proof.Machine

section
variable (t : Thread) (mode : TxMode) (d : Reg) (pc : W64)

theorem Thread.getV_begin : (t.begin mode d pc).getV d.toNat = 0 := by
  exact (Thread.getV_setV t d.toNat d.toNat 0).trans (if_pos rfl)

theorem Thread.begin_park : (t.begin mode d pc).park = t.park := rfl
theorem Thread.begin_pc : (t.begin mode d pc).pc = t.pc := rfl
theorem Thread.begin_txlog : (t.begin mode d pc).txlog = t.txlog := rfl

end

/-- A lane of a group after TXBEGIN's begins and parks. -/
def txBeginLane (mode : TxMode) (f : RegF) (w : Wd) (l : Nat) (u : Thread) : Thread :=
  if w.acting.contains l then
    if heldBack w l then { u with park := some (.hold mode f.d) } else u.begin mode f.d w.pc
  else u

/-- What TXBEGIN leaves of its group before the hold rules act. -/
def txBegun (mode : TxMode) (f : RegF) (w : Wd) : Group := { w.gr with lanes := w.gr.lanes.mapIdx (txBeginLane mode f w) }

theorem lane?_txBegun (mode : TxMode) (f : RegF) (w : Wd) (l : Nat) :
    (txBegun mode f w).lane? l = (w.gr.lane? l).map (txBeginLane mode f w l) := by
  simp [txBegun, Group.lane?]

/-- The state that TXBEGIN leaves before the hold rules act. -/
def txBegunState (mode : TxMode) (f : RegF) (w : Wd) : State :=
  (w.s.modLanes w.g (w.acting.filter fun l => !heldBack w l) fun _ t => t.begin mode f.d w.pc).modLanes w.g
    (w.acting.filter (heldBack w)) fun _ t => { t with park := some (.hold mode f.d) }

theorem group?_txBegunState (mode : TxMode) (f : RegF) {w : Wd} (group : w.s.group? w.g = some w.gr) :
    (txBegunState mode f w).group? w.g = some (txBegun mode f w) := by
  rw [txBegunState, State.modLanes, State.modLanes, modGroup_modGroup, State.group?_modGroup, group]
  simp only [Option.map_some, Group.modLanes, List.mapIdx_mapIdx, txBegun]
  congr 2
  apply List.ext_getElem?
  intro l
  rw [List.getElem?_mapIdx, List.getElem?_mapIdx]
  refine congrArg (Option.map · _) (funext fun u => ?_)
  cases back : heldBack w l <;> by_cases acts : l ∈ w.acting <;> simp [txBeginLane, back, acts]

/-- The hold rules act where the team runs (R314, R412). -/
def txBeganGroup (mode : TxMode) (f : RegF) (w : Wd) : Group :=
  if ((w.s.team? w.g.team).map fun t => t.resident && !t.saving).getD false then (txBegun mode f w).emptyRounds else txBegun mode f w

/-- A lane after TXBEGIN, the lanes that it holds staying at it (R300, R314). -/
theorem lane?_txBegin {mode : TxMode} {f : RegF} {w : Wd} (group : w.s.group? w.g = some w.gr) {l : Nat} (acts : l ∈ w.acting) (active : l ∈ w.active) :
    (finish w (txBegin mode f w)).lane? w.g l =
      ((txBeganGroup mode f w).lane? l).map fun u => if heldBack w l then u else stepped w u := by
  have running : ((txBegunState mode f w).team? w.g.team).map (fun t => t.resident && !t.saving) =
      (w.s.team? w.g.team).map fun t => t.resident && !t.saving := by
    rw [txBegunState, State.modLanes, State.team?_map_modGroup _ _ _ _ _ fun _ _ => rfl, State.modLanes,
      State.team?_map_modGroup _ _ _ _ _ fun _ _ => rfl]
  have began : (whileRunning (txBegunState mode f w) w.g Group.emptyRounds).group? w.g = some (txBeganGroup mode f w) := by
    rw [group?_whileRunning, running, group?_txBegunState mode f group, txBeganGroup]
    split <;> rfl
  have goes : (w.active.filter fun l => !(w.acting.filter (heldBack w)).contains l).contains l = !heldBack w l := by
    rw [Bool.eq_iff_iff]
    simp [active, acts]
  have stays : txBegin mode f w = { Res.done (whileRunning (txBegunState mode f w) w.g Group.emptyRounds) with
      stay := w.acting.filter (heldBack w) } := rfl
  rw [stays, finish_stay, State.lane?_modLanes, goes, State.lane?, began, Option.bind_some]
  congr 1
  funext u
  cases heldBack w l <;> rfl

theorem txBegin_mem (mode : TxMode) (f : RegF) (w : Wd) : (finish w (txBegin mode f w)).mem = w.s.mem := by
  rw [txBegin, finish_stay]
  simp [State.modLanes]

/-- No empty rounds pass where a lane is in a transaction or begins one. -/
theorem txBeganGroup_busy {mode : TxMode} {f : RegF} {w : Wd} {k : Nat} {x : Thread} (lane : w.gr.lane? k = some x)
    (busy : x.tx.isSome = true ∨ k ∈ w.acting ∧ heldBack w k = false) : txBeganGroup mode f w = txBegun mode f w := by
  have there : (txBegun mode f w).lane? k = some (txBeginLane mode f w k x) := by rw [lane?_txBegun, lane, Option.map_some]
  have inTx : (txBeginLane mode f w k x).tx.isSome = true := by
    unfold txBeginLane
    rcases busy with inside | ⟨acts, back⟩
    · split
      · split
        · exact inside
        · rfl
      · exact inside
    · simp [acts, back, Thread.begin]
  rw [txBeganGroup, Group.emptyRounds_busy there inTx, ite_self]

/-- A lane that the empty rounds let begin (R314). -/
theorem Thread.lowerHold_all {t : Thread} {n : Nat} {mode : TxMode} {d : Reg} (park : t.park = some (.hold mode d)) (held : t.txlog.hold ≠ 0)
    (enough : t.txlog.hold ≤ n) : t.lowerHold n =
      { ({ t with txlog := { t.txlog with hold := 0 } } : Thread).begin mode d t.pc with park := none, pc := t.pc + 8 } := by
  have zero : t.txlog.hold - n = 0 := Nat.sub_eq_zero_of_le enough
  rw [Thread.lowerHold, if_neg held, zero]
  simp only [Thread.beginHeld, park, if_true]

theorem heldBack_eq_false {w : Wd} {l : Nat} {u : Thread} (lane : w.gr.lane? l = some u) :
    heldBack w l = false ↔ u.txlog.hold = 0 ∧ roundOut w.s w.g = false := by
  simp [heldBack, lane]

/-- The lanes of a group through the empty rounds, no lane being in a transaction and one held (R314). -/
theorem Group.lane?_emptyRounds {gr : Group} {l : Nat} {t : Thread} (idle : ∀ k x, gr.lane? k = some x → x.tx = none)
    (running : gr.handler = none) (lane : gr.lane? l = some t) (held : t.held = true) (counts : t.txlog.hold ≠ 0) :
    gr.emptyRounds.lane? l = some (t.lowerHold (heldMax gr.lanes)) := by
  have all_idle : (gr.lanes.all fun x => x.tx.isNone) = true := by
    refine List.all_eq_true.2 fun x mem => ?_
    obtain ⟨k, at_k⟩ := List.mem_iff_getElem?.1 mem
    rw [idle k x at_k]
    rfl
  have some_held : 0 < heldMax gr.lanes := Nat.lt_of_lt_of_le (Nat.pos_of_ne_zero counts) (le_heldMax (List.mem_of_getElem? lane) held)
  rw [Group.emptyRounds, all_idle, running, decide_eq_true some_held]
  have at_l : gr.lanes[l]? = some t := lane
  simp [Group.lane?, at_l, held]

/-- TXBEGIN of either mode. -/
theorem txBegin_lanes {i : RegF → Instr} {mode : TxMode} (meaning : ∀ f, exec (i f) = runWord (i f) (txBegin mode f)) (f : RegF) (s : State)
    (w : Wd) (issues : Issues (i f) s w) (group : w.s.group? w.g = some w.gr) :
      ∃ t, exec (i f) s = .next t ∧ t.mem = w.s.mem ∧ ∀ l ∈ w.acting, l ∈ w.active → ∀ u, w.gr.lane? l = some u →
        let free (x : Thread) : Prop := x.txlog.hold = 0 ∧ roundOut w.s w.g = false
        (free u → ∃ v, t.lane? w.g l = some v ∧ v.pc = w.pc + 8 ∧ v.getV f.d.toNat = 0 ∧
          v.tx = some ⟨mode, [], [], w.pc + 8, f.d, u.fpctl, u.fpflags, 0⟩) ∧
        (¬ free u → (∃ k x, w.gr.lane? k = some x ∧ (x.tx.isSome = true ∨ k ∈ w.acting ∧ free x)) →
          ∃ v, t.lane? w.g l = some v ∧ v.pc = u.pc ∧ v.tx = u.tx ∧ v.v = u.v ∧ v.park = some (.hold mode f.d)) ∧
        (w.s.team? w.g.team = some w.t → w.t.resident = true → w.t.saving = false → w.gr.handler = none →
          (∀ k x, w.gr.lane? k = some x → x.tx = none ∧ (k ∈ w.acting → x.txlog.hold ≠ 0)) →
          ∃ v, t.lane? w.g l = some v ∧ v.pc = u.pc + 8 ∧ v.getV f.d.toNat = 0 ∧ v.park = none ∧ v.txlog.hold = 0 ∧
            v.tx = some ⟨mode, [], [], u.pc + 8, f.d, u.fpctl, u.fpflags, 0⟩) := by
  refine ⟨finish w (txBegin mode f w), by rw [meaning, runWord_run issues], txBegin_mem .., fun l acts active u lane => ?_⟩
  have contains : w.acting.contains l = true := by simpa using acts
  have lane' := lane?_txBegin (mode := mode) (f := f) group acts active
  refine ⟨fun free => ?_, fun held busy => ?_, fun team resident running handler idle => ?_⟩
  · have back : heldBack w l = false := (heldBack_eq_false lane).2 free
    rw [txBeganGroup_busy lane (.inr ⟨acts, back⟩), lane?_txBegun, lane, Option.map_some, Option.map_some, txBeginLane, contains, back] at lane'
    exact ⟨_, lane', rfl, Thread.getV_begin u mode f.d w.pc, rfl⟩
  · obtain ⟨k, x, there, busy⟩ := busy
    have back : heldBack w l = true := by
      rw [← Bool.not_eq_false, heldBack_eq_false lane]
      exact held
    rw [txBeganGroup_busy there (busy.imp_right fun both => ⟨both.1, (heldBack_eq_false there).2 both.2⟩), lane?_txBegun, lane,
      Option.map_some, Option.map_some, txBeginLane, contains, back] at lane'
    exact ⟨_, lane', rfl, rfl, rfl, rfl⟩
  · have back (k : Nat) (x : Thread) (there : w.gr.lane? k = some x) (acts : k ∈ w.acting) : heldBack w k = true := by
      rw [← Bool.not_eq_false, heldBack_eq_false there]
      exact fun free => (idle k x there).2 acts free.1
    have idleNow (k : Nat) (x : Thread) (there : w.gr.lane? k = some x) : (txBeginLane mode f w k x).tx = none := by
      unfold txBeginLane
      split
      next acts => rw [if_pos (back k x there (by simpa using acts))]; exact (idle k x there).1
      next => exact (idle k x there).1
    have heldLane : (txBegun mode f w).lane? l = some { u with park := some (.hold mode f.d) } := by
      rw [lane?_txBegun, lane, Option.map_some, txBeginLane, contains, back l u lane acts]
      rfl
    have rounds := Group.lane?_emptyRounds (gr := txBegun mode f w) (fun k x there => by
      rw [lane?_txBegun] at there
      obtain ⟨y, at_k, rfl⟩ := Option.map_eq_some_iff.1 there
      exact idleNow k y at_k) handler heldLane rfl ((idle l u lane).2 acts)
    have goes : ((w.s.team? w.g.team).map fun t => t.resident && !t.saving).getD false = true := by simp [team, resident, running]
    rw [back l u lane acts, txBeganGroup, goes, if_pos rfl, rounds, Option.map_some, if_pos rfl,
      Thread.lowerHold_all (t := { u with park := some (.hold mode f.d) }) (mode := mode) (d := f.d) rfl ((idle l u lane).2 acts) (le_heldMax (List.mem_of_getElem? heldLane) rfl)] at lane'
    exact ⟨_, lane', rfl, Thread.getV_begin _ mode f.d u.pc, rfl, rfl, rfl⟩

/-! Speculation domains. -/

theorem State.die_modDie (s : State) (d k : Nat) (f : Die → Die) : (s.modDie d f).die k = if k = d then f (s.die k) else s.die k := by
  rw [State.die, State.modDie, State.setDies_dies, amGetD, amGet_amPut]
  split
  next same => rw [same]; rfl
  next => rfl

theorem getDomain_putDomain (s : State) (h : W64) (m : Domain) : getDomain (putDomain s h m) h = m := by
  simp only [getDomain, putDomain, State.modSlice, State.die_modDie, if_true, Die.slice, amGetD, amGet_amPut, Option.getD_some]

theorem getDomain_modLane (s : State) (g : GRef) (l : Nat) (f : Thread → Thread) (h : W64) :
    getDomain (s.modLane g l f) h = getDomain s h := rfl

theorem putDomain_lane? (s : State) (h : W64) (m : Domain) (g : GRef) (l : Nat) : (putDomain s h m).lane? g l = s.lane? g l := rfl

theorem State.lane?_modLane_other (s : State) (g : GRef) {l k : Nat} (f : Thread → Thread) (other : k ≠ l) :
    (s.modLane g l f).lane? g k = s.lane? g k := by
  rw [State.modLane, State.lane?_modGroup, State.lane?]
  cases s.group? g with
  | none => rfl
  | some x => exact (Group.lane?_modLane ..).trans (if_neg other)

/-- A thread that takes an index of a domain (R316). -/
def begunOrdered (f : RegF) (h : W64) (w : Wd) (n : Nat) (x : Thread) : Thread :=
  (({ x with txlog := { x.txlog with iter := BitVec.ofNat 64 n, owed := some h, overflowed := false } } : Thread).begin .ordered f.d
    w.pc).setP f.c.toNat true

/-- One lane of TXBEGIN.O, where an index is left. -/
theorem txBeginO_takes {f : RegF} {h : W64} {w : Wd} {s : State} {l : Nat} {u : Thread} (lane : s.lane? w.g l = some u)
    (owes : u.txlog.owed = none) (live : domainLive s h = true) (left : (getDomain s h).next < (getDomain s h).limit) :
    txBeginO f h w (Res.done s) l = Res.done ((putDomain s h { getDomain s h with next := (getDomain s h).next + 1 }).modLane w.g l
      (begunOrdered f h w (getDomain s h).next)) := by
  have lane' : (Res.done s).st.lane? w.g l = some u := lane
  have room : (domainLive (Res.done s).st h && (getDomain (Res.done s).st h).next < (getDomain (Res.done s).st h).limit) = true := by
    rw [show (Res.done s).st = s from rfl, live, decide_eq_true left]
    rfl
  rw [txBeginO, lane']
  simp only [owes]
  rw [if_pos room]
  rfl

/-- One lane of TXBEGIN.O, where none is. -/
theorem txBeginO_none {f : RegF} {h : W64} {w : Wd} {s : State} {l : Nat} {u : Thread} (lane : s.lane? w.g l = some u)
    (owes : u.txlog.owed = none) (shut : domainLive s h = false ∨ (getDomain s h).limit ≤ (getDomain s h).next) :
    txBeginO f h w (Res.done s) l = Res.done (s.modLane w.g l fun x => (x.setV f.d.toNat 0).setP f.c.toNat false) := by
  have lane' : (Res.done s).st.lane? w.g l = some u := lane
  have full : ¬(domainLive (Res.done s).st h && (getDomain (Res.done s).st h).next < (getDomain (Res.done s).st h).limit) = true := by
    rw [show (Res.done s).st = s from rfl]
    rcases shut with closed | none_
    · simp [closed]
    · simp [Nat.not_lt.2 none_]
  rw [txBeginO, lane']
  simp only [owes]
  rw [if_neg full]
  rfl

/-- The lanes of TXBEGIN.O in turn, each with the next index. -/
theorem txBeginO_all (f : RegF) (h : W64) (w : Wd) (ls : List Nat) (once : ls.Nodup) (s : State) (live : domainLive s h = true)
    (left : (getDomain s h).next + ls.length ≤ (getDomain s h).limit)
    (owes : ∀ l ∈ ls, ∃ u, s.lane? w.g l = some u ∧ u.txlog.owed = none) :
    ∃ t, ls.foldl (txBeginO f h w) (Res.done s) = Res.done t ∧ (getDomain t h).next = (getDomain s h).next + ls.length ∧
      (∀ l, l ∉ ls → t.lane? w.g l = s.lane? w.g l) ∧
      ∀ k l, ls[k]? = some l → t.lane? w.g l = (s.lane? w.g l).map (begunOrdered f h w ((getDomain s h).next + k)) := by
  induction ls generalizing s with
  | nil => exact ⟨s, rfl, rfl, fun _ _ => rfl, fun k l at_k => by simp at at_k⟩
  | cons l ls ih =>
    obtain ⟨fresh, once⟩ := List.nodup_cons.1 once
    obtain ⟨u, lane, owed⟩ := owes l (List.mem_cons_self ..)
    rw [List.length_cons] at left
    have step := txBeginO_takes (f := f) lane owed live (by omega)
    generalize next_ : (putDomain s h { getDomain s h with next := (getDomain s h).next + 1 }).modLane w.g l
      (begunOrdered f h w (getDomain s h).next) = s1 at step
    have domain : getDomain s1 h = { getDomain s h with next := (getDomain s h).next + 1 } := by
      rw [← next_, getDomain_modLane, getDomain_putDomain]
    have other (k : Nat) (apart : k ≠ l) : s1.lane? w.g k = s.lane? w.g k := by
      rw [← next_, State.lane?_modLane_other _ _ _ apart, putDomain_lane?]
    obtain ⟨t, done, index, outside, inside⟩ := ih once s1 (by rw [domainLive, domain]; exact live) (by rw [domain]; dsimp only; omega)
      fun k mem => by
        obtain ⟨v, lane, owed⟩ := owes k (List.mem_cons_of_mem _ mem)
        exact ⟨v, by rw [other k (fun same => fresh (same ▸ mem)), lane], owed⟩
    refine ⟨t, by rw [List.foldl_cons, step, done], ?_, fun k absent => ?_, fun k j at_k => ?_⟩
    · rw [index, domain, List.length_cons]
      dsimp only
      omega
    · obtain ⟨apart, absent⟩ := not_or.1 (fun h => absent (List.mem_cons.2 h))
      rw [outside k absent, other k apart]
    · cases k with
      | zero =>
        obtain rfl : l = j := by simpa using at_k
        rw [outside l fresh, ← next_, State.lane?_modLane, putDomain_lane?]
        rfl
      | succ k =>
        have at_k : ls[k]? = some j := by simpa using at_k
        have apart : j ≠ l := fun same => fresh (same ▸ List.mem_of_getElem? at_k)
        rw [inside k j at_k, other j apart, domain]
        dsimp only
        rw [Nat.add_right_comm]
        rfl

/-- The lanes of TXBEGIN.O, where no index is left. -/
theorem txBeginO_shut (f : RegF) (h : W64) (w : Wd) (ls : List Nat) (once : ls.Nodup) (s : State)
    (shut : domainLive s h = false ∨ (getDomain s h).limit ≤ (getDomain s h).next)
    (owes : ∀ l ∈ ls, ∃ u, s.lane? w.g l = some u ∧ u.txlog.owed = none) :
    ls.foldl (txBeginO f h w) (Res.done s) =
      Res.done (ls.foldl (fun st l => st.modLane w.g l fun x => (x.setV f.d.toNat 0).setP f.c.toNat false) s) := by
  induction ls generalizing s with
  | nil => rfl
  | cons l ls ih =>
    obtain ⟨fresh, once⟩ := List.nodup_cons.1 once
    obtain ⟨u, lane, owed⟩ := owes l (List.mem_cons_self ..)
    rw [List.foldl_cons, txBeginO_none lane owed shut, List.foldl_cons]
    refine ih once _ shut fun k mem => ?_
    obtain ⟨v, lane, owed⟩ := owes k (List.mem_cons_of_mem _ mem)
    have apart : k ≠ l := fun same => fresh (same ▸ mem)
    exact ⟨v, by rw [State.lane?_modLane_other _ _ _ apart, lane], owed⟩

theorem leastFrom_lt {p : Nat → Bool} {n k r : Nat} (found : leastFrom p n k = some r) : r < k + n := by
  induction n generalizing k with
  | zero => cases found
  | succ n ih =>
    rw [leastFrom] at found
    split at found
    · cases found
      omega
    · have := ih found
      omega

theorem Thread.getP_setP (t : Thread) (p : Nat) : (t.setP p true).getP p = true := by
  unfold Thread.setP Thread.getP
  split
  next constant => simp [constant]
  next =>
    have low : p % 8 < 8 := Nat.mod_lt _ (by decide)
    have small : p % 8 < 7 := by omega
    simp only [if_true, bit_eq_testBit, BitVec.toNat_or, Nat.testBit_or, BitVec.toNat_ofNat, Nat.testBit_mod_two_pow, Nat.testBit_two_pow,
      small, decide_true, Bool.and_self, Bool.or_true]

theorem Thread.setP_keeps (t : Thread) (p : Nat) (b : Bool) : (t.setP p b).tx = t.tx ∧ (t.setP p b).txlog = t.txlog ∧ (t.setP p b).pc = t.pc := by
  obtain ⟨_, _, same⟩ := Thread.setP_sameButPreds t p b
  rw [same]
  exact ⟨rfl, rfl, rfl⟩

/-- The register of a domain that a handle names (R315). -/
theorem domainAt_handle {gen place r : Nat} (low : r < 16) :
    domainAt (BitVec.ofNat 64 (gen * 2 ^ 32 + place * 2 ^ 8 + r)) = (place / 16 % 8, place % 16, r % 16) := by
  simp only [domainAt, field, BitVec.toNat_ofNat, Prod.mk.injEq]
  omega

/-- Settles O21: TXBEGIN's lanes begin or are held, TXBEGIN.O's take their indices in turn, and SDOPEN writes the register that its
handle names. -/
theorem transactionBegin : Obligations.TransactionBegin := by
  unfold Obligations.TransactionBegin
  refine ⟨⟨fun f s w => txBegin_lanes (i := .txbegin) (fun _ => rfl) f s w, fun f s w => txBegin_lanes (i := .txbeginTs) (fun _ => rfl) f s w⟩,
    fun f s w => ?_, fun f s w => ?_⟩
  · intro h m issues good once owes
    have body : exec (.txbeginO f) s = .next (finish w (w.acting.foldl (txBeginO f h w) (Res.done w.s))) := by
      refine (runWord_run issues).trans ?_
      rw [txBeginOBody, if_neg (by rw [good]; exact Bool.false_ne_true)]
    refine ⟨fun live left => ?_, fun shut => ?_⟩
    · obtain ⟨t, done, index, -, inside⟩ := txBeginO_all f h w w.acting once w.s live left fun l mem => (owes l mem).2
      refine ⟨afterWord w t, by rw [body, done, finish_done], index, fun k l at_k => ?_⟩
      obtain ⟨active, u, lane, -⟩ := owes l (List.mem_of_getElem? at_k)
      obtain ⟨tx, log, -⟩ := Thread.setP_keeps ((({ u with txlog := { u.txlog with
        iter := BitVec.ofNat 64 (m.next + k), owed := some h, overflowed := false } } : Thread).begin .ordered f.d w.pc)) f.c.toNat true
      refine ⟨stepped w (begunOrdered f h w (m.next + k) u), _, ?_, tx, rfl, congrArg TxLog.iter log, congrArg TxLog.owed log,
        Thread.getP_setP .., rfl⟩
      rw [afterWord, State.lane?_modLanes, inside k l at_k, lane]
      simp [active, m]
    · rw [body, txBeginO_shut f h w w.acting once w.s shut fun l mem => (owes l mem).2, foldl_modLane w.g (fun _ x =>
        (x.setV f.d.toNat 0).setP f.c.toNat false) _ once, finish_lanes]
  · intro first count die k issues some_ few fits
    have body : exec (.sdopen f) s = .next (finish w (sdopenBody f w)) := runWord_run issues
    have room : ¬(count = 0 ∨ 2 ^ 32 < count ∨ 2 ^ 64 - 1 < first + count) := by omega
    refine ⟨fun none_ => ?_, fun r found => ?_⟩
    · rw [body, sdopenBody]
      dsimp only
      rw [if_neg room, none_]
      exact congrArg Host.Outcome.next (finish_done ..)
    · intro gen h dom
      rw [body, sdopenBody]
      dsimp only
      rw [if_neg room, found]
      have low : r < 16 := by simpa using leastFrom_lt found
      refine congrArg Host.Outcome.next ((finish_done ..).trans ?_)
      have at_ : domainAt h = ((16 * die + k) / 16 % 8, (16 * die + k) % 16, r % 16) := domainAt_handle low
      congr 2
      show putDomain w.s h dom = _
      rw [putDomain, at_]

end Sys2Proof.Machine
end

section
/-! PROOFS. The end of transactions (R306 to R308, R314, R318, R320, R321). -/

namespace Sys2Proof.Machine

/-- The empty rounds leave a lane that is not held or whose hold count is 0. -/
theorem Group.lane?_emptyRounds_still {gr : Group} {l : Nat} {t : Thread} (lane : gr.lane? l = some t)
    (still : t.held = false ∨ t.txlog.hold = 0) : gr.emptyRounds.lane? l = some t := by
  unfold Group.emptyRounds
  split
  · have at_l : gr.lanes[l]? = some t := lane
    have same : (if t.held then t.lowerHold (heldMax gr.lanes) else t) = t := by
      rcases still with awake | zero
      · rw [awake, if_neg Bool.false_ne_true]
      · rw [Thread.lowerHold, if_pos zero, ite_self]
    simp [Group.lane?, at_l, same]
  · exact lane

/-- What stands in the state's domains after changes of groups and counters. -/
theorem getDomain_congr {s t : State} (same : t.dies = s.dies) (h : W64) : getDomain t h = getDomain s h := by
  simp only [getDomain, State.die, same]

theorem whileRunning_dies (s : State) (g : GRef) (f : Group → Group) : (whileRunning s g f).dies = s.dies := by
  unfold whileRunning
  split <;> rfl

theorem State.countCore_dies (s : State) (c code n : Nat) : (s.countCore c code n).dies = s.dies := by
  unfold State.countCore
  split <;> rfl

theorem raiseCursor_beside (s : State) (h : W64) : Beside s (raiseCursor s h) := by
  unfold raiseCursor
  dsimp only
  split
  · split <;> exact ⟨rfl, rfl, rfl, rfl⟩
  · exact Beside.refl s

/-- CURSOR rises by 1, whether or not the domain closes (R315). -/
theorem cursor_raiseCursor {s : State} {h : W64} (live : domainLive s h = true) :
    (getDomain (raiseCursor s h) h).cursor = (getDomain s h).cursor + 1 := by
  unfold raiseCursor
  rw [if_pos live]
  dsimp only
  split <;> rw [getDomain_putDomain]

/-- The lane is logged or irrevocable in the state of the word, and so in its group (R308). -/
theorem inTxNow_eq {w : Wd} (group : w.s.group? w.g = some w.gr) (l : Nat) :
    w.gr.inTxNow l = (w.s.inLogged w.g l || (w.s.isIrrev w.g l && w.gr.handler.isNone)) := by
  rw [Group.inTxNow, State.inLogged, State.isIrrev, State.lane?, group, Option.bind_some]
  cases w.gr.lane? l <;> rfl

theorem isIrrev_unlogged {s : State} {g : GRef} {l : Nat} (irrev : s.isIrrev g l = true) : s.inLogged g l = false := by
  rw [State.isIrrev] at irrev
  rw [State.inLogged]
  cases lane : s.lane? g l with
  | none => rfl
  | some t =>
    have of_t : t.irrev = true := by rw [lane] at irrev; exact irrev
    simp [Thread.logged, of_t]

/-- The state in which TXCOMMIT's irrevocable lanes have passed their CURSORs (R317). -/
def txCursors (f : RegF) (w : Wd) (logged irrev : List Nat) : State :=
  irrev.foldl (fun st l =>
    match (st.lane? w.g l).bind fun t => t.txlog.owed with
    | some h => raiseCursor st h
    | none => st) (w.s.modLanes w.g logged fun _ t => { t with park := some (.commit f.d) })

theorem txCursors_beside (f : RegF) (w : Wd) (logged irrev : List Nat) :
    Beside (w.s.modLanes w.g logged fun _ t => { t with park := some (.commit f.d) }) (txCursors f w logged irrev) := by
  refine beside_foldl _ (fun st l => ?_) irrev _
  split
  · exact raiseCursor_beside ..
  · exact Beside.refl st

/-- The state that TXCOMMIT's body leaves, its acting lanes being in transactions (R308, R318). -/
def txCommitted (f : RegF) (w : Wd) (logged irrev : List Nat) : State :=
  (whileRunning (((txCursors f w logged irrev).modLanes w.g irrev fun _ t => t.commit f.d true).modGroup w.g fun x =>
    { x with stop := x.stop.filter fun l => !irrev.contains l }) w.g Group.emptyRounds).countCore w.t.core 0x08 irrev.length

theorem finish_txCommit {f : RegF} {w : Wd} {logged irrev : List Nat} (inside : ∀ l ∈ w.acting, w.gr.inTxNow l = true)
    (hl : (w.acting.filter fun l => w.s.inLogged w.g l) = logged) (hi : (w.acting.filter fun l => !w.s.inLogged w.g l) = irrev) :
    finish w (txCommitBody f w) = (txCommitted f w logged irrev).modLanes w.g (w.active.filter fun l => !logged.contains l)
      fun _ t => stepped w t := by
  have none_out : (w.acting.filter fun l => !w.gr.inTxNow l) = [] :=
    List.filter_eq_nil_iff.2 fun l mem => by simp [inside l mem]
  subst hl hi
  rw [← finish_stay, txCommitBody]
  simp only [none_out, ne_eq, not_true, if_false]
  rfl

theorem txCommitted_mem (f : RegF) (w : Wd) (logged irrev : List Nat) : (txCommitted f w logged irrev).mem = w.s.mem := by
  simp only [txCommitted, State.countCore_mem, whileRunning_mem, State.modLanes, State.modGroup_mem, (txCursors_beside f w logged irrev).2.1]

/-- A lane of TXCOMMIT: it parks for the round, or commits; a lane that is then neither held nor counted stays so. -/
theorem lane?_txCommitted {f : RegF} {w : Wd} {logged irrev : List Nat} (group : w.s.group? w.g = some w.gr) {l : Nat} {u v : Thread}
    (lane : w.gr.lane? l = some u)
    (becomes : (if irrev.contains l then Thread.commit (if logged.contains l then { u with park := some (.commit f.d) } else u) f.d true
      else if logged.contains l then { u with park := some (.commit f.d) } else u) = v)
    (still : v.held = false ∨ v.txlog.hold = 0) : (txCommitted f w logged irrev).lane? w.g l = some v := by
  have parked_ : (w.s.modLanes w.g logged fun _ t => { t with park := some (.commit f.d) }).lane? w.g l =
      some (if logged.contains l then { u with park := some (.commit f.d) } else u) := by
    rw [State.lane?_modLanes, State.lane?, group, Option.bind_some, lane]
    rfl
  have committed : (((txCursors f w logged irrev).modLanes w.g irrev fun _ t => t.commit f.d true).modGroup w.g fun x =>
      { x with stop := x.stop.filter fun l => !irrev.contains l }).lane? w.g l = some v := by
    rw [State.lane?_modGroup]
    refine Eq.trans (b := ((txCursors f w logged irrev).modLanes w.g irrev fun _ t => t.commit f.d true).lane? w.g l) rfl ?_
    rw [State.lane?_modLanes, State.lane?_congr (txCursors_beside f w logged irrev).1, parked_, Option.map_some, becomes]
  rw [txCommitted, State.lane?_congr (State.countCore_teams ..), State.lane?, group?_whileRunning]
  rw [State.lane?] at committed
  split
  · obtain ⟨gr, is_, at_l⟩ := Option.bind_eq_some_iff.1 committed
    rw [is_]
    exact Group.lane?_emptyRounds_still at_l still
  · exact committed

/-- A committed thread is in no transaction (R307, R317). -/
theorem Thread.commit_facts (t : Thread) (d : Reg) : (t.commit d true).tx = none ∧ (t.commit d true).getV d.toNat = 0 ∧
    (t.commit d true).txlog.owed = none ∧ (t.commit d true).txlog.hold = 0 :=
  ⟨rfl, (Thread.getV_setV t d.toNat d.toNat 0).trans (if_pos rfl), rfl, rfl⟩

/-- The abort of a thread (R306, R307, R314). -/
theorem Thread.abort_facts (t : Thread) (x : Tx) (code sub : Nat) (inTx : t.tx = some x) (c : code < 256) (s : sub < 256)
    (few : t.txlog.aborts < 255) :
    let v := t.abort code sub
    v.tx = none ∧ v.pc = x.abortPc ∧ v.fpctl = x.fpctl ∧ v.fpflags = x.fpflags ∧ v.p = t.p ∧
    (v.getV x.d.toNat).toNat = sub * 256 + code ∧ (∀ r, r ≠ x.d.toNat → v.getV r = t.getV r) ∧
    v.txlog.aborts = t.txlog.aborts + 1 ∧
    v.txlog.hold = (if x.mode = .ordered then 0 else if t.txlog.aborts = 0 then 0 else if t.txlog.aborts = 1 then 1
      else if t.txlog.aborts = 2 then 3 else 7) := by
  have written (r : Nat) : (t.abort code sub).getV r = (t.setV x.d.toNat ((txStatus code sub).setWidth 32)).getV r := by
    simp only [Thread.abort, inTx]
    rfl
  have hold : holdAfter (t.txlog.aborts + 1) = if t.txlog.aborts = 0 then 0 else if t.txlog.aborts = 1 then 1
      else if t.txlog.aborts = 2 then 3 else 7 := by
    obtain zero | one | two | more : t.txlog.aborts = 0 ∨ t.txlog.aborts = 1 ∨ t.txlog.aborts = 2 ∨ 3 ≤ t.txlog.aborts := by omega
    · rw [zero]; rfl
    · rw [one]; rfl
    · rw [two]; rfl
    · rw [holdAfter, if_pos (by omega), if_neg (by omega), if_neg (by omega), if_neg (by omega)]
  intro v
  refine ⟨?_, ?_, ?_, ?_, ?_, ?_, fun r other => ?_, ?_, ?_⟩
  · simp [v, Thread.abort, inTx]
  · simp [v, Thread.abort, inTx]
  · simp [v, Thread.abort, inTx]
  · simp [v, Thread.abort, inTx]
  · simp only [v, Thread.abort, inTx]
    rfl
  · rw [written, Thread.getV_setV, if_pos rfl]
    simp only [txStatus, BitVec.toNat_setWidth, BitVec.toNat_ofNat]
    omega
  · rw [written, Thread.getV_setV, if_neg other]
  · simp [v, Thread.abort, inTx, few]
  · simp only [v, Thread.abort, inTx, few, if_true, hold, beq_iff_eq]

/-- TXSTAT's word (R321). -/
theorem txState_eq (u : Thread) : txState u =
    (if u.tx.isSome then 2 ^ 31 else 0) + (match u.tx.map Tx.mode with
        | none => 0
        | some .value => 1
        | some .stamp => 2
        | some .ordered => 3
        | some .irrevocable => 4) * 2 ^ 28 + u.txlog.hold * 2 ^ 24 + u.txlog.aborts * 2 ^ 16 + u.txlog.last.toNat := by
  unfold txState Thread.inTx
  cases u.tx with
  | none => rfl
  | some x => cases mode : x.mode <;> simp [mode]

/-- Settles O22: TXCOMMIT's lanes park or commit, and what each word writes. -/
theorem transactionEnd : Obligations.TransactionEnd := by
  unfold Obligations.TransactionEnd
  refine ⟨fun f s w => ?_, fun t x code sub inTx c s few => Thread.abort_facts t x code sub inTx c s few⟩
  intro logged group
  refine ⟨fun issues all => ?_, fun issues running all => ?_, fun issues => ?_, fun issues => ?_⟩
  · have inside (l : Nat) (mem : l ∈ w.acting) : w.gr.inTxNow l = true := by rw [inTxNow_eq group, (all l mem).2, Bool.true_or]
    have hl : (w.acting.filter fun l => w.s.inLogged w.g l) = w.acting := List.filter_eq_self.2 fun l mem => (all l mem).2
    have hi : (w.acting.filter fun l => !w.s.inLogged w.g l) = [] := List.filter_eq_nil_iff.2 fun l mem => by simp [(all l mem).2]
    refine ⟨_, runWord_run issues, ?_, fun l mem u lane => ?_⟩
    · rw [finish_txCommit inside hl hi]
      exact txCommitted_mem ..
    · rw [finish_txCommit inside hl hi, State.lane?_modLanes,
        lane?_txCommitted (v := { u with park := some (.commit f.d) }) group lane (by simp [mem]) (.inl rfl)]
      simp [mem]
  · have inside (l : Nat) (mem : l ∈ w.acting) : w.gr.inTxNow l = true := by
      rw [inTxNow_eq group, (all l mem).2, running, Option.isNone_none, Bool.and_true, Bool.or_true]
    have hl : (w.acting.filter fun l => w.s.inLogged w.g l) = [] :=
      List.filter_eq_nil_iff.2 fun l mem => by simp [isIrrev_unlogged (all l mem).2]
    have hi : (w.acting.filter fun l => !w.s.inLogged w.g l) = w.acting :=
      List.filter_eq_self.2 fun l mem => by simp [isIrrev_unlogged (all l mem).2]
    refine ⟨_, runWord_run issues, ?_, fun l mem => ?_⟩
    · rw [finish_txCommit inside hl hi]
      exact txCommitted_mem ..
    · obtain ⟨u, lane⟩ : ∃ u, w.gr.lane? l = some u := by
        have irrev := (all l mem).2
        rw [State.isIrrev, State.lane?, group, Option.bind_some] at irrev
        cases lane : w.gr.lane? l with
        | none => rw [lane] at irrev; cases irrev
        | some u => exact ⟨u, rfl⟩
      obtain ⟨tx, d, owed, hold⟩ := Thread.commit_facts u f.d
      refine ⟨stepped w (u.commit f.d true), ?_, tx, d, owed, rfl, fun u' h single lane' owes live => ?_⟩
      · rw [finish_txCommit inside hl hi, State.lane?_modLanes,
          lane?_txCommitted (v := u.commit f.d true) group lane (by simp [mem]) (.inr hold)]
        simp [(all l mem).1]
      · obtain rfl := Option.some.inj (lane.symm.trans lane')
        have at_s : ((w.s.modLanes w.g [] fun _ t => { t with park := some (.commit f.d) }).lane? w.g l).bind (fun t => t.txlog.owed) =
            some h := by
          rw [State.lane?_modLanes, State.lane?, group, Option.bind_some, lane]
          exact owes
        have cursors : txCursors f w [] w.acting =
            raiseCursor (w.s.modLanes w.g [] fun _ t => { t with park := some (.commit f.d) }) h := by
          rw [txCursors, single, List.foldl_cons, List.foldl_nil, at_s]
        have dies : (finish w (txCommitBody f w)).dies = (txCursors f w [] w.acting).dies := by
          rw [finish_txCommit inside hl hi]
          exact (State.countCore_dies ..).trans (whileRunning_dies ..)
        rw [getDomain_congr dies, cursors]
        exact cursor_raiseCursor live
  · refine (runWord_run issues).trans (congrArg Host.Outcome.next ?_)
    exact finish_stay ..
  · refine (runWord_run issues).trans (congrArg Host.Outcome.next ?_)
    exact (finish_lanes ..).trans
      (congrArg (fun word : Thread → Nat => afterLanes w fun _ u => u.setV f.d.toNat (BitVec.ofNat 32 (word u))) (funext txState_eq))

end Sys2Proof.Machine
end

section
/-! PROOFS. Tasks: SPAWN, SYNC and ENDT (R168 to R182, R206 to R209). -/

namespace Sys2Proof.Machine

/-- A change of no lanes leaves the group. -/
theorem Group.modLanes_nil {f : Nat → Thread → Thread} (gr : Group) : gr.modLanes [] f = gr := by
  have same : (gr.lanes.mapIdx fun _ t => t) = gr.lanes := List.ext_getElem? fun l => by simp
  simp only [Group.modLanes, List.contains_nil, Bool.false_eq_true, if_false, same]

/-- A word of a team that serves no merge runs its body (R215). -/
theorem notInMerge_run (body : Wd → Res) {w : Wd} (plain : w.t.kind ≠ .merge) : notInMerge body w = body w := if_neg plain

/-- The lanes of a SPAWN, where each spawns, leave the last one's state. -/
theorem spawnLanes_runs {f : RegF} {w : Wd} {ls : List Nat} {s t : State}
    (runs : Runs (fun l u v => ∃ i u1, spawnLane w (syncAddr f w l) u = .ok (i, u1) ∧
      v = u1.modLane w.g l fun t => t.setV f.d.toNat (BitVec.ofNat 32 i)) ls s t) : spawnLanes f w ls s = .ok t := by
  induction ls generalizing s with
  | nil => exact congrArg Except.ok (Eq.symm runs)
  | cons l ls ih =>
    obtain ⟨_, ⟨i, u1, spawns, rfl⟩, rest⟩ := runs
    have here : spawnLane w (if f.bs then (w.gr.getS f.b.toNat).toNat else laneVal w f.b 64 l) s = .ok (i, u1) := spawns
    simp only [spawnLanes, here]
    exact ih rest

/-- A task that fits with its views fits without them. -/
theorem fitsEmpty_without {n b sc a br : Nat} {tiles : List Tile} (fits : fitsEmpty (taskNeed n b sc a br tiles) = true) :
    fitsEmpty (taskNeed n b sc a br []) = true := by
  have none_ : viewUnits [] = 0 := rfl
  simp only [fitsEmpty, Bool.and_eq_true, decide_eq_true_eq] at fits ⊢
  simp only [taskNeed, none_] at fits ⊢
  obtain ⟨⟨⟨⟨⟨groups, regs⟩, scratch⟩, accs⟩, bars⟩, _⟩ := fits
  exact ⟨⟨⟨⟨⟨groups, regs⟩, by omega⟩, accs⟩, bars⟩, Nat.zero_le 64⟩

/-- An unbroken frame is found as it stands. -/
theorem frameAt_unbroken {s t : State} {asid : BitVec 12} {va id : Nat} {fr : Frame} (found : frameAt s asid va = (some (id, fr), t))
    (sound : fr.broken = false) : t = s ∧ frameFind s asid va = some (id, fr) := by
  unfold frameAt at found
  cases find : frameFind s asid va with
  | none => rw [find] at found; cases found
  | some f =>
    simp only [find] at found
    split at found
    · cases found
      exact ⟨rfl, rfl⟩
    next gone =>
      have broken : f.2.broken = true := by
        cases b : f.2.broken with
        | false => simp [b] at gone
        | true => rfl
      split at found
      · split at found <;> cases found
        simp [sound] at broken
      · cases found
        simp [sound] at broken

/-- The task that a SPAWN puts into the pool for child NCHILD of a frame (R172). -/
def childTask (w : Wd) (d : TaskDesc) (tiles : List Tile) (id : Nat) (fr : Frame) (s : State) : TaskRec :=
  { grid := w.t.grid, ctx := w.t.ctx, asid := w.t.asid, prio := w.t.prio, entry := BitVec.ofNat 64 d.entry
    argp := BitVec.ofNat 64 d.argp, budget := d.budget, ngroups := d.ngroups, scratch := d.scratch, accs := d.accs
    bars := d.bars, tiles := placeViews tiles d.scratch, frame := id, child := fr.nchild
    since := s.time.datum, order := s.fresh }

theorem enterChild_unbroken (w : Wd) (d : TaskDesc) (tiles : List Tile) (id : Nat) {fr : Frame} (s : State) (sound : fr.broken = false) :
    enterChild w d tiles id fr s = (fr.nchild, (s.setFrames (amPut s.frames id { fr with nchild := fr.nchild + 1 })).modDie
      (w.t.core / 32) fun x => { x with pool := x.pool ++ [childTask w d tiles id fr s] }) := by
  simp only [enterChild, sound, Bool.false_eq_true, if_false]
  rfl

/-- Settles O23: each lane of the word spawns, or its threads park; a child enters its frame and the pool of its die. -/
theorem spawnWord : Obligations.SpawnWord := by
  unfold Obligations.SpawnWord
  refine ⟨?_, ?_⟩
  · intro f s w t va issues plain runs
    have all : spawnLanes f w w.acting w.s = .ok t := spawnLanes_runs runs
    refine (runWord_run issues).trans (congrArg Host.Outcome.next ?_)
    rw [notInMerge_run _ plain, spawnBody]
    simp only [all]
    split
    next full => rw [if_neg (Nat.not_le.2 full), ← finish_parked]
    next room => rw [if_pos (Nat.le_of_not_lt room), finish_done]
  · intro w va id s s1 s2 s3 bs tiles fr d aligned descriptor ok views fits frame named owner room sound
    obtain ⟨rfl, find⟩ := frameAt_unbroken frame sound
    have still : frameWaits s3 w.gr.ctl.asid d.join = false := by simp [frameWaits, find, sound]
    have spawns : spawnLane w va s = .ok (enterChild w d tiles id fr s3) := by
      have bare : fitsEmpty (taskNeed d.ngroups d.budget d.scratch d.accs d.bars []) = true := fitsEmpty_without fits
      simp only [spawnLane, aligned, descriptor, views, frame, owner, show taskDesc bs = d from rfl, ok, bare, fits, still, named]
      simp [Nat.ne_of_lt room]
    have spawned := spawns.trans (congrArg Except.ok (enterChild_unbroken w d tiles id s3 sound))
    refine ⟨_, childTask w d tiles id fr s3, spawned, (amGet_amPut ..).trans (if_pos rfl),
      ?_, rfl, rfl, rfl, rfl, rfl, rfl⟩
    rw [State.die_modDie, if_pos rfl]
    rfl

section
variable {f : RegF} {w : Wd}

/-- A SYNC every lane of which comes to the same, in a state that it does not change. -/
theorem syncLanes_all {out : SyncLane} {s : State} {ls : List Nat} (each : ∀ l ∈ ls, syncLane f w l s = (out, s)) :
    syncLanes f w ls s = (ls.map fun l => (l, out), s) := by
  induction ls with
  | nil => rfl
  | cons l ls ih =>
    simp only [List.forall_mem_cons] at each
    simp only [syncLanes, each.1, ih each.2, List.map_cons]

/-- Nothing of a SYNC waits for a header where no lane's frame is broken. -/
theorem syncBody_ready (ready : ∀ l ∈ w.acting, frameWaits w.s w.gr.ctl.asid (syncAddr f w l) = false) :
    (w.acting.any fun l => frameWaits w.s w.gr.ctl.asid (syncAddr f w l)) = false :=
  List.any_eq_false.2 fun l mem => by rw [ready l mem]; exact Bool.false_ne_true

theorem any_map_const {out : SyncLane} {ls : List Nat} (some_ : ls ≠ []) (p : SyncLane → Bool) :
    ((ls.map fun l => (l, out)).any fun x => p x.2) = p out := by
  obtain ⟨l, mem⟩ := List.exists_mem_of_ne_nil _ some_
  cases h : p out
  · simp [h]
  · exact List.any_eq_true.2 ⟨(l, out), List.mem_map_of_mem mem, h⟩

/-- A SYNC of frames that are not bound completes as an acquire (R180, R208). -/
theorem syncBody_unbound (some_ : w.acting ≠ [])
    (unbound : ∀ l ∈ w.acting, syncAddr f w l % 256 = 0 ∧ frameFind w.s w.gr.ctl.asid (syncAddr f w l) = none) :
    syncBody f w = Res.done (l1Clear w.s w.t.core) := by
  have ready := syncBody_ready (f := f) (w := w) fun l mem => by simp [frameWaits, (unbound l mem).2]
  have each : ∀ l ∈ w.acting, syncLane f w l w.s = (.done, w.s) := fun l mem => by
    simp [syncLane, (unbound l mem).1, frameAt, (unbound l mem).2]
  rw [syncBody, ready, syncLanes_all each]
  have done_ := any_map_const (out := .done) some_ fun o => decide (o = .done)
  have waits_ := any_map_const (out := .done) some_ SyncLane.waits
  simp only [done_, waits_]
  simp [Res.done, SyncLane.waits]

/-- A SYNC of one open frame that the group owns parks its threads (R180, R208). -/
theorem syncBody_open {id : Nat} {fr : Frame} (some_ : w.acting ≠ []) (once : w.acting.Nodup) (owner : fr.owner = some w.g)
    (sound : fr.broken = false) (bound : ∀ l ∈ w.acting, syncAddr f w l % 256 = 0 ∧
      frameFind w.s w.gr.ctl.asid (syncAddr f w l) = some (id, fr)) :
    syncBody f w = { Res.done (w.s.modLanes w.g w.acting fun _ t => { t with park := some (.sync id fr.nchild (maskOf w.active)) }) with
      stay := w.acting } := by
  have ready := syncBody_ready (f := f) (w := w) fun l mem => by simp [frameWaits, (bound l mem).2, sound]
  have each : ∀ l ∈ w.acting, syncLane f w l w.s = (.wait id fr.nchild, w.s) := fun l mem => by
    simp [syncLane, (bound l mem).1, frameAt, (bound l mem).2, sound, owner]
  rw [syncBody, ready, syncLanes_all each]
  have done_ := (any_map_const (out := .wait id fr.nchild) some_ fun o => decide (o = .done)).trans (decide_eq_false nofun)
  have waits_ := (any_map_const (out := .wait id fr.nchild) some_ SyncLane.waits).trans (rfl : _ = true)
  simp only [done_, waits_, if_true, Bool.false_eq_true, if_false, List.foldl_map, SyncLane.park]
  rw [foldl_modLane w.g _ w.acting once]
  have out : (w.acting.map fun l => (l, SyncLane.wait id fr.nchild)).filter (fun x => decide (x.2 ≠ .done)) =
      w.acting.map fun l => (l, SyncLane.wait id fr.nchild) := List.filter_eq_self.2 fun x mem => by
    obtain ⟨l, _, rfl⟩ := List.mem_map.1 mem
    rfl
  rw [out, List.map_map]
  rw [show (Prod.fst ∘ fun l : Nat => (l, SyncLane.wait id fr.nchild)) = fun l => l from rfl, List.map_id']

/-- A team without cairns, in a state without stale locks, and without handlers ends by its threads alone. -/
theorem endThreads_plain {s : State} {team : Nat} {t : Team} (noCairns : ∀ c ∈ s.cairns, c.2.g.team ≠ team) (locks : ∀ l ∈ s.locks, amHas s.cairns l.2 = true)
    (noHandler : ∀ gr ∈ t.groups, gr.handler = none) :
    endCairns (resumeMerges s t) team = s := by
  have resumed : resumeMerges s t = s := by
    unfold resumeMerges
    generalize t.groups = gs at noHandler
    induction gs with
    | nil => rfl
    | cons g gs ih =>
      simp only [List.forall_mem_cons] at noHandler
      rw [List.foldl_cons, noHandler.1]
      exact ih noHandler.2
  have own : (s.cairns.filter fun c => c.2.g.team = team && c.2.passed) = [] :=
    List.filter_eq_nil_iff.2 fun c mem => by simp [noCairns c mem]
  have others : (s.cairns.filter fun c => c.2.g.team ≠ team) = s.cairns :=
    List.filter_eq_self.2 fun c mem => by simp [noCairns c mem]
  have kept : (s.locks.filter fun l => amHas s.cairns l.2) = s.locks := List.filter_eq_self.2 locks
  rw [resumed, endCairns, own]
  simp only [List.foldl_nil]
  rw [others]
  exact congrArg s.setLocks kept

end

/-- Settles O24: a SYNC's lanes all complete or all park; ENDT leaves nothing of its team but ended threads. -/
theorem syncAndEnd : Obligations.SyncAndEnd := by
  unfold Obligations.SyncAndEnd
  intro f s w va plain
  refine ⟨fun issues unbound => ?_, fun issues id fr bound owner sound once => ?_,
    fun issues t there noCairns locks noHandler all => ?_⟩
  · refine (runWord_run issues).trans (congrArg Host.Outcome.next ?_)
    rw [notInMerge_run _ plain, syncBody_unbound issues.acting unbound, finish_done]
  · refine (runWord_run issues).trans (congrArg Host.Outcome.next ?_)
    rw [notInMerge_run _ plain, syncBody_open issues.acting once owner sound bound, finish_parked]
  · refine (runWord_run issues).trans (congrArg Host.Outcome.next ?_)
    have none_ : (w.active.filter fun l => !w.active.contains l) = [] := List.filter_eq_nil_iff.2 fun l mem => by simp [mem]
    rw [notInMerge_run _ plain, endtBody, finish_stay, none_, endThreads, there]
    dsimp only
    rw [endThreads_plain noCairns locks noHandler]
    exact State.modGroup_id _ _ _ Group.modLanes_nil

end Sys2Proof.Machine
end

section
/-! SUPPORT. What stakes, their messages and their settlement leave of memory and of the device's number (R187 to R192, R430 to R432). -/

namespace Sys2Proof.Machine

/-- A state without what messages and stakes change: threads and cores, messages and invocations, their numbers, and the notes to peers. -/
def State.apart (s : State) : State :=
  { s with teams := [], cores := [], msgs := [], invs := [], fresh := 0, sys := { s.sys with stakeOut := [] } }

/-- All else stands. -/
@[simp] abbrev Keeps (s t : State) : Prop := t.apart = s.apart

theorem Keeps.refl (s : State) : Keeps s s := rfl
theorem Keeps.trans {s t u : State} (st : Keeps s t) (tu : Keeps t u) : Keeps s u := Eq.trans tu st

theorem Keeps.part {β : Type*} {s t : State} (kept : Keeps s t) (part : State → β) (apart : ∀ s, part s.apart = part s) : part t = part s :=
  (apart t).symm.trans ((congrArg part kept).trans (apart s))

theorem keeps_foldl {β : Type*} (f : State → β → State) (h : ∀ s b, Keeps s (f s b)) (l : List β) (s : State) : Keeps s (l.foldl f s) :=
  List.foldlRecOn (motive := Keeps s) l f (Keeps.refl s) fun t st b _ => st.trans (h t b)

@[simp] theorem State.modGroup_keeps (s : State) (g : GRef) (f : Group → Group) : Keeps s (s.modGroup g f) := rfl
@[simp] theorem State.modLane_keeps (s : State) (g : GRef) (l : Nat) (f : Thread → Thread) : Keeps s (s.modLane g l f) := rfl
@[simp] theorem State.modLanes_keeps (s : State) (g : GRef) (ls : List Nat) (f : Nat → Thread → Thread) : Keeps s (s.modLanes g ls f) := rfl
@[simp] theorem State.modCore_keeps (s : State) (c : Nat) (f : Core → Core) : Keeps s (s.modCore c f) := rfl
@[simp] theorem putStake_keeps (s : State) (c k : Nat) (x : StakeSlot) : Keeps s (putStake s c k x) := rfl
@[simp] theorem l1Clear_keeps (s : State) (c : Nat) : Keeps s (l1Clear s c) := by
  unfold l1Clear
  split <;> exact rfl
@[simp] theorem wakeLane_keeps (s : State) (g : GRef) (l : Nat) (kept : Bool) (x : Wake) : Keeps s (wakeLane s g l kept x) := rfl
@[simp] theorem tellPeer_keeps (s : State) (d : Nat) (x : PeerNote) : Keeps s (tellPeer s d x) := rfl
@[simp] theorem sendMsg_keeps (s : State) (sender word : Nat) (x : W64) (k : MsgKind) (v : Option (GRef × Nat)) :
    Keeps s (sendMsg s sender word x k v) := rfl

@[simp] theorem parkSent_keeps (s : State) (g : GRef) (l msg : Nat) (v : List (Nat × W32)) : Keeps s (parkSent s g l msg v) := rfl

@[simp] theorem announce_keeps (s : State) (c k : Nat) (st : StakeSt) : Keeps s (announce s c k st) := by
  unfold announce
  split
  · exact Keeps.refl s
  · exact tellPeer_keeps ..

@[simp] theorem answerMsg_keeps (s : State) (msg : Nat) (g : GRef) (l : Nat) (x : W64) (bs : List Byte) :
    Keeps s (answerMsg s msg g l x bs) := by
  unfold answerMsg
  refine Keeps.trans ?_ (keeps_foldl _ (fun st k => ?_) _ _)
  · split
    · exact l1Clear_keeps (s.setMsgs (amDel s.msgs msg)) _
    · exact rfl
  · split
    · split
      · exact wakeLane_keeps ..
      · exact Keeps.refl st
    · exact Keeps.refl st

@[simp] theorem letThrough_keeps (s : State) (inv c : Nat) (d : List Byte) : Keeps s (letThrough s inv c d) := by
  unfold letThrough
  split <;> exact rfl

@[simp] theorem settleMsg_keeps (s : State) (st : StakeSt) (stale : Bool) (rcore : Option Nat) (msg : Nat) :
    Keeps s (settleMsg s st stale rcore msg).1 := by
  unfold settleMsg
  split
  · exact Keeps.refl s
  next m _ =>
    split
    · exact answerMsg_keeps ..
    · exact answerMsg_keeps ..
    · exact rfl
    · exact rfl
    · exact Keeps.refl s
    · exact Keeps.refl s
    · dsimp only
      split
      · exact letThrough_keeps (s.setMsgs (amDel s.msgs msg)) ..
      · exact rfl

theorem settleStake_keeps (fuel : Nat) (s : State) (c k : Nat) (st : StakeSt) : Keeps s (settleStake fuel s c k st) := by
  induction fuel generalizing s c k st with
  | zero => exact Keeps.refl s
  | succ fuel ih =>
    unfold settleStake
    dsimp only
    split
    next placed queue dropped _ =>
      refine Keeps.trans ?_ (keeps_foldl _ (fun acc inv => ?_) _ _)
      · refine List.foldlRecOn (motive := fun acc : State × List Nat => Keeps s acc.1) _ _ ?_ fun acc kept m _ =>
          kept.trans (settleMsg_keeps ..)
        refine Keeps.trans ?_ (announce_keeps ..)
        split <;> split <;> exact rfl
      · split
        · exact Keeps.trans rfl (ih (acc.setInvs _) ..)
        · exact Keeps.refl acc
    · exact Keeps.refl s

@[simp] theorem settle_keeps (s : State) (c k : Nat) (st : StakeSt) : Keeps s (settle s c k st) := settleStake_keeps ..

@[simp] theorem settleInv_keeps (s : State) (inv : Nat) (st : StakeSt) : Keeps s (settleInv s inv st) := by
  unfold settleInv
  split
  · exact Keeps.trans rfl (settle_keeps (s.setInvs (amDel s.invs inv)) ..)
  · exact Keeps.refl s

@[simp] theorem deviceCheck_keeps (s : State) (inv d : Nat) : Keeps s (deviceCheck s inv d) := by
  unfold deviceCheck
  split
  · exact Keeps.refl s
  · exact settleInv_keeps ..

@[simp] theorem sendInvocation_keeps (s : State) (sender word inv : Nat) (t : InvTarget) (v : Option (GRef × Nat)) :
    Keeps s (sendInvocation s sender word inv t v) := by
  unfold sendInvocation
  dsimp only
  split
  · split
    · exact rfl
    · exact settleInv_keeps ..
  · split
    · exact rfl
    · exact settleInv_keeps ..
  · exact Keeps.trans rfl (deviceCheck_keeps (s.setInvs _) ..)
  · split
    · exact settleInv_keeps ..
    · split
      · split
        · exact settleInv_keeps ..
        · exact rfl
      · exact rfl
  · exact Keeps.refl s

@[simp] theorem invokeLane_keeps (f : RegF) (w : Wd) (target : Nat → InvTarget) (l : Nat) (s : State) :
    Keeps s (invokeLane f w target l s) := by
  unfold invokeLane
  split
  · exact Keeps.refl s
  · dsimp only
    split
    · refine Keeps.trans ?_ (parkSent_keeps ..)
      refine Keeps.trans ?_ (sendInvocation_keeps ..)
      exact rfl
    · refine Keeps.trans ?_ (State.modLane_keeps ..)
      refine Keeps.trans ?_ (sendInvocation_keeps ..)
      exact rfl

end Sys2Proof.Machine
end

section
/-! PROOFS. The words of invocations and stakes (R183 to R192, R210 to R214). -/

namespace Sys2Proof.Machine

section
variable {f : RegF} {w : Wd} {target : Nat → InvTarget}

/-- A stake of another device is no queue of this one. -/
theorem targetFull_elsewhere {s : State} {t : InvTarget} (away : ∀ x, t = .stake x → stakeDevice x ≠ s.sys.device) : targetFull s t = false := by
  cases t with
  | stake x => simp [targetFull, away x rfl]
  | _ => rfl

/-- The lanes of an INVOKE none of which finds its stake's queue full. -/
theorem invokeLanes_sent (away : ∀ l ∈ w.acting, ∀ x, target l = .stake x → stakeDevice x ≠ w.s.sys.device) :
    invokeLanes f w target = Res.done (w.acting.foldl (fun st l => invokeLane f w target l st) w.s) := by
  have all (ls : List Nat) (s : State) (device : s.sys.device = w.s.sys.device)
      (away : ∀ l ∈ ls, ∀ x, target l = .stake x → stakeDevice x ≠ w.s.sys.device) :
      ls.foldl (fun (r : Res) l => { r with
        st := invokeLane f w target l r.st, stay := if targetFull r.st (target l) then r.stay ++ [l] else r.stay }) (Res.done s) =
        Res.done (ls.foldl (fun st l => invokeLane f w target l st) s) := by
    induction ls generalizing s with
    | nil => rfl
    | cons l ls ih =>
      simp only [List.forall_mem_cons] at away
      have room : targetFull (Res.done s).st (target l) = false := targetFull_elsewhere fun x at_ => device ▸ away.1 x at_
      rw [List.foldl_cons, List.foldl_cons, room, ← ih _ (((invokeLane_keeps f w target l s).part (fun s => s.sys.device) fun _ => rfl).trans device) away.2]
      rfl
  exact all w.acting w.s rfl away

/-- The lane of an INVOKE that acts alone and does not find its stake's queue full. -/
theorem invokeLanes_alone {l : Nat} (alone : w.acting = [l]) (room : targetFull w.s (target l) = false) :
    invokeLanes f w target = Res.done (w.acting.foldl (fun st l => invokeLane f w target l st) w.s) := by
  have here : targetFull (Res.done w.s).st (target l) = false := room
  rw [invokeLanes, alone]
  simp only [List.foldl_cons, List.foldl_nil, here]
  rfl

/-- An INVOKE whose targets stand, where the stake table has room, sends (R210, R211). -/
theorem invokeBody_sends {aim : Wd → Nat → InvTarget} (good : ∀ l ∈ w.acting, aim w l ≠ .bad) (room : stakesUsed w.s w.t.core + w.acting.length ≤ 4096) :
    invokeBody f aim w = invokeLanes f w (aim w) := by
  have none_ : (w.acting.any fun l => decide (aim w l = .bad)) = false := List.any_eq_false.2 fun l mem => by simp [good l mem]
  rw [invokeBody, none_, if_neg Bool.false_ne_true, if_neg (Nat.not_lt.2 room)]

end

/-- One lane's invocation of a core of a die that is up (R183, R211). -/
theorem invokeLane_core {f : RegF} {w : Wd} {l core slot : Nat} {s : State} {target : Nat → InvTarget} (at_ : target l = .core core)
    (up : s.dieUp (core / 32) = true) (free : freeStake s w.t.core = some slot) :
    let x := stakeWord s.sys.device w.t.core slot (stakeSlot s w.t.core slot).gen
    ∃ i : Invocation, i.issuer = w.t.core ∧ i.slot = slot ∧ i.stake = x ∧ i.word = BitVec.ofNat 64 (laneVal w f.a 64 l) ∧
      i.payload = runBytes w f.c f.aux.toNat l ∧ i.core = some core ∧
      invokeLane f w target l s = (sendMsg (((putStake s w.t.core slot ⟨(stakeSlot s w.t.core slot).gen, some (.resolution none .pending [] false)⟩).setFresh
        (s.fresh + 1)).setInvs (amMod (amPut s.invs s.fresh { i with core := none, die := w.t.core / 32 }) s.fresh fun i =>
          { i with core := some core, die := core / 32, device := none })) (senderOf w.g l) w.s.fresh 0 (.place s.fresh) none).modLane w.g l
        fun t => t.setRun f.d.toNat 2 x.toNat := by
  refine ⟨{ word := BitVec.ofNat 64 (laneVal w f.a 64 l), payload := runBytes w f.c f.aux.toNat l, pred := none
            stake := stakeWord s.sys.device w.t.core slot (stakeSlot s w.t.core slot).gen
            issuer := w.t.core, slot := slot, grid := w.t.grid, ctx := w.t.ctx, asid := w.t.asid, prio := w.t.prio
            core := some core, die := core / 32, device := none, via := 0, arrived := none, since := 0 }, rfl, rfl, rfl, rfl, rfl, rfl, ?_⟩
  have up_ (t : State) (same : t.dies = s.dies) : t.dieUp (core / 32) = true := by simpa only [State.dieUp, State.die, same] using up
  simp only [invokeLane, free, at_, targetFull, sendInvocation, Bool.false_eq_true, if_false]
  rw [if_pos]
  · rfl
  · exact up_ _ rfl

theorem runBytes_eq (w : Wd) (r : Reg) (m l : Nat) :
    runBytes w r m l = toBytes (4 * m) (((w.gr.lane? l).map fun x => x.getRun r.toNat m).getD 0) := by
  rw [runBytes, laneVal, Nat.mul_div_cancel_left m (by decide)]

theorem invs_sendMsg_modLane (s : State) (m : AMap Invocation) (sender word : Nat) (x : W64) (k : MsgKind) (v : Option (GRef × Nat)) (g : GRef)
    (l : Nat) (f : Thread → Thread) : ((sendMsg (s.setInvs m) sender word x k v).modLane g l f).invs = m := rfl

/-- Settles O25: an INVOKE sends lane by lane; a lane's stake stands pending in its slot, its invocation under the next number. -/
theorem invokeWords : Obligations.InvokeWords := by
  unfold Obligations.InvokeWords
  refine ⟨?_, ?_⟩
  · intro f s w b32 b64 done plain room
    have sends (i : Instr) (aim : Wd → Nat → InvTarget) (meaning : exec i s = runWord i (notInMerge (invokeBody f aim)) s) :
        done i (aim w) := by
      intro issues good away
      refine meaning.trans ((runWord_run issues).trans (congrArg Host.Outcome.next ?_))
      rw [notInMerge_run _ plain, invokeBody_sends good room, invokeLanes_sent away, finish_done]
    refine ⟨sends _ (fun w l => targetWord w.s w.t.core (operandB f 32 w l) false) rfl,
      sends _ (fun w l => targetWord w.s w.t.core (operandB f 32 w l) true) rfl, sends _ (fun w _ => .die (w.t.core / 32)) rfl,
      sends _ (fun w l => .stake (stakeOf f w l)) rfl, fun issues own alone => ?_⟩
    obtain ⟨l, only⟩ := List.length_eq_one_iff.1 alone
    have notFull : targetFull w.s (.stake (stakeOf f w l)) = false := by
      have full : stakeFull w.s (stakeOf f w l) = false := (own l (by simp [only])).2
      simp [targetFull, full]
    refine (runWord_run issues).trans (congrArg Host.Outcome.next ?_)
    rw [notInMerge_run _ plain, invokeBody_sends (aim := fun w l => .stake (stakeOf f w l)) (fun _ _ => nofun) room,
      invokeLanes_alone only notFull, finish_done]
    rfl
  · intro f w l core slot s target t at_ up free lane gen u
    obtain ⟨i, issuer, slot_, stake, word, payload, core_, sent⟩ := invokeLane_core at_ up free
    have sent : u = _ := sent
    refine ⟨?_, ?_, ?_⟩
    · rw [sent]
      exact (stakeSlot_putStake ..).trans (if_pos ⟨rfl, rfl⟩)
    · rw [sent, State.lane?_modLane]
      exact congrArg (Option.map _) lane
    · refine ⟨{ i with core := some core, die := core / 32, device := none }, ?_, rfl, issuer, slot_, stake, word,
        payload.trans (runBytes_eq ..), (invokeLane_keeps f w target l s).part State.mem fun _ => rfl⟩
      rw [sent]
      rw [invs_sendMsg_modLane, amGet_amMod, if_pos rfl, amGet_amPut, if_pos rfl]
      rfl

section
variable {f : RegF} {w : Wd} {kind : GRef → Nat → MsgKind}

/-- What an AWAIT or POLL does in one lane (R189, R212). -/
def queryLane (f : RegF) (kind : GRef → Nat → MsgKind) (w : Wd) (r : Res) (l : Nat) : Res :=
  match answeredHere r.st (stakeOf f w l) with
  | some status => { r with st := r.st.modLane w.g l fun t => t.applyWake (answerWake f.d f.c f.aux.toNat status []) }
  | none =>
    let s1 := sendMsg r.st (senderOf w.g l) w.s.fresh (stakeOf f w l) (kind w.g l) none
    { r with
      st := s1.modLane w.g l fun t => { t with park := some (.answer r.st.fresh f.d f.c f.aux.toNat) }
      stay := r.stay ++ [l] }

theorem queryBody_eq : queryBody f kind w = w.acting.foldl (queryLane f kind w) (Res.done w.s) := rfl

/-- Stakes that no entry keeps are answered at once in every lane (R212). -/
theorem query_stale {ls : List Nat} {s : State} (gone : ∀ l ∈ ls, stakeNowhere s (stakeOf f w l) = true) :
    ls.foldl (queryLane f kind w) (Res.done s) =
      Res.done (ls.foldl (fun st l => st.modLane w.g l fun t => t.applyWake (answerWake f.d f.c f.aux.toNat 3 [])) s) := by
  induction ls generalizing s with
  | nil => rfl
  | cons l ls ih =>
    simp only [List.forall_mem_cons] at gone
    have here : answeredHere (Res.done s).st (stakeOf f w l) = some 3 := if_pos gone.1
    rw [List.foldl_cons, List.foldl_cons, queryLane, here]
    exact ih gone.2

/-- The others send their message, lane by lane, and stay (R189, R212). -/
theorem query_sends {ls stay : List Nat} {s : State} (kept : ∀ l ∈ ls, answeredHere s (stakeOf f w l) = none) :
    ls.foldl (queryLane f kind w) { Res.done s with stay := stay } =
      { Res.done (ls.foldl (fun st l => (sendMsg st (senderOf w.g l) w.s.fresh (stakeOf f w l) (kind w.g l) none).modLane w.g l
          fun t => { t with park := some (.answer st.fresh f.d f.c f.aux.toNat) }) s) with stay := stay ++ ls } := by
  induction ls generalizing s stay with
  | nil => rw [List.append_nil]; rfl
  | cons l ls ih =>
    simp only [List.forall_mem_cons] at kept
    have here : queryLane f kind w { Res.done s with stay := stay } l = { Res.done ((sendMsg s (senderOf w.g l) w.s.fresh (stakeOf f w l)
        (kind w.g l) none).modLane w.g l fun t => { t with park := some (.answer s.fresh f.d f.c f.aux.toNat) }) with stay := stay ++ [l] } := by
      have open_ : answeredHere (Res.done s).st (stakeOf f w l) = none := kept.1
      simp only [queryLane, open_]
      rfl
    rw [List.foldl_cons, List.foldl_cons, here, List.append_cons stay l ls]
    refine ih ?_
    exact kept.2

theorem answeredHere_own {s : State} {x : W64} (kept : stakeNowhere s x = false) (own : stakeDevice x = s.sys.device) :
    answeredHere s x = none := by
  simp [answeredHere, kept, own]

/-- A handler whose own stake is not settled settles it (R191, R213). -/
theorem settleOwn_settles {st : Wd → StakeSt} {h : HandlerInfo} (inv : w.t.inv = some h) (pending : h.settled = false) :
    settleOwn st w = Res.done (settle (w.s.modTeam w.g.team fun t => { t with inv := some { h with settled := true } }) h.issuer h.slot (st w)) := by
  simp only [settleOwn, inv, pending, Bool.false_eq_true, if_false]

end

/-- Settles O26: each lane of a query is answered or sends; a handler settles its own stake; DROP sends. -/
theorem stakeWords : Obligations.StakeWords := by
  unfold Obligations.StakeWords
  intro f s w x m query
  have asks (i : Instr) (kind : GRef → Nat → MsgKind) (meaning : exec i s = runWord i (queryBody f kind) s) : query i kind := by
    refine fun issues => ⟨fun gone once => ?_, fun kept => ?_⟩
    · refine meaning.trans ((runWord_run issues).trans (congrArg Host.Outcome.next ?_))
      rw [queryBody_eq, query_stale gone, foldl_modLane w.g _ w.acting once, finish_lanes]
    · refine meaning.trans ((runWord_run issues).trans (congrArg Host.Outcome.next ?_))
      have sent := query_sends (kind := kind) (stay := []) fun l mem => answeredHere_own (kept l mem).1 (kept l mem).2
      rw [queryBody_eq]
      exact (congrArg (finish w) sent).trans (finish_stay ..)
  refine ⟨asks _ .await rfl, asks _ .poll rfl, fun h inv pending => ⟨fun issues => ?_, fun issues => ?_⟩, fun issues kept alone => ?_⟩
  · refine (runWord_run issues).trans (congrArg Host.Outcome.next ?_)
    rw [settleOwn_settles inv pending, finish_done, runBytes_eq]
  · refine (runWord_run issues).trans (congrArg Host.Outcome.next ?_)
    rw [settleOwn_settles inv pending, finish_done]
  · obtain ⟨l, only⟩ := List.length_eq_one_iff.1 alone
    obtain ⟨there, own, room⟩ := kept l (by simp [only])
    have there : stakeNowhere (Res.done w.s).st (stakeOf f w l) = false := there
    have own : stakeDevice (stakeOf f w l) = (Res.done w.s).st.sys.device := own
    have room : stakeFull (Res.done w.s).st (stakeOf f w l) = false := room
    refine (runWord_run issues).trans (congrArg Host.Outcome.next ?_)
    rw [dropBody, only, List.foldl_cons, List.foldl_nil]
    simp only [there, room, own, ne_eq, not_true, decide_false, Bool.or_self, Bool.false_eq_true, if_false]
    exact finish_done ..

end Sys2Proof.Machine
end

section
/-! SUPPORT. What an access outside logged transactions leaves of the lanes' transactions and parks, and how an access fails (R325). -/

namespace Sys2Proof.Machine

/-- Whether a thread is in a transaction, and what it is parked on. -/
def Thread.stance (t : Thread) : Option Tx × Option Park := (t.tx, t.park)

/-- Every lane of the group is in its transaction, and parked, as before. -/
structure SameStance (g : GRef) (s u : State) : Prop where
  lane : ∀ l, (u.lane? g l).map Thread.stance = (s.lane? g l).map Thread.stance

section
variable {g : GRef} {s t u : State}

theorem SameStance.trans (st : SameStance g s t) (tu : SameStance g t u) : SameStance g s u := ⟨fun l => (tu.lane l).trans (st.lane l)⟩

theorem SameStance.of_group (same : u.group? g = s.group? g) : SameStance g s u :=
  ⟨fun l => by rw [State.lane?, same, State.lane?]⟩

theorem SameStance.of_teams (same : u.teams = s.teams) : SameStance g s u := .of_group (State.group?_congr same g)

theorem SameStance.modGroup {f : Group → Group} (keeps : ∀ gr l, ((f gr).lane? l).map Thread.stance = (gr.lane? l).map Thread.stance) :
    SameStance g s (s.modGroup g f) := by
  refine ⟨fun l => ?_⟩
  rw [State.lane?_modGroup, State.lane?]
  cases s.group? g with
  | none => rfl
  | some gr => exact keeps gr l

theorem SameStance.modLane {l : Nat} {f : Thread → Thread} (keeps : ∀ t, (f t).stance = t.stance) : SameStance g s (s.modLane g l f) :=
  .modGroup fun gr k => by
    rw [Group.lane?_modLane]
    cases gr.lane? k with
    | none => split <;> rfl
    | some x => split <;> simp [keeps]

theorem SameStance.inLogged (same : SameStance g s u) (l : Nat) : u.inLogged g l = s.inLogged g l := by
  have eq := same.lane l
  rw [State.inLogged, State.inLogged]
  cases before : s.lane? g l with
  | none =>
    rw [before, Option.map_none, Option.map_eq_none_iff] at eq
    rw [eq]
  | some x =>
    rw [before, Option.map_some, Option.map_eq_some_iff] at eq
    obtain ⟨y, after, stance⟩ := eq
    have tx : y.tx = x.tx := congrArg Prod.fst stance
    simp [after, Thread.logged, Thread.inTx, Thread.irrev, tx]

theorem SameStance.parkedIn (same : SameStance g s u) (l : Nat) : parkedIn u g l = parkedIn s g l := by
  have parked (x : State) : Machine.parkedIn x g l = (((x.lane? g l).map Thread.stance).map fun p => p.2.isSome).getD false := by
    rw [Machine.parkedIn, Option.map_map]
    rfl
  rw [parked, parked, same.lane l]

end

section
variable (s : State) (g : GRef) (lane : Nat)

theorem Thread.setRun_stance (t : Thread) (r n x : Nat) : (t.setRun r n x).stance = t.stance := by
  obtain ⟨v, same⟩ := Thread.setRun_sameButV t r n x
  rw [same]
  rfl

theorem putData_stance (d : Reg) (x : Bool) (w : Nat) (sgn : Bool) (n : Nat) : SameStance g s (putData s g lane d x w sgn n) := by
  unfold putData
  split
  · exact .modGroup fun _ _ => rfl
  · exact .modLane fun t => t.setRun_stance ..

theorem putLoad_stance (d : Reg) (x : Bool) (sz : Sz) (pd : Option (BitVec 3)) (absent : Bool) (n : Nat) :
    SameStance g s (putLoad s g lane d x sz pd absent n) := by
  cases pd with
  | none => exact putData_stance ..
  | some p =>
    refine (putData_stance ..).trans (.modLane fun t => ?_)
    obtain ⟨_, _, same⟩ := Thread.setP_sameButPreds t p.toNat absent
    rw [same]
    rfl

theorem performAt_stance (p : Place) (k : AccKind) : SameStance g s (performAt p s g lane k) := by
  cases k with
  | load d x sz pd => exact (SameStance.of_teams (p.touch_beside s).1).trans (putLoad_stance ..)
  | store bs => exact .of_group (p.write_group? ..)
  | unit ps => exact .of_teams rfl
  | atom aty aop xs ret d x =>
    have performed : SameStance g s (atomAt p aty aop xs 0 s).2 := .of_group (atomAt_group? ..)
    cases ret with
    | false => exact performed
    | true => exact performed.trans (putData_stance ..)

end

section
variable {w : Wd} {q : Req} {s u : State}

/-- A load reads as many bytes as its request says. -/
def Req.sized (q : Req) : Prop := ∀ d x sz pd, q.kind = .load d x sz pd → q.n = sz.bytes

theorem Does.stance {p : Place} {seen : List Byte} (sized : q.sized) (does : Does w q p seen s u) : SameStance w.g s u := by
  cases kind : q.kind with
  | load d x sz pd =>
    exact (putLoad_stance s w.g q.lane d x sz pd false (ofBytes seen)).trans (.of_teams (does.loads kind (sized _ _ _ _ kind)).1)
  | _ =>
    obtain ⟨base, before, _, _, after⟩ := does.writes (by rw [kind]; rfl)
    exact (SameStance.of_teams before.1).trans ((performAt_stance base w.g q.lane p q.kind).trans (.of_teams after.1))

theorem Queued.stance (queued : Queued w q s u) : SameStance w.g s u := by
  obtain ⟨-, -, -, key, e, s1, looked, -, -, rfl⟩ := queued
  have sent : Beside s1 (l1Sent s1 (coreOf s1 w.g) (accessOf w q key e)) := by simp
  have queued := foldl_keeps State.teams enqueue enqueue_teams (accessOf w q key e).elements
    (l1Sent s1 (coreOf s1 w.g) (accessOf w q key e))
  exact .of_teams (queued.trans ((beside_of_xlate looked).trans sent).1)

theorem Sent.stance (sent : Sent w q s u) : SameStance w.g s u := by
  obtain ⟨-, -, -, -, -, -, -, gr, -, -, rfl⟩ := sent
  have counted : SameStance w.g s (remIssued w gr.rem s) := by
    unfold remIssued
    split
    · refine SameStance.trans ?_ (SameStance.modGroup ?_)
      · exact .of_teams rfl
      · exact fun _ _ => rfl
    · exact .of_teams rfl
  exact counted.trans (.of_teams (by simp))

/-- An access that passes outside logged transactions keeps every lane's transaction and park. -/
theorem Passes.stance (plain : s.inLogged w.g q.lane = false) (sized : q.sized) (passes : Passes w q s u) : SameStance w.g s u := by
  rcases passes with ⟨p, seen, does⟩ | absent | queued | sent | logged
  · exact does.stance sized
  · obtain ⟨-, -, d, x, sz, pd, s1, -, looked, rfl⟩ := absent
    exact (SameStance.of_teams (beside_of_xlate looked).1).trans (putLoad_stance ..)
  · exact queued.stance
  · exact sent.stance
  · obtain ⟨t, x, key, e, s1, lane, tx, mode, -⟩ := logged
    have inTx : s.inLogged w.g q.lane = true := by
      simp [State.inLogged, lane, Thread.logged, Thread.inTx, Thread.irrev, tx, mode]
    rw [plain] at inTx
    cases inTx

/-- The translation of an access that fails leaves the teams. -/
theorem Fails.teams {c sub : Nat} (fails : Fails w q s c sub u) : u.teams = s.teams := by
  cases fails with
  | misaligned => rfl
  | refused _ _ _ _ looked => exact (beside_of_xlate looked).1
  | absent _ _ _ _ looked => exact (beside_of_xlate looked).1

theorem Fails.real {c sub : Nat} (fails : Fails w q s c sub u) : c ≠ 0 := by
  cases fails with
  | misaligned => decide
  | refused c _ _ _ _ real => exact real
  | absent => decide

/-- An access that fails traps its lane (R263 to R265, R325). -/
theorem anyAccess_fails {c sub : Nat} (plain : s.inLogged w.g q.lane = false) (fails : Fails w q s c sub u) :
    anyAccess w q s = .bad u c sub q.va := by
  have entry : (if Order.acqs q.order && wide q.scope then l1Clear s w.t.core else s) = acquired w q s := rfl
  rw [anyAccess_plain plain]
  cases fails with
  | misaligned odd => simp only [memAccess, odd, ne_eq, not_false_eq_true, if_true, cMISALIGNED]
  | refused c _ before here looked =>
    obtain ⟨aligned, noView, alone⟩ := before
    have stays : ¬((q.va.toNat / 2 ^ 60 = 9 ∨ q.va.toNat / 2 ^ 60 = 10) ∧ (!isLoad q.kind) = true) := by
      rintro ⟨away, store⟩
      rcases here with ⟨n9, n10⟩ | load
      · exact away.elim n9 n10
      · simp [load] at store
    rw [olderThere] at alone
    simp only [memAccess, entry, aligned, noView, ne_eq, not_true, if_false]
    rw [if_neg stays, alone]
    dsimp only
    rw [looked]
  | absent _ before here store looked =>
    obtain ⟨aligned, noView, alone⟩ := before
    have stays : ¬((q.va.toNat / 2 ^ 60 = 9 ∨ q.va.toNat / 2 ^ 60 = 10) ∧ (!isLoad q.kind) = true) := by omega
    rw [olderThere] at alone
    simp only [memAccess, entry, aligned, noView, ne_eq, not_true, if_false]
    rw [if_neg stays, alone]
    dsimp only
    rw [looked]
    cases kind : q.kind with
    | load => rw [kind] at store; cases store
    | _ => rfl

end

end Sys2Proof.Machine
end

section
/-! PROOFS. The words of memory (R135 to R137, R325 to R339). -/

namespace Sys2Proof.Machine

theorem Issues.active_lt {i : Instr} {s : State} {w : Wd} (issues : Issues i s w) : ∀ l ∈ w.active, l < 32 := by
  obtain ⟨c, t, gr0, gr, -, -, -, -, -, rfl⟩ := issues.parts
  intro l mem
  exact List.mem_range.1 (List.mem_filter.1 (countIssue_subset _ _ _ l (List.mem_filter.1 mem).1)).1

/-- The lanes of a word of which some trap: what is left, and each failing lane with its cause (R325). -/
theorem lanes_try {w : Wd} {q : Nat → Req} (own : ∀ l, (q l).lane = l) (sized : ∀ l, (q l).sized) (ls : List Nat) :
    ∀ (failed : List (Nat × Nat × Nat)) (before : List Bad) (s u : State), (∀ k ∈ ls, s.inLogged w.g k = false) → Tries w q ls failed s u →
    ls.foldl (fun (x : Res × Option Park × Bool) l =>
      (laneStep w x.1 l (anyAccess w (q l) x.1.st), x.2.1 <|> (anyAccess w (q l) x.1.st).absentLine, x.2.2 || (anyAccess w (q l) x.1.st).waits))
      ({ Res.done s with bad := before }, none, false) =
      ({ Res.done u with bad := before ++ failed.map fun x => ⟨x.1, x.2.1, x.2.2, (q x.1).va⟩ }, none, false) ∧
    SameStance w.g s u ∧ (∀ x ∈ failed, x.1 ∈ ls ∧ x.2.1 ≠ 0) := by
  induction ls with
  | nil =>
    rintro failed before s u - ⟨rfl, rfl⟩
    exact ⟨by simp, .of_teams rfl, fun _ mem => nomatch mem⟩
  | cons l ls ih =>
    intro failed before s u plain tries
    simp only [List.forall_mem_cons] at plain
    have here : s.inLogged w.g (q l).lane = false := by rw [own]; exact plain.1
    rcases tries with ⟨v, passes, rest⟩ | ⟨c, sub, v, others, fails, rfl, rest⟩
    · have same := passes.stance here (sized l)
      obtain ⟨run, after, within⟩ := ih failed before v u (fun k mem => (same.inLogged k).trans (plain.2 k mem)) rest
      have ok : anyAccess w (q l) ({ Res.done s with bad := before } : Res).st = .ok v := anyAccess_passes passes
      refine ⟨?_, same.trans after, fun x mem => ⟨List.mem_cons_of_mem _ (within x mem).1, (within x mem).2⟩⟩
      rw [List.foldl_cons, ok]
      exact run
    · have same : SameStance w.g s v := .of_teams fails.teams
      obtain ⟨run, after, within⟩ := ih others (before ++ [⟨l, c, sub, (q l).va⟩]) v u
        (fun k mem => (same.inLogged k).trans (plain.2 k mem)) rest
      have bad : anyAccess w (q l) ({ Res.done s with bad := before } : Res).st = .bad v c sub (q l).va := anyAccess_fails here fails
      refine ⟨?_, same.trans after, ?_⟩
      · rw [List.foldl_cons, bad, List.map_cons, List.append_cons]
        exact run
      · rintro x (_ | ⟨_, mem⟩)
        · exact ⟨List.mem_cons_self, fails.real⟩
        · exact ⟨List.mem_cons_of_mem _ (within x mem).1, (within x mem).2⟩

theorem masked_runs {m : MemF} {sc : Scope} {body : Wd → Res} {w : Wd}
    (mask : sc = .pkg → field (w.gr.getS (m.a.toNat + 1)).toNat 8 8 = 0) : masked m sc body w = body w := by
  rw [masked, if_neg]
  intro bad
  simp only [Bool.and_eq_true, beq_iff_eq, bne_iff_ne] at bad
  exact bad.1.2 (mask bad.1.1)

section
variable {i : Instr} {m : MemF} {sc : Scope} {req : Wd → Nat → Req} {s : State} {w : Wd}
  (meaning : exec i s = runWord i (masked m sc fun w => accesses m (fun l st => anyAccess w (req w l) st) w) s)
  (issues : Issues i s w) (mask : sc = .pkg → field (w.gr.getS (m.a.toNat + 1)).toNat 8 8 = 0)

include meaning issues mask

/-- A word of memory all of whose accesses pass. -/
theorem memoryWord_passes {t : State} (runs : Runs (fun l => Passes w (req w l)) (unitsOf m w) w.s t) : exec i s = .next (afterWord w t) := by
  have all := accesses_runs (runs_mono (fun l s u (passes : Passes w (req w l) s u) => anyAccess_passes passes) _ _ _ runs)
  refine meaning.trans ((runWord_run issues).trans (congrArg Host.Outcome.next ?_))
  rw [masked_runs mask]
  exact (congrArg (finish w) all).trans (finish_done ..)

/-- A word of memory of which some lanes trap. -/
theorem memoryWord_traps {t u : State} {l c sub : Nat} {rest : List (Nat × Nat × Nat)} (own : ∀ l, (req w l).lane = l)
    (sized : ∀ l, (req w l).sized) (plain : ∀ k ∈ w.acting, w.s.inLogged w.g k = false) (lanes : m.x = false) (awake : Awake w)
    (tries : Tries w (req w) w.acting ((l, c, sub) :: rest) w.s u)
    (takes : Takes (beyond w (l :: rest.map Prod.fst) u) w.g (laneTrap w (l :: rest.map Prod.fst) c sub (req w l).va) t) :
    exec i s = .next t := by
  obtain ⟨run, same, within⟩ := lanes_try own sized w.acting _ [] w.s u plain tries
  have body : accesses m (fun l st => anyAccess w (req w l) st) w =
      { Res.done u with bad := ((l, c, sub) :: rest).map fun x => ⟨x.1, x.2.1, x.2.2, (req w x.1).va⟩ } := by
    have all : w.acting.foldl _ (Res.done w.s, none, false) = _ := run
    rw [accesses, lanes, if_neg Bool.false_ne_true, laneLoop]
    simp only [all, List.nil_append, Bool.false_and, Bool.false_eq_true, if_false]
  have failing : (((l, c, sub) :: rest).map fun x => (⟨x.1, x.2.1, x.2.2, (req w x.1).va⟩ : Bad)).map Bad.lane = l :: rest.map Prod.fst := by
    rw [List.map_map]
    rfl
  refine meaning.trans ((runWord_run issues).trans (congrArg Host.Outcome.next ?_))
  rw [masked_runs mask, body]
  refine finish_bad_takes (b := ⟨l, c, sub, (req w l).va⟩) rfl rfl rfl rfl ?_ ?_ ?_ ?_
  · intro x mem
    obtain ⟨y, inside, rfl⟩ := List.mem_map.1 mem
    exact (within y inside).2
  · exact ⟨_, List.mem_cons_self, plain l (within _ List.mem_cons_self).1⟩
  · intro k active
    exact (same.parkedIn k).trans (parkedIn_awake issues awake k active)
  · rw [failing]
    exact takes

/-- The scalar unit's one access that traps. -/
theorem memoryWord_scalar_traps {t u : State} {c sub : Nat} (own : (req w 32).lane = 32) (scalar : m.x = true)
    (plain : w.s.inLogged w.g 32 = false) (fails : Fails w (req w 32) w.s c sub u)
    (takes : Takes u w.g (wordTrap w c sub (req w 32).va) t) : exec i s = .next t := by
  have bad := anyAccess_fails (by rw [own]; exact plain) fails
  refine meaning.trans ((runWord_run issues).trans (congrArg Host.Outcome.next ?_))
  rw [masked_runs mask, accesses, scalar, if_pos rfl, scalarOnce, bad]
  refine (finish_trap w u c sub _ w.active fails.real ?_).trans (raiseTrap_takes takes)
  cases active : w.active with
  | nil => exact .inl rfl
  | cons k ks =>
    have low : k < 32 := issues.active_lt k (by rw [active]; exact List.mem_cons_self)
    exact .inr ⟨k, List.mem_cons_self, ((SameStance.of_teams fails.teams).inLogged k).symm.trans (takes.unlogged low)⟩

end

theorem loadReq_sized (major : Nat) (m : MemF) (k : LsMod) (pd : Option (BitVec 3)) (w : Wd) (l : Nat) : (loadReq major m k pd w l).sized := by
  intro d x sz p kind
  obtain ⟨-, -, rfl, -⟩ := AccKind.load.inj kind
  rfl

/-- A performed access of the scratchpad (R220, R330). -/
theorem scratchAccess_does {w : Wd} {q : Req} {p : Place} {s u : State} (does : DoesLocal w q p s u) : scratchAccess w q s = .ok u := by
  obtain ⟨aligned, t, off, team, inside, present, sound, rfl, rfl⟩ := does
  simp only [scratchAccess, aligned, team, inside, present, sound, ne_eq, not_true, if_false, Bool.not_true, Bool.false_eq_true]

/-- Settles O14: the words of memory are their accesses in turn, whether all of them pass or some fail. -/
theorem memoryWords : Obligations.MemoryWords := by
  unfold Obligations.MemoryWords
  refine ⟨?_, ?_⟩
  · intro m s w t thread va done
    have word (i : Instr) (sc : Scope) (req : Wd → Nat → Req)
        (meaning : exec i s = runWord i (masked m sc fun w => accesses m (fun l st => anyAccess w (req w l) st) w) s)
        (own : ∀ l, (req w l).lane = l) (sized : ∀ l, (req w l).sized) : done i sc (req w) := fun issues mask =>
      ⟨memoryWord_passes meaning issues mask, fun u l c sub rest => memoryWord_traps meaning issues mask own sized,
        fun u c sub => memoryWord_scalar_traps meaning issues mask (own 32)⟩
    refine ⟨fun k => ⟨?_, ?_⟩, fun k => ?_, fun k => ⟨?_, ?_, ?_⟩⟩
    · exact word _ _ (loadReq 0x60 m k none) rfl (fun _ => rfl) (loadReq_sized 0x60 m k none w)
    · exact word _ _ (storeReq 0x61 m k) rfl (fun _ => rfl) fun _ => nofun
    · exact word _ _ (loadReq 0x64 m ⟨k.sz, k.order, k.scope, .dflt, false⟩ (some k.pd)) rfl (fun _ => rfl) (loadReq_sized 0x64 m _ _ w)
    · exact word _ _ (fun w => atomReq 0x68 m k true (fun t => [atomOperand m k w.gr t]) w) rfl (fun _ => rfl) fun _ => nofun
    · exact word _ _ (atomReq 0x69 m k true (vectorOperands m k)) rfl (fun _ => rfl) fun _ => nofun
    · exact word _ _ (fun w => atomReq 0x6A m k false (fun t => [atomOperand m k w.gr t]) w) rfl (fun _ => rfl) fun _ => nofun
  · intro m k s w t thread va done
    have word (i : Instr) (req : Wd → Nat → Req) (meaning : exec i s = runWord i (scratchWord m req) s) : done i (req w) := by
      intro issues runs
      have all := accesses_runs (runs_mono (fun l s u ⟨p, does⟩ => scratchAccess_does (q := req w l) (p := p) does) _ _ _ runs)
      exact meaning.trans ((runWord_run issues).trans (congrArg Host.Outcome.next ((congrArg (finish w) all).trans (finish_done ..))))
    exact ⟨word _ (loadReq 0x62 m k none) rfl, word _ (storeReq 0x63 m k) rfl⟩

end Sys2Proof.Machine
end

section
/-! PROOFS. MX units, and the words of caches and translations (R228, R268, R332 to R334, R340, R341). -/

namespace Sys2Proof.Machine

/-! MX units. -/

theorem toBytes_zero (n : Nat) : toBytes n 0 = List.replicate n 0 := by
  induction n with
  | zero => rfl
  | succ n ih => rw [toBytes, Nat.zero_div, ih]; rfl

/-- The bytes that a piece of an MX unit is read as. -/
def MxPiece.bytes (w : Wd) (u : State) (p : MxPiece) : List Byte :=
  match p.at_ with
  | .view off => memRead (((u.team? w.g.team).map Team.scratch).getD []) off p.n
  | .mem key _ => memRead u.mem key p.n
  | _ => List.replicate p.n 0

/-- What the read of a piece notes in the caches. -/
def MxPiece.touched (u : State) (p : MxPiece) : State :=
  match p.at_ with
  | .mem key e => touchRead u key e (pteEvp e)
  | _ => u

theorem MxPiece.read_eq (p : MxPiece) (w : Wd) (s : State) : p.read w s = (p.bytes w s, MxPiece.touched s p) := by
  unfold MxPiece.read MxPiece.bytes MxPiece.touched
  split <;> simp [*, Place.read, toBytes_zero]

theorem MxPiece.touched_beside (p : MxPiece) (s : State) : Beside s (p.touched s) := by
  unfold MxPiece.touched
  split <;> simp

theorem MxPiece.bytes_beside (p : MxPiece) (w : Wd) {s t : State} (same : Beside s t) : p.bytes w t = p.bytes w s := by
  unfold MxPiece.bytes
  rw [State.team?_congr same.1, same.2.1]

/-- A unit's pieces are read at one instant: what the caches note changes none of them (R278). -/
theorem mxLoad_eq (w : Wd) (ps : List MxPiece) (s : State) : mxLoad w ps s = (ps.flatMap (MxPiece.bytes w s), ps.foldl MxPiece.touched s) := by
  induction ps generalizing s with
  | nil => rfl
  | cons p ps ih =>
    have later : ps.flatMap (MxPiece.bytes w (MxPiece.touched s p)) = ps.flatMap (MxPiece.bytes w s) := by
      rw [show MxPiece.bytes w (MxPiece.touched s p) = MxPiece.bytes w s from funext fun x => x.bytes_beside w (p.touched_beside s)]
    simp only [mxLoad, p.read_eq, ih, later, List.flatMap_cons, List.foldl_cons]

/-- Settles O19: the parts of each lane's unit are found, then the unit is read or written as a whole. -/
theorem blockWords_hold : Obligations.BlockWords := by
  unfold Obligations.BlockWords
  intro m k s w t bb thread delta ea sa found bytes touched
  have word (i : Instr) (store : Bool) (meaning : exec i s = runWord i (fun w => laneLoop (mxAccess m k store w) w) s) (issues : Issues i s w)
      (runs : Runs (fun l u v => mxAccess m k store w l u = .ok v) w.acting w.s t) : exec i s = .next (afterWord w t) :=
    meaning.trans ((runWord_run issues).trans (congrArg Host.Outcome.next ((congrArg (finish w) (laneLoop_runs runs)).trans (finish_done ..))))
  have parts {store : Bool} {l : Nat} {u s2 : State} {p1 p2 : List MxPiece} (at_ : found store l u p1 p2 s2) :
      mxAccess m k store w l u =
        if store then
          let eb := toBytes bb ((thread l).getRun m.d.toNat (ETypeRegs k.et))
          let sb := toBytes 1 ((thread l).getV (m.d.toNat + ETypeRegs k.et)).toNat
          if (p1 ++ p2).any fun p => p.at_ == .remote then mxSend w k l (p1 ++ p2) (eb ++ sb) [(ea l, eb), (sa l, sb)] s2
          else .ok (mxStore w (p1 ++ p2) (eb ++ sb) s2)
        else match mxError w (p1 ++ p2) s2 with
        | some o => o
        | none =>
          let x := mxLoad w (p1 ++ p2) s2
          .ok (x.2.modLane w.g l fun y => (y.setRun m.d.toNat (ETypeRegs k.et) (ofBytes (x.1.take bb))).setV (m.d.toNat + ETypeRegs k.et)
            (BitVec.ofNat 32 (ofBytes (x.1.drop bb)))) := by
    obtain ⟨whole, aligned, s1, first, second⟩ := at_
    have ready : ¬((deltaOf m w.gr (threadOf w l)).toInt % Int.ofNat (mxBytes k.et) ≠ 0 ∨
        (w.gr.getS m.a.toNat + deltaOf m w.gr (threadOf w l)).toNat % mxAddrAlign k.et ≠ 0) := by
      rintro (odd | odd)
      · exact odd whole
      · exact odd aligned
    rw [mxAccess]
    dsimp only
    rw [if_neg ready]
    have first_ : mxPart w store (w.gr.getS m.a.toNat + deltaOf m w.gr (threadOf w l)) (mxBytes k.et)
        (if Order.acqs k.order && wide k.scope then l1Clear u w.t.core else u) = .ok (p1, s1) := first
    have second_ : mxPart w store (w.gr.getS (m.a.toNat + 1) + BitVec.ofInt 64 ((deltaOf m w.gr (threadOf w l)).toInt / Int.ofNat (mxBytes k.et)))
        1 s1 = .ok (p2, s2) := second
    rw [first_]
    dsimp only
    rw [second_]
    rfl
  refine ⟨fun issues runs => word _ false rfl issues ?_, fun issues runs => word _ true rfl issues ?_⟩
  · refine runs_mono (fun l u v ⟨p1, p2, s2, at_, sound, loaded⟩ => ?_) _ _ _ runs
    rw [parts at_, if_neg Bool.false_ne_true, sound, mxLoad_eq, loaded]
    rfl
  · refine runs_mono (fun l u v ⟨p1, p2, s2, at_, stored⟩ => ?_) _ _ _ runs
    rw [parts at_, if_pos rfl]
    rcases stored with ⟨here, rfl⟩ | ⟨⟨p, mem, away⟩, sent⟩
    · have none_ : ((p1 ++ p2).any fun p => p.at_ == .remote) = false := List.any_eq_false.2 fun p mem => by simpa using here p mem
      simp only [none_, Bool.false_eq_true, if_false]
    · have some_ : ((p1 ++ p2).any fun p => p.at_ == .remote) = true := List.any_eq_true.2 ⟨p, mem, by simpa using away⟩
      simp only [some_, if_true]
      exact sent

/-! Caches and translations. -/

section
variable {m : MemF} {w : Wd}

theorem addrsOf_eq (m : MemF) (w : Wd) : addrsOf m w = (unitsOf m w).map fun l => (addrOf m w.gr (threadOf w l)).toNat := by
  unfold addrsOf unitsOf
  split <;> rfl

/-- A word does its work at each of its addresses. -/
theorem eachAddr_eq (f : State → Nat → State) : eachAddr m f w =
    Res.done ((unitsOf m w).foldl (fun st l => f st (addrOf m w.gr (threadOf w l)).toNat) w.s) := by
  rw [eachAddr, addrsOf_eq, List.foldl_map]

theorem eachWalk_ready {f : State → Nat → State} (walks : (addrsOf m w).any (walkWaits w) = false) : eachWalk m f w = eachAddr m f w := by
  rw [eachWalk, walks, if_neg Bool.false_ne_true]

/-- A TLBI on a quiet module none of whose lanes is in a logged transaction (R269, R343). -/
theorem whenQuiet_ready {asid : Option (BitVec 12)} {body : Wd → Res} {t : State} (quiet : moduleQuiet w.s asid = true)
    (plain : ∀ l ∈ w.active, w.s.inLogged w.g l = false) (does : body { w with s := dropOrdered asid w.s } = Res.done t) :
    whenQuiet asid body w = Res.done t := by
  have none_ : (w.active.filter fun l => w.s.inLogged w.g l && !(dropOrdered asid w.s).inLogged w.g l) = [] :=
    List.filter_eq_nil_iff.2 fun l mem => by simp [plain l mem]
  rw [whenQuiet, if_pos quiet]
  dsimp only
  rw [does, none_]
  rfl

/-- The entries and filter records that a TLBI removes. -/
def tlbiCut (gone page : Nat → Bool) (st : State) : State :=
  (st.setTlb (st.tlb.filter fun e => !gone e.1)).setSys
    { st.sys with filters := st.sys.filters.map fun f => (f.1, f.2.filter fun k => !page k) }

theorem tlbiPageAt_eq (asid va : Nat) (s : State) : tlbiPageAt asid s va =
    tlbiCut (fun k => tlbAsid k == asid && tlbPrefix k == va / 2 ^ levelShift (tlbLevel k))
      (fun p => p == pageKey asid 0 va || p == pageKey asid 1 va) s := by
  simp only [tlbiPageAt, tlbiCut, Bool.not_or]
  rfl

/-- PREQ's requests, each of which is posted. -/
theorem preq_runs {f : State → Nat → Option State} {at_ : Nat → Nat} {ls : List Nat} {s t : State}
    (runs : Runs (fun l u v => f u (at_ l) = some v) ls s t) : (ls.map at_).foldlM f s = some t := by
  induction ls generalizing s with
  | nil => exact congrArg some (Eq.symm runs)
  | cons l ls ih =>
    obtain ⟨u, here, rest⟩ := runs
    rw [List.map_cons, List.foldlM_cons, here]
    exact ih rest

end

theorem acquires_iff (o : Order) (sc : Scope) : (Order.acqs o && wide sc) = true ↔ (o = .acq ∨ o = .ar) ∧ (sc = .die ∨ sc = .pkg ∨ sc = .sys) := by
  cases o <;> cases sc <;> decide

/-- Settles O20: each word does what it does at each of its addresses, or to the whole, once nothing of it has to wait. -/
theorem cacheWords : Obligations.CacheWords := by
  unfold Obligations.CacheWords
  intro m s w va asid each cut
  have ends {i : Instr} {body : Wd → Res} {t : State} (meaning : exec i s = runWord i body s) (issues : Issues i s w)
      (does : body w = Res.done t) : exec i s = .next (afterWord w t) := by
    rw [meaning, runWord_run issues, does, finish_done]
  refine ⟨fun o sc issues mask => ?_, fun issues => ends rfl issues rfl, fun issues ready => ends rfl issues ?_, fun issues ready => ends rfl issues ?_,
    fun issues quiet plain => ends rfl issues ?_, fun issues quiet plain => ends rfl issues ?_, fun issues quiet plain => ends rfl issues ?_,
    fun t issues runs => ends rfl issues ?_⟩
  · have unmasked : (sc == .pkg && field (w.gr.getS m.a.toNat).toNat 8 8 != 0) = false := by
      cases pkg : sc == .pkg with
      | false => rfl
      | true => simp [mask (by simpa using pkg)]
    refine ends rfl issues ?_
    rw [unmasked, if_neg Bool.false_ne_true, fenceBody]
    simp only [acquires_iff]
  · rw [eachWalk_ready ready, eachAddr_eq]
    rfl
  · rw [eachWalk_ready ready, eachAddr_eq]
    rfl
  · refine whenQuiet_ready quiet plain ?_
    rw [eachAddr_eq]
    simp only [tlbiPageAt_eq]
    rfl
  · exact whenQuiet_ready quiet plain rfl
  · exact whenQuiet_ready quiet plain rfl
  · have posted : (addrsOf m w).foldlM (fun st va => postResidency st w.t.core w.gr.ctl.asid.toNat w.t.ctx w.gr.ctl.priv va) w.s = some t := by
      rw [addrsOf_eq]
      exact preq_runs runs
    rw [preqBody, posted]

end Sys2Proof.Machine
end

section
/-! PROOFS. The words of the copy and matrix engines (R223, R348, R362, R365 to R369, R373, R377 to R387). -/

namespace Sys2Proof.Machine

section
variable {w : Wd}

/-- A word whose class has room runs its body (R349, R377). -/
theorem counted_room {cls : Nat} (body : Wd → Res) (room : (w.gr.counter cls).n < 63) : counted cls body w = body w :=
  if_neg (Nat.not_le.2 room)

/-- A word none of whose checks fails goes on (R377). -/
theorem checked_passes {cs : List Chk} {k : Res} (pass : ∀ c ∈ cs, c.fails = false) : checked w cs k = k := by
  have none_ : cs.find? Chk.fails = none := List.find?_eq_none.2 fun c mem => by simp [pass c mem]
  rw [checked, none_]

/-- An operation issued by the word's own group takes the next number of its class (R348, R349). -/
theorem issueOp_eq (group : w.s.group? w.g = some w.gr) (kind : OpKind) (cls : Nat) (stamp : Option (W64 × W64 × Bool)) :
    issueOp w w.s kind cls stamp = (w.s.fresh, opIssued w kind cls stamp) := by
  unfold issueOp
  rw [group]
  rfl

theorem misaligned_passes {a : W64} {k : Nat} (aligned : a.toNat % k = 0) : (misaligned a k).fails = false := by simp [misaligned, aligned]

theorem outside_passes {t : Team} {a : W64} {x : Span} (inside : spanOk t x = true) : (outside t a x).fails = false := by
  simp [outside, inside]

/-- Checks of spans that all lie inside pass. -/
theorem outsides_pass {t : Team} {xs : List (W64 × Span)} (inside : ∀ x ∈ xs, spanOk t x.2 = true) :
    ∀ c ∈ xs.map fun x => outside t x.1 x.2, c.fails = false := by
  intro c mem
  obtain ⟨x, within, rfl⟩ := List.mem_map.1 mem
  exact outside_passes (inside x within)

/-- Checks that are made under a condition. -/
theorem when_pass {p : Prop} [Decidable p] {cs : List Chk} (pass : p → ∀ c ∈ cs, c.fails = false) : ∀ c ∈ if p then cs else [], c.fails = false := by
  split
  next holds => exact pass holds
  · exact fun _ mem => nomatch mem

section
variable {f : EngF} {t : Team} (ok : f.c = 0xFF ∨ (sval w f.c).toNat % 8 = 0 ∧
  (bit f.opf.toNat 8 = true → spanOk t (Int.ofNat (sval w f.c).toNat, 8) = true))

include ok

/-- A stamp whose address is aligned, and inside the scratchpad where it lies there (R378). -/
theorem stampAligned_passes : ∀ c ∈ stampAligned (stampOfWord w f), c.fails = false := by
  unfold stampOfWord
  split
  · exact fun _ mem => nomatch mem
  next named =>
    intro c mem
    obtain rfl := List.mem_singleton.1 mem
    exact misaligned_passes (ok.resolve_left named).1

theorem stampInside_passes : ∀ c ∈ stampInside t (stampOfWord w f), c.fails = false := by
  unfold stampOfWord
  split
  · exact fun _ mem => nomatch mem
  next named =>
    cases here : bit f.opf.toNat 8 with
    | false => exact fun _ mem => nomatch mem
    | true =>
      intro c mem
      obtain rfl := List.mem_singleton.1 mem
      exact outside_passes ((ok.resolve_left named).2 here)

end

theorem append_pass {xs ys : List Chk} (first : ∀ c ∈ xs, c.fails = false) (second : ∀ c ∈ ys, c.fails = false) : ∀ c ∈ xs ++ ys, c.fails = false :=
  fun c mem => (List.mem_append.1 mem).elim (first c) (second c)

theorem cons_pass {x : Chk} {xs : List Chk} (first : x.fails = false) (rest : ∀ c ∈ xs, c.fails = false) : ∀ c ∈ x :: xs, c.fails = false :=
  List.forall_mem_cons.2 ⟨first, rest⟩

theorem nil_pass : ∀ c ∈ ([] : List Chk), c.fails = false := fun _ mem => nomatch mem

end

/-- Settles O28: with every check passed a copy word issues its operation and makes its lines absent. -/
theorem copyWords : Obligations.CopyWords := by
  unfold Obligations.CopyWords
  intro f s w own o src dst stamp stampOk group room
  have room_ : (w.gr.counter 0).n < 63 := room
  have ends {i : Instr} {body : Wd → Res} {t : State} (meaning : exec i s = runWord i (counted 0 body) s) (issues : Issues i s w)
      (does : body w = Res.done t) : exec i s = .next (afterWord w t) := by
    rw [meaning, runWord_run issues, counted_room body room_, does, finish_done]
  refine ⟨?sided, ?fill⟩
  case sided =>
    intro g t grid template ss ds smx dmx srcAligned dstAligned
    refine ⟨?copy, ?multicast⟩
    case copy =>
      intro issues ls gathers index stamped inside outside_ free
      refine ends rfl issues ?_
      have first : ((t.gathers && f.d == 0xFF) || (t.smx && f.a == 63) || (t.dmx && f.b == 63)) = false := by
        have h1 : (t.gathers && f.d == 0xFF) = false := by
          cases h : t.gathers with
          | false => rfl
          | true => simpa using gathers h
        have h2 : (t.smx && f.a == 63) = false := by
          cases h : t.smx with
          | false => rfl
          | true => simpa using smx h
        have h3 : (t.dmx && f.b == 63) = false := by
          cases h : t.dmx with
          | false => rfl
          | true => simpa using dmx h
        rw [h1, h2, h3]
        rfl
      have index_ : ∀ c ∈ if f.d = 0xFF then [] else [misaligned (sval w f.d) 4], c.fails = false := by
        split
        · exact nil_pass
        next named => exact cons_pass (misaligned_passes (index named)) nil_pass
      have found : ((gridOf w).bind fun g => g.templates[f.opf.toNat % 256]?) = some t := by rw [grid, Option.bind_some, template]
      simp only [copyBody, found]
      rw [checked_passes]
      · rw [show linesFree w.s [scratchOwner w.s w.g.team] (partLines ((w.s.team? (scratchOwner w.s w.g.team)).getD w.t) t.dspace
          (copyDest t (copyArgs w f t (sval w f.d)).dst (copyArgs w f t (sval w f.d)).dsc)) = true from free, issueOp_eq group]
        rfl
      · exact append_pass (append_pass (append_pass (append_pass (append_pass (append_pass (cons_pass first nil_pass) index_)
          (stampAligned_passes stamped)) (cons_pass (misaligned_passes srcAligned) (cons_pass (misaligned_passes dstAligned) nil_pass)))
          (when_pass fun scratch => outsides_pass (inside scratch))) (when_pass fun scratch => outsides_pass (outside_ scratch)))
          (stampInside_passes stamped)
    case multicast =>
      intro issues rs k idx ls named space gathers stamped inside held free
      refine ends rfl issues ?_
      have first : ((t.smx && f.a == 63) || (t.dmx && f.b == 63) || !t.dspace || (t.gathers && f.d.toNat + k == 64)) = false := by
        have h1 : (t.gathers && f.d.toNat + k == 64) = false := by
          cases h : t.gathers with
          | false => rfl
          | true => simpa using (gathers h).1
        have h2 : (t.smx && f.a == 63) = false := by
          cases h : t.smx with
          | false => rfl
          | true => simpa using smx h
        have h3 : (t.dmx && f.b == 63) = false := by
          cases h : t.dmx with
          | false => rfl
          | true => simpa using dmx h
        rw [h1, h2, h3, space]
        rfl
      have found : ((gridOf w).bind fun g => g.templates[f.opf.toNat % 256]?) = some t := by rw [grid, Option.bind_some, template]
      have named_ : receivers w f (field f.opf.toNat 9 2 + 1) = some rs := named
      simp only [copyMcBody, found, named_]
      rw [checked_passes]
      · rw [if_neg (Nat.not_le.2 held), show linesFree w.s ((some rs).getD []) (partLines ((w.s.team? (scratchOwner w.s w.g.team)).getD w.t) true
          (copyDest t (copyArgs w f t (w.gr.getS (f.d.toNat + (field f.opf.toNat 9 2 + 1)))).dst
            (copyArgs w f t (w.gr.getS (f.d.toNat + (field f.opf.toNat 9 2 + 1)))).dsc)) = true from free, issueOp_eq group]
        rfl
      · exact append_pass (append_pass (append_pass (append_pass (append_pass (cons_pass first (cons_pass rfl nil_pass))
          (when_pass fun gather => cons_pass (misaligned_passes (gathers gather).2) nil_pass))
          (stampAligned_passes stamped)) (cons_pass (misaligned_passes srcAligned) (cons_pass (misaligned_passes dstAligned) nil_pass)))
          (when_pass fun scratch => outsides_pass (inside scratch))) (stampInside_passes stamped)
  case fill =>
    intro issues len sp ls aligned whole fits stamped inside free
    refine ends rfl issues ?_
    rw [fillBody]
    dsimp only
    rw [checked_passes]
    · rw [show linesFree w.s [scratchOwner w.s w.g.team] (if (sval w f.a).toNat = 0 then [] else partLines
        ((w.s.team? (scratchOwner w.s w.g.team)).getD w.t) (bit f.opf.toNat 9) [((sval w f.b).toNat, (sval w f.a).toNat)]) = true from free,
        issueOp_eq group]
      rfl
    · refine append_pass (append_pass (append_pass (cons_pass (misaligned_passes aligned) (cons_pass ?_ (cons_pass ?_ nil_pass)))
        (stampAligned_passes stamped)) (when_pass fun here => ?_)) (stampInside_passes stamped)
      · have even : (sval w f.a).toNat % 8 = 0 := whole
        simp [even]
      · exact decide_eq_false (Nat.not_lt.2 fits)
      · simp only [Bool.and_eq_true, bne_iff_ne] at here
        exact cons_pass (outside_passes (inside here.1 here.2)) nil_pass

/-- The region of a matrix word inside the accumulator (R373). -/
theorem accRange_passes {t : Team} {sh : Shape} {acc row col : Nat} (inside : acc < t.accs ∧ row + sh.m ≤ 256 ∧ col + sh.n ≤ 256) :
    (accRange t sh acc row col).fails = false := by
  simp only [accRange, decide_eq_false (Nat.not_le.2 inside.1), decide_eq_false (Nat.not_lt.2 inside.2.1), decide_eq_false (Nat.not_lt.2 inside.2.2),
    Bool.or_self]

/-- Settles O29: MSHAPE grants its shape; the words of the matrix class, every check passed, issue their operation. -/
theorem matrixWords : Obligations.MatrixWords := by
  unfold Obligations.MatrixWords
  intro f s w opf own a b c inside
  refine ⟨?_, fun sh group room shape => ?_⟩
  · intro issues x enabled sh
    refine (runWord_run issues).trans (congrArg Host.Outcome.next ?_)
    have enabled_ : fmtEn (fmtSlot w (f.opf.toNat % 8)) = true := enabled
    rw [mshapeBody]
    dsimp only
    rw [enabled_, Bool.not_true, if_neg Bool.false_ne_true, finish_done]
  have room_ : (w.gr.counter 1).n < 63 := room
  have ends {i : Instr} {body : Wd → Res} {t : State} (meaning : exec i s = runWord i (counted 1 body) s) (issues : Issues i s w)
      (does : body w = Res.done t) : exec i s = .next (afterWord w t) := by
    rw [meaning, runWord_run issues, counted_room body room_, does, finish_done]
  refine ⟨?mma, ?_⟩
  case mma =>
    intro issues x m enabled whole scaled region aligned alignedB scales spans
    refine ends rfl issues ?_
    have first : (!fmtEn x || sh.k % granule x != 0 || (f.c == 0xFF && fmtMode x != 0)) = false := by
      have h3 : (f.c == 0xFF && fmtMode x != 0) = false := by
        cases h : f.c == 0xFF with
        | false => rfl
        | true => simp [scaled (by simpa using h)]
      rw [enabled, whole, h3]
      rfl
    simp only [mmaBody, shape]
    rw [checked_passes]
    · rw [issueOp_eq group]
    · refine append_pass (append_pass (cons_pass first (cons_pass (accRange_passes region) (cons_pass (misaligned_passes aligned)
        (cons_pass (misaligned_passes alignedB) nil_pass)))) (when_pass fun mx => ?_)) ?_
      · have scaled_ := scales (by simpa using mx)
        exact cons_pass (misaligned_passes scaled_.1) (cons_pass (misaligned_passes scaled_.2) nil_pass)
      · intro k mem
        obtain ⟨y, within, rfl⟩ := List.mem_map.1 mem
        exact outside_passes (spans y within)
  · intro ty acc row col k region
    refine ⟨fun aligned stride span => ?_, fun issues => ends rfl issues ?_⟩
    · have passes {cont : Res} : checked w ([accRange w.t sh acc row col, misaligned a k, ⟨b.toNat % k != 0, cMISALIGNED, 0, a⟩] ++
          (if bit opf 14 then [outside own a (accSpan sh a b k)] else [])) cont = cont := by
        refine checked_passes (append_pass (cons_pass (accRange_passes region) (cons_pass (misaligned_passes aligned)
          (cons_pass (by simp [stride]) nil_pass))) (when_pass fun here => cons_pass (outside_passes (span here)) nil_pass))
      refine ⟨fun issues => ends rfl issues ?_, fun issues => ends rfl issues ?_⟩
      · simp only [accBody, shape]
        exact passes.trans (by rw [issueOp_eq group]; rfl)
      · simp only [accBody, shape]
        exact passes.trans (by rw [issueOp_eq group]; rfl)
    · simp only [acczBody, shape]
      rw [checked_passes (cons_pass (accRange_passes region) nil_pass), issueOp_eq group]

end Sys2Proof.Machine
end

section
/-! PROOFS. Waits, monitors and the words of collectives (R351, R358, R389, R390, R444 to R447). -/

namespace Sys2Proof.Machine

theorem finish_parkAll (w : Wd) (s : State) (p : Park) : finish w (parkAll w s p) = parked w p s := finish_parked w s p

section
variable {f : EngF} {w : Wd}

/-- The monitor that a MONW arms (R358, R390). -/
def monitorOf (f : EngF) (w : Wd) (s : State) : Mon :=
  { g := w.g, lanes := maskOf w.acting, pc := w.pc, va := sval w f.a, sp := bit f.opf.toNat 3, target := sval w f.b
    deadline := if f.c = 0xFF then none else some (s.time.datum + (sval w f.c).toNat), d := f.d
    pd := BitVec.ofNat 3 f.opf.toNat, polling := false, since := s.time.clk, last := 0, dirty := false, resumed := false
    asid := w.gr.ctl.asid, priv := w.gr.ctl.priv }

/-- MONW of a word that has reached the target (R358, R390). -/
theorem monArm_satisfied {s s1 : State} {x : W64} (read : monRead s w.t.core (monitorOf f w s) = (x, s1))
    (reached : (sval w f.b).toNat ≤ x.toNat) :
    monArm f w s = Res.done (((l1Clear s1 w.t.core).modGroup w.g fun g => g.setS f.d.toNat x).modLanes w.g w.acting fun _ t =>
      t.setP (f.opf.toNat % 8) true) := by
  have read_ := read
  rw [monitorOf] at read_
  simp only [monArm, read_, if_pos reached, monReport]

/-- MONW of a word below the target parks with its monitor (R358, R390). -/
theorem monArm_armed {s s1 : State} {x : W64} (read : monRead s w.t.core (monitorOf f w s) = (x, s1))
    (below : x.toNat < (sval w f.b).toNat) : ∃ polling, monArm f w s = parkAll w ((s1.setFresh (s1.fresh + 1)).setMons
      (amPut s1.mons s1.fresh { monitorOf f w s with last := x, polling := polling })) (.monitor s1.fresh) := by
  have read_ := read
  rw [monitorOf] at read_
  refine ⟨!bit f.opf.toNat 3 && ((sval w f.a).toNat / 2 ^ 60 == 9 || (sval w f.a).toNat / 2 ^ 60 == 10) || decide (64 ≤ armedOn s1 w.t.core), ?_⟩
  simp only [monArm, read_, if_neg (Nat.not_le.2 below)]
  rfl

/-- A monitor's read of a word of the scratchpad. -/
theorem monRead_scratch {s : State} {t : Team} (here : bit f.opf.toNat 3 = true) (team : s.team? (scratchOwner s w.g.team) = some t) :
    monRead s w.t.core (monitorOf f w s) = (BitVec.ofNat 64 (memNat t.scratch (sval w f.a).toNat 8), s) := by
  simp only [monRead, monitorOf, here, team, if_true]

/-- A monitor's read of a word of a resident page. -/
theorem monRead_memory {s s1 : State} {key e : Nat} (here : bit f.opf.toNat 3 = false) (team : s.team? w.g.team = some w.t)
    (noView : viewOf w.t (sval w f.a).toNat = none)
    (looked : xlate s w.t.core w.gr.ctl.asid.toNat w.gr.ctl.priv .read (sval w f.a).toNat = (.ok key e, s1)) (sound : inError s1 key = false) :
    monRead s w.t.core (monitorOf f w s) = (BitVec.ofNat 64 (memNat s1.mem key 8), touchRead s1 key e (pteEvp e)) := by
  simp only [monRead, monitorOf, here, team, Option.bind_some, noView, looked, sound, Bool.false_eq_true, if_false]

/-- MONW of a word of the scratchpad whose lines are present reads it (R358, R390). -/
theorem monwBody_scratch (aligned : (sval w f.a).toNat % 8 = 0) (here : bit f.opf.toNat 3 = true)
    (inside : spanOk ((w.s.team? (scratchOwner w.s w.g.team)).getD w.t) (Int.ofNat (sval w f.a).toNat, 8) = true)
    (present : linesPresent ((w.s.team? (scratchOwner w.s w.g.team)).getD w.t) (sval w f.a).toNat 8 = true) : monwBody f w = monArm f w w.s := by
  simp only [monwBody, if_neg (not_not.2 aligned), here, inside, present, if_true, Bool.not_true, Bool.false_eq_true, if_false]

end

/-- Settles O30: a wait goes on or parks by its counter, a monitor by its first read. -/
theorem waitWords : Obligations.WaitWords := by
  unfold Obligations.WaitWords
  intro f s w cls n va target own satisfied
  refine ⟨fun issues => ?_, ?_, ?_⟩
  · refine (runWord_run issues).trans (congrArg Host.Outcome.next ?_)
    by_cases room : (w.gr.counter cls).n ≤ n
    · rw [if_pos room, ← finish_done]
      exact congrArg (finish w) (if_neg (Nat.not_lt.2 room))
    · rw [if_neg room, ← finish_parkAll]
      exact congrArg (finish w) (if_pos (Nat.lt_of_not_le room))
  · intro issues aligned here inside present team x
    have body := monwBody_scratch aligned here inside present
    have read := monRead_scratch (f := f) here team
    refine ⟨fun reached => ?_, fun below => ?_⟩
    · refine (runWord_run issues).trans (congrArg Host.Outcome.next ?_)
      rw [body, monArm_satisfied read reached, finish_done]
    · obtain ⟨polling, armed⟩ := monArm_armed read below
      exact ⟨_, { monitorOf f w w.s with last := x, polling := polling }, (runWord_run issues).trans (congrArg Host.Outcome.next
        ((congrArg (finish w) (body.trans armed)).trans (finish_parkAll ..))), (amGet_amPut ..).trans (if_pos rfl), rfl, rfl, rfl, rfl, here, rfl,
        rfl, rfl⟩
  · intro issues aligned away noView team alone key e s1 looked free noOlder sound again teams reached
    have body : monwBody f w = monArm f w s1 := by
      have aligned_ : ¬(sval w f.a).toNat % 8 ≠ 0 := not_not.2 aligned
      have looked_ : xlate w.s w.t.core w.gr.ctl.asid.toNat w.gr.ctl.priv .read (sval w f.a).toNat = (.ok key e, s1) := looked
      have noView_ : viewOf w.t (sval w f.a).toNat = none := noView
      have alone_ : remoteOlder w.s w.g w.t.core w.gr.ctl.asid.toNat (sval w f.a).toNat = none := alone
      simp only [monwBody, if_neg aligned_, away, Bool.false_eq_true, if_false, noView_, alone_, looked_, free, noOlder, sound]
    have team_ : s1.team? w.g.team = some w.t := (State.team?_congr teams _).trans team
    refine (runWord_run issues).trans (congrArg Host.Outcome.next ?_)
    rw [body, monArm_satisfied (monRead_memory away team_ noView again sound) reached, finish_done]

/-- The round that a core's next collective word belongs to, found or opened (R443). -/
theorem roundFor_open (s : State) (grid tree num : Nat) (pending : ∀ x, findRound s grid tree num = some x → x.2.result = none) :
    let r := roundFor s grid tree num
    r.2.1.grid = grid ∧ r.2.1.tree = tree ∧ r.2.1.num = num ∧ r.2.1.result = none ∧ r.2.2.mem = s.mem ∧ r.2.2.cores = s.cores ∧
      r.2.2.teams = s.teams := by
  unfold roundFor
  cases found : findRound s grid tree num with
  | none => exact ⟨rfl, rfl, rfl, rfl, rfl, rfl, rfl⟩
  | some x =>
    have named := List.find?_some found
    simp only [Bool.and_eq_true, beq_iff_eq] at named
    exact ⟨named.1.1, named.1.2, named.2, pending x found, rfl, rfl, rfl⟩

/-- A contribution to an unbroken tree whose round has no result (R444 to R446). -/
theorem contribute_joins {w : Wd} {tree : Nat} {t : Tree} {c : Contribution} (group : w.s.group? w.g = some w.gr) (sound : t.broken = false)
    (pending : ∀ x, findRound w.s w.t.grid tree (amGetD (w.s.core w.t.core).nextRound (w.t.grid * 16 + tree) 0) = some x → x.2.result = none) :
    ∃ v id r, contribute w tree t c = Res.done v ∧ amGet v.rounds id = some r ∧ r.grid = w.t.grid ∧ r.tree = tree ∧
      r.num = amGetD (w.s.core w.t.core).nextRound (w.t.grid * 16 + tree) 0 ∧ r.result = none ∧ { c with seq := w.gr.net.seq } ∈ r.contribs ∧
      amGetD (v.core w.t.core).nextRound (w.t.grid * 16 + tree) 0 = amGetD (w.s.core w.t.core).nextRound (w.t.grid * 16 + tree) 0 + 1 ∧
      v.mem = w.s.mem ∧ (v.group? w.g).map (fun g => g.net.n) = some (w.gr.net.n + 1) := by
  let num := amGetD (w.s.core w.t.core).nextRound (w.t.grid * 16 + tree) 0
  let s1 := w.s.modCore w.t.core fun x => { x with nextRound := amPut x.nextRound (w.t.grid * 16 + tree) (num + 1) }
  let r := roundFor s1 w.t.grid tree num
  let n := issueOp w r.2.2 (.net r.1 c.bar c.d c.sc) 2 none
  obtain ⟨grid, tree_, num_, result, mem, cores, teams⟩ := roundFor_open s1 w.t.grid tree num pending
  have group_ : r.2.2.group? w.g = some w.gr := (State.group?_congr teams _).trans group
  refine ⟨n.2.setRounds (amPut n.2.rounds r.1 { r.2.1 with contribs := r.2.1.contribs ++ [{ c with seq := w.gr.net.seq }] }), r.1,
    { r.2.1 with contribs := r.2.1.contribs ++ [{ c with seq := w.gr.net.seq }] }, ?_, (amGet_amPut ..).trans (if_pos rfl), grid, tree_, num_,
    result, ?_, ?_, mem, ?_⟩
  · rw [contribute]
    dsimp only
    rw [sound, if_neg Bool.false_ne_true]
    split
    next done => exact absurd (done.symm.trans result) nofun
    · rfl
  · exact List.mem_append_right _ (List.mem_singleton_self _)
  · have core : (n.2.setRounds (amPut n.2.rounds r.1 { r.2.1 with contribs := r.2.1.contribs ++ [{ c with seq := w.gr.net.seq }] })).core w.t.core =
        s1.core w.t.core := by
      show amGetD r.2.2.cores w.t.core _ = _
      rw [cores]
      rfl
    rw [core, State.core_modCore, if_pos rfl, amGetD, amGet_amPut, if_pos rfl]
    rfl
  · have counted : (n.2.group? w.g).map (fun g => g.net.n) = some (((r.2.2.group? w.g).getD w.gr).net.n + 1) := by
      rw [show n.2.group? w.g = (r.2.2.group? w.g).map _ from State.group?_modGroup .., group_]
      rfl
    rw [group_] at counted
    exact counted

/-- Settles O31: NRED and NBAR are contributions of their core. -/
theorem collectiveWords : Obligations.CollectiveWords := by
  unfold Obligations.CollectiveWords
  intro f s w t tree num ty vals joins group room named sound pending
  have word (i : Instr) (body : Wd → Res) (c : Contribution) (meaning : exec i s = runWord i (counted 2 body) s)
      (does : body w = contribute w tree t c) : joins i { c with seq := w.gr.net.seq } := by
    intro issues
    obtain ⟨v, id, r, done, there, grid, tree_, num_, result, mem, next_, memory, counter⟩ := contribute_joins (c := c) group sound pending
    refine ⟨afterWord w v, id, r, ?_, there, grid, tree_, num_, result, mem, next_, memory, ?_⟩
    · rw [meaning, runWord_run issues, counted_room body (show (w.gr.counter 2).n < 63 from room), does, done, finish_done]
    · rw [afterWord, State.modLanes, State.group?_modGroup, Option.map_map]
      exact counter
  have named_ : treeOf w (field f.opf.toNat 12 4) = some t := named
  refine ⟨word _ _ ⟨w.t.core, w.g, 0, false, field f.opf.toNat 8 3, field f.opf.toNat 0 5, vals, maskOf w.acting, f.d, f.c⟩ rfl ?_,
    word _ _ ⟨w.t.core, w.g, 0, true, 0, 0, [], 0, f.d, f.d⟩ rfl ?_⟩
  · simp only [nredBody, named_]
    rfl
  · simp only [nbarBody, named_]
    rfl

end Sys2Proof.Machine
end

section
/-! PROOFS. The words of the control registers, the return from a trap and HALT (R21, R270, R271, R399, R404, R408 to R411, R459). -/

namespace Sys2Proof.Machine

/-! Control registers. -/

theorem mfc_value (s : State) (t : Team) (gr : Group) (r : Nat) : readCtl s t gr r = (match r with
    | 0x000 => privstat s t gr
    | 0x001 => gr.ctl.trapbase
    | 0x002 => gr.ctl.cause
    | 0x003 => gr.ctl.pc
    | 0x004 => gr.ctl.addr
    | 0x005 => gr.ctl.fin
    | 0x006 => gr.ctl.seq
    | 0x010 => gr.ctl.asid.setWidth 64
    | 0x011 => gr.ctl.ptbase
    | 0x020 => gr.ctl.ms0
    | 0x021 => gr.ctl.ms1
    | 0x022 => gr.ctl.ms2
    | 0x023 => gr.ctl.ms3
    | _ =>
      if 0x100 ≤ r ∧ r < 0x108 then BitVec.ofNat 64 (amGetD (s.core t.core).cev (r - 0x100) 0)
      else if 0x108 ≤ r ∧ r < 0x110 then BitVec.ofNat 64 (amGetD (s.core t.core).csel (r - 0x108) 0)
      else if 0x110 ≤ r ∧ r < 0x120 then BitVec.ofNat 64 (amGetD (s.die (t.core / 32)).dev (r - 0x110) 0)
      else if 0x120 ≤ r ∧ r < 0x130 then BitVec.ofNat 64 (amGetD (s.die (t.core / 32)).dsel (r - 0x120) 0)
      else 0) := by
  split
  case h_14 r n0 n1 n2 n3 n4 n5 n6 n10 n11 n20 n21 n22 n23 =>
    rw [readCtl]
    simp only [if_neg n0, if_neg n1, if_neg n2, if_neg n3, if_neg n4, if_neg n5, if_neg n6, if_neg n10, if_neg n11, if_neg n20, if_neg n21,
      if_neg n22, if_neg n23]
  all_goals rfl

/-- PRIVSTAT's bits, by the kind of the team that is served (R399). -/
theorem privstat_eq (s : State) (t : Team) (gr : Group) : privstat s t gr = BitVec.ofNat 64 ((match servedKind s t with
    | .task => 8
    | .handler => 4
    | .merge => 0
    | .grid => 0) + (if t.kind = .merge then 2 else 0) + if gr.ctl.priv then 1 else 0) := by
  rw [privstat]
  cases servedKind s t <;> rfl

/-- An MTC whose value sets no reserved bit acts (R408). -/
theorem mtcChecked_acts {f : SysF} {body : W64 → Wd → State} {w : Wd} (legal : ctlReserved f.crx.toNat (mtcValue f w).toNat = false) :
    mtcChecked f body w = Res.done (body (mtcValue f w) w) := by
  rw [mtcChecked, legal]
  rfl

theorem mtcValue_eq {f : SysF} {w : Wd} (some_ : w.acting ≠ []) : mtcValue f w = if f.x then w.gr.getS f.a.toNat
    else BitVec.ofNat 64 (((w.gr.lane? (w.acting.headD 0)).map fun t => t.getRun f.a.toNat 2).getD 0) := by
  rw [mtcValue]
  cases acting : w.acting with
  | nil => exact absurd acting some_
  | cons l ls => rfl

theorem field_high {n lo len : Nat} (low : n < 2 ^ lo) : field n lo len = 0 := by rw [field, Nat.div_eq_of_lt low, Nat.zero_mod]

/-- Which values of a counter, and of a selector, set no reserved bit (R459). -/
theorem counter_legal {r v : Nat} (counter : (0x100 ≤ r ∧ r < 0x108) ∨ (0x110 ≤ r ∧ r < 0x120)) (low : v < 2 ^ 48) : ctlReserved r v = false := by
  have zero : field v 48 16 = 0 := field_high low
  rw [ctlReserved, if_neg (by omega), if_neg (by omega), if_neg (by omega), if_pos counter, zero]
  rfl

theorem selector_legal {r v : Nat} (selector : (0x108 ≤ r ∧ r < 0x110) ∨ (0x120 ≤ r ∧ r < 0x130)) (low : v < 2 ^ 16)
    (gap : v / 2 ^ 8 % 2 ^ 6 = 0) (real : 1 ≤ v % 2 ^ 8) (known : v % 2 ^ 8 ≤ 0x0D) : ctlReserved r v = false := by
  have high : field v 16 48 = 0 := field_high low
  have middle : field v 8 6 = 0 := gap
  have code : field v 0 8 = v % 2 ^ 8 := by rw [field, Nat.pow_zero, Nat.div_one]
  rw [ctlReserved, if_neg (by omega), if_neg (by omega), if_neg (by omega), if_neg (by omega), high, middle, code]
  simp only [bne_self_eq_false, Bool.false_or, Bool.or_eq_false_iff, beq_eq_false_iff_ne, decide_eq_false_iff_not]
  omega

theorem selWritten_eq (old new : Nat) : selWritten old new = if bit new 14 = true ∧ bit old 14 = false then new - 2 ^ 14 else new := by
  rw [selWritten]
  simp only [Bool.and_eq_true, Bool.not_eq_true']

/-- Settles O32: MFC reads the register of its number; an MTC with no reserved bit writes its own. -/
theorem controlRegisters : Obligations.ControlRegisters := by
  unfold Obligations.ControlRegisters
  refine ⟨?_, ?_⟩
  · intro f s w issues c r kindBit v
    have value : readCtl w.s w.t w.gr f.crx.toNat = v := by
      rw [mfc_value, privstat_eq] <;> rfl
    refine (runWord_run issues).trans (congrArg Host.Outcome.next ?_)
    simp only [mfcBody, value]
    split
    · exact finish_done ..
    · exact finish_lanes ..
  · intro f s w v r sel ctl counted
    have ends {i : Instr} {body : W64 → Wd → State} (meaning : exec i s = runWord i (mtcChecked f body) s) (issues : Issues i s w)
        (legal : ctlReserved r v.toNat = false) : exec i s = .next (afterWord w (body v w)) := by
      have value : mtcValue f w = v := mtcValue_eq issues.acting
      rw [meaning, runWord_run issues, mtcChecked_acts (by rw [value]; exact legal), value, finish_done]
    refine ⟨fun issues at_ high gap low => ?_, fun issues at_ low => ?_, fun issues => ⟨fun at_ aligned => ?_, fun from_ to_ low => ?_,
      fun from_ to_ low => ?_, fun low gap real known => ⟨fun from_ to_ => ?_, fun from_ to_ => ?_⟩⟩⟩
    · refine ends (body := ptbaseBody) rfl issues ?_
      have top : field v.toNat 51 13 = 0 := by rw [field, high, Nat.zero_mod]
      have middle : field v.toNat 37 11 = 0 := gap
      have bottom : field v.toNat 1 14 = 0 := by rw [field, Nat.pow_one, low]
      rw [at_, ctlReserved, if_neg (by decide), if_neg (by decide), if_pos rfl, top, middle, bottom]
      rfl
    · refine ends (body := asidBody) rfl issues ?_
      rw [at_, ctlReserved, if_neg (by decide), if_pos rfl, field_high low]
      rfl
    · refine (ends (body := mtcBody f) rfl issues ?_).trans ?_
      · rw [at_, ctlReserved, if_pos rfl, field]
        simp [aligned]
      · rw [mtcBody, if_pos at_]
    · refine (ends (body := mtcBody f) rfl issues (counter_legal (.inl ⟨from_, to_⟩) low)).trans ?_
      rw [mtcBody, if_neg (by omega), if_pos to_]
      rfl
    · refine (ends (body := mtcBody f) rfl issues (counter_legal (.inr ⟨from_, to_⟩) low)).trans ?_
      rw [mtcBody, if_neg (by omega), if_neg (by omega), if_neg (by omega), if_pos to_]
      rfl
    · refine (ends (body := mtcBody f) rfl issues (selector_legal (.inl ⟨from_, to_⟩) low gap real known)).trans ?_
      rw [mtcBody, if_neg (by omega), if_neg (by omega), if_pos to_]
      simp only [selWritten_eq]
      rfl
    · refine (ends (body := mtcBody f) rfl issues (selector_legal (.inr ⟨from_, to_⟩) low gap real known)).trans ?_
      rw [mtcBody, if_neg (by omega), if_neg (by omega), if_neg (by omega), if_neg (by omega)]
      simp only [selWritten_eq]
      rfl

/-! The return from a trap. -/

/-- Consecutive s-registers written one after the other. -/
theorem foldl_setS_same {β : Type*} (at_ : β → Nat) (val : β → W64) (ls : List β) (gr : Group) :
    ∃ s, ls.foldl (fun x b => x.setS (at_ b) (val b)) gr = { gr with s := s } := by
  refine List.foldlRecOn (motive := fun x => ∃ y : AMap W64, x = { gr with s := y }) ls _ ⟨gr.s, rfl⟩ ?_
  rintro _ ⟨s, rfl⟩ b -
  exact ⟨_, rfl⟩

theorem getS_foldl_setS (base : Nat) (val : Nat → W64) (n : Nat) (gr : Group) (j : Nat) :
    ((List.range n).foldl (fun x k => x.setS (base + k) (val k)) gr).getS j = if base ≤ j ∧ j < base + n then val (j - base) else gr.getS j := by
  induction n with
  | zero => rw [if_neg (by omega)]; rfl
  | succ n ih =>
    rw [List.range_succ, List.foldl_append, List.foldl_cons, List.foldl_nil, Group.getS_setS, ih]
    by_cases here : j = base + n
    · rw [if_pos here, if_pos (by omega), here, Nat.add_sub_cancel_left]
    · rw [if_neg here]
      exact if_congr (by omega) rfl rfl

section
variable (gr : Group) (h : HandlerCtx) (bs : List Byte)

/-- What ERET leaves of a group: its s-registers, its lanes from their records, and user mode (R409). -/
theorem Group.leave_eq : ∃ s, gr.leave h bs = { gr with
    s := s, lanes := gr.lanes.mapIdx fun l t => t.fromFrame h l ((bs.drop (0x80 + 48 * l)).take 48)
    ctl := { gr.ctl with priv := false, ms0 := 0, ms1 := 0, ms2 := 0, ms3 := 0 }, handler := none } := by
  obtain ⟨s1, frame⟩ := foldl_setS_same (fun k => 56 + k) (fun k => BitVec.ofNat 64 (num bs (0x40 + 8 * k) 8)) (List.range 8) gr
  obtain ⟨s2, woken⟩ := foldl_setS_same Prod.fst Prod.snd (wakeScalars h) { gr with s := s1 }
  refine ⟨s2, ?_⟩
  rw [Group.leave]
  simp only [frame, woken]

theorem Group.leave_lane? (l : Nat) : (gr.leave h bs).lane? l = (gr.lane? l).map fun t => t.fromFrame h l ((bs.drop (0x80 + 48 * l)).take 48) := by
  obtain ⟨s, eq⟩ := gr.leave_eq h bs
  rw [eq]
  exact List.getElem?_mapIdx

theorem Group.leave_getS (none_ : wakeScalars h = []) (j : Nat) :
    (gr.leave h bs).getS j = if 56 ≤ j ∧ j < 64 then BitVec.ofNat 64 (num bs (0x40 + 8 * (j - 56)) 8) else gr.getS j := by
  rw [← getS_foldl_setS 56 (fun k => BitVec.ofNat 64 (num bs (0x40 + 8 * k) 8)) 8 gr j, Group.leave, none_]
  rfl

end

/-- A lane whose word was not parked at entry is not parked after the return. -/
theorem Thread.fromFrame_park (t : Thread) (h : HandlerCtx) (l : Nat) (r : List Byte) (awake : h.parks.getD l none = none) :
    (t.fromFrame h l r).park = none := by
  unfold Thread.fromFrame
  dsimp only
  split
  · exact congrArg Thread.park (Thread.setRun_sameButV ..).choose_spec
  · split
    · rfl
    · rw [awake]

/-- A group none of whose lanes is held begins no transaction (R314, R344). -/
theorem Group.letBegin_awake {gr : Group} (awake : ∀ t ∈ gr.lanes, t.park = none) : gr.letBegin = gr := by
  have begun : gr.lanes.map Thread.beginHeld = gr.lanes := by
    refine (List.map_congr_left fun t mem => ?_).trans (List.map_id _)
    rw [Thread.beginHeld, awake t mem]
    rfl
  have none_ : heldMax gr.lanes = 0 := by
    rw [heldMax]
    refine List.foldlRecOn (motive := fun n => n = 0) gr.lanes _ rfl fun n zero t mem => ?_
    have unheld : t.held = false := by rw [Thread.held, awake t mem]
    simp [unheld, zero]
  rw [Group.letBegin, begun, Group.emptyRounds, none_]
  simp

/-- A group none of whose lanes is parked owes no trap of a SYNC (R208). -/
theorem syncSettle_awake {s : State} {g : GRef} {gr : Group} (group : s.group? g = some gr) (awake : ∀ t ∈ gr.lanes, t.park = none) :
    syncSettle s g = s := by
  rw [syncSettle, group]
  dsimp only
  split
  · rfl
  · split
    · rfl
    next found =>
      obtain ⟨l, -, owes⟩ := List.exists_of_findSome?_eq_some found
      cases lane : gr.lane? l with
      | none => rw [lane] at owes; cases owes
      | some t => rw [lane, Option.bind_some, awake t (List.mem_of_getElem? lane)] at owes; cases owes

theorem readRaw_beside {s u : State} {core asid : Nat} {priv : Bool} {va n : Nat} {bs : List Byte}
    (read : readRaw s core asid priv va n = .ok (bs, u)) : Beside s u := by
  unfold readRaw readBytes at read
  have looked := xlateAll_beside core asid priv .read (pieces va n) s
  split at read
  · cases read
  next ks s1 found =>
    rw [found] at looked
    split at read
    · cases read
    · cases read
      exact Beside.trans looked (beside_foldl _ (fun st k => touchRead_beside ..) ks s1)

/-- A frame that can be read does not have to wait. -/
theorem rangeWaits_read {s u : State} {core asid : Nat} {priv : Bool} {va n : Nat} {bs : List Byte}
    (read : readRaw s core asid priv va n = .ok (bs, u)) : rangeWaits s core asid priv .read va n = false := by
  unfold readRaw readBytes at read
  rw [rangeWaits]
  split at read
  · cases read
  next found => rw [found, Bool.and_false]

/-- The return of a group whose lanes were not parked at the trap, with no faulted merge and no held fault (R404, R409). -/
theorem returnTrap_awake {s u : State} {g : GRef} {t : Team} {gr : Group} {h : HandlerCtx} {bs : List Byte} (team : s.team? g.team = some t)
    (group : s.group? g = some gr) (handler : gr.handler = some h) (merge : h.merge = none) (held : gr.held = [])
    (read : readRaw s t.core gr.ctl.asid.toNat true h.frame.toNat 2048 = .ok (bs, u)) (awake : ∀ l, h.parks.getD l none = none) :
    returnTrap s g = retire (u.modGroup g fun x => x.leave h bs) g.team := by
  have unparked (x : Group) : ∀ y ∈ (x.leave h bs).lanes, y.park = none := by
    intro y mem
    obtain ⟨l, at_⟩ := List.getElem?_of_mem mem
    have lane : (x.leave h bs).lane? l = some y := at_
    rw [Group.leave_lane?, Option.map_eq_some_iff] at lane
    obtain ⟨z, -, rfl⟩ := lane
    exact z.fromFrame_park h l _ (awake l)
  have begun : whileRunning (u.modGroup g fun x => x.leave h bs) g Group.letBegin = u.modGroup g fun x => x.leave h bs := by
    unfold whileRunning
    split
    · rw [modGroup_modGroup]
      exact congrArg (u.modGroup g) (funext fun x => Group.letBegin_awake (unparked x))
    · rfl
  have after : (u.modGroup g fun x => x.leave h bs).group? g = some (gr.leave h bs) := by
    rw [State.group?_modGroup, State.group?_congr (readRaw_beside read).1, group]
    rfl
  obtain ⟨regs, left⟩ := gr.leave_eq h bs
  have handler_ : (gr.leave h bs).handler = none := by rw [left]
  have held_ : (gr.leave h bs).held = [] := by rw [left]; exact held
  have delivered : deliverFault (u.modGroup g fun x => x.leave h bs) g = u.modGroup g fun x => x.leave h bs := by
    rw [deliverFault, after]
    simp only [held_]
  simp only [returnTrap, team, group, handler, read, merge, begun, syncSettle_awake after (unparked gr), after, delivered, Option.map_some, handler_,
    Option.isNone_none, Option.getD_some, if_true]

/-! Records of the frame. -/

theorem num_record {bs : List Byte} {a n o k : Nat} (inside : o + k ≤ n) : num ((bs.drop a).take n) o k = num bs (a + o) k := by
  rw [num, num, List.drop_take, List.take_take, List.drop_drop, Nat.min_eq_left (by omega)]

theorem ofBytes_drop (bs : List Byte) (k : Nat) : ofBytes (bs.drop k) = ofBytes bs / 256 ^ k := by
  induction k generalizing bs with
  | zero => simp
  | succ k ih =>
    cases bs with
    | nil => simp [ofBytes]
    | cons b rest =>
      have here := b.isLt
      rw [List.drop_succ_cons, ih, ofBytes, Nat.pow_succ', ← Nat.div_div_eq_div_mul]
      congr 1
      omega

theorem ofBytes_take (bs : List Byte) (k : Nat) : ofBytes (bs.take k) = ofBytes bs % 256 ^ k := by
  induction k generalizing bs with
  | zero => simp [ofBytes, Nat.mod_one]
  | succ k ih =>
    cases bs with
    | nil => simp [ofBytes]
    | cons b rest =>
      have here := b.isLt
      rw [List.take_succ_cons, ofBytes, ih, ofBytes, Nat.pow_succ', Nat.mod_mul]
      have low : (b.toNat + 256 * ofBytes rest) % 256 = b.toNat := by omega
      have high : (b.toNat + 256 * ofBytes rest) / 256 = ofBytes rest := by omega
      rw [low, high]

theorem num_eq (bs : List Byte) (o k : Nat) : num bs o k = ofBytes bs / 256 ^ o % 256 ^ k := by
  rw [num, ofBytes_take, ofBytes_drop]

/-- A register of a record of 16 bytes. -/
theorem num_register (bs : List Byte) (o : Nat) {k : Nat} (low : k < 4) :
    BitVec.ofNat 32 (num bs o 16 / 2 ^ (32 * k)) = BitVec.ofNat 32 (num bs (o + 4 * k) 4) := by
  have pow : (256 : Nat) ^ (4 * k) = 2 ^ (32 * k) := by rw [show (256 : Nat) = 2 ^ 8 from rfl, ← Nat.pow_mul, ← Nat.mul_assoc]
  apply BitVec.eq_of_toNat_eq
  rw [BitVec.toNat_ofNat, BitVec.toNat_ofNat, num_eq, num_eq, Nat.pow_add, ← Nat.div_div_eq_div_mul, pow]
  generalize ofBytes bs / 256 ^ o = x
  interval_cases k <;> omega

theorem Thread.getRun_setRun (t : Thread) (r n x : Nat) : (t.setRun r n x).getRun r n = x % 2 ^ (32 * n) := by
  induction n generalizing t r x with
  | zero => simp [Thread.getRun, Nat.mod_one]
  | succ n ih =>
    rw [Thread.setRun, Thread.getRun, ih, Thread.getV_setRun_other _ _ (by omega), Thread.getV_setV, if_pos rfl, BitVec.toNat_ofNat,
      Nat.mul_succ, Nat.add_comm (32 * n), Nat.pow_add, Nat.mod_mul]

/-- The state in which a word's acting lanes stand at its ERET. -/
def eretState (w : Wd) : State := w.s.modLanes w.g w.acting fun _ t => { t with park := some .eret }

theorem eretState_group {w : Wd} {gr : Group} (group : w.s.group? w.g = some gr) :
    (eretState w).group? w.g = some (gr.modLanes w.acting fun _ t => { t with park := some .eret }) := by
  rw [eretState, State.modLanes, State.group?_modGroup, group]
  rfl

theorem eretBody_waits {w : Wd} (notAll : (((eretState w).group? w.g).map allAtEret).getD false = false) :
    eretBody w = { Res.done (eretState w) with stay := w.active } := 
  if_neg fun yes => Bool.false_ne_true (notAll.symm.trans yes)

theorem eretBody_returns {w : Wd} {t : State} (all : (((eretState w).group? w.g).map allAtEret).getD false = true)
    (ready : returnLocked (eretState w) w.g = false) (returns : returnTrap (eretState w) w.g = t) :
    eretBody w = { Res.done t with stay := w.active } := by
  subst returns
  exact (if_pos all).trans (if_neg fun yes => Bool.false_ne_true (ready.symm.trans yes))

/-- A word that every lane leaves to the state that its body has made. -/
theorem finish_stay_all (w : Wd) (t : State) : finish w { Res.done t with stay := w.active } = t := by
  have none_ : (w.active.filter fun l => !w.active.contains l) = [] := List.filter_eq_nil_iff.2 fun l mem => by simp [mem]
  rw [finish_stay, none_]
  exact State.modGroup_id _ _ _ Group.modLanes_nil

/-- Settles O33: ERET parks until every lane stands at one, then the group leaves its trap; HALT ends the team. -/
theorem returnAndHalt : Obligations.ReturnAndHalt := by
  unfold Obligations.ReturnAndHalt
  refine ⟨?_, ?_, ?_⟩
  · intro f s w all s1
    refine ⟨fun issues g group waits => ?_, fun issues g h t bs u group stand handler merge held team read parks => ?_, fun issues plain team work => ?_⟩
    · refine (runWord_run issues).trans (congrArg Host.Outcome.next ?_)
      obtain ⟨l, t, lane, out, elsewhere⟩ := waits
      have notAll : (((eretState w).group? w.g).map allAtEret).getD false = false := by
        rw [eretState_group group, Option.map_some, Option.getD_some, allAtEret]
        have still : (g.modLanes w.acting fun _ t => { t with park := some .eret }).lane? l = some t := by
          rw [Group.lane?_modLanes, lane]
          simp [out]
        exact List.all_eq_false.2 ⟨t, List.mem_of_getElem? still, by simpa using elsewhere⟩
      rw [eretBody_waits notAll, ← all, ← finish_parked]
      rfl
    · refine (runWord_run issues).trans (congrArg Host.Outcome.next ?_)
      have all_ : (((eretState w).group? w.g).map allAtEret).getD false = true := by
        rw [eretState_group group, Option.map_some, Option.getD_some, allAtEret]
        refine List.all_eq_true.2 fun y mem => ?_
        obtain ⟨l, at_⟩ := List.getElem?_of_mem mem
        have lane : (g.modLanes w.acting fun _ t => { t with park := some .eret }).lane? l = some y := at_
        rw [Group.lane?_modLanes, Option.map_eq_some_iff] at lane
        obtain ⟨x, there, rfl⟩ := lane
        split
        · rfl
        next out => simpa using (stand l x there).resolve_left (by simpa using out)
      obtain ⟨t1, team1, core⟩ : ∃ t1, (eretState w).team? w.g.team = some t1 ∧ t1.core = t.core := by
        have kept := State.team?_map_modGroup w.s w.g (fun gr => gr.modLanes w.acting fun _ t => { t with park := some .eret }) w.g.team Team.core
          fun _ _ => rfl
        rw [team, Option.map_some, Option.map_eq_some_iff] at kept
        exact kept
      have read_ : readRaw (eretState w) t1.core g.ctl.asid.toNat true h.frame.toNat 2048 = .ok (bs, u) := by
        rw [core]
        exact read
      have ready : returnLocked (eretState w) w.g = false := by
        have handler_ : (g.modLanes w.acting fun _ t => { t with park := some .eret }).handler = some h := handler
        rw [returnLocked, team1, eretState_group group]
        simp only [handler_]
        exact rangeWaits_read read_
      have awake (l : Nat) : h.parks.getD l none = none := by
        rw [parks, List.getD_eq_getElem?_getD, List.getElem?_replicate]
        split <;> rfl
      rw [eretBody_returns all_ ready (returnTrap_awake team1 (eretState_group group) handler merge held read_ awake), finish_stay_all]
    · refine (runWord_run issues).trans (congrArg Host.Outcome.next ?_)
      have team_ : (if w.t.kind = .grid then gridStatus w.s w.t.grid 4 0 else w.s).team? w.g.team = some w.t := by
        split
        · exact team
        · exact team
      have halted : haltedGrid w.s w.t = if w.t.kind = .grid then some w.t.grid else none := by
        rw [haltedGrid]
        cases kind : w.t.kind with
        | merge => exact absurd kind plain
        | _ => rfl
      have body : haltBody w = { Res.done (haltTeam (if w.t.kind = .grid then gridStatus w.s w.t.grid 4 0 else w.s) w.g.team
          (w.gr.ctl.cause.toNat % 256)) with stay := w.active } := by
        rw [haltBody, halted]
        split_ifs <;> rfl
      rw [body, finish_stay_all, haltTeam, team_]
      simp only [work]
  · intro gr h bs l t k lane exited left
    refine ⟨t.fromFrame h l ((bs.drop (0x80 + 48 * l)).take 48), by rw [Group.leave_lane?, lane]; rfl, ?_⟩
    rw [Thread.fromFrame, if_pos exited, List.getD_eq_getElem?_getD, left, Option.getD_some]
    obtain ⟨v, regs⟩ := Thread.setRun_sameButV { t with exited := true, park := none, tx := none, pc := (h.pcs.getD l (0, 0)).1, wait := (h.pcs.getD l (0, 0)).2 } 0 4 k.v
    refine ⟨congrArg Thread.exited regs, congrArg Thread.park regs, rfl, rfl, rfl, ?_⟩
    exact Thread.getRun_setRun { t with exited := true, park := none, tx := none, pc := (h.pcs.getD l (0, 0)).1, wait := (h.pcs.getD l (0, 0)).2 } 0 4 k.v
  · intro gr h bs l t length lane low awake alive unparked quiet rec_ g1
    obtain ⟨regs, left⟩ := gr.leave_eq h bs
    refine ⟨congrArg (fun x => x.ctl.priv) left, congrArg Group.handler left, fun k inside => ?_, fun k inside => ?_,
      t.fromFrame h l ((bs.drop (0x80 + 48 * l)).take 48), by rw [Group.leave_lane?, lane]; rfl, ?_⟩
    · rw [Group.leave_getS gr h bs quiet, if_pos (by omega), Nat.add_sub_cancel_left]
    · rw [Group.leave_getS gr h bs quiet, if_neg (by omega)]
    · have field_ (o n : Nat) (inside : o + n ≤ 48) : num ((bs.drop (0x80 + 48 * l)).take 48) o n = rec_ o n := num_record inside
      have running : (num ((bs.drop (0x80 + 48 * l)).take 48) 8 1 == 2) = false := by
        rw [field_ 8 1 (by decide)]
        simpa using unparked
      rw [Thread.fromFrame, alive, if_neg Bool.false_ne_true, running, if_neg Bool.false_ne_true, awake]
      dsimp only
      rw [field_ 0 8 (by decide), field_ 9 1 (by decide), field_ 10 1 (by decide), field_ 0x10 4 (by decide), field_ 0x14 4 (by decide),
        field_ 0x18 16 (by decide)]
      obtain ⟨v, same⟩ := Thread.setRun_sameButV { t with
        tx := h.txs.getD l none, p := BitVec.ofNat 7 (rec_ 9 1), fpctl := BitVec.ofNat 4 (rec_ 0x10 4), fpflags := BitVec.ofNat 6 (rec_ 0x14 4) } 0 4 (rec_ 0x18 16)
      refine ⟨rfl, congrArg Thread.p same, rfl, congrArg Thread.fpctl same, congrArg Thread.fpflags same, rfl, congrArg Thread.tx same,
        fun k inside => ?_, fun k outside => ?_⟩
      · refine (show _ = (Thread.setRun _ 0 4 (rec_ 0x18 16)).getV (0 + k) by rw [Nat.zero_add]; rfl).trans ((Thread.getV_setRun _ 0 4 _ inside).trans ?_)
        exact (num_register bs (0x80 + 48 * l + 0x18) inside).trans (by rw [Nat.add_assoc (0x80 + 48 * l)])
      · exact Thread.getV_setRun_other _ _ (.inr outside)

end Sys2Proof.Machine
end

section
/-! PROOFS. The admission of grid teams, tasks and handlers (R144, R145, R151 to R153, R171 to R173, R183 to R186, R199). -/

namespace Sys2Proof.Machine

theorem l1Clear_teams (s : State) (c : Nat) : (l1Clear s c).teams = s.teams := (l1Clear_beside s c).1

theorem l1Clear_grids (s : State) (c : Nat) : (l1Clear s c).grids = s.grids :=
  outer_part State.grids (fun _ => rfl) (l1Clear_beside s c).2.2.1

theorem l1Clear_dies (s : State) (c : Nat) : (l1Clear s c).dies = s.dies := by
  unfold l1Clear
  split <;> rfl

theorem l1Clear_fresh (s : State) (c : Nat) : (l1Clear s c).fresh = s.fresh :=
  outer_part State.fresh (fun _ => rfl) (l1Clear_beside s c).2.2.1

theorem forwardQueue_teams (s : State) (i : Invocation) (core rslot : Nat) : (forwardQueue s i core rslot).teams = s.teams := by
  unfold forwardQueue
  dsimp only
  split <;> rfl

theorem forwardQueue_invs (s : State) (i : Invocation) (core rslot : Nat) : (forwardQueue s i core rslot).invs = s.invs := by
  unfold forwardQueue
  dsimp only
  split <;> rfl

theorem State.die_congr {s t : State} (same : t.dies = s.dies) (k : Nat) : t.die k = s.die k := by
  rw [State.die, State.die, same]

theorem amGet_amPut_at {β : Type} {k q : Nat} (m : AMap β) (x : β) (h : q = k) : amGet (amPut m k x) q = some x :=
  h ▸ amGet_amPut_same m q x

theorem clearedIf_teams (p : Prop) [Decidable p] (cs : List Nat) (s : State) : (if p then cs.foldl l1Clear s else s).teams = s.teams := by
  split
  · exact foldl_keeps State.teams l1Clear l1Clear_teams cs s
  · rfl

theorem markedIf_teams (b : Bool) (s : State) (die : Nat) (f : Die → Die) : (if b then s.modDie die f else s).teams = s.teams := by
  split <;> rfl

/-- The groups that start on a core are those that were asked for, each in a slot (R144, R145, R151). -/
theorem mem_startGroups {s : State} {core : Nat} {ctl : Ctl} {gs : List (Nat × Nat × W64)} {x : Group} (mem : x ∈ startGroups s core ctl gs) :
    ∃ g ∈ gs, x.role = g.1 ∧ x.budget = g.2.1 ∧ x.lanes = List.replicate 32 (Thread.start g.2.2) ∧ x.s = [] ∧ x.ctl.priv = false := by
  obtain ⟨i, at_⟩ := List.getElem?_of_mem mem
  rw [startGroups, List.getElem?_zipWith_eq_some] at at_
  obtain ⟨g, k, asked, -, rfl⟩ := at_
  exact ⟨g, List.mem_of_getElem? asked, rfl, rfl, rfl, rfl, rfl⟩

/-- Settles O34: the admitted team is the one that is built, under the next number. -/
theorem admissions : Obligations.Admissions := by
  unfold Obligations.Admissions
  refine ⟨fun s id core g head => ?grid, fun s die i core k head => ?task, fun s id core v head => ?handler⟩
  case grid =>
    have step_ : exec .teamAdmission s = .next (admitTeam s id g core) := by
      show Host.Outcome.next _ = _
      rw [head]
    refine ⟨_, _, step_, (State.team?_congr (clearedIf_teams ..) _).trans (amGet_amPut_same _ s.fresh _), ?_⟩
    refine ⟨rfl, rfl, rfl, rfl, rfl, rfl, rfl, List.length_replicate, ?_, ?_, ?_⟩
    · exact fun b mem => List.eq_of_mem_replicate mem
    · intro x mem
      obtain ⟨y, asked, role, budget, lanes, regs, user⟩ := mem_startGroups mem
      obtain ⟨ys, inside, among⟩ := List.mem_flatten.1 asked
      obtain ⟨n, low, rfl⟩ := List.mem_mapIdx.1 inside
      obtain rfl := List.eq_of_mem_replicate among
      exact ⟨g.roles[n], by rw [role]; exact List.getElem?_eq_getElem low, budget, lanes, regs, user⟩
    · unfold admitTeam
      split
      · exact (congrArg (amGet · id) (foldl_keeps State.grids l1Clear l1Clear_grids _ _)).trans (amGet_amPut_same ..)
      · exact amGet_amPut_same ..
  case task =>
    have step_ : exec (.taskAdmission die) s = .next (admitTask s die i k core) := by
      show Host.Outcome.next _ = _
      rw [head]
    refine ⟨_, _, step_, amGet_amPut_at _ _ (l1Clear_fresh s core).symm, ?_⟩
    refine ⟨rfl, rfl, rfl, rfl, rfl, fun x mem => ?_, ?_⟩
    · obtain ⟨y, asked, -, budget, lanes, -, user⟩ := mem_startGroups mem
      obtain rfl := List.eq_of_mem_replicate asked
      exact ⟨budget, lanes, user⟩
    · rw [admitTask, State.die_modDie, if_pos rfl]
      exact congrArg (fun d : Die => d.pool.eraseIdx i) (State.die_congr (l1Clear_dies s core) die)
  case handler =>
    have step_ : exec (.placement core) s = .next (placeHandler s id v core) := by
      show Host.Outcome.next _ = _
      rw [head]
      exact congrArg _ (if_pos rfl)
    refine ⟨_, _, _, (leastFree (inboxUsed s core) 256).getD 0, step_,
      (State.team?_congr ((forwardQueue_teams ..).trans (markedIf_teams ..)) _).trans
        (amGet_amPut_at _ _ (l1Clear_fresh s core).symm), rfl, rfl, rfl, rfl, rfl, ?_, ?_, ?_, ?_, ?_⟩
    · exact (Group.getS_setS ..).trans ((Group.getS_setS ..).trans ((Group.getS_setS ..).trans (Group.getS_setS ..)))
    · exact (Group.getS_setS ..).trans ((Group.getS_setS ..).trans (Group.getS_setS ..))
    · exact (Group.getS_setS ..).trans (Group.getS_setS ..)
    · exact Group.getS_setS ..
    · refine (congrArg (amGet · id) (forwardQueue_invs ..)).trans ?_
      have gone : amGet (amDel (l1Clear s core).newId.2.invs id) id = none := amGet_amDel_same ..
      split
      · exact gone
      · exact gone

end Sys2Proof.Machine
end

section
/-! PROOFS. Pre-emption: the choice of teams, their save and their return to a core (R163, R164, R322, R412 to R415). -/

namespace Sys2Proof.Machine

/-! What stays where a group's lanes alone change. -/

theorem dropLane_part {β : Type} (s : State) (g : GRef) (l code sub n : Nat) (part : Team → β)
    (apart : ∀ t gs, part { t with groups := gs } = part t) : ((dropLane s g l code sub).team? n).map part = (s.team? n).map part := by
  rw [dropLane, State.team?_congr (State.countCore_teams ..), State.team?_map_modGroup _ _ _ _ _ apart]

theorem dropLane_mem (s : State) (g : GRef) (l code sub : Nat) : (dropLane s g l code sub).mem = s.mem := by
  rw [dropLane, State.countCore_mem, State.modGroup_mem]

/-! The teams chosen. -/

/-- The lanes that a team chosen for pre-emption aborts, group by group. -/
def savingAborts (team : Nat) (s : State) (i : Nat) : State :=
  ((loggedLanes s ⟨team, i⟩).filter fun l => !s.cairns.any fun c => c.2.g == ⟨team, i⟩ && c.2.lanes.contains l).foldl
    (fun u l => dropLane u ⟨team, i⟩ l 8 0) s

theorem savingAborts_saving (team : Nat) (s : State) (i n : Nat) :
    ((savingAborts team s i).team? n).map Team.saving = (s.team? n).map Team.saving :=
  foldl_keeps (fun u : State => (u.team? n).map Team.saving) (fun u l => dropLane u ⟨team, i⟩ l 8 0)
    (fun u l => dropLane_part u ⟨team, i⟩ l 8 0 n Team.saving fun _ _ => rfl) _ s

theorem savingAborts_mem (team : Nat) (s : State) (i : Nat) : (savingAborts team s i).mem = s.mem :=
  foldl_keeps State.mem (fun u l => dropLane u ⟨team, i⟩ l 8 0) (fun u l => dropLane_mem u ⟨team, i⟩ l 8 0) _ s

theorem beginSave_eq {s : State} {team : Nat} {t : Team} (there : s.team? team = some t) : beginSave s team =
    (List.range t.groups.length).foldl (savingAborts team) (s.putTeam team { t with saving := true }) := by
  rw [beginSave, there]
  rfl

theorem beginSave_mem (s : State) (team : Nat) : (beginSave s team).mem = s.mem := by
  cases there : s.team? team with
  | none => rw [beginSave, there]
  | some t => exact (congrArg State.mem (beginSave_eq there)).trans (foldl_keeps State.mem _ (savingAborts_mem team) _ _)

/-- A team is marked for saving where it is chosen; what was marked stays marked. -/
theorem beginSave_saving (s : State) (team n : Nat) : ((beginSave s team).team? n).map Team.saving =
    (s.team? n).map fun t => t.saving || decide (n = team) := by
  cases there : s.team? team with
  | none =>
    rw [beginSave, there]
    by_cases same : n = team
    · rw [same, there]
      rfl
    · simp only [same, decide_false, Bool.or_false]
  | some t =>
    rw [beginSave_eq there, foldl_keeps (fun u : State => (u.team? n).map Team.saving) _ (fun u i => savingAborts_saving team u i n),
      State.team?_putTeam]
    by_cases same : n = team
    · simp [same, there]
    · simp only [same, if_false, decide_false, Bool.or_false]

theorem foldl_beginSave_saving (ts : List Nat) (s : State) (n : Nat) : ((ts.foldl beginSave s).team? n).map Team.saving =
    (s.team? n).map fun t => t.saving || decide (n ∈ ts) := by
  induction ts generalizing s with
  | nil => simp only [List.foldl_nil, List.not_mem_nil, decide_false, Bool.or_false]
  | cons k ts ih =>
    rw [List.foldl_cons, ih]
    have first := beginSave_saving s k n
    cases before : s.team? n with
    | none => simp_all
    | some t =>
      cases after : (beginSave s k).team? n with
      | none => rw [before, after] at first; cases first
      | some u =>
        rw [before, after] at first
        have marked : u.saving = (t.saving || decide (n = k)) := by simpa using first
        simp [marked, Bool.or_assoc]

/-! The save. -/

theorem keepFrames_beside {s u : State} {t : Team} {gs kept : List Group} (read : keepFrames s t gs = .ok (kept, u)) : Beside s u := by
  induction gs generalizing s kept with
  | nil =>
    cases read
    exact Beside.refl _
  | cons gr rest ih =>
    rw [keepFrames] at read
    split at read
    · cases later : keepFrames s t rest with
      | error x => rw [later] at read; cases read
      | ok x =>
        rw [later] at read
        cases read
        exact ih later
    · split at read
      · cases read
      next bs s1 frame =>
        cases later : keepFrames s1 t rest with
        | error x => rw [later] at read; cases read
        | ok x =>
          rw [later] at read
          cases read
          exact (readRaw_beside frame).trans (ih later)

/-- What joins the tail of its grid is the team, under a new number in its queue. -/
theorem joinTail_team? (s : State) (team : Nat) (t : Team) :
    (joinTail s team t).team? team = some { t with queued := s.newId.1, since := s.time.datum } := by
  unfold joinTail
  split <;> exact amGet_amPut_same ..

theorem joinTail_mem (s : State) (team : Nat) (t : Team) : (joinTail s team t).mem = s.mem := by
  unfold joinTail
  split <;> rfl

theorem joinTail_ctxs (s : State) (team : Nat) (t : Team) : (joinTail s team t).ctxs = s.ctxs := by
  unfold joinTail
  split <;> rfl

/-- A grid at whose tail a team stands. -/
def Grid.tailed (team : Nat) (g : Grid) : Grid := { g with tail := g.tail.filter (· ≠ team) ++ [team] }

theorem joinTail_grid (s : State) (team : Nat) {t : Team} (kind : t.kind = .grid) : amGet (joinTail s team t).grids t.grid =
    (amGet s.grids t.grid).map (Grid.tailed team) := by
  rw [joinTail, if_pos kind]
  exact (amGet_amMod s.grids t.grid t.grid (Grid.tailed team)).trans (if_pos rfl)

/-! The return. -/

theorem l1Clear_empty (s : State) (c : Nat) : ((l1Clear s c).core c).l1 = [] := by
  unfold l1Clear
  split
  next none_ => exact List.isEmpty_iff.1 none_
  · exact congrArg Core.l1 ((State.core_modCore ..).trans (if_pos rfl))

/-- A team is as it was but for its groups, whose slots are the same. -/
def SameBody (m n : Team) : Prop := n = { m with groups := n.groups } ∧ n.groups.map Group.slot = m.groups.map Group.slot

theorem map_slot_modNth (gs : List Group) (i : Nat) (f : Group → Group) (same : ∀ x, (f x).slot = x.slot) :
    (modNth gs i f).map Group.slot = gs.map Group.slot := by
  refine List.ext_getElem? fun k => ?_
  rw [List.getElem?_map, List.getElem?_map, getElem?_modNth]
  split
  · cases gs[k]? <;> simp [same]
  · rfl

theorem Group.letBegin_slot (gr : Group) : gr.letBegin.slot = gr.slot := by
  unfold Group.letBegin Group.emptyRounds
  split <;> rfl

/-- One group of a team that is back on its core goes on. -/
theorem whileRunning_body {s : State} {team i : Nat} {m n : Team} (there : s.team? team = some n) (body : SameBody m n) :
    ∃ k, (whileRunning s ⟨team, i⟩ Group.letBegin).team? team = some k ∧ SameBody m k := by
  obtain ⟨rest, slots⟩ := body
  unfold whileRunning
  split
  · refine ⟨_, (State.team?_modGroup ..).trans ((if_pos rfl).trans (congrArg _ there)), ?_, ?_⟩
    · rw [rest]
    · exact (map_slot_modNth _ _ _ Group.letBegin_slot).trans slots
  · exact ⟨n, there, rest, slots⟩

theorem whileRunning_cores (s : State) (g : GRef) (f : Group → Group) : (whileRunning s g f).cores = s.cores := by
  unfold whileRunning
  split <;> rfl

/-- Settles O35: by what each of the three events does to its teams. -/
theorem preemptions : Obligations.Preemptions := by
  unfold Obligations.Preemptions
  refine ⟨fun s ts idle chosen => ?choice, fun s s1 s2 i off m c gs there saving ready ctx place kept written => ?save,
    fun s s1 i m there may none_ back => ?resume⟩
  case choice =>
    have quiet : s.teams.any (fun t => t.2.saving) = false := List.any_eq_false.2 fun t mem => by simp [idle t mem]
    refine ⟨ts.foldl beginSave s, ?_, foldl_keeps State.mem beginSave beginSave_mem ts s, fun i mem m team => ?_⟩
    · show Host.Outcome.next _ = _
      rw [quiet, chosen]
      rfl
    · have marked := foldl_beginSave_saving ts s i
      rw [team] at marked
      obtain ⟨m1, there, saving⟩ := Option.map_eq_some_iff.1 marked
      exact ⟨m1, there, by simp [saving, mem]⟩
  case save =>
    have frames := keepFrames_beside kept
    have aside : s2.outer = s.outer := (writeVa_outer written).trans frames.2.2.1
    let t1 : Team := { m with resident := false, saving := false, since := s.time.datum, groups := gs }
    let stored := amMod s2.ctxs m.ctx fun x => { x with saves := x.saves ++ [(i, off, imageBytes m)] }
    let s3 := ((s2.putTeam i t1).setCtxs stored).countCore m.core 0x0D 1
    have step_ : exec (.preemptionSave i) s = .next (if t1.wantsCore then joinTail s3 i t1 else s3) := by
      show Host.Outcome.next _ = _
      rw [there]
      dsimp only
      rw [saving, ready, ctx]
      dsimp only
      rw [place]
      dsimp only
      rw [saveTeam, kept]
      dsimp only
      rw [written]
      rfl
    have outer3 : s3.outer = ((s2.putTeam i t1).setCtxs stored).outer := (State.countCore_beside ..).2.2.1
    have time : s3.time = s.time := (outer_part State.time (fun _ => rfl) outer3).trans (outer_part (s := s) (t := s2) State.time (fun _ => rfl) aside)
    have ctxs : s3.ctxs = stored := outer_part State.ctxs (fun _ => rfl) outer3
    have grids : s3.grids = s.grids := (outer_part State.grids (fun _ => rfl) outer3).trans (outer_part (s := s) (t := s2) State.grids (fun _ => rfl) aside)
    have team : s3.team? i = some t1 := (State.team?_congr (State.countCore_teams ..) i).trans (amGet_amPut_same ..)
    have mem : s3.mem = s2.mem := State.countCore_mem ..
    have saves : amGet s3.ctxs m.ctx = some { c with saves := c.saves ++ [(i, off, imageBytes m)] } := by
      rw [ctxs, amGet_amMod, if_pos rfl, outer_part State.ctxs (fun _ => rfl) aside]
      exact congrArg _ ctx
    refine ⟨_, if t1.wantsCore then s3.newId.1 else m.queued, { c with saves := c.saves ++ [(i, off, imageBytes m)] }, step_, ?_⟩
    split
    next wants =>
      refine ⟨?_, (joinTail_mem ..).trans mem, (congrArg (amGet · m.ctx) (joinTail_ctxs ..)).trans saves,
        List.mem_append_right _ (List.mem_singleton.2 rfl), fun g kind _ grid => ?_⟩
      · rw [joinTail_team?, time]
      · refine (joinTail_grid s3 i (t := t1) kind).trans ?_
        rw [grids]
        exact congrArg _ grid
    next rests =>
      exact ⟨team, mem, saves, List.mem_append_right _ (List.mem_singleton.2 rfl), fun g _ wants => absurd wants rests⟩
  case resume =>
    let t1 : Team := { m with
      resident := true, age := s.time.clk, since := s.time.datum, heldIn := []
      groups := m.groups.map (Group.backAfter (s.time.datum - m.since)) }
    let s3 := (l1Clear (s1.putTeam i t1) m.core).setCtxs
      (amMod s1.ctxs m.ctx fun c => { c with saves := c.saves.filter fun x => x.1 ≠ i })
    let s4 := match m.kind with
      | .grid => s3.setGrids (amMod s3.grids m.grid fun g => { g with tail := g.tail.filter fun x => x ≠ i, headSince := s.time.datum })
      | .task => s3.modDie (m.core / 32) fun d => { d with headAt := amPut d.headAt m.grid s.time.datum }
      | _ => s3
    let s5 := s4.setMons (s4.mons.map fun x => if x.2.g.team = i then (x.1, { x.2 with resumed := true }) else x)
    have step_ : exec (.teamResume i) s = .next
        ((List.range m.groups.length).foldl (fun st k => whileRunning st ⟨i, k⟩ Group.letBegin) s5) := by
      show Host.Outcome.next _ = _
      rw [there]
      dsimp only
      rw [may, if_pos rfl, resumeTeam, back]
      dsimp only
      rw [none_]
      rfl
    have parts : s5.teams = s3.teams ∧ s5.cores = s3.cores ∧ s5.mem = s3.mem := by
      cases kind : m.kind <;> simp only [s5, s4, kind] <;> exact ⟨rfl, rfl, rfl⟩
    obtain ⟨teams, cores, mem⟩ := parts
    have team : s5.team? i = some t1 :=
      (State.team?_congr (teams.trans (l1Clear_teams ..)) i).trans (amGet_amPut_same ..)
    obtain ⟨m1, after, body⟩ : ∃ m1, ((List.range m.groups.length).foldl (fun st k => whileRunning st ⟨i, k⟩ Group.letBegin) s5).team? i =
        some m1 ∧ SameBody t1 m1 :=
      List.foldlRecOn (motive := fun u : State => ∃ m1, u.team? i = some m1 ∧ SameBody t1 m1) _ _ ⟨t1, team, rfl, rfl⟩
        fun u ⟨n, there, body⟩ k _ => whileRunning_body there body
    obtain ⟨rest, slots⟩ := body
    refine ⟨_, m1, step_, after, ?_⟩
    refine ⟨by rw [rest], by rw [rest], by rw [rest], by rw [rest], slots.trans ?_, by rw [rest], by rw [rest], by rw [rest], ?_, ?_⟩
    · rw [List.map_map]
      rfl
    · have kept : _ = s5.cores := foldl_keeps State.cores (fun st k => whileRunning st ⟨i, k⟩ Group.letBegin)
        (fun st k => whileRunning_cores st ⟨i, k⟩ Group.letBegin) (List.range m.groups.length) s5
      rw [State.core, kept, cores]
      exact l1Clear_empty _ _
    · refine (foldl_keeps State.mem _ (fun st k => whileRunning_mem st ⟨i, k⟩ Group.letBegin) _ s5).trans (mem.trans ?_)
      exact (l1Clear_beside ..).2.1

end Sys2Proof.Machine
end

section
/-! PROOFS. The events of joins: folds, custom merges, applications and the ends of launches (R165, R178 to R182, R441). -/

namespace Sys2Proof.Machine

/-! What a merge leaves. -/

theorem Spot.get_beside {p : Spot} {s u : State} {asid k n b : Nat} (read : p.get s asid k n = .ok (b, u)) : Beside s u := by
  cases p with
  | view t off =>
    simp only [Spot.get] at read
    split at read
    · cases read
    · cases read
      exact Beside.refl _
  | mem va =>
    cases found : readRaw s unitCore asid false (va + k) n with
    | error c => rw [Spot.get, found] at read; cases read
    | ok r =>
      rw [Spot.get, found] at read
      cases read
      exact readRaw_beside found

/-- An element combined into memory changes memory and what an access touches beside it. -/
theorem mergeElem_outer {s u : State} {asid e va : Nat} {x : Tile} {copy : Bool} {src : Spot}
    (merged : mergeElem asid x copy (.mem va) src e s = .ok u) : u.outer = s.outer := by
  unfold mergeElem at merged
  dsimp only at merged
  split at merged
  · cases merged
  next b s1 read =>
    have from_s := (Spot.get_beside read).2.2.1
    split at merged
    · cases merged
    next v s2 combined =>
      have from_s1 : s2.outer = s1.outer := by
        split at combined
        · cases combined
          rfl
        · split at combined
          · cases combined
          next a s3 target =>
            cases combined
            exact (Spot.get_beside target).2.2.1
      split at merged
      · cases merged
      next s3 put =>
        cases merged
        exact (writeVa_outer put).trans (from_s1.trans from_s)

theorem mergeElems_outer {s u : State} {asid va : Nat} {x : Tile} {copy : Bool} {src : Spot} {n e : Nat}
    (merged : mergeElems asid x copy (.mem va) src n e s = (u, none)) : u.outer = s.outer := by
  induction n generalizing e s with
  | zero =>
    cases merged
    rfl
  | succ n ih =>
    rw [mergeElems] at merged
    split at merged
    · cases merged
    next s1 first => exact (ih merged).trans (mergeElem_outer first)

theorem modMerge_frame (s : State) (r : MergeRef) (g : MergeJob → MergeJob) :
    amGet (modMerge s r g).frames r.frame = (amGet s.frames r.frame).map fun f => f.modMerge r.park g :=
  (amGet_amMod s.frames r.frame r.frame fun f => f.modMerge r.park g).trans (if_pos rfl)

/-- The rest of a tile combined without a fault: the merge stands at its next tile (R178). -/
theorem mergeTile_complete {s u : State} {r : MergeRef} {f : Frame} {j : MergeJob} {x : Tile} {tgt src : Spot} {n k : Nat}
    (folds : j.copies = false) (todo : min n (x.size / (etyWidth x.ety / 8) - j.elem) = k) (last : j.elem + k = x.size / (etyWidth x.ety / 8))
    (merged : mergeElems f.asid.toNat x j.copies tgt src k j.elem s = (u, none)) : mergeTile r f j x tgt src n s =
      (modMerge (u.countDie (f.va.toNat / 2 ^ 60) 0x07 k) r fun m => { m with tile := m.tile + 1, elem := 0 }, true) := by
  subst todo
  rw [folds] at merged
  simp only [mergeTile, merged, folds, Bool.false_eq_true, if_false, Option.map_none, Option.getD_none, Nat.add_sub_cancel_left]
  exact if_pos last

/-- The one tile of a child merged without a fault: the frame stands at the next child (R178). -/
theorem startJob_merged {s u : State} {id c : Nat} {f : Frame} {x : Tile} (tiles : f.tiles = [x]) (builtin : x.oper ≠ 15)
    (merged : mergeElems f.asid.toNat x false (.mem (accAddr f x)) (childSpot s c 0) (x.size / (etyWidth x.ety / 8)) 0
      (beginJob s id f (.child c)) = (u, none)) :
    ∃ t, startJob s id f (.child c) = t ∧ t.mem = u.mem ∧ amGet t.frames id = some { f with
      job := none, cursor := f.cursor + 1, runner := some c, waiting := f.waiting.filter fun w => w.2 != c } := by
  let w := x.size / (etyWidth x.ety / 8)
  let f0 : Frame := { f with job := some (MergeJob.begin (.child c)) }
  let s0 := beginJob s id f (.child c)
  let u1 := u.countDie (f.va.toNat / 2 ^ 60) 0x07 w
  have few : min x.size (w - 0) = w := Nat.min_eq_right ((Nat.sub_le ..).trans (Nat.div_le_self ..))
  have begun : amGet s0.frames id = some f0 := amGet_amPut_same ..
  have frames : u1.frames = s0.frames :=
    (outer_part State.frames (fun _ => rfl) (State.countDie_beside ..).2.2.1).trans
      (outer_part State.frames (fun _ => rfl) (mergeElems_outer merged))
  have tile : mergeTile ⟨id, none⟩ f0 (MergeJob.begin (.child c)) x (.mem (accAddr f x)) (childSpot s c 0) x.size s0 =
      (modMerge u1 ⟨id, none⟩ fun k => { k with tile := k.tile + 1, elem := 0 }, true) :=
    mergeTile_complete rfl few (Nat.zero_add _) merged
  let u2 := modMerge u1 ⟨id, none⟩ fun k => { k with tile := k.tile + 1, elem := 0 }
  let f2 : Frame := { f with job := some { MergeJob.begin (.child c) with tile := 1 } }
  have after : amGet u2.frames id = some f2 := by
    rw [modMerge_frame, frames, begun]
    rfl
  have first : runTiles ⟨id, none⟩ 2 s0 = runTiles ⟨id, none⟩ 1 u2 := by
    rw [runTiles, begun]
    simp only [Option.bind_some, Frame.merge?, Option.map_some, f0, MergeJob.begin, Option.isSome_none, Bool.or_self, Bool.false_eq_true,
      if_false, tiles, List.getElem?_cons_zero, jobSpots]
    rw [if_neg (by simp [builtin])]
    exact congrArg (fun q : State × Bool => if q.2 then runTiles ⟨id, none⟩ 1 q.1 else q.1) tile
  have second : runTiles ⟨id, none⟩ 1 u2 = finishJob u2 ⟨id, none⟩ f2 { MergeJob.begin (.child c) with tile := 1 } := by
    rw [runTiles, after]
    simp only [Option.bind_some, Frame.merge?, Option.map_some, f2, MergeJob.begin, Option.isSome_none, Bool.or_self, Bool.false_eq_true,
      if_false, tiles]
    rfl
  have run : startJob s id f (.child c) = finishJob u2 ⟨id, none⟩ f2 { MergeJob.begin (.child c) with tile := 1 } := by
    rw [startJob, runMerge]
    refine Eq.trans ?_ (first.trans second)
    rw [show amGet (beginJob s id f (.child c)).frames id = some f0 from begun]
    simp only [Option.map_some, Option.getD_some, f0, tiles, List.length_singleton]
    rfl
  exact ⟨_, run, (State.countDie_beside ..).2.1, amGet_amPut_same ..⟩

/-! Completions. -/

theorem writePlain_outer (s : State) (addr : Nat) (bs : List Byte) : (writePlain s addr bs).outer = s.outer := by
  unfold writePlain
  split
  · rfl
  · exact foldl_keeps (fun x : State × List Byte => x.1.outer) _ (fun x p => storeAt_outer ..) _ (s, bs)

/-- A completion joins the answers of its queue; no other record changes. -/
theorem complete_outer (s : State) (k : Nat) (tag : W32) (status detail : Nat) (value : W64) :
    (complete s k tag status detail value).outer =
      (s.setQueues (amMod s.queues k fun q => { q with done := q.done ++ [(tag, status, detail, value)] })).outer := by
  unfold complete
  dsimp only
  split
  next a _ =>
    have aside := writePlain_outer s a (completionBytes tag status detail value)
    have queues : (writePlain s a (completionBytes tag status detail value)).queues = s.queues :=
      outer_part State.queues (fun _ => rfl) aside
    rw [queues]
    exact congrArg (fun x : State => x.setQueues _) aside
  · rfl

theorem complete_queue (s : State) (k : Nat) (tag : W32) (status detail : Nat) (value : W64) :
    amGet (complete s k tag status detail value).queues k =
      (amGet s.queues k).map fun q => { q with done := q.done ++ [(tag, status, detail, value)] } := by
  rw [outer_part State.queues (fun _ => rfl) (complete_outer ..)]
  exact (amGet_amMod s.queues k k fun q => { q with done := q.done ++ [(tag, status, detail, value)] }).trans (if_pos rfl)

/-- An entry stands in a changed map as it stood where the change leaves it. -/
theorem amGet_map_unchanged {β : Type} (m : AMap β) (k : Nat) (p : Nat × β → Bool) (f : Nat × β → β) {x : β} (there : amGet m k = some x)
    (rests : p (k, x) = false) : amGet (m.map fun e => if p e then (e.1, f e) else e) k = some x := by
  induction m with
  | nil => cases there
  | cons e m ih =>
    obtain ⟨j, y⟩ := e
    by_cases same : j = k
    · subst same
      have : y = x := by simpa [amGet] using there
      subst this
      simp [amGet, rests]
    · have later : amGet m k = some x := by simpa [amGet, Ne.symm same] using there
      have still := ih later
      by_cases hit : p (j, y)
      · simpa [amGet, hit, Ne.symm same] using still
      · simpa [amGet, hit, Ne.symm same] using still

/-- Settles O36: by the branch of each event that its premises name. -/
theorem joinEvents : Obligations.JoinEvents := by
  unfold Obligations.JoinEvents
  refine ⟨fun s id f frame => ⟨fun w rest broken told waiting => ?broken, fun c x u sound free idle ended slots due child tiles builtin wide merged =>
    ?merge, fun g idle sound own owner due targets => ?apply⟩, fun s g t w f j team kind work resident running retired frame job group => ?custom,
    fun s id g grid empty => ⟨fun fresh views => ?plain, fun q applied open_ alone queue ready => ?launch⟩⟩
  case broken =>
    show Host.Outcome.next _ = _
    rw [foldStep, frame]
    simp only [broken, told, waiting, if_true]
  case merge =>
    obtain ⟨t, run, mem, after⟩ := startJob_merged tiles builtin merged
    refine ⟨t, _, ?_, mem, after, rfl, rfl, rfl, rfl, rfl⟩
    have ends : runEnds f = none := by
      unfold runEnds
      split
      · rfl
      · exact ended
    have next : nextFold s id f = some (.child c) := by
      have none_ : f.slots.find? (fun k => k.2 == f.cursor) = none := List.find?_eq_none.2 fun k mem => by simp [slots k mem]
      simp [nextFold, due, none_, ended, child]
    show Host.Outcome.next _ = _
    rw [foldStep, frame]
    simp only [sound, free, idle, ends, next, Bool.false_eq_true, if_false, run]
  case apply =>
    have none_ : f.tiles.any (fun x => (applyTarget s f x).isNone) = false :=
      List.any_eq_false.2 fun x mem => by simp [Option.isSome_iff_ne_none.1 (targets x mem)]
    show Host.Outcome.next _ = _
    rw [frame]
    simp only [Option.bind_some, own, applyStep, frame, idle, due, sound, none_, Bool.not_true, Bool.false_eq_true, if_false]
  case custom =>
    have step_ : exec (.mergeGroupRetire g) s = .next (modMerge (freeTeam s g.team) ⟨w.frame, none⟩ fun j =>
        if j.group == some g.team then { j with group := none, tile := j.tile + 1, elem := 0 } else j) := by
      show Host.Outcome.next _ = _
      rw [team]
      simp only [work, kind, running, retired, ne_eq, not_false_eq_true, and_self, if_true]
    have freed : freeTeam s g.team = (closeDomains ((s.setTeams (amDel s.teams g.team)).setMons
        (s.mons.filter fun m => m.2.g.team ≠ g.team)) g.team).modCore t.core fun c =>
          { c with mergeTeam := c.mergeTeam.filter fun x => x ≠ g.team } := by
      rw [freeTeam, team]
      simp only [resident, kind, if_true]
      rfl
    refine ⟨_, step_, ?_, ?_⟩
    · rw [freed]
      exact amGet_amDel_same ..
    · rw [freed]
      refine (modMerge_frame _ ⟨w.frame, none⟩ _).trans ?_
      refine (congrArg (Option.map _) (show amGet s.frames w.frame = some f from frame)).trans ?_
      simp [Frame.modMerge, job, group]
  case plain =>
    show Host.Outcome.next _ = _
    rw [grid]
    simp only [fresh, empty, views, Bool.not_true, Bool.or_self, Bool.false_eq_true, if_false]
  case launch =>
    let s1 := s.setGrids (amPut s.grids id { g with done := true })
    let s2 := s1.setGrids (s1.grids.map fun x => if x.2.deps.contains id then (x.1, { x.2 with headSince := s.time.datum }) else x)
    have step_ : exec (.launchCompletion id) s = .next (complete (closeGridDomains s2 id) g.queue g.tag g.status g.detail 0) := by
      show Host.Outcome.next _ = _
      have goes : (g.done || !g.applied || !gridEmpty s id g || completeWaits s g.queue 1) = false := by simp [open_, applied, empty, ready]
      rw [grid]
      dsimp only
      rw [goes]
      rfl
    refine ⟨_, step_, ?_, ?_⟩
    · rw [outer_part State.grids (fun _ => rfl) (complete_outer ..)]
      exact amGet_map_unchanged s1.grids id (fun x => x.2.deps.contains id) (fun x => { x.2 with headSince := s.time.datum })
        (amGet_amPut_same ..) alone
    · rw [complete_queue]
      exact congrArg (Option.map _) queue

end Sys2Proof.Machine
end

section
/-! PROOFS. Messages of stakes at their entries, at their targets, and at the proxy of a die out of service (R183, R189, R191, R450). -/

namespace Sys2Proof.Machine

/-- The bytes that a settled stake answers with. -/
def StakeSt.result : StakeSt → List Byte
  | .fulfilled data => data
  | _ => []

section
variable {s : State} {msg : Nat} {m : StakeMsg} {g : GRef} {lane : Nat}

/-- A query is answered with the status and the result (R189, R212). -/
theorem settleMsg_query (there : amGet s.msgs msg = some m) (query : m.kind = .await g lane ∨ m.kind = .poll g lane) (st : StakeSt)
    (core : Option Nat) : settleMsg s st false core msg = (answerMsg s msg g lane (stakeStatus st) st.result, []) := by
  unfold settleMsg
  rw [there]
  dsimp only
  rcases query with kind | kind <;> rw [kind] <;> cases st <;> rfl

theorem taken_unheld (free : m.waiter = none) : taken s msg m = s := by rw [taken, free]

/-- A message that names the generation of its entry is handled there (R189). -/
theorem entered_here {slot gen : Nat} {placed : Option (Nat × Nat)} {st : StakeSt} {q : List Nat} {d : Bool} (free : m.waiter = none)
    (here : stakeDevice m.stake = s.sys.device) (same : gen = stakeGen m.stake) (at_ : slot = stakeSlotNo m.stake)
    (entry : stakeSlot s (stakeCore m.stake) slot = ⟨gen, some (.resolution placed st q d)⟩) :
    entered s msg m = messageAt s msg m (stakeCore m.stake) slot placed st q := by
  subst same at_
  rw [entered]
  simp only [entryCore, here, if_true, entry, taken_unheld free, ne_eq, not_true_eq_false, if_false]

/-- A query of a settled stake is answered at its entry, and so is a poll that finds a place (R189, R212). -/
theorem messageAt_query (there : amGet s.msgs msg = some m) {core slot : Nat} {placed : Option (Nat × Nat)} {st : StakeSt} {q : List Nat}
    (query : m.kind = .poll g lane ∧ (st = .pending → placed = none → q.length < 8) ∨ m.kind = .await g lane ∧ st ≠ .pending) :
    messageAt s msg m core slot placed st q = answerMsg s msg g lane (stakeStatus st) st.result := by
  rcases query with ⟨kind, room⟩ | ⟨kind, settled⟩
  · have place : ¬(st = .pending ∧ placed = none ∧ 8 ≤ q.length) := fun ⟨pending, free, full⟩ =>
      absurd (room pending free) (Nat.not_lt.2 full)
    simp only [messageAt, kind, if_neg place, settleMsg_query there (.inr kind)]
  · simp only [messageAt, kind, if_neg settled, settleMsg_query there (.inl kind), List.foldl_nil]

end

/-- Settles O37: by what each kind of message does where it arrives. -/
theorem stakeMessages : Obligations.StakeMessages := by
  unfold Obligations.StakeMessages
  refine ⟨fun s msg slot gen sender word lane x g placed st q d kind there here first up at_ same entry query => ?answered,
    fun s msg inv sender word x w l v there target => ⟨fun up => ?arrives, fun die down => ?broken⟩,
    fun s msg sender word lane x g kind there here die down first query => ?proxy⟩
  case answered =>
    have handled : stakeMessageOf msg s = entered s msg ⟨sender, word, x, kind, none, false⟩ := by
      rw [stakeMessageOf, there]
      rcases query with ⟨rfl, -⟩ | ⟨rfl, -⟩ <;> simp [here, first, up, sendWaits]
    have found := entered_here (msg := msg) (m := ⟨sender, word, x, kind, none, false⟩) rfl here same at_ entry
    have answer := (handled.trans found).trans (messageAt_query there query)
    refine (congrArg Host.Outcome.next answer).trans ?_
    cases st <;> rfl
  case arrives =>
    show Host.Outcome.next _ = _
    rw [stakeMessageOf, there]
    simp only [target, up, if_true]
    rfl
  case broken =>
    show Host.Outcome.next _ = _
    rw [proxyAnswer, there]
    simp only [target, die, down, decide_true, Bool.not_false, Bool.and_self, if_true]
    rw [settleInv, show amGet (s.setMsgs (amDel s.msgs msg)).invs inv = some v from target]
    rfl
  case proxy =>
    have handled : proxyAnswer s msg = proxied s msg ⟨sender, word, x, kind, none, false⟩ := by
      rw [proxyAnswer, there]
      rcases query with rfl | rfl <;> simp [here, first, die, down]
    show Host.Outcome.next _ = _
    rw [handled]
    have answer := settleMsg_query there query (.broken 0x62 0 0) none
    rcases query with rfl | rfl <;> exact congrArg (fun r : State × List Nat => Host.Outcome.next r.1) answer

end Sys2Proof.Machine
end

section
/-! PROOFS. The events of the engines (R223, R350, R354, R357, R365, R374, R384). -/

namespace Sys2Proof.Machine

/-! Writes that meet no error. -/

theorem writeSettled_sound {s : State} {o : Op} {sp : Bool} {ws : List (Nat × List Byte)} (sound : errorSpots s (Op.eng s o) sp ws = []) :
    writeSettled s o sp ws = writeAll s o sp ws := by
  rw [writeSettled, settleErrors]
  simp only [sound, if_true]

/-- A stamp without a fault or an error is one write (R357). -/
theorem writeStamp_sound {s : State} {o : Op} (fault : stampFault s o = none)
    (sound : ∀ a v sp, o.stamp = some (a, v, sp) → errorSpots s (Op.eng s o) sp [(a.toNat, toBytes 8 v.toNat)] = []) :
    writeStamp s o = match o.stamp with
      | some (a, v, sp) => engWrite (Op.eng s o) sp (a.toNat, toBytes 8 v.toNat) s
      | none => s := by
  rw [writeStamp]
  cases stamp : o.stamp with
  | none => rfl
  | some x =>
    obtain ⟨a, v, sp⟩ := x
    dsimp only
    rw [fault]
    exact writeSettled_sound (sound a v sp stamp)

/-- A copy or fill without a fault that does not take the in-DRAM path: its writes, its stamp, its count (R350). -/
theorem completeCopy_sound {s : State} {id : Nat} {o : Op} (going : o.cancelled = false) (fresh : o.given = [])
    (source : sourceInError s o = false) (ready : sourceReady s id o = true) (dram : inDram s o = none)
    (fault : (Op.evaluate s o).2.fault = none)
    (sound : errorSpots (Op.evaluate s o).2.st (Op.eng (Op.evaluate s o).2.st o) (Op.evaluate s o).1 (Op.evaluate s o).2.writes = [])
    (stamps : stampFault (writeAll (Op.evaluate s o).2.st o (Op.evaluate s o).1 (Op.evaluate s o).2.writes) o = none)
    (still : inDram (writeAll (Op.evaluate s o).2.st o (Op.evaluate s o).1 (Op.evaluate s o).2.writes) o = none) :
    completeCopy s id o = opDone (releaseLines
      (writeStamp (writeAll (Op.evaluate s o).2.st o (Op.evaluate s o).1 (Op.evaluate s o).2.writes) o) id) id := by
  have before : dramBefore s o = s := by rw [dramBefore, dram]
  have all : undelivered o (Op.evaluate s o).2.writes = (Op.evaluate s o).2.writes := by rw [undelivered, if_pos fresh]
  simp only [completeCopy, before, all, going, source, ready, fault, mustWait, writeSettled_sound sound, dramAfter, still, stampWaits, stamps,
    Option.map_none, Option.any_none, Bool.not_true, Bool.or_self, Bool.false_eq_true, if_false]

/-! The holding buffer. -/

theorem receivers_dropReceiver (o : Op) (team : Nat) : (Op.dropReceiver o team).receivers = o.receivers.filter fun x => x ≠ team := by
  unfold Op.dropReceiver Op.receivers
  cases kind : o.kind <;> simp [kind]

/-- A scratchpad without errors takes an image as it is (R365). -/
theorem imageTo_sound {s : State} (sound : s.errs.scratch = []) (team : Nat) (bs : List (Nat × Byte)) : imageTo s team bs =
    noteScratch (s.modTeam team fun t => { t with scratch := bs.foldl (fun m b => memWrite m b.1 [b.2]) t.scratch }) team := by
  have clean : settleErrors s ⟨team, 0, 0, false⟩ true (bs.map fun b => (b.1, [b.2])) = (s, bs.map fun b => (b.1, [b.2])) := by
    simp [settleErrors, errorSpots, sound]
  simp only [imageTo, clean, List.foldl_map]

/-- A receiver that is not the last takes the image and is served (R365). -/
theorem drainTo_one {s : State} {id team other : Nat} {o : Op} {t : Team} {bytes : List (Nat × Byte)} (op : amGet s.ops id = some o)
    (there : s.team? team = some t) (image : o.image = some bytes) (mine : team ∈ Op.receivers o) (more : other ∈ Op.receivers o)
    (apart : other ≠ team) (whole : o.delivered = []) (resident : t.resident = true) (inside : ∀ b ∈ bytes, b.1 < t.units * 65536) :
    drainTo s id team = ((imageTo s team bytes).setOps (amPut (imageTo s team bytes).ops id (Op.dropReceiver o team))).modTeam team
      fun t => t.givePresent id fun _ => true := by
  have last : lastWaits s o team = false := by
    have two : (o.receivers == [team]) = false := beq_eq_false_iff_ne.2 fun only => apart (by simpa [only] using more)
    rw [lastWaits, two]
    rfl
  have fits : bytes.find? (fun b => t.units * 65536 ≤ b.1) = none :=
    List.find?_eq_none.2 fun b mem => by simpa using inside b mem
  have left : (Op.dropReceiver o team).receivers ≠ [] := by
    rw [receivers_dropReceiver]
    exact List.ne_nil_of_mem (List.mem_filter.2 ⟨more, by simpa using apart⟩)
  rw [drainTo, op, there]
  simp only [image, mine, resident, last, fits, whole, List.contains_eq_mem, decide_true, Bool.not_true, Bool.or_self, Bool.false_eq_true,
    if_false, List.not_mem_nil, decide_false, Bool.not_false, List.filter_true]
  rw [receiverDone]
  exact if_neg left

/-! The matrix engine. -/

/-- The one operation that comes before all others is found. -/
theorem find?_first {α : Type*} {p : α → Bool} {xs : List α} {x : α} (mem : x ∈ xs) (holds : p x = true) (only : ∀ y ∈ xs, y ≠ x → p y = false) :
    xs.find? p = some x := by
  obtain ⟨y, found⟩ := Option.isSome_iff_exists.1 (List.find?_isSome.2 ⟨x, mem, holds⟩)
  have same : y = x := by
    by_contra apart
    have fails := only y (List.mem_of_find?_eq_some found) apart
    rw [List.find?_some found] at fails
    cases fails
  rw [found, same]

/-- Settles O38: each event by the one path that its premises leave. -/
theorem engineEvents : Obligations.EngineEvents := by
  unfold Obligations.EngineEvents
  refine ⟨fun s id o op issued cls going whole fresh source ready one dram fault => ?copies, fun s id team other o t bytes op there image mine
    more apart whole resident clean inside => ?drain, ?matrix, fun s id o op cls started => ?done⟩
  case copies =>
    intro r s1
    refine ⟨fun sound stamps still clean => ?complete, fun line t owner there absent image => ?line⟩
    case complete =>
      have step_ : exec (.engineOpComplete id) s = .next (completeCopy s id o) := by
        show Host.Outcome.next _ = _
        rw [op]
        simp [issued, Op.matrix, cls, one]
      refine step_.trans (congrArg Host.Outcome.next ?_)
      refine (completeCopy_sound going fresh source ready dram fault sound stamps still).trans ?_
      exact congrArg (fun x => opDone (releaseLines x id) id) (writeStamp_sound stamps clean)
    case line =>
      intro ks mine_ s2 first sound
      show Host.Outcome.next _ = _
      have goes : (amGetD t.absent line []).contains id = true := absent
      rw [deliverLine, op]
      simp only [image, one, going, owner, issued, source, there, Option.map_some, Option.getD_some, goes, fault, ready]
      rw [if_neg (by simp)]
      rw [if_neg (by rw [show errorSpots s (Op.eng s o) (Op.evaluate s o).1 (instantWrites o (lineInstants s o (Op.evaluate s o).1 line
        (Op.evaluate s o).2.writes) (Op.evaluate s o).2.writes) = [] from first]; simp)]
      rw [fresh, List.nil_append]
      exact congrArg (fun x : State => Host.Outcome.next ((x.setOps (amPut x.ops id { o.reading r.2.writes with given := ks.eraseDups })).modTeam
        o.g.team fun x => x.givePresent id fun l => l == line)) (writeSettled_sound sound)
  case drain =>
    have kept : holdImage s id team = s := by
      rw [holdImage, op, there]
      simp [resident]
    let taken_ (x : Team) : Team := { x with scratch := bytes.foldl (fun m b => memWrite m b.1 [b.2]) x.scratch }
    let v := (imageTo s team bytes).setOps (amPut (imageTo s team bytes).ops id (Op.dropReceiver o team))
    have step_ : exec (.mcDrain id team) s = .next (v.modTeam team fun t => t.givePresent id fun _ => true) := by
      show Host.Outcome.next _ = _
      rw [kept, drainTo_one op there image mine more apart whole resident inside]
    have image_ : (imageTo s team bytes).teams = (s.modTeam team taken_).teams ∧ (imageTo s team bytes).mem = s.mem := by
      rw [imageTo_sound clean]
      exact ⟨(noteScratch_beside ..).1, (noteScratch_beside ..).2.1⟩
    have team_ : v.team? team = some (taken_ t) :=
      (State.team?_congr image_.1 team).trans ((State.team?_modTeam ..).trans ((if_pos rfl).trans (congrArg _ there)))
    refine ⟨_, _, step_, (State.team?_modTeam ..).trans ((if_pos rfl).trans (congrArg _ team_)), image_.2, rfl, rfl⟩
  case matrix =>
    intro s core id acc row col x sh a b sa sb o t mine mem first kind issued ready source there owner
    let before (x : Nat × Op) : Bool := mine.all fun y => x.1 == y.1 || opBefore s x.1 y.1
    have found : mine.find? before = some (id, o) := by
      refine find?_first mem (List.all_eq_true.2 fun y inside => ?_) fun y inside apart => List.all_eq_false.2 ⟨(id, o), mem, ?_⟩
      · by_cases same : y = (id, o)
        · simp [same]
        · simp [(first y inside same).2.1]
      · obtain ⟨other, -, later⟩ := first y inside apart
        simp [other, later]
    have waits : matrixWaits s o = false := by rw [matrixWaits, kind]
    have effect : matrixEffect s o =
        s.putTeam o.g.team (mmaOn t.scratch ⟨x, sh, acc, row, col, a.toNat, b.toNat, sa.toNat, sb.toNat⟩ t) := by
      simp only [matrixEffect, kind, owner, there, Option.map_some, Option.getD_some]
    have step_ : exec (.matrixOpStart core) s = .next (((matrixEffect s o).setOps (amMod (matrixEffect s o).ops id fun x =>
        { x with st := .started })).countCore core 0x0A 1) := by
      refine Eq.trans (show _ = Host.Outcome.next (match mine.find? before with
        | none => s
        | some (id, o) =>
          if o.st == .started || !sourceReady s id o || matrixWaits s o then s
          else
            let s1 := if sourceInError s o then reportSource s o else matrixEffect s o
            (s1.setOps (amMod s1.ops id fun x => { x with st := .started })).countCore core 0x0A 1) from rfl) ?_
      rw [found]
      simp [issued, ready, waits, source]
    refine ⟨_, step_, (State.countCore_mem ..).trans ?_, (State.team?_congr (State.countCore_teams ..) _).trans ?_⟩
    · rw [effect]
      rfl
    · rw [effect]
      exact amGet_amPut_same ..
  case done =>
    show Host.Outcome.next _ = _
    rw [op]
    simp [started, Op.matrix, cls]

end Sys2Proof.Machine
end

section
/-! PROOFS. Monitors: re-read, polled, timed out (R358, R390). -/

namespace Sys2Proof.Machine

/-- A monitor whose word has reached its target wakes its threads with the word (R358). -/
theorem monTry_reached {s : State} {id : Nat} {m : Mon} (reached : m.target.toNat ≤ (monRead s (coreOf s m.g) m).1.toNat) :
    monTry s id m = monWake (monRead s (coreOf s m.g) m).2 id m (monRead s (coreOf s m.g) m).1 true := by
  rw [monTry]
  exact if_pos reached

/-- Settles O39: each event takes the path that its premises leave, and a read that reaches the target wakes the threads. -/
theorem monitorEvents : Obligations.MonitorEvents := by
  unfold Obligations.MonitorEvents
  intro s id m t mon team resident woken r
  have core : coreOf s m.g = t.core := by rw [coreOf, team]; rfl
  refine ⟨fun reads reached => ⟨fun due => ?again, fun polls late => ?poll⟩, fun d deadline late fresh quiet => ?out⟩
  case again =>
    have goes : (!(m.resumed || (m.dirty && !m.polling)) || monBlocked s m) = false := by
      rcases due with resumed | ⟨still, dirty⟩
      · simp [resumed, reads]
      · simp [still, dirty, reads]
    show Host.Outcome.next _ = _
    rw [mon]
    dsimp only
    rw [goes, if_neg Bool.false_ne_true, monTry_reached (by rw [core]; exact reached), core]
    rfl
  case poll =>
    have goes : (!m.polling || decide (s.time.clk < m.since + 1024) || monBlocked s m) = false := by
      simp [polls, reads, late]
    show Host.Outcome.next _ = _
    rw [mon]
    dsimp only
    rw [goes, if_neg Bool.false_ne_true, monTry_reached (by rw [core]; exact reached), core]
    rfl
  case out =>
    have waits : (m.dirty && !monBlocked s m) = false := by
      rcases quiet with clean | blocked
      · simp [clean]
      · simp [blocked]
    show Host.Outcome.next _ = _
    rw [mon]
    simp only [deadline, late, fresh, waits, team, resident, Option.map_some, Option.getD_some, decide_true, Bool.not_true, Bool.or_self,
      Bool.false_eq_true, if_false]
    rfl

end Sys2Proof.Machine
end

section
/-! PROOFS. Commit rounds, cairns, ordered commits, irrevocable begins and the watchdog (R305, R308 to R311, R317, R318). -/

namespace Sys2Proof.Machine

/-! A cairn on its way. -/

section
variable (s : State) (g : GRef) (gr : Group) (ls : List Nat) (ordered : Bool)

theorem sendCairn_cairn : amGet (sendCairn s g gr ls ordered).cairns s.fresh = some ⟨g, ls, ordered, [], cairnRoute gr ls, false⟩ := by
  rw [sendCairn, outer_part State.cairns (fun _ => rfl) (State.countDie_beside ..).2.2.1]
  exact amGet_amPut_same ..

theorem sendCairn_mem : (sendCairn s g gr ls ordered).mem = s.mem := (State.countDie_beside ..).2.1

end

/-- The one logged lane of a group, at its TXCOMMIT, is the round (R308). -/
theorem participants_one {gr : Group} {l : Nat} {t : Thread} {x : Tx} {d : Reg}
    (only : (List.range 32).filter (fun k => ((gr.lane? k).map Thread.logged).getD false) = [l]) (lane : gr.lane? l = some t)
    (tx : t.tx = some x) (park : t.park = some (.commit d)) (mode : x.mode ≠ .ordered) (fresh : gr.ordered = 0) :
    participants gr = [l] ∧ inOrdered gr l = false := by
  have logged : t.logged = true := by
    have mem : l ∈ (List.range 32).filter fun k => ((gr.lane? k).map Thread.logged).getD false := by rw [only]; exact List.mem_singleton.2 rfl
    simpa [lane] using (List.mem_filter.1 mem).2
  have waits : atCommit gr l = true := by simp [atCommit, lane, logged, park]
  have alone : inOrdered gr l = false := by simp [inOrdered, lane, tx, mode]
  refine ⟨?_, alone⟩
  simp only [participants, only, List.all_cons, List.all_nil, waits, Bool.and_self, if_true]
  simp [alone, fresh, bit]

/-! A cairn at a line. -/

theorem foldl_reports_none {s : State} {line : Nat} (es : List RdEnt)
    (sound : ∀ e ∈ es, lineOf e.key = line → inError s e.key = false) :
    es.foldl (fun u e => if lineOf e.key = line ∧ inError u e.key then report u (.sector (sectorOf e.key)) else u) s = s := by
  refine List.foldlRecOn (motive := fun u => u = s) es _ rfl fun u same e mem => ?_
  rw [same, if_neg fun ⟨here, bad⟩ => by rw [sound e mem here] at bad; cases bad]

/-- A line whose reads all validate has nothing to report, and no lane leaves the cairn there (R310, R312). -/
theorem validated_line {s : State} {gr : Group} {c : Cairn} {line : Nat} (valid : ∀ k ∈ c.lanes, ∀ u x, gr.lane? k = some u → u.tx = some x →
    ∀ e ∈ x.rd, lineOf e.key = line → validates s x.mode e = true) :
    invalidAt s gr c line = [] ∧ ∀ v : State, v.errs.sectors = s.errs.sectors → reportReads v gr c line = v := by
  refine ⟨List.filter_eq_nil_iff.2 fun k mem => ?_, fun v same => ?_⟩
  · cases lane : gr.lane? k with
    | none => simp
    | some u =>
      cases tx : u.tx with
      | none => simp [tx]
      | some x =>
        have fine : x.rd.any (fun e => lineOf e.key == line && !validates s x.mode e) = false :=
          List.any_eq_false.2 fun e inside => by
            by_cases here : lineOf e.key = line
            · simp [valid k mem u x lane tx e inside here]
            · simp [here]
        simp [tx, fine]
  · refine List.foldlRecOn (motive := fun w => w = v) c.lanes _ rfl fun w stays k mem => ?_
    rw [stays]
    cases lane : gr.lane? k with
    | none => rfl
    | some u =>
      cases tx : u.tx with
      | none => simp [tx]
      | some x =>
        simp only [Option.bind_some, tx]
        refine foldl_reports_none x.rd fun e inside here => ?_
        have valid_ := valid k mem u x lane tx e inside here
        rw [validates, Bool.and_eq_true, Bool.not_eq_true'] at valid_
        exact (congrArg (fun es : List Nat => es.contains (sectorOf e.key)) same).trans valid_.1

/-! The end of a cairn. -/

/-- A lane that is not held stays as it is where a round ends (R314). -/
theorem Group.letBegin_lane {gr : Group} {l : Nat} {t : Thread} (lane : gr.lane? l = some t) (awake : t.park = none) :
    gr.letBegin.lane? l = some t := by
  have begun : t.beginHeld = t := by rw [Thread.beginHeld, awake]
  have free : t.held = false := by rw [Thread.held, awake]
  have lane_ : gr.lanes[l]? = some t := lane
  unfold Group.letBegin Group.emptyRounds Group.lane?
  split
  · simp [lane_, begun, free]
  · simp [lane_, begun]

theorem whileRunning_lane {s : State} {g : GRef} {l : Nat} {t : Thread} (lane : s.lane? g l = some t) (awake : t.park = none) :
    (whileRunning s g Group.letBegin).lane? g l = some t := by
  unfold whileRunning
  split
  · rw [State.lane?_modGroup]
    obtain ⟨gr, group, inside⟩ := Option.bind_eq_some_iff.1 lane
    rw [group]
    exact Group.letBegin_lane inside awake
  · exact lane

/-- The lane of a TXCOMMIT after its commit (R307, R308). -/
def Thread.committed (v : Thread) (d : Reg) : Thread := { v.commit d false with park := none, pc := v.pc + 8 }

theorem Thread.committed_getV (v : Thread) (d : Reg) : (v.committed d).getV d.toNat = 0 :=
  (Thread.getV_setV v d.toNat d.toNat 0).trans (if_pos rfl)

/-- The lanes of an unordered cairn past its commit instant commit (R311). -/
theorem commitLanes_lane {s : State} {id : Nat} {c : Cairn} {gr : Group} {k : Nat} {v : Thread} {d : Reg} (plain : c.ordered = false)
    (group : s.group? c.g = some gr) (mem : k ∈ c.lanes) (lane : gr.lane? k = some v) (park : v.park = some (.commit d)) :
    (commitLanes s id c).lane? c.g k = some (v.committed d) := by
  unfold commitLanes
  simp only [plain, Bool.false_eq_true, if_false]
  rw [State.lane?_congr (State.countCore_teams ..), State.lane?_congr (l1Clear_beside ..).1]
  refine whileRunning_lane ?_ rfl
  rw [State.lane?_modGroup, show ((s.setCairns (amDel s.cairns id)).setLocks (s.locks.filter fun x => x.2 != id)).group? c.g = some gr from group]
  refine (Group.lane?_modLanes gr c.lanes _ k).trans ?_
  rw [lane]
  simp [mem, park]
  rfl

/-- Settles O40: by the branch of each event that its premises name. -/
theorem commitEvents : Obligations.CommitEvents := by
  unfold Obligations.CommitEvents
  refine ⟨fun s g gr l t x d group may only lane tx park mode fresh => ?round, fun s g gr id c group same found => ?cairn,
    fun s g gr l t group next lane due waits may => ?ordered, fun s g l t m d p lane team resident park due => ?irrevocable,
    fun s g l t x lane tx mode many awake => ?watchdog⟩
  case round =>
    obtain ⟨ps, alone⟩ := participants_one only lane tx park mode fresh
    let s1 := s.modGroup g fun x => { x with
      ordered := x.ordered ||| maskOf [], stop := x.stop
      lanes := x.lanes.mapIdx fun k t => if [l].contains k then t else t.lowerHold 1 }
    have step_ : exec (.commitRound g) s = .next (sendCairn s1 g gr [l] false) := by
      show Host.Outcome.next _ = _
      rw [group]
      simp only [ps, may, List.filter_cons, alone, Bool.not_false, Bool.false_eq_true, if_false, if_true, List.filter_nil]
      rfl
    exact ⟨_, _, step_, sendCairn_cairn s1 g gr [l] false, rfl, rfl, rfl, rfl, rfl, sendCairn_mem ..⟩
  case cairn =>
    subst same
    refine ⟨fun line rest first todo room serves free valid => ?lock, fun first todo => ?instant, fun line rest passed todo room => ?write,
      fun passed todo plain _ => ?commit⟩
    case lock =>
      obtain ⟨none_, quiet⟩ := validated_line valid
      have up : (decide (keyHome (line * 128) ≤ 7) && !s.dieUp (keyHome (line * 128))) = false := by
        by_cases low : keyHome (line * 128) ≤ 7
        · simp [serves low]
        · simp [low]
      show Host.Outcome.next _ = _
      rw [found, group]
      simp only [todo, room, first, Bool.not_true, Bool.false_eq_true, if_false, firstPass, up, free, none_, List.foldl_nil]
      exact congrArg Host.Outcome.next (quiet _ 
        (beside_foldl _ (fun st (x : Nat × Nat) => touchRead_beside st x.1 x.2 (pteEvp x.2)) _ _).2.2.2)
    case instant =>
      show Host.Outcome.next _ = _
      rw [found, group]
      simp only [todo, first, Bool.false_eq_true, if_false]
    case write =>
      have step_ : exec (.cairn c.g) s = .next ((cairnLine c s line).setCairns (amPut s.cairns id { c with todo := rest })) := by
        show Host.Outcome.next _ = _
        rw [found, group]
        simp only [todo, room, passed, Bool.not_true, Bool.false_eq_true, if_false, if_true]
      exact ⟨_, step_, amGet_amDel_same .., amGet_amPut_same ..⟩
    case commit =>
      have step_ : exec (.cairn c.g) s = .next (commitLanes s id c) := by
        show Host.Outcome.next _ = _
        rw [found, group]
        simp only [todo, passed, if_true]
      refine ⟨_, step_, ?_, ?_, fun k mem v d lane park => ⟨_, commitLanes_lane plain group mem lane park, rfl, rfl, rfl, v.committed_getV d⟩⟩
      · unfold commitLanes
        simp only [plain, Bool.false_eq_true, if_false]
        rw [outer_part State.cairns (fun _ => rfl) (State.countCore_beside ..).2.2.1, outer_part State.cairns (fun _ => rfl) (l1Clear_beside ..).2.2.1]
        unfold whileRunning
        split <;> exact amGet_amDel_same ..
      · unfold commitLanes
        simp only [plain, Bool.false_eq_true, if_false]
        rw [State.countCore_mem, (l1Clear_beside ..).2.1, whileRunning_mem]
        rfl
  case ordered =>
    have step_ : exec (.orderedCommit g) s = .next (sendCairn s g gr [l] true) := by
      show Host.Outcome.next _ = _
      rw [group]
      simp only [next, lane, Option.map_some, Option.getD_some, due, waits, may, Bool.and_self, if_true]
    exact ⟨_, _, step_, sendCairn_cairn s g gr [l] true, rfl, rfl, rfl⟩
  case irrevocable =>
    let begun (x : Thread) : Thread := { (x.begin .irrevocable d x.pc).setP p.toNat true with park := none, pc := x.pc + 8 }
    have step_ : exec (.irrevocableBegin g l) s = .next ((l1Clear s m.core).modLane g l begun) := by
      show Host.Outcome.next _ = _
      rw [lane, team]
      simp only [park, due, resident, Bool.and_self, if_true]
      rfl
    refine ⟨_, begun t, { mode := .irrevocable, rd := [], wr := [], abortPc := t.pc + 8, d := d, fpctl := t.fpctl, fpflags := t.fpflags, issues := 0 },
      step_, ?_, ?_, rfl, rfl, rfl, ?_, (l1Clear_beside ..).2.1⟩
    · rw [State.lane?_modLane, State.lane?_congr (l1Clear_beside ..).1, lane]
      rfl
    · obtain ⟨_, _, same⟩ := Thread.setP_sameButPreds (t.begin .irrevocable d t.pc) p.toNat true
      exact congrArg Thread.tx same
    · exact (Thread.getP_setP ..).trans (by simp)
  case watchdog =>
    show Host.Outcome.next _ = _
    rw [lane]
    have late : (x.mode != .irrevocable && decide (65535 ≤ x.issues) && t.park.isNone) = true := by simp [mode, many, awake]
    simp only [tx, late, if_true]
    rfl

end Sys2Proof.Machine
end

section
/-! PROOFS. Peers: their accesses, flits, ports, losses and trainings (R433 to R437, R452, R462). -/

namespace Sys2Proof.Machine

/-! What the loss or the discovery of a peer keeps. -/

theorem peerGoneMsg_keeps (s : State) (x : Nat × StakeMsg) : Keeps s (peerGoneMsg s x) := by
  unfold peerGoneMsg
  split
  · exact answerMsg_keeps ..
  · exact answerMsg_keeps ..
  · rfl

theorem staleAt_keeps (s : State) (msg : Nat) : Keeps s (staleAt s msg) :=
  (settleMsg_keeps s .pending true none msg).trans (keeps_foldl _ (fun _ _ => settleInv_keeps ..) _ _)

theorem loseStake_keeps (s : State) (core slot cause : Nat) : Keeps s (loseStake s core slot cause) := by
  unfold loseStake
  refine Keeps.trans (t := match (stakeSlot s core slot).use with
    | some (.resolution _ .pending _ _) => settle s core slot (.broken cause 0 0)
    | some (.resolution p (.fulfilled _) q d) =>
      announce (putStake s core slot { stakeSlot s core slot with use := some (.resolution p (.broken cause 0 0) q d) }) core slot
        (.broken cause 0 0)
    | _ => s) ?_ rfl
  split
  · exact settle_keeps ..
  · exact announce_keeps ..
  · rfl

theorem peerGone_keeps (s : State) (dev : Nat) : Keeps s (peerGone s dev) := by
  unfold peerGone
  refine Keeps.trans ?_ (keeps_foldl _ (fun st x => loseStake_keeps ..) _ _)
  refine Keeps.trans ?_ (keeps_foldl _ (fun st x => peerGoneMsg_keeps ..) _ _)
  exact keeps_foldl _ (fun st i => settleInv_keeps ..) _ _

theorem stageFour_keeps (s : State) : Keeps s (stageFour s) := by
  unfold stageFour
  refine Keeps.trans (keeps_foldl _ (fun st i => ?_) _ _) (keeps_foldl _ (fun st m => ?_) _ _)
  · dsimp only
    split
    · exact deviceCheck_keeps ..
    · split
      · rfl
      · split
        · exact settleInv_keeps ..
        · split
          · rfl
          · exact settleInv_keeps ..
  · split
    · exact peerGoneMsg_keeps ..
    · split
      · rfl
      · exact staleAt_keeps ..

theorem breakTrees_mem (s : State) (lost : Bool) (p : Tree → Bool) : (breakTrees s lost p).mem = s.mem := rfl
theorem breakTrees_ctxs (s : State) (lost : Bool) (p : Tree → Bool) : (breakTrees s lost p).ctxs = s.ctxs := rfl
theorem breakTrees_sys (s : State) (lost : Bool) (p : Tree → Bool) : (breakTrees s lost p).sys = s.sys := rfl

/-! Maps built up entry by entry. -/

/-- What every entry put satisfies, and the one before, the last one does. -/
theorem amGet_foldl_amPut {β : Type} (ok : β → Prop) (v : AMap β → Nat → β) (fine : ∀ m k, ok (v m k)) (ks : List Nat) (m : AMap β) {k : Nat}
    (put : k ∈ ks ∨ ∃ x, amGet m k = some x ∧ ok x) : ∃ x, amGet (ks.foldl (fun m k => amPut m k (v m k)) m) k = some x ∧ ok x := by
  induction ks generalizing m with
  | nil => exact put.resolve_left List.not_mem_nil
  | cons j ks ih =>
    refine ih _ ?_
    by_cases here : k = j
    · exact .inr ⟨v m j, (amGet_amPut ..).trans (if_pos here), fine m j⟩
    · rcases put with among | ⟨x, there, good⟩
      · exact .inl ((List.mem_cons.1 among).resolve_left here)
      · exact .inr ⟨x, (amGet_amPut_other m j k _ here).trans there, good⟩

theorem amGet_foldl_amPut_but {β : Type} (ok : β → Prop) (v : AMap β → Nat → β) (fine : ∀ m k, ok (v m k)) (ks : List Nat) (m : AMap β)
    {k own : Nat} (mem : k ∈ ks) (other : k ≠ own) :
    ∃ x, amGet (ks.foldl (fun m k => if k = own then m else amPut m k (v m k)) m) k = some x ∧ ok x := by
  have without : ks.foldl (fun m k => if k = own then m else amPut m k (v m k)) m =
      (ks.filter fun k => k ≠ own).foldl (fun m k => amPut m k (v m k)) m := by
    rw [List.foldl_filter]
    refine List.foldl_ext _ _ _ fun m j _ => ?_
    by_cases same : j = own <;> simp [same]
  rw [without]
  exact amGet_foldl_amPut ok v fine _ m (.inl (List.mem_filter.2 ⟨mem, by simpa using other⟩))

theorem amGet_map_snd {β γ : Type} (m : AMap β) (f : β → γ) (k : Nat) : amGet (m.map fun e => (e.1, f e.2)) k = (amGet m k).map f := by
  induction m with
  | nil => rfl
  | cons e m ih =>
    obtain ⟨j, y⟩ := e
    simp only [List.map_cons, amGet, ih]
    split <;> rfl

/-- The peers after a training that found none (R452). -/
def lostPeers (s : State) : AMap Peer :=
  (List.range 256).foldl (fun m d => if d = s.sys.device then m
    else amPut m d { present := true, lost := true, lastFlit := s.time.datum, entry := (amGet m d).bind Peer.entry }) s.sys.peers

theorem lostPeers_lost {s : State} {d : Nat} (low : d < 256) (other : d ≠ s.sys.device) : (amGet (lostPeers s) d).map Peer.lost = some true := by
  obtain ⟨x, there, gone⟩ := amGet_foldl_amPut_but (fun x : Peer => x.lost = true)
    (fun m d => { present := true, lost := true, lastFlit := s.time.datum, entry := (amGet m d).bind Peer.entry }) (fun _ _ => rfl)
    (List.range 256) s.sys.peers (List.mem_range.2 low) other
  rw [lostPeers, there, Option.map_some, gone]

/-! Records of an error log. -/

theorem length_enterRecord (recs : List ErrRec) (same : Nat) (r : ErrRec) : (enterRecord recs same r).length = recs.length + 1 := by
  have parts := List.length_eq_length_filter_add (l := recs.drop (recs.length - same)) fun x => decide (x.chan ≤ r.chan)
  have whole := congrArg List.length (List.take_append_drop (recs.length - same) recs)
  rw [List.length_append] at whole
  simp only [enterRecord, List.length_append, List.length_singleton]
  omega

/-- A log with room takes the record, in its place (R462, R463). -/
theorem logEvent_log {s : State} {log : Nat} {g : ErrLog} (there : amGet s.sys.logs log = some g) (room : g.recs.length < 64)
    (chan kind asid cause addr : Nat) : ∃ g1 r, amGet (logEvent s log chan kind asid cause addr).sys.logs log = some g1 ∧ r ∈ g1.recs ∧
      (g.clk ≠ s.time.clk → g1.recs = g.recs ++ [r]) ∧ r.kind = kind ∧ r.chan = chan ∧ r.datum = s.time.datum := by
  let n := if amGetD g.le chan 0 < 0xFFFFFFFF then amGetD g.le chan 0 + 1 else 0xFFFFFFFF
  let r : ErrRec := ⟨s.time.datum, addr, chan, kind, asid, n, cause⟩
  let same := if g.clk = s.time.clk then min g.newest g.recs.length else 0
  let g1 : ErrLog := { g with le := amPut g.le chan n, clk := s.time.clk, recs := enterRecord g.recs same r, newest := same + 1 }
  have few : (enterRecord g.recs same r).length ≤ 64 := by rw [length_enterRecord]; omega
  have entry : amGet (logEvent s log chan kind asid cause addr).sys.logs log = some g1 := by
    have found : amGetD s.sys.logs log ErrLog.init = g := by rw [amGetD, there]; rfl
    refine (amGet_amPut_same ..).trans (congrArg some ?_)
    rw [found]
    refine (if_pos few).trans ?_
    exact congrArg (fun rs => { g with le := amPut g.le chan n, clk := s.time.clk, recs := rs, newest := same + 1 })
      (List.take_of_length_le few)
  refine ⟨g1, r, entry, ?_, fun later => ?_, rfl, rfl, rfl⟩
  · simp [g1, enterRecord]
  · have none_ : same = 0 := if_neg later
    simp [g1, none_, enterRecord]

/-! A peer's access. -/

/-- An access that the ingress and the page allow is performed at its home (R436). -/
theorem peerChecked_performs {s u : State} {dev off ctx size key e : Nat} {base : W64} {p : Peer} {c : Ctx} {r : PeerReq}
    (peer : amGet s.sys.peers dev = some p) (entry : p.entry = some (ctx, base, size)) (inside : off < size) (there : amGet s.ctxs ctx = some c)
    (allowed : missingAccess s (peerNeed r) 131 (0x1000 + dev) = none)
    (looked : xlate s unitCore c.asid.toNat false (peerNeed r) (base.toNat + off) = (.ok key e, u)) (sound : inError u key = false) :
    peerChecked s dev off r = peerPerform u key e r := by
  simp only [peerChecked, peer, Option.bind_some, entry, Nat.not_le.2 inside, if_false, there, looked, XOut.early, allowed, Bool.false_eq_true,
    peerDone, sound, Bool.not_false, if_true]

theorem execPeerAccess_performs {s u : State} {dev off ctx size key e : Nat} {base : W64} {p : Peer} {c : Ctx} {r : PeerReq}
    (peer : amGet s.sys.peers dev = some p) (present : p.present = true) (alive : p.lost = false) (stage : 4 ≤ s.sys.stage)
    (admits : s.sys.admitting = true) (entry : p.entry = some (ctx, base, size)) (inside : off < size) (there : amGet s.ctxs ctx = some c)
    (ready : peerWaits s dev off r = false) (allowed : missingAccess s (peerNeed r) 131 (0x1000 + dev) = none)
    (looked : xlate s unitCore c.asid.toNat false (peerNeed r) (base.toNat + off) = (.ok key e, u)) (sound : inError u key = false) :
    exec (.peerAccess dev off r) s = .next ((peerPerform u key e r).2.setSys { (peerPerform u key e r).2.sys with
      peerOut := (peerPerform u key e r).2.sys.peerOut ++ [(dev, (peerPerform u key e r).1)] }) := by
  show Host.Outcome.next _ = _
  rw [peer]
  simp only [present, alive, Nat.not_lt.2 stage, admits, ready, decide_false, Bool.not_true, Bool.or_self, Bool.false_eq_true, if_false,
    peerChecked_performs peer entry inside there allowed looked sound]

/-- Settles O43: each event by the path that its premises leave. -/
theorem peerEvents : Obligations.PeerEvents := by
  unfold Obligations.PeerEvents
  refine ⟨fun s dev off ctx size key e base p c r u peer present alive stage admits entry inside there _ ready allowed looked sound =>
    ⟨fun bs write => ?write, fun n read => ?read⟩, fun s port dev p d data port_ peer trained up present alive some_ => ?flit,
    fun s port p port_ trained up low => ?down, fun s dev p peer present alive silent => ?lost,
    fun s stage fine => ⟨fun dev ports peers low => ?training, ?timeout⟩⟩
  case write =>
    have step_ := execPeerAccess_performs peer present alive stage admits entry inside there ready allowed looked sound
    subst write
    refine ⟨_, step_, writeAt_mem .., congrArg (· ++ [(dev, PeerAns.done [])]) ?_⟩
    exact outer_part (fun s => s.sys.peerOut) (fun _ => rfl) (writeAt_outer ..)
  case read =>
    have step_ := execPeerAccess_performs peer present alive stage admits entry inside there ready allowed looked sound
    subst read
    have touched := (Place.mem key e (pteEvp e)).touch_beside u
    refine ⟨_, step_, touched.2.1, congrArg (· ++ [(dev, PeerAns.done (memRead u.mem key n))]) ?_⟩
    exact outer_part (fun s => s.sys.peerOut) (fun _ => rfl) touched.2.2.1
  case flit =>
    show Host.Outcome.next _ = _
    rw [port_, peer, compression.1 data]
    simp only [trained, up, present, alive, some_, Bool.not_true, Bool.or_self, Bool.false_eq_true, if_false]
  case down =>
    let s1 := logEvent s (8 + port / 9) (32 + port % 9) 5 0xFFFF 0 0
    have step_ : exec (.portDown port) s = .next (s1.setSys { s1.sys with jports := amPut s1.sys.jports port { p with down := true } }) := by
      show Host.Outcome.next _ = _
      rw [port_]
      simp only [trained, up, Bool.not_true, Bool.or_self, Bool.false_eq_true, if_false]
      rfl
    exact ⟨_, step_, amGet_amPut_same .., (logEvent_beside s (8 + port / 9) (32 + port % 9) 5 0xFFFF 0 0).2.1, fun g there room => logEvent_log there room ..⟩
  case lost =>
    let s1 := s.setSys { s.sys with peers := amPut s.sys.peers dev { p with lost := true } }
    let s2 := breakTrees (peerGone s1 dev) true fun t => t.devs.contains dev
    have kept := peerGone_keeps s1 dev
    have step_ : exec (.peerLost dev) s = .next (s2.setCtxs (s2.ctxs.map fun c => (c.1, { c.2 with events := c.2.events ++ [dev] }))) := by
      show Host.Outcome.next _ = _
      have goes : (!p.present || p.lost || decide (s.time.datum < p.lastFlit + 1000000)) = false := by simp [present, alive, silent]
      rw [peer]
      dsimp only
      rw [goes]
      rfl
    have peers : s2.sys.peers = amPut s.sys.peers dev { p with lost := true } :=
      (congrArg Sys.peers (breakTrees_sys ..)).trans (kept.part (fun s => s.sys.peers) fun _ => rfl)
    have mem : s2.mem = s.mem := (breakTrees_mem ..).trans (kept.part State.mem fun _ => rfl)
    have ctxs : s2.ctxs = s.ctxs := (breakTrees_ctxs ..).trans (kept.part State.ctxs fun _ => rfl)
    refine ⟨_, step_, (congrArg (amGet · dev) peers).trans (amGet_amPut_same ..), mem, fun n c there =>
      ⟨{ c with events := c.events ++ [dev] }, ?_, rfl⟩⟩
    refine (amGet_map_snd s2.ctxs (fun c => { c with events := c.events ++ [dev] }) n).trans ?_
    rw [ctxs, there]
    rfl
  case training =>
    let ports_ := (ports.filter fun k => k < 18).foldl (fun m k =>
      amPut m k { trained := true, down := false, rx := ((amGet m k).map Port.rx).getD [] }) s.sys.jports
    let s1 := s.setSys { s.sys with device := dev, jports := ports_, peers := trainPeers s dev peers, stage := 4 }
    have step_ : exec (.jiathTraining dev ports peers) s = .next (stageFour s1) := by
      have goes : ¬(s.sys.stage < 3 ∨ 256 ≤ dev ∨ s.sys.fail = true) := by simp [stage, fine, low]
      refine congrArg Host.Outcome.next ((if_neg goes).trans ?_)
      simp only [if_pos stage]
      rfl
    have kept := stageFour_keeps s1
    refine ⟨_, step_, kept.part (fun s => s.sys.stage) fun _ => rfl, kept.part (fun s => s.sys.device) fun _ => rfl,
      kept.part State.mem fun _ => rfl, fun k mem inside => ?_⟩
    rw [kept.part (fun s => s.sys.jports) fun _ => rfl]
    obtain ⟨x, there, trained⟩ := amGet_foldl_amPut (fun x : Port => x.trained = true)
      (fun m k => { trained := true, down := false, rx := ((amGet m k).map Port.rx).getD [] }) (fun _ _ => rfl)
      (ports.filter fun k => k < 18) s.sys.jports (.inl (List.mem_filter.2 ⟨mem, by simpa using inside⟩))
    exact (congrArg (Option.map Port.trained) there).trans (congrArg some trained)
  case timeout =>
    have step_ : exec .jiathTrainingTimeout s = .next (stageFour (s.setSys { s.sys with peers := lostPeers s, stage := 4 })) := by
      have goes : ¬(s.sys.stage ≠ 3 ∨ s.sys.fail = true) := by simp [stage, fine]
      exact congrArg Host.Outcome.next (if_neg goes)
    have lost (d : Nat) := lostPeers_lost (s := s) (d := d)
    generalize lostPeers s = peers at step_ lost
    have kept := stageFour_keeps (s.setSys { s.sys with peers := peers, stage := 4 })
    refine ⟨_, step_, kept.part (fun s => s.sys.stage) fun _ => rfl, kept.part State.mem fun _ => rfl, fun d low other => ?_⟩
    rw [kept.part (fun s => s.sys.peers) fun _ => rfl]
    exact lost d low other

end Sys2Proof.Machine
end

section
/-! PROOFS. The events of a collective round (R443, R444, R446). -/

namespace Sys2Proof.Machine

/-! What a router keeps when it sends its message on. -/

section
variable (t : Tree) (r : CollRound) (router : Nat) (m : RedMsg)

theorem sendOn_inputs : (sendOn t r router m).inputs = r.inputs := by
  unfold sendOn
  dsimp only
  split <;> rfl

theorem sendOn_timers : (sendOn t r router m).timers = r.timers := by
  unfold sendOn
  dsimp only
  split <;> rfl

theorem sendOn_contribs : (sendOn t r router m).contribs = r.contribs := by
  unfold sendOn
  dsimp only
  split <;> rfl

end

/-- The root of the tree ends the round with a time-out's code (R444, R446). -/
theorem sendOn_timeout {t : Tree} {r : CollRound} {node : Nat} (root : (node, node) ∈ t.links.map fun l => (l.1, l.2.1)) (home : t.home = true)
    (going : r.result = none) : (sendOn t r node .timeout).result = some (1, []) := by
  obtain ⟨l, link, same⟩ := List.mem_map.1 root
  obtain ⟨here, there⟩ := Prod.mk.inj same
  have ends : endsAt t node = true := by
    rw [endsAt, home, Bool.and_true]
    exact List.any_eq_true.2 ⟨l, link, by simp [here, there]⟩
  rw [sendOn]
  simp only [ends, if_true, going]
  rfl

theorem amHas_amPut_same {β : Type} (m : AMap β) (k : Nat) (x : β) : amHas (amPut m k x) k = true := by
  rw [amHas, amGet_amPut_same]
  rfl

/-- A first input at a router stands there, and the router's timer runs (R443). -/
theorem receive_first {s : State} {t : Tree} {r : CollRound} {key : Nat} (m : RedMsg) (unsent : r.sent.contains (key / 16384) = false)
    (fresh : amHas r.inputs key = false) : (receive s t r key m).contribs = r.contribs ∧ amGet (receive s t r key m).inputs key = some m ∧
      amHas (receive s t r key m).timers (key / 16384) = true := by
  let r1 : CollRound := { r with
    inputs := amPut r.inputs key m
    timers := if amHas r.timers (key / 16384) then r.timers else amPut r.timers (key / 16384) s.time.datum }
  have input : amGet r1.inputs key = some m := amGet_amPut_same ..
  have timer : amHas r1.timers (key / 16384) = true := by
    by_cases runs : amHas r.timers (key / 16384) = true
    · simp [r1, runs]
    · simp [r1, runs, amHas_amPut_same]
  have sends (x : RedMsg) : (sendOn t r1 (key / 16384) x).contribs = r.contribs ∧ amGet (sendOn t r1 (key / 16384) x).inputs key = some m ∧
      amHas (sendOn t r1 (key / 16384) x).timers (key / 16384) = true := by
    rw [sendOn_contribs, sendOn_inputs, sendOn_timers]
    exact ⟨rfl, input, timer⟩
  unfold receive
  simp only [unsent, fresh, Bool.or_self, Bool.false_eq_true, if_false]
  split
  · exact sends _
  · split
    · exact sends _
    · exact ⟨rfl, input, timer⟩

theorem inputKey_router (router : Nat) : inputKey router 0 0 / 16384 = router := by
  rw [inputKey]
  omega

/-- Settles O44: by the path that each event's premises leave. -/
theorem collectiveEvents : Obligations.CollectiveEvents := by
  unfold Obligations.CollectiveEvents
  refine fun s id r t round tree => ⟨fun core c sound contrib unsent fresh => ?input, fun node at_ sound timer unsent late root home going => ?timeout,
    fun core c code xs o result contrib op => ?complete⟩
  case input =>
    let m : RedMsg := .vals c.kind (if c.bar then [] else c.vals)
    let r1 := receive s t r (inputKey (routerOfCore s core) 0 0) m
    have step_ : exec (.routerInput id (.core core)) s = .next (s.setRounds (amPut s.rounds id r1)) := by
      show Host.Outcome.next _ = _
      simp only [round, tree, sound, Bool.false_eq_true, if_false, routed, contrib]
      rfl
    obtain ⟨contribs, input, timer⟩ := receive_first (s := s) (t := t) m (by rw [inputKey_router]; exact unsent) fresh
    rw [inputKey_router] at timer
    exact ⟨_, r1, step_, amGet_amPut_same .., contribs, input, timer⟩
  case timeout =>
    have step_ : exec (.roundTimeout id node) s = .next (s.setRounds (amPut s.rounds id (sendOn t r node .timeout))) := by
      show Host.Outcome.next _ = _
      simp only [round, tree, timer, sound, unsent, Nat.not_lt.2 late, decide_false, Bool.or_self, Bool.false_eq_true, if_false]
    exact ⟨_, _, step_, amGet_amPut_same .., sendOn_timeout root home going⟩
  case complete =>
    show Host.Outcome.next _ = _
    simp only [round, result, contrib, op, tree, Option.map_some, Option.getD_some]

end Sys2Proof.Machine
end

section
/-! SUPPORT. What accesses at a home and completions leave of dies, cores and teams (R230 to R250, R438, R441). -/

namespace Sys2Proof.Machine

/-- What no access, completion or settlement changes: the dies but for their slices and event counters, which cores run, and each
team's phase and merge work. -/
structure Still where
  dies : Nat → Die
  runs : Nat → Bool
  teams : Nat → Option (TeamPhase × Option MergeWork)

def State.still (s : State) : Still where
  dies d := { s.die d with slices := [], dev := [], dsel := [], dnow := (0, []) }
  runs n := (s.core n).running
  teams i := (s.team? i).map fun m => (m.phase, m.work)

section
variable (s : State)

@[simp] theorem State.setMem_still (m : Mem) : (s.setMem m).still = s.still := rfl
@[simp] theorem State.setL2_still (m : AMap L2Line) : (s.setL2 m).still = s.still := rfl
@[simp] theorem State.setMsc_still (m : AMap MscLine) : (s.setMsc m).still = s.still := rfl
@[simp] theorem State.setFoot_still (m : AMap (List Nat)) : (s.setFoot m).still = s.still := rfl
@[simp] theorem State.setTlb_still (m : AMap W64) : (s.setTlb m).still = s.still := rfl
@[simp] theorem State.setMons_still (m : AMap Mon) : (s.setMons m).still = s.still := rfl
@[simp] theorem State.setErrs_still (e : Errs) : (s.setErrs e).still = s.still := rfl
@[simp] theorem State.setSys_still (x : Sys) : (s.setSys x).still = s.still := rfl
@[simp] theorem State.setQueues_still (m : AMap Queue) : (s.setQueues m).still = s.still := rfl
@[simp] theorem State.setFree_still (n : Nat) : (s.setFree n).still = s.still := rfl
@[simp] theorem State.setFresh_still (n : Nat) : (s.setFresh n).still = s.still := rfl
@[simp] theorem State.setLocks_still (m : AMap Nat) : (s.setLocks m).still = s.still := rfl
@[simp] theorem State.setRoots_still (m : AMap W64) : (s.setRoots m).still = s.still := rfl
@[simp] theorem State.setCtxs_still (m : AMap Ctx) : (s.setCtxs m).still = s.still := rfl
@[simp] theorem State.setGrids_still (m : AMap Grid) : (s.setGrids m).still = s.still := rfl
@[simp] theorem State.setFrames_still (m : AMap Frame) : (s.setFrames m).still = s.still := rfl
@[simp] theorem State.setOps_still (m : AMap Op) : (s.setOps m).still = s.still := rfl
@[simp] theorem State.setPend_still (m : AMap Access) : (s.setPend m).still = s.still := rfl
@[simp] theorem State.setMsgs_still (m : AMap StakeMsg) : (s.setMsgs m).still = s.still := rfl
@[simp] theorem State.setInvs_still (m : AMap Invocation) : (s.setInvs m).still = s.still := rfl
@[simp] theorem State.setCairns_still (m : AMap Cairn) : (s.setCairns m).still = s.still := rfl
@[simp] theorem State.setRounds_still (m : AMap CollRound) : (s.setRounds m).still = s.still := rfl
@[simp] theorem State.takeFree_still : s.takeFree.2.still = s.still := rfl

theorem State.modDie_still {f : Die → Die} (k : Nat) (kept : ∀ x : Die, ({ f x with slices := [], dev := [], dsel := [], dnow := (0, []) } : Die) =
    { x with slices := [], dev := [], dsel := [], dnow := (0, []) }) : (s.modDie k f).still = s.still := by
  refine congrArg (fun x => Still.mk x s.still.runs s.still.teams) (funext fun d => ?_)
  rw [State.die_modDie]
  split
  · exact kept _
  · rfl

theorem State.modCore_still {f : Core → Core} (k : Nat) (kept : ∀ x, (f x).running = x.running) : (s.modCore k f).still = s.still := by
  refine congrArg (fun x => Still.mk s.still.dies x s.still.teams) (funext fun n => ?_)
  rw [State.core_modCore]
  split
  · exact kept _
  · rfl

theorem State.modTeam_still {f : Team → Team} (k : Nat) (kept : ∀ x, ((f x).phase, (f x).work) = (x.phase, x.work)) :
    (s.modTeam k f).still = s.still := by
  refine congrArg (fun x => Still.mk s.still.dies s.still.runs x) (funext fun n => ?_)
  rw [State.team?_modTeam]
  split
  · rw [Option.map_map]
    exact congrArg (Option.map · (s.team? n)) (funext kept)
  · rfl

@[simp] theorem State.modGroup_still (g : GRef) (f : Group → Group) : (s.modGroup g f).still = s.still := State.modTeam_still s g.team fun _ => rfl
@[simp] theorem State.modLane_still (g : GRef) (l : Nat) (f : Thread → Thread) : (s.modLane g l f).still = s.still := State.modGroup_still ..
@[simp] theorem State.modLanes_still (g : GRef) (ls : List Nat) (f : Nat → Thread → Thread) : (s.modLanes g ls f).still = s.still :=
  State.modGroup_still ..

@[simp] theorem State.modSlice_still (k n : Nat) (f : Slice → Slice) : (s.modSlice k n f).still = s.still :=
  State.modDie_still s k fun _ => rfl

@[simp] theorem State.countDie_still (k code n : Nat) : (s.countDie k code n).still = s.still := by
  unfold State.countDie
  split
  · rfl
  · exact State.modDie_still s k fun _ => rfl

@[simp] theorem logEvent_still (log chan kind asid cause addr : Nat) : (logEvent s log chan kind asid cause addr).still = s.still := rfl
@[simp] theorem logConsumed_still (key asid : Nat) : (logConsumed s key asid).still = s.still := rfl

@[simp] theorem report_still (e : ErrAt) : (report s e).still = s.still := by
  unfold report
  split <;> rfl

@[simp] theorem reportLeaving_still (secs : List Nat) : (reportLeaving s secs).still = s.still :=
  foldl_keeps (State.still) _ (fun st k => report_still st (.sector k)) _ s

@[simp] theorem raiseHorizon_still (key st : Nat) : (raiseHorizon s key st).still = s.still := State.modSlice_still ..

@[simp] theorem recordFootprint_still (line : Nat) (touched : List Nat) : (recordFootprint s line touched).still = s.still := by
  unfold recordFootprint
  dsimp only
  split
  · rfl
  · split <;> rfl

@[simp] theorem dropMsc_still (line : Nat) : (dropMsc s line).still = s.still := by
  unfold dropMsc
  split <;> simp

@[simp] theorem allocMsc_still (line : Nat) : (allocMsc s line).still = s.still := by
  unfold allocMsc
  dsimp only
  split
  · rfl
  · split <;> simp

@[simp] theorem touchMsc_still (key cls : Nat) : (touchMsc s key cls).still = s.still := by
  unfold touchMsc
  split <;> simp

@[simp] theorem dirtyMsc_still (sec : Nat) (dram : List Byte) : (dirtyMsc s sec dram).still = s.still := rfl

@[simp] theorem writebackL2_still (sec : Nat) : (writebackL2 s sec).still = s.still := by
  unfold writebackL2
  split
  · split <;> simp
  · rfl

@[simp] theorem writebackMsc_still (sec : Nat) : (writebackMsc s sec).still = s.still := by
  unfold writebackMsc
  split <;> simp

@[simp] theorem invalidL2_still (sec : Nat) : (invalidL2 s sec).still = s.still := by
  unfold invalidL2
  split
  · split <;> simp
  · rfl

@[simp] theorem invalidMsc_still (sec : Nat) : (invalidMsc s sec).still = s.still := rfl

@[simp] theorem dropL2_still (line : Nat) : (dropL2 s line).still = s.still := by
  unfold dropL2
  split
  · exact foldl_keeps (State.still) _ (fun st k => by simp) _ s
  · rfl

@[simp] theorem makeRoom_still (line : Nat) : (makeRoom s line).still = s.still := by
  unfold makeRoom
  split <;> simp

@[simp] theorem putL2_still (sec cls : Nat) (x : L2Sec) : (putL2 s sec cls x).still = s.still := rfl

@[simp] theorem touchRead_still (key e cls : Nat) : (touchRead s key e cls).still = s.still := by
  unfold touchRead
  dsimp only
  split
  · rfl
  · split
    · simp
    · split
      · simp
      · split <;> simp

@[simp] theorem noteWrite_still (sec : Nat) : (noteWrite s sec).still = s.still := rfl

@[simp] theorem touchWrite_still (key e cls n : Nat) : (touchWrite s key e cls n).still = s.still := by
  unfold touchWrite
  dsimp only
  split
  · rfl
  · split
    · rfl
    · split
      · simp
      · split
        · simp
        · split
          · simp
          · split <;> simp

@[simp] theorem writeAt_still (key e cls : Nat) (bs : List Byte) : (writeAt s key e cls bs).still = s.still := by
  simp [writeAt, writeCover]

@[simp] theorem writeCover_still (key e cls n : Nat) (bs : List Byte) : (writeCover s key e cls n bs).still = s.still := by
  simp [writeCover]

@[simp] theorem storeAt_still (key e cls : Nat) (bs : List Byte) : (storeAt s key e cls bs).still = s.still := by
  unfold storeAt
  split
  · simp
  · split <;> simp

@[simp] theorem lastUse_still (key : Nat) : (lastUse s key).still = s.still := by
  unfold lastUse
  dsimp only
  split
  · rfl
  · split <;> simp

@[simp] theorem writePlain_still (addr : Nat) (bs : List Byte) : (writePlain s addr bs).still = s.still := by
  unfold writePlain
  split
  · rfl
  · exact foldl_keeps (fun x : State × List Byte => x.1.still) _ (fun x p => storeAt_still ..) _ (s, bs)

@[simp] theorem complete_still (k : Nat) (tag : W32) (status detail : Nat) (value : W64) : (complete s k tag status detail value).still = s.still := by
  unfold complete
  dsimp only
  split <;> simp

end

theorem dieUp_still {s t : State} (same : t.still = s.still) (d : Nat) : t.dieUp d = s.dieUp d :=
  congrArg (fun x : Still => (x.dies d).st == DieSt.up) same

/-! Records that commands name. -/

/-- A record reads the same while memory, its errors and the dies stand. -/
theorem plainRecord_congr {s t : State} (mem : t.mem = s.mem) (errs : t.errs.sectors = s.errs.sectors) (dies : t.still = s.still) (addr n : Nat) :
    plainRecord t addr n = plainRecord s addr n := by
  have sound : inError t = inError s := funext fun k => congrArg (fun l : List Nat => l.contains (sectorOf k)) errs
  simp only [plainRecord, mem, sound, dieUp_still dies]

/-- A read of a record touches the caches and logs its errors. -/
theorem plainRead_beside (s : State) (addr n : Nat) : Beside s (plainRead s addr n).2 := by
  unfold plainRead
  dsimp only
  split
  · exact Beside.refl s
  · have touched := beside_foldl _ (fun st k => touchRead_beside st k 0 0) ((pieces addr n).map fun p => plainAddr p.1) s
    split
    · exact touched.trans (logConsumed_beside ..)
    · exact touched

theorem plainRead_still (s : State) (addr n : Nat) : (plainRead s addr n).2.still = s.still := by
  unfold plainRead
  dsimp only
  split
  · rfl
  · have touched := foldl_keeps State.still _ (fun st k => touchRead_still st k 0 0) ((pieces addr n).map fun p => plainAddr p.1) s
    split
    · exact touched
    · exact touched

theorem plainRead_record (s : State) (addr n : Nat) : (plainRead s addr n).1 = plainRecord s addr n := by
  unfold plainRead
  dsimp only
  split
  next away => rw [plainRecord, if_pos away]
  · rfl

/-- The commands read are those that stand in the ring, and the read changes no more than caches and logs. -/
theorem readCmds_reads (as : List Nat) (s : State) :
    (readCmds as s).1 = as.map (fun a => decodeCmd ((plainRecord s a 64).getD (List.replicate 64 0#8))) ∧
    Beside s (readCmds as s).2 ∧ (readCmds as s).2.still = s.still := by
  induction as generalizing s with
  | nil => exact ⟨rfl, Beside.refl s, rfl⟩
  | cons a as ih =>
    have one := plainRead_beside s a 64
    have dies := plainRead_still s a 64
    obtain ⟨cmds, beside, bodies⟩ := ih (plainRead s a 64).2
    refine ⟨?_, one.trans beside, bodies.trans dies⟩
    rw [readCmds, plainRead_record, cmds, List.map_cons]
    simp only [plainRecord_congr one.2.1 one.2.2.2 dies]

/-! Commands that are done. -/

section
variable {s : State} {k : Nat} {q : Queue} {c : Cmd}

theorem settleBad_empty (n : Nat) {s : State} {k : Nat} (none_ : ∀ q, amGet s.queues k = some q → q.cmds = []) : settleBad n s k = s := by
  cases n with
  | zero => rfl
  | succ n =>
    rw [settleBad]
    split
    next q there => rw [none_ q there]
    · rfl

/-- The last command of a queue leaves it empty. -/
theorem popCmd_alone (there : amGet s.queues k = some q) (last : q.cmds.length = 1) :
    popCmd s k = s.setQueues (amMod s.queues k fun q => { q with cmds := q.cmds.drop 1 }) := by
  refine settleBad_empty _ fun q1 now => ?_
  have found := (amGet_amMod s.queues k k fun q => { q with cmds := q.cmds.drop 1 }).trans (if_pos rfl)
  rw [there] at found
  obtain rfl := Option.some.inj (now.symm.trans found)
  exact List.drop_eq_nil_of_le last.le

theorem popCmd_queue (there : amGet s.queues k = some q) (last : q.cmds = [c]) :
    amGet (popCmd s k).queues k = some { q with cmds := [] } := by
  rw [popCmd_alone there (by rw [last]; rfl)]
  exact ((amGet_amMod s.queues k k fun q => { q with cmds := q.cmds.drop 1 }).trans (if_pos rfl)).trans (by rw [there, Option.map_some, last]; rfl)

theorem finishCmd_queue (there : amGet s.queues k = some q) (last : q.cmds = [c]) (x : Cmd) (status detail : Nat) (value : W64) :
    amGet (finishCmd s k x status detail value).queues k = some { q with cmds := [], done := q.done ++ [(x.tag, status, detail, value)] } := by
  have now : amGet (complete s k x.tag status detail value).queues k = some { q with done := q.done ++ [(x.tag, status, detail, value)] } := by
    rw [complete_queue, there, Option.map_some]
  exact popCmd_queue now last

/-- A command that is done leaves what is neither memory, a cache, a counter nor a queue. -/
theorem finishCmd_part {β : Type} (there : amGet s.queues k = some q) (last : q.cmds = [c]) (x : Cmd) (status detail : Nat) (value : W64)
    (part : State → β) (outer : ∀ s, part s.outer = part s) (queues : ∀ s m, part (s.setQueues m) = part s) :
    part (finishCmd s k x status detail value) = part s := by
  have now : amGet (complete s k x.tag status detail value).queues k = some { q with done := q.done ++ [(x.tag, status, detail, value)] } := by
    rw [complete_queue, there, Option.map_some]
  rw [finishCmd, popCmd_alone now (by rw [last]; rfl), queues, outer_part part outer (complete_outer ..), queues]

/-- A queue without rings has its answers nowhere in memory. -/
theorem finishCmd_ringless (there : amGet s.queues k = some q) (last : q.cmds = [c]) (ringless : q.ring = none) (x : Cmd) (status detail : Nat)
    (value : W64) : ∃ m, finishCmd s k x status detail value = s.setQueues m := by
  have now : amGet (complete s k x.tag status detail value).queues k = some { q with done := q.done ++ [(x.tag, status, detail, value)] } := by
    rw [complete_queue, there, Option.map_some]
  have nowhere : nextEntry s k 0 = none := by rw [nextEntry, there, Option.bind_some, ringless, Option.map_none]
  have plain : complete s k x.tag status detail value =
      s.setQueues (amMod s.queues k fun q => { q with done := q.done ++ [(x.tag, status, detail, value)] }) := by
    rw [complete, nowhere]
  rw [finishCmd, popCmd_alone now (by rw [last]; rfl), plain]
  exact ⟨_, rfl⟩

end

end Sys2Proof.Machine
end

section
/-! SUPPORT. What the checks of a launch record leave (R148, R182, R296, R360, R442). -/

namespace Sys2Proof.Machine

/-- `t` has the memory of `s` and all else that is no cache, counter, report, monitor or frame. -/
def Glances (s t : State) : Prop := t.mem = s.mem ∧ (t.setFrames []).outer = (s.setFrames []).outer

theorem Glances.refl (s : State) : Glances s s := ⟨rfl, rfl⟩
theorem Glances.trans {s t u : State} (st : Glances s t) (tu : Glances t u) : Glances s u := ⟨tu.1.trans st.1, tu.2.trans st.2⟩
theorem Beside.glances {s t : State} (st : Beside s t) : Glances s t := ⟨st.2.1, congrArg (State.setFrames · []) st.2.2.1⟩

theorem Glances.part {β : Type} {s t : State} (same : Glances s t) (part : State → β) (kept : ∀ s, part (s.setFrames []).outer = part s) :
    part t = part s :=
  (kept t).symm.trans ((congrArg part same.2).trans (kept s))

/-- The state that a part of a launch's checks leaves. -/
def CpRes.left {α : Type} (r : CpRes α) : State :=
  match r with
  | .error x => x.2
  | .ok x => x.2

/-- A part of the checks that starts in one state and glances from there. -/
def CpRes.From {α : Type} (s : State) (r : CpRes α) : Prop := Glances s r.left

theorem CpRes.From.bind {α β : Type} {s : State} {r : CpRes α} {f : α × State → CpRes β} (first : r.From s) (then_ : ∀ x, (f x).From x.2) :
    CpRes.From s (Except.bind r f) := by
  cases r with
  | error x => exact first
  | ok x => exact Glances.trans first (then_ x)

theorem CpRes.From.map {α β : Type} {s : State} {r : CpRes α} {f : α × State → β × State} (first : r.From s) (same : ∀ x, (f x).2 = x.2) :
    CpRes.From s (Except.map f r) := by
  cases r with
  | error x => exact first
  | ok x =>
    show Glances s (f x).2
    rw [same]
    exact first

theorem readVa_left (s : State) (core asid : Nat) (priv : Bool) (va n : Nat) : Beside s (leftState (readVa s core asid priv va n)) := by
  have looked := xlateAll_beside core asid priv .read (pieces va n) s
  unfold readVa readBytes
  split
  next found => rw [found] at looked; exact looked
  next ks s1 found =>
    rw [found] at looked
    split
    · exact Beside.trans looked (logConsumed_beside ..)
    · exact Beside.trans looked (beside_foldl _ (fun st k => touchRead_beside ..) ks s1)

theorem cpRead_from (s : State) (asid va n check : Nat) : (cpRead s asid va n check).From s := by
  have read := (readVa_left s cmdCore asid true va n).glances
  unfold cpRead
  split
  next found => rw [found] at read; exact read
  next found => rw [found] at read; exact read

theorem cpGive_from {α : Type} (check : Nat) (x : Option α) (s : State) : (cpGive check x s).From s := by
  unfold cpGive
  split <;> exact Glances.refl s

theorem plainOk_from (s : State) (bs : List Byte) (tiles : List Tile) : (plainOk s bs tiles).From s := by
  unfold plainOk
  split <;> exact Glances.refl s

theorem readTiles_left (s : State) (core asid : Nat) (priv : Bool) (va : Nat) : Beside s (leftState (readTiles s core asid priv va)) := by
  unfold readTiles
  split
  · exact Beside.refl s
  · have head := readVa_left s core asid priv va 8
    split
    next found => rw [found] at head; exact head
    next h s1 found =>
      rw [found] at head
      dsimp only
      split
      · exact head
      · have rest := readVa_left s1 core asid priv (va + 8) (32 * num h 0 1)
        split
        next found => rw [found] at rest; exact Beside.trans head rest
        next found => rw [found] at rest; exact Beside.trans head rest

theorem launchTiles_from (s : State) (asid : Nat) (bs : List Byte) : (launchTiles s asid bs).From s := by
  have read := (readTiles_left s cmdCore asid true (num bs 0xC0 8)).glances
  unfold launchTiles
  split
  next t s1 found =>
    rw [found] at read
    exact Glances.trans read (cpGive_from 10 t s1)
  next found => rw [found] at read; exact read

theorem readRaw_glances {s u : State} {core asid : Nat} {priv : Bool} {va n : Nat} {bs : List Byte}
    (read : readRaw s core asid priv va n = .ok (bs, u)) : Glances s u :=
  (readRaw_beside read).glances

theorem frameAt_glances (s : State) (asid : BitVec 12) (va : Nat) : Glances s (frameAt s asid va).2 := by
  unfold frameAt
  split
  · exact Glances.refl s
  · split
    · exact Glances.refl s
    · split
      next read =>
        have looked := readRaw_glances read
        split
        · exact looked
        · exact looked
      · exact Glances.refl s

theorem joinOk_from (s : State) (asid : BitVec 12) (bs : List Byte) : (joinOk s asid bs).From s := by
  unfold joinOk
  dsimp only
  split
  · exact Glances.refl s
  · split
    · exact Glances.refl s
    · split <;> exact frameAt_glances ..

theorem readHandles_from (s : State) (asid va n : Nat) : (readHandles s asid va n).From s := by
  unfold readHandles
  split
  · exact Glances.refl s
  · split
    · exact Glances.refl s
    · split
      · exact Glances.refl s
      · exact (cpRead_from ..).bind fun r => cpGive_from ..

theorem readTemplates_from (s : State) (asid va : Nat) : (readTemplates s asid va).From s := by
  unfold readTemplates
  split
  · exact Glances.refl s
  · split
    · exact Glances.refl s
    · refine (cpRead_from ..).bind fun h => ?_
      dsimp only
      split
      · exact Glances.refl h.2
      · exact (cpRead_from ..).bind fun r => cpGive_from ..

theorem treeDevs_from (s : State) (asid va : Nat) : (treeDevs s asid va).From s := by
  unfold treeDevs
  split
  · exact Glances.refl s
  · exact (cpRead_from ..).map fun _ => rfl

theorem treeEntries_from (asid n : Nat) (bs : List Byte) (s : State) : (treeEntries asid n bs s).From s := by
  induction n generalizing bs s with
  | zero => exact Glances.refl s
  | succ n ih => exact (treeDevs_from ..).bind fun d => (cpGive_from ..).bind fun t => (ih ..).map fun _ => rfl

theorem readTrees_from (s : State) (asid va : Nat) : (readTrees s asid va).From s := by
  unfold readTrees
  split
  · exact Glances.refl s
  · split
    · exact Glances.refl s
    · refine (cpRead_from ..).bind fun h => ?_
      split
      · exact Glances.refl h.2
      · exact (cpRead_from ..).bind fun r => treeEntries_from ..

theorem launchChecks_from (s : State) (asid : BitVec 12) (bs : List Byte) : (launchChecks s asid bs).From s := by
  unfold launchChecks plainOk
  split
  · exact Glances.refl s
  refine (launchTiles_from ..).bind fun tiles => ?_
  refine (plainOk_from ..).bind fun p => ?_
  refine (joinOk_from ..).bind fun j => ?_
  refine (readHandles_from ..).bind fun hs => ?_
  refine (readTemplates_from ..).bind fun ts => ?_
  split
  · exact Glances.refl ts.2
  · exact (readTrees_from ..).map fun _ => rfl

/-- The checks of a launch record change no more than caches, counters and frames that memory has given up. -/
theorem readLaunch_from (s : State) (asid : BitVec 12) (va : Nat) : (readLaunch s asid va).From s := by
  unfold readLaunch
  split
  · exact Glances.refl s
  · exact (cpRead_from ..).bind fun r => (launchChecks_from ..).map fun _ => rfl

end Sys2Proof.Machine
end

section
/-! PROOFS. Doorbells, contexts and launches (R148, R438 to R441). -/

namespace Sys2Proof.Machine

theorem leastFrom_sound {p : Nat → Bool} {n k r : Nat} (found : leastFrom p n k = some r) : p r = true := by
  induction n generalizing k with
  | zero => cases found
  | succ n ih =>
    rw [leastFrom] at found
    split at found
    next good => exact Option.some.inj found ▸ good
    · exact ih found

theorem leastFrom_complete {p : Nat → Bool} {n k : Nat} (missed : leastFrom p n k = none) {j : Nat} (low : k ≤ j) (high : j < k + n) : p j = false := by
  induction n generalizing k with
  | zero => omega
  | succ n ih =>
    rw [leastFrom] at missed
    split at missed
    · cases missed
    next bad =>
      by_cases here : j = k
      · exact here ▸ Bool.eq_false_iff.2 bad
      · exact ih missed (by omega) (by omega)

theorem amGet_none_of_key {β : Type} {m : AMap β} {k : Nat} (absent : k ∉ amKeys m) : amGet m k = none := by
  induction m with
  | nil => rfl
  | cons e m ih =>
    obtain ⟨j, y⟩ := e
    simp only [amKeys, List.map_cons, List.mem_cons, not_or] at absent
    rw [amGet, if_neg absent.1]
    exact ih absent.2

/-- More numbers than keys: one of them is free. -/
theorem amGet_leastFree {β : Type} (m : AMap β) : amGet m ((leastFree (amKeys m) (m.length + 1)).getD 0) = none := by
  cases found : leastFree (amKeys m) (m.length + 1) with
  | some n => exact amGet_none_of_key (by simpa using leastFrom_sound found)
  | none =>
    have all : List.range (m.length + 1) ⊆ amKeys m := fun j inside => by
      simpa using leastFrom_complete found (Nat.zero_le j) (by simpa using inside)
    have few := (List.nodup_range.subperm all).length_le
    simp [amKeys] at few

section
variable {s : State} {k : Nat} {q : Queue} {c : Cmd}

theorem queueCtx_alive {n : Nat} {x : Ctx} (bound : queueCtx s k = some (n, x)) : amGet s.ctxs n = some x := by
  obtain ⟨m, -, there⟩ := Option.bind_eq_some_iff.1 bound
  split at there
  next c found =>
    split at there
    · cases there; exact found
    · cases there
  · cases there

theorem bindQueue_queue (there : amGet s.queues k = some q) (ctx : Option Nat) : amGet (bindQueue s k ctx).queues k = some { q with ctx := ctx } :=
  ((amGet_amMod s.queues k k fun q => { q with ctx := ctx }).trans (if_pos rfl)).trans (by rw [there]; rfl)

/-- A queue's head that is no bad command stays. -/
theorem settleBad_good (n : Nat) (there : amGet s.queues k = some q) {rest : List Cmd} (head : q.cmds = c :: rest) (good : cmdBad s k c = none) :
    settleBad n s k = s := by
  cases n with
  | zero => rfl
  | succ n =>
    rw [settleBad, there]
    simp only [head, good, ite_self]

/-- Whether a command is one depends on the record that it names, its queue's context and the contexts. -/
theorem cmdBad_congr {t : State} (record : ∀ a, plainRecord t a 64 = plainRecord s a 64) (ctxs : t.ctxs = s.ctxs)
    (ctx : (amGet t.queues k).bind Queue.ctx = (amGet s.queues k).bind Queue.ctx) : cmdBad t k c = cmdBad s k c := by
  simp only [cmdBad, record, ctxs, queueCtx, ctx]

theorem doorbellAt_reads (there : amGet s.queues k = some q) (last : q.cmds = [c]) (stage : 3 ≤ s.sys.stage) (index : Nat) (low : k < 128)
    (good : cmdBad s k c = none) (ready : ∀ a ∈ ({ q with rung := index % 2 ^ 32 } : Queue).unread, plainWaits s a 64 = false) :
    ∃ u, exec (.doorbell k index) s = .next u ∧ u.mem = s.mem ∧ u.teams = s.teams ∧ amGet u.queues k = some { q with
      rung := index % 2 ^ 32
      read := index % 2 ^ 32
      cmds := c :: ({ q with rung := index % 2 ^ 32 } : Queue).unread.map fun a => decodeCmd ((plainRecord s a 64).getD (List.replicate 64 0#8)) } := by
  let q1 : Queue := { q with rung := index % 2 ^ 32 }
  let s1 := s.setQueues (amPut s.queues k q1)
  have rung : amGet s1.queues k = some q1 := amGet_amPut_same ..
  obtain ⟨cmds, beside, bodies⟩ := readCmds_reads q1.unread s1
  let t := (readCmds q1.unread s1).2
  let q2 : Queue := { q1 with read := index % 2 ^ 32, cmds := q.cmds ++ (readCmds q1.unread s1).1 }
  let u := t.setQueues (amPut t.queues k q2)
  have now : amGet u.queues k = some q2 := amGet_amPut_same ..
  have record (a : Nat) : plainRecord u a 64 = plainRecord s a 64 := plainRecord_congr beside.2.1 beside.2.2.2 bodies a 64
  have still : cmdBad u k c = none := by
    rw [← good]
    refine cmdBad_congr record (outer_part (s := s1) (t := t) State.ctxs (fun _ => rfl) beside.2.2.1) ?_
    rw [now, there]
    rfl
  refine ⟨u, ?_, beside.2.1, beside.1, ?_⟩
  · show Host.Outcome.next _ = _
    rw [doorbellAt, if_neg (by omega), amGetD, there, Option.getD_some]
    show Host.Outcome.next (readRing s1 k) = _
    have goes : (s1.sys.stage < 3 || q1.unread.any fun a => plainWaits s1 a 64) = false := by
      rw [Bool.or_eq_false_iff, List.any_eq_false]
      exact ⟨decide_eq_false (Nat.not_lt.2 stage), fun a mem => Bool.eq_false_iff.1 (ready a mem)⟩
    have run : readRing s1 k = settleBad (queueLen u k) u k := by
      rw [readRing, rung]
      dsimp only
      rw [goes]
      rfl
    rw [run, settleBad_good _ now (congrArg (· ++ _) last) still]
  · rw [now]
    refine congrArg some ?_
    show ({ q1 with read := index % 2 ^ 32, cmds := q.cmds ++ (readCmds q1.unread s1).1 } : Queue) = _
    rw [cmds, last]
    rfl

end

theorem grantAll_queues (s : State) (a r : Nat) : (grantAll s a r).queues = s.queues := by
  unfold grantAll
  exact State.setSys_queues ..

theorem endContext_idle {s : State} {n : Nat} (teams : ∀ t ∈ s.teams, t.2.ctx ≠ n) (invs : ∀ i ∈ s.invs, i.2.ctx ≠ n) (frames : ∀ f ∈ s.frames, f.2.ctx ≠ n)
    (cause : Nat) : endContext s n cause = s.setDies (s.dies.map fun d => (d.1, { d.2 with pool := d.2.pool.filter fun k => k.ctx ≠ n })) := by
  have noTeam : (s.teams.filter fun t => t.2.ctx = n) = [] := List.filter_eq_nil_iff.2 fun t mem => by simpa using teams t mem
  have noInv : (s.invs.filter fun i => i.2.ctx = n) = [] := List.filter_eq_nil_iff.2 fun i mem => by simpa using invs i mem
  have noFrame : (s.frames.filter fun f => f.2.ctx = n && f.2.owner.isNone) = [] :=
    List.filter_eq_nil_iff.2 fun f mem => by simp [frames f mem]
  simp only [endContext, State.setDies_teams, State.setDies_invs, State.setDies_frames, noTeam, noInv, noFrame, List.foldl_nil]

/-- Settles O45: the ring's commands are read in order past a head that is one; the checks of a launch leave the queues, the launches and
memory as they were; and the last command of a queue is followed by none. -/
theorem contextCommands : Obligations.ContextCommands := by
  unfold Obligations.ContextCommands
  intro s k q c there last stage answered
  have answers {t : State} {q1 : Queue} {status detail : Nat} {value : W64} (now : amGet t.queues k = some q1) (cmds : q1.cmds = [c])
      (done : q1.done = q.done) : answered (finishCmd t k c status detail value) status detail value :=
    ⟨_, finishCmd_queue now cmds c status detail value, rfl, congrArg (· ++ _) done⟩
  refine ⟨fun index low good => ?_, fun n x i u0 head bound refused => ?refused, fun n x bs i s1 head bound read goes none_ => ?launch,
    fun a bs head asid record => ?create, fun head => ?attach, fun n x head bound teams invs frames => ?destroy⟩
  · intro q1 ready
    exact doorbellAt_reads there last stage index low good ready
  case refused =>
    have glanced : Glances s u0 := by
      have from_ := readLaunch_from s x.asid c.arg0.toNat
      rw [refused] at from_
      exact from_
    have now : amGet u0.queues k = some q := by rw [glanced.part State.queues fun _ => rfl, there]
    refine ⟨finishCmd u0 k c 1 i 0, ?_, answers now last rfl, ?_, fun ringless => ?_⟩
    · show Host.Outcome.next _ = _
      rw [head, bound]
      simp only [refused]
    · rw [finishCmd_part now last c 1 i 0 State.grids (fun _ => rfl) (fun _ _ => rfl), glanced.part State.grids fun _ => rfl]
    · obtain ⟨m, same⟩ := finishCmd_ringless now last ringless c 1 i 0
      rw [same]
      exact glanced.1
  case launch =>
    have glanced : Glances s s1 := by
      have from_ := readLaunch_from s x.asid c.arg0.toNat
      rw [read] at from_
      exact from_
    have bare : bindLaunch s1.newId.2 s1.newId.1 n x.asid bs i.tiles = some (none, s1.newId.2) := by
      rw [bindLaunch, if_pos none_]
    obtain ⟨t, g, accepted, grid, queues, rest⟩ : ∃ t g, acceptLaunch s1 k c n x bs i = some t ∧ amGet t.grids s1.fresh = some g ∧
        t.queues = s1.queues ∧ g.ctx = n ∧ g.queue = k ∧ g.tag = c.tag ∧ g.teamCount = num bs 8 4 ∧ g.roles = i.roles ∧
        g.dies = maskDies (num bs 4 1) ∧ g.argp = BitVec.ofNat 64 (num bs 0x18 8) ∧ g.nextTeam = 0 ∧ g.done = false ∧ g.ljoin = none := by
      rw [acceptLaunch, bare]
      exact ⟨_, _, rfl, amGet_amPut_same .., rfl, rfl, rfl, rfl, rfl, rfl, rfl, rfl, rfl, rfl, rfl⟩
    have now : amGet t.queues k = some q := by rw [queues, glanced.part State.queues fun _ => rfl, there]
    obtain ⟨ctx, queue, tag, count, roles, dies, argp, next, done, join⟩ := rest
    refine ⟨popCmd t k, g, ?_, ?_, ctx, queue, tag, count, roles, dies, argp, next, done, join, _, popCmd_queue now last, rfl, rfl⟩
    · show Host.Outcome.next _ = _
      rw [head, bound]
      simp only [read, goes, Bool.false_eq_true, if_false, accepted, Option.map_some, Option.getD_some]
    · rw [popCmd_alone now (by rw [last]; rfl)]
      exact grid
  case create =>
    have looked := plainRead_beside s c.arg0.toNat 64
    have found : plainRead s c.arg0.toNat 64 = (some bs, (plainRead s c.arg0.toNat 64).2) := Prod.ext ((plainRead_record ..).trans record) rfl
    generalize (plainRead s c.arg0.toNat 64).2 = s0 at looked found
    have had : amGet s0.queues k = some q := (congrArg (amGet · k) (outer_part State.queues (fun _ => rfl) looked.2.2.1)).trans there
    let n := (leastFree (amKeys s.ctxs) (s.ctxs.length + 1)).getD 0
    let y := ctxOfRecord bs a
    let s1 := tlbiWhere (fun k => k == a) s0
    let s2 := (s1.setRoots (amPut s1.roots a y.ptbase)).setCtxs (amPut s1.ctxs n y)
    let t := bindQueue (grantAll s2 a 7) k (some n)
    have now : amGet t.queues k = some { q with ctx := some n } :=
      bindQueue_queue ((congrArg (amGet · k) (grantAll_queues s2 a 7)).trans had) (Option.some n)
    refine ⟨finishCmd t k c 0 0 (BitVec.ofNat 64 n), n, y, ?_, amGet_leastFree s.ctxs, ?_, rfl, rfl, rfl, rfl, ?_, answers now last rfl, ?_⟩
    · show Host.Outcome.next _ = _
      rw [head]
      simp only [asid, found]
      rfl
    · rw [finishCmd_part now last c 0 0 _ State.ctxs (fun _ => rfl) (fun _ _ => rfl)]
      exact amGet_amPut_same ..
    · rw [finishCmd_part now last c 0 0 _ State.roots (fun _ => rfl) (fun _ _ => rfl)]
      exact amGet_amPut_same ..
    · rw [finishCmd_queue now last]
      rfl
  case attach =>
    have now := bindQueue_queue (k := k) there (some c.arg0.toNat)
    refine ⟨finishCmd (bindQueue s k (some c.arg0.toNat)) k c 0 0 0, ?_, answers now last rfl, ?_⟩
    · show Host.Outcome.next _ = _
      rw [head]
    · rw [finishCmd_queue now last]
      rfl
  case destroy =>
    let s0 := s.setGrids (s.grids.map fun g =>
      if g.2.ctx = n ∧ !g.2.done then (g.1, { g.2 with status := if g.2.status = 0 then 4 else g.2.status, nextTeam := g.2.teamCount, tail := [] }) else g)
    let s1 := s0.setDies (s0.dies.map fun d => (d.1, { d.2 with pool := d.2.pool.filter fun k => k.ctx ≠ n }))
    let s2 := grantAll (s1.setCtxs (amMod s1.ctxs n fun y => { y with alive := false })) x.asid.toNat 0
    have ended : endContext s0 n 0x60 = s1 := endContext_idle (s := s0) teams invs frames 0x60
    have now : amGet (bindQueue s2 k none).queues k = some { q with ctx := none } := bindQueue_queue (s := s2) there none
    refine ⟨finishCmd (bindQueue s2 k none) k c 0 0 0, ?_, answers now last rfl, ?_, ?_⟩
    · show Host.Outcome.next _ = _
      rw [head, bound]
      show Host.Outcome.next (finishCmd (bindQueue (grantAll ((endContext s0 n 0x60).setCtxs _) _ 0) k none) k c 0 0 0) = _
      rw [ended]
    · rw [finishCmd_part now last c 0 0 0 State.ctxs (fun _ => rfl) (fun _ _ => rfl)]
      show (amGet (amMod s.ctxs n fun y => { y with alive := false }) n).map Ctx.alive = _
      rw [amGet_amMod, if_pos rfl, queueCtx_alive bound]
      rfl
    · rw [finishCmd_queue now last]
      rfl

end Sys2Proof.Machine
end

section
/-! PROOFS. Resets and the start (R426, R449 to R452). -/

namespace Sys2Proof.Machine

/-! Cores that stop and start. -/

/-- What every change makes true of a core, the last of its changes does. -/
theorem core_foldl_modCore {ok : Core → Prop} {f : State → Core → Core} (made : ∀ st x, ok (f st x)) (cs : List Nat) (s : State) {c : Nat}
    (put : c ∈ cs ∨ ok (s.core c)) : ok ((cs.foldl (fun st c => st.modCore c (f st)) s).core c) := by
  induction cs generalizing s with
  | nil => exact put.resolve_left List.not_mem_nil
  | cons n cs ih =>
    refine ih _ ?_
    by_cases here : c = n
    · refine .inr ?_
      rw [here, State.core_modCore, if_pos rfl]
      exact made ..
    · rcases put with among | good
      · exact .inl ((List.mem_cons.1 among).resolve_left here)
      · refine .inr ?_
        rwa [State.core_modCore, if_neg here]

theorem mem_coresOf {s : State} {die c : Nat} (at_ : c / 32 = die) (low : c % 32 < (s.die die).built.length) : c ∈ coresOf s die := by
  refine List.mem_map.2 ⟨c % 32, List.mem_range.2 low, ?_⟩
  omega

/-- A core reset without residents stops the cores of the die. -/
theorem resetCores_stops {s : State} {die c : Nat} (none_ : ∀ t ∈ s.teams, t.2.resident = false) (at_ : c / 32 = die)
    (low : c % 32 < (s.die die).built.length) :
    ((resetCores s die).core c).running = false ∧ ((resetCores s die).core c).l1 = [] ∧ ((resetCores s die).core c).icache = [] ∧
      (resetCores s die).mem = s.mem := by
  have empty : residents s die = [] := by
    rw [residents, List.filter_eq_nil_iff.2 fun t mem => by simp [none_ t mem], List.map_nil]
  rw [resetCores, empty, List.foldl_nil]
  obtain ⟨running, l1, icache⟩ := core_foldl_modCore (ok := fun x => x.running = false ∧ x.l1 = [] ∧ x.icache = [])
    (f := fun _ x => { x with running := false, l1 := [], icache := [] }) (fun _ _ => ⟨rfl, rfl, rfl⟩) (coresOf s die) s (.inl (mem_coresOf at_ low))
  exact ⟨running, l1, icache, foldl_keeps State.mem (fun st c => st.modCore c fun x => { x with running := false, l1 := [], icache := [] })
    (fun _ _ => rfl) (coresOf s die) s⟩

theorem restartCores_dies (s : State) (die : Nat) : (restartCores s die).dies = s.dies := by
  unfold restartCores
  exact foldl_keeps State.dies _ (fun _ _ => by rfl) _ s

theorem restartIf_dies (p : Prop) [Decidable p] (s : State) (die : Nat) : (if p then restartCores s die else s).dies = s.dies := by
  split
  · exact restartCores_dies ..
  · rfl

theorem restartCores_mem (s : State) (die : Nat) : (restartCores s die).mem = s.mem := by
  unfold restartCores
  exact foldl_keeps State.mem _ (fun _ _ => by rfl) _ s

theorem restartCores_sys (s : State) (die : Nat) : (restartCores s die).sys = s.sys := by
  unfold restartCores
  exact foldl_keeps State.sys _ (fun _ _ => by rfl) _ s

/-! Horizons. -/

theorem State.modSlice_slice (s : State) (die j k : Nat) (f : Slice → Slice) :
    ((s.modSlice die j f).die die).slice k = if k = j then f ((s.die die).slice k) else (s.die die).slice k := by
  rw [State.modSlice, State.die_modDie, if_pos rfl, Die.slice, amGetD, amGet_amPut]
  split
  next same => rw [same]; rfl
  · rfl

/-- A fold over slices without repetition changes each of them once. -/
theorem slice_foldl (f : Nat → Slice → Slice) (die : Nat) (ks : List Nat) (once : ks.Nodup) (s : State) (k : Nat) :
    ((ks.foldl (fun st j => st.modSlice die j (f st.datum48)) s).die die).slice k =
      if k ∈ ks then f s.datum48 ((s.die die).slice k) else (s.die die).slice k := by
  induction ks generalizing s with
  | nil => rfl
  | cons j ks ih =>
    obtain ⟨new, once⟩ := List.nodup_cons.1 once
    rw [List.foldl_cons, ih once, State.modSlice_slice]
    by_cases here : k = j
    · subst here
      rw [if_neg new, if_pos rfl, if_pos List.mem_cons_self]
    · simp only [here, if_false, List.mem_cons, false_or]
      rfl

theorem raiseHorizons_slice (s : State) (die : Nat) {k : Nat} (low : k < 16) :
    (((raiseHorizons s die).die die).slice k).h = stampNext s.datum48 ((s.die die).slice k).h ∧
    (((raiseHorizons s die).die die).slice k).u = stampNext s.datum48 ((s.die die).slice k).u := by
  have raised := slice_foldl (fun t x => { x with h := stampNext t x.h, u := stampNext t x.u }) die (List.range 16) List.nodup_range s k
  rw [if_pos (List.mem_range.2 low)] at raised
  exact ⟨congrArg Slice.h raised, congrArg Slice.u raised⟩

theorem raiseHorizons_still (s : State) (die : Nat) : (raiseHorizons s die).still = s.still :=
  foldl_keeps State.still _ (fun _ _ => State.modSlice_still ..) _ s

theorem raiseHorizons_mem (s : State) (die : Nat) : (raiseHorizons s die).mem = s.mem := by
  unfold raiseHorizons
  exact foldl_keeps State.mem _ (fun _ _ => by rfl) _ s

/-! The start. -/

theorem settleBad_outer (n : Nat) (s : State) (k : Nat) : ((settleBad n s k).setQueues []).outer = (s.setQueues []).outer := by
  induction n generalizing s with
  | zero => rfl
  | succ n ih =>
    rw [settleBad]
    split
    · split
      · split
        · refine (ih _).trans ?_
          exact congrArg (State.setQueues · []) (complete_outer ..)
        · rfl
      · rfl
    · rfl

theorem settleBad_still (n : Nat) (s : State) (k : Nat) : (settleBad n s k).still = s.still := by
  induction n generalizing s with
  | zero => rfl
  | succ n ih =>
    rw [settleBad]
    split
    · split
      · split
        · exact (ih _).trans (complete_still ..)
        · rfl
      · rfl
    · rfl

theorem readRing_outer (s : State) (k : Nat) : ((readRing s k).setQueues []).outer = (s.setQueues []).outer := by
  unfold readRing
  split
  · rfl
  next q there =>
    dsimp only
    split
    · rfl
    · obtain ⟨-, beside, -⟩ := readCmds_reads q.unread s
      refine (settleBad_outer ..).trans ?_
      exact congrArg (State.setQueues · []) beside.2.2.1

theorem readRing_still (s : State) (k : Nat) : (readRing s k).still = s.still := by
  unfold readRing
  split
  · rfl
  next q there =>
    dsimp only
    split
    · rfl
    · obtain ⟨-, -, bodies⟩ := readCmds_reads q.unread s
      exact (settleBad_still ..).trans (bodies)

theorem beginStageD_part {β : Type} (s : State) (part : State → β) (outer : ∀ s, part (s.setQueues []).outer = part s) :
    part (beginStageD s) = part (s.setSys { s.sys with stage := 3 }) := by
  have same := foldl_keeps (fun st : State => (st.setQueues []).outer) readRing readRing_outer (amKeys s.queues) (s.setSys { s.sys with stage := 3 })
  rw [← outer (beginStageD s), ← outer (s.setSys { s.sys with stage := 3 })]
  exact congrArg part same

theorem beginStageD_dieUp (s : State) (d : Nat) : (beginStageD s).dieUp d = s.dieUp d :=
  dieUp_still (foldl_keeps State.still readRing (fun _ _ => readRing_still ..) (amKeys s.queues) (s.setSys { s.sys with stage := 3 })) d

/-! Memory of the homes that a module reset leaves. -/

theorem memGet_filter_high (m : Mem) (low a : Nat) : memGet (m.filter fun c => low ≤ c.1) a = if low ≤ a then memGet m a else 0 := by
  rw [memGet, amGetD, amGet_filter m (fun k => decide (low ≤ k)) a]
  by_cases high : low ≤ a <;> simp [high, memGet, amGetD]

/-! Admission. -/

/-- A die after its turn of admission (R452). -/
def admittedState (s : State) (die : Nat) (ok : Bool) : State :=
  let s0 := if ok then s.modDie die fun d => { d with st := .up, lastCore := 31 } else s
  (if ok && !s.sys.tripped && coresStopped s0 die then restartCores s0 die else s0).setSys
    { s.sys with nextDie := die + 1, admitted := s.sys.admitted + if ok then 2 ^ die else 0 }

theorem admittedState_dies (s : State) (die : Nat) (ok : Bool) :
    (admittedState s die ok).dies = (if ok then s.modDie die fun d => { d with st := .up, lastCore := 31 } else s).dies := by
  exact restartIf_dies _ _ die

theorem execDieAdmission_turn {s : State} {die : Nat} (ok : Bool) (stage : s.sys.stage = 2) (sound : s.sys.fail = false) (turn : die = s.sys.nextDie)
    (low : die < 8) : execDieAdmission die ok s = .next (if die < 7 then admittedState s die ok
      else if (List.range 8).any (admittedState s die ok).dieUp then beginStageD (admittedState s die ok) else startFails (admittedState s die ok) 3) := by
  have goes : ¬(s.sys.stage ≠ 2 ∨ s.sys.fail = true ∨ die ≠ s.sys.nextDie ∨ 8 ≤ die) := by
    rintro (no | no | no | no)
    · exact no stage
    · rw [sound] at no; cases no
    · exact no turn
    · omega
  exact congrArg Host.Outcome.next (if_neg goes)

/-- A die in service again, its cores started where nothing holds them (R450, R465). -/
def startDie (s : State) (held : Bool) (die : Nat) : State :=
  let s1 := s.modDie die fun d => { d with st := .up, lastCore := 31 }
  if held then s1 else restartCores s1 die

theorem startDie_die (s : State) (held : Bool) (die : Nat) : (startDie s held die).mem = s.mem ∧ ((startDie s held die).die die).st = .up ∧
    ((startDie s held die).die die).waiters = (s.die die).waiters ∧ ∀ k, ((startDie s held die).die die).slice k = (s.die die).slice k := by
  have die_ := (State.die_modDie s die die fun d => { d with st := .up, lastCore := 31 }).trans (if_pos rfl)
  have mem : (s.modDie die fun d => { d with st := .up, lastCore := 31 }).mem = s.mem := rfl
  have dies : (startDie s held die).die die = { s.die die with st := .up, lastCore := 31 } := by
    unfold startDie
    split
    · exact die_
    · exact (State.die_congr (restartCores_dies ..) die).trans die_
  refine ⟨?_, by rw [dies], by rw [dies], fun k => by rw [dies]; rfl⟩
  unfold startDie
  split
  · exact mem
  · exact (restartCores_mem ..).trans mem

theorem still_waiters {s t : State} (same : t.still = s.still) (d : Nat) : (t.die d).waiters = (s.die d).waiters :=
  congrArg (fun x : Still => (x.dies d).waiters) same

theorem markFailed_waiters (s : State) (die : Nat) : ((markFailed s die).die die).waiters = (s.die die).waiters := by
  rw [markFailed, State.die_modDie, if_pos rfl]

theorem markFailed_slice (s : State) (die k : Nat) : ((markFailed s die).die die).slice k = (s.die die).slice k := by
  rw [markFailed, State.die_modDie, if_pos rfl]
  rfl

/-- The end of a reset, before the commands that wait for it complete (R450, R451). -/
theorem readmitted_die (s : State) (die : Nat) : ∃ t, t = startDie (raiseHorizons (markFailed s die) die) s.sys.tripped die ∧ t.mem = s.mem ∧
    (t.die die).st = .up ∧ (t.die die).waiters = (s.die die).waiters ∧ ∀ k, k < 16 →
      ((t.die die).slice k).h = stampNext s.datum48 ((s.die die).slice k).h ∧
      ((t.die die).slice k).u = stampNext s.datum48 ((s.die die).slice k).u := by
  have raised (k : Nat) (low : k < 16) := raiseHorizons_slice (markFailed s die) die low
  have waiters := still_waiters (raiseHorizons_still (markFailed s die) die) die
  have mem := raiseHorizons_mem (markFailed s die) die
  generalize raiseHorizons (markFailed s die) die = s0 at raised waiters mem ⊢
  obtain ⟨mem1, st, waiters1, slices⟩ := startDie_die s0 s.sys.tripped die
  refine ⟨_, rfl, mem1.trans mem, st, waiters1.trans (waiters.trans (markFailed_waiters ..)), fun k low => ?_⟩
  rw [slices, (raised k low).1, (raised k low).2, markFailed_slice]
  exact ⟨rfl, rfl⟩

/-- Settles O47: a die without residents stops at once; the end of a reset raises each horizon of its die once; and the commands that stage
D reads change neither the dies nor the start. -/
theorem resetEvents : Obligations.ResetEvents := by
  unfold Obligations.ResetEvents
  refine ⟨fun s die low up => ⟨fun c none_ running at_ inside => ?core, ?fabric, fun r router => ?router⟩,
    fun s die low st waiters => ?readmission, fun s => ?module, fun s stage sound => ?training, fun s die ok stage sound turn low => ?admission⟩
  case core =>
    obtain ⟨stopped, l1, icache, mem⟩ := resetCores_stops none_ at_ inside
    refine ⟨resetCores s die, congrArg Host.Outcome.next (if_neg ?_), stopped, l1, icache, mem⟩
    simp [up, running, low]
  case fabric =>
    refine ⟨warmReset s die, congrArg Host.Outcome.next (if_neg ?_), ?_⟩
    · simp [up, low]
    · rw [warmReset, State.die_modDie, if_pos rfl]
  case router =>
    refine ⟨_, congrArg Host.Outcome.next (if_neg ?_), ?_⟩
    · simp [up, low, router]
    · rw [warmReset, State.die_modDie, if_pos rfl]
  case readmission =>
    have down : s.dieUp die = false := by rw [State.dieUp, st]; rfl
    have goes : ¬(8 ≤ die ∨ s.dieUp die = true ∨ ((s.die die).st ≠ .resetting ∧ (s.die die).waiters = []) ∨ waitersHeld s die = true) := by
      simp [down, low, st, waitersHeld, waiters]
    constructor
    · obtain ⟨t, same, mem, up, none_, slices⟩ := readmitted_die s die
      have done : completeWaiters t die 0 = t.modDie die fun d => { d with waiters := [] } := by
        rw [completeWaiters, none_, waiters, List.foldl_nil]
      have run : execDieReadmission die true s = .next (completeWaiters t die 0) := by
        rw [same]
        exact congrArg Host.Outcome.next (if_neg goes)
      refine ⟨completeWaiters t die 0, run, ?_, ?_, fun k slice => ?_⟩
      · rw [done, State.dieUp, State.die_modDie, if_pos rfl, up]
        rfl
      · rw [done]
        exact mem
      · rw [done, State.die_modDie, if_pos rfl]
        exact slices k slice
    · let s1 := (markFailed s die).modDie die fun d => { d with st := if d.st = .resetting then .lost else d.st }
      have die_ : s1.die die = { (markFailed s die).die die with st := .lost } := by
        have at_ : ((markFailed s die).die die).st = .resetting := by
          rw [markFailed, State.die_modDie, if_pos rfl]
          exact st
        rw [State.die_modDie, if_pos rfl, if_pos at_]
      have none_ : (s1.die die).waiters = [] := by
        rw [die_, markFailed, State.die_modDie, if_pos rfl]
        exact waiters
      have done : completeWaiters s1 die 7 = s1.modDie die fun d => { d with waiters := [] } := by
        rw [completeWaiters, none_, List.foldl_nil]
      refine ⟨completeWaiters s1 die 7, congrArg Host.Outcome.next (if_neg goes), ?_, ?_⟩
      · rw [done, State.die_modDie, if_pos rfl, die_]
      · rw [done]
        rfl
  case module =>
    refine ⟨_, rfl, rfl, rfl, rfl, rfl, rfl, fun a high => ?_, fun a low => ?_⟩
    · exact (memGet_filter_high ..).trans (if_pos high)
    · exact (memGet_filter_high ..).trans (if_neg (Nat.not_le.2 low))
  case training =>
    have goes : ¬(s.sys.stage ≠ 1 ∨ s.sys.fail = true) := by simp [stage, sound]
    exact ⟨⟨_, congrArg Host.Outcome.next (if_neg goes), rfl, rfl⟩, ⟨_, congrArg Host.Outcome.next (if_neg goes), stage, rfl, rfl⟩⟩
  case admission =>
    have turnState := admittedState_dies s die ok
    have next : (admittedState s die ok).sys.nextDie = die + 1 := rfl
    have gone : (admittedState s die ok).sys.stage = 2 := stage
    have up (good : ok = true) : (admittedState s die ok).dieUp die = true := by
      rw [good, if_pos rfl] at turnState
      rw [good, State.dieUp, State.die_congr turnState, State.die_modDie, if_pos rfl]
      rfl
    have same (bad : ok = false) : (admittedState s die ok).dieUp die = s.dieUp die := by
      rw [bad, if_neg Bool.false_ne_true] at turnState
      rw [bad, State.dieUp, State.die_congr turnState, State.dieUp]
    generalize step_ : admittedState s die ok = s1 at next gone up same
    have run := execDieAdmission_turn ok stage sound turn low
    rw [step_] at run
    by_cases last : die < 7
    · exact ⟨s1, run.trans (congrArg _ (if_pos last)), next, up, same, fun seven => absurd seven (by omega)⟩
    rw [if_neg last] at run
    by_cases some_ : (List.range 8).any s1.dieUp = true
    · have dies : (List.range 8).any (beginStageD s1).dieUp = true := by
        rw [show (beginStageD s1).dieUp = s1.dieUp from funext (beginStageD_dieUp s1), some_]
      refine ⟨beginStageD s1, run.trans (congrArg _ (if_pos some_)), ?_, fun good => ?_, fun bad => ?_, fun _ => ?_⟩
      · exact (beginStageD_part s1 (fun s => s.sys.nextDie) fun _ => rfl).trans next
      · rw [beginStageD_dieUp, up good]
      · rw [beginStageD_dieUp, same bad]
      · rw [if_pos dies]
        exact beginStageD_part s1 (fun s => s.sys.stage) fun _ => rfl
    · refine ⟨startFails s1 3, run.trans (congrArg _ (if_neg some_)), next, up, same, fun _ => ?_⟩
      rw [if_neg (show ¬(List.range 8).any (startFails s1 3).dieUp = true from some_)]
      exact ⟨rfl, rfl⟩

end Sys2Proof.Machine
end

section
/-! SUPPORT. Byte ranges in pieces, and the error logs' and the endpoint's state (R453, R457, R462). -/

namespace Sys2Proof.Machine

/-! Pieces of a range. -/

/-- Pieces that follow one another from one address to another. -/
def Abut : Nat → Nat → List (Nat × Nat) → Prop
  | a, b, [] => a = b
  | a, b, p :: ps => p.1 = a ∧ Abut (a + p.2) b ps

theorem Abut.le {a b : Nat} {ps : List (Nat × Nat)} (abut : Abut a b ps) : a ≤ b := by
  induction ps generalizing a with
  | nil => exact Nat.le_of_eq abut
  | cons p ps ih => exact (Nat.le_add_right _ _).trans (ih abut.2)

theorem Abut.concat {a b n : Nat} {ps : List (Nat × Nat)} (abut : Abut a b ps) : Abut a (b + n) (ps ++ [(b, n)]) := by
  induction ps generalizing a with
  | nil => exact ⟨Eq.symm abut, congrArg (· + n) abut⟩
  | cons p ps ih => exact ⟨abut.1, ih abut.2⟩

theorem abut_map_range (g : Nat → Nat) (k : Nat) (rises : ∀ i, i < k → g i ≤ g (i + 1)) :
    Abut (g 0) (g k) ((List.range k).map fun i => (g i, g (i + 1) - g i)) := by
  induction k with
  | zero => rfl
  | succ k ih =>
    have step_ := (ih fun i low => rises i (by omega)).concat (n := g (k + 1) - g k)
    rw [List.range_succ, List.map_append, List.map_singleton]
    rwa [Nat.add_sub_cancel' (rises k (by omega))] at step_

/-- Where the piece of a number begins, and the one before it ends. -/
def cutAt (va n i : Nat) : Nat := if i = 0 then va else if (va / 64 + i) * 64 < va + n then (va / 64 + i) * 64 else va + n

theorem pieces_cuts {n : Nat} (va : Nat) (some_ : n ≠ 0) :
    pieces va n = (List.range ((va + n - 1) / 64 + 1 - va / 64)).map fun i => (cutAt va n i, cutAt va n (i + 1) - cutAt va n i) := by
  rw [pieces, if_neg some_]
  refine List.map_congr_left fun i low => ?_
  have low := List.mem_range.1 low
  have inside : i = 0 ∨ (va / 64 + i) * 64 < va + n := by omega
  simp only [cutAt, Nat.add_eq_zero_iff, one_ne_zero, and_false, if_false, Nat.add_assoc]
  rcases inside with rfl | inside
  · simp
  · by_cases first : i = 0
    · simp [first]
    · simp [first, inside]

theorem pieces_abut (va n : Nat) : Abut va (va + n) (pieces va n) := by
  by_cases zero : n = 0
  · rw [zero]; rfl
  have rises (i : Nat) (_ : i < (va + n - 1) / 64 + 1 - va / 64) : cutAt va n i ≤ cutAt va n (i + 1) := by
    simp only [cutAt, Nat.add_eq_zero_iff, one_ne_zero, and_false, if_false]
    have below : va < (va / 64 + 1) * 64 := by omega
    have next : (va / 64 + i) * 64 ≤ (va / 64 + (i + 1)) * 64 := by omega
    split_ifs with h1 h2 h3 h4
    · subst h1; omega
    · omega
    · omega
    · omega
    · omega
    · omega
  have last : cutAt va n ((va + n - 1) / 64 + 1 - va / 64) = va + n := by
    have past : ¬(va / 64 + ((va + n - 1) / 64 + 1 - va / 64)) * 64 < va + n := by omega
    have some_ : (va + n - 1) / 64 + 1 - va / 64 ≠ 0 := by omega
    rw [cutAt, if_neg some_, if_neg past]
  have cut := abut_map_range (cutAt va n) ((va + n - 1) / 64 + 1 - va / 64) rises
  rw [last] at cut
  rw [pieces_cuts va zero]
  exact cut

theorem memRead_append (m : Mem) (a k n : Nat) : memRead m a k ++ memRead m (a + k) n = memRead m a (k + n) := by
  rw [memRead_get, memRead_get, memRead_get, List.range_add, List.map_append, List.map_map]
  simp only [Function.comp_def, Nat.add_assoc]

/-- A range read piece by piece is the range. -/
theorem flatMap_memRead (m : Mem) {a b : Nat} {ps : List (Nat × Nat)} (abut : Abut a b ps) :
    ps.flatMap (fun p => memRead m p.1 p.2) = memRead m a (b - a) := by
  induction ps generalizing a with
  | nil =>
    obtain rfl : a = b := abut
    simp [memRead_get]
  | cons p ps ih =>
    obtain ⟨at_, rest⟩ := abut
    have le := rest.le
    rw [List.flatMap_cons, ih rest, at_, memRead_append, Nat.sub_add_eq, Nat.add_sub_cancel' (by omega)]

theorem writeAt_sectors (s : State) (key e cls : Nat) (bs : List Byte) : (writeAt s key e cls bs).errs.sectors = s.errs.sectors := by
  have touched := touchWrite_beside s key e cls bs.length
  exact ((noteWrite_beside ..).2.2.2).trans touched.2.2.2

/-- A write where nothing is in error writes its bytes. -/
theorem storeAt_sound {s : State} (sound : s.errs.sectors = []) (key e cls : Nat) (bs : List Byte) :
    (storeAt s key e cls bs).mem = memWrite s.mem key bs ∧ (storeAt s key e cls bs).errs.sectors = [] := by
  have fine : inError s key = false := by rw [inError, sound]; rfl
  rw [storeAt, fine]
  exact ⟨writeAt_mem .., (writeAt_sectors ..).trans sound⟩

/-- A range written piece by piece holds its bytes, and no other byte changes. -/
theorem memGet_storePieces {a b lo : Nat} {bs : List Byte} {ps : List (Nat × Nat)} (abut : Abut a b ps) (from_ : lo ≤ a) (inside : b ≤ lo + bs.length)
    {s : State} (sound : s.errs.sectors = []) (k : Nat) :
    memGet (ps.foldl (fun st p => storeAt st p.1 0 0 ((bs.drop (p.1 - lo)).take p.2)) s).mem k =
      if a ≤ k ∧ k < b then bs.getD (k - lo) 0 else memGet s.mem k := by
  induction ps generalizing a s with
  | nil =>
    obtain rfl : a = b := abut
    rw [if_neg (by omega)]
    rfl
  | cons p ps ih =>
    obtain ⟨at_, rest⟩ := abut
    have le := rest.le
    obtain ⟨mem, still⟩ := storeAt_sound sound p.1 0 0 ((bs.drop (p.1 - lo)).take p.2)
    have length : ((bs.drop (p.1 - lo)).take p.2).length = p.2 := by
      rw [List.length_take, List.length_drop]
      omega
    rw [List.foldl_cons, ih rest (by omega) still, mem, memGet_memWrite, length, at_]
    by_cases late : a + p.2 ≤ k ∧ k < b
    · rw [if_pos late, if_pos (by omega)]
    · rw [if_neg late]
      by_cases here : a ≤ k ∧ k < a + p.2
      · rw [if_pos here, if_pos (by omega)]
        simp only [List.getD_eq_getElem?_getD, List.getElem?_take, List.getElem?_drop, if_pos (show k - a < p.2 by omega),
          show a - lo + (k - a) = k - lo by omega]
        rfl
      · rw [if_neg here, if_neg (by omega)]

theorem toBytes_map (k n : Nat) : toBytes k n = (List.range k).map (byteOf n) := by
  induction k generalizing n with
  | zero => rfl
  | succ k ih =>
    rw [toBytes, ih, List.range_succ_eq_map, List.map_cons, List.map_map]
    refine congrArg₂ List.cons ?_ (List.map_congr_left fun i _ => ?_)
    · simp [byteOf]
    · simp only [byteOf, Function.comp_apply, Nat.succ_eq_add_one, Nat.mul_add, Nat.pow_add, Nat.mul_one, Nat.div_div_eq_div_mul]
      rw [Nat.mul_comm 256]

end Sys2Proof.Machine
end

section
/-! PROOFS. The services of IOD0 (R439, R453 to R458, R462 to R465). -/

namespace Sys2Proof.Machine

/-! Access tables. -/

theorem accessRights_setAccess {s : State} {target master : Nat} (low : master ≤ 0x110F) (rights t m : Nat) (short : m < 65536) :
    accessRights (s.setSys { s.sys with access := amPut s.sys.access (target * 65536 + master) rights }) t m =
      if t = target ∧ m = master then rights else accessRights s t m := by
  unfold accessRights
  simp only [State.setSys_sys, amGetD, amGet_amPut]
  by_cases same : t = target ∧ m = master
  · have plain : ¬(m = 0x1110 ∨ m = 0x1111) := by omega
    rw [if_neg plain, if_pos (by omega), if_pos same]
    rfl
  · have other : t * 65536 + m ≠ target * 65536 + master := fun eq => same (by omega)
    rw [if_neg other, if_neg same]

/-! Error logs. -/

theorem execPop_pops {s : State} {log : Nat} {g : ErrLog} (n : Nat) (low : log < 10) (there : amGet s.sys.logs log = some g) :
    ∃ u g1, exec (.pop log n) s = .next u ∧ amGet u.sys.logs log = some g1 ∧ g1.recs = g.recs.drop n ∧
      g1.head = (g.head + min n g.recs.length) % 64 := by
  have found : amGetD s.sys.logs log ErrLog.init = g := by rw [amGetD, there]; rfl
  refine ⟨_, _, congrArg Host.Outcome.next (if_neg (by omega)), amGet_amPut_same .., ?_, ?_⟩
  · rw [found]
    dsimp only
    split
    · rfl
    · rw [List.drop_length, List.drop_eq_nil_of_le (by omega)]
  · rw [found]
    dsimp only
    congr 2
    split <;> omega

theorem execOvfClear_clears {s : State} {log : Nat} {g : ErrLog} (low : log < 10) (there : amGet s.sys.logs log = some g) :
    ∃ u, exec (.ovfClear log) s = .next u ∧ amGet u.sys.logs log = some { g with ovf := false, discarded := 0 } := by
  have found : amGetD s.sys.logs log ErrLog.init = g := by rw [amGetD, there]; rfl
  refine ⟨_, congrArg Host.Outcome.next (if_neg (by omega)), (amGet_amPut_same ..).trans ?_⟩
  rw [found]

/-! The thermal trip. -/

theorem canIssue_tripped {s : State} (held : s.sys.tripped = true) (g : GRef) : canIssue s g = false := by
  unfold canIssue
  split
  · rw [held, Bool.not_true, Bool.and_false]
  · rfl

theorem restartCores_core {s : State} {die c : Nat} (runs : c ∈ coresOf s die ∨ (s.core c).running = true) :
    ((restartCores s die).core c).running = true := by
  unfold restartCores
  refine core_foldl_modCore (ok := fun x => x.running = true) (f := fun st x =>
    if x.running then x else { x with running := true, clkBase := st.time.clk, l1 := [], icache := [] }) (fun st x => ?_) (coresOf s die) s runs
  split
  next good => exact good
  · rfl

/-- Each die in service among some starts its cores. -/
theorem restartAll_running (ds : List Nat) (s : State) {c : Nat} (up : s.dieUp (c / 32) = true) (built : c % 32 < (s.die (c / 32)).built.length)
    (runs : c / 32 ∈ ds ∨ (s.core c).running = true) :
    ((ds.foldl (fun st d => if st.dieUp d then restartCores st d else st) s).core c).running = true := by
  induction ds generalizing s with
  | nil => exact runs.resolve_left List.not_mem_nil
  | cons d ds ih =>
    have dies := restartIf_dies (s.dieUp d) s d
    have up1 : (if s.dieUp d then restartCores s d else s).dieUp (c / 32) = true := by rw [State.dieUp, State.die_congr dies]; exact up
    refine ih _ up1 (by rw [State.die_congr dies]; exact built) ?_
    by_cases here : c / 32 = d
    · subst here
      dsimp only
      rw [if_pos up]
      exact .inr (restartCores_core (.inl (mem_coresOf rfl built)))
    · refine runs.imp (fun among => (List.mem_cons.1 among).resolve_left here) fun good => ?_
      dsimp only
      split
      · exact restartCores_core (.inr good)
      · exact good

theorem restartAll_tripped (ds : List Nat) (s : State) :
    (ds.foldl (fun st d => if st.dieUp d then restartCores st d else st) s).sys.tripped = s.sys.tripped := by
  refine foldl_keeps (fun st : State => st.sys.tripped) _ (fun st d => ?_) ds s
  split
  · rw [restartCores_sys]
  · rfl

/-- The state after the release of a thermal trip (R465). -/
def released (s : State) : State :=
  (List.range 8).foldl (fun st d => if st.dieUp d then restartCores st d else st) (s.setSys { s.sys with tripped := false })

theorem released_tripped (s : State) : (released s).sys.tripped = false := by
  unfold released
  generalize List.range 8 = ds
  rw [restartAll_tripped]
  rfl

theorem released_running {s : State} {c : Nat} (low : c / 32 < 8) (up : s.dieUp (c / 32) = true) (built : c % 32 < (s.die (c / 32)).built.length) :
    ((released s).core c).running = true := by
  have inside : c / 32 ∈ List.range 8 := List.mem_range.2 low
  unfold released
  generalize List.range 8 = ds at inside ⊢
  exact restartAll_running ds _ up built (.inl inside)

/-! The endpoint. -/

/-- Function 0 may read STARTSTAT where MMIO lets it (R453, R456). -/
theorem barRequest_startstat {s : State} (may : bit (accessRights s 130 0x1100) 0 = true) :
    (barRequest s 0 0 8 (.barRead 0 8)).sys.pcie = s.sys.pcie ++ [(true, toBytes 8 (startstat s).toNat)] := by
  have allowed : barDenied s 0 0 8 .read = none := by
    have notMail : (List.range 8).all (fun i => decide (0x100 ≤ 0 + i) && decide (0 + i < 0x200)) = false := by decide
    rw [barDenied, if_neg (by simp), notMail]
    simp [missingAccess, may]
  have bytes : (List.range 8).map (fun i => (barByte s (0 + i)).getD (Config.barByte s.takeFree.1 (0 + i))) = toBytes 8 (startstat s).toNat := by
    rw [toBytes_map]
    refine List.map_congr_left fun i low => ?_
    have low := List.mem_range.1 low
    rw [Nat.zero_add, barByte, if_pos low]
    rfl
  show (match barDenied s 0 0 8 .read with
    | some 0 => pcieDone s false []
    | some c => pcieDone (logEvent s 8 41 4 0xFFFF c 0) false []
    | none => pcieDone s.takeFree.2 true ((List.range 8).map fun i =>
        (barByte s (0 + i)).getD (Config.barByte s.takeFree.1 (0 + i)))).sys.pcie = _
  rw [allowed]
  exact congrArg (fun bs => s.sys.pcie ++ [(true, bs)]) bytes

/-- Requests to memory that nothing stops are performed (R457). -/
theorem execPciExpressRequest_performs {s : State} {fn a n : Nat} {need : AccessNeed} (admits : s.sys.admitting = true)
    (free : (pieces a n).any (fun p => heldUp s p.1 0) = false) (allowed : pcieDenied s fn need (pieces a n) = none) (r : PcieReq) :
    (if !s.sys.admitting || (pieces a n).any (fun p => heldUp s p.1 0) then s
      else match pcieDenied s fn need (pieces a n) with
        | some (t, some c, key) => pcieDone (logDenial s t 0xFFFF c.cause key) false []
        | some (_, none, _) => pcieDone s false []
        | none => pciePerform s (pieces a n) r) = pciePerform s (pieces a n) r := by
  rw [admits, free, if_neg (by simp), allowed]

theorem pciePerform_read {s : State} (sound : s.errs.sectors = []) (x : W64) (a n : Nat) :
    (pciePerform s (pieces a n) (.read x n)).mem = s.mem ∧
    (pciePerform s (pieces a n) (.read x n)).sys.pcie = s.sys.pcie ++ [(true, (List.range n).map fun i => memGet s.mem (a + i))] := by
  have clean : (pieces a n).find? (fun p => inError s p.1 && !(false && p.2 == 64)) = none :=
    List.find?_eq_none.2 fun p _ => by simp [inError, sound]
  have touched := beside_foldl _ (fun st (p : Nat × Nat) => touchRead_beside st p.1 0 0) (pieces a n) s
  have answers : (((pieces a n).foldl (fun st p => touchRead st p.1 0 0) s)).sys.pcie = s.sys.pcie :=
    outer_part (fun s => s.sys.pcie) (fun _ => rfl) touched.2.2.1
  unfold pciePerform
  dsimp only
  rw [clean]
  refine ⟨touched.2.1, ?_⟩
  show (((pieces a n).foldl (fun st p => touchRead st p.1 0 0) s)).sys.pcie ++ [(true, _)] = _
  rw [answers, flatMap_memRead s.mem (pieces_abut a n), Nat.add_sub_cancel_left, memRead_get]

theorem pciePerform_write {s : State} (sound : s.errs.sectors = []) (a : Nat) (low : a < 2 ^ 64) (bs : List Byte) :
    (pciePerform s (pieces a bs.length) (.write (BitVec.ofNat 64 a) bs)).sys.pcie.length = s.sys.pcie.length + 1 ∧
    ∀ k, memGet (pciePerform s (pieces a bs.length) (.write (BitVec.ofNat 64 a) bs)).mem k =
      if a ≤ k ∧ k < a + bs.length then bs.getD (k - a) 0 else memGet s.mem k := by
  have clean : (pieces a bs.length).find? (fun p => inError s p.1 && !(true && p.2 == 64)) = none :=
    List.find?_eq_none.2 fun p _ => by simp [inError, sound]
  have at_ : (BitVec.ofNat 64 a).toNat = a := by rw [BitVec.toNat_ofNat, Nat.mod_eq_of_lt low]
  have answers : ((pieces a bs.length).foldl (fun st p => storeAt st p.1 0 0 ((bs.drop (p.1 - a)).take p.2)) s).sys.pcie = s.sys.pcie :=
    outer_part (fun s => s.sys.pcie) (fun _ => rfl) (foldl_keeps State.outer _ (fun _ _ => storeAt_outer ..) _ s)
  unfold pciePerform
  dsimp only
  rw [clean]
  dsimp only
  rw [at_]
  refine ⟨?_, fun k => memGet_storePieces (pieces_abut a bs.length) (Nat.le_refl a) (Nat.le_refl _) sound k⟩
  show (((pieces a bs.length).foldl (fun st (p : Nat × Nat) => storeAt st p.1 0 0 ((bs.drop (p.1 - a)).take p.2)) s).sys.pcie ++ [(true, [])]).length = _
  rw [answers, List.length_append, List.length_singleton]

/-- Settles O48: each service is a check and one change of its own registers; a request to memory is cut into pieces that follow one another,
each of which is read or written at its home. -/
theorem services : Obligations.Services := by
  unfold Obligations.Services
  intro s mail answers
  refine ⟨fun addr len stage => ?firmware, fun n c stage there alive => ?priv, ⟨_, rfl, ⟨rfl, rfl⟩, rfl, rfl, rfl⟩,
    fun watts stage low high => ?power, fun target master rights stage tgt mst bits => ?access,
    ⟨⟨_, rfl⟩, ⟨_, rfl⟩, ⟨_, rfl⟩, ⟨_, rfl, rfl⟩, fun nonce => ⟨_, rfl⟩, ?measure⟩,
    fun log n g low there => ⟨execPop_pops n low there, execOvfClear_clears low there⟩, fun low high => ?throttle, fun free => ?trip,
    ?release, fun may => ⟨_, rfl, barRequest_startstat may⟩, fun fn a fnLow low admits sound => ⟨fun n free allowed => ?read, fun bs free allowed => ?write⟩⟩
  case firmware =>
    intro image
    have goes : ¬(s.sys.stage ≠ 0 ∧ (!s.sys.fail) = true) := fun no => no.1 stage
    refine ⟨_, rfl, ?_, fun good => ?_, fun n bad => ?_⟩
    · unfold loadFirmware
      rw [if_neg goes]
      dsimp only
      split <;> rfl
    · unfold loadFirmware
      rw [if_neg goes]
      dsimp only
      rw [good]
      exact ⟨⟨rfl, rfl⟩, rfl, rfl⟩
    · unfold loadFirmware
      rw [if_neg goes]
      dsimp only
      rw [bad]
      exact ⟨stage, rfl, rfl⟩
  case priv =>
    have set (p : Bool) (cmd : Nat) (data : List Byte) : setPrivTo data cmd p n s =
        mailed (s.setCtxs (amMod s.ctxs n fun c => { c with priv := p })) cmd 0 data := by
      rw [setPrivTo, if_neg (by omega), there, Option.map_some, alive]
      rfl
    have after (p : Bool) : amGet (amMod s.ctxs n fun c => { c with priv := p }) n = some { c with priv := p } := by
      rw [amGet_amMod, if_pos rfl, there]
      rfl
    exact ⟨⟨_, congrArg Host.Outcome.next (set true 0x10 _), ⟨rfl, rfl⟩, after true⟩,
      ⟨_, congrArg Host.Outcome.next (set false 0x11 _), ⟨rfl, rfl⟩, after false⟩⟩
  case power =>
    refine ⟨_, congrArg Host.Outcome.next ((if_neg (by omega)).trans (if_neg (by omega))), ⟨rfl, rfl⟩, rfl⟩
  case access =>
    have fine : (!accessEntryOk target master rights) = false := by simp [accessEntryOk, tgt, mst, bits]
    have run : setAccess (toBytes 2 target ++ toBytes 2 master ++ toBytes 1 rights.toNat) target master rights s =
        mailed (s.setSys { s.sys with access := amPut s.sys.access (target * 65536 + master) rights.toNat }) 0x30 0
          (toBytes 2 target ++ toBytes 2 master ++ toBytes 1 rights.toNat) := by
      rw [setAccess, if_neg (by omega), fine]
      rfl
    refine ⟨_, congrArg Host.Outcome.next run, ⟨rfl, rfl⟩, ?_, fun t m short other => ?_⟩
    · exact (accessRights_setAccess mst rights.toNat target master (by omega)).trans (if_pos ⟨rfl, rfl⟩)
    · exact (accessRights_setAccess mst rights.toNat t m short).trans (if_neg fun same => other (Prod.ext same.1 same.2))
  case measure =>
    refine ⟨_, _, _, rfl, fun zero => if_pos zero, fun v image some_ held => ?_⟩
    rw [if_neg some_, held]
    rfl
  case throttle =>
    refine ⟨⟨_, rfl, ?_⟩, ⟨_, rfl, rfl⟩⟩
    show (if s.sys.mhz + 50 ≤ 1900 then s.sys.mhz + 50 else s.sys.mhz) = _
    exact if_congr (by omega) rfl rfl
  case trip =>
    exact ⟨_, congrArg Host.Outcome.next (if_neg (by simp [free])), rfl, fun g => canIssue_tripped rfl g⟩
  case release =>
    have run : exec .thermalRelease s = .next (released s) := rfl
    exact ⟨released s, run, released_tripped s, fun c low up built => released_running low up built⟩
  case read =>
    obtain ⟨mem, answered⟩ := pciePerform_read sound (BitVec.ofNat 64 a) a n
    refine ⟨pciePerform s (pieces a n) (.read (BitVec.ofNat 64 a) n), congrArg Host.Outcome.next ((if_neg (by omega)).trans ?_), mem, answered⟩
    have at_ : (BitVec.ofNat 64 a).toNat = a := by rw [BitVec.toNat_ofNat, Nat.mod_eq_of_lt low]
    dsimp only
    rw [at_]
    exact execPciExpressRequest_performs admits free allowed _
  case write =>
    obtain ⟨answered, bytes⟩ := pciePerform_write sound a low bs
    refine ⟨pciePerform s (pieces a bs.length) (.write (BitVec.ofNat 64 a) bs), congrArg Host.Outcome.next ((if_neg (by omega)).trans ?_), answered, bytes⟩
    have at_ : (BitVec.ofNat 64 a).toNat = a := by rw [BitVec.toNat_ofNat, Nat.mod_eq_of_lt low]
    dsimp only
    rw [at_]
    exact execPciExpressRequest_performs admits free allowed _

end Sys2Proof.Machine
end

section
/-! SUPPORT. What translation, accesses, aborts, cairns and settlements leave of dies, cores and teams (R187 to R192, R226, R264, R306 to R311). -/

namespace Sys2Proof.Machine

/-- A die whose open domains that satisfy a test have closed (R315). -/
def closeDie (p : Domain → Bool) (d : Die) : Die :=
  { d with slices := d.slices.map fun x =>
    (x.1, { x.2 with domains := x.2.domains.map fun m =>
      if m.2.isOpen && p m.2 then
        (m.1, { m.2 with isOpen := false, gen := if (m.2.gen + 1) % 2 ^ 32 = 0 then 1 else (m.2.gen + 1) % 2 ^ 32 })
      else m }) }

theorem still_foldl {β : Type*} (f : State → β → State) (h : ∀ s b, (f s b).still = s.still) (l : List β) (s : State) :
    (l.foldl f s).still = s.still :=
  foldl_keeps State.still f h l s

section
variable (s : State)

/-! The caches of a core, and translation. -/

@[simp] theorem State.countCore_still (c code n : Nat) : (s.countCore c code n).still = s.still := by
  unfold State.countCore
  split
  · rfl
  · exact State.modCore_still s c fun _ => rfl

@[simp] theorem l1Put_still (core sec : Nat) (bs : List Byte) : (l1Put s core sec bs).still = s.still := by
  unfold l1Put
  split
  · exact State.modCore_still s core fun _ => rfl
  · exact State.modCore_still s.takeFree.2 core fun _ => rfl

@[simp] theorem l1Drop_still (core sec : Nat) : (l1Drop s core sec).still = s.still := by
  unfold l1Drop
  split
  · exact State.modCore_still s core fun _ => rfl
  · rfl

@[simp] theorem l1Clear_still (core : Nat) : (l1Clear s core).still = s.still := by
  unfold l1Clear
  split
  · rfl
  · exact State.modCore_still s core fun _ => rfl

@[simp] theorem l1Update_still (core key : Nat) (bs : List Byte) : (l1Update s core key bs).still = s.still := by
  unfold l1Update
  split
  · exact State.modCore_still s core fun _ => rfl
  · rfl

@[simp] theorem l1Fill_still (core key : Nat) : (l1Fill s core key).still = s.still := by simp [l1Fill]

@[simp] theorem l1Own_still (core key : Nat) (k : AccKind) : (l1Own s core key k).still = s.still := by
  unfold l1Own
  split <;> simp

@[simp] theorem markFirst_still (key : Nat) : (markFirst s key).still = s.still := rfl
@[simp] theorem noteScratch_still (team : Nat) : (noteScratch s team).still = s.still := rfl

@[simp] theorem tlbPut_still (loc k : Nat) (e : W64) : (tlbPut s loc k e).still = s.still := by
  unfold tlbPut
  dsimp only
  split <;> rfl

@[simp] theorem findLeaf_still (core asid home va : Nat) : (findLeaf s core asid home va).2.still = s.still := by
  have walked (rs : List Nat) (xs : List (Nat × W64)) :
      (xs.foldl (fun st x => tlbPut st (homeLoc home va) x.1 x.2) (rs.foldl (fun st k => touchRead st k 0 0) s)).still = s.still :=
    (still_foldl _ (fun st (x : Nat × W64) => tlbPut_still st (homeLoc home va) x.1 x.2) xs _).trans (still_foldl _ (fun st k => touchRead_still st k 0 0) rs s)
  unfold findLeaf
  dsimp only
  split
  · exact walked _ _
  · split
    · exact Eq.trans (tlbPut_still _ (coreLoc core) _ _) (walked _ _)
    · exact walked _ _

@[simp] theorem logDenial_still (target asid cause key : Nat) : (logDenial s target asid cause key).still = s.still := by
  unfold logDenial
  split <;> simp

@[simp] theorem logCoreError_still (core asid : Nat) : (logCoreError s core asid).still = s.still := rfl

@[simp] theorem xlateLocal_still (core asid : Nat) (priv : Bool) (n : AccessNeed) (va : Nat) : (xlateLocal s core asid priv n va).2.still = s.still := by
  unfold xlateLocal
  dsimp only
  split
  · rfl
  · split
    · simp
    · split
      · simp
      · split
        · simp
        · split
          · simp
          · split <;> simp

@[simp] theorem countGone_still (core : Nat) (r : XOut × State) : (countGone core r).2.still = r.2.still := by
  unfold countGone
  split
  · split <;> simp
  · rfl

@[simp] theorem xlate_still (core asid : Nat) (priv : Bool) (n : AccessNeed) (va : Nat) : (xlate s core asid priv n va).2.still = s.still := by
  refine (countGone_still ..).trans ?_
  split
  · rfl
  · split
    · split
      · rfl
      · split
        · rfl
        · split
          · rfl
          · split
            · split <;> rfl
            · rfl
    · simp

theorem xlateAll_still (core asid : Nat) (priv : Bool) (need : AccessNeed) (ps : List (Nat × Nat)) :
    (leftState (xlateAll core asid priv need ps s)).still = s.still := by
  induction ps generalizing s with
  | nil => rfl
  | cons p rest ih =>
    obtain ⟨va, n⟩ := p
    have looked := xlate_still s core asid priv need va
    rw [xlateAll]
    split
    next out => rw [out] at looked; exact looked
    next out => rw [out] at looked; exact looked
    next key e s1 out =>
      rw [out] at looked
      split
      · exact looked
      · have later := ih s1
        cases result : xlateAll core asid priv need rest s1 with
        | error x => rw [result] at later; exact later.trans looked
        | ok x => rw [result] at later; exact later.trans looked

theorem writeKeys_still (core : Nat) (ks : List (Nat × Nat × Nat)) (bs : List Byte) : (writeKeys core ks bs s).still = s.still := by
  induction ks generalizing bs s with
  | nil => rfl
  | cons k rest ih =>
    obtain ⟨key, e, n⟩ := k
    rw [writeKeys]
    refine (ih _ _).trans ?_
    split <;> simp

/-! Accesses. -/

@[simp] theorem putData_still (g : GRef) (lane : Nat) (d : Reg) (x : Bool) (w : Nat) (sgn : Bool) (n : Nat) :
    (putData s g lane d x w sgn n).still = s.still := by
  unfold putData
  split <;> simp

@[simp] theorem putLoad_still (g : GRef) (lane : Nat) (d : Reg) (x : Bool) (sz : Sz) (pd : Option (BitVec 3)) (absent : Bool) (n : Nat) :
    (putLoad s g lane d x sz pd absent n).still = s.still := by
  unfold putLoad
  dsimp only
  split <;> simp

@[simp] theorem Place.touch_still (p : Place) : (p.touch s).still = s.still := by
  cases p with
  | mem key e cls => exact touchRead_still ..
  | view team o => rfl

@[simp] theorem Place.write_still (p : Place) (off : Nat) (bs : List Byte) : (p.write s off bs).still = s.still := by
  cases p with
  | mem key e cls => exact writeAt_still ..
  | view team o => exact (noteScratch_still ..).trans (State.modTeam_still s team fun _ => rfl)

@[simp] theorem atomAt_still (p : Place) (aty : AType) (aop : AOp) (xs : List (Nat × Nat)) (off : Nat) :
    (atomAt p aty aop xs off s).2.still = s.still := by
  induction xs generalizing off s with
  | nil => rfl
  | cons x xs ih =>
    rw [(atomAt_cons ..).2, ih, elemStep]
    split <;> simp

@[simp] theorem performAt_still (p : Place) (g : GRef) (lane : Nat) (k : AccKind) : (performAt p s g lane k).still = s.still := by
  unfold performAt
  split
  · simp
  · simp
  · rfl
  · dsimp only
    split <;> simp

theorem performAccess_still {s t : State} {a : Access} (done : performAccess s a = some t) : t.still = s.still := by
  unfold performAccess at done
  dsimp only at done
  split at done
  · split at done
    · cases done
    · cases done
      simp
  · cases done
    have own (x : State) (k : AccKind) : (if a.lu then markFirst (l1Own x (coreOf s a.g) a.key k) a.key else l1Own x (coreOf s a.g) a.key k).still =
        x.still := by split <;> simp
    have clear (x : State) : (if a.acq && a.wide then l1Clear x (coreOf s a.g) else x).still = x.still := by split <;> simp
    refine (clear _).trans ?_
    split
    · split
      · simp
      · split <;> simp
    · exact (own ..).trans (performAt_still ..)

/-! Transactions and cairns. -/

@[simp] theorem whileRunning_still (g : GRef) (f : Group → Group) : (whileRunning s g f).still = s.still := by
  unfold whileRunning
  split <;> simp

@[simp] theorem abortLane_still (g : GRef) (l code sub : Nat) : (abortLane s g l code sub).still = s.still := by
  simp [abortLane, dropLane]

@[simp] theorem loseLane_still (id : Nat) (c : Cairn) (l code sub : Nat) : (loseLane id c s l code sub).still = s.still := by
  have aborted : (if c.ordered then
      (abortLane s c.g l (if code = 2 then 0x0A else code) sub).modGroup c.g fun x => { x with ordered := 0, stop := some l }
    else abortLane s c.g l code sub).still = s.still := by
    split <;> simp
  unfold loseLane
  dsimp only
  split
  · split <;> simpa using aborted
  · exact aborted

@[simp] theorem cairnSector_still (c : Cairn) (sec : Nat) : (cairnSector c s sec).still = s.still := by
  unfold cairnSector
  split
  · rfl
  · dsimp only
    split
    · simp
    · split
      · split <;> simp
      · split <;> simp

@[simp] theorem cairnLine_still (c : Cairn) (line : Nat) : (cairnLine c s line).still = s.still := by simp [cairnLine]

@[simp] theorem endCairns_still (team : Nat) : (endCairns s team).still = s.still := by
  unfold endCairns
  exact still_foldl _ (fun st c => still_foldl _ (fun st line => cairnLine_still ..) _ st) _ s

@[simp] theorem quiesceCairn_still (die id : Nat) : (quiesceCairn die s id).still = s.still := by
  unfold quiesceCairn
  split
  · rfl
  · dsimp only
    split
    · exact still_foldl _ (fun st line => cairnLine_still ..) _ s
    · split
      · exact still_foldl _ (fun st l => loseLane_still ..) _ s
      · rfl

/-! Stakes. -/

@[simp] theorem putStake_still (c k : Nat) (x : StakeSlot) : (putStake s c k x).still = s.still := State.modCore_still s c fun _ => rfl
@[simp] theorem tellPeer_still (d : Nat) (x : PeerNote) : (tellPeer s d x).still = s.still := rfl

@[simp] theorem announce_still (c k : Nat) (st : StakeSt) : (announce s c k st).still = s.still := by
  unfold announce
  split <;> simp

@[simp] theorem wakeLane_still (g : GRef) (l : Nat) (kept : Bool) (x : Wake) : (wakeLane s g l kept x).still = s.still := State.modGroup_still ..

@[simp] theorem answerMsg_still (msg : Nat) (g : GRef) (l : Nat) (x : W64) (bs : List Byte) : (answerMsg s msg g l x bs).still = s.still := by
  unfold answerMsg
  refine (still_foldl _ (fun st k => ?_) _ _).trans ?_
  · split
    · split <;> simp
    · rfl
  · split <;> simp

@[simp] theorem letThrough_still (inv c : Nat) (d : List Byte) : (letThrough s inv c d).still = s.still := by
  unfold letThrough
  split <;> rfl

@[simp] theorem settleMsg_still (st : StakeSt) (stale : Bool) (rcore : Option Nat) (msg : Nat) :
    (settleMsg s st stale rcore msg).1.still = s.still := by
  unfold settleMsg
  split
  · rfl
  · split
    · simp
    · simp
    · simp
    · rfl
    · rfl
    · rfl
    · dsimp only
      split <;> simp

theorem settleStake_still (fuel c k : Nat) (st : StakeSt) : (settleStake fuel s c k st).still = s.still := by
  induction fuel generalizing s c k st with
  | zero => rfl
  | succ fuel ih =>
    unfold settleStake
    dsimp only
    split
    next placed queue dropped _ =>
      refine (still_foldl _ (fun acc inv => ?_) _ _).trans ?_
      · split
        · exact (ih ..).trans rfl
        · rfl
      · refine (foldl_keeps (fun acc : State × List Nat => acc.1.still) _ (fun acc m => ?_) _ _).trans ?_
        · exact settleMsg_still ..
        refine (announce_still ..).trans ?_
        split <;> split <;> simp
    · rfl

@[simp] theorem settle_still (c k : Nat) (st : StakeSt) : (settle s c k st).still = s.still := settleStake_still ..

@[simp] theorem settleInv_still (inv : Nat) (st : StakeSt) : (settleInv s inv st).still = s.still := by
  unfold settleInv
  split <;> simp

@[simp] theorem loseInvocation_still (id : Nat) : (loseInvocation s id).still = s.still := settleInv_still ..

theorem State.mapTeams_still (f : Team → Team) (kept : ∀ x, ((f x).phase, (f x).work) = (x.phase, x.work)) :
    (s.setTeams (s.teams.map fun t => (t.1, f t.2))).still = s.still := by
  refine congrArg (fun x => Still.mk s.still.dies s.still.runs x) (funext fun n => ?_)
  rw [State.team?, State.setTeams_teams, amGet_map_snd, Option.map_map]
  exact congrArg (Option.map · (s.team? n)) (funext kept)

@[simp] theorem loseStake_still (core slot cause : Nat) : (loseStake s core slot cause).still = s.still := by
  unfold loseStake
  refine (State.mapTeams_still _ (fun t => { t with inv := t.inv.map fun h =>
    if h.issuer = core ∧ h.slot = slot then { h with settled := true } else h }) fun _ => rfl).trans ?_
  split <;> simp

/-! Frames, launches and domains. -/

@[simp] theorem tellFrame_still (f : Nat) : (tellFrame s f).still = s.still := by
  unfold tellFrame
  split
  · rfl
  next fr _ =>
    have looked := xlateAll_still s unitCore fr.asid.toNat false .write (pieces fr.va.toNat (frameHeader fr).length)
    unfold writeVa
    split
    next s1 written =>
      cases result : xlateAll unitCore fr.asid.toNat false .write (pieces fr.va.toNat (frameHeader fr).length) s with
      | error x => rw [result] at written; cases written
      | ok x =>
        rw [result] at written looked
        cases written
        exact (writeKeys_still ..).trans looked
    next c s1 missed =>
      cases result : xlateAll unitCore fr.asid.toNat false .write (pieces fr.va.toNat (frameHeader fr).length) s with
      | error x =>
        rw [result] at missed looked
        cases missed
        split
        · rfl
        · exact looked
      | ok x => rw [result] at missed; cases missed

@[simp] theorem gridStatus_still (grid status detail : Nat) : (gridStatus s grid status detail).still = s.still := rfl

theorem State.mapDies_still (f : Die → Die) (kept : ∀ x : Die, ({ f x with slices := [], dev := [], dsel := [], dnow := (0, []) } : Die) =
    { x with slices := [], dev := [], dsel := [], dnow := (0, []) }) (init : f Die.init = Die.init) :
    (s.setDies (s.dies.map fun d => (d.1, f d.2))).still = s.still := by
  refine congrArg (fun x => Still.mk x s.still.runs s.still.teams) (funext fun n => ?_)
  have got : (s.setDies (s.dies.map fun d => (d.1, f d.2))).die n = f (s.die n) := by
    rw [State.die, State.setDies_dies, amGetD, amGet_map_snd, State.die, amGetD]
    cases amGet s.dies n with
    | none => exact init.symm
    | some d => rfl
  rw [got]
  exact kept _

@[simp] theorem closeWhere_still (p : Domain → Bool) : (closeWhere s p).still = s.still :=
  State.mapDies_still s (closeDie p) (fun _ => rfl) rfl

@[simp] theorem closeDomains_still (team : Nat) : (closeDomains s team).still = s.still := closeWhere_still ..

@[simp] theorem breakTrees_still (lost : Bool) (p : Tree → Bool) : (breakTrees s lost p).still = s.still := rfl

@[simp] theorem writeStack_still (die : Nat) : (writeStack s die).still = s.still := by
  unfold writeStack
  exact still_foldl _ (fun st k => (still_foldl _ (fun st sec => writebackMsc_still ..) _ _).trans (dropL2_still ..)) _ s

end

end Sys2Proof.Machine
end

section
/-! SUPPORT. What ends with a team or a die: teams end or go, and no die or core changes with them (R165, R177 to R181, R411, R449, R450). -/

namespace Sys2Proof.Machine

/-- The dies and the cores' running stand, no team appears, no team takes up merge work, and none that has ended goes on. -/
def Fades (s t : State) : Prop :=
  t.still.dies = s.still.dies ∧ t.still.runs = s.still.runs ∧ ∀ i p w, t.still.teams i = some (p, w) →
    ∃ q v, s.still.teams i = some (q, v) ∧ (v = none → w = none) ∧ (q = .ended → p = .ended)

theorem Fades.of_still {s t : State} (same : t.still = s.still) : Fades s t := by
  rw [Fades, same]
  exact ⟨rfl, rfl, fun i p w there => ⟨p, w, there, id, id⟩⟩

theorem Fades.refl (s : State) : Fades s s := .of_still rfl

theorem Fades.trans {s t u : State} (st : Fades s t) (tu : Fades t u) : Fades s u := by
  obtain ⟨dies, runs, teams⟩ := st
  obtain ⟨dies1, runs1, teams1⟩ := tu
  refine ⟨dies1.trans dies, runs1.trans runs, fun i p w there => ?_⟩
  obtain ⟨q, v, before, work, phase⟩ := teams1 i p w there
  obtain ⟨q0, v0, first, work0, phase0⟩ := teams i q v before
  exact ⟨q0, v0, first, work ∘ work0, phase ∘ phase0⟩

theorem fades_foldl {β : Type*} (f : State → β → State) (h : ∀ s b, Fades s (f s b)) (l : List β) (s : State) : Fades s (l.foldl f s) :=
  List.foldlRecOn (motive := Fades s) l f (Fades.refl s) fun t st b _ => st.trans (h t b)

/-- A team stands, if at all, with its threads ended. -/
def Gone (s : State) (i : Nat) : Prop := ∀ p w, s.still.teams i = some (p, w) → p = .ended
/-- A team does no merge work. -/
def Workless (s : State) (i : Nat) : Prop := ∀ p w, s.still.teams i = some (p, w) → w = none

theorem Fades.gone {s t : State} (fades : Fades s t) {i : Nat} (gone : Gone s i) : Gone t i := fun p w there => by
  obtain ⟨q, v, before, -, phase⟩ := fades.2.2 i p w there
  exact phase (gone q v before)

theorem Fades.workless {s t : State} (fades : Fades s t) {i : Nat} (less : Workless s i) : Workless t i := fun p w there => by
  obtain ⟨q, v, before, work, -⟩ := fades.2.2 i p w there
  exact work (less q v before)

section
variable {s : State} {k : Nat}

theorem still_team {m : Team} (team : s.team? k = some m) : s.still.teams k = some (m.phase, m.work) := congrArg (Option.map _) team

theorem putTeam_teams (x : Team) (i : Nat) :
    (s.putTeam k x).still.teams i = if i = k then some (x.phase, x.work) else s.still.teams i := by
  show ((s.putTeam k x).team? i).map _ = _
  rw [State.team?_putTeam]
  split <;> rfl

theorem fades_putTeam {q : TeamPhase} {v : Option MergeWork} {x : Team} (there : s.still.teams k = some (q, v)) (work : v = none → x.work = none)
    (phase : q = .ended → x.phase = .ended) : Fades s (s.putTeam k x) := by
  refine ⟨rfl, rfl, fun i p w now => ?_⟩
  rw [putTeam_teams] at now
  split at now
  next here =>
    cases now
    exact ⟨q, v, here ▸ there, work, phase⟩
  · exact ⟨p, w, now, id, id⟩

theorem putTeam_still {m x : Team} (team : s.team? k = some m) (same : (x.phase, x.work) = (m.phase, m.work)) : (s.putTeam k x).still = s.still := by
  refine congrArg (fun y => Still.mk s.still.dies s.still.runs y) (funext fun i => ?_)
  refine (putTeam_teams x i).trans ?_
  split
  next here =>
    rw [here]
    exact (congrArg some same).trans (still_team team).symm
  · rfl

theorem fades_delTeam {u : State} (same : u.still = s.still) : Fades s (u.setTeams (amDel s.teams k)) := by
  have dies : u.still.dies = s.still.dies := congrArg Still.dies same
  have runs : u.still.runs = s.still.runs := congrArg Still.runs same
  refine ⟨dies, runs, fun i p w now => ?_⟩
  have kept : (u.setTeams (amDel s.teams k)).still.teams i = if i = k then none else s.still.teams i := by
    show ((u.setTeams (amDel s.teams k)).team? i).map _ = _
    rw [State.team?, State.setTeams_teams]
    split
    next here => rw [here, amGet_amDel_same]; rfl
    next other => rw [amGet_amDel_other _ _ _ other]; rfl
  rw [kept] at now
  split at now
  · cases now
  · exact ⟨p, w, now, id, id⟩

theorem fades_ite {t u : State} (p : Prop) [Decidable p] (st : Fades s t) (su : Fades s u) : Fades s (if p then t else u) := by
  split
  · exact st
  · exact su

end

/-! The end of a team. -/

theorem freeTeam_fades (s : State) (k : Nat) : Fades s (freeTeam s k) := by
  unfold freeTeam
  split
  · exact Fades.refl s
  next t _ =>
    dsimp only
    have before : (if t.resident then s else s.setCtxs (amMod s.ctxs t.ctx fun c => { c with saves := c.saves.filter fun x => x.1 ≠ k })).still =
        s.still := by split <;> simp
    generalize (if t.resident then s else s.setCtxs (amMod s.ctxs t.ctx fun c => { c with saves := c.saves.filter fun x => x.1 ≠ k })) = s0 at before ⊢
    refine (fades_delTeam (k := k) before).trans (.of_still ?_)
    generalize s0.setTeams (amDel s.teams k) = s1
    split
    · rfl
    · exact Eq.trans (State.modCore_still _ t.core fun _ => rfl) (closeDomains_still (s1.setMons _) k)
    · exact closeDomains_still (s1.setMons _) k

theorem reapTeam_fades (s : State) (k : Nat) : Fades s (reapTeam s k) := by
  unfold reapTeam
  split
  · exact Fades.refl s
  · split
    · exact freeTeam_fades s k
    · exact Fades.refl s

theorem letGo_fades (s : State) (k : Nat) : Fades s (letGo s k) := by
  unfold letGo
  split
  · exact Fades.refl s
  next t team =>
    split
    · exact reapTeam_fades s k
    next alive =>
      split
      · exact freeTeam_fades s k
      · exact fades_putTeam (still_team team) id fun ended => absurd ended alive

/-- A team all of whose threads have ended (R411). -/
def Team.stopped (t : Team) : Team :=
  { t with
    phase := .ended
    groups := t.groups.map fun g => { g with
      retired := true, handler := none, held := [], pendTrap := none
      lanes := g.lanes.map fun l => { l with exited := true, park := none, tx := none } } }

theorem stopTeam_fades (s : State) (k : Nat) : Fades s (stopTeam s k) ∧ Gone (stopTeam s k) k := by
  unfold stopTeam
  split
  next none_ =>
    refine ⟨Fades.refl s, fun p w there => ?_⟩
    have : s.still.teams k = none := congrArg (Option.map _) none_
    rw [this] at there
    cases there
  next t team =>
    have still := endCairns_still s k
    have there : (endCairns s k).still.teams k = some (t.phase, t.work) := by rw [still]; exact still_team team
    refine ⟨(Fades.of_still still).trans ((fades_putTeam (x := t.stopped) there id fun _ => rfl).trans (.of_still ?_)), fun p w now => ?_⟩
    · exact (State.setRounds_still ..).trans ((State.setMons_still ..).trans (State.setOps_still ..))
    have now : ((endCairns s k).putTeam k t.stopped).still.teams k = some (p, w) := now
    rw [putTeam_teams, if_pos rfl] at now
    cases now
    rfl

theorem endMerge_fades (s : State) (k : Nat) : Fades s (endMerge s k) := (stopTeam_fades s k).1.trans (reapTeam_fades ..)

theorem dropMerge_fades (s : State) (f : Nat) : Fades s (dropMerge s f) := fades_foldl _ (fun _ _ => endMerge_fades ..) _ s

theorem breakFrame_fades (s : State) (f cause : Nat) : Fades s (breakFrame s f cause) := by
  unfold breakFrame
  split
  · exact Fades.refl s
  next fr _ =>
    have merged : Fades s (if keepApply fr.job = none then dropMerge s f else s) := by
      split
      · exact dropMerge_fades s f
      · exact Fades.refl s
    refine merged.trans (Fades.trans ?_ (.of_still (tellFrame_still ..)))
    exact Fades.trans (.of_still (State.setFrames_still ..)) (fades_foldl letGo letGo_fades _ _)

theorem breakParent_fades (s : State) (k f cause : Nat) : Fades s (breakParent s k f cause) := by
  unfold breakParent
  exact fades_ite _ (breakFrame_fades ..) ((breakFrame_fades s f cause).trans (.of_still (State.setFrames_still ..)))

theorem breakOwned_fades (s : State) (k cause : Nat) : Fades s (breakOwned s k cause) :=
  fades_foldl _ (fun st f => (dropMerge_fades st f).trans ((breakFrame_fades ..).trans (.of_still (State.setFrames_still ..)))) _ s

/-- The end of a team leaves nothing of it that goes on. -/
theorem endTeam_fades (s : State) (k fcause scause trapc : Nat) : Fades s (endTeam s k fcause scause trapc) ∧ Gone (endTeam s k fcause scause trapc) k := by
  unfold endTeam
  split
  next none_ =>
    refine ⟨Fades.refl s, fun p w there => ?_⟩
    have : s.still.teams k = none := congrArg (Option.map _) none_
    rw [this] at there
    cases there
  next t _ =>
    obtain ⟨stops, gone⟩ := stopTeam_fades s k
    have parent : Fades (stopTeam s k) (match t.parent with
        | some (f, _) => breakParent (stopTeam s k) k f fcause
        | none => stopTeam s k) := by
      split
      · exact breakParent_fades ..
      · exact Fades.refl _
    have rest : Fades (stopTeam s k) (reapTeam (match t.inv with
        | some h => if h.settled then breakOwned (match t.parent with
            | some (f, _) => breakParent (stopTeam s k) k f fcause
            | none => stopTeam s k) k fcause else settle (breakOwned (match t.parent with
            | some (f, _) => breakParent (stopTeam s k) k f fcause
            | none => stopTeam s k) k fcause) h.issuer h.slot (.broken scause trapc 0)
        | none => breakOwned (match t.parent with
            | some (f, _) => breakParent (stopTeam s k) k f fcause
            | none => stopTeam s k) k fcause) k) := by
      refine parent.trans ((breakOwned_fades _ k fcause).trans (Fades.trans (.of_still ?_) (reapTeam_fades ..)))
      split
      · split <;> simp
      · rfl
    exact ⟨stops.trans rest, rest.gone gone⟩

/-- The loss of a resident team ends it, unless it does merge work (R449). -/
theorem loseTeam_fades (die : Nat) (s : State) (k : Nat) : Fades s (loseTeam die s k) ∧ (Workless s k → Gone (loseTeam die s k) k) := by
  unfold loseTeam
  split
  next none_ =>
    refine ⟨Fades.refl s, fun _ p w there => ?_⟩
    have : s.still.teams k = none := congrArg (Option.map _) none_
    rw [this] at there
    cases there
  next t team =>
    split
    next ended =>
      refine ⟨Fades.refl s, fun _ p w there => ?_⟩
      rw [still_team team] at there
      cases there
      exact ended
    · split
      next w work =>
        have impossible (plain : Workless s k) : False := by cases work.symm.trans (plain _ _ (still_team team))
        split
        · exact ⟨Fades.refl s, fun plain => (impossible plain).elim⟩
        · refine ⟨?_, fun plain => (impossible plain).elim⟩
          refine (endMerge_fades s k).trans ((breakFrame_fades _ w.frame 0x62).trans (.of_still ?_))
          refine (State.setFrames_still ..).trans ?_
          split <;> simp
      · have told : (if t.kind = .grid then gridStatus s t.grid 7 die else s).still = s.still := by split <;> simp
        obtain ⟨ends, gone⟩ := endTeam_fades (if t.kind = .grid then gridStatus s t.grid 7 die else s) k 0x62 0x62 0
        exact ⟨(Fades.of_still told).trans ends, fun _ => gone⟩

/-! Retirement. -/

theorem retireGroups_still (s : State) (k : Nat) : (retireGroups s k).still = s.still := by
  unfold retireGroups
  split
  · rfl
  next t team => exact putTeam_still team rfl

theorem leaveTail_still (s : State) (k : Nat) : (leaveTail s k).still = s.still := by
  unfold leaveTail
  split
  · rfl
  · split <;> rfl

theorem finishTeam_fades {s : State} {k : Nat} (alive : ∀ p w, s.still.teams k = some (p, w) → p ≠ .ended) : Fades s (finishTeam s k) := by
  unfold finishTeam
  split
  · exact Fades.refl s
  next t team =>
    split
    · refine Fades.trans ?_ (.of_still (leaveTail_still ..))
      exact (fades_putTeam (x := { t with phase := .folding }) (still_team team) id fun ended => absurd ended (alive _ _ (still_team team))).trans (.of_still (State.setFrames_still ..))
    · exact letGo_fades s k

theorem retireHandler_still {s : State} {k : Nat} {t : Team} (team : s.team? k = some t) : (retireHandler s k t).still = s.still := by
  unfold retireHandler
  split
  · rfl
  next h _ =>
    have put : (s.putTeam k { t with inv := some { h with settled := true, boxFree := true } }).still = s.still := putTeam_still team rfl
    dsimp only
    split
    · exact put
    · exact (settle_still ..).trans put

theorem teamRetired_fades (s : State) (k : Nat) : Fades s (teamRetired s k) := by
  unfold teamRetired
  split
  · exact Fades.refl s
  next t team =>
    split
    next runs =>
      have still := retireHandler_still team
      have running : (retireHandler s k t).still.teams k = some (.running, t.work) := by rw [still, still_team team, runs.1]
      refine (Fades.of_still still).trans ?_
      dsimp only
      split
      · exact finishTeam_fades fun p w there => by
          rw [running] at there
          cases there
          decide
      · refine Fades.trans ?_ (.of_still (State.setFrames_still ..))
        refine ⟨rfl, rfl, fun i p w now => ?_⟩
        have now : (((retireHandler s k t).modTeam k fun x => { x with phase := .syncing }).team? i).map (fun m => (m.phase, m.work)) = some (p, w) := now
        rw [State.team?_modTeam] at now
        split at now
        next here =>
          rw [here] at now ⊢
          refine ⟨_, _, running, ?_, nofun⟩
          have work : ((retireHandler s k t).team? k).map Team.work = some t.work := by
            have both := congrArg (Option.map Prod.snd) running
            rwa [State.still, Option.map_map] at both
          cases found : (retireHandler s k t).team? k with
          | none => rw [found] at now; cases now
          | some m =>
            rw [found] at now work
            cases now
            exact fun none_ => (Option.some.inj work).trans none_
        · exact ⟨p, w, now, id, id⟩
    · split
      · exact letGo_fades s k
      · exact Fades.refl s

theorem retire_fades (s : State) (k : Nat) : Fades s (retire s k) := by
  unfold retire
  split
  · exact Fades.refl s
  · split
    · exact reapTeam_fades s k
    · exact (Fades.of_still (retireGroups_still s k)).trans (teamRetired_fades ..)

/-! The loss of a die. -/

theorem performBefore_fades (s : State) (id : Nat) : Fades s (performBefore s id) := by
  unfold performBefore
  split
  next a _ =>
    refine Fades.trans (.of_still ?_) (retire_fades ..)
    cases done : performAccess (s.setPend (amDel s.pend id)) a with
    | none => exact report_still ..
    | some t =>
      have still := performAccess_still done
      exact still
  · exact Fades.refl s

theorem loseFrames_fades (s : State) (die : Nat) : ∃ t, Fades s t ∧ loseFrames s die = t.modDie die fun d => { d with pool := [] } := by
  refine ⟨_, ?_, rfl⟩
  refine (fades_foldl _ (fun st f => breakFrame_fades ..) _ s).trans (fades_foldl _ (fun st k => ?_) _ _)
  exact (breakFrame_fades ..).trans (.of_still (State.setFrames_still ..))

theorem loseWork_fades (s : State) (die : Nat) : ∃ t, Fades s t ∧ loseWork s die = t.modDie die fun d => { d with pool := [] } := by
  obtain ⟨t, fades, same⟩ := loseFrames_fades ((((((coresOf s die).flatMap (stakesAt s)).foldl (fun st x => loseStake st x.1 x.2 0x62) s).invs.filter
    fun i => i.2.device.isNone && i.2.arrived.isSome && i.2.die == die).map Prod.fst).foldl loseInvocation
      (((coresOf s die).flatMap (stakesAt s)).foldl (fun st x => loseStake st x.1 x.2 0x62) s)) die
  refine ⟨t, Fades.trans (.of_still ?_) fades, same⟩
  exact (still_foldl _ (fun st x => loseInvocation_still ..) _ _).trans (still_foldl _ (fun st x => loseStake_still ..) _ s)

end Sys2Proof.Machine
end

section
/-! SUPPORT. What an access at a home and a completion leave of all but memory, its caches and its dies; the caches emptied (R230, R236, R416). -/

namespace Sys2Proof.Machine

/-- A state without memory, its caches, monitors, errors and error logs, and the dies. -/
def State.home (s : State) : State :=
  { s with free := 0, mem := [], l2 := [], msc := [], foot := [], mons := [], dies := [], errs := ⟨[], [], []⟩
           sys := { s.sys with ioU := [], logs := [] } }

section
variable (s : State)

@[simp] theorem State.countDie_home (d code n : Nat) : (s.countDie d code n).home = s.home := by
  unfold State.countDie
  split <;> rfl

@[simp] theorem report_home (e : ErrAt) : (report s e).home = s.home := by
  unfold report
  split <;> rfl

@[simp] theorem reportLeaving_home (secs : List Nat) : (reportLeaving s secs).home = s.home :=
  foldl_keeps State.home _ (fun st k => report_home st (.sector k)) _ s

@[simp] theorem recordFootprint_home (line : Nat) (touched : List Nat) : (recordFootprint s line touched).home = s.home := by
  unfold recordFootprint
  dsimp only
  split
  · rfl
  · split <;> rfl

@[simp] theorem dropMsc_home (line : Nat) : (dropMsc s line).home = s.home := by
  unfold dropMsc
  split
  · exact (reportLeaving_home ..).trans (recordFootprint_home ..)
  · rfl

@[simp] theorem allocMsc_home (line : Nat) : (allocMsc s line).home = s.home := by
  unfold allocMsc
  dsimp only
  split
  · rfl
  · split
    · exact dropMsc_home ..
    · rfl

@[simp] theorem touchMsc_home (key cls : Nat) : (touchMsc s key cls).home = s.home := by
  unfold touchMsc
  split
  · rfl
  · exact (allocMsc_home ..).trans (State.countDie_home ..)

@[simp] theorem writebackL2_home (sec : Nat) : (writebackL2 s sec).home = s.home := by
  unfold writebackL2
  split
  · split
    · exact (touchMsc_home ..).trans (reportLeaving_home ..)
    · rfl
  · rfl

@[simp] theorem invalidL2_home (sec : Nat) : (invalidL2 s sec).home = s.home := by
  unfold invalidL2
  split
  · split <;> rfl
  · rfl

@[simp] theorem dropL2_home (line : Nat) : (dropL2 s line).home = s.home := by
  unfold dropL2
  split
  · exact foldl_keeps State.home _ (fun st k => by simp) _ s
  · rfl

@[simp] theorem makeRoom_home (line : Nat) : (makeRoom s line).home = s.home := by
  unfold makeRoom
  split <;> simp

@[simp] theorem touchWrite_home (key e cls n : Nat) : (touchWrite s key e cls n).home = s.home := by
  unfold touchWrite
  dsimp only
  split
  · rfl
  · split
    · rfl
    · split
      · exact touchMsc_home ..
      · split
        · exact (touchMsc_home ..).trans (State.countDie_home ..)
        · refine Eq.trans (b := State.home (if (s.l2Sec (sectorOf key)).isSome then
            s.countDie (keyHome key) (if (s.l2Sec (sectorOf key)).isSome then 0x02 else 0x03) 1 else _)) rfl ?_
          split
          · simp
          · split <;> simp

@[simp] theorem storeAt_home (key e cls : Nat) (bs : List Byte) : (storeAt s key e cls bs).home = s.home := by
  unfold storeAt
  split
  · exact touchWrite_home ..
  · split
    · exact touchWrite_home ..
    · exact report_home ..

@[simp] theorem writePlain_home (addr : Nat) (bs : List Byte) : (writePlain s addr bs).home = s.home := by
  unfold writePlain
  split
  · rfl
  · exact foldl_keeps (fun x : State × List Byte => x.1.home) _ (fun x p => storeAt_home ..) _ (s, bs)

theorem complete_tlb (k : Nat) (tag : W32) (status detail : Nat) (value : W64) : (complete s k tag status detail value).tlb = s.tlb := by
  unfold complete
  dsimp only
  split
  next a _ =>
    have same := congrArg State.tlb (writePlain_home s a (completionBytes tag status detail value))
    exact same
  · rfl

/-! The memory-side caches change without the L2s, and each by what it gives up. -/

theorem report_caches (e : ErrAt) : (report s e).l2 = s.l2 ∧ (report s e).msc = s.msc := by
  unfold report
  split <;> exact ⟨rfl, rfl⟩

theorem reportLeaving_caches (secs : List Nat) : (reportLeaving s secs).l2 = s.l2 ∧ (reportLeaving s secs).msc = s.msc :=
  ⟨foldl_keeps State.l2 _ (fun st k => (report_caches st (.sector k)).1) _ s,
    foldl_keeps State.msc _ (fun st k => (report_caches st (.sector k)).2) _ s⟩

theorem recordFootprint_caches (line : Nat) (touched : List Nat) :
    (recordFootprint s line touched).l2 = s.l2 ∧ (recordFootprint s line touched).msc = s.msc := by
  unfold recordFootprint
  dsimp only
  split
  · exact ⟨rfl, rfl⟩
  · split <;> exact ⟨rfl, rfl⟩

theorem amDel_absent {β : Type} {m : AMap β} {k : Nat} (absent : amGet m k = none) : amDel m k = m := by
  refine List.filter_eq_self.2 fun e mem => ?_
  by_contra here
  have here : e.1 = k := by simpa using here
  have found := List.mem_map_of_mem (f := Prod.fst) mem
  rw [here] at found
  induction m with
  | nil => cases mem
  | cons x m ih =>
    rw [amGet] at absent
    split at absent
    · cases absent
    next other =>
      rcases List.mem_cons.1 mem with rfl | later
      · exact other here.symm
      · exact ih absent later (List.mem_map.2 ⟨e, later, here⟩)

theorem dropMsc_caches (line : Nat) : (dropMsc s line).l2 = s.l2 ∧ (dropMsc s line).msc = amDel s.msc line := by
  unfold dropMsc
  split
  next x _ =>
    have left := reportLeaving_caches (recordFootprint s line x.touched) (amKeys x.secs)
    have noted := recordFootprint_caches s line x.touched
    exact ⟨left.1.trans noted.1, congrArg (amDel · line) (left.2.trans noted.2)⟩
  next none_ => exact ⟨rfl, (amDel_absent none_).symm⟩

theorem allocMsc_l2 (line : Nat) : (allocMsc s line).l2 = s.l2 := by
  unfold allocMsc
  dsimp only
  split
  · rfl
  · split
    · exact (dropMsc_caches ..).1
    · rfl

theorem touchMsc_l2 (key cls : Nat) : (touchMsc s key cls).l2 = s.l2 := by
  unfold touchMsc
  split
  · rfl
  · refine (allocMsc_l2 ..).trans ?_
    unfold State.countDie
    split <;> rfl

/-! The caches emptied. -/

/-- No sector comes into an L2. -/
def NoneCame (s t : State) : Prop := ∀ sec, s.l2Sec sec = none → t.l2Sec sec = none

theorem NoneCame.of_l2 {s t : State} (same : t.l2 = s.l2) : NoneCame s t := fun sec none_ => by rwa [State.l2Sec, same]

theorem writebackL2_noneCame (sec : Nat) : NoneCame s (writebackL2 s sec) := by
  unfold writebackL2
  split
  next l line =>
    split
    next b _ =>
      intro k none_
      have same : (dirtyMsc (touchMsc (reportLeaving s [sec]) (sec * 64) l.cls) sec b).l2 = s.l2 :=
        (touchMsc_l2 (reportLeaving s [sec]) (sec * 64) l.cls).trans (reportLeaving_caches s [sec]).1
      dsimp only
      rw [State.l2Sec, State.setL2_l2, same, amGet_amMod]
      rw [State.l2Sec] at none_
      split
      · cases found : amGet s.l2 (k / 2) with
        | none => rfl
        | some x =>
          rw [found] at none_
          rw [Option.map_some, Option.bind_some, amGet_amMod]
          split
          · rw [show amGet x.secs k = none from none_]; rfl
          · exact none_
      · exact none_
    · exact fun _ => id
  · exact fun _ => id

/-- An invalidated sector is gone, and none comes. -/
theorem invalidL2_noneCame (sec : Nat) : NoneCame s (invalidL2 s sec) ∧ (invalidL2 s sec).l2Sec sec = none := by
  unfold invalidL2
  split
  next l line =>
    split
    next x there =>
      have after (k : Nat) : ((raiseHorizon s (sec * 64) x.stamp).setL2 (if amDel l.secs sec = [] then amDel s.l2 (sec / 2)
          else amPut s.l2 (sec / 2) { l with secs := amDel l.secs sec })).l2Sec k =
          if k / 2 = sec / 2 then amGet (amDel l.secs sec) k else s.l2Sec k := by
        rw [State.l2Sec, State.setL2_l2]
        by_cases here : k / 2 = sec / 2
        · rw [if_pos here, here]
          split
          next empty => rw [amGet_amDel_same, empty]; rfl
          · rw [amGet_amPut_same]; rfl
        · rw [if_neg here]
          split
          · rw [amGet_amDel_other _ _ _ here]; rfl
          · rw [amGet_amPut_other _ _ _ _ here]; rfl
      constructor
      · intro k none_
        refine (after k).trans ?_
        split
        next here =>
          rw [State.l2Sec, here, line] at none_
          by_cases same : k = sec
          · rw [same, amGet_amDel_same]
          · rw [amGet_amDel_other _ _ _ same]; exact none_
        · exact none_
      · refine (after sec).trans ?_
        rw [if_pos rfl, amGet_amDel_same]
    next none_ =>
      refine ⟨fun _ => id, ?_⟩
      rw [State.l2Sec, line]
      exact none_
  next none_ =>
    refine ⟨fun _ => id, ?_⟩
    rw [State.l2Sec, none_]
    rfl

theorem dropStep_noneCame (k : Nat) : NoneCame s (invalidL2 (writebackL2 (reportLeaving s [k]) k) k) ∧
    (invalidL2 (writebackL2 (reportLeaving s [k]) k) k).l2Sec k = none := by
  obtain ⟨came, gone⟩ := invalidL2_noneCame (writebackL2 (reportLeaving s [k]) k) k
  exact ⟨fun sec none_ => came sec (writebackL2_noneCame (reportLeaving s [k]) k sec (NoneCame.of_l2 (reportLeaving_caches s [k]).1 sec none_)), gone⟩

end

/-- A fold whose steps bring no sector in, each of which leaves some out, leaves all of them out. -/
theorem foldl_noneCame {f : State → Nat → State} (out : Nat → Nat → Prop) (step_ : ∀ s k, NoneCame s (f s k) ∧ ∀ sec, out k sec → (f s k).l2Sec sec = none)
    (ks : List Nat) (s : State) {sec : Nat} (gone : s.l2Sec sec = none ∨ ∃ k ∈ ks, out k sec) : (ks.foldl f s).l2Sec sec = none := by
  induction ks generalizing s with
  | nil => exact gone.resolve_right fun ⟨k, mem, _⟩ => absurd mem List.not_mem_nil
  | cons k ks ih =>
    refine ih (f s k) ?_
    rcases gone with none_ | ⟨j, mem, meets⟩
    · exact .inl ((step_ s k).1 sec none_)
    · rcases List.mem_cons.1 mem with rfl | later
      · exact .inl ((step_ s j).2 sec meets)
      · exact .inr ⟨j, later, meets⟩

theorem dropL2_empties (s : State) (line : Nat) : NoneCame s (dropL2 s line) ∧ ∀ sec, line = sec / 2 → (dropL2 s line).l2Sec sec = none := by
  have fold (ks : List Nat) (st : State) (sec : Nat) (gone : st.l2Sec sec = none ∨ ∃ k ∈ ks, k = sec) :
      (ks.foldl (fun st k => invalidL2 (writebackL2 (reportLeaving st [k]) k) k) st).l2Sec sec = none :=
    foldl_noneCame (fun k sec => k = sec) (fun st k => ⟨(dropStep_noneCame st k).1, fun sec same => same ▸ (dropStep_noneCame st k).2⟩) ks st gone
  unfold dropL2
  split
  next l there =>
    refine ⟨fun sec none_ => fold _ s sec (.inl none_), fun sec here => fold _ s sec ?_⟩
    by_cases held : sec ∈ amKeys l.secs
    · exact .inr ⟨sec, held, rfl⟩
    · refine .inl ?_
      rw [State.l2Sec, ← here, there]
      exact amGet_none_of_key held
  next none_ =>
    refine ⟨fun _ => id, fun sec here => ?_⟩
    rw [State.l2Sec, ← here, none_]
    rfl

theorem foldl_dropMsc (ks : List Nat) (s : State) : (ks.foldl dropMsc s).l2 = s.l2 ∧ (ks.foldl dropMsc s).msc = s.msc.filter fun e => !ks.contains e.1 := by
  induction ks generalizing s with
  | nil => exact ⟨rfl, (List.filter_eq_self.2 fun _ _ => rfl).symm⟩
  | cons k ks ih =>
    obtain ⟨l2, msc⟩ := ih (dropMsc s k)
    obtain ⟨l21, msc1⟩ := dropMsc_caches s k
    refine ⟨l2.trans l21, msc.trans ?_⟩
    rw [msc1, amDel, List.filter_filter]
    refine List.filter_congr fun e _ => ?_
    by_cases here : e.1 = k <;> simp [here]

/-- After a flush no cache of a die holds anything (R416). -/
theorem flushCaches_empty (s : State) : (flushCaches s).msc = [] ∧ ∀ sec, (flushCaches s).l2Sec sec = none := by
  unfold flushCaches
  dsimp only
  obtain ⟨l2, msc⟩ := foldl_dropMsc (amKeys ((amKeys s.l2).foldl dropL2 s).msc) ((amKeys s.l2).foldl dropL2 s)
  constructor
  · refine msc.trans (List.filter_eq_nil_iff.2 fun e mem => ?_)
    simpa [amKeys] using ⟨e.2, mem⟩
  · intro sec
    refine NoneCame.of_l2 l2 sec (foldl_noneCame (fun line sec => line = sec / 2) dropL2_empties (amKeys s.l2) s ?_)
    by_cases held : sec / 2 ∈ amKeys s.l2
    · exact .inr ⟨_, held, rfl⟩
    · refine .inl ?_
      rw [State.l2Sec, amGet_none_of_key held]
      rfl

theorem flushCaches_beside (s : State) : Beside s (flushCaches s) :=
  (beside_foldl dropL2 dropL2_beside (amKeys s.l2) s).trans (beside_foldl dropMsc dropMsc_beside _ _)

end Sys2Proof.Machine
end

section
/-! PROOFS. Windows, checkpoints and restores, and die resets by command (R416, R417, R436, R439, R475). -/

namespace Sys2Proof.Machine

/-! A warm reset. -/

theorem mem_of_amGet {β : Type} {m : AMap β} {k : Nat} {x : β} (there : amGet m k = some x) : (k, x) ∈ m := by
  induction m with
  | nil => cases there
  | cons e m ih =>
    obtain ⟨j, y⟩ := e
    rw [amGet] at there
    split at there
    next here => cases there; exact here ▸ List.mem_cons_self
    · exact List.mem_cons_of_mem _ (ih there)

/-- A core that a reset stops (R449). -/
def stopCore (s : State) (c : Nat) : State := s.modCore c fun x => { x with running := false, l1 := [], icache := [] }

theorem stopCores_still (cs : List Nat) (s : State) : (cs.foldl stopCore s).still.dies = s.still.dies ∧ (cs.foldl stopCore s).still.teams = s.still.teams :=
  ⟨foldl_keeps (fun st : State => st.still.dies) stopCore (fun _ _ => rfl) cs s,
    foldl_keeps (fun st : State => st.still.teams) stopCore (fun _ _ => rfl) cs s⟩

theorem stopCores_stops (cs : List Nat) (s : State) {c : Nat} (mem : c ∈ cs) : ((cs.foldl stopCore s).core c).running = false :=
  core_foldl_modCore (ok := fun x => x.running = false) (f := fun _ x => { x with running := false, l1 := [], icache := [] }) (fun _ _ => rfl) cs s
    (.inl mem)

/-- The teams of a list that do no merge work have ended once all of the list are lost. -/
theorem foldl_loseTeam_gone (die : Nat) (ks : List Nat) (s : State) {i : Nat} (less : Workless s i) (listed : i ∈ ks ∨ Gone s i) :
    Gone (ks.foldl (loseTeam die) s) i := by
  induction ks generalizing s with
  | nil => exact listed.resolve_left List.not_mem_nil
  | cons k ks ih =>
    obtain ⟨fade, gone⟩ := loseTeam_fades die s k
    refine ih _ (fade.workless less) ?_
    rcases listed with mem | already
    · rcases List.mem_cons.1 mem with rfl | later
      · exact .inr (gone less)
      · exact .inl later
    · exact .inr (fade.gone already)

/-- Of a die's cores that a core reset stops, none runs; its teams have ended, merge work apart (R449). -/
theorem resetCores_ends (s : State) (die : Nat) : (resetCores s die).still.dies = s.still.dies ∧
    (∀ n, n / 32 = die → n % 32 < (s.die die).built.length → (resetCores s die).still.runs n = false) ∧
    ∀ i m, s.team? i = some m → m.resident = true → m.core / 32 = die → m.work = none → Gone (resetCores s die) i := by
  have fades : Fades s ((residents s die).foldl (loseTeam die) s) := fades_foldl _ (fun st k => (loseTeam_fades die st k).1) _ s
  have lost (i : Nat) (less : Workless s i) (mem : i ∈ residents s die) := foldl_loseTeam_gone die (residents s die) s less (.inl mem)
  have run : resetCores s die = (coresOf ((residents s die).foldl (loseTeam die) s) die).foldl stopCore ((residents s die).foldl (loseTeam die) s) := rfl
  rw [run]
  generalize (residents s die).foldl (loseTeam die) s = a at fades lost
  have built : (a.still.dies die).built = (s.still.dies die).built := by rw [fades.1]
  have built : (a.die die).built = (s.die die).built := built
  obtain ⟨dies, teams⟩ := stopCores_still (coresOf a die) a
  refine ⟨dies.trans fades.1, fun n at_ low => stopCores_stops _ a (mem_coresOf at_ (by rwa [built])), fun i m team resident at_ work => ?_⟩
  have among : i ∈ residents s die := List.mem_map.2 ⟨(i, m), List.mem_filter.2 ⟨mem_of_amGet team, by simp [resident, at_]⟩, rfl⟩
  have less : Workless s i := fun p w there => by
    rw [still_team team] at there
    cases there
    exact work
  exact fun p w there => lost i less among p w (by rwa [teams] at there)

theorem quiesceCairns_still (die : Nat) (ids : List Nat) (s : State) : (ids.foldl (quiesceCairn die) s).still = s.still :=
  still_foldl _ (fun st id => quiesceCairn_still st die id) ids s

/-- After a warm reset of a die it is resetting, its pool empty, its cores stopped and its teams ended (R450). -/
theorem warmReset_ends (s : State) (die : Nat) : ∃ t, warmReset s die = t.modDie die (fun d => { d with st := .resetting }) ∧
    (t.die die).pool = [] ∧ (t.die die).waiters = (s.die die).waiters ∧
    (∀ n, n / 32 = die → n % 32 < (s.die die).built.length → (t.core n).running = false) ∧
    ∀ i m, s.team? i = some m → m.resident = true → m.core / 32 = die → m.work = none → Gone t i := by
  obtain ⟨dies, stopped, ended⟩ := resetCores_ends (logEvent s die (Config.resetChannel die % 115) 7 0xFFFF 0 0) die
  have dies : (resetCores (logEvent s die (Config.resetChannel die % 115) 7 0xFFFF 0 0) die).still.dies = s.still.dies := dies
  unfold warmReset
  generalize resetCores (logEvent s die (Config.resetChannel die % 115) 7 0xFFFF 0 0) die = s1 at dies stopped ended
  have quiet := quiesceCairns_still die (s1.cairns.map Prod.fst) s1
  dsimp only
  generalize (s1.cairns.map Prod.fst).foldl (quiesceCairn die) s1 = s2 at quiet
  have performed : Fades s2 (((s2.pend.filter fun a => !a.2.remote && keyHome a.2.key == die).map Prod.fst).foldl performBefore s2) :=
    fades_foldl performBefore performBefore_fades _ s2
  generalize ((s2.pend.filter fun a => !a.2.remote && keyHome a.2.key == die).map Prod.fst).foldl performBefore s2 = s3 at performed
  obtain ⟨s4, lost, same⟩ := loseWork_fades s3 die
  have fades : Fades s1 s4 := (Fades.of_still quiet).trans (performed.trans lost)
  refine ⟨_, rfl, ?_⟩
  have still : (breakTrees (writeStack (loseWork s3 die) die) true (treeOn die)).still = (s4.modDie die fun d => { d with pool := [] }).still := by
    rw [breakTrees_still, writeStack_still, same]
  generalize breakTrees (writeStack (loseWork s3 die) die) true (treeOn die) = s5 at still
  have at_ : s5.still.dies die = { s4.still.dies die with pool := [] } := by
    rw [still]
    exact congrArg (fun d : Die => { d with slices := [], dev := [], dsel := [], dnow := (0, []) }) ((State.die_modDie s4 die die _).trans (if_pos rfl))
  have before : s4.still.dies die = s.still.dies die := by rw [fades.1, dies]
  rw [before] at at_
  have waiters : (s5.still.dies die).waiters = (s.still.dies die).waiters := by rw [at_]
  refine ⟨congrArg Die.pool at_, waiters, fun n on low => ?_, fun i m team resident on work => ?_⟩
  · have runs : s5.still.runs n = s1.still.runs n := by rw [still]; exact congrFun fades.2.1 n
    exact runs.trans (stopped n on low)
  · have teams : s5.still.teams = s4.still.teams := by rw [still]; rfl
    have gone : Gone s4 i := fades.gone (ended i m team resident on work)
    exact fun p w there => gone p w (by rwa [teams] at there)

/-- The last command of a queue leaves dies, cores and teams. -/
theorem popCmd_still (s : State) (k : Nat) : (popCmd s k).still = s.still := settleBad_still ..

/-! Checkpoints and restores. -/

theorem dropLane_sys (s : State) (g : GRef) (l code sub : Nat) : (dropLane s g l code sub).sys = s.sys := by
  unfold dropLane State.countCore
  split <;> rfl

theorem beginSave_sys (s : State) (k : Nat) : (beginSave s k).sys = s.sys := by
  cases there : s.team? k with
  | none => rw [beginSave, there]
  | some t =>
    rw [beginSave_eq there]
    exact foldl_keeps State.sys (savingAborts k) (fun st i => foldl_keeps State.sys _ (fun u l => dropLane_sys ..) _ st) _ _

theorem stopDevice_sys (s : State) : (stopDevice s).sys = { s.sys with admitting := false } ∧ (stopDevice s).mem = s.mem :=
  ⟨foldl_keeps State.sys _ (fun _ _ => beginSave_sys ..) _ _, foldl_keeps State.mem _ (fun _ _ => beginSave_mem ..) _ _⟩

theorem unsaved_empty {s : State} (saved : ∀ t ∈ s.teams, t.2.resident = false) : unsaved s = [] :=
  List.filter_eq_nil_iff.2 fun t mem => by simp [saved t mem]

/-- Raised stamps of the second tier leave all else (R233). -/
theorem raiseIoStamps_part {β : Type} (s : State) (tb : Nat) (part : State → β) (kept : ∀ s m, part (s.setSys { s.sys with ioU := m }) = part s) :
    part (raiseIoStamps s tb) = part s := by
  unfold raiseIoStamps
  dsimp only
  split
  · split
    · rw [kept, kept]
    · rw [kept]
  · split
    · rw [kept]
    · rfl

/-- Raised stamps over written memory. -/
theorem raiseIoStamps_rest (s : State) (m : Mem) (tb : Nat) : (raiseIoStamps (s.setMem m) tb).msc = s.msc ∧ (raiseIoStamps (s.setMem m) tb).l2 = s.l2 ∧
    (raiseIoStamps (s.setMem m) tb).mem = m ∧ (raiseIoStamps (s.setMem m) tb).sys.admitting = s.sys.admitting ∧
    (raiseIoStamps (s.setMem m) tb).queues = s.queues := by
  refine ⟨?_, ?_, ?_, ?_, ?_⟩
  · rw [raiseIoStamps_part _ tb State.msc fun _ _ => rfl, State.setMem_msc]
  · rw [raiseIoStamps_part _ tb State.l2 fun _ _ => rfl, State.setMem_l2]
  · rw [raiseIoStamps_part _ tb State.mem fun _ _ => rfl, State.setMem_mem]
  · rw [raiseIoStamps_part _ tb (fun s => s.sys.admitting) fun _ _ => rfl, State.setMem_sys]
  · rw [raiseIoStamps_part _ tb State.queues fun _ _ => rfl, State.setMem_queues]

/-- The device keeps the block of a checkpoint (R416). -/
def noteCheckpoint (s : State) (n : Nat) (b : DeviceBlock) : State :=
  s.setSys { s.sys with checkpoints := amPut s.sys.checkpoints n b }

theorem writeCheckpoint_eq (s : State) (tb : Nat) : writeCheckpoint s tb = noteCheckpoint (raiseIoStamps ((flushCaches s).newId.2.setMem
    (memWrite (copyOut (flushCaches s).newId.2.mem tb) (memKey 8 (tb + 2 ^ 40)) (blockBytes (flushCaches s).newId.1))) tb) (flushCaches s).newId.1
    (deviceBlock s) := rfl

theorem savedBytes_eq {f s : State} (mem : f.mem = s.mem) (fresh : f.fresh = s.fresh) (tb : Nat) :
    memWrite (copyOut f.newId.2.mem tb) (memKey 8 (tb + 2 ^ 40)) (blockBytes f.newId.1) =
      memWrite (copyOut s.mem tb) (memKey 8 (tb + 2 ^ 40)) (blockBytes s.fresh) := by
  have memory : f.newId.2.mem = s.mem := mem
  have number : f.newId.1 = s.fresh := fresh
  rw [memory, number]

theorem noteCheckpoint_effect {f s s2 : State} {m : Mem} (msc : f.msc = []) (l2 : ∀ sec, f.l2Sec sec = none)
    (admits : f.sys.admitting = s.sys.admitting) (queues : f.queues = s.queues)
    (raised : s2.msc = f.msc ∧ s2.l2 = f.l2 ∧ s2.mem = m ∧ s2.sys.admitting = f.sys.admitting ∧ s2.queues = f.queues) (n : Nat) (b : DeviceBlock) :
    (noteCheckpoint s2 n b).msc = [] ∧ (∀ sec, (noteCheckpoint s2 n b).l2Sec sec = none) ∧ (noteCheckpoint s2 n b).mem = m ∧
      amGet (noteCheckpoint s2 n b).sys.checkpoints n = some b ∧ (noteCheckpoint s2 n b).sys.admitting = s.sys.admitting ∧
      (noteCheckpoint s2 n b).queues = s.queues := by
  obtain ⟨msc1, l21, mem1, admits1, queues1⟩ := raised
  refine ⟨msc1.trans msc, fun sec => ?_, mem1, amGet_amPut_same .., admits1.trans admits, queues1.trans queues⟩
  rw [State.l2Sec, noteCheckpoint, State.setSys_l2, l21]
  exact l2 sec

/-- A checkpoint writes main memory and the device's state to the second tier; no cache keeps anything (R416). -/
theorem writeCheckpoint_effect (s : State) (tb : Nat) : (writeCheckpoint s tb).msc = [] ∧ (∀ sec, (writeCheckpoint s tb).l2Sec sec = none) ∧
    (writeCheckpoint s tb).mem = memWrite (copyOut s.mem tb) (memKey 8 (tb + 2 ^ 40)) (blockBytes s.fresh) ∧
    amGet (writeCheckpoint s tb).sys.checkpoints s.fresh = some (deviceBlock s) ∧ (writeCheckpoint s tb).sys.admitting = s.sys.admitting ∧
    (writeCheckpoint s tb).queues = s.queues := by
  obtain ⟨msc, l2⟩ := flushCaches_empty s
  obtain ⟨-, mem, outer, -⟩ := flushCaches_beside s
  have fresh : (flushCaches s).fresh = s.fresh := outer_part State.fresh (fun _ => rfl) outer
  have queues : (flushCaches s).queues = s.queues := outer_part State.queues (fun _ => rfl) outer
  have admits : (flushCaches s).sys.admitting = s.sys.admitting := outer_part (fun s => s.sys.admitting) (fun _ => rfl) outer
  have number : (flushCaches s).newId.1 = s.fresh := fresh
  rw [writeCheckpoint_eq, savedBytes_eq mem fresh, number]
  exact noteCheckpoint_effect (f := (flushCaches s).newId.2) msc l2 admits queues (raiseIoStamps_rest ..) s.fresh (deviceBlock s)

theorem raiseAll_part {β : Type} (ds : List Nat) (s : State) (part : State → β) (kept : ∀ s m, part (s.setDies m) = part s) :
    part (ds.foldl raiseHorizons s) = part s :=
  foldl_keeps part raiseHorizons (fun st _ => foldl_keeps part _ (fun u _ => kept u _) (List.range 16) st) ds s

theorem restoreBlock_rest (s : State) (b : DeviceBlock) : (restoreBlock s b).mem = s.mem ∧ (restoreBlock s b).l2 = s.l2 ∧ (restoreBlock s b).msc = s.msc ∧
    (restoreBlock s b).tlb = s.tlb ∧ (restoreBlock s b).queues = s.queues ∧ (restoreBlock s b).frames = b.frames ∧ (restoreBlock s b).ctxs = b.ctxs :=
  ⟨by simp [restoreBlock], by simp [restoreBlock], by simp [restoreBlock], by simp [restoreBlock], by simp [restoreBlock],
    by simp [restoreBlock], by simp [restoreBlock]⟩

/-- A restore takes memory and the device's state back, its caches empty (R417). -/
theorem readCheckpoint_effect (s : State) (tb : Nat) : (readCheckpoint s tb).mem = copyIn s.mem tb ∧ (readCheckpoint s tb).l2 = [] ∧
    (readCheckpoint s tb).msc = [] ∧ (readCheckpoint s tb).tlb = [] ∧ (readCheckpoint s tb).queues = s.queues ∧
    ∀ b, blockAt s (tb + 2 ^ 40) = some b → (readCheckpoint s tb).frames = b.frames ∧ (readCheckpoint s tb).ctxs = b.ctxs := by
  unfold readCheckpoint
  dsimp only
  rw [raiseAll_part _ _ State.mem fun _ _ => rfl, raiseAll_part _ _ State.l2 fun _ _ => rfl, raiseAll_part _ _ State.msc fun _ _ => rfl,
    raiseAll_part _ _ State.tlb fun _ _ => rfl, raiseAll_part _ _ State.queues fun _ _ => rfl, raiseAll_part _ _ State.frames fun _ _ => rfl,
    raiseAll_part _ _ State.ctxs fun _ _ => rfl]
  split
  next b found =>
    obtain ⟨mem, l2, msc, tlb, queues, frames, ctxs⟩ := restoreBlock_rest ((((s.setMem (copyIn s.mem tb)).setL2 []).setMsc []).setTlb []) b
    refine ⟨mem, l2, msc, tlb, queues, fun x same => ?_⟩
    obtain rfl := Option.some.inj (found.symm.trans same)
    exact ⟨frames, ctxs⟩
  next none_ => exact ⟨rfl, rfl, rfl, rfl, rfl, fun x same => by rw [none_] at same; cases same⟩

theorem finishCmd_tlb {s : State} {k : Nat} {q : Queue} {c : Cmd} (there : amGet s.queues k = some q) (last : q.cmds = [c]) (x : Cmd)
    (status detail : Nat) (value : W64) : (finishCmd s k x status detail value).tlb = s.tlb := by
  have now : amGet (complete s k x.tag status detail value).queues k = some { q with done := q.done ++ [(x.tag, status, detail, value)] } := by
    rw [complete_queue, there, Option.map_some]
  rw [finishCmd, popCmd_alone now (by rw [last]; rfl)]
  exact complete_tlb ..

theorem resumeDevice_rest (s : State) : (resumeDevice s).mem = s.mem ∧ (resumeDevice s).l2 = s.l2 ∧ (resumeDevice s).msc = s.msc ∧
    (resumeDevice s).tlb = s.tlb ∧ (resumeDevice s).queues = s.queues ∧ (resumeDevice s).frames = s.frames ∧ (resumeDevice s).ctxs = s.ctxs ∧
    (resumeDevice s).sys = { s.sys with admitting := true } := ⟨rfl, rfl, rfl, rfl, rfl, rfl, rfl, rfl⟩

section
variable {s : State} {k : Nat} {q : Queue} {c : Cmd}

theorem execCheckpoint_writes (there : amGet s.queues k = some q) (last : q.cmds = [c]) (head : headCmd s k 5 = some c)
    (stopped : s.sys.admitting = false) (saved : ∀ t ∈ s.teams, t.2.resident = false) (ended : workEnded s = true) :
    ∃ u q1, exec (.checkpoint k) s = .next u ∧
      (q.ring = none → u.msc = [] ∧ (∀ sec, u.l2Sec sec = none) ∧
        u.mem = memWrite (copyOut s.mem c.arg0.toNat) (memKey 8 (c.arg0.toNat + 2 ^ 40)) (blockBytes s.fresh)) ∧
      amGet u.sys.checkpoints s.fresh = some (deviceBlock s) ∧ u.sys.admitting = c.arg1.getLsbD 0 ∧
      amGet u.queues k = some q1 ∧ q1.done = q.done ++ [(c.tag, 0, 0, 0)] := by
  obtain ⟨msc, l2, mem, block, admits, queues⟩ := writeCheckpoint_effect s c.arg0.toNat
  have run : execCheckpoint k s = .next (finishCmd (if c.arg1.getLsbD 0 then resumeDevice (writeCheckpoint s c.arg0.toNat)
      else writeCheckpoint s c.arg0.toNat) k c 0 0 0) := by
    rw [execCheckpoint, head]
    simp [stopped, unsaved_empty saved, ended]
  generalize writeCheckpoint s c.arg0.toNat = w at msc l2 mem block admits queues run
  obtain ⟨mem1, l21, msc1, -, queues1, -, -, sys1⟩ := resumeDevice_rest w
  let v := if c.arg1.getLsbD 0 then resumeDevice w else w
  obtain ⟨vMsc, vL2, vMem, vBlock, vAdmits, vQueues⟩ : v.msc = [] ∧ v.l2 = w.l2 ∧ v.mem = w.mem ∧
      amGet v.sys.checkpoints s.fresh = some (deviceBlock s) ∧ v.sys.admitting = c.arg1.getLsbD 0 ∧ v.queues = w.queues := by
    dsimp only [v]
    split
    next resumes => exact ⟨msc1.trans msc, l21, mem1, by rw [sys1]; exact block, by rw [sys1, resumes], queues1⟩
    next stays => exact ⟨msc, rfl, rfl, block, by rw [admits, stopped, Bool.eq_false_iff.2 stays], rfl⟩
  have now : amGet v.queues k = some q := by rw [vQueues, queues, there]
  refine ⟨finishCmd v k c 0 0 0, _, run, fun ringless => ?_, ?_, ?_, finishCmd_queue now last c 0 0 0, rfl⟩
  · obtain ⟨m, same⟩ := finishCmd_ringless now last ringless c 0 0 0
    rw [same]
    refine ⟨vMsc, fun sec => ?_, vMem.trans mem⟩
    rw [State.l2Sec, State.setQueues_l2, vL2]
    exact l2 sec
  · rw [finishCmd_part now last c 0 0 0 (fun s => s.sys.checkpoints) (fun _ => rfl) fun _ _ => rfl]
    exact vBlock
  · rw [finishCmd_part now last c 0 0 0 (fun s => s.sys.admitting) (fun _ => rfl) fun _ _ => rfl]
    exact vAdmits

theorem execRestore_runs (head : headCmd s k 6 = some c) (stopped : s.sys.admitting = false)
    (goes : (workEnded s && (unsaved s).all fun t => t.2.kind != .merge) = true) :
    execRestore k s = .next (finishCmd (resumeDevice (readCheckpoint s c.arg0.toNat)) k c 0 0 0) := by
  rw [execRestore, head]
  exact congrArg Host.Outcome.next ((if_neg (Bool.eq_false_iff.1 stopped)).trans (if_pos goes))

theorem execRestore_takes (there : amGet s.queues k = some q) (last : q.cmds = [c]) (head : headCmd s k 6 = some c)
    (stopped : s.sys.admitting = false) (merges : ∀ t ∈ s.teams, t.2.kind ≠ .merge) (ended : workEnded s = true) :
    ∃ u, exec (.restore k) s = .next u ∧ (q.ring = none → u.mem = copyIn s.mem c.arg0.toNat ∧ u.l2 = [] ∧ u.msc = []) ∧
      u.tlb = [] ∧ u.sys.admitting = true ∧
      ∀ b, blockAt s (c.arg0.toNat + 2 ^ 40) = some b → u.frames = b.frames ∧ u.ctxs = b.ctxs := by
  obtain ⟨mem, l2, msc, tlb, queues, block⟩ := readCheckpoint_effect s c.arg0.toNat
  have noMerge : (unsaved s).all (fun t => t.2.kind != .merge) = true :=
    List.all_eq_true.2 fun t inside => by simpa using merges t (List.mem_filter.1 inside).1
  have run := execRestore_runs head stopped (Bool.and_eq_true_iff.2 ⟨ended, noMerge⟩)
  generalize readCheckpoint s c.arg0.toNat = w at mem l2 msc tlb queues block run
  obtain ⟨mem1, l21, msc1, tlb1, queues1, frames1, ctxs1, sys1⟩ := resumeDevice_rest w
  have now : amGet (resumeDevice w).queues k = some q := by rw [queues1, queues, there]
  refine ⟨finishCmd (resumeDevice w) k c 0 0 0, run, fun ringless => ?_, ?_, ?_, fun b found => ⟨?_, ?_⟩⟩
  · obtain ⟨m, same⟩ := finishCmd_ringless now last ringless c 0 0 0
    rw [same]
    rw [State.setQueues_mem, State.setQueues_l2, State.setQueues_msc, mem1, l21, msc1]
    exact ⟨mem, l2, msc⟩
  · rw [finishCmd_tlb now last, tlb1, tlb]
  · rw [finishCmd_part now last c 0 0 0 (fun s => s.sys.admitting) (fun _ => rfl) fun _ _ => rfl, sys1]
  · rw [finishCmd_part now last c 0 0 0 State.frames (fun _ => rfl) fun _ _ => rfl, frames1, (block b found).1]
  · rw [finishCmd_part now last c 0 0 0 State.ctxs (fun _ => rfl) fun _ _ => rfl, ctxs1, (block b found).2]

theorem still_st (s : State) (d : Nat) : (s.die d).st = (s.still.dies d).st := rfl
theorem still_waiters_of (s : State) (d : Nat) : (s.die d).waiters = (s.still.dies d).waiters := rfl
theorem still_pool (s : State) (d : Nat) : (s.die d).pool = (s.still.dies d).pool := rfl
theorem still_runs (s : State) (n : Nat) : (s.core n).running = s.still.runs n := rfl

/-- A reset by command of a die in service (R475). -/
theorem execDieReset_starts (head : headCmd s k 7 = some c) (up : s.dieUp c.arg0.toNat = true) :
    ∃ u, exec (.dieReset k) s = .next u ∧ (u.die c.arg0.toNat).st = .resetting ∧
      (u.die c.arg0.toNat).waiters = (s.die c.arg0.toNat).waiters ++ [(k, c.tag)] ∧ (u.die c.arg0.toNat).pool = [] ∧
      (∀ n, n / 32 = c.arg0.toNat → n % 32 < (s.die c.arg0.toNat).built.length → (u.core n).running = false) ∧
      ∀ i m, s.team? i = some m → m.resident = true → m.core / 32 = c.arg0.toNat → m.work = none →
        u.team? i = none ∨ ∃ m1, u.team? i = some m1 ∧ m1.phase = .ended := by
  obtain ⟨t, reset, pool, waiters, stopped, gone⟩ := warmReset_ends s c.arg0.toNat
  let v := (warmReset s c.arg0.toNat).modDie c.arg0.toNat fun d => { d with waiters := d.waiters ++ [(k, c.tag)] }
  have at_ : v.die c.arg0.toNat = { t.die c.arg0.toNat with st := .resetting, waiters := (t.die c.arg0.toNat).waiters ++ [(k, c.tag)] } := by
    rw [State.die_modDie, if_pos rfl, reset, State.die_modDie, if_pos rfl]
  have still : (popCmd v k).still = v.still := popCmd_still ..
  have dies : (popCmd v k).still.dies c.arg0.toNat = v.still.dies c.arg0.toNat := by rw [still]
  have vDie : v.still.dies c.arg0.toNat = { v.die c.arg0.toNat with slices := [], dev := [], dsel := [], dnow := (0, []) } := rfl
  rw [vDie, at_] at dies
  have same : v.still.runs = t.still.runs ∧ v.still.teams = t.still.teams := by
    dsimp only [v]
    rw [reset]
    exact ⟨rfl, rfl⟩
  refine ⟨popCmd v k, ?_, ?_, ?_, ?_, fun n on low => ?_, fun i m team resident on work => ?_⟩
  · show Host.Outcome.next _ = _
    rw [head]
    simp only [up, if_true]
    rfl
  · rw [still_st, dies]
  · rw [still_waiters_of, dies, ← waiters]
  · rw [still_pool, dies, ← pool]
  · rw [still_runs, still, same.1]
    exact stopped n on low
  · cases found : (popCmd v k).team? i with
    | none => exact .inl rfl
    | some m1 =>
      have now := still_team found
      rw [still, same.2] at now
      exact .inr ⟨m1, rfl, gone i m team resident on work _ _ now⟩

end

/-- Settles O46: a command is followed by the end of its queue; a flush leaves no sector in a cache; and nothing that a warm reset does brings
back a team that it has ended. -/
theorem deviceCommands : Obligations.DeviceCommands := by
  unfold Obligations.DeviceCommands
  intro s k q c there last stage
  refine ⟨fun n x head bound => ?window, fun head admits saved => ?stop, fun head stopped saved ended => execCheckpoint_writes there last head stopped saved ended,
    fun head stopped merges ended => execRestore_takes there last head stopped merges ended, fun head up => ?reset, fun head resetting => ?wait⟩
  case window =>
    let d := c.arg0.toNat
    let p := amGetD s.sys.peers d { present := false, lost := false, lastFlit := 0, entry := none }
    let s1 := s.setSys { s.sys with
      peers := amPut s.sys.peers d { p with entry := some (n, windowBase c.arg1, 2 ^ windowLog c.arg1) }
      access := amPut s.sys.access (131 * 65536 + 0x1000 + d) 7 }
    have run : exec (.exportWindow k) s = .next (finishCmd s1 k c 0 0 0) := by
      show Host.Outcome.next _ = _
      rw [head, bound]
    refine ⟨finishCmd s1 k c 0 0 0, run, ?_⟩
    rw [finishCmd_part (s := s1) there last c 0 0 0 (fun s => s.sys.peers) (fun _ => rfl) fun _ _ => rfl]
    exact congrArg (Option.bind · Peer.entry) (amGet_amPut_same ..)
  case stop =>
    obtain ⟨sys, mem⟩ := stopDevice_sys s
    refine ⟨stopDevice s, ?_, by rw [sys], mem⟩
    show Host.Outcome.next _ = _
    rw [head]
    simp only [admits, if_true]
  case reset =>
    intro d
    exact execDieReset_starts head up
  case wait =>
    have down : s.dieUp c.arg0.toNat = false := by rw [State.dieUp, resetting]; rfl
    let v := s.modDie c.arg0.toNat fun d => { d with waiters := d.waiters ++ [(k, c.tag)] }
    have after : popCmd v k = v.setQueues (amMod v.queues k fun q => { q with cmds := q.cmds.drop 1 }) := popCmd_alone (s := v) there (by rw [last]; rfl)
    refine ⟨popCmd v k, ?_, ?_, ?_⟩
    · show Host.Outcome.next _ = _
      rw [head]
      simp only [down, resetting, Bool.false_eq_true, if_false, reduceCtorEq]
      rfl
    · rw [after]
      have at_ : v.die c.arg0.toNat = { s.die c.arg0.toNat with waiters := (s.die c.arg0.toNat).waiters ++ [(k, c.tag)] } :=
        (State.die_modDie ..).trans (if_pos rfl)
      exact congrArg Die.waiters at_
    · rw [after]
      rfl

end Sys2Proof.Machine
end

section
/-! SUPPORT. An access reads of the teams only which core each is on: what the caches, the walks and the translation of an access do
commutes with any change of the teams that keeps their cores (R226 to R272). -/

namespace Sys2Proof.Machine

/-- Two tables of teams that place each team on the same core. -/
def Alike (a b : AMap Team) : Prop := ∀ k, (amGet b k).map Team.core = (amGet a k).map Team.core

section
variable (s : State) (ts : AMap Team)

theorem State.countDie_setTeams (d code n : Nat) : (s.setTeams ts).countDie d code n = (s.countDie d code n).setTeams ts := by
  unfold State.countDie
  rw [apply_ite (fun u : State => u.setTeams ts)]
  rfl

theorem logEvent_setTeams (log chan kind asid cause addr : Nat) :
    logEvent (s.setTeams ts) log chan kind asid cause addr = (logEvent s log chan kind asid cause addr).setTeams ts := rfl

theorem logDenial_setTeams (target asid cause key : Nat) :
    logDenial (s.setTeams ts) target asid cause key = (logDenial s target asid cause key).setTeams ts := by
  unfold logDenial
  rw [logEvent_setTeams, logEvent_setTeams, State.countDie_setTeams, apply_ite (fun u : State => u.setTeams ts)]

theorem report_sector_setTeams (sec : Nat) : report (s.setTeams ts) (.sector sec) = (report s (.sector sec)).setTeams ts := by
  unfold report
  rw [apply_ite (fun u : State => u.setTeams ts)]
  rfl

/-- What commutes with the teams at each step of a fold does so for the whole fold. -/
theorem setTeams_foldl {β : Type*} (f : State → β → State) (h : ∀ u b, f (u.setTeams ts) b = (f u b).setTeams ts) (l : List β) :
    l.foldl f (s.setTeams ts) = (l.foldl f s).setTeams ts := by
  induction l generalizing s with
  | nil => rfl
  | cons b l ih => rw [List.foldl_cons, h, ih, List.foldl_cons]

theorem reportLeaving_setTeams (secs : List Nat) : reportLeaving (s.setTeams ts) secs = (reportLeaving s secs).setTeams ts :=
  setTeams_foldl s ts _ (fun u _ => report_sector_setTeams u ts _) _

theorem recordFootprint_setTeams (line : Nat) (touched : List Nat) :
    recordFootprint (s.setTeams ts) line touched = (recordFootprint s line touched).setTeams ts := by
  simp only [recordFootprint, apply_ite (fun u : State => u.setTeams ts)]
  rfl

theorem raiseHorizon_setTeams (key st : Nat) : raiseHorizon (s.setTeams ts) key st = (raiseHorizon s key st).setTeams ts := rfl

theorem dropMsc_setTeams (line : Nat) : dropMsc (s.setTeams ts) line = (dropMsc s line).setTeams ts := by
  unfold dropMsc
  rw [show (s.setTeams ts).msc = s.msc from rfl]
  split
  · rw [recordFootprint_setTeams, reportLeaving_setTeams]
    rfl
  · rfl

theorem dirtyMsc_setTeams (sec : Nat) (dram : List Byte) : dirtyMsc (s.setTeams ts) sec dram = (dirtyMsc s sec dram).setTeams ts := rfl

theorem putL2_setTeams (sec cls : Nat) (x : L2Sec) : putL2 (s.setTeams ts) sec cls x = (putL2 s sec cls x).setTeams ts := rfl

theorem invalidL2_setTeams (sec : Nat) : invalidL2 (s.setTeams ts) sec = (invalidL2 s sec).setTeams ts := by
  unfold invalidL2
  rw [show (s.setTeams ts).l2 = s.l2 from rfl]
  split
  · split
    · rfl
    · rfl
  · rfl

theorem tlbPut_setTeams (loc k : Nat) (e : W64) : tlbPut (s.setTeams ts) loc k e = (tlbPut s loc k e).setTeams ts := by
  unfold tlbPut
  rw [show (s.setTeams ts).tlb = s.tlb from rfl]
  dsimp only
  split
  · rfl
  · rfl

theorem walkFrom_setTeams (stop : Nat → Bool) (asid home va level die node : Nat) (seen : List (Nat × W64)) (read : List Nat) :
    walkFrom (s.setTeams ts) stop asid home va level die node seen read = walkFrom s stop asid home va level die node seen read := by
  induction level generalizing die node seen read with
  | zero => rfl
  | succ l ih =>
    unfold walkFrom
    simp only [ih]
    rfl

theorem lookLeaf_setTeams (stop : Nat → Bool) (core asid home va : Nat) :
    lookLeaf (s.setTeams ts) stop core asid home va = lookLeaf s stop core asid home va := by
  unfold lookLeaf walk
  simp only [walkFrom_setTeams]
  rfl

theorem plainKey_setTeams (core asid va : Nat) : plainKey (s.setTeams ts) core asid va = plainKey s core asid va := by
  unfold plainKey
  simp only [lookLeaf_setTeams]

end

section
variable {s : State} {ts : AMap Team} (alike : Alike s.teams ts)

theorem Alike.of_teams {u : State} (alike : Alike s.teams ts) (same : u.teams = s.teams) : Alike u.teams ts := same ▸ alike

include alike

theorem busyKey_alike (o : Op) (va : Nat) : o.busyKey (s.setTeams ts) va = o.busyKey s va := by
  unfold Op.busyKey
  rw [plainKey_setTeams, show ((s.setTeams ts).team? o.g.team).map Team.core = (s.team? o.g.team).map Team.core from alike _]

theorem busySectors_alike (o : Op) : o.busySectors (s.setTeams ts) = o.busySectors s := by
  unfold Op.busySectors
  simp only [busyKey_alike alike]

theorem busySector_alike (sec : Nat) : busySector (s.setTeams ts) sec = busySector s sec := by
  unfold busySector
  simp only [busySectors_alike alike]
  rfl

theorem busyLine_alike (line n : Nat) : busyLine (s.setTeams ts) line n = busyLine s line n := by
  unfold busyLine
  rw [funext (busySector_alike alike)]

theorem l2Room_alike (line : Nat) : l2Room (s.setTeams ts) line = l2Room s line := by
  unfold l2Room
  simp only [busyLine_alike alike]
  rfl

theorem mscRoom_alike (line : Nat) : mscRoom (s.setTeams ts) line = mscRoom s line := by
  unfold mscRoom
  simp only [busyLine_alike alike]
  rfl

theorem hasRoom_alike (key e : Nat) : hasRoom (s.setTeams ts) key e = hasRoom s key e := by
  unfold hasRoom l2Ready backReady
  simp only [l2Room_alike alike, mscRoom_alike alike]
  rfl

theorem heldUp_alike (key e : Nat) : heldUp (s.setTeams ts) key e = heldUp s key e := by
  unfold heldUp
  rw [hasRoom_alike alike]
  rfl

theorem allocMsc_alike (line : Nat) : allocMsc (s.setTeams ts) line = (allocMsc s line).setTeams ts := by
  unfold allocMsc
  simp only [mscRoom_alike alike, dropMsc_setTeams, apply_ite (fun u : State => u.setTeams ts)]
  cases mscRoom s line <;> rfl

theorem touchMsc_alike (key cls : Nat) : touchMsc (s.setTeams ts) key cls = (touchMsc s key cls).setTeams ts := by
  have alloc (d c n k : Nat) : allocMsc ((s.setTeams ts).countDie d c n) k = (allocMsc (s.countDie d c n) k).setTeams ts := by
    rw [State.countDie_setTeams, allocMsc_alike (alike.of_teams (State.countDie_beside ..).1)]
  unfold touchMsc
  simp only [alloc, apply_ite (fun u : State => u.setTeams ts)]
  rfl

theorem writebackL2_alike (sec : Nat) : writebackL2 (s.setTeams ts) sec = (writebackL2 s sec).setTeams ts := by
  unfold writebackL2
  rw [show (s.setTeams ts).l2 = s.l2 from rfl]
  split
  · split
    · rw [reportLeaving_setTeams, touchMsc_alike (alike.of_teams (reportLeaving_beside ..).1), dirtyMsc_setTeams]
      rfl
    · rfl
  · rfl

omit alike in
/-- A fold whose steps keep the teams, and commute with tables alike, commutes with them. -/
theorem alike_foldl {β : Type*} (f : State → β → State) (kept : ∀ u b, (f u b).teams = u.teams)
    (h : ∀ u b, Alike u.teams ts → f (u.setTeams ts) b = (f u b).setTeams ts) (l : List β) (s : State) (alike : Alike s.teams ts) :
    l.foldl f (s.setTeams ts) = (l.foldl f s).setTeams ts := by
  induction l generalizing s with
  | nil => rfl
  | cons b l ih => rw [List.foldl_cons, h s b alike, ih _ (alike.of_teams (kept s b)), List.foldl_cons]

theorem dropL2_alike (line : Nat) : dropL2 (s.setTeams ts) line = (dropL2 s line).setTeams ts := by
  unfold dropL2
  rw [show (s.setTeams ts).l2 = s.l2 from rfl]
  split
  · refine alike_foldl (fun st k => invalidL2 (writebackL2 (reportLeaving st [k]) k) k) (fun u k => ?_) (fun u k alike => ?_) _ s alike
    · rw [(invalidL2_beside ..).1, (writebackL2_beside ..).1, (reportLeaving_beside ..).1]
    · rw [reportLeaving_setTeams, writebackL2_alike (alike.of_teams (reportLeaving_beside ..).1), invalidL2_setTeams]
  · rfl

theorem makeRoom_alike (line : Nat) : makeRoom (s.setTeams ts) line = (makeRoom s line).setTeams ts := by
  unfold makeRoom
  rw [l2Room_alike alike]
  split
  · exact dropL2_alike alike _
  · rfl

theorem touchRead_alike (key e cls : Nat) : touchRead (s.setTeams ts) key e cls = (touchRead s key e cls).setTeams ts := by
  have counted (d c n : Nat) : Alike (s.countDie d c n).teams ts := alike.of_teams (State.countDie_beside ..).1
  unfold touchRead
  simp only [show (s.setTeams ts).l2Sec (sectorOf key) = s.l2Sec (sectorOf key) from rfl, State.countDie_setTeams, touchMsc_alike alike, touchMsc_alike (counted _ _ _), makeRoom_alike (counted _ _ _),
    touchMsc_alike ((counted _ _ _).of_teams (makeRoom_beside ..).1), l2Room_alike alike]
  split
  · rfl
  split
  · rfl
  split
  · rfl
  · split
    · rfl
    · rfl

theorem findLeaf_alike (core asid home va : Nat) :
    findLeaf (s.setTeams ts) core asid home va = Prod.map id (State.setTeams · ts) (findLeaf s core asid home va) := by
  have stops : (fun k => heldUp (s.setTeams ts) k 0) = fun k => heldUp s k 0 := funext fun k => heldUp_alike alike k 0
  have reads (l : List Nat) : l.foldl (fun st k => touchRead st k 0 0) (s.setTeams ts) =
      (l.foldl (fun st k => touchRead st k 0 0) s).setTeams ts :=
    alike_foldl _ (fun u k => (touchRead_beside u k 0 0).1) (fun u k alike => touchRead_alike alike k 0 0) l s alike
  have puts (loc : Nat) (l : List (Nat × W64)) (u : State) : l.foldl (fun st x => tlbPut st loc x.1 x.2) (u.setTeams ts) =
      (l.foldl (fun st x => tlbPut st loc x.1 x.2) u).setTeams ts := setTeams_foldl u ts _ (fun u x => tlbPut_setTeams u ts ..) l
  unfold findLeaf
  simp only [stops, lookLeaf_setTeams, reads, puts, tlbPut_setTeams]
  split
  · rfl
  · split
    · rfl
    · rfl

theorem xlateLocal_alike (core asid : Nat) (priv : Bool) (n : AccessNeed) (va : Nat) :
    xlateLocal (s.setTeams ts) core asid priv n va = Prod.map id (State.setTeams · ts) (xlateLocal s core asid priv n va) := by
  unfold xlateLocal
  simp only [findLeaf_alike alike, Prod.map_fst, Prod.map_snd, id, logDenial_setTeams,
    show ∀ t, missingAccess (s.setTeams ts) n t = missingAccess s n t from fun _ => rfl,
    show ∀ d, (s.setTeams ts).dieUp d = s.dieUp d from fun _ => rfl]
  split
  · rfl
  split
  · rfl
  split
  · rfl
  split
  · rfl
  split
  · rfl
  split
  · rfl
  · rfl

omit alike in
theorem countGone_setTeams (core : Nat) (r : XOut × State) :
    countGone core (Prod.map id (State.setTeams · ts) r) = Prod.map id (State.setTeams · ts) (countGone core r) := by
  obtain ⟨x, u⟩ := r
  cases x with
  | fault c =>
    simp only [countGone, Prod.map_apply, id, State.countDie_setTeams]
    split
    · rfl
    · rfl
  | absent => rfl
  | ok key e => rfl

theorem xlate_alike (core asid : Nat) (priv : Bool) (n : AccessNeed) (va : Nat) :
    xlate (s.setTeams ts) core asid priv n va = Prod.map id (State.setTeams · ts) (xlate s core asid priv n va) := by
  unfold xlate
  rw [← countGone_setTeams, xlateLocal_alike alike]
  refine congrArg (countGone core) ?_
  simp only [apply_ite (Prod.map id (State.setTeams · ts)), show (s.setTeams ts).sys = s.sys from rfl]
  split
  · rfl
  split
  · split
    · rfl
    split
    · rfl
    split
    · rfl
    · cases amGet s.sys.peers (peerOf va) with
      | none => rfl
      | some p =>
        dsimp only
        split <;> rfl
  · rfl

/-- How the translation of a range comes out: its fault, if any. -/
theorem xlateAll_alike (core asid : Nat) (priv : Bool) (need : AccessNeed) (ps : List (Nat × Nat)) :
    xlateAll core asid priv need ps (s.setTeams ts) =
      ((xlateAll core asid priv need ps s).mapError (Prod.map id (State.setTeams · ts))).map (Prod.map id (State.setTeams · ts)) := by
  induction ps generalizing s with
  | nil => rfl
  | cons p ps ih =>
    obtain ⟨va, n⟩ := p
    have kept := (xlate_beside s core asid priv need va).1
    unfold xlateAll
    rw [xlate_alike alike]
    generalize xlate s core asid priv need va = r at kept
    obtain ⟨x, u⟩ := r
    cases x with
    | fault c => rfl
    | absent => rfl
    | ok key e =>
      have alike1 : Alike u.teams ts := alike.of_teams kept
      simp only [Prod.map_apply, id, heldUp_alike alike1, ih alike1]
      split
      · rfl
      · cases xlateAll core asid priv need ps u <;> rfl

theorem rangeWaits_alike (core asid : Nat) (priv : Bool) (need : AccessNeed) (va n : Nat) :
    rangeWaits (s.setTeams ts) core asid priv need va n = rangeWaits s core asid priv need va n := by
  unfold rangeWaits
  rw [xlateAll_alike alike]
  cases xlateAll core asid priv need (pieces va n) s <;> rfl

end

/-- What a group's change keeps of the places of the teams. -/
theorem modGroup_alike (s : State) (g : GRef) (f : Group → Group) : Alike s.teams (s.modGroup g f).teams := fun k =>
  State.team?_map_modGroup s g f k Team.core (fun _ _ => rfl)

end Sys2Proof.Machine
end

section
/-! PROOFS. Trap entry after the drain, held faults and the handler's watchdog (R395, R401, R405). -/

namespace Sys2Proof.Machine

/-- Where a trap of a group can be taken, taking it gives the state in which the handler starts. -/
theorem takeTrap_takes {s t : State} {g : GRef} {i : TrapInfo} (h : Takes s g i t) : takeTrap s g i = t := by
  obtain ⟨team, gr, c, s1, h1, h2, -, -, -, -, h7, h8, h9, rfl⟩ := h
  simp [takeTrap, h1, h2, h7, h8, h9]

theorem Takes.enterable {s t : State} {g : GRef} {gr : Group} {m : Team} {i : TrapInfo} (h : Takes s g i t) (group : s.group? g = some gr)
    (team : s.team? g.team = some m) (live : m.phase ≠ .ended) : enterable s g gr = true := by
  obtain ⟨m', gr', -, -, h1, h2, h3, h4, h5, h6, -, -, -, -⟩ := h
  rw [team] at h1
  rw [group] at h2
  obtain rfl := Option.some.inj h1
  obtain rfl := Option.some.inj h2
  simp [Machine.enterable, entryReady, team, live, h3, h4, h5, h6]

/-- Whether a group's trap frame has to wait depends on its place and its ASID alone. -/
theorem frameLocked_modGroup {s : State} {g : GRef} {gr : Group} (group : s.group? g = some gr) {f : Group → Group}
    (ctl : (f gr).ctl = gr.ctl) (slot : (f gr).slot = gr.slot) : frameLocked (s.modGroup g f) g = frameLocked s g := by
  have placed (c : Ctx) (m : Team) : frameAddrOf c { m with groups := modNth m.groups g.ix f } (f gr) = frameAddrOf c m gr := by
    unfold frameAddrOf
    rw [slot]
  have waits (core asid va : Nat) : rangeWaits (s.modGroup g f) core asid true .write va 2048 = rangeWaits s core asid true .write va 2048 :=
    rangeWaits_alike (modGroup_alike s g f) core asid true .write va 2048
  unfold frameLocked
  rw [State.group?_modGroup, group, State.team?_modGroup, if_pos rfl]
  cases s.team? g.team with
  | none => rfl
  | some m =>
    simp only [Option.map_some, placed, waits, ctl]
    rfl

/-- Settles O42: a drained group's frame is writable, so the recorded trap is entered, and its frame lies where no held fault moves it. -/
theorem trapEvents : Obligations.TrapEvents := by
  intro s g gr m group team resident
  refine ⟨fun r t live pending takes => ?_, fun f rest t live staying calm out drained held takes => ?_, fun h handler late => ?_⟩
  · have enters := takes.enterable group team live
    show Host.Outcome.next _ = _
    simp only [group, pending, enters, if_true, takeTrap_takes takes]
  · obtain ⟨m', gr', c, s1, h1, h2, h3, h4, h5, unlocked, -⟩ := id takes
    rw [frameLocked_modGroup group rfl rfl] at unlocked
    have enters : enterable s g gr = true := by simp [enterable, entryReady, team, live, out, drained, resident, unlocked]
    show Host.Outcome.next _ = _
    simp [group, calm, enters, team, staying, deliverFault, held, unlocked, takeTrap_takes takes]
  · show Host.Outcome.next _ = _
    simp [group, handler, late, team, resident]
    rfl

end Sys2Proof.Machine
end

section
/-! SUPPORT. The form of memory (O50): what keeping it means of a state, of an outcome and of a word, and that the writes and reads of
memory keep it. A lemma `f_mem` says that `f` leaves memory as it is, a lemma `f_formed` that it leaves it in its form. -/

namespace Sys2Proof.Machine

/-- Memory has the one form of its bytes. -/
@[simp] abbrev Formed (s : State) : Prop := Memory.wf s.mem = true

/-- What a step or a word comes to, where it goes on, has formed memory. -/
@[simp] def FormedNext : Host.Outcome State Fault Refusal → Prop
  | .next t => Formed t
  | _ => True

/-- The state that a lane's access leaves. -/
@[simp] def LaneOut.state : LaneOut → State
  | .ok s | .wait s _ | .bad s _ _ _ | .abort s _ _ => s

/-- What a part of an MX unit leaves, whether it may move or not. -/
@[simp] def mxState {α : Type} : Except LaneOut (α × State) → State
  | .error o => o.state
  | .ok x => x.2

/-- What an engine access leaves, whether it faults or not. -/
@[simp] def engState {α : Type} (left : α → State) : EngRes α → State
  | .error x => x.2
  | .ok x => left x

/-- A word's body that keeps the form of memory. -/
def FormedBody (body : Wd → Res) : Prop := ∀ w, Formed w.s → Formed w.s0 → Formed (body w).st

/-- The states whose memory has that form. -/
abbrev FormedState := { s : State // Formed s }

@[simp] theorem FormedState.formed (s : FormedState) : Formed s.1 := s.2

theorem formed_of_mem {s t : State} (same : t.mem = s.mem) (formed : Formed s) : Formed t :=
  (congrArg (Memory.wf · = true) same).mpr formed

theorem formed_of_eq {α : Type} {left : α → State} {r x : α} (formed : Formed (left r)) (eq : r = x) : Formed (left x) := eq ▸ formed

@[simp] theorem memWrite_formed {m : Mem} {a : Nat} {bs : List Byte} (formed : Memory.wf m = true) : Memory.wf (memWrite m a bs) = true :=
  memWrite_wf m a bs formed

@[simp] theorem mem_ite {c : Prop} [Decidable c] {a b : State} (same : a.mem = b.mem) : (if c then a else b).mem = b.mem := by
  split
  · exact same
  · rfl

@[simp] theorem formed_ite {c : Prop} [Decidable c] {a b : State} (ha : Formed a) (hb : Formed b) : Formed (if c then a else b) := by
  split
  · exact ha
  · exact hb

@[simp] theorem mem_foldl {β : Type*} (f : State → β → State) (l : List β) (s : State) (step : ∀ t b, (f t b).mem = t.mem) :
    (l.foldl f s).mem = s.mem :=
  foldl_keeps State.mem f step l s

@[simp] theorem mem_foldl_fst {α β : Type*} (f : State × α → β → State × α) (l : List β) (s : State × α) (step : ∀ t b, (f t b).1.mem = t.1.mem) :
    (l.foldl f s).1.mem = s.1.mem :=
  foldl_keeps (fun x => x.1.mem) f step l s

@[simp] theorem formed_foldl {β : Type*} {f : State → β → State} {l : List β} {s : State} (step : ∀ (t : FormedState) b, Formed (f t b))
    (formed : Formed s) : Formed (l.foldl f s) :=
  List.foldlRecOn (motive := Formed) l f formed fun t h b _ => step ⟨t, h⟩ b

@[simp] theorem formed_foldl_fst {α β : Type*} {f : State × α → β → State × α} {l : List β} {s : State × α}
    (step : ∀ (t : FormedState) x b, Formed (f (t, x) b).1) (formed : Formed s.1) : Formed (l.foldl f s).1 :=
  List.foldlRecOn (motive := fun x : State × α => Formed x.1) l f formed fun t h b _ => step ⟨t.1, h⟩ t.2 b

@[simp] theorem State.putTeam_mem (s : State) (t : Nat) (x : Team) : (State.putTeam s t x).mem = s.mem := by
  simp [State.putTeam]

@[simp] theorem State.modLane_mem (s : State) (g : GRef) (l : Nat) (f : Thread → Thread) :
    (State.modLane s g l f).mem = s.mem :=
  (State.modLane_keeps ..).part State.mem fun _ => rfl

@[simp] theorem State.modLanes_mem (s : State) (g : GRef) (ls : List Nat) (f : Nat → Thread → Thread) :
    (State.modLanes s g ls f).mem = s.mem :=
  (State.modLanes_keeps ..).part State.mem fun _ => rfl

@[simp] theorem State.newId_mem (s : State) : (State.newId s).2.mem = s.mem := by
  simp [State.newId]

@[simp] theorem modLog_mem (s : State) (log : Nat) (f : ErrLog → ErrLog) : (modLog s log f).mem = s.mem := by
  simp [modLog]

theorem writeAt_formed {s : State} {key e cls : Nat} {bs : List Byte} (formed : Formed s) : Formed (writeAt s key e cls bs) := by
  rw [Formed, writeAt_mem]
  exact memWrite_wf _ _ _ formed

@[simp] theorem storeAt_formed {s : State} {key e cls : Nat} {bs : List Byte} (formed : Formed s) : Formed (storeAt s key e cls bs) := by
  unfold storeAt
  split <;> simp [formed]

@[simp] theorem lastUse_formed {s : State} {key : Nat} (formed : Formed s) : Formed (lastUse s key) := by
  unfold lastUse
  dsimp only
  repeat' split
  all_goals simp [formed]

@[simp] theorem writePlain_formed {s : State} {addr : Nat} {bs : List Byte} (formed : Formed s) : Formed (writePlain s addr bs) := by
  unfold writePlain
  split <;> simp [formed]

/-- A translation leaves memory in its form. -/
theorem xlate_formed {s t : State} {core asid : Nat} {priv : Bool} {n : AccessNeed} {va : Nat} {x : XOut} (formed : Formed s)
    (looked : xlate s core asid priv n va = (x, t)) : Formed t := by
  have same := (xlate_beside s core asid priv n va).2.1
  rw [looked] at same
  exact formed_of_mem same formed

end Sys2Proof.Machine
end

section
/-! SUPPORT. The shared operations keep the form of memory (O50): ends of transactions, teams, frames and contexts, traps, and the issue of a word. -/

namespace Sys2Proof.Machine

theorem writeKeys_formed {core : Nat} {ks : List (Nat × Nat × Nat)} {bs : List Byte} {s : State} (formed : Formed s) :
    Formed (writeKeys core ks bs s) := by
  induction ks generalizing bs s with
  | nil => exact formed
  | cons k rest ih =>
    refine ih ?_
    simp [formed]

/-- The state in which a write through translation ends, whether it faults or not. -/
def endState (r : Except (Cause × State) State) : State :=
  match r with
  | .error x => x.2
  | .ok t => t

theorem writeVa_formed {s : State} (core asid : Nat) (priv : Bool) (va : Nat) (bs : List Byte) (formed : Formed s) :
    Formed (endState (writeVa s core asid priv va bs)) := by
  have looked := (xlateAll_beside core asid priv .write (pieces va bs.length) s).2.1
  unfold writeVa
  generalize xlateAll core asid priv .write (pieces va bs.length) s = r at looked
  cases r with
  | error x =>
    exact formed_of_mem looked formed
  | ok x => exact writeKeys_formed (formed_of_mem looked formed)

theorem writeVa_ok {s t : State} {core asid : Nat} {priv : Bool} {va : Nat} {bs : List Byte} (formed : Formed s)
    (written : writeVa s core asid priv va bs = .ok t) : Formed t := by
  have left := writeVa_formed core asid priv va bs formed
  rwa [written] at left

theorem writeVa_error {s t : State} {core asid : Nat} {priv : Bool} {va : Nat} {bs : List Byte} {c : Cause} (formed : Formed s)
    (written : writeVa s core asid priv va bs = .error (c, t)) : Formed t := by
  have left := writeVa_formed core asid priv va bs formed
  rwa [written] at left

theorem readBytes_mem (consume : Bool) (s : State) (core asid : Nat) (priv : Bool) (va n : Nat) :
    (leftState (readBytes consume s core asid priv va n)).mem = s.mem := by
  have looked := (xlateAll_beside core asid priv .read (pieces va n) s).2.1
  unfold readBytes
  generalize xlateAll core asid priv .read (pieces va n) s = r at looked
  obtain ⟨c, t⟩ | ⟨ks, t⟩ := r
  · exact looked
  · dsimp only
    cases ks.find? fun k => inError t k.1 with
    | none => exact (mem_foldl _ _ t fun u k => (touchRead_beside ..).2.1).trans looked
    | some k =>
      refine Eq.trans ?_ looked
      cases consume with
      | false => rfl
      | true => exact (logConsumed_beside ..).2.1

theorem readVa_ok {s t : State} {core asid : Nat} {priv : Bool} {va n : Nat} {bs : List Byte} (formed : Formed s)
    (read : readVa s core asid priv va n = .ok (bs, t)) : Formed t := by
  have same := readBytes_mem true s core asid priv va n
  rw [← readVa, read] at same
  exact formed_of_mem same formed

theorem readVa_error {s t : State} {core asid : Nat} {priv : Bool} {va n : Nat} {c : Cause} (formed : Formed s)
    (read : readVa s core asid priv va n = .error (c, t)) : Formed t := by
  have same := readBytes_mem true s core asid priv va n
  rw [← readVa, read] at same
  exact formed_of_mem same formed

theorem readRaw_ok {s t : State} {core asid : Nat} {priv : Bool} {va n : Nat} {bs : List Byte} (formed : Formed s)
    (read : readRaw s core asid priv va n = .ok (bs, t)) : Formed t := by
  have same := readBytes_mem false s core asid priv va n
  rw [← readRaw, read] at same
  exact formed_of_mem same formed

theorem readRaw_error {s t : State} {core asid : Nat} {priv : Bool} {va n : Nat} {c : Cause} (formed : Formed s)
    (read : readRaw s core asid priv va n = .error (c, t)) : Formed t := by
  have same := readBytes_mem false s core asid priv va n
  rw [← readRaw, read] at same
  exact formed_of_mem same formed

@[simp] theorem wakeLane_mem (s : State) (g : GRef) (l : Nat) (kept : Bool) (w : Wake) :
    (wakeLane s g l kept w).mem = s.mem :=
  (wakeLane_keeps ..).part State.mem fun _ => rfl

@[simp] theorem wakeGroup_mem (s : State) (g : GRef) (p : Park → Bool) (w : Wake) : (wakeGroup s g p w).mem = s.mem := by
  unfold wakeGroup
  split
  · rfl
  · exact mem_foldl _ _ s fun t l => mem_foldl _ _ t fun u k => mem_ite (wakeLane_mem ..)

@[simp] theorem wakeWhere_mem (s : State) (p : GRef → Park → Bool) (w : Wake) : (wakeWhere s p w).mem = s.mem := by
  unfold wakeWhere
  simp

@[simp] theorem abortLane_mem (s : State) (g : GRef) (l code sub : Nat) : (abortLane s g l code sub).mem = s.mem := by
  simp [abortLane, whileRunning_mem, dropLane_mem]

@[simp] theorem closeWhere_mem (s : State) (p : Domain → Bool) : (closeWhere s p).mem = s.mem := by
  simp [closeWhere]

@[simp] theorem closeDomains_mem (s : State) (team : Nat) : (closeDomains s team).mem = s.mem := by
  simp [closeDomains]

@[simp] theorem closeGridDomains_mem (s : State) (grid : Nat) : (closeGridDomains s grid).mem = s.mem := by
  simp [closeGridDomains]

@[simp] theorem freeTeam_mem (s : State) (team : Nat) : (freeTeam s team).mem = s.mem := by
  unfold freeTeam
  repeat' split
  all_goals simp

@[simp] theorem reapTeam_mem (s : State) (team : Nat) : (reapTeam s team).mem = s.mem := by
  unfold reapTeam
  split <;> simp

@[simp] theorem letGo_mem (s : State) (team : Nat) : (letGo s team).mem = s.mem := by
  unfold letGo
  repeat' split
  all_goals simp

@[simp] theorem cairnSector_formed {c : Cairn} {s : State} {sec : Nat} (formed : Formed s) : Formed (cairnSector c s sec) := by
  unfold cairnSector
  dsimp only
  repeat' split
  all_goals simp [formed]

@[simp] theorem cairnLine_formed {c : Cairn} {s : State} {line : Nat} (formed : Formed s) : Formed (cairnLine c s line) := by
  simp [cairnLine, formed]

@[simp] theorem endCairns_formed {s : State} {team : Nat} (formed : Formed s) : Formed (endCairns s team) := by
  unfold endCairns
  exact formed_foldl (fun t c => formed_foldl (fun u _ => cairnLine_formed u.2) t.2) formed

@[simp] theorem stopTeam_formed {s : State} {team : Nat} (formed : Formed s) : Formed (stopTeam s team) := by
  unfold stopTeam
  split <;> simp [formed]

@[simp] theorem endMerge_formed {s : State} {team : Nat} (formed : Formed s) : Formed (endMerge s team) := by
  simp [endMerge, formed]

@[simp] theorem dropMerge_formed {s : State} {f : Nat} (formed : Formed s) : Formed (dropMerge s f) := by
  simp [dropMerge, formed]

@[simp] theorem tellFrame_formed {s : State} {f : Nat} (formed : Formed s) : Formed (tellFrame s f) := by
  unfold tellFrame
  split
  · exact formed
  · split
    next written =>
      have told := writeVa_ok formed written
      exact told
    next written => exact formed_ite formed (writeVa_error formed written)

@[simp] theorem breakFrame_formed {s : State} {f cause : Nat} (formed : Formed s) : Formed (breakFrame s f cause) := by
  unfold breakFrame
  split
  · exact formed
  · exact tellFrame_formed (formed_foldl (fun t k => formed_of_mem (letGo_mem ..) t.2) (formed_ite (dropMerge_formed formed) formed))

@[simp] theorem breakParent_formed {s : State} {team f cause : Nat} (formed : Formed s) : Formed (breakParent s team f cause) := by
  simp [breakParent, formed]

@[simp] theorem breakOwned_formed {s : State} {team cause : Nat} (formed : Formed s) : Formed (breakOwned s team cause) := by
  unfold breakOwned
  exact formed_foldl (fun t f => breakFrame_formed (f := f) (dropMerge_formed t.2)) formed

@[simp] theorem answerMsg_mem (s : State) (msg : Nat) (g : GRef) (lane : Nat) (status : W64) (data : List Byte) :
    (answerMsg s msg g lane status data).mem = s.mem :=
  (answerMsg_keeps ..).part State.mem fun _ => rfl

@[simp] theorem settleMsg_mem (s : State) (st : StakeSt) (stale : Bool) (rcore : Option Nat) (msg : Nat) :
    (settleMsg s st stale rcore msg).1.mem = s.mem :=
  (settleMsg_keeps ..).part State.mem fun _ => rfl

@[simp] theorem settle_mem (s : State) (core slot : Nat) (st : StakeSt) :
    (settle s core slot st).mem = s.mem :=
  (settle_keeps ..).part State.mem fun _ => rfl

@[simp] theorem gridStatus_mem (s : State) (grid status detail : Nat) : (gridStatus s grid status detail).mem = s.mem := by
  simp [gridStatus]

@[simp] theorem endTeam_formed {s : State} {team fcause scause trapc : Nat} (formed : Formed s) : Formed (endTeam s team fcause scause trapc) := by
  unfold endTeam
  cases s.team? team with
  | none => exact formed
  | some t =>
    have stopped : Formed (stopTeam s team) := stopTeam_formed formed
    have broken (u : State) (h : Formed u) : Formed (breakOwned u team fcause) := breakOwned_formed h
    dsimp only
    cases t.parent with
    | none => cases t.inv <;> simp [broken, stopped]
    | some p =>
      have parted : Formed (breakParent (stopTeam s team) team p.1 fcause) := breakParent_formed stopped
      cases t.inv <;> simp [broken, parted]

@[simp] theorem haltTeam_formed {s : State} {team cause : Nat} (formed : Formed s) : Formed (haltTeam s team cause) := by
  unfold haltTeam
  dsimp only
  repeat' split
  all_goals simp [formed]

@[simp] theorem fatalTrap_formed {s : State} {g : GRef} {cause : Nat} (formed : Formed s) : Formed (fatalTrap s g cause) := by
  unfold fatalTrap
  repeat' split
  all_goals simp [formed]

@[simp] theorem endContext_formed {s : State} {ctx cause : Nat} (formed : Formed s) : Formed (endContext s ctx cause) := by
  unfold endContext
  refine formed_foldl (fun t f => breakFrame_formed t.2) (formed_of_mem (mem_foldl _ _ _ fun t i => mem_ite (by simp))
    (formed_foldl (fun t i => endTeam_formed t.2) formed))

@[simp] theorem contextFatal_formed {s : State} {ctx : Nat} (formed : Formed s) : Formed (contextFatal s ctx) := by
  simp [contextFatal, formed]

@[simp] theorem teamFatal_formed {s : State} {t : Team} {cause : Nat} (formed : Formed s) : Formed (teamFatal s t cause) := by
  simp [teamFatal, formed]

@[simp] theorem takeTrap_formed {s : State} {g : GRef} {i : TrapInfo} (formed : Formed s) : Formed (takeTrap s g i) := by
  have dropped : Formed ((loggedLanes s g).foldl (fun st l => dropLane st g l 7 i.cause) s) :=
    formed_of_mem (mem_foldl _ _ _ fun t l => dropLane_mem ..) formed
  unfold takeTrap
  dsimp only
  split
  · split
    · exact dropped
    · split
      next written => exact formed_ite formed (teamFatal_formed (writeVa_error dropped written))
      next written => exact formed_of_mem (by simp) (writeVa_ok dropped written)
  · exact dropped

@[simp] theorem raiseTrap_formed {s : State} {g : GRef} {r : TrapRec} (formed : Formed s) : Formed (raiseTrap s g r) := by
  unfold raiseTrap
  repeat' split
  all_goals simp [formed]

@[simp] theorem Res.done_mem (s : State) : (Res.done s).st.mem = s.mem := by
  simp [Res.done]

@[simp] theorem Res.trap_mem (s : State) (cause sub : Nat) (addr : W64) (raisers : List Nat) :
    (Res.trap s cause sub addr raisers).st.mem = s.mem := by
  simp [Res.trap]

@[simp] theorem advance_mem (s : State) (g : GRef) (pc : W64) (r : Res) (lanes : List Nat) : (advance s g pc r lanes).mem = s.mem := by
  simp [advance]

theorem finish_formed {w : Wd} {r : Res} (before : Formed w.s0) (formed : Formed r.st) : Formed (finish w r) := by
  have advanced (lanes : List Nat) : Formed (advance r.st w.g w.pc r lanes) := by simp [formed]
  unfold finish
  split
  · exact before
  split
  · refine formed_ite (formed_foldl (fun t l => formed_of_mem (abortLane_mem ..) t.2) (advanced _)) (raiseTrap_formed formed)
  · dsimp only
    split
    · exact advanced _
    · exact formed_ite (formed_foldl (fun t l => formed_of_mem (abortLane_mem ..) t.2) (advanced _)) (raiseTrap_formed (advanced _))

@[simp] theorem countIssue_mem (s : State) (g : GRef) (active : List Nat) : (countIssue s g active).1.mem = s.mem := by
  refine mem_foldl_fst _ active (s, []) fun t l => ?_
  split
  · split
    · split
      · rfl
      · split <;> simp
    · rfl
  · rfl

/-- What the issue of a word comes to has formed memory. -/
def Prep.Formed : Prep → Prop
  | .stop o => FormedNext o
  | .run w => Machine.Formed w.s ∧ Machine.Formed w.s0

theorem Prep.formed_ite {c : Prop} [Decidable c] {a b : Prep} (ha : a.Formed) (hb : b.Formed) : (if c then a else b).Formed := by
  split
  · exact ha
  · exact hb

theorem prepare_formed {i : Instr} {s : State} (formed : Formed s) : (prepare i s).Formed := by
  have counted (c : Issue) : Formed (countIssue (s.setCur none) c.g (lanesOf c.lanes)).1 := formed_of_mem (countIssue_mem ..) formed
  have left (c : Issue) (vs : List (Nat × Nat)) : Formed (vs.foldl (fun st v => abortLane st c.g v.1 9 v.2)
      (countIssue (s.setCur none) c.g (lanesOf c.lanes)).1) := formed_foldl (fun t v => formed_of_mem (abortLane_mem ..) t.2) (counted c)
  have ended {w : Wd} {r : Res} (before : Formed w.s0) (after : Formed r.st) : (Prep.stop (.next (finish w r))).Formed :=
    finish_formed before after
  unfold prepare
  split
  · exact trivial
  next c _ =>
    split
    · refine Prep.formed_ite formed ?_
      dsimp only
      split
      · exact counted c
      · refine Prep.formed_ite (counted c) (Prep.formed_ite (ended formed (counted c)) (Prep.formed_ite (ended formed (counted c)) ?_))
        exact Prep.formed_ite (ended formed (left c _)) (Prep.formed_ite (ended formed (left c _)) ⟨left c _, formed⟩)
    · exact trivial

@[simp] theorem issueOp_mem (w : Wd) (s : State) (kind : OpKind) (cls : Nat) (stamp : Option (W64 × W64 × Bool)) :
    (issueOp w s kind cls stamp).2.mem = s.mem := by
  simp [issueOp]

@[simp] theorem parkAll_mem (w : Wd) (s : State) (p : Park) : (parkAll w s p).st.mem = s.mem := by
  simp [parkAll]

/-- A word whose body keeps the form of memory keeps it. -/
theorem runWord_formed {i : Instr} {body : Wd → Res} {s : State} (step : ∀ w, Formed w.s → Formed w.s0 → Formed (body w).st)
    (formed : Formed s) : FormedNext (runWord i body s) := by
  have issued := prepare_formed (i := i) formed
  unfold runWord
  generalize prepare i s = r at issued
  cases r with
  | stop o => exact issued
  | run w => exact finish_formed issued.2 (step w issued.1 issued.2)

@[simp] theorem aluBody_mem (fm : AluForm) (op : AluIn → AluOut) (w : Wd) : (aluBody fm op w).st.mem = w.s.mem := by
  unfold aluBody
  repeat' split
  all_goals simp

end Sys2Proof.Machine
end

section
/-! SUPPORT. The accesses of the memory words keep the form of memory (O50), in a transaction or not. -/

namespace Sys2Proof.Machine

@[simp] theorem Place.write_formed {p : Place} {s : State} {off : Nat} {bs : List Byte} (formed : Formed s) : Formed (p.write s off bs) := by
  cases p <;> simp [Place.write, formed]

@[simp] theorem atomAt_formed {p : Place} {aty : AType} {aop : AOp} {xs : List (Nat × Nat)} {off : Nat} {s : State} (formed : Formed s) :
    Formed (atomAt p aty aop xs off s).2 := by
  induction xs generalizing off s with
  | nil => exact formed
  | cons x xs ih =>
    refine ih ?_
    split
    · exact Place.write_formed formed
    · exact formed_of_mem (Place.touch_beside ..).2.1 formed

@[simp] theorem performAt_formed {p : Place} {s : State} {g : GRef} {lane : Nat} {k : AccKind} (formed : Formed s) :
    Formed (performAt p s g lane k) := by
  cases k with
  | load d x sz pd => exact formed_of_mem ((putLoad_mem ..).trans (Place.touch_beside ..).2.1) formed
  | store bs => exact Place.write_formed formed
  | unit _ => exact formed
  | atom aty aop xs ret d x => exact formed_ite (formed_of_mem (putData_mem ..) (atomAt_formed formed)) (atomAt_formed formed)

theorem performAccess_formed {s t : State} {a : Access} (formed : Formed s) (performed : performAccess s a = some t) : Formed t := by
  unfold performAccess at performed
  dsimp only at performed
  split at performed
  · split at performed
    · cases performed
    · cases performed
      exact formed_of_mem (report_beside ..).2.1 formed
  · have at_ : Formed (performAt (.mem a.key a.e a.cls) s a.g a.lane a.kind) := performAt_formed formed
    cases performed
    refine formed_ite (formed_of_mem (l1Clear_beside ..).2.1 ?_) ?_ <;>
      (split <;> simp [at_])

@[simp] theorem enqueue_mem (s : State) (a : Access) : (enqueue s a).mem = s.mem := by
  simp [enqueue]

@[simp] theorem submit_formed {defer : Bool} {s : State} {a : Access} (formed : Formed s) : Formed (submit defer s a).state := by
  unfold submit
  split
  · split
    · exact formed
    · split
      · exact formed
      · exact formed_of_mem (logConsumed_beside ..).2.1 formed
  split
  · exact formed_of_mem (by simp) formed
  · split
    next performed => exact performAccess_formed formed performed
    · exact formed

@[simp] theorem l1Hit_formed {s : State} {a : Access} {line : List Byte} (formed : Formed s) : Formed (l1Hit s a line) := by
  unfold l1Hit
  dsimp only
  split <;> simp [formed]

@[simp] theorem remoteAccess_mem (w : Wd) (q : Req) (s : State) : (remoteAccess w q s).state.mem = s.mem := by
  unfold remoteAccess
  dsimp only
  repeat' split
  all_goals simp

@[simp] theorem viewAccess_formed {w : Wd} {q : Req} {off : Nat} {s : State} (formed : Formed s) : Formed (viewAccess w q off s).state := by
  unfold viewAccess
  repeat' split
  all_goals simp [formed]

@[simp] theorem memAccess_formed {w : Wd} {q : Req} {s : State} (formed : Formed s) : Formed (memAccess w q s).state := by
  unfold memAccess
  extract_lets va home core s0
  have first : Formed s0 := formed_ite (formed_of_mem (l1Clear_beside ..).2.1 formed) formed
  split
  · exact formed
  split
  · exact viewAccess_formed first
  split
  · exact formed_of_mem (remoteAccess_mem ..) formed
  split
  · exact formed
  split
  next looked => exact xlate_formed first looked
  next looked =>
    split
    · exact formed_of_mem (putLoad_mem ..) (xlate_formed first looked)
    · exact xlate_formed first looked
  next looked =>
    have translated := xlate_formed first looked
    dsimp only
    split
    · split
      · split
        · exact formed_of_mem (logCoreError_beside ..).2.1 translated
        · exact l1Hit_formed translated
      · exact submit_formed translated
    · exact submit_formed translated

@[simp] theorem scratchAccess_formed {w : Wd} {q : Req} {s : State} (formed : Formed s) : Formed (scratchAccess w q s).state := by
  unfold scratchAccess
  dsimp only
  repeat' split
  all_goals simp [formed]

theorem posted_formed {r : Except (Cause × State) State} {f : State → Option State} {t : State}
    (eq : (match r with
      | .error (x, u) => if x.cause = 0 then none else some u
      | .ok u => f u) = some t) (left : Formed (endState r)) (next : ∀ u, Formed u → f u = some t → Formed t) : Formed t := by
  obtain ⟨x, u⟩ | u := r
  · dsimp only at eq
    split at eq
    · cases eq
    · cases eq
      exact left
  · exact next u left eq

theorem postRecord_formed {s t : State} {core asid ctx : Nat} {c : Ctx} {home page va : Nat} (formed : Formed s)
    (posted : postRecord s core asid ctx c home page va = some t) : Formed t := by
  unfold postRecord at posted
  dsimp only at posted
  split at posted
  next read =>
    split at posted
    · cases posted
    · cases posted
      exact readVa_error formed read
  next read =>
    have head := readVa_ok formed read
    split at posted
    · exact posted_formed posted (writeVa_formed _ _ _ _ _ head) fun u formed eq => Option.some.inj eq ▸ formed
    · refine posted_formed posted (writeVa_formed _ _ _ _ _ head) fun u formed eq => ?_
      refine posted_formed eq (writeVa_formed _ _ _ _ _ formed) fun x formed eq => ?_
      cases eq
      exact formed_of_mem (by simp) formed

theorem postResidency_formed {s t : State} {core asid ctx : Nat} {priv : Bool} {va : Nat} (formed : Formed s)
    (posted : postResidency s core asid ctx priv va = some t) : Formed t := by
  have leaf : Formed (findLeaf s core asid (va / 2 ^ 60) va).2 := formed_of_mem (findLeaf_beside ..).2.1 formed
  unfold postResidency at posted
  dsimp only at posted
  split at posted
  · cases posted
    exact formed
  split at posted
  · split at posted
    · cases posted
    · cases posted
      exact leaf
  · split at posted
    · cases posted
      exact leaf
    · split at posted
      · split at posted
        · cases posted
          exact leaf
        · exact postRecord_formed leaf posted
      · cases posted
        exact leaf

@[simp] theorem laneStep_formed {w : Wd} {r : Res} {l : Nat} {o : LaneOut} (formed : Formed o.state) : Formed (laneStep w r l o).st := by
  cases o with
  | ok s => exact formed
  | wait s p => exact formed_of_mem (by simp [laneStep]) formed
  | bad s c sub a => exact formed
  | abort s c sub => exact formed_of_mem (abortLane_mem ..) formed

theorem laneLoop_formed {f : Nat → State → LaneOut} {w : Wd} (access : ∀ l s, Formed s → Formed (f l s).state) (formed : Formed w.s) :
    Formed (laneLoop f w).st := by
  have ran : Formed (w.acting.foldl (fun (x : Res × Option Park × Bool) l =>
      let o := f l x.1.st
      (laneStep w x.1 l o, x.2.1 <|> o.absentLine, x.2.2 || o.waits)) (Res.done w.s, none, false)).1.st :=
    List.foldlRecOn (motive := fun x : Res × Option Park × Bool => Formed x.1.st) w.acting _ formed
      fun x h l _ => laneStep_formed (access l x.1.st h)
  unfold laneLoop
  dsimp only
  split
  · exact formed_of_mem (parkAll_mem ..) formed
  · split
    · exact formed
    · exact ran

theorem scalarOnce_formed {f : State → LaneOut} (access : ∀ s, Formed s → Formed (f s).state) : FormedBody (scalarOnce f) := by
  intro w formed before
  have left := access w.s formed
  unfold scalarOnce
  generalize f w.s = o at left
  cases o with
  | ok s => exact left
  | wait s p =>
    dsimp only
    split
    · exact before
    · exact formed_of_mem (by simp) left
  | bad s c sub a => exact left
  | abort s c sub => exact left

@[simp] theorem txAt_formed {w : Wd} {q : Req} {s : State} {x : Tx} {key e : Nat} (formed : Formed s) : Formed (txAt w q s x key e).state := by
  unfold txAt
  extract_lets cls reads newRd memReads r s0 s1 s2
  split
  · exact formed
  split
  · exact formed
  split
  · exact formed
  split
  · exact formed_of_mem (logConsumed_beside ..).2.1 formed
  split
  · exact formed
  split
  · exact formed
  have touched : Formed s0 := formed_ite formed (formed_of_mem (touchRead_beside ..).2.1 formed)
  have used : Formed s2 := formed_of_mem (State.modLane_mem ..) (formed_ite (lastUse_formed touched) touched)
  cases q.kind with
  | load d x sz pd => exact formed_of_mem (putLoad_mem ..) used
  | store bs => exact used
  | unit ps => exact used
  | atom aty aop es ret d x => exact formed_ite (formed_of_mem (putData_mem ..) used) used

@[simp] theorem txAccess_formed {w : Wd} {q : Req} {s : State} {x : Tx} (formed : Formed s) : Formed (txAccess w q s x).state := by
  unfold txAccess
  dsimp only
  split
  · exact formed
  split
  · exact formed
  split
  next looked => exact xlate_formed formed looked
  next looked =>
    split
    next posted => exact postResidency_formed (xlate_formed formed looked) posted
    · exact formed
  next looked => exact txAt_formed (xlate_formed formed looked)

@[simp] theorem anyAccess_formed {w : Wd} {q : Req} {s : State} (formed : Formed s) : Formed (anyAccess w q s).state := by
  unfold anyAccess
  split
  · split
    · exact memAccess_formed formed
    · exact txAccess_formed formed
  · exact memAccess_formed formed

@[simp] theorem putDomain_mem (s : State) (h : W64) (m : Domain) : (putDomain s h m).mem = s.mem := by
  simp [putDomain]

@[simp] theorem txBeginO_mem (f : RegF) (h : W64) (w : Wd) (r : Res) (l : Nat) : (txBeginO f h w r l).st.mem = r.st.mem := by
  unfold txBeginO
  split
  · rfl
  · dsimp only
    split
    · split <;> simp
    · split <;> simp

@[simp] theorem txBeginOBody_mem (f : RegF) (w : Wd) : (txBeginOBody f w).st.mem = w.s.mem := by
  unfold txBeginOBody
  dsimp only
  split
  · rfl
  · exact foldl_keeps (fun r : Res => r.st.mem) _ (fun r l => txBeginO_mem f _ w r l) w.acting (Res.done w.s)

@[simp] theorem txCommitBody_mem (f : RegF) (w : Wd) : (txCommitBody f w).st.mem = w.s.mem := by
  unfold txCommitBody
  dsimp only
  split
  · rfl
  · refine (State.countCore_mem ..).trans ((whileRunning_mem ..).trans ((State.modGroup_mem ..).trans ((State.modLanes_mem ..).trans ?_)))
    refine (mem_foldl _ _ _ fun t l => ?_).trans (State.modLanes_mem ..)
    split
    · exact (raiseCursor_beside ..).2.1
    · rfl

@[simp] theorem txAbortBody_mem (f : RegF) (w : Wd) : (txAbortBody f w).st.mem = w.s.mem := by
  unfold txAbortBody
  simp

@[simp] theorem sdopenBody_mem (f : RegF) (w : Wd) : (sdopenBody f w).st.mem = w.s.mem := by
  unfold sdopenBody
  dsimp only
  repeat' split
  all_goals simp

end Sys2Proof.Machine
end

section
/-! SUPPORT. The bodies of the memory words keep the form of memory (O50). -/

namespace Sys2Proof.Machine

theorem masked_formed {m : MemF} {sc : Scope} {body : Wd → Res} (keeps : FormedBody body) : FormedBody (masked m sc body) := by
  intro w formed before
  unfold masked
  split
  · exact formed
  · exact keeps w formed before

theorem accesses_formed {m : MemF} {f : Wd → Nat → State → LaneOut} (access : ∀ w l s, Formed s → Formed (f w l s).state) :
    FormedBody fun w => accesses m (f w) w := by
  intro w formed before
  unfold accesses
  split
  · exact scalarOnce_formed (access w 32) w formed before
  · exact laneLoop_formed (access w) formed

theorem mxPiece_formed {w : Wd} {store : Bool} {part : W64} {va : Nat} {s : State} (formed : Formed s) :
    Formed (mxState (mxPiece w store part va s)) := by
  unfold mxPiece
  dsimp only
  split
  · split
    · exact formed
    · split <;> exact formed
  split
  · exact formed
  split
  next looked => exact xlate_formed formed looked
  next looked => split <;> exact xlate_formed formed looked
  next looked =>
    have translated := xlate_formed formed looked
    split
    · exact translated
    · split
      · exact translated
      · split <;> exact translated

theorem mxPieces_formed {w : Wd} {store : Bool} {part : W64} {ps : List (Nat × Nat)} {s : State} (formed : Formed s) :
    Formed (mxState (mxPieces w store part ps s)) := by
  induction ps generalizing s with
  | nil => exact formed
  | cons p ps ih =>
    obtain ⟨va, n⟩ := p
    have moved := mxPiece_formed (w := w) (store := store) (part := part) (va := va) formed
    unfold mxPieces
    generalize mxPiece w store part va s = r at moved
    obtain o | ⟨x, t⟩ := r
    · exact moved
    · have rest := ih (s := t) moved
      dsimp only
      generalize mxPieces w store part ps t = r at rest
      cases r <;> exact rest

theorem mxPart_formed {w : Wd} {store : Bool} {part : W64} {n : Nat} {s : State} (formed : Formed s) :
    Formed (mxState (mxPart w store part n s)) := by
  unfold mxPart
  split
  · split <;> exact formed
  · exact mxPieces_formed formed

theorem mxError_formed {w : Wd} {ps : List MxPiece} {s : State} {o : LaneOut} (formed : Formed s) (stopped : mxError w ps s = some o) :
    Formed o.state := by
  obtain ⟨p, -, found⟩ := List.exists_of_findSome?_eq_some stopped
  split at found
  · obtain ⟨k, -, rfl⟩ := Option.map_eq_some_iff.1 found
    exact formed_of_mem (logCoreError_beside ..).2.1 formed
  · split at found
    · cases found
      exact formed_of_mem (logConsumed_beside ..).2.1 formed
    · cases found
  · cases found

@[simp] theorem MxPiece.read_mem (p : MxPiece) (w : Wd) (s : State) : (MxPiece.read p w s).2.mem = s.mem := by
  unfold MxPiece.read
  split <;> simp

@[simp] theorem MxPiece.store_formed {p : MxPiece} {w : Wd} {bs : List Byte} {s : State} (formed : Formed s) : Formed (p.store w bs s) := by
  unfold MxPiece.store
  split
  · split
    · exact formed_of_mem (report_beside ..).2.1 formed
    · exact Place.write_formed formed
  · exact formed_ite (storeAt_formed formed) (formed_of_mem (l1Update_beside ..).2.1 (storeAt_formed formed))
  · exact formed

@[simp] theorem mxLoad_mem (w : Wd) (ps : List MxPiece) (s : State) : (mxLoad w ps s).2.mem = s.mem := by
  induction ps generalizing s with
  | nil => rfl
  | cons p ps ih => exact (ih _).trans (MxPiece.read_mem ..)

@[simp] theorem mxStore_formed {w : Wd} {ps : List MxPiece} {bs : List Byte} {s : State} (formed : Formed s) : Formed (mxStore w ps bs s) := by
  induction ps generalizing bs s with
  | nil => exact formed
  | cons p ps ih => exact ih (MxPiece.store_formed formed)

@[simp] theorem mxSend_formed {w : Wd} {k : MxMod} {l : Nat} {ps : List MxPiece} {bs : List Byte} {parts : List (W64 × List Byte)} {s : State}
    (formed : Formed s) : Formed (mxSend w k l ps bs parts s).state := by
  unfold mxSend
  dsimp only
  split
  next sent =>
    have same := congrArg (fun o : LaneOut => o.state.mem) sent
    rw [remoteAccess_mem] at same
    exact mxStore_formed (formed_of_mem same.symm formed)
  · exact formed_of_mem (remoteAccess_mem ..) formed

@[simp] theorem mxAccess_formed {m : MemF} {k : MxMod} {store : Bool} {w : Wd} {l : Nat} {s : State} (formed : Formed s) :
    Formed (mxAccess m k store w l s).state := by
  have first : Formed (if Order.acqs k.order && wide k.scope then l1Clear s w.t.core else s) :=
    formed_ite (formed_of_mem (l1Clear_beside ..).2.1 formed) formed
  have part {part : W64} {n : Nat} {t : State} {r : Except LaneOut (List MxPiece × State)} (formed : Formed t)
      (moved : mxPart w store part n t = r) : Formed (mxState r) := moved ▸ mxPart_formed formed
  unfold mxAccess
  dsimp only
  split
  · exact formed
  split
  next moved => exact part first moved
  next moved1 =>
    split
    next moved2 => exact part (part first moved1) moved2
    next moved2 =>
      have both := part (part first moved1) moved2
      split
      · split
        · exact mxSend_formed both
        · exact mxStore_formed both
      · split
        next stopped => exact mxError_formed both stopped
        · exact formed_of_mem ((State.modLane_mem ..).trans (mxLoad_mem ..)) both

@[simp] theorem fenceBody_mem (o : Order) (sc : Scope) (w : Wd) : (fenceBody o sc w).st.mem = w.s.mem := by
  simp [fenceBody]

@[simp] theorem lineFor_mem (w : Wd) (s : State) (va : Nat) : (lineFor w s va).2.mem = s.mem := by
  unfold lineFor
  dsimp only
  split
  · rfl
  split
  · rfl
  split
  · exact (findLeaf_beside ..).2.1
  · exact (findLeaf_beside ..).2.1

@[simp] theorem cctlLineAt_mem (w : Wd) (s : State) (va : Nat) : (cctlLineAt w s va).mem = s.mem := by
  have line := lineFor_mem w s va
  unfold cctlLineAt
  generalize lineFor w s va = r at line
  obtain ⟨_ | k, t⟩ := r
  · exact line
  · simpa using line

@[simp] theorem cctlFetchAt_mem (w : Wd) (s : State) (va : Nat) : (cctlFetchAt w s va).mem = s.mem := by
  have line := lineFor_mem w s va
  unfold cctlFetchAt
  generalize lineFor w s va = r at line
  obtain ⟨_ | k, t⟩ := r
  · exact line
  · exact (mem_ite (by simp)).trans line

theorem eachAddr_mem {m : MemF} {f : State → Nat → State} {w : Wd} (step : ∀ t va, (f t va).mem = t.mem) : (eachAddr m f w).st.mem = w.s.mem :=
  mem_foldl f (addrsOf m w) w.s step

theorem eachWalk_mem {m : MemF} {f : State → Nat → State} {w : Wd} (step : ∀ t va, (f t va).mem = t.mem) : (eachWalk m f w).st.mem = w.s.mem := by
  unfold eachWalk
  split
  · rfl
  · exact eachAddr_mem step

theorem preqBody_formed {m : MemF} {w : Wd} (formed : Formed w.s) : Formed (preqBody m w).st := by
  have each (l : List Nat) : ∀ s t, Formed s →
      l.foldlM (fun st va => postResidency st w.t.core w.gr.ctl.asid.toNat w.t.ctx w.gr.ctl.priv va) s = some t → Formed t := by
    induction l with
    | nil => exact fun s t formed eq => Option.some.inj eq ▸ formed
    | cons va l ih =>
      intro s t formed eq
      obtain ⟨u, posted, later⟩ := Option.bind_eq_some_iff.1 eq
      exact ih u t (postResidency_formed formed posted) later
  unfold preqBody
  split
  next posted => exact each _ _ _ formed posted
  · exact formed

@[simp] theorem tlbiPageAt_mem (asid : Nat) (s : State) (va : Nat) : (tlbiPageAt asid s va).mem = s.mem := by
  simp [tlbiPageAt]

@[simp] theorem tlbiWhere_mem (p : Nat → Bool) (s : State) : (tlbiWhere p s).mem = s.mem := by
  simp [tlbiWhere]

@[simp] theorem dropOrdered_mem (asid : Option (BitVec 12)) (s : State) : (dropOrdered asid s).mem = s.mem :=
  mem_foldl _ _ s fun t _ => mem_foldl _ _ t fun _ _ => abortLane_mem ..

theorem whenQuiet_formed {asid : Option (BitVec 12)} {body : Wd → Res} (keeps : FormedBody body) : FormedBody (whenQuiet asid body) := by
  intro w formed before
  unfold whenQuiet
  split
  · exact keeps { w with s := dropOrdered asid w.s } (formed_of_mem (dropOrdered_mem ..) formed) before
  · exact formed_of_mem (parkAll_mem ..) before

theorem scratchWord_formed {m : MemF} {req : Wd → Nat → Req} : FormedBody (scratchWord m req) :=
  accesses_formed fun _ _ _ formed => scratchAccess_formed formed

end Sys2Proof.Machine
end

section
/-! SUPPORT. Retirement, the start of an issue, the clocks, and the words of a group and of the barriers keep the form of memory (O50). -/

namespace Sys2Proof.Machine

@[simp] theorem retireGroups_mem (s : State) (team : Nat) : (retireGroups s team).mem = s.mem := by
  unfold retireGroups
  split <;> simp

@[simp] theorem leaveTail_mem (s : State) (team : Nat) : (leaveTail s team).mem = s.mem := by
  unfold leaveTail
  repeat' split
  all_goals simp

@[simp] theorem finishTeam_mem (s : State) (team : Nat) : (finishTeam s team).mem = s.mem := by
  unfold finishTeam
  repeat' split
  all_goals simp

@[simp] theorem retireHandler_mem (s : State) (team : Nat) (t : Team) : (retireHandler s team t).mem = s.mem := by
  unfold retireHandler
  split <;> simp

@[simp] theorem teamRetired_mem (s : State) (team : Nat) : (teamRetired s team).mem = s.mem := by
  unfold teamRetired
  dsimp only
  repeat' split
  all_goals simp

@[simp] theorem retire_mem (s : State) (team : Nat) : (retire s team).mem = s.mem := by
  unfold retire
  split <;> simp

@[simp] theorem countOps_mem (s : State) (g : GRef) (cls : Nat) : (countOps s g cls).mem = s.mem := by
  simp [countOps]

@[simp] theorem opDone_formed {s : State} {id : Nat} (formed : Formed s) : Formed (opDone s id) := by
  unfold opDone
  split <;> simp [formed]

@[simp] theorem holdFault_mem (s : State) (g : GRef) (f : AFault) : (holdFault s g f).mem = s.mem := by
  unfold holdFault
  split
  · split
    · rfl
    · dsimp only
      split
      · exact joinTail_mem ..
      · rfl
  · rfl

@[simp] theorem fetchWord_mem (s : State) (core asid : Nat) (priv : Bool) (pc : W64) : (fetchWord s core asid priv pc).2.mem = s.mem := by
  have looked := (xlate_beside s core asid priv .fetch pc.toNat).2.1
  unfold fetchWord
  split
  · rfl
  generalize xlate s core asid priv .fetch pc.toNat = r at looked
  obtain ⟨c | _ | ⟨key, e⟩, t⟩ := r
  · dsimp only
    split
    · rfl
    · exact looked
  · exact looked
  · dsimp only
    split
    · split
      · exact (logCoreError_beside ..).2.1.trans looked
      · exact looked
    · split
      · rfl
      split
      · exact (logConsumed_beside ..).2.1.trans looked
      · refine Eq.trans ?_ looked
        dsimp only
        split
        · simp
        · simp

@[simp] theorem issueTrap_formed {s : State} {g : GRef} {t : Team} {lanes : List Nat} {pc : W64} {cause sub : Nat} {addr : W64}
    (formed : Formed s) : Formed (issueTrap s g t lanes pc cause sub addr) := by
  have counted : Formed (countIssue s g lanes).1 := formed_of_mem (countIssue_mem ..) formed
  exact formed_ite counted (finish_formed formed counted)

@[simp] theorem holdUntil_mem (s : State) (g : GRef) (core pipe clk : Nat) : (holdUntil s g core pipe clk).mem = s.mem := by
  simp [holdUntil]

@[simp] theorem holdPipe_mem (s : State) (g : GRef) (core pipe : Nat) (i : Instr) : (holdPipe s g core pipe i).mem = s.mem := by
  simp [holdPipe]

@[simp] theorem countBanks_mem (s : State) (g : GRef) (t : Team) (gr : Group) (i : Instr) (lanes : List Nat) :
    (countBanks s g t gr i lanes).mem = s.mem := by
  simp [countBanks]

@[simp] theorem countIssued_mem (s : State) (core : Nat) (i : Instr) : (countIssued s core i).mem = s.mem := by
  unfold countIssued
  split <;> simp

/-- What an issue comes to has formed memory. -/
def IssueOut.Formed : IssueOut → Prop
  | .idle => True
  | .trapped t | .run _ t => Machine.Formed t

theorem beginIssue_formed {s : State} {g : GRef} {defer : Bool} (formed : Formed s) : (beginIssue s g defer).Formed := by
  unfold beginIssue
  split
  next t gr _ _ =>
    split
    · exact trivial
    split
    · exact trivial
    next pc lanes _ =>
      extract_lets f issued
      have held : Formed issued := formed_of_mem ((holdUntil_mem ..).trans (fetchWord_mem ..)) formed
      clear_value f issued
      split
      · exact trivial
      · exact issueTrap_formed held
      · split
        · exact issueTrap_formed held
        · split
          · exact trivial
          · exact formed_of_mem ((countBanks_mem ..).trans ((countIssued_mem ..).trans (holdPipe_mem ..))) held
  · exact trivial

@[simp] theorem countTime_mem (s : State) (clocks ticks : Nat) : (countTime s clocks ticks).mem = s.mem := by
  simp [countTime]

@[simp] theorem elapse_mem (s : State) (n : Nat) : (elapse s n).mem = s.mem := by
  simp [elapse]

@[simp] theorem tick_mem (s : State) : (tick s).mem = s.mem := by
  simp [tick]

@[simp] theorem clockPasses_mem (s : State) : (clockPasses s).mem = s.mem := by
  simp [clockPasses]

@[simp] theorem grantAll_mem (s : State) (asid rights : Nat) : (grantAll s asid rights).mem = s.mem := by
  simp [grantAll]

@[simp] theorem shflBody_mem (f : RegF) (w : Wd) : (shflBody f w).st.mem = w.s.mem := by
  simp [shflBody]

@[simp] theorem allPred_mem (f : RegF) (v : Nat → Bool) (w : Wd) : (allPred f v w).st.mem = w.s.mem := by
  simp [allPred]

@[simp] theorem allReg_mem (f : RegF) (v : Nat → W32) (w : Wd) : (allReg f v w).st.mem = w.s.mem := by
  simp [allReg]

@[simp] theorem matchUniformBody_mem (f : RegF) (w : Wd) : (matchUniformBody f w).st.mem = w.s.mem := by
  simp [matchUniformBody]

@[simp] theorem gredBody_mem (f : RegF) (w : Wd) : (gredBody f w).st.mem = w.s.mem := by
  simp [gredBody]

@[simp] theorem arriveAt_mem (s : State) (team b n : Nat) : (arriveAt s team b n).mem = s.mem := by
  unfold arriveAt
  dsimp only
  repeat' split
  all_goals simp

theorem withBarrier_formed {f : RegF} {body : Barrier → Wd → Res} (keeps : ∀ b, FormedBody (body b)) : FormedBody (withBarrier f body) := by
  intro w formed before
  unfold withBarrier
  split
  · exact formed
  · exact keeps _ w formed before

@[simp] theorem barInitBody_mem (f : RegF) (b : Barrier) (w : Wd) : (barInitBody f b w).st.mem = w.s.mem := by
  unfold barInitBody
  dsimp only
  split <;> simp

@[simp] theorem barArrBody_mem (f : RegF) (b : Barrier) (w : Wd) : (barArrBody f b w).st.mem = w.s.mem := by
  simp [barArrBody]

@[simp] theorem parkAtBarrier_mem (w : Wd) (s : State) (b : Nat) : (parkAtBarrier w s b).st.mem = s.mem := by
  simp [parkAtBarrier]

@[simp] theorem barSyncBody_mem (f : RegF) (b : Barrier) (w : Wd) : (barSyncBody f b w).st.mem = w.s.mem := by
  unfold barSyncBody
  split <;> simp

@[simp] theorem barWaitBody_mem (f : RegF) (b : Barrier) (w : Wd) : (barWaitBody f b w).st.mem = w.s.mem := by
  unfold barWaitBody
  split <;> simp

@[simp] theorem barRmtBody_mem (f : RegF) (w : Wd) : (barRmtBody f w).st.mem = w.s.mem := by
  unfold barRmtBody
  dsimp only
  repeat' split
  all_goals simp

@[simp] theorem remoteArrivalOf_mem (msg : Nat) (s : State) : (remoteArrivalOf msg s).mem = s.mem := by
  unfold remoteArrivalOf
  dsimp only
  repeat' split
  all_goals simp

theorem execRemoteArrival_formed {index : Nat} {s : State} (formed : Formed s) : FormedNext (execRemoteArrival index s) := by
  simp [execRemoteArrival, formed]

end Sys2Proof.Machine
end

section
/-! SUPPORT. The words of tasks keep the form of memory (O50). -/

namespace Sys2Proof.Machine

/-- What a read of a view list leaves. -/
theorem readTiles_formed {s : State} {core asid : Nat} {priv : Bool} {va : Nat} (formed : Formed s) :
    Formed (leftState (readTiles s core asid priv va)) := by
  unfold readTiles
  split
  · exact formed
  split
  next read => exact readVa_error formed read
  next read =>
    have head := readVa_ok formed read
    dsimp only
    split
    · exact head
    · split
      next later => exact readVa_error head later
      next later => exact readVa_ok head later

theorem writeIdentities_formed {f : Frame} {core : Nat} {priv : Bool} {ts : List Tile} {s : State} (formed : Formed s) :
    Formed (endState (writeIdentities f core priv ts s)) := by
  have looked := (xlateAll_beside core f.asid.toNat priv .write (accPieces f ts) s).2.1
  unfold writeIdentities
  generalize xlateAll core f.asid.toNat priv .write (accPieces f ts) s = r at looked
  cases r with
  | error x => exact formed_of_mem looked formed
  | ok x => exact writeKeys_formed (formed_of_mem looked formed)

@[simp] theorem frameAt_mem (s : State) (asid : BitVec 12) (va : Nat) : (frameAt s asid va).2.mem = s.mem := (frameAt_glances s asid va).1

@[simp] theorem enterChild_mem (w : Wd) (d : TaskDesc) (tiles : List Tile) (id : Nat) (f : Frame) (s : State) :
    (enterChild w d tiles id f s).2.mem = s.mem := by
  unfold enterChild
  split <;> simp

/-- The state of a lane's SPAWN that stops, or goes on. -/
def spawnState : Except SpawnStop (Nat × State) → State
  | .error x => x.2.2
  | .ok x => x.2

theorem bindFrame_formed {w : Wd} {va : Nat} {d : TaskDesc} {tiles : List Tile} {s : State} (formed : Formed s) :
    Formed (spawnState (bindFrame w va d tiles s)) := by
  unfold bindFrame
  extract_lets asid
  split
  next read => exact readVa_error formed read
  next h s1 read =>
    have head := readVa_ok formed read
    split
    · exact head
    split
    · exact head
    extract_lets f
    have written := writeIdentities_formed (f := f) (core := w.t.core) (priv := w.gr.ctl.priv) (ts := tiles) head
    generalize writeIdentities f w.t.core w.gr.ctl.priv tiles s1 = r at written
    cases r with
    | error c => exact written
    | ok s2 => exact formed_of_mem (enterChild_mem ..) written

theorem spawnLane_formed {w : Wd} {va : Nat} {s : State} (formed : Formed s) : Formed (spawnState (spawnLane w va s)) := by
  have tiled {t : State} {views : Nat} {r : Except (Cause × State) (Option (List Tile) × State)} (formed : Formed t)
      (read : readTiles t w.t.core w.gr.ctl.asid.toNat w.gr.ctl.priv views = r) : Formed (leftState r) := read ▸ readTiles_formed formed
  have framed {t : State} {join : Nat} {r : Option (Nat × Frame) × State} (formed : Formed t)
      (found : frameAt t w.gr.ctl.asid join = r) : Formed r.2 := found ▸ formed_of_mem (frameAt_mem ..) formed
  unfold spawnLane
  split
  · exact formed
  split
  next read => exact readVa_error formed read
  next read =>
    have head := readVa_ok formed read
    dsimp only
    split
    · exact head
    split
    next views => exact tiled head views
    next views => exact tiled head views
    next views =>
      have listed := tiled head views
      split
      · exact listed
      split
      · exact listed
      split
      next found =>
        have known := framed listed found
        split
        · exact known
        split
        · exact known
        split
        · exact known
        · exact formed_of_mem (enterChild_mem ..) known
      next found => exact bindFrame_formed (framed listed found)

theorem spawnLanes_formed {f : RegF} {w : Wd} (before : Formed w.s) {ls : List Nat} {s : State} (formed : Formed s) :
    (∀ t, spawnLanes f w ls s = .ok t → Formed t) ∧ ∀ c, spawnLanes f w ls s = .error c → Formed c.2.2 := by
  induction ls generalizing s with
  | nil => exact ⟨fun t eq => Except.ok.inj eq ▸ formed, fun c eq => (nomatch eq)⟩
  | cons l ls ih =>
    unfold spawnLanes
    dsimp only
    generalize (if f.bs then (w.gr.getS f.b.toNat).toNat else laneVal w f.b 64 l) = va
    have here := spawnLane_formed (w := w) (va := va) formed
    have there := spawnLane_formed (w := w) (va := va) before
    generalize spawnLane w va s = r at here
    obtain c | ⟨i, t⟩ := r
    · refine ⟨fun t eq => (nomatch eq), fun d eq => ?_⟩
      obtain rfl := Except.error.inj eq
      dsimp only
      split
      next other => exact formed_of_eq (left := spawnState) there other
      · exact before
    · exact ih (formed_of_mem (State.modLane_mem ..) (show Formed t from here))

theorem notInMerge_formed {body : Wd → Res} (keeps : FormedBody body) : FormedBody (notInMerge body) := by
  intro w formed before
  unfold notInMerge
  split
  · exact formed
  · exact keeps w formed before

theorem spawnBody_formed {f : RegF} : FormedBody (spawnBody f) := by
  intro w formed _
  have ran := spawnLanes_formed (f := f) formed (ls := w.acting) formed
  unfold spawnBody
  dsimp only
  split
  next stopped => exact ran.2 _ stopped
  next done =>
    split
    · exact formed_of_mem (State.modLanes_mem ..) formed
    · exact ran.1 _ done

@[simp] theorem syncLane_mem (f : RegF) (w : Wd) (l : Nat) (s : State) : (syncLane f w l s).2.mem = s.mem := by
  have found := frameAt_mem s w.gr.ctl.asid (syncAddr f w l)
  unfold syncLane
  dsimp only
  split
  · rfl
  · generalize frameAt s w.gr.ctl.asid (syncAddr f w l) = r at found
    obtain ⟨_ | x, t⟩ := r <;> exact found

@[simp] theorem syncLanes_mem (f : RegF) (w : Wd) (ls : List Nat) (s : State) : (syncLanes f w ls s).2.mem = s.mem := by
  induction ls generalizing s with
  | nil => rfl
  | cons l ls ih => exact (ih _).trans (syncLane_mem ..)

@[simp] theorem syncBody_mem (f : RegF) (w : Wd) : (syncBody f w).st.mem = w.s.mem := by
  have cleared (c : Prop) [Decidable c] : (if c then l1Clear (syncLanes f w w.acting w.s).2 w.t.core else (syncLanes f w w.acting w.s).2).mem =
      w.s.mem := (mem_ite (l1Clear_beside ..).2.1).trans (syncLanes_mem ..)
  unfold syncBody
  dsimp only
  split
  · rfl
  split
  · refine (mem_foldl _ _ _ fun t x => ?_).trans (cleared _)
    split
    · exact State.modLane_mem ..
    · rfl
  · exact cleared _

@[simp] theorem syncSettle_formed {s : State} {g : GRef} (formed : Formed s) : Formed (syncSettle s g) := by
  unfold syncSettle
  repeat' split
  all_goals simp [formed]

@[simp] theorem modMerge_mem (s : State) (m : MergeRef) (g : MergeJob → MergeJob) : (modMerge s m g).mem = s.mem := by
  simp [modMerge]

@[simp] theorem resumeMerges_mem (s : State) (t : Team) : (resumeMerges s t).mem = s.mem := by
  refine mem_foldl _ _ s fun u gr => ?_
  split <;> rfl

@[simp] theorem endThreads_formed {s : State} {team : Nat} (formed : Formed s) : Formed (endThreads s team) := by
  unfold endThreads
  split <;> simp [formed]

@[simp] theorem endtBody_formed {w : Wd} (formed : Formed w.s) : Formed (endtBody w).st := by
  simp [endtBody, formed]

end Sys2Proof.Machine
end

section
/-! SUPPORT. The data of the engines and the engine words keep the form of memory (O50). -/

namespace Sys2Proof.Machine

theorem engReadMem_formed {c : Eng} {ps : List (Nat × Nat)} {s : State} (formed : Formed s) :
    Formed (engState Prod.snd (engReadMem c ps s)) := by
  induction ps generalizing s with
  | nil => exact formed
  | cons p ps ih =>
    obtain ⟨va, n⟩ := p
    unfold engReadMem
    extract_lets r
    have first : Formed (engState Prod.snd r) := by
      dsimp only [r]
      split
      · exact formed
      split
      next looked => exact xlate_formed formed looked
      next looked => exact xlate_formed formed looked
      next looked =>
        have translated := xlate_formed formed looked
        split
        · exact translated
        · split
          · exact translated
          · exact formed_of_mem (touchRead_beside ..).2.1 translated
    clear_value r
    obtain e | ⟨bs, t⟩ := r
    · exact first
    · have rest := ih (s := t) first
      dsimp only
      generalize engReadMem c ps t = q at rest
      cases q <;> exact rest

theorem engRead_formed {c : Eng} {sp : Bool} {a n : Nat} {s : State} (formed : Formed s) : Formed (engState Prod.snd (engRead c sp a n s)) := by
  unfold engRead
  split
  · split
    · exact formed
    · split <;> exact formed
  · exact engReadMem_formed formed

theorem engProbeMem_formed {c : Eng} {ps : List (Nat × Nat)} {s : State} (formed : Formed s) : Formed (engState id (engProbeMem c ps s)) := by
  induction ps generalizing s with
  | nil => exact formed
  | cons p ps ih =>
    obtain ⟨va, n⟩ := p
    unfold engProbeMem
    split
    · exact ih formed
    split
    next looked => exact xlate_formed formed looked
    next looked => exact xlate_formed formed looked
    next looked =>
      have translated := xlate_formed formed looked
      split
      · exact translated
      · exact ih translated

theorem engProbe_formed {c : Eng} {sp : Bool} {a n : Nat} {s : State} (formed : Formed s) : Formed (engState id (engProbe c sp a n s)) := by
  unfold engProbe
  split
  · split
    · exact formed
    · split <;> exact formed
  · exact engProbeMem_formed formed

theorem engKey_formed {c : Eng} {s t : State} {va key e : Nat} (formed : Formed s) (found : engKey c s va = some (key, e, t)) : Formed t := by
  unfold engKey at found
  split at found
  · cases found
    exact formed
  · split at found
    next looked =>
      cases found
      exact xlate_formed formed looked
    · cases found

theorem engWriteMem_formed {c : Eng} {ps : List (Nat × Nat)} {bs : List Byte} {s : State} (formed : Formed s) :
    Formed (engWriteMem c ps bs s) := by
  induction ps generalizing bs s with
  | nil => exact formed
  | cons p ps ih =>
    obtain ⟨va, n⟩ := p
    unfold engWriteMem
    split
    · exact ih (Place.write_formed formed)
    · split
      next found => exact ih (formed_of_mem (l1Drop_beside ..).2.1 (writeAt_formed (engKey_formed formed found)))
      · exact ih formed

@[simp] theorem engWrite_formed {c : Eng} {sp : Bool} {w : Nat × List Byte} {s : State} (formed : Formed s) : Formed (engWrite c sp w s) :=
  formed_ite (Place.write_formed formed) (engWriteMem_formed formed)

theorem coordinates_formed {c : Eng} {idx : Nat} {xs : List (Nat × Axis)} {s : State} (formed : Formed s) :
    Formed (engState (fun x => x.2.2) (coordinates c idx xs s)) := by
  induction xs generalizing s with
  | nil => exact formed
  | cons p xs ih =>
    obtain ⟨j, x⟩ := p
    unfold coordinates
    extract_lets u r
    have first : Formed (engState Prod.snd r) := by
      dsimp only [r]
      split
      · split
        next read =>
          have got := formed_of_eq (left := engState Prod.snd) (engRead_formed formed) read
          exact got
        next read =>
          have got := formed_of_eq (left := engState Prod.snd) (engRead_formed formed) read
          exact got
      · exact formed
    clear_value r
    obtain e | ⟨k, t⟩ := r
    · exact first
    · have rest := ih (s := t) first
      dsimp only
      generalize coordinates c idx xs t = q at rest
      obtain e | ⟨a, b, u⟩ := q <;> exact rest

theorem sourceElem_formed {c : Eng} {a : CopyArgs} {e : Nat} {s : State} (formed : Formed s) :
    Formed (engState Prod.snd (sourceElem c a e s)) := by
  have read {sp : Bool} {va n : Nat} {t : State} {r : EngRes (List Byte × State)} (formed : Formed t) (eq : engRead c sp va n t = r) :
      Formed (engState Prod.snd r) := formed_of_eq (engRead_formed formed) eq
  unfold sourceElem
  dsimp only
  split
  next placed => exact formed_of_eq (left := engState fun x => x.2.2) (coordinates_formed formed) placed
  next placed => exact formed_of_eq (left := engState fun x => x.2.2) (coordinates_formed formed) placed
  next placed =>
    have known : Formed _ := formed_of_eq (left := engState fun x => x.2.2) (coordinates_formed formed) placed
    split
    next got => exact read known got
    next got =>
      split
      · split
        next scale => exact read (read known got) scale
        next scale => exact read (read known got) scale
      · exact read known got

theorem sourceElems_formed {c : Eng} {a : CopyArgs} {n e : Nat} {s : State} (formed : Formed s) :
    Formed (engState Prod.snd (sourceElems c a n e s)) := by
  induction n generalizing e s with
  | zero => exact formed
  | succ n ih =>
    have first := sourceElem_formed (c := c) (a := a) (e := e) formed
    unfold sourceElems
    generalize sourceElem c a e s = r at first
    obtain f | ⟨x, t⟩ := r
    · exact first
    · have rest := ih (e := e + 1) (s := t) first
      dsimp only
      generalize sourceElems c a n (e + 1) t = q at rest
      cases q <;> exact rest

theorem unitWrites_formed {c : Eng} {a : CopyArgs} {u : Nat} {s : State} (formed : Formed s) :
    Formed (engState Prod.snd (unitWrites c a u s)) := by
  unfold unitWrites
  dsimp only
  split
  next read =>
    have got := formed_of_eq (left := engState Prod.snd) (sourceElems_formed formed) read
    exact got
  next read =>
    have got := formed_of_eq (left := engState Prod.snd) (sourceElems_formed formed) read
    exact got

theorem probeAll_formed {c : Eng} {sp : Bool} {ws : List (Nat × List Byte)} {s : State} (formed : Formed s) :
    Formed (engState id (probeAll c sp ws s)) := by
  induction ws generalizing s with
  | nil => exact formed
  | cons w ws ih =>
    have first := engProbe_formed (c := c) (sp := sp) (a := w.1) (n := w.2.length) formed
    unfold probeAll
    generalize engProbe c sp w.1 w.2.length s = r at first
    cases r with
    | error e => exact first
    | ok t => exact ih first

theorem evalUnits_formed {α : Type} {c : Eng} {probe sp : Bool} {f : α → State → EngRes (List (Nat × List Byte) × State)}
    {dest : α → List (Nat × Nat)} {us : List α} {s : State} (step : ∀ u t, Formed t → Formed (engState Prod.snd (f u t))) (formed : Formed s) :
    Formed (evalUnits c probe sp f dest us s).st := by
  have stopped {r : EngOut} {ds : List (Nat × Nat)} {e : EFault × State} (h : Formed r.st) (he : Formed e.2) : Formed (r.stop ds e).st :=
    formed_ite he h
  refine List.foldlRecOn (motive := fun acc : List (List (Nat × List Byte)) × EngOut => Formed acc.2.st) us _ formed fun acc h u _ => ?_
  have made := step u acc.2.st h
  generalize f u acc.2.st = r at made
  obtain e | ⟨ws, t⟩ := r
  · exact stopped h made
  · have probed : Formed (engState id (if probe then probeAll c sp ws t else .ok t)) := by
      split
      · exact probeAll_formed made
      · exact made
    dsimp only
    generalize (if probe then probeAll c sp ws t else .ok t) = q at probed
    cases q with
    | error e => exact stopped h probed
    | ok v => exact probed

@[simp] theorem accldOn_formed {c : Eng} {sh : Shape} {acc row col : Nat} {base stride : W64} {ty rnd : Nat} {sp : Bool} {s : State}
    (formed : Formed s) : Formed (accldOn c sh acc row col base stride ty rnd sp s).1 := by
  unfold accldOn
  extract_lets w r f quad kept
  have read : Formed r.2.2 := by
    refine List.foldlRecOn (motive := fun a : List (Nat × Nat × Nat) × Option EFault × State => Formed a.2.2) (region sh) _ formed
      fun a h e _ => ?_
    have got := engRead_formed (c := c) (sp := sp) (a := accElemAddr base stride w e.1 e.2) (n := w) h
    generalize engRead c sp (accElemAddr base stride w e.1 e.2) w a.2.2 = q at got
    cases q with
    | error f => exact formed_ite got h
    | ok x => exact got
  exact read

@[simp] theorem accstEval_formed {c : Eng} {t : Team} {sh : Shape} {acc row col : Nat} {base stride : W64} {ty rnd : Nat} {sat sp : Bool}
    {s : State} (formed : Formed s) : Formed (accstEval c t sh acc row col base stride ty rnd sat sp s).st :=
  evalUnits_formed (fun _ _ formed => formed) formed

theorem counted_formed {cls : Nat} {body : Wd → Res} (keeps : FormedBody body) : FormedBody (counted cls body) := by
  intro w formed before
  unfold counted
  split
  · exact formed
  · exact keeps w formed before

@[simp] theorem checked_mem (w : Wd) (cs : List Chk) (k : Res) (same : k.st.mem = w.s.mem) : (checked w cs k).st.mem = w.s.mem := by
  unfold checked
  split
  · rfl
  · exact same

@[simp] theorem absentAll_mem (s : State) (op : Nat) (teams ls : List Nat) : (absentAll s op teams ls).mem = s.mem :=
  mem_foldl _ teams s fun _ _ => rfl

@[simp] theorem copyBody_mem (f : EngF) (w : Wd) : (copyBody f w).st.mem = w.s.mem := by
  unfold copyBody
  dsimp only
  repeat' split
  all_goals simp

@[simp] theorem copyMcBody_mem (f : EngF) (w : Wd) : (copyMcBody f w).st.mem = w.s.mem := by
  unfold copyMcBody
  dsimp only
  repeat' split
  all_goals simp

@[simp] theorem fillBody_mem (f : EngF) (w : Wd) : (fillBody f w).st.mem = w.s.mem := by
  unfold fillBody
  dsimp only
  repeat' split
  all_goals simp

@[simp] theorem mshapeBody_mem (f : EngF) (w : Wd) : (mshapeBody f w).st.mem = w.s.mem := by
  unfold mshapeBody
  dsimp only
  split <;> simp

@[simp] theorem mmaBody_mem (f : EngF) (w : Wd) : (mmaBody f w).st.mem = w.s.mem := by
  unfold mmaBody
  split <;> simp

@[simp] theorem accBody_mem (f : EngF) (store : Bool) (w : Wd) : (accBody f store w).st.mem = w.s.mem := by
  unfold accBody
  split <;> simp

@[simp] theorem acczBody_mem (f : EngF) (w : Wd) : (acczBody f w).st.mem = w.s.mem := by
  unfold acczBody
  split <;> simp

@[simp] theorem waitcBody_mem (f : EngF) (w : Wd) : (waitcBody f w).st.mem = w.s.mem := by
  unfold waitcBody
  dsimp only
  split <;> simp

@[simp] theorem monRead_mem (s : State) (core : Nat) (m : Mon) : (monRead s core m).2.mem = s.mem := by
  have looked := (xlate_beside s core m.asid.toNat m.priv .read m.va.toNat).2.1
  unfold monRead
  split
  · rfl
  split
  · rfl
  · generalize xlate s core m.asid.toNat m.priv .read m.va.toNat = r at looked
    obtain ⟨c | _ | ⟨key, e⟩, t⟩ := r
    · exact looked
    · exact looked
    · dsimp only
      split
      · exact looked
      · exact (touchRead_beside ..).2.1.trans looked

@[simp] theorem monReport_mem (f : EngF) (w : Wd) (s : State) (x : W64) (sat : Bool) : (monReport f w s x sat).st.mem = s.mem := by
  simp [monReport]

@[simp] theorem monArm_mem (f : EngF) (w : Wd) (s : State) : (monArm f w s).st.mem = s.mem := by
  unfold monArm
  dsimp only
  repeat' split
  all_goals simp

theorem monwBody_formed {f : EngF} : FormedBody (monwBody f) := by
  intro w formed _
  have armed {t : State} (h : Formed t) : Formed (monArm f w t).st := formed_of_mem (monArm_mem ..) h
  unfold monwBody
  dsimp only
  split
  · exact formed
  split
  · split
    · exact formed
    · split
      · exact formed
      · exact armed formed
  split
  · split
    · exact armed formed
    · exact formed
  split
  · exact formed
  split
  next looked => exact xlate_formed formed looked
  next looked =>
    have translated := xlate_formed formed looked
    split
    · exact formed
    split
    · exact formed
    · split
      · exact formed_of_mem (logConsumed_beside ..).2.1 translated
      · exact armed translated
  next looked => exact armed (xlate_formed formed looked)

@[simp] theorem netFinish_formed {s : State} {id : Nat} {c : Contribution} {num code : Nat} {vals : List Nat} {lost : Bool} (formed : Formed s) :
    Formed (netFinish s id c num code vals lost) := by
  unfold netFinish
  split <;> simp [formed]

@[simp] theorem roundFor_mem (s : State) (grid tree num : Nat) : (roundFor s grid tree num).2.2.mem = s.mem := by
  unfold roundFor
  split <;> simp

@[simp] theorem contribute_formed {w : Wd} {tree : Nat} {t : Tree} {c : Contribution} (formed : Formed w.s) : Formed (contribute w tree t c).st := by
  unfold contribute
  dsimp only
  repeat' split
  all_goals simp [formed]

@[simp] theorem nredBody_formed {f : EngF} {w : Wd} (formed : Formed w.s) : Formed (nredBody f w).st := by
  unfold nredBody
  dsimp only
  split <;> simp [formed]

@[simp] theorem nbarBody_formed {f : EngF} {w : Wd} (formed : Formed w.s) : Formed (nbarBody f w).st := by
  unfold nbarBody
  split <;> simp [formed]

end Sys2Proof.Machine
end

section
/-! SUPPORT. The events of the engines, the system words, and the events of accesses and traps keep the form of memory (O50). -/

namespace Sys2Proof.Machine

@[simp] theorem reportSource_mem (s : State) (o : Op) : (reportSource s o).mem = s.mem := by
  simp [reportSource]

@[simp] theorem evaluate_formed {s : State} {o : Op} (formed : Formed s) : Formed (o.evaluate s).2.st := by
  unfold Op.evaluate
  split
  · dsimp only
    split
    · exact evalUnits_formed (fun u t formed => formed) formed
    · exact evalUnits_formed (fun u t formed => unitWrites_formed formed) formed
  · exact evalUnits_formed (fun u t formed => formed) formed
  · exact formed

@[simp] theorem writeAll_formed {s : State} {o : Op} {sp : Bool} {ws : List (Nat × List Byte)} (formed : Formed s) : Formed (writeAll s o sp ws) :=
  formed_foldl (fun t _ => engWrite_formed t.2) formed

@[simp] theorem releaseLines_mem (s : State) (id : Nat) : (releaseLines s id).mem = s.mem := by
  simp [releaseLines]

@[simp] theorem settleErrors_mem (s : State) (c : Eng) (sp : Bool) (ws : List (Nat × List Byte)) : (settleErrors s c sp ws).1.mem = s.mem := by
  unfold settleErrors
  dsimp only
  split <;> simp

@[simp] theorem writeSettled_formed {s : State} {o : Op} {sp : Bool} {ws : List (Nat × List Byte)} (formed : Formed s) :
    Formed (writeSettled s o sp ws) := by
  simp [writeSettled, formed]

@[simp] theorem engineFault_mem (s : State) (o : Op) (f : EFault) : (engineFault s o f).mem = s.mem := by
  simp [engineFault]

theorem stampFault_formed {s t : State} {o : Op} {f : EFault} (formed : Formed s) (fault : stampFault s o = some (f, t)) : Formed t := by
  unfold stampFault at fault
  split at fault
  · split at fault
    next probed =>
      cases fault
      exact formed_of_eq (left := engState id) (engProbe_formed formed) probed
    · cases fault
  · cases fault

@[simp] theorem writeStamp_formed {s : State} {o : Op} (formed : Formed s) : Formed (writeStamp s o) := by
  unfold writeStamp
  split
  · split
    next fault => exact formed_of_mem (engineFault_mem ..) (stampFault_formed formed fault)
    · exact writeSettled_formed formed
  · exact formed

@[simp] theorem dramBefore_mem (s : State) (o : Op) : (dramBefore s o).mem = s.mem := by
  unfold dramBefore
  split <;> simp

@[simp] theorem dramAfter_mem (s : State) (o : Op) : (dramAfter s o).mem = s.mem := by
  unfold dramAfter
  split <;> simp

@[simp] theorem writeSome_formed {s : State} {o : Op} {sp : Bool} {holes : List (Nat × Nat)} {ws : List (Nat × List Byte)} (formed : Formed s) :
    Formed (writeSome s o sp holes ws) := by
  simp [writeSome, formed]

@[simp] theorem completeCopy_formed {s : State} {id : Nat} {o : Op} (formed : Formed s) : Formed (completeCopy s id o) := by
  have ended {t : State} (h : Formed t) : Formed (opDone (releaseLines t id) id) := opDone_formed (formed_of_mem (releaseLines_mem ..) h)
  unfold completeCopy
  extract_lets s0 r ws s1
  have before : Formed s0 := formed_of_mem (dramBefore_mem ..) formed
  have read : Formed r.2.st := evaluate_formed before
  split
  · exact ended (writeSome_formed before)
  split
  · exact ended (formed_of_mem (reportSource_mem ..) (writeSome_formed before))
  split
  · exact formed
  split
  · exact ended (formed_of_mem (engineFault_mem ..) (writeSome_formed read))
  · have written : Formed s1 := formed_of_mem (dramAfter_mem ..) (writeSettled_formed read)
    split
    · exact formed
    · exact ended (writeStamp_formed written)

@[simp] theorem assemble_formed {s : State} {id : Nat} {o : Op} (formed : Formed s) : Formed (assemble s id o) := by
  unfold assemble
  dsimp only
  repeat' split
  all_goals simp [formed]

@[simp] theorem imageTo_mem (s : State) (team : Nat) (bs : List (Nat × Byte)) : (imageTo s team bs).mem = s.mem := by
  simp [imageTo]

@[simp] theorem receiverDone_formed {s : State} {id : Nat} {o : Op} {team : Nat} (formed : Formed s) : Formed (receiverDone s id o team) := by
  unfold receiverDone
  dsimp only
  repeat' split
  all_goals simp [formed]

@[simp] theorem copySome_formed {s : State} {id : Nat} {chunks : List Nat} (formed : Formed s) : Formed (copySome s id chunks) := by
  unfold copySome
  dsimp only
  repeat' split
  all_goals simp [formed]

@[simp] theorem drainTo_formed {s : State} {id team : Nat} (formed : Formed s) : Formed (drainTo s id team) := by
  unfold drainTo
  repeat' split
  all_goals simp [formed]

@[simp] theorem drainLine_mem (s : State) (id : Nat) (o : Op) (team line : Nat) (bytes : List (Nat × Byte)) :
    (drainLine s id o team line bytes).mem = s.mem := by
  unfold drainLine
  split <;> simp

@[simp] theorem deliverLine_formed {s : State} {id team line : Nat} (formed : Formed s) : Formed (deliverLine s id team line) := by
  unfold deliverLine
  dsimp only
  repeat' split
  all_goals simp [formed]

theorem execLineDelivered_formed {op team line : Nat} {s : State} (formed : Formed s) : FormedNext (execLineDelivered op team line s) := by
  simp [execLineDelivered, formed]

theorem execEngineOpComplete_formed {op : Nat} {s : State} (formed : Formed s) : FormedNext (execEngineOpComplete op s) := by
  unfold execEngineOpComplete
  repeat' split
  all_goals simp [formed]

@[simp] theorem holdImage_mem (s : State) (id team : Nat) : (holdImage s id team).mem = s.mem := by
  unfold holdImage
  split <;> simp

theorem execMcDrain_formed {op team : Nat} {s : State} (formed : Formed s) : FormedNext (execMcDrain op team s) := by
  simp [execMcDrain, formed]

@[simp] theorem matrixEffect_formed {s : State} {o : Op} (formed : Formed s) : Formed (matrixEffect s o) := by
  unfold matrixEffect
  dsimp only
  repeat' split
  all_goals simp [formed]

theorem execMatrixOpStart_formed {core : Nat} {s : State} (formed : Formed s) : FormedNext (execMatrixOpStart core s) := by
  unfold execMatrixOpStart
  dsimp only
  repeat' split
  all_goals simp [formed]

@[simp] theorem monWake_mem (s : State) (id : Nat) (m : Mon) (x : W64) (sat : Bool) : (monWake s id m x sat).mem = s.mem := by
  unfold monWake
  split <;> simp

@[simp] theorem monTry_mem (s : State) (id : Nat) (m : Mon) : (monTry s id m).mem = s.mem := by
  simp [monTry]

theorem execMonitorReread_formed {mon : Nat} {s : State} (formed : Formed s) : FormedNext (execMonitorReread mon s) := by
  unfold execMonitorReread
  split <;> simp [formed]

theorem execMonitorPoll_formed {mon : Nat} {s : State} (formed : Formed s) : FormedNext (execMonitorPoll mon s) := by
  unfold execMonitorPoll
  split <;> simp [formed]

theorem execMonitorTimeout_formed {mon : Nat} {s : State} (formed : Formed s) : FormedNext (execMonitorTimeout mon s) := by
  unfold execMonitorTimeout
  split <;> simp [formed]

@[simp] theorem mfcBody_mem (f : SysF) (w : Wd) : (mfcBody f w).st.mem = w.s.mem := by
  unfold mfcBody
  split <;> simp

theorem mtcChecked_mem {f : SysF} {body : W64 → Wd → State} (step : ∀ x w, (body x w).mem = w.s.mem) (w : Wd) :
    (mtcChecked f body w).st.mem = w.s.mem := by
  unfold mtcChecked
  dsimp only
  split
  · rfl
  · exact step _ w

@[simp] theorem mtcBody_mem (f : SysF) (v : W64) (w : Wd) : (mtcBody f v w).mem = w.s.mem := by
  unfold mtcBody
  dsimp only
  repeat' split
  all_goals simp

@[simp] theorem ptbaseBody_mem (v : W64) (w : Wd) : (ptbaseBody v w).mem = w.s.mem := by
  simp [ptbaseBody]

@[simp] theorem asidBody_mem (v : W64) (w : Wd) : (asidBody v w).mem = w.s.mem := by
  simp [asidBody]

@[simp] theorem haltBody_formed {w : Wd} (formed : Formed w.s) : Formed (haltBody w).st := by
  unfold haltBody
  split <;> simp [formed]

@[simp] theorem deliverFault_formed {s : State} {g : GRef} (formed : Formed s) : Formed (deliverFault s g) := by
  unfold deliverFault
  repeat' split
  all_goals simp [formed]

@[simp] theorem returnTrap_formed {s : State} {g : GRef} (formed : Formed s) : Formed (returnTrap s g) := by
  unfold returnTrap
  split
  · split
    · exact formed
    · split
      next read => exact formed_ite formed (teamFatal_formed (readRaw_error formed read))
      next read =>
        extract_lets s2 s3 s4
        have back : Formed s2 := formed_of_mem ((whileRunning_mem ..).trans (State.modGroup_mem ..)) (readRaw_ok formed read)
        have merged : Formed s3 := by
          dsimp only [s3]
          split <;> exact back
        have settled : Formed s4 := syncSettle_formed merged
        exact formed_of_mem (retire_mem ..) (formed_ite (deliverFault_formed settled) settled)
  · exact formed

@[simp] theorem eretBody_formed {w : Wd} (formed : Formed w.s) : Formed (eretBody w).st := by
  unfold eretBody
  dsimp only
  repeat' split
  all_goals simp [formed]

theorem performed_formed {s : State} {a : Access} {e : ErrAt} (formed : Formed s) : Formed ((performAccess s a).getD (report s e)) := by
  cases eq : performAccess s a with
  | none => exact formed_of_mem (report_beside ..).2.1 formed
  | some t => exact performAccess_formed formed eq

theorem execAccessPerform_formed {acc : Nat} {s : State} (formed : Formed s) : FormedNext (execAccessPerform acc s) := by
  unfold execAccessPerform
  cases amGet s.pend acc with
  | none => exact formed
  | some a => exact formed_ite formed (formed_of_mem (retire_mem ..) (performed_formed (formed_of_mem (State.setPend_mem ..) formed)))

theorem execEviction_formed {l : CacheLine} {s : State} (formed : Formed s) : FormedNext (execEviction l s) := by
  unfold execEviction
  repeat' split
  all_goals simp [formed]

theorem execSpontaneousWriteback_formed {sector : Nat} {toDram : Bool} {s : State} (formed : Formed s) :
    FormedNext (execSpontaneousWriteback sector toDram s) := by
  simp [execSpontaneousWriteback, formed]

theorem execRefresh_formed {bank : Nat} {s : State} (formed : Formed s) : FormedNext (execRefresh bank s) := by
  simp [execRefresh, formed]

theorem execContextFatalReport_formed {e : ErrAt} {s : State} (formed : Formed s) : FormedNext (execContextFatalReport e s) := by
  unfold execContextFatalReport
  split <;> simp [formed]

theorem execTrapEntry_formed {g : GRef} {s : State} (formed : Formed s) : FormedNext (execTrapEntry g s) := by
  unfold execTrapEntry
  repeat' split
  all_goals simp [formed]

theorem execAsyncFaultDelivery_formed {g : GRef} {s : State} (formed : Formed s) : FormedNext (execAsyncFaultDelivery g s) := by
  unfold execAsyncFaultDelivery
  split <;> simp [formed]

theorem execHandlerWatchdog_formed {g : GRef} {s : State} (formed : Formed s) : FormedNext (execHandlerWatchdog g s) := by
  unfold execHandlerWatchdog
  split <;> simp [formed]

@[simp] theorem dequeue_mem (s : State) (a : Access) : (dequeue s a).mem = s.mem := by
  simp [dequeue]

theorem unitKeys_formed {core : Nat} {a : Access} {ps : List (W64 × Nat × Nat)} {s : State} (formed : Formed s) :
    Formed (engState Prod.snd (unitKeys core a ps s)) := by
  induction ps generalizing s with
  | nil => exact formed
  | cons p ps ih =>
    obtain ⟨va, p, n⟩ := p
    unfold unitKeys
    split
    next looked => exact xlate_formed formed looked
    next looked => exact xlate_formed formed looked
    next t looked =>
      have translated := xlate_formed formed looked
      split
      · exact translated
      · have rest := ih (s := t) translated
        generalize unitKeys core a ps t = q at rest
        cases q <;> exact rest

theorem unitPerform_formed {core : Nat} {a : Access} {parts : List (W64 × List Byte)} {s : State} (formed : Formed s) :
    Formed (engState id (unitPerform core a parts s)) := by
  have keys := unitKeys_formed (core := core) (a := a) (ps := parts.flatMap fun x => (pieces x.1.toNat x.2.length).map fun p => (x.1, p)) formed
  unfold unitPerform
  generalize unitKeys core a (parts.flatMap fun x => (pieces x.1.toNat x.2.length).map fun p => (x.1, p)) s = q at keys
  cases q with
  | error e => exact keys
  | ok r => exact writeKeys_formed keys

theorem remotePerform_formed {core : Nat} {a : Access} {s : State} (formed : Formed s) : Formed (engState id (remotePerform core a s)) := by
  unfold remotePerform
  extract_lets done
  have finished {x : State} (h : Formed x) : Formed (done x) := formed_ite (formed_of_mem (l1Clear_beside ..).2.1 h) h
  split
  next parts _ =>
    have unit := unitPerform_formed (core := core) (a := a) (parts := parts) formed
    generalize unitPerform core a parts s = q at unit
    cases q with
    | error e => exact unit
    | ok t => exact finished unit
  · split
    next looked => exact xlate_formed formed looked
    next looked => exact xlate_formed formed looked
    next looked => exact finished (formed_of_mem (l1Own_beside ..).2.1 (performAt_formed (xlate_formed formed looked)))

theorem execRemoteAck_formed {acc : Nat} {s : State} (formed : Formed s) : FormedNext (execRemoteAck acc s) := by
  have counted {t : State} {a : Access} (h : Formed t) : Formed (execRemoteAck.counted t a) := by
    unfold execRemoteAck.counted
    split
    · exact h
    · split
      · exact opDone_formed h
      · exact formed_of_mem (retire_mem ..) h
  have taken (a : Access) : Formed (dequeue (s.setPend (amDel s.pend acc)) a) := formed_of_mem (dequeue_mem ..) formed
  unfold execRemoteAck
  change Formed _
  split
  · exact formed
  next a _ =>
    split
    · exact formed
    · dsimp only
      split
      next performed =>
        have left := formed_of_eq (left := engState id) (remotePerform_formed (taken a)) performed
        exact formed_ite formed (counted (formed_of_mem (holdFault_mem ..) left))
      next performed => exact counted (formed_of_eq (left := engState id) (remotePerform_formed (taken a)) performed)

theorem peerPerform_formed {s : State} {key e : Nat} {r : PeerReq} (formed : Formed s) : Formed (peerPerform s key e r).2 := by
  cases r with
  | read n => exact formed_of_mem (Place.touch_beside ..).2.1 formed
  | write bs => exact Place.write_formed formed
  | atomic aty aop xs ret => exact atomAt_formed formed

theorem peerDone_formed {r : PeerReq} {x : XOut × State} (formed : Formed x.2) : Formed (peerDone r x).2 := by
  unfold peerDone
  split
  · exact formed
  · exact formed
  · split
    · exact peerPerform_formed formed
    · split
      · exact formed
      · exact formed
      · exact storeAt_formed formed
      · exact formed_of_mem (report_beside ..).2.1 formed

@[simp] theorem peerChecked_formed {s : State} {dev off : Nat} {r : PeerReq} (formed : Formed s) : Formed (peerChecked s dev off r).2 := by
  unfold peerChecked
  split
  · exact formed
  split
  · exact formed
  split
  · exact formed
  · dsimp only
    split
    · exact formed_of_mem (logEvent_beside ..).2.1 formed
    · exact peerDone_formed (formed_of_mem (xlate_beside ..).2.1 formed)

theorem execPeerAccess_formed {dev off : Nat} {r : PeerReq} {s : State} (formed : Formed s) : FormedNext (execPeerAccess dev off r s) := by
  unfold execPeerAccess
  split <;> simp [formed]

end Sys2Proof.Machine
end

section
/-! SUPPORT. Folds, applications and merges keep the form of memory (O50). -/

namespace Sys2Proof.Machine

theorem Spot.get_formed {p : Spot} {s : State} {asid k n : Nat} (formed : Formed s) : Formed (leftState (p.get s asid k n)) := by
  unfold Spot.get
  split
  · split <;> exact formed
  next va =>
    have read := readBytes_mem false s unitCore asid false (va + k) n
    change (leftState (readRaw s unitCore asid false (va + k) n)).mem = s.mem at read
    generalize readRaw s unitCore asid false (va + k) n = q at read
    cases q <;> exact formed_of_mem read formed

theorem Spot.put_formed {p : Spot} {s : State} {asid k n x : Nat} (formed : Formed s) : Formed (endState (p.put s asid k n x)) := by
  unfold Spot.put
  cases p with
  | view t off =>
    dsimp only
    cases viewStop s t (off + k) n with
    | some c => exact formed
    | none =>
      have written := Place.write_formed (p := .view t off) (s := s) (off := k) (bs := toBytes n x) formed
      exact written
  | mem va => exact writeVa_formed _ _ _ _ _ formed

/-- What an element's merge leaves, whether it stops or not. -/
def mergeState : Except (MergeStop × State) State → State
  | .error x => x.2
  | .ok t => t

theorem mergeElem_formed {asid : Nat} {x : Tile} {copy : Bool} {tgt src : Spot} {e : Nat} {s : State} (formed : Formed s) :
    Formed (mergeState (mergeElem asid x copy tgt src e s)) := by
  have stopped {t : State} {off : Nat} {p : Spot} {c : Cause × State} (h : Formed t) (hc : Formed c.2) : Formed (stopAt t e off p c).2 :=
    formed_ite h hc
  unfold mergeElem
  extract_lets w n
  have got := Spot.get_formed (p := src) (asid := asid) (k := e * n) (n := n) formed
  generalize src.get s asid (e * n) n = q at got
  obtain c | ⟨b, s1⟩ := q
  · exact stopped formed got
  dsimp -zeta only
  extract_lets r
  have valued : Formed (match r with | .error f => f.2 | .ok y => y.2) := by
    cases copy with
    | true => exact got
    | false =>
      have both := Spot.get_formed (p := tgt) (asid := asid) (k := e * n) (n := n) (s := s1) got
      simp only [r, Bool.false_eq_true, if_false]
      generalize tgt.get s1 asid (e * n) n = q at both
      cases q with
      | error c => exact stopped got both
      | ok y => exact both
  clear_value r
  obtain f | ⟨v, s2⟩ := r
  · exact valued
  · have put := Spot.put_formed (p := tgt) (asid := asid) (k := e * n) (n := n) (x := v) (s := s2) valued
    dsimp only
    generalize tgt.put s2 asid (e * n) n v = q at put
    cases q with
    | error c => exact stopped valued put
    | ok s3 => exact put

@[simp] theorem mergeElems_formed {asid : Nat} {x : Tile} {copy : Bool} {tgt src : Spot} {n e : Nat} {s : State} (formed : Formed s) :
    Formed (mergeElems asid x copy tgt src n e s).1 := by
  induction n generalizing e s with
  | zero => exact formed
  | succ n ih =>
    have here := mergeElem_formed (asid := asid) (x := x) (copy := copy) (tgt := tgt) (src := src) (e := e) formed
    unfold mergeElems
    generalize mergeElem asid x copy tgt src e s = q at here
    cases q with
    | error f => exact here
    | ok t => exact ih here

@[simp] theorem reportSpot_mem (s : State) (asid : Nat) (m : MergeStop) : (reportSpot s asid m).mem = s.mem := by
  unfold reportSpot
  repeat' split
  all_goals simp

@[simp] theorem mergeFaultTo_mem (s : State) (r : MergeRef) (f : Frame) (j : MergeJob) (tgt src : Spot) (w : Nat) (m : MergeStop) :
    (mergeFaultTo s r f j tgt src w m).mem = s.mem := by
  simp [mergeFaultTo]

@[simp] theorem stopMerge_formed {s : State} {r : MergeRef} {f : Frame} {j : MergeJob} {tgt src : Spot} {w : Nat} {m : MergeStop} (formed : Formed s) :
    Formed (stopMerge s r f j tgt src w m) := by
  unfold stopMerge
  repeat' split
  all_goals simp [formed]

@[simp] theorem stopHeader_formed {s : State} {r : MergeRef} {f : Frame} {j : MergeJob} {c : Cause × State} {va : Nat} (formed : Formed s)
    (left : Formed c.2) : Formed (stopHeader s r f j c va) :=
  stopMerge_formed (formed_ite formed left)

@[simp] theorem startMerge_mem (s : State) (id : Nat) (f : Frame) (owner : Option Nat) (core : Nat) (x : Tile) (tile : Nat) (tgt src : Spot) :
    (startMerge s id f owner core x tile tgt src).mem = s.mem := by
  simp [startMerge]

@[simp] theorem askMerge_mem (s : State) (id : Nat) (f : Frame) (j : MergeJob) (x : Tile) (tgt src : Spot) :
    (askMerge s id f j x tgt src).mem = s.mem := by
  simp [askMerge]

theorem slotHeader_formed {s : State} {f : Frame} {k off : Nat} {bs : List Byte} (formed : Formed s) :
    Formed (endState (slotHeader s f k bs off)) := writeVa_formed _ _ _ _ _ formed

@[simp] theorem implicitDone_mem (s : State) (team : Nat) : (implicitDone s team).mem = s.mem := by
  simp [implicitDone]

@[simp] theorem implicitBroken_formed {s : State} {id team cause : Nat} (formed : Formed s) : Formed (implicitBroken s id team cause) := by
  unfold implicitBroken
  dsimp only
  split <;> simp [formed]

theorem resetFrame_formed {s : State} {id : Nat} {f : Frame} (formed : Formed s) : Formed (endState (resetFrame s id f)) := by
  have written := writeVa_formed unitCore f.asid.toNat false f.va.toNat (resetHeader f) formed
  unfold resetFrame
  generalize writeVa s unitCore f.asid.toNat false f.va.toNat (resetHeader f) = q at written
  cases q with
  | error c => exact written
  | ok t => exact formed_of_mem (mem_foldl _ _ _ fun u k => letGo_mem ..) (show Formed t from written)

theorem settleFrame_formed {s : State} {id : Nat} {f : Frame} (formed : Formed s) : Formed (endState (settleFrame s id f)) := by
  unfold settleFrame
  split
  · exact writeIdentities_formed (s := s.setFrames _) formed
  · exact resetFrame_formed formed

@[simp] theorem finishApply_formed {s : State} {id : Nat} {f : Frame} {j : MergeJob} (formed : Formed s) : Formed (finishApply s id f j) := by
  have settled := settleFrame_formed (id := id) (f := f) formed
  unfold finishApply
  generalize settleFrame s id f = q at settled
  cases q with
  | error c => exact stopHeader_formed formed settled
  | ok s1 =>
    have done : Formed s1 := settled
    dsimp only
    split
    · exact formed_of_mem (implicitDone_mem ..) done
    · exact done
    · exact syncSettle_formed (formed_of_mem ((wakeGroup_mem ..).trans (l1Clear_beside ..).2.1) done)
    · exact done

@[simp] theorem finishJob_formed {s : State} {r : MergeRef} {f : Frame} {j : MergeJob} (formed : Formed s) : Formed (finishJob s r f j) := by
  unfold finishJob
  split
  · exact formed
  · split
    next written => exact stopHeader_formed formed (formed_of_eq (left := endState) (slotHeader_formed formed) written)
    next written =>
      have done := formed_of_eq (left := endState) (slotHeader_formed formed) written
      exact done
  · dsimp only
    split
    next written => exact stopHeader_formed formed (formed_of_eq (left := endState) (slotHeader_formed formed) written)
    next written =>
      have done := formed_of_eq (left := endState) (slotHeader_formed formed) written
      exact formed_of_mem (letGo_mem ..) done
  · exact finishApply_formed formed

@[simp] theorem mergeTile_formed {r : MergeRef} {f : Frame} {j : MergeJob} {x : Tile} {tgt src : Spot} {n : Nat} {s : State} (formed : Formed s) :
    Formed (mergeTile r f j x tgt src n s).1 := by
  unfold mergeTile
  extract_lets w todo q upTo s1
  have merged : Formed q.1 := mergeElems_formed formed
  have counted : Formed s1 := formed_ite merged (formed_of_mem (State.countDie_beside ..).2.1 merged)
  clear_value s1
  split
  · exact stopMerge_formed counted
  · split <;> exact counted

@[simp] theorem runTiles_formed {r : MergeRef} {n : Nat} {s : State} (formed : Formed s) : Formed (runTiles r n s) := by
  induction n generalizing s with
  | zero => exact formed
  | succ n ih =>
    unfold runTiles
    split
    · exact formed
    split
    · exact formed
    split
    · exact finishJob_formed formed
    split
    · exact formed
    split
    · exact formed_of_mem (askMerge_mem ..) formed
    · exact formed_ite (ih (mergeTile_formed formed)) (mergeTile_formed formed)

@[simp] theorem runMerge_formed {s : State} {r : MergeRef} (formed : Formed s) : Formed (runMerge s r) := by
  simp [runMerge, formed]

@[simp] theorem runPart_formed {s : State} {r : MergeRef} {n : Nat} (formed : Formed s) : Formed (runPart s r n) := by
  unfold runPart
  repeat' split
  all_goals simp [formed]

@[simp] theorem beginJob_mem (s : State) (id : Nat) (f : Frame) (src : MergeSrc) : (beginJob s id f src).mem = s.mem := by
  simp [beginJob]

@[simp] theorem startJob_formed {s : State} {id : Nat} {f : Frame} {src : MergeSrc} (formed : Formed s) : Formed (startJob s id f src) := by
  simp [startJob, formed]

@[simp] theorem beginPark_mem (s : State) (id : Nat) (f : Frame) (t k : Nat) : (beginPark s id f t k).mem = s.mem := by
  simp [beginPark]

@[simp] theorem parkStep_formed {s : State} {id : Nat} {f : Frame} (formed : Formed s) : Formed (parkStep s id f) := by
  simp [parkStep, formed]

@[simp] theorem stepJob_formed {s : State} {id : Nat} {f : Frame} {j : MergeJob} (formed : Formed s) : Formed (stepJob s id f j) := by
  unfold stepJob
  repeat' split
  all_goals simp [formed]

@[simp] theorem tellAgain_formed {s : State} {id : Nat} (formed : Formed s) : Formed (tellAgain s id) :=
  formed_ite (tellFrame_formed formed) formed

@[simp] theorem foldStep_formed {s : State} {id : Nat} (formed : Formed s) : Formed (foldStep s id) := by
  unfold foldStep
  repeat' split
  all_goals simp [formed]

@[simp] theorem beginNext_mem (s : State) (id : Nat) (f : Frame) : (beginNext s id f).mem = s.mem := by
  unfold beginNext
  repeat' split
  all_goals simp

@[simp] theorem mergeSome_formed {s : State} {id : Nat} {park : Option Nat} {n : Nat} (formed : Formed s) : Formed (mergeSome s id park n) := by
  unfold mergeSome
  repeat' split
  all_goals simp [formed]

theorem execFold_formed {frame : Nat} {s : State} (formed : Formed s) : FormedNext (execFold frame s) := by
  simp [execFold, formed]

theorem execMergeGroupRetire_formed {g : GRef} {s : State} (formed : Formed s) : FormedNext (execMergeGroupRetire g s) := by
  unfold execMergeGroupRetire
  repeat' split
  all_goals simp [formed]

@[simp] theorem failSync_formed {s : State} {id : Nat} {f : Frame} {cause sub : Nat} (formed : Formed s) : Formed (failSync s id f cause sub) := by
  unfold failSync
  split <;> simp [formed]

@[simp] theorem applyFails_formed {s : State} {id : Nat} {f : Frame} {cause sub : Nat} (formed : Formed s) :
    Formed (applyFails s id f cause sub) := by
  unfold applyFails
  split <;> simp [formed]

@[simp] theorem applyStep_formed {s : State} {id : Nat} (formed : Formed s) : Formed (applyStep s id) := by
  unfold applyStep
  repeat' split
  all_goals simp [formed]

theorem execSyncApplication_formed {frame : Nat} {s : State} (formed : Formed s) : FormedNext (execSyncApplication frame s) := by
  unfold execSyncApplication
  split <;> simp [formed]

theorem execGridCompletion_formed {grid : Nat} {s : State} (formed : Formed s) : FormedNext (execGridCompletion grid s) := by
  unfold execGridCompletion
  repeat' split
  all_goals simp [formed]

@[simp] theorem complete_formed {s : State} {queue : Nat} {tag : W32} {status detail : Nat} {value : W64} (formed : Formed s) :
    Formed (complete s queue tag status detail value) := by
  unfold complete
  split <;> simp [formed]

theorem execLaunchCompletion_formed {grid : Nat} {s : State} (formed : Formed s) : FormedNext (execLaunchCompletion grid s) := by
  unfold execLaunchCompletion
  split <;> simp [formed]

end Sys2Proof.Machine
end

section
/-! SUPPORT. Stakes, admissions, pre-emptions and collective rounds keep the form of memory (O50). -/

namespace Sys2Proof.Machine

@[simp] theorem settleInv_mem (s : State) (inv : Nat) (st : StakeSt) :
    (settleInv s inv st).mem = s.mem :=
  (settleInv_keeps ..).part State.mem fun _ => rfl

@[simp] theorem sendMsg_mem (s : State) (sender word : Nat) (stake : W64) (k : MsgKind) (waiter : Option (GRef × Nat)) :
    (sendMsg s sender word stake k waiter).mem = s.mem :=
  (sendMsg_keeps ..).part State.mem fun _ => rfl

@[simp] theorem invokeLanes_mem (f : RegF) (w : Wd) (target : Nat → InvTarget) : (invokeLanes f w target).st.mem = w.s.mem :=
  foldl_keeps (fun r : Res => r.st.mem) _ (fun _ _ => (invokeLane_keeps ..).part State.mem fun _ => rfl) w.acting (Res.done w.s)

@[simp] theorem invokeBody_mem (f : RegF) (target : Wd → Nat → InvTarget) (w : Wd) : (invokeBody f target w).st.mem = w.s.mem := by
  unfold invokeBody
  repeat' split
  all_goals simp

@[simp] theorem queryBody_mem (f : RegF) (kind : GRef → Nat → MsgKind) (w : Wd) : (queryBody f kind w).st.mem = w.s.mem := by
  refine foldl_keeps (fun r : Res => r.st.mem) _ (fun r l => ?_) w.acting (Res.done w.s)
  dsimp only
  split <;> rfl

@[simp] theorem settleOwn_mem (st : Wd → StakeSt) (w : Wd) : (settleOwn st w).st.mem = w.s.mem := by
  unfold settleOwn
  repeat' split
  all_goals simp

@[simp] theorem dropBody_mem (f : RegF) (w : Wd) : (dropBody f w).st.mem = w.s.mem := by
  refine foldl_keeps (fun r : Res => r.st.mem) _ (fun r l => ?_) w.acting (Res.done w.s)
  dsimp only
  split
  · rfl
  · split <;> rfl

@[simp] theorem putResult_mem (s : State) (placed : Option (Nat × Nat)) (f : List Nat → List Nat) : (putResult s placed f).mem = s.mem := by
  unfold putResult
  dsimp only
  repeat' split
  all_goals simp

@[simp] theorem dropAt_mem (s : State) (core slot : Nat) : (dropAt s core slot).mem = s.mem := by
  unfold dropAt
  dsimp only
  repeat' split
  all_goals simp

@[simp] theorem staleAt_mem (s : State) (msg : Nat) : (staleAt s msg).mem = s.mem :=
  (staleAt_keeps ..).part State.mem fun _ => rfl

@[simp] theorem landAt_mem (s : State) (msg core slot : Nat) : (landAt s msg core slot).mem = s.mem := by
  unfold landAt
  dsimp only
  split <;> simp

@[simp] theorem messageAt_mem (s : State) (msg : Nat) (m : StakeMsg) (core slot : Nat) (placed : Option (Nat × Nat)) (st : StakeSt) (queue : List Nat) :
    (messageAt s msg m core slot placed st queue).mem = s.mem := by
  unfold messageAt
  split <;> simp

@[simp] theorem taken_mem (s : State) (msg : Nat) (m : StakeMsg) : (taken s msg m).mem = s.mem := by
  unfold taken
  split
  · rfl
  · refine (mem_foldl _ _ _ fun t k => ?_).trans rfl
    split
    · exact mem_ite (wakeLane_mem ..)
    · rfl

@[simp] theorem entered_mem (s : State) (msg : Nat) (m : StakeMsg) : (entered s msg m).mem = s.mem := by
  unfold entered
  dsimp only
  repeat' split
  all_goals simp

@[simp] theorem proxied_mem (s : State) (msg : Nat) (m : StakeMsg) : (proxied s msg m).mem = s.mem := by
  unfold proxied
  split <;> simp

@[simp] theorem stakeMessageOf_mem (msg : Nat) (s : State) : (stakeMessageOf msg s).mem = s.mem := by
  unfold stakeMessageOf
  repeat' split
  all_goals simp

@[simp] theorem loseStake_mem (s : State) (core slot cause : Nat) :
    (loseStake s core slot cause).mem = s.mem :=
  (loseStake_keeps ..).part State.mem fun _ => rfl

@[simp] theorem peerMessage_mem (s : State) (stake : W64) (k : MsgKind) : (peerMessage s stake k).mem = s.mem := by
  unfold peerMessage
  dsimp only
  repeat' split
  all_goals simp

@[simp] theorem peerInv_mem (s : State) (word : W64) (payload : List Byte) (stake via : W64) (asid : BitVec 12) (prio : Nat) :
    (peerInv s word payload stake via asid prio).2.mem = s.mem := by
  simp [peerInv]

@[simp] theorem arrive_mem (s : State) (inv : Nat) (core : Option Nat) (die : Nat) : (arrive s inv core die).mem = s.mem := by
  simp [arrive]

@[simp] theorem peerInvoked_mem (s : State) (inv : Nat) (t : InvTarget) (asid : BitVec 12) : (peerInvoked s inv t asid).mem = s.mem := by
  unfold peerInvoked
  repeat' split
  all_goals simp

@[simp] theorem peerSend_mem (s : State) (dev : Nat) (m : PeerMsg) : (peerSend s dev m).mem = s.mem := by
  unfold peerSend
  repeat' split
  all_goals simp

theorem execStakeMessage_formed {index : Nat} {s : State} (formed : Formed s) : FormedNext (execStakeMessage index s) := by
  simp [execStakeMessage, formed]

@[simp] theorem admitTeam_mem (s : State) (id : Nat) (g : Grid) (core : Nat) : (admitTeam s id g core).mem = s.mem := by
  simp [admitTeam]

theorem execTeamAdmission_formed {s : State} (formed : Formed s) : FormedNext (execTeamAdmission s) := by
  unfold execTeamAdmission
  split <;> simp [formed]

@[simp] theorem admitTask_mem (s : State) (die i : Nat) (k : TaskRec) (core : Nat) : (admitTask s die i k core).mem = s.mem := by
  simp [admitTask]

theorem execTaskAdmission_formed {die : Nat} {s : State} (formed : Formed s) : FormedNext (execTaskAdmission die s) := by
  unfold execTaskAdmission
  split <;> simp [formed]

@[simp] theorem forwardQueue_mem (s : State) (i : Invocation) (core rslot : Nat) : (forwardQueue s i core rslot).mem = s.mem := by
  unfold forwardQueue
  dsimp only
  split <;> simp

@[simp] theorem placeHandler_mem (s : State) (id : Nat) (i : Invocation) (core : Nat) : (placeHandler s id i core).mem = s.mem := by
  simp [placeHandler]

theorem execPlacement_formed {core : Nat} {s : State} (formed : Formed s) : FormedNext (execPlacement core s) := by
  unfold execPlacement
  split <;> simp [formed]

theorem execPreemption_formed {s : State} (formed : Formed s) : FormedNext (execPreemption s) := by
  unfold execPreemption
  split
  · exact formed
  · split
    · exact formed_of_mem (mem_foldl _ _ _ fun t x => beginSave_mem ..) formed
    · exact formed

theorem keepFrames_formed {s : State} {t : Team} {gs : List Group} (formed : Formed s) : Formed (leftState (keepFrames s t gs)) := by
  induction gs generalizing s with
  | nil => exact formed
  | cons gr gs ih =>
    unfold keepFrames
    split
    · have rest := ih formed
      generalize keepFrames s t gs = q at rest
      cases q <;> exact rest
    · split
      next read => exact readRaw_error formed read
      next s1 read =>
        have rest := ih (readRaw_ok formed read)
        generalize keepFrames s1 t gs = q at rest
        cases q <;> exact rest

@[simp] theorem saveTeam_formed {s : State} {team : Nat} {t : Team} {c : Ctx} {off : Nat} (formed : Formed s) :
    Formed (saveTeam s team t c off) := by
  have kept := keepFrames_formed (t := t) (gs := t.groups) formed
  unfold saveTeam
  generalize keepFrames s t t.groups = q at kept
  obtain ⟨e, s1⟩ | ⟨gs, s1⟩ := q
  · exact formed_ite formed (teamFatal_formed kept)
  · have known : Formed s1.takeFree.2 := kept
    dsimp only
    split
    next written => exact formed_ite formed (teamFatal_formed (writeVa_error known written))
    next written =>
      have done := writeVa_ok known written
      exact formed_ite (formed_of_mem ((joinTail_mem ..).trans (State.countCore_mem ..)) done) (formed_of_mem (State.countCore_mem ..) done)

theorem execPreemptionSave_formed {team : Nat} {s : State} (formed : Formed s) : FormedNext (execPreemptionSave team s) := by
  unfold execPreemptionSave
  repeat' split
  all_goals simp [formed]

theorem putFrames_formed {t : Team} {gs : List Group} {s : State} (formed : Formed s) : Formed (endState (putFrames t gs s)) := by
  induction gs generalizing s with
  | nil => exact formed
  | cons gr gs ih =>
    unfold putFrames
    split
    · exact ih formed
    next h _ =>
      have written := writeVa_formed t.core gr.ctl.asid.toNat true h.frame.toNat h.kept formed
      generalize writeVa s t.core gr.ctl.asid.toNat true h.frame.toNat h.kept = q at written
      cases q with
      | error c => exact written
      | ok s1 => exact ih written

@[simp] theorem applyHeld_formed {team : Nat} {s : State} {x : HeldIn} (formed : Formed s) : Formed (applyHeld team s x) := by
  unfold applyHeld
  split <;> simp [formed]

@[simp] theorem resumeTeam_formed {s : State} {team : Nat} {t : Team} (formed : Formed s) : Formed (resumeTeam s team t) := by
  have put := putFrames_formed (t := t) (gs := t.groups) formed
  unfold resumeTeam
  generalize putFrames t t.groups s = q at put
  obtain ⟨c, s1⟩ | s0 := q
  · exact formed_ite formed (teamFatal_formed put)
  · dsimp -zeta only
    extract_lets t1 s1 s2 s3
    have cleared : Formed s1 := formed_of_mem (l1Clear_beside ..).2.1 (show Formed s0 from put)
    have back : Formed s3 := by
      change Formed s2
      dsimp only [s2]
      split <;> exact cleared
    exact formed_of_mem (mem_foldl _ _ _ fun u i => whileRunning_mem ..) (formed_foldl (fun u x => applyHeld_formed u.2) back)

theorem execTeamResume_formed {team : Nat} {s : State} (formed : Formed s) : FormedNext (execTeamResume team s) := by
  unfold execTeamResume
  split <;> simp [formed]

@[simp] theorem fromAfar_mem (s : State) (grid tree num : Nat) (src : NetSrc) (mine : Tree → Bool) :
    (fromAfar s grid tree num src mine).mem = s.mem := by
  unfold fromAfar
  split <;> simp

theorem execRouterInput_formed {round : Nat} {src : NetSrc} {s : State} (formed : Formed s) : FormedNext (execRouterInput round src s) := by
  unfold execRouterInput
  repeat' split
  all_goals simp [formed]

theorem execRoundTimeout_formed {round node : Nat} {s : State} (formed : Formed s) : FormedNext (execRoundTimeout round node s) := by
  unfold execRoundTimeout
  repeat' split
  all_goals simp [formed]

theorem execRoundComplete_formed {round core : Nat} {s : State} (formed : Formed s) : FormedNext (execRoundComplete round core s) := by
  unfold execRoundComplete
  repeat' split
  all_goals simp [formed]

end Sys2Proof.Machine
end

section
/-! SUPPORT. The commands of the queues, the commits and the resets keep the form of memory (O50). -/

namespace Sys2Proof.Machine

@[simp] theorem plainRead_mem (s : State) (addr n : Nat) : (plainRead s addr n).2.mem = s.mem := (plainRead_beside ..).2.1

@[simp] theorem settleBad_formed {n : Nat} {s : State} {queue : Nat} (formed : Formed s) : Formed (settleBad n s queue) := by
  induction n generalizing s with
  | zero => exact formed
  | succ n ih =>
    unfold settleBad
    split
    · split
      · split
        · exact ih (complete_formed (formed_of_mem (State.setQueues_mem ..) formed))
        · exact formed
      · exact formed
    · exact formed

@[simp] theorem popCmd_formed {s : State} {queue : Nat} (formed : Formed s) : Formed (popCmd s queue) :=
  settleBad_formed (formed_of_mem (State.setQueues_mem ..) formed)

@[simp] theorem finishCmd_formed {s : State} {queue : Nat} {c : Cmd} {status detail : Nat} {value : W64} (formed : Formed s) :
    Formed (finishCmd s queue c status detail value) := by
  simp [finishCmd, formed]

@[simp] theorem readCmds_mem (as : List Nat) (s : State) : (readCmds as s).2.mem = s.mem := by
  induction as generalizing s with
  | nil => rfl
  | cons a rest ih => exact (ih _).trans (plainRead_mem ..)

@[simp] theorem readRing_formed {s : State} {queue : Nat} (formed : Formed s) : Formed (readRing s queue) := by
  unfold readRing
  split
  · exact formed
  · split
    · exact formed
    · exact settleBad_formed (formed_of_mem (readCmds_mem ..) formed)

@[simp] theorem doorbellAt_formed {s : State} {queue index : Nat} (formed : Formed s) : Formed (doorbellAt s queue index) := by
  simp [doorbellAt, formed]

theorem execDoorbell_formed {queue index : Nat} {s : State} (formed : Formed s) : FormedNext (execDoorbell queue index s) := by
  simp [execDoorbell, formed]

@[simp] theorem setupQueue_mem (s : State) (queue : Nat) (r : Ring) : (setupQueue s queue r).mem = s.mem := by
  unfold setupQueue
  split <;> simp

@[simp] theorem bindQueue_mem (s : State) (queue : Nat) (ctx : Option Nat) : (bindQueue s queue ctx).mem = s.mem := by
  simp [bindQueue]

theorem execContextCreate_formed {queue : Nat} {s : State} (formed : Formed s) : FormedNext (execContextCreate queue s) := by
  unfold execContextCreate
  cases headCmd s queue 2 with
  | none => exact formed
  | some c =>
    have read : Formed (plainRead s c.arg0.toNat 64).2 := formed_of_mem (plainRead_mem ..) formed
    dsimp only
    generalize plainRead s c.arg0.toNat 64 = r at read
    split
    · exact finishCmd_formed (by simpa using read)
    · exact finishCmd_formed formed

theorem execContextAttach_formed {queue : Nat} {s : State} (formed : Formed s) : FormedNext (execContextAttach queue s) := by
  unfold execContextAttach
  split <;> simp [formed]

theorem execContextDestroy_formed {queue : Nat} {s : State} (formed : Formed s) : FormedNext (execContextDestroy queue s) := by
  unfold execContextDestroy
  split <;> simp [formed]

theorem execExportWindow_formed {queue : Nat} {s : State} (formed : Formed s) : FormedNext (execExportWindow queue s) := by
  unfold execExportWindow
  split <;> simp [formed]

theorem unitTry_formed {α : Type} {x : Except (Cause × State) α} {fail : State → α} {left : α → State} {r : α}
    (bad : ∀ c t, x = .error (c, t) → Formed (left (fail t))) (good : ∀ r, x = .ok r → Formed (left r)) (tried : unitTry x fail = some r) :
    Formed (left r) := by
  unfold unitTry at tried
  split at tried
  next r' => exact Option.some.inj tried ▸ good r' rfl
  next c t =>
    split at tried
    · exact nomatch tried
    · exact Option.some.inj tried ▸ bad c t rfl

/-- A try that keeps the state of its failure comes to the state in which the write ended. -/
theorem unitTry_end {q : Except (Cause × State) State} {t : State} (tried : unitTry q (fun u => u) = some t) : endState q = t := by
  obtain ⟨c, u⟩ | u := q
  · exact (ite_eq_iff.1 tried).elim (fun h => nomatch h.2) fun h => Option.some.inj h.2
  · exact Option.some.inj tried

theorem bindLaunch_formed {s : State} {id ctx : Nat} {asid : BitVec 12} {bs : List Byte} {tiles : List Tile} {r : Option Nat × State}
    (formed : Formed s) (bound : bindLaunch s id ctx asid bs tiles = some r) : Formed r.2 := by
  unfold bindLaunch at bound
  split at bound
  · exact Option.some.inj bound ▸ formed
  · obtain ⟨h, headed, bound⟩ := Option.bind_eq_some_iff.1 bound
    obtain ⟨t, tried, rfl⟩ := Option.map_eq_some_iff.1 bound
    have head : Formed h.2 := unitTry_formed (left := Prod.snd) (fun _ _ => readRaw_error formed) (fun _ => readRaw_ok formed) headed
    have fresh : Formed h.2.newId.2 := formed_of_mem (State.newId_mem _) head
    generalize found : writeIdentities _ unitCore false tiles h.2.newId.2 = q at tried
    have wrote : Formed (endState q) := formed_of_eq (writeIdentities_formed fresh) found
    have written : Formed t := unitTry_end tried ▸ wrote
    exact formed_of_mem (State.setFrames_mem ..) written

theorem acceptLaunch_formed {s t : State} {queue ctx : Nat} {c : Cmd} {x : Ctx} {bs : List Byte} {i : LaunchInfo} (formed : Formed s)
    (accepted : acceptLaunch s queue c ctx x bs i = some t) : Formed t := by
  obtain ⟨f, bound, rfl⟩ := Option.map_eq_some_iff.1 accepted
  have frame := bindLaunch_formed (s := s.newId.2) (formed_of_mem (State.newId_mem _) formed) bound
  exact formed_of_mem ((State.setCtxs_mem ..).trans (State.setGrids_mem ..)) frame

theorem execLaunch_formed {queue : Nat} {s : State} (formed : Formed s) : FormedNext (execLaunch queue s) := by
  unfold execLaunch
  split
  next c n x _ _ =>
    have read := (readLaunch_from s x.asid c.arg0.toNat).1
    generalize readLaunch s x.asid c.arg0.toNat = r at read
    obtain ⟨k, s1⟩ | ⟨⟨bs, i⟩, s1⟩ := r
    · cases k with
      | none => exact formed
      | some k => exact finishCmd_formed (formed_of_mem read formed)
    · dsimp only
      split
      · exact formed
      · cases accepted : acceptLaunch s1 queue c n x bs i with
        | none => exact formed
        | some t => exact popCmd_formed (acceptLaunch_formed (formed_of_mem read formed) accepted)
  next => exact formed

@[simp] theorem stopDevice_mem (s : State) : (stopDevice s).mem = s.mem := (stopDevice_sys s).2

@[simp] theorem resumeDevice_mem (s : State) : (resumeDevice s).mem = s.mem := by
  simp [resumeDevice]

/-- A checkpoint moves the whole of memory in the order of its addresses: what it writes is again in the one form. -/
@[simp] theorem writeCheckpoint_formed {s : State} {tb : Nat} (formed : Formed s) : Formed (writeCheckpoint s tb) := by
  obtain ⟨-, -, written, -⟩ := writeCheckpoint_effect s tb
  exact (congrArg (Memory.wf · = true) written).mpr (memWrite_wf _ _ _ (copyOut_wf _ _ formed))

theorem execCheckpoint_formed {queue : Nat} {s : State} (formed : Formed s) : FormedNext (execCheckpoint queue s) := by
  unfold execCheckpoint
  dsimp only
  repeat' split
  all_goals simp [formed]

/-- A restore moves the bytes of a checkpoint back in the same order. -/
@[simp] theorem readCheckpoint_formed {s : State} {tb : Nat} (formed : Formed s) : Formed (readCheckpoint s tb) :=
  (congrArg (Memory.wf · = true) (readCheckpoint_effect s tb).1).mpr (copyIn_wf _ _ formed)

theorem execRestore_formed {queue : Nat} {s : State} (formed : Formed s) : FormedNext (execRestore queue s) := by
  unfold execRestore
  repeat' split
  all_goals simp [formed]

@[simp] theorem transfer_mem (u once : Bool) (target : Thread → W64) (link : Thread → Thread) (w : Wd) :
    (transfer u once target link w).st.mem = w.s.mem := by
  unfold transfer
  dsimp only
  repeat' split
  all_goals simp

@[simp] theorem exitBody_mem (w : Wd) : (exitBody w).st.mem = w.s.mem := by
  unfold exitBody
  split <;> simp

@[simp] theorem mxqBody_mem (f : RegF) (w : Wd) : (mxqBody f w).st.mem = w.s.mem := by
  simp [mxqBody]

theorem execCommitRound_formed {g : GRef} {s : State} (formed : Formed s) : FormedNext (execCommitRound g s) := by
  unfold execCommitRound
  cases s.group? g with
  | none => exact formed
  | some gr =>
    dsimp only
    refine formed_ite formed (formed_ite ?_ ?_) <;> simp [sendCairn_mem, formed]

@[simp] theorem loseLane_mem (id : Nat) (c : Cairn) (s : State) (l code sub : Nat) : (loseLane id c s l code sub).mem = s.mem := by
  unfold loseLane
  dsimp only
  split <;> simp

@[simp] theorem reportReads_mem (s : State) (gr : Group) (c : Cairn) (line : Nat) : (reportReads s gr c line).mem = s.mem := by
  refine mem_foldl _ _ _ fun t l => ?_
  split
  · exact mem_foldl _ _ _ fun u e => mem_ite (report_beside ..).2.1
  · rfl

@[simp] theorem commitLanes_mem (s : State) (id : Nat) (c : Cairn) : (commitLanes s id c).mem = s.mem := by
  unfold commitLanes
  extract_lets s1 s2 core s3
  have raised : s2.mem = s1.mem := mem_ite (mem_foldl _ _ _ fun t l => by
    split
    · exact (raiseCursor_beside ..).2.1
    · rfl)
  simp [s3, raised, s1]

@[simp] theorem firstPass_mem (s : State) (id : Nat) (c : Cairn) (gr : Group) (line : Nat) (rest : List Nat) :
    (firstPass s id c gr line rest).mem = s.mem := by
  unfold firstPass
  repeat' split
  all_goals simp

theorem execCairn_formed {g : GRef} {s : State} (formed : Formed s) : FormedNext (execCairn g s) := by
  unfold execCairn
  repeat' split
  all_goals simp [formed]

theorem execOrderedCommit_formed {g : GRef} {s : State} (formed : Formed s) : FormedNext (execOrderedCommit g s) := by
  unfold execOrderedCommit
  split
  · exact formed
  · split
    · exact formed
    · exact formed_ite (formed_of_mem (sendCairn_mem ..) formed) formed

theorem execIrrevocableBegin_formed {g : GRef} {lane : Nat} {s : State} (formed : Formed s) : FormedNext (execIrrevocableBegin g lane s) := by
  unfold execIrrevocableBegin
  repeat' split
  all_goals simp [formed]

theorem execWatchdog_formed {g : GRef} {lane : Nat} {s : State} (formed : Formed s) : FormedNext (execWatchdog g lane s) := by
  unfold execWatchdog
  repeat' split
  all_goals simp [formed]

@[simp] theorem loseTeam_formed {die : Nat} {s : State} {id : Nat} (formed : Formed s) : Formed (loseTeam die s id) := by
  unfold loseTeam
  dsimp only
  repeat' split
  all_goals simp [formed]

@[simp] theorem resetCores_formed {s : State} {die : Nat} (formed : Formed s) : Formed (resetCores s die) := by
  simp [resetCores, formed]

theorem execCoreReset_formed {die : Nat} {s : State} (formed : Formed s) : FormedNext (execCoreReset die s) := by
  simp [execCoreReset, formed]

@[simp] theorem quiesceCairn_formed {die : Nat} {s : State} {id : Nat} (formed : Formed s) : Formed (quiesceCairn die s id) := by
  unfold quiesceCairn
  repeat' split
  all_goals simp [formed]

@[simp] theorem performBefore_formed {s : State} {id : Nat} (formed : Formed s) : Formed (performBefore s id) := by
  unfold performBefore
  split
  · exact formed_of_mem (retire_mem ..) (performed_formed (formed_of_mem (State.setPend_mem ..) formed))
  · exact formed

@[simp] theorem loseInvocation_mem (s : State) (id : Nat) : (loseInvocation s id).mem = s.mem := by
  simp [loseInvocation]

@[simp] theorem loseFrames_formed {s : State} {die : Nat} (formed : Formed s) : Formed (loseFrames s die) := by
  unfold loseFrames
  refine formed_of_mem (State.modDie_beside ..).2.1 (formed_foldl (fun t k => ?_) (formed_foldl (fun t f => breakFrame_formed t.2) formed))
  exact formed_of_mem (State.setFrames_mem ..) (breakFrame_formed t.2)

@[simp] theorem loseWork_formed {s : State} {die : Nat} (formed : Formed s) : Formed (loseWork s die) := by
  simp [loseWork, formed]

@[simp] theorem writeStack_mem (s : State) (die : Nat) : (writeStack s die).mem = s.mem := by
  simp [writeStack]

@[simp] theorem warmReset_formed {s : State} {die : Nat} (formed : Formed s) : Formed (warmReset s die) := by
  unfold warmReset
  extract_lets s1 s2 s3 s4
  have stopped : Formed s1 := by simp [s1, formed]
  have quiet : Formed s2 := formed_foldl (fun t c => quiesceCairn_formed t.2) stopped
  have performed : Formed s3 := formed_foldl (fun t a => performBefore_formed t.2) quiet
  have broken : Formed s4 := formed_of_mem (breakTrees_mem ..) (by simp [performed])
  exact formed_of_mem (State.modDie_beside ..).2.1 broken

@[simp] theorem waitReset_formed {s : State} {die queue : Nat} {c : Cmd} (formed : Formed s) : Formed (waitReset s die queue c) := by
  simp [waitReset, formed]

theorem execDieReset_formed {queue : Nat} {s : State} (formed : Formed s) : FormedNext (execDieReset queue s) := by
  unfold execDieReset
  dsimp only
  repeat' split
  all_goals simp [formed]

theorem execRouterFailure_formed {die router : Nat} {s : State} (formed : Formed s) : FormedNext (execRouterFailure die router s) := by
  simp [execRouterFailure, formed]

@[simp] theorem markFailed_mem (s : State) (die : Nat) : (markFailed s die).mem = s.mem := by
  simp [markFailed]

theorem execFabricError_formed {die : Nat} {s : State} (formed : Formed s) : FormedNext (execFabricError die s) := by
  simp [execFabricError, formed]

@[simp] theorem completeWaiters_formed {s : State} {die status : Nat} (formed : Formed s) : Formed (completeWaiters s die status) := by
  simp [completeWaiters, formed]

theorem execDieReadmission_formed {die : Nat} {ok : Bool} {s : State} (formed : Formed s) : FormedNext (execDieReadmission die ok s) := by
  unfold execDieReadmission
  dsimp only
  have admitted := raiseHorizons_mem (markFailed s die) die
  refine formed_ite formed (formed_ite (completeWaiters_formed (formed_ite ?_ (formed_of_mem (restartCores_mem ..) ?_))) ?_) <;>
    simp [admitted, formed]

@[simp] theorem proxyAnswer_mem (s : State) (msg : Nat) : (proxyAnswer s msg).mem = s.mem := by
  unfold proxyAnswer
  repeat' split
  all_goals simp

theorem execProxyAnswer_formed {index : Nat} {s : State} (formed : Formed s) : FormedNext (execProxyAnswer index s) := by
  simp [execProxyAnswer, formed]

/-- A module reset keeps the memory of the host and of the peers, which stands above all other: the rest of the list is dropped. -/
theorem execModuleReset_formed {s : State} (formed : Formed s) : FormedNext (execModuleReset s) :=
  filter_wf s.mem (fun a => memKey 9 0 ≤ a) formed

@[simp] theorem startFails_mem (s : State) (code : Nat) : (startFails s code).mem = s.mem := by
  simp [startFails]

theorem execTrainingComplete_formed {iod1 : Bool} {s : State} (formed : Formed s) : FormedNext (execTrainingComplete iod1 s) := by
  simp [execTrainingComplete, formed]

@[simp] theorem beginStageD_formed {s : State} (formed : Formed s) : Formed (beginStageD s) := by
  simp [beginStageD, formed]

theorem execDieAdmission_formed {die : Nat} {ok : Bool} {s : State} (formed : Formed s) : FormedNext (execDieAdmission die ok s) := by
  unfold execDieAdmission
  extract_lets s0 x s1
  have up : Formed s0 := formed_ite (formed_of_mem (State.modDie_beside ..).2.1 formed) formed
  have started : Formed s1 := formed_ite (formed_of_mem (restartCores_mem ..) up) up
  refine formed_ite formed (formed_ite started (formed_ite (beginStageD_formed started) ?_))
  simp [started]

theorem execThrottle_formed {up : Bool} {s : State} (formed : Formed s) : FormedNext (execThrottle up s) := by
  simp [execThrottle, formed]

theorem execThermalTrip_formed {s : State} (formed : Formed s) : FormedNext (execThermalTrip s) := by
  unfold execThermalTrip
  split <;> simp [formed]

theorem execThermalRelease_formed {s : State} (formed : Formed s) : FormedNext (execThermalRelease s) :=
  formed_of_mem (mem_foldl _ _ _ fun _ _ => mem_ite (restartCores_mem ..)) (formed_of_mem (State.setSys_mem ..) formed)

end Sys2Proof.Machine
end

section
/-! SUPPORT. The links, the services and the environment keep the form of memory (O50). -/

namespace Sys2Proof.Machine

theorem execFlitReceive_formed {port dev len : Nat} {ok : Bool} {payload : List Byte} {s : State} (formed : Formed s) :
    FormedNext (execFlitReceive port dev len ok payload s) := by
  unfold execFlitReceive
  split <;> simp [formed]

theorem execPortDown_formed {port : Nat} {s : State} (formed : Formed s) : FormedNext (execPortDown port s) := by
  unfold execPortDown
  split <;> simp [formed]

@[simp] theorem peerGone_mem (s : State) (dev : Nat) : (peerGone s dev).mem = s.mem :=
  (peerGone_keeps ..).part State.mem fun _ => rfl

theorem execPeerLost_formed {dev : Nat} {s : State} (formed : Formed s) : FormedNext (execPeerLost dev s) := by
  unfold execPeerLost
  split
  · exact formed_ite formed (formed_of_mem ((State.setCtxs_mem ..).trans (breakTrees_mem ..)) (by simp [formed]))
  · exact formed

@[simp] theorem stageFour_mem (s : State) : (stageFour s).mem = s.mem := (stageFour_keeps ..).part State.mem fun _ => rfl

theorem execJiathTraining_formed {dev : Nat} {ports peers : List Nat} {s : State} (formed : Formed s) :
    FormedNext (execJiathTraining dev ports peers s) := by
  simp [execJiathTraining, formed]

theorem execJiathTrainingTimeout_formed {s : State} (formed : Formed s) : FormedNext (execJiathTrainingTimeout s) := by
  simp [execJiathTrainingTimeout, formed]

@[simp] theorem mfsBody_mem (f : RegF) (w : Wd) : (mfsBody f w).st.mem = w.s.mem := by
  unfold mfsBody
  repeat' split
  all_goals simp

@[simp] theorem mtsBody_mem (f : RegF) (w : Wd) : (mtsBody f w).st.mem = w.s.mem := by
  unfold mtsBody
  dsimp only
  repeat' split
  all_goals simp

@[simp] theorem mailed_mem (s : State) (cmd status : Nat) (data : List Byte) : (mailed s cmd status data).mem = s.mem := by
  simp [mailed]

@[simp] theorem loadFirmware_mem (data : List Byte) (addr len : Nat) (s : State) : (loadFirmware data addr len s).mem = s.mem := by
  unfold loadFirmware
  dsimp only
  repeat' split
  all_goals simp

theorem execLoadFirmware_formed {addr : W64} {len : Nat} {s : State} (formed : Formed s) : FormedNext (execLoadFirmware addr len s) := by
  simp [execLoadFirmware, formed]

@[simp] theorem setPrivTo_mem (data : List Byte) (cmd : Nat) (p : Bool) (ctx : Nat) (s : State) : (setPrivTo data cmd p ctx s).mem = s.mem := by
  simp [setPrivTo]

theorem execSetPriv_formed {ctx : Nat} {s : State} (formed : Formed s) : FormedNext (execSetPriv ctx s) := by
  simp [execSetPriv, formed]

theorem execClearPriv_formed {ctx : Nat} {s : State} (formed : Formed s) : FormedNext (execClearPriv ctx s) := by
  simp [execClearPriv, formed]

@[simp] theorem readSensors_mem (s : State) : (readSensors s).mem = s.mem := by
  simp [readSensors]

theorem execReadSensors_formed {s : State} (formed : Formed s) : FormedNext (execReadSensors s) := by
  simp [execReadSensors, formed]

@[simp] theorem setPowerLimit_mem (data : List Byte) (watts : Nat) (s : State) : (setPowerLimit data watts s).mem = s.mem := by
  simp [setPowerLimit]

theorem execSetPowerLimit_formed {watts : Nat} {s : State} (formed : Formed s) : FormedNext (execSetPowerLimit watts s) := by
  simp [execSetPowerLimit, formed]

@[simp] theorem setAccess_mem (data : List Byte) (target master : Nat) (rights : BitVec 8) (s : State) :
    (setAccess data target master rights s).mem = s.mem := by
  simp [setAccess]

theorem execSetAccess_formed {target master : Nat} {rights : BitVec 8} {s : State} (formed : Formed s) :
    FormedNext (execSetAccess target master rights s) := by
  simp [execSetAccess, formed]

@[simp] theorem mailCommand_mem (s : State) (cmd : Nat) (data : List Byte) : (mailCommand s cmd data).mem = s.mem := by
  unfold mailCommand
  split <;> simp

@[simp] theorem mailWrite_mem (s : State) (off : Nat) (bs : List Byte) : (mailWrite s off bs).mem = s.mem := by
  unfold mailWrite
  extract_lets m box
  split
  · exact mailCommand_mem ..
  · exact mailed_mem ..

@[simp] theorem spdmAnswer_mem (s : State) (parts : List SpdmPart) : (spdmAnswer s parts).mem = s.mem := by
  simp [spdmAnswer]

theorem execGetVersion_formed {s : State} (formed : Formed s) : FormedNext (execGetVersion s) := by
  simp [execGetVersion, formed]

theorem execGetCapabilities_formed {s : State} (formed : Formed s) : FormedNext (execGetCapabilities s) := by
  simp [execGetCapabilities, formed]

theorem execNegotiateAlgorithms_formed {s : State} (formed : Formed s) : FormedNext (execNegotiateAlgorithms s) := by
  simp [execNegotiateAlgorithms, formed]

theorem execGetDigests_formed {s : State} (formed : Formed s) : FormedNext (execGetDigests s) := by
  simp [execGetDigests, formed]

theorem execGetCertificate_formed {s : State} (formed : Formed s) : FormedNext (execGetCertificate s) := by
  simp [execGetCertificate, formed]

theorem execChallenge_formed {nonce : List Byte} {s : State} (formed : Formed s) : FormedNext (execChallenge nonce s) := by
  simp [execChallenge, formed]

theorem execGetMeasurements_formed {s : State} (formed : Formed s) : FormedNext (execGetMeasurements s) := by
  simp [execGetMeasurements, formed]

@[simp] theorem popLog_mem (s : State) (log n : Nat) : (popLog s log n).mem = s.mem := by
  simp [popLog]

@[simp] theorem clearOvf_mem (s : State) (log : Nat) : (clearOvf s log).mem = s.mem := by
  simp [clearOvf]

theorem execPop_formed {log n : Nat} {s : State} (formed : Formed s) : FormedNext (execPop log n s) := by
  simp [execPop, formed]

theorem execOvfClear_formed {log : Nat} {s : State} (formed : Formed s) : FormedNext (execOvfClear log s) := by
  simp [execOvfClear, formed]

@[simp] theorem pcieDone_mem (s : State) (ok : Bool) (data : List Byte) : (pcieDone s ok data).mem = s.mem := by
  simp [pcieDone]

@[simp] theorem pciePerform_formed {s : State} {ps : List (Nat × Nat)} {r : PcieReq} (formed : Formed s) : Formed (pciePerform s ps r) := by
  unfold pciePerform
  dsimp only
  repeat' split
  all_goals simp [formed]

@[simp] theorem barWrite_formed {s : State} {off : Nat} {bs : List Byte} (formed : Formed s) : Formed (barWrite s off bs) := by
  unfold barWrite
  dsimp only
  repeat' split
  all_goals simp [formed]

@[simp] theorem barRequest_formed {s : State} {fn off n : Nat} {r : PcieReq} (formed : Formed s) : Formed (barRequest s fn off n r) := by
  unfold barRequest
  dsimp only
  repeat' split
  all_goals simp [formed]

theorem execPciExpressRequest_formed {fn : Nat} {r : PcieReq} {s : State} (formed : Formed s) : FormedNext (execPciExpressRequest fn r s) := by
  unfold execPciExpressRequest
  dsimp only
  repeat' split
  all_goals simp [formed]

@[simp] theorem nextTurn_mem (s : State) : (nextTurn s).2.mem = s.mem := by
  unfold nextTurn
  split <;> simp

@[simp] theorem upset_mem (s : State) (e : ErrAt) : (upset s e).mem = s.mem := by
  unfold upset
  repeat' split
  all_goals simp

@[simp] theorem corrected_mem (s : State) (log chan : Nat) : (corrected s log chan).mem = s.mem := by
  simp [corrected]

@[simp] theorem peerAnswered_mem (s : State) (msg : Nat) (status : W64) (bs : List Byte) : (peerAnswered s msg status bs).mem = s.mem := by
  unfold peerAnswered
  repeat' split
  all_goals simp

@[simp] theorem peerSettled_mem (s : State) (inv : Nat) (st : StakeSt) : (peerSettled s inv st).mem = s.mem := by
  unfold peerSettled
  dsimp only
  repeat' split
  all_goals simp

@[simp] theorem outsideWrite_formed {s : State} {key : Nat} {bs : List Byte} (formed : Formed s) : Formed (outsideWrite s key bs) := by
  simp [outsideWrite, formed]

@[simp] theorem passed_mem (a : After) (s : State) : (passed a s).mem = s.mem := by
  unfold passed
  split <;> simp

end Sys2Proof.Machine
end

section
/-! PROOFS. Every step keeps the canonical form of memory (O50). -/

namespace Sys2Proof.Machine

/-- A body that leaves memory as it is keeps its form. -/
theorem FormedBody.same {body : Wd → Res} (same : ∀ w, (body w).st.mem = w.s.mem) : FormedBody body :=
  fun w formed _ => formed_of_mem (same w) formed

theorem runWord_kept {i : Instr} {body : Wd → Res} {s : State} (same : ∀ w, (body w).st.mem = w.s.mem) (formed : Formed s) :
    FormedNext (runWord i body s) :=
  runWord_formed (FormedBody.same same) formed

/-- FENCE leaves memory as it is, whether it traps or not. -/
theorem fence_mem {p : Prop} [Decidable p] {o : Order} {sc : Scope} {c sub : Nat} {v : W64} {ls : List Nat} (w : Wd) :
    (if p then Res.trap w.s c sub v ls else fenceBody o sc w).st.mem = w.s.mem := by
  split
  · rfl
  · exact fenceBody_mem ..

/-- Every instruction and every event of the opcode table keeps the form of memory. -/
theorem exec_formed {i : Instr} {s : State} (formed : Formed s) : FormedNext (exec i s) := by
  cases i
  case iadd | isub | iaddc | isubb | imul | imulh | imad | imadw | idiv | irem | ineg | iabs | imin | imax | isad | idot4 | icmp | and |
      or | xor | not | lop3 | shl | shr | sar | rot | fshfL | fshfR | bfe | bfi | popc | clz | ctz | brev | prmt | fadd | fsub | fmul |
      ffma | fmin | fmax | fminn | fmaxn | fcmp | fclass | frnd | fscale | fdiv | fsqrt | frcp | frsq | fexp2 | flog2 | fsin | fcos |
      ftanh | cvt | qpack | qunpk | mov | sel | pset | pmovV | pmovP | iaddImm | isubImm | imulImm | iminImm | imaxImm | andImm | orImm
      | xorImm | shlImm | shrImm | sarImm | rotImm | faddImm | fsubImm | fmulImm | fminImm | fmaxImm | fminnImm | fmaxnImm | movi | movh =>
    exact runWord_kept (aluBody_mem _ _) formed
  case pair | txstat => exact runWord_kept (fun w => State.modLanes_mem ..) formed
  case yield => exact runWord_kept (fun w => State.modGroup_mem ..) formed
  case nop | bpt | trap => exact runWord_kept (fun w => rfl) formed
  case bra | brx | call | ret => exact runWord_kept (fun w => transfer_mem ..) formed
  case exit => exact runWord_kept (fun w => exitBody_mem ..) formed
  case mxq => exact runWord_kept (fun w => mxqBody_mem ..) formed
  case mfs => exact runWord_kept (fun w => mfsBody_mem ..) formed
  case mts => exact runWord_kept (fun w => mtsBody_mem ..) formed
  case shfl => exact runWord_kept (fun w => shflBody_mem ..) formed
  case matchUniform => exact runWord_kept (fun w => matchUniformBody_mem ..) formed
  case gred => exact runWord_kept (fun w => gredBody_mem ..) formed
  case mshape => exact runWord_kept (fun w => mshapeBody_mem ..) formed
  case waitc => exact runWord_kept (fun w => waitcBody_mem ..) formed
  case mfc => exact runWord_kept (fun w => mfcBody_mem ..) formed
  case sdopen => exact runWord_kept (fun w => sdopenBody_mem ..) formed
  case drop => exact runWord_kept (fun w => dropBody_mem ..) formed
  case voteEvery | voteSome | voteSame | elect => exact runWord_kept (fun w => allPred_mem ..) formed
  case voteMask | matchPeers | voteCount => exact runWord_kept (fun w => allReg_mem ..) formed
  case ld | st | ldr | atom | atomv | red =>
    exact runWord_formed (masked_formed (accesses_formed fun w l s kept => anyAccess_formed kept)) formed
  case lds | sts => exact runWord_formed (scratchWord_formed) formed
  case ldMx | stMx => exact runWord_formed (fun w kept _ => laneLoop_formed (fun l s kept => mxAccess_formed kept) kept) formed
  case preq => exact runWord_formed (fun w kept _ => preqBody_formed kept) formed
  case fence => exact runWord_kept (fun w => fence_mem w) formed
  case cctlLine => exact runWord_kept (fun w => eachWalk_mem (cctlLineAt_mem w)) formed
  case cctlIfetch => exact runWord_kept (fun w => eachWalk_mem (cctlFetchAt_mem w)) formed
  case cctlAll => exact runWord_kept (fun w => (l1Clear_beside ..).2.1) formed
  case tlbiPage => exact runWord_formed (fun w => whenQuiet_formed (FormedBody.same fun w => eachAddr_mem (tlbiPageAt_mem _)) w) formed
  case tlbiAsid => exact runWord_formed (fun w => whenQuiet_formed (FormedBody.same fun w => tlbiWhere_mem ..) w) formed
  case tlbiAll => exact runWord_formed (whenQuiet_formed (FormedBody.same fun w => tlbiWhere_mem ..)) formed
  case txbegin | txbeginTs => exact runWord_kept (fun w => txBegin_mem ..) formed
  case txbeginO => exact runWord_kept (fun w => txBeginOBody_mem ..) formed
  case txcommit => exact runWord_kept (fun w => txCommitBody_mem ..) formed
  case txabort => exact runWord_kept (fun w => txAbortBody_mem ..) formed
  case barInit => exact runWord_formed (withBarrier_formed fun b => FormedBody.same (barInitBody_mem _ b)) formed
  case barArr => exact runWord_formed (withBarrier_formed fun b => FormedBody.same (barArrBody_mem _ b)) formed
  case barWait => exact runWord_formed (withBarrier_formed fun b => FormedBody.same (barWaitBody_mem _ b)) formed
  case barSync => exact runWord_formed (withBarrier_formed fun b => FormedBody.same (barSyncBody_mem _ b)) formed
  case barArrRmt => exact runWord_kept (fun w => barRmtBody_mem ..) formed
  case spawn => exact runWord_formed (notInMerge_formed spawnBody_formed) formed
  case sync => exact runWord_formed (notInMerge_formed (FormedBody.same (syncBody_mem _))) formed
  case endt => exact runWord_formed (notInMerge_formed fun w kept _ => endtBody_formed kept) formed
  case invokeCore | invokeAny | invokeStake | invokeDie =>
    exact runWord_formed (notInMerge_formed (FormedBody.same (invokeBody_mem _ _))) formed
  case await | poll => exact runWord_kept (fun w => queryBody_mem ..) formed
  case fulfil | brk => exact runWord_kept (fun w => settleOwn_mem ..) formed
  case copy => exact runWord_formed (counted_formed (FormedBody.same (copyBody_mem _))) formed
  case copyMc => exact runWord_formed (counted_formed (FormedBody.same (copyMcBody_mem _))) formed
  case fill => exact runWord_formed (counted_formed (FormedBody.same (fillBody_mem _))) formed
  case mma => exact runWord_formed (counted_formed (FormedBody.same (mmaBody_mem _))) formed
  case accld | accst => exact runWord_formed (counted_formed (FormedBody.same (accBody_mem _ _))) formed
  case accz => exact runWord_formed (counted_formed (FormedBody.same (acczBody_mem _))) formed
  case nred => exact runWord_formed (counted_formed fun w kept _ => nredBody_formed kept) formed
  case nbar => exact runWord_formed (counted_formed fun w kept _ => nbarBody_formed kept) formed
  case monw => exact runWord_formed (monwBody_formed) formed
  case eret => exact runWord_formed (fun w kept _ => eretBody_formed kept) formed
  case halt => exact runWord_formed (fun w kept _ => haltBody_formed kept) formed
  case mtc => exact runWord_kept (mtcChecked_mem (mtcBody_mem _)) formed
  case mtcPtbase => exact runWord_kept (mtcChecked_mem ptbaseBody_mem) formed
  case mtcAsid => exact runWord_kept (mtcChecked_mem asidBody_mem) formed
  case teamAdmission => exact execTeamAdmission_formed formed
  case taskAdmission => exact execTaskAdmission_formed formed
  case placement => exact execPlacement_formed formed
  case preemption => exact execPreemption_formed formed
  case preemptionSave => exact execPreemptionSave_formed formed
  case teamResume => exact execTeamResume_formed formed
  case fold => exact execFold_formed formed
  case mergeGroupRetire => exact execMergeGroupRetire_formed formed
  case syncApplication => exact execSyncApplication_formed formed
  case gridCompletion => exact execGridCompletion_formed formed
  case launchCompletion => exact execLaunchCompletion_formed formed
  case stakeMessage => exact execStakeMessage_formed formed
  case lineDelivered => exact execLineDelivered_formed formed
  case engineOpComplete => exact execEngineOpComplete_formed formed
  case mcDrain => exact execMcDrain_formed formed
  case matrixOpStart => exact execMatrixOpStart_formed formed
  case monitorReread => exact execMonitorReread_formed formed
  case monitorPoll => exact execMonitorPoll_formed formed
  case monitorTimeout => exact execMonitorTimeout_formed formed
  case commitRound => exact execCommitRound_formed formed
  case cairn => exact execCairn_formed formed
  case orderedCommit => exact execOrderedCommit_formed formed
  case irrevocableBegin => exact execIrrevocableBegin_formed formed
  case watchdog => exact execWatchdog_formed formed
  case accessPerform => exact execAccessPerform_formed formed
  case eviction => exact execEviction_formed formed
  case spontaneousWriteback => exact execSpontaneousWriteback_formed formed
  case refresh => exact execRefresh_formed formed
  case contextFatalReport => exact execContextFatalReport_formed formed
  case trapEntry => exact execTrapEntry_formed formed
  case asyncFaultDelivery => exact execAsyncFaultDelivery_formed formed
  case handlerWatchdog => exact execHandlerWatchdog_formed formed
  case remoteArrival => exact execRemoteArrival_formed formed
  case remoteAck => exact execRemoteAck_formed formed
  case peerAccess => exact execPeerAccess_formed formed
  case flitReceive => exact execFlitReceive_formed formed
  case portDown => exact execPortDown_formed formed
  case peerLost => exact execPeerLost_formed formed
  case routerInput => exact execRouterInput_formed formed
  case roundTimeout => exact execRoundTimeout_formed formed
  case roundComplete => exact execRoundComplete_formed formed
  case doorbell => exact execDoorbell_formed formed
  case launch => exact execLaunch_formed formed
  case contextCreate => exact execContextCreate_formed formed
  case contextAttach => exact execContextAttach_formed formed
  case contextDestroy => exact execContextDestroy_formed formed
  case checkpoint => exact execCheckpoint_formed formed
  case restore => exact execRestore_formed formed
  case dieReset => exact execDieReset_formed formed
  case exportWindow => exact execExportWindow_formed formed
  case dieReadmission => exact execDieReadmission_formed formed
  case routerFailure => exact execRouterFailure_formed formed
  case fabricError => exact execFabricError_formed formed
  case proxyAnswer => exact execProxyAnswer_formed formed
  case coreReset => exact execCoreReset_formed formed
  case moduleReset => exact execModuleReset_formed formed
  case trainingComplete => exact execTrainingComplete_formed formed
  case dieAdmission => exact execDieAdmission_formed formed
  case jiathTraining => exact execJiathTraining_formed formed
  case jiathTrainingTimeout => exact execJiathTrainingTimeout_formed formed
  case loadFirmware => exact execLoadFirmware_formed formed
  case setPriv => exact execSetPriv_formed formed
  case clearPriv => exact execClearPriv_formed formed
  case readSensors => exact execReadSensors_formed formed
  case setPowerLimit => exact execSetPowerLimit_formed formed
  case setAccess => exact execSetAccess_formed formed
  case getVersion => exact execGetVersion_formed formed
  case getCapabilities => exact execGetCapabilities_formed formed
  case negotiateAlgorithms => exact execNegotiateAlgorithms_formed formed
  case getDigests => exact execGetDigests_formed formed
  case getCertificate => exact execGetCertificate_formed formed
  case challenge => exact execChallenge_formed formed
  case getMeasurements => exact execGetMeasurements_formed formed
  case pop => exact execPop_formed formed
  case ovfClear => exact execOvfClear_formed formed
  case throttle => exact execThrottle_formed formed
  case thermalTrip => exact execThermalTrip_formed formed
  case thermalRelease => exact execThermalRelease_formed formed
  case pciExpressRequest => exact execPciExpressRequest_formed formed

theorem runTurn_formed {t : Turn} {s : State} (formed : Formed s) : FormedNext (runTurn t s) := by
  cases t
  case event i a =>
    unfold runTurn
    dsimp only
    split
    · trivial
    · exact exec_formed formed
  case issue core pipe busy d a =>
    unfold runTurn
    dsimp only
    cases pickIssue s core pipe busy with
    | none => exact formed
    | some g =>
      have issued := beginIssue_formed (g := g) (defer := d) formed
      rw [Option.map_some]
      generalize beginIssue s g d = r at issued
      cases r with
      | trapped s1 => exact issued
      | run i s1 => exact exec_formed issued
      | idle => exact formed
  all_goals simp [runTurn, formed]

theorem step_formed {s : State} (formed : Formed s) : FormedNext (step s) := by
  have turned := runTurn_formed (t := (nextTurn s).1) (formed_of_mem (nextTurn_mem s) formed)
  unfold step
  dsimp only
  generalize runTurn (nextTurn s).1 (nextTurn s).2 = r at turned
  cases r with
  | next t => exact formed_of_mem (passed_mem ..) turned
  | fault f => trivial
  | refused f => trivial

/-- Settles O50: memory is written by `memWrite` alone, but for the checkpoint, the restore and the module reset, and each of these
keeps the one form. -/
theorem memoryFormKept : Obligations.MemoryFormKept := by
  intro s u formed stepped
  have kept := step_formed (s := s) formed
  rw [stepped] at kept
  exact kept

end Sys2Proof.Machine
end
